-- ==== Sys2Proof/Word.lean ====
section
/-! DEFINITION. The word types of the Z940 (R2, R10) and nothing else. -/

namespace Sys2Proof

/-- A 64-bit register or pointer. -/
abbrev Word := BitVec 64

/-- One byte of a memory. -/
abbrev Byte := BitVec 8

/-- One 16-bit instruction word (R46). -/
abbrev IWord := BitVec 16

end Sys2Proof
end

