-- ==== Sys2Proof/Config.lean ====
section
/-! DEFINITION. What one implementation fixes and the spec leaves open. The opaque constants have no body: nothing in
Lean can evaluate them or prove a value of them, so a statement that mentions them holds for every value (log 4). -/

namespace Sys2Proof

/-- A free natural number for choice `site` at counter `ctr` (times within a bound R414, free ids R292, replacement
R236, stale translations R238). -/
opaque Config.free : Nat → Nat → Nat

/-- A free 64-bit value: a value the spec does not state. -/
opaque Config.freeWord : Nat → Nat → Word

/-- Whether the RSASSA-PSS signature over a digest verifies against the fused keys (R409). -/
opaque Config.verifyRsa : BitVec 384 → List Byte → Bool

/-- Whether the SLH-DSA signature over a digest verifies against the fused keys (R409). -/
opaque Config.verifySlh : BitVec 384 → List Byte → Bool

/-- The 256-bit device identity (R410). -/
opaque Config.deviceId : BitVec 256

/-- The fuse-set version (R410). -/
opaque Config.fuseVersion : Word

/-- The RSASSA-PSS signature of an attestation report's text (R410). -/
opaque Config.signRsa : List Byte → List Byte

/-- The SLH-DSA signature of an attestation report's text (R410). -/
opaque Config.signSlh : List Byte → List Byte

/-- A size that the device fixes, drawn between the bounds that `Config.logRecordBytes` names. -/
opaque Config.freeSize : Nat

/-- Bytes of a write-log record in the overflow area (Table 19.4): the device's, at least the 8 bytes of an operand with the 8 of an address and at
most a line with its mask and address (R244, log 64). -/
def Config.logRecordBytes : Nat := 16 + Config.freeSize % 281

/-- A free choice from `lo` to `hi`, both included (R414). -/
def Config.pick (ctr site lo hi : Nat) : Nat :=
  lo + Config.free ctr site % (hi - lo + 1)

end Sys2Proof
end

