-- ==== Sys2Proof/Machine/Bits.lean ====
section
/-! DEFINITION. Bit fields, byte order, and the two keyed lists every table and memory of the machine is held in. -/

namespace Sys2Proof.Machine

/-- Bits [hi:lo] of a word, as a number (R2). -/
def bits (w : Word) (hi lo : Nat) : Nat :=
  (w.toNat / 2 ^ lo) % 2 ^ (hi + 1 - lo)

/-- Bit `i` of a word. -/
def bit (w : Word) (i : Nat) : Bool :=
  w.toNat.testBit i

/-- `w` with bits [hi:lo] replaced by the low bits of `v`. -/
def setBits (w : Word) (hi lo v : Nat) : Word :=
  let n := hi + 1 - lo
  BitVec.ofNat 64 (w.toNat - bits w hi lo * 2 ^ lo + (v % 2 ^ n) * 2 ^ lo)

/-- A number as a word. -/
def wd (n : Nat) : Word := BitVec.ofNat 64 n

/-- A truth value as a word. -/
def b2w (b : Bool) : Word := if b then 1 else 0

/-- Ceiling division. -/
def cdiv (a b : Nat) : Nat := (a + b - 1) / b

/-- The `n` little-endian bytes of `v`, lowest address first (R3). -/
def toBytes : Nat → Nat → List Byte
  | 0, _ => []
  | n + 1, v => BitVec.ofNat 8 (v % 256) :: toBytes n (v / 256)

/-- The number that little-endian bytes hold (R3). -/
def ofBytes : List Byte → Nat
  | [] => 0
  | b :: bs => b.toNat + 256 * ofBytes bs

/-- A signed reading of the low `w` bits of `n`. -/
def signed (w n : Nat) : Int :=
  let v := n % 2 ^ w
  if 2 * v < 2 ^ w then (v : Int) else (v : Int) - (2 ^ w : Nat)

/-- The low `w` bits of the two's complement of `x`. -/
def wrapTo (w : Nat) (x : Int) : Nat :=
  (x % ((2 ^ w : Nat) : Int)).toNat

/-- The value kept under key `k`, or `d`. -/
def getK {α : Type} (d : α) : List (Nat × α) → Nat → α
  | [], _ => d
  | (j, v) :: t, k => if k = j then v else getK d t k

/-- Put `v` under key `k`, keeping the keys in rising order. -/
def setK {α : Type} : List (Nat × α) → Nat → α → List (Nat × α)
  | [], k, v => [(k, v)]
  | (j, u) :: t, k, v =>
    if k < j then (k, v) :: (j, u) :: t
    else if k = j then (k, v) :: t
    else (j, u) :: setK t k v

/-- Take key `k` out. -/
def delK {α : Type} (l : List (Nat × α)) (k : Nat) : List (Nat × α) :=
  l.filter (fun x => x.1 != k)

/-- The keys present. -/
def keysK {α : Type} (l : List (Nat × α)) : List Nat := l.map (·.1)

/-- Element `i` of a list, or `d`. -/
def nth {α : Type} (d : α) (l : List α) (i : Nat) : α := l.getD i d

/-- A memory: (address, byte) pairs in rising address order, none equal to what an unlisted byte reads as. -/
abbrev Memory := List Host.Cell

/-- What a byte that nothing has written reads as: 0 (log 2, DESIGN CHOICE). -/
def Memory.blank : Byte := 0

/-- Read one byte. -/
def Memory.read (m : Memory) (a : Nat) : Byte := getK Memory.blank m a

/-- Write one byte, keeping the canonical form. -/
def Memory.write (m : Memory) (a : Nat) (b : Byte) : Memory :=
  if b = Memory.blank then delK m a else setK m a b

/-- The addresses rise strictly. -/
def risingK {α : Type} : List (Nat × α) → Bool
  | [] => true
  | [_] => true
  | (i, _) :: (j, y) :: t => decide (i < j) && risingK ((j, y) :: t)

/-- The canonical form of a memory. -/
def Memory.wf (m : Memory) : Bool :=
  risingK m && m.all (fun x => x.2 != Memory.blank)

/-- Read `n` bytes from address `a` upward. -/
def Memory.readN (m : Memory) (a : Nat) : Nat → List Byte
  | 0 => []
  | n + 1 => m.read a :: Memory.readN m (a + 1) n

/-- Write bytes from address `a` upward. -/
def Memory.writeN (m : Memory) (a : Nat) : List Byte → Memory
  | [] => m
  | b :: bs => Memory.writeN (m.write a b) (a + 1) bs

/-- The little-endian number in `n` bytes at `a`. -/
def Memory.num (m : Memory) (a n : Nat) : Nat := ofBytes (m.readN a n)

end Sys2Proof.Machine
end

