-- ==== Sys2Proof/Syntax.lean ====
section
/-! DEFINITION. The syntax of the Z940: operands, the data that a happening of the device carries, and the one
inductive `Instr` with a constructor for every row of the opcode table: its instructions (Tables 3.5 to 3.12),
then its events. An instruction carries its decoded operands (`Args`); an event carries the data that says whom it
concerns. No raw encoding reaches the machine. -/

namespace Sys2Proof

/-- The post-increment of a memory operand (R34, R53). -/
inductive Inc where
  | none
  | size
  | imm
  | reg (n : BitVec 7)
  deriving DecidableEq, Repr

/-- An operand after decoding: its class (Tables 3.3 and 3.4) and its number in that class. -/
inductive Opnd where
  | none
  | g (n : BitVec 7)
  | s (n : BitVec 4)
  | m (n : BitVec 5)
  | p (n : BitVec 3)
  | k (n : BitVec 2)
  | q (n : BitVec 3)
  | acc (n : BitVec 3)
  | slot (n : BitVec 1)
  | cr (n : BitVec 7)
  | num (n : BitVec 7)
  | mem (p : BitVec 3) (inc : Inc)
  deriving DecidableEq, Repr

/-- The decoded parts of an instruction: guard predicate and sense (R54), modifier field (R38), the operands of
fields fa, fb and fc, and the immediate extended to 64 bits (R49). -/
structure Args where
  guard : BitVec 3 := 0
  sense : Bool := false
  mod : BitVec 3 := 0
  a : Opnd := .none
  b : Opnd := .none
  c : Opnd := .none
  imm : Word := 0
  deriving DecidableEq, Repr

/-- What the device knows of an instruction in flight: who issued it, its address and length, the word that a trap
reports (R57), whether it is exempt from breakpoints and watchpoints (R143), and the cycle of its issue. -/
structure Ctx where
  core : Nat := 0
  strand : Nat := 0
  addr : Word := 0
  len : Nat := 0
  word : IWord := 0
  xb : Bool := false
  at_ : Nat := 0
  deriving DecidableEq, Repr

/-- How an instruction completes: the value written to its destination and the pointers advanced (R95). -/
structure Done where
  cx : Ctx := {}
  dst : Opnd := .none
  val : Option Word := Option.none
  ptrs : List (BitVec 3 × Word) := []
  deriving DecidableEq, Repr

/-- The scalar local-store accesses (R191, R192). -/
inductive LocOp where
  | ld | st | swap | cas | add
  deriving DecidableEq, Repr

/-- A scalar access under way: `n` bytes at offset `off` of core `core`, the cycle in which it reaches its bank (R180, R181),
and, once the bank has served it, in which cycle and with which register value, or that a watchpoint has stopped it (R192). -/
structure LocAcc where
  cx : Ctx
  op : LocOp
  n : Nat
  u : Bool
  core : Nat
  off : Nat
  data : Word
  cmp : Word
  dst : Opnd
  ptrs : List (BitVec 3 × Word)
  reach : Nat
  got : Option (Nat × Option Word) := Option.none
  watched : Option Word := Option.none
  deriving DecidableEq, Repr

/-- A deposit on its way to a slot (R323): sender, the task it ran for, and its latency L. -/
structure DepMsg where
  cx : Ctx
  core : Nat
  slot : Nat
  val : Word
  task : Option Nat
  lat : Nat
  sendl : Bool := false
  deriving DecidableEq, Repr

/-- A `sendl` under way (R328). -/
structure SendlJob where
  cx : Ctx
  slot : Nat
  val : Word
  task : Option Nat
  cores : List Nat
  lat : Nat
  issued : Nat
  ok : Bool
  deriving DecidableEq, Repr

/-- Who claims a link queue (R318). -/
inductive Claim where
  | none | system | task (r : Nat)
  deriving DecidableEq, Repr

/-- A word pushed to port `port` of core `core` (R317, R319). -/
structure Push where
  cx : Ctx
  core : Nat
  port : Nat
  val : Word
  claim : Claim
  popped : Bool
  deriving DecidableEq, Repr

/-- A nest descriptor as read by `nesti` (Table 7.4). -/
structure NestDesc where
  e0 : Nat
  e1 : Nat
  e2 : Nat
  e3 : Nat
  minChunk : Nat
  mask : BitVec 16
  deriving DecidableEq, Repr

/-- The global accesses of *Memories III*. -/
inductive GKind where
  | ld
  | st
  | amo (op : BitVec 3)
  | amoc
  | red (op : BitVec 3)
  deriving DecidableEq, Repr

/-- A global access under way (R231, R251 to R253). -/
structure GAcc where
  cx : Ctx
  kind : GKind
  n : Nat
  va : Word
  data : Word
  cmp : Word
  dst : Opnd
  ordered : Bool
  id : Nat := 0
  deriving DecidableEq, Repr

/-- What a walk of the translation table is made for (R236): an access of a strand, a copy entry, the fetch of a strand's next chain, the
footprint of a record, or an instruction that translates addresses in one step, named by its strand and issue. -/
inductive WalkFor where
  | access (g : GAcc)
  | copy (id : Nat)
  | text (t : Nat)
  | footprint (r : Nat)
  | strand (cx : Ctx)
  deriving DecidableEq, Repr

/-- A walk: the core that asks, the address, and what for. -/
structure WalkReq where
  core : Nat
  va : Nat
  who : WalkFor
  deriving DecidableEq, Repr

/-- Where a global access is performed (R242, R257). -/
inductive GLoc where
  | imm (pa : Nat)
  | task (pa : Nat)
  | lin (node off : Nat)
  | remote (host : Bool) (node : Nat) (pa : Nat)
  | counter (off : Nat)
  | done (v : Word)
  deriving DecidableEq, Repr

/-- A byte of committed memory: a physical address or an offset of a lineage node. -/
inductive GAddr where
  | phys (a : Nat)
  | lin (node off : Nat)
  deriving DecidableEq, Repr

/-- The lock modes in the coding of R383. -/
inductive Mode where
  | is | ix | in_ | s | six | inc | x
  deriving DecidableEq, Repr

/-- A lockable object of Table 18.1. -/
structure LObj where
  kind : Nat
  key : Nat
  deriving DecidableEq, Repr

/-- A node operation (R281, R292, R293). -/
inductive NodeOp where
  | fork (parent ntiles child : Nat)
  | rebase (node parent : Nat)
  | flat (node : Nat)
  | drop (node : Nat)
  deriving DecidableEq, Repr

/-- A window operation (R303, R311 to R315); a `kvw` carries its target's physical address and the address itself. -/
inductive WinOp where
  | open_ (seq : Nat) (img : List Word)
  | close (seq gen off : Nat)
  | kvw (seq gen pos line : Nat) (state : Bool) (target va : Nat) (data : List Byte)
  | kvc (seq gen n : Nat) (plist : List (Nat × Nat)) (state : List (Nat × Nat))
  | kvd (seq gen : Nat)
  | pgal (seq gen idx page : Nat)
  | pgfr (page : Nat)
  deriving DecidableEq, Repr

/-- What a lock request was made for, and so what its grant lets happen. -/
inductive LCont where
  | access (g : GAcc) (loc : GLoc)
  | node (op : NodeOp) (dst : Opnd)
  | win (op : WinOp) (d : Done)
  | lock (dst : Opnd)
  | lcv (dst : Opnd) (obj : LObj) (m : Mode)
  | footprint (r : Nat)
  | lineage (c : Nat)
  | copy (c id : Nat)
  | escalated (tile : LObj) (k : LCont)
  deriving DecidableEq, Repr

/-- A lock request: the task it is made for (none outside tasks), the objects still to be asked for from the top of
the chain down with their modes (R385), what follows the last grant, and the mode E of the escalation when its last grant has raised LCNT above LIMIT (R395). -/
structure LReq where
  cx : Ctx
  task : Option Nat
  todo : List (LObj × Mode)
  cont : LCont
  id : Nat := 0
  raised : Option Mode := none
  deriving DecidableEq, Repr

/-- An element that detects errors (R406, Table 19.3). -/
inductive Element where
  | lsBank (core bank : Nat)
  | hbmRow (stack row : Nat)
  | l2Way (slice way : Nat)
  | lane (port lane : Nat)
  | other (id : Nat)
  deriving DecidableEq, Repr

/-- Who made an uncorrectable read (R408): a task, a copy entry, with the byte of its next run that cannot be corrected, or a strand for an
instruction. -/
inductive BadReader where
  | task (r core : Nat)
  | copy (c id byte : Nat)
  | strand (cx : Ctx) (addr : Word)
  deriving DecidableEq, Repr

/-- An uncorrectable read: the element that detected it (R406), and who made it. -/
structure BadRead where
  element : Element
  reader : BadReader
  deriving DecidableEq, Repr

/-- A `swap` under way (R141, R150): strand 0's instruction, its destination, the strand moved, and the code of the state it
is left in. -/
structure SwapJob where
  cx : Ctx
  dst : Opnd
  target : Nat
  final : Nat
  deriving DecidableEq, Repr

/-- A request of a fabric node (R401); `peer` says that the node is a peer Z940. -/
structure FabReq where
  node : Nat
  port : Nat
  tag : Nat
  addr : Nat
  n : Nat
  data : List Byte
  peer : Bool := false
  deriving DecidableEq, Repr

/-- The 64-bit atomics every node may request (Table 19.1). -/
inductive FabAtomic where
  | add | swap | cas
  deriving DecidableEq, Repr

/-- A counter of Table 7.6 or of R291. -/
inductive CounterId where
  | core (c i : Nat)
  | lineage (i : Nat)
  deriving DecidableEq, Repr

/-- An item of bring-up (Table 19.4) or of the security policy. -/
inductive BringUp where
  | selfTest (faults : List Element)
  | root (pa : Nat)
  | kvBase (va : Nat)
  | npages (n : Nat)
  | lineageUnits (n : Nat)
  | windowRecords (n : Nat)
  | poolBase (pa : Nat)
  | ceil (die v : Nat)
  | text (pa : Nat) (bytes : List Byte)
  | debugLock (b : Bool)
  | eraseOnTamper (b : Bool)
  | manager (node : Nat)
  deriving DecidableEq, Repr

/-- The tables that the debug port reads (R404). -/
inductive DebugTable where
  | node0 | node1 | lockEntry | lockRecord | sequence | bias | biasState | adaptation | slot
  deriving DecidableEq, Repr

/-- What a CONTROL_PLANE_REPLY brings back: a status settled at issue, or a query that is read at the reply. -/
inductive Query where
  | value (v : Word)
  | lnq (node item : Nat)
  | kvq (handle : Word)
  | lq (level : Nat) (addr : Word)
  deriving DecidableEq, Repr

/-- Every row of the opcode table: the instructions, then the happenings that other steps set going, then the rest. -/
inductive Instr where
  | add (x : Args)
  | sub (x : Args)
  | mul (x : Args)
  | mulh (x : Args)
  | div (x : Args)
  | rem (x : Args)
  | and (x : Args)
  | or (x : Args)
  | xor (x : Args)
  | andn (x : Args)
  | shl (x : Args)
  | shr (x : Args)
  | sar (x : Args)
  | rol (x : Args)
  | min (x : Args)
  | max (x : Args)
  | addi (x : Args)
  | andi (x : Args)
  | ori (x : Args)
  | xori (x : Args)
  | shli (x : Args)
  | shri (x : Args)
  | sari (x : Args)
  | roli (x : Args)
  | clz (x : Args)
  | ctz (x : Args)
  | popc (x : Args)
  | abs (x : Args)
  | neg (x : Args)
  | sext (x : Args)
  | zext (x : Args)
  | mov (x : Args)
  | movi (x : Args)
  | bfx (x : Args)
  | bfi (x : Args)
  | sel (x : Args)
  | cmpEq (x : Args)
  | cmpNe (x : Args)
  | cmpLt (x : Args)
  | cmpLe (x : Args)
  | cmpiEq (x : Args)
  | cmpiNe (x : Args)
  | cmpiLt (x : Args)
  | cmpiLe (x : Args)
  | tst (x : Args)
  | fadd (x : Args)
  | fsub (x : Args)
  | fmul (x : Args)
  | fmin (x : Args)
  | fmax (x : Args)
  | ffma (x : Args)
  | fabs (x : Args)
  | fneg (x : Args)
  | fexp2 (x : Args)
  | frcp (x : Args)
  | fcvt (x : Args)
  | fcmpEq (x : Args)
  | fcmpLt (x : Args)
  | fcmpLe (x : Args)
  | fcmpUn (x : Args)
  | padd (x : Args)
  | pmk (x : Args)
  | pget (x : Args)
  | pmov (x : Args)
  | qand (x : Args)
  | qor (x : Args)
  | qxor (x : Args)
  | qnot (x : Args)
  | qmov (x : Args)
  | br (x : Args)
  | jmp (x : Args)
  | call (x : Args)
  | ret (x : Args)
  | nop (x : Args)
  | halt (x : Args)
  | sleep (x : Args)
  | ld (x : Args)
  | st (x : Args)
  | ldx (x : Args)
  | stx (x : Args)
  | lswap (x : Args)
  | lcas (x : Args)
  | ladd (x : Args)
  | vadd (x : Args)
  | vsub (x : Args)
  | vmul (x : Args)
  | vfma (x : Args)
  | vmin (x : Args)
  | vmax (x : Args)
  | vabs (x : Args)
  | vneg (x : Args)
  | vexp (x : Args)
  | vrcp (x : Args)
  | vrsq (x : Args)
  | vcvt (x : Args)
  | vcpy (x : Args)
  | vsum (x : Args)
  | vrmax (x : Args)
  | vrmin (x : Args)
  | vdot (x : Args)
  | vscal (x : Args)
  | vfill (x : Args)
  | vclamp (x : Args)
  | vcmp (x : Args)
  | vsel (x : Args)
  | vgath (x : Args)
  | vscat (x : Args)
  | vtrans (x : Args)
  | mma (x : Args)
  | mmas (x : Args)
  | mldb (x : Args)
  | mrot (x : Args)
  | mdrop (x : Args)
  | mza (x : Args)
  | mst (x : Args)
  | mlda (x : Args)
  | macc (x : Args)
  | rep (x : Args)
  | repw (x : Args)
  | mcorr (x : Args)
  | ldg (x : Args)
  | stg (x : Args)
  | amo (x : Args)
  | amoc (x : Args)
  | red (x : Args)
  | fence (x : Args)
  | pfg (x : Args)
  | cpy (x : Args)
  | cpy2 (x : Args)
  | cpyg (x : Args)
  | qfence (x : Args)
  | qst (x : Args)
  | send (x : Args)
  | sendl (x : Args)
  | mpk (x : Args)
  | mclr (x : Args)
  | mbind (x : Args)
  | lnks (x : Args)
  | bari (x : Args)
  | bara (x : Args)
  | barw (x : Args)
  | barq (x : Args)
  | nesti (x : Args)
  | nestn (x : Args)
  | nestq (x : Args)
  | waita (x : Args)
  | stamp (x : Args)
  | patch (x : Args)
  | arm (x : Args)
  | tdone (x : Args)
  | tq (x : Args)
  | tfail (x : Args)
  | rqp (x : Args)
  | rqt (x : Args)
  | fork (x : Args)
  | rebase (x : Args)
  | flat (x : Args)
  | drop (x : Args)
  | lnq (x : Args)
  | ldel (x : Args)
  | lres (x : Args)
  | kvo (x : Args)
  | kvw (x : Args)
  | kvc (x : Args)
  | kvd (x : Args)
  | kvq (x : Args)
  | pgal (x : Args)
  | pgfr (x : Args)
  | lock (x : Args)
  | lcv (x : Args)
  | lq (x : Args)
  | lmld (x : Args)
  | selk (x : Args)
  | softk (x : Args)
  | hpush (x : Args)
  | hpop (x : Args)
  | hclr (x : Args)
  | htopp (x : Args)
  | rand (x : Args)
  | biasu (x : Args)
  | biasf (x : Args)
  | adpl (x : Args)
  | mfc (x : Args)
  | mtc (x : Args)
  | start (x : Args)
  | reap (x : Args)
  | swap (x : Args)
  | wmf (x : Args)
  | wmt (x : Args)
  | trap (x : Args)
  | rft (x : Args)
  | brk (x : Args)
  | step (x : Args)
  | hold (x : Args)
  | resume (x : Args)
  | tlbi (x : Args)
  | ccf (x : Args)
  | localAccessComplete (a : LocAcc)
  | meshAccessComplete (a : LocAcc)
  | vectorComplete (d : Done)
  | selectionComplete (d : Done)
  | deposit (m : DepMsg)
  | sendAnswer (cx : Ctx) (ok : Bool)
  | sendlStage (j : SendlJob) (stage : Nat)
  | linkPushEntry (p : Push)
  | barrierArriveEffect (cx : Ctx) (n : Nat)
  | barrierBindEffect (cx : Ctx) (n : Nat) (mask : BitVec 16) (dst : Opnd)
  | nestLoadEffect (cx : Ctx) (n : Nat) (d : NestDesc) (dst : Opnd)
  | stampReturn (cx : Ctx) (dst : Opnd)
  | matrixEntryComplete (c id : Nat)
  | l1splitTakeEffect (cx : Ctx) (v : Word)
  | icacheFill (c t : Nat) (lines : List Nat)
  | governorRequest (c demand : Nat)
  | translationWalkComplete (w : WalkReq)
  | globalAccessComplete (g : GAcc) (loc : GLoc)
  | postedAck (c id : Nat)
  | peerTimeout (c id : Nat)
  | lineageEntryComplete (c : Nat)
  | copyEntryComplete (c id : Nat)
  | lockRequestArrival (r : LReq)
  | lockGrant (r : LReq)
  | commitRelease (r : Nat)
  | footprintFetchComplete (r c : Nat)
  | taskRetire (r : Nat)
  | taskFault (r core : Nat) (cause : Byte)
  | swapComplete (j : SwapJob)
  | ccfComplete (cx : Ctx) (dst : Opnd) (mask : BitVec 32)
  | tlbiAck (cx : Ctx) (all : Bool) (va : Word)
  | gangHoldArrival (c : Nat) (ts : List Nat) (dport : Bool)
  | biasuComplete (cx : Ctx) (set first : Nat) (vals : List (BitVec 32)) (dst : Opnd)
  | adplApply (cx : Ctx) (b c : Word) (dst : Opnd)
  | lmldApply (cx : Ctx) (rows : List Byte) (limit : Nat) (dst : Opnd)
  | selfTestComplete (e : Element) (lasting : Bool)
  | stateTransferComplete (d : Done) (target : Nat)
  | nodeOperationComplete (d : Done)
  | windowOperationComplete (d : Done)
  | controlPlaneReply (cx : Ctx) (q : Query) (dst : Opnd)
  | biasBankFlip (cx : Ctx) (set : Nat) (tag : BitVec 24) (dst : Opnd)
  | commitStart (r : Nat)
  | bringUpSetting (b : BringUp)
  | recordImageWrite (r : Nat) (dws : List Word)
  | bringUpComplete (entry : Word)
  | launchMessage (port node : Nat) (m : BitVec 128)
  | launchMessageRelease (id : Nat)
  | illegalInstruction
  | fetchFault (cause : Byte) (bad : Word)
  | breakpointMatch (n : BitVec 2)
  | crTmsgPop (c : Nat)
  | crL1splitWrite (cx : Ctx) (v : Word)
  | crTmrWrite (c t : Nat) (v : Word)
  | crWlimWrite (c t : Nat) (v : Word)
  | crStatW1c (c t : Nat) (v : Word)
  | crAccmWrite (c : Nat) (v : Word)
  | timerExpiry (c t : Nat)
  | timerTrap (c t : Nat)
  | waitLimitExpiry (c t : Nat)
  | handlerEntry (c : Nat)
  | deferredDepositApply (c slot : Nat)
  | deferredBufferEntry (c : Nat)
  | linkPopWake (c t : Nat)
  | linkBlockedPushEntry (c port : Nat)
  | matrixEntryStart (c id : Nat)
  | repReissue (c : Nat)
  | powerGrant (d : Nat)
  | peerReply (c id : Nat) (v : Word) (ok : Bool)
  | postedFailure (c id : Nat) (port : Nat) (why : BitVec 2)
  | fenceComplete (c t : Nat)
  | lineResolve (node line : Nat)
  | lineWriteback (node line : Nat)
  | lineageEntryStart (c : Nat)
  | copyEntryStart (c id : Nat)
  | dieToLoomMove (l : Nat)
  | loomToDieReturn (l : Nat)
  | loomChoose (l : Nat)
  | autoDispatchStart (c : Nat)
  | uncorrectableRead (u : BadRead)
  | errorDetected (e : Element)
  | fabricRead (q : FabReq)
  | fabricWrite (q : FabReq)
  | fabricAtomic (q : FabReq) (op : FabAtomic) (v cmp : Word)
  | fabricVendorAtomic (q : FabReq) (k : GKind) (v cmp : Word)
  | fabricOtherRequest (q : FabReq)
  | counterRead (which : CounterId)
  | counterClear (which : CounterId)
  | errorLogRead (i : Nat)
  | ceilSet (d ceil : Nat)
  | thermalCeilAdjust (d ceil : Nat)
  | debugRead (c t i : Nat)
  | debugWrite (c t i : Nat) (v : Word)
  | debugHold (c t : Nat) (gang : Bool)
  | debugStep (c t : Nat) (gang : Bool)
  | debugResume (c t : Nat) (gang : Bool)
  | debugTableRead (tab : DebugTable) (i : Nat)
  | attestationRequest (nonce : List Byte)
  | tamperAlarm
  | thermalAlarm
  | deviceReset
  | firmwareVerify (image rsaSig slhSig : List Byte)
  deriving DecidableEq, Repr

end Sys2Proof
end

