-- ==== Sys2Proof/Machine/Rows.lean ====
section
/-! DEFINITION. The opcode map (R55, Tables 3.5 to 3.12): for every instruction its page and op6, the native class of
each field, what PX.C may change, the immediate, the legal modifier codes, and the bound an entry puts on its
immediate. -/

namespace Sys2Proof.Machine

/-- The kind of a field (Table 3.4). -/
inductive FKind where
  | none
  | g | m | p | q
  | a | l | c
  | n (lo hi : Nat)
  | mem
  deriving DecidableEq, Repr

/-- What PX.C may do on a row (Table 3.4). -/
inductive PxcMark where
  | no | alu | any
  deriving DecidableEq, Repr

/-- The immediate of a row: none, or at most `j` PX.I words, extended by sign, by zero, by sign unless `.u`, or by
sign and used only as the post-increment of kind 0b10. -/
inductive ImmKind where
  | no
  | s (j : Nat)
  | z (j : Nat)
  | sz (j : Nat)
  | inc (j : Nat)
  deriving DecidableEq, Repr

/-- Whether a row's immediate may be the post-increment of kind 0b10. -/
def ImmKind.isInc : ImmKind → Bool
  | .inc _ => true
  | _ => false

/-- The most PX.I words of a row. -/
def ImmKind.words : ImmKind → Nat
  | .no => 0
  | .s j => j
  | .z j => j
  | .sz j => j
  | .inc j => j

/-- Whether the immediate of a row is sign-extended under a modifier (R55). -/
def ImmKind.isSigned (k : ImmKind) (mod : BitVec 3) : Bool :=
  match k with
  | .s _ => true
  | .inc _ => true
  | .sz _ => !(mod.getLsbD 2)
  | _ => false

/-- A row of the opcode map. `code` is page*64 + op6; modifier codes below `mods` are legal; an immediate at or above
`lim` makes the chain illegal (R57). -/
structure Row where
  code : Nat
  fa : FKind
  fb : FKind
  fc : FKind
  pxc : PxcMark
  imm : ImmKind
  mods : Nat
  lim : Option Nat
  ctor : Args → Instr

/-- Table 3.5: page 0. -/
def rowsPage0 : List Row := [
  ⟨0x0, .g, .g, .g, .alu, .no, 8, none, .add⟩,
  ⟨0x1, .g, .g, .g, .alu, .no, 8, none, .sub⟩,
  ⟨0x2, .g, .g, .g, .alu, .no, 8, none, .mul⟩,
  ⟨0x3, .g, .g, .g, .alu, .no, 8, none, .mulh⟩,
  ⟨0x4, .g, .g, .g, .alu, .no, 8, none, .div⟩,
  ⟨0x5, .g, .g, .g, .alu, .no, 8, none, .rem⟩,
  ⟨0x6, .g, .g, .g, .alu, .no, 8, none, .and⟩,
  ⟨0x7, .g, .g, .g, .alu, .no, 8, none, .or⟩,
  ⟨0x8, .g, .g, .g, .alu, .no, 8, none, .xor⟩,
  ⟨0x9, .g, .g, .g, .alu, .no, 8, none, .andn⟩,
  ⟨0xA, .g, .g, .g, .alu, .no, 8, none, .shl⟩,
  ⟨0xB, .g, .g, .g, .alu, .no, 8, none, .shr⟩,
  ⟨0xC, .g, .g, .g, .alu, .no, 8, none, .sar⟩,
  ⟨0xD, .g, .g, .g, .alu, .no, 8, none, .rol⟩,
  ⟨0xE, .g, .g, .g, .alu, .no, 8, none, .min⟩,
  ⟨0xF, .g, .g, .g, .alu, .no, 8, none, .max⟩,
  ⟨0x10, .g, .g, .none, .alu, (.s 4), 8, none, .addi⟩,
  ⟨0x11, .g, .g, .none, .alu, (.z 4), 8, none, .andi⟩,
  ⟨0x12, .g, .g, .none, .alu, (.z 4), 8, none, .ori⟩,
  ⟨0x13, .g, .g, .none, .alu, (.z 4), 8, none, .xori⟩,
  ⟨0x14, .g, .g, .none, .alu, (.z 1), 8, none, .shli⟩,
  ⟨0x15, .g, .g, .none, .alu, (.z 1), 8, none, .shri⟩,
  ⟨0x16, .g, .g, .none, .alu, (.z 1), 8, none, .sari⟩,
  ⟨0x17, .g, .g, .none, .alu, (.z 1), 8, none, .roli⟩,
  ⟨0x18, .g, .g, .none, .alu, .no, 8, none, .clz⟩,
  ⟨0x19, .g, .g, .none, .alu, .no, 8, none, .ctz⟩,
  ⟨0x1A, .g, .g, .none, .alu, .no, 8, none, .popc⟩,
  ⟨0x1B, .g, .g, .none, .alu, .no, 8, none, .abs⟩,
  ⟨0x1C, .g, .g, .none, .alu, .no, 8, none, .neg⟩,
  ⟨0x1D, .g, .g, .none, .alu, .no, 8, none, .sext⟩,
  ⟨0x1E, .g, .g, .none, .alu, .no, 8, none, .zext⟩,
  ⟨0x1F, .g, .g, .none, .any, .no, 1, none, .mov⟩,
  ⟨0x20, .g, .none, .none, .alu, (.s 4), 1, none, .movi⟩,
  ⟨0x21, .g, .g, .none, .alu, (.z 2), 8, (some 4096), .bfx⟩,
  ⟨0x22, .g, .g, .none, .alu, (.z 2), 8, (some 4096), .bfi⟩,
  ⟨0x23, .g, .g, .g, .alu, .no, 8, none, .sel⟩,
  ⟨0x24, .q, .g, .g, .alu, .no, 8, none, .cmpEq⟩,
  ⟨0x25, .q, .g, .g, .alu, .no, 8, none, .cmpNe⟩,
  ⟨0x26, .q, .g, .g, .alu, .no, 8, none, .cmpLt⟩,
  ⟨0x27, .q, .g, .g, .alu, .no, 8, none, .cmpLe⟩,
  ⟨0x28, .q, .g, .none, .alu, (.sz 4), 8, none, .cmpiEq⟩,
  ⟨0x29, .q, .g, .none, .alu, (.sz 4), 8, none, .cmpiNe⟩,
  ⟨0x2A, .q, .g, .none, .alu, (.sz 4), 8, none, .cmpiLt⟩,
  ⟨0x2B, .q, .g, .none, .alu, (.sz 4), 8, none, .cmpiLe⟩,
  ⟨0x2C, .q, .g, .g, .alu, .no, 8, none, .tst⟩]

/-- Table 3.6: page 1. -/
def rowsPage1 : List Row := [
  ⟨0x40, .g, .g, .g, .alu, .no, 4, none, .fadd⟩,
  ⟨0x41, .g, .g, .g, .alu, .no, 4, none, .fsub⟩,
  ⟨0x42, .g, .g, .g, .alu, .no, 4, none, .fmul⟩,
  ⟨0x43, .g, .g, .g, .alu, .no, 1, none, .fmin⟩,
  ⟨0x44, .g, .g, .g, .alu, .no, 1, none, .fmax⟩,
  ⟨0x45, .g, .g, .g, .alu, .no, 4, none, .ffma⟩,
  ⟨0x46, .g, .g, .none, .alu, .no, 1, none, .fabs⟩,
  ⟨0x47, .g, .g, .none, .alu, .no, 1, none, .fneg⟩,
  ⟨0x48, .g, .g, .none, .alu, .no, 1, none, .fexp2⟩,
  ⟨0x49, .g, .g, .none, .alu, .no, 1, none, .frcp⟩,
  ⟨0x4A, .g, .g, .none, .alu, .no, 8, none, .fcvt⟩,
  ⟨0x4B, .q, .g, .g, .alu, .no, 1, none, .fcmpEq⟩,
  ⟨0x4C, .q, .g, .g, .alu, .no, 1, none, .fcmpLt⟩,
  ⟨0x4D, .q, .g, .g, .alu, .no, 1, none, .fcmpLe⟩,
  ⟨0x4E, .q, .g, .g, .alu, .no, 1, none, .fcmpUn⟩,
  ⟨0x4F, .p, .p, .g, .alu, .no, 1, none, .padd⟩,
  ⟨0x50, .p, .g, .g, .alu, .no, 1, none, .pmk⟩,
  ⟨0x51, .g, .p, .none, .alu, (.z 1), 1, (some 8), .pget⟩,
  ⟨0x52, .p, .p, .none, .no, .no, 1, none, .pmov⟩,
  ⟨0x53, .q, .q, .q, .no, .no, 1, none, .qand⟩,
  ⟨0x54, .q, .q, .q, .no, .no, 1, none, .qor⟩,
  ⟨0x55, .q, .q, .q, .no, .no, 1, none, .qxor⟩,
  ⟨0x56, .q, .q, .none, .no, .no, 1, none, .qnot⟩,
  ⟨0x57, .q, .q, .none, .no, .no, 1, none, .qmov⟩,
  ⟨0x58, .none, .none, .none, .no, (.s 3), 1, none, .br⟩,
  ⟨0x59, .g, .none, .none, .alu, (.s 3), 1, none, .jmp⟩,
  ⟨0x5A, .g, .none, .none, .alu, (.s 3), 1, none, .call⟩,
  ⟨0x5B, .g, .none, .none, .alu, .no, 1, none, .ret⟩,
  ⟨0x5C, .none, .none, .none, .no, .no, 1, none, .nop⟩,
  ⟨0x5D, .none, .none, .none, .no, .no, 1, none, .halt⟩,
  ⟨0x5E, .none, .none, .none, .no, .no, 1, none, .sleep⟩]

/-- Table 3.7: page 2. -/
def rowsPage2 : List Row := [
  ⟨0x80, .g, .mem, .none, .alu, (.inc 3), 8, none, .ld⟩,
  ⟨0x81, .g, .mem, .none, .alu, (.inc 3), 8, none, .st⟩,
  ⟨0x82, .g, .mem, .g, .alu, (.inc 3), 8, none, .ldx⟩,
  ⟨0x83, .g, .mem, .g, .alu, (.inc 3), 8, none, .stx⟩,
  ⟨0x84, .g, .mem, .g, .alu, (.inc 3), 8, none, .lswap⟩,
  ⟨0x85, .g, .mem, .g, .alu, (.inc 3), 8, none, .lcas⟩,
  ⟨0x86, .g, .mem, .g, .alu, (.inc 3), 8, none, .ladd⟩,
  ⟨0x87, .p, .p, .p, .no, .no, 8, none, .vadd⟩,
  ⟨0x88, .p, .p, .p, .no, .no, 8, none, .vsub⟩,
  ⟨0x89, .p, .p, .p, .no, .no, 8, none, .vmul⟩,
  ⟨0x8A, .p, .p, .p, .no, .no, 8, none, .vfma⟩,
  ⟨0x8B, .p, .p, .p, .no, .no, 8, none, .vmin⟩,
  ⟨0x8C, .p, .p, .p, .no, .no, 8, none, .vmax⟩,
  ⟨0x8D, .p, .p, .none, .no, .no, 8, none, .vabs⟩,
  ⟨0x8E, .p, .p, .none, .no, .no, 8, none, .vneg⟩,
  ⟨0x8F, .p, .p, .none, .no, .no, 8, none, .vexp⟩,
  ⟨0x90, .p, .p, .none, .no, .no, 8, none, .vrcp⟩,
  ⟨0x91, .p, .p, .none, .no, .no, 8, none, .vrsq⟩,
  ⟨0x92, .p, .p, .none, .no, .no, 8, none, .vcvt⟩,
  ⟨0x93, .p, .p, .none, .no, .no, 1, none, .vcpy⟩,
  ⟨0x94, .p, .p, .none, .no, .no, 8, none, .vsum⟩,
  ⟨0x95, .p, .p, .none, .no, .no, 8, none, .vrmax⟩,
  ⟨0x96, .p, .p, .none, .no, .no, 8, none, .vrmin⟩,
  ⟨0x97, .p, .p, .p, .no, .no, 8, none, .vdot⟩,
  ⟨0x98, .p, .p, .g, .alu, .no, 8, none, .vscal⟩,
  ⟨0x99, .p, .p, .p, .no, .no, 5, none, .vcmp⟩,
  ⟨0x9A, .p, .p, .p, .no, .no, 8, none, .vsel⟩,
  ⟨0x9B, .p, .g, .none, .alu, .no, 8, none, .vfill⟩,
  ⟨0x9C, .p, .p, .p, .no, .no, 8, none, .vgath⟩,
  ⟨0x9D, .p, .p, .p, .no, .no, 8, none, .vscat⟩,
  ⟨0x9E, .p, .p, .none, .no, (.z 1), 8, none, .vtrans⟩,
  ⟨0x9F, .p, .p, .g, .alu, .no, 8, none, .vclamp⟩]

/-- Table 3.8: page 3. -/
def rowsPage3 : List Row := [
  ⟨0xC0, .a, .mem, .none, .no, (.z 1), 4, none, .mma⟩,
  ⟨0xC1, .a, .mem, .p, .no, (.z 1), 4, none, .mmas⟩,
  ⟨0xC2, .l, .mem, .none, .no, (.z 1), 1, none, .mldb⟩,
  ⟨0xC3, .l, .none, .none, .no, .no, 1, none, .mrot⟩,
  ⟨0xC4, .l, .none, .none, .no, .no, 1, none, .mdrop⟩,
  ⟨0xC5, .a, .none, .none, .no, .no, 1, none, .mza⟩,
  ⟨0xC6, .a, .mem, .g, .alu, (.z 1), 8, none, .mst⟩,
  ⟨0xC7, .a, .mem, .none, .no, (.z 1), 2, none, .mlda⟩,
  ⟨0xC8, .a, .a, .none, .no, .no, 2, none, .macc⟩,
  ⟨0xC9, .g, .none, .none, .alu, (.z 3), 1, none, .rep⟩,
  ⟨0xCA, .none, .none, .none, .no, .no, 1, none, .repw⟩,
  ⟨0xCB, .a, .mem, .none, .no, (.z 1), 2, none, .mcorr⟩]

/-- Table 3.9: page 4. -/
def rowsPage4 : List Row := [
  ⟨0x100, .g, .g, .none, .alu, (.s 3), 8, none, .ldg⟩,
  ⟨0x101, .g, .g, .none, .alu, (.s 3), 8, none, .stg⟩,
  ⟨0x102, .g, .g, .g, .alu, .no, 8, none, .amo⟩,
  ⟨0x103, .g, .g, .g, .alu, .no, 2, none, .amoc⟩,
  ⟨0x104, .g, .g, .none, .alu, .no, 5, none, .red⟩,
  ⟨0x105, .g, .none, .none, .alu, (.z 1), 1, (some 2), .fence⟩,
  ⟨0x106, .g, .none, .none, .alu, (.s 3), 1, none, .pfg⟩,
  ⟨0x107, .g, .none, .none, .no, .no, 4, none, .cpy⟩,
  ⟨0x108, .g, .none, .none, .no, .no, 4, none, .cpy2⟩,
  ⟨0x109, .g, .none, .none, .no, .no, 4, none, .cpyg⟩,
  ⟨0x10A, .none, .none, .none, .no, (.z 1), 1, (some 64), .qfence⟩,
  ⟨0x10B, .g, .none, .none, .alu, .no, 2, none, .qst⟩]

/-- Table 3.10: page 5. -/
def rowsPage5 : List Row := [
  ⟨0x140, (.n 4 31), .g, .g, .alu, .no, 1, none, .send⟩,
  ⟨0x141, (.n 4 31), .g, .g, .alu, .no, 1, none, .sendl⟩,
  ⟨0x142, .g, .m, .none, .alu, .no, 1, none, .mpk⟩,
  ⟨0x143, .m, .none, .none, .no, .no, 1, none, .mclr⟩,
  ⟨0x144, .m, .g, .none, .alu, .no, 1, none, .mbind⟩,
  ⟨0x145, .g, .none, .none, .alu, .no, 1, none, .lnks⟩,
  ⟨0x146, (.n 0 7), .g, .none, .alu, .no, 1, none, .bari⟩,
  ⟨0x147, (.n 0 7), .none, .none, .no, .no, 1, none, .bara⟩,
  ⟨0x148, (.n 0 7), .none, .none, .no, .no, 1, none, .barw⟩,
  ⟨0x149, .g, (.n 0 7), .none, .alu, .no, 1, none, .barq⟩,
  ⟨0x14A, (.n 0 3), .g, .none, .alu, .no, 1, none, .nesti⟩,
  ⟨0x14B, .q, (.n 0 3), .none, .no, .no, 1, none, .nestn⟩,
  ⟨0x14C, .g, (.n 0 3), .none, .alu, .no, 1, none, .nestq⟩,
  ⟨0x14D, .g, .mem, .none, .alu, .no, 5, none, .waita⟩,
  ⟨0x14E, .g, .none, .none, .alu, .no, 1, none, .stamp⟩,
  ⟨0x14F, .g, .g, .g, .alu, (.z 1), 1, none, .patch⟩,
  ⟨0x150, .g, .none, .none, .alu, .no, 1, none, .arm⟩,
  ⟨0x151, .none, .none, .none, .no, .no, 1, none, .tdone⟩,
  ⟨0x152, .g, .none, .none, .alu, .no, 1, none, .tq⟩,
  ⟨0x153, .g, .none, .none, .alu, .no, 1, none, .tfail⟩,
  ⟨0x154, .g, .none, .none, .alu, .no, 4, none, .rqp⟩,
  ⟨0x155, .g, .none, .none, .alu, .no, 2, none, .rqt⟩]

/-- Table 3.11: page 6. -/
def rowsPage6 : List Row := [
  ⟨0x180, .g, .g, .none, .alu, .no, 1, none, .fork⟩,
  ⟨0x181, .g, .g, .g, .alu, .no, 1, none, .rebase⟩,
  ⟨0x182, .g, .g, .none, .alu, .no, 1, none, .flat⟩,
  ⟨0x183, .g, .g, .none, .alu, .no, 1, none, .drop⟩,
  ⟨0x184, .g, .g, .none, .alu, (.z 1), 1, (some 4), .lnq⟩,
  ⟨0x185, .mem, .g, .none, .alu, .no, 1, none, .ldel⟩,
  ⟨0x186, .mem, .g, .none, .alu, .no, 1, none, .lres⟩,
  ⟨0x187, .g, .g, .none, .alu, .no, 1, none, .kvo⟩,
  ⟨0x188, .g, .mem, .none, .alu, (.z 1), 1, none, .kvw⟩,
  ⟨0x189, .g, .g, .g, .alu, .no, 1, none, .kvc⟩,
  ⟨0x18A, .g, .g, .none, .alu, .no, 1, none, .kvd⟩,
  ⟨0x18B, .g, .g, .none, .alu, .no, 1, none, .kvq⟩,
  ⟨0x18C, .g, .g, .g, .alu, .no, 1, none, .pgal⟩,
  ⟨0x18D, .g, .g, .none, .alu, .no, 1, none, .pgfr⟩,
  ⟨0x18E, .g, .g, .none, .alu, .no, 7, none, .lock⟩,
  ⟨0x18F, .g, .g, .none, .alu, .no, 7, none, .lcv⟩,
  ⟨0x190, .g, .g, .none, .alu, .no, 1, none, .lq⟩,
  ⟨0x191, .g, .none, .none, .alu, .no, 1, none, .lmld⟩,
  ⟨0x192, .mem, .mem, .g, .alu, (.z 1), 1, none, .selk⟩,
  ⟨0x193, .mem, .mem, .none, .no, .no, 1, none, .softk⟩,
  ⟨0x194, .mem, .g, .none, .alu, .no, 1, none, .hpush⟩,
  ⟨0x195, .g, .g, .none, .alu, .no, 1, none, .hpop⟩,
  ⟨0x196, .none, .none, .none, .no, .no, 1, none, .hclr⟩,
  ⟨0x197, .g, .g, .none, .alu, .no, 1, none, .htopp⟩,
  ⟨0x198, .g, .g, .g, .alu, .no, 1, none, .rand⟩,
  ⟨0x199, .g, .g, .g, .alu, .no, 1, none, .biasu⟩,
  ⟨0x19A, .g, .none, .none, .alu, .no, 1, none, .biasf⟩,
  ⟨0x19B, .g, .g, .g, .alu, .no, 1, none, .adpl⟩]

/-- Table 3.12: page 7. -/
def rowsPage7 : List Row := [
  ⟨0x1C0, .g, .c, .none, .alu, .no, 1, none, .mfc⟩,
  ⟨0x1C1, .c, .g, .none, .alu, .no, 1, none, .mtc⟩,
  ⟨0x1C2, .g, .g, .none, .alu, .no, 1, none, .start⟩,
  ⟨0x1C3, .g, .none, .none, .alu, .no, 1, none, .reap⟩,
  ⟨0x1C4, .g, .g, .none, .alu, .no, 1, none, .swap⟩,
  ⟨0x1C5, .g, .g, (.n 0 127), .alu, .no, 1, none, .wmf⟩,
  ⟨0x1C6, .g, .g, (.n 0 127), .alu, .no, 1, none, .wmt⟩,
  ⟨0x1C7, .none, .none, .none, .no, (.z 1), 1, none, .trap⟩,
  ⟨0x1C8, .none, .none, .none, .no, .no, 1, none, .rft⟩,
  ⟨0x1C9, .none, .none, .none, .no, (.z 1), 1, none, .brk⟩,
  ⟨0x1CA, .g, .none, .none, .alu, .no, 1, none, .step⟩,
  ⟨0x1CB, .g, .none, .none, .alu, .no, 1, none, .hold⟩,
  ⟨0x1CC, .g, .none, .none, .alu, .no, 1, none, .resume⟩,
  ⟨0x1CD, .g, .none, .none, .alu, .no, 4, none, .tlbi⟩,
  ⟨0x1CE, .g, .none, .none, .alu, .no, 1, none, .ccf⟩]

/-- The opcode map (R55). -/
def rows : List Row :=
  rowsPage0 ++ rowsPage1 ++ rowsPage2 ++ rowsPage3 ++ rowsPage4 ++ rowsPage5 ++ rowsPage6 ++ rowsPage7

/-- The row number page*64 + op6 of an instruction; none for an event. -/
def codeOf : Instr → Option Nat
  | .add _ => some 0x0
  | .sub _ => some 0x1
  | .mul _ => some 0x2
  | .mulh _ => some 0x3
  | .div _ => some 0x4
  | .rem _ => some 0x5
  | .and _ => some 0x6
  | .or _ => some 0x7
  | .xor _ => some 0x8
  | .andn _ => some 0x9
  | .shl _ => some 0xA
  | .shr _ => some 0xB
  | .sar _ => some 0xC
  | .rol _ => some 0xD
  | .min _ => some 0xE
  | .max _ => some 0xF
  | .addi _ => some 0x10
  | .andi _ => some 0x11
  | .ori _ => some 0x12
  | .xori _ => some 0x13
  | .shli _ => some 0x14
  | .shri _ => some 0x15
  | .sari _ => some 0x16
  | .roli _ => some 0x17
  | .clz _ => some 0x18
  | .ctz _ => some 0x19
  | .popc _ => some 0x1A
  | .abs _ => some 0x1B
  | .neg _ => some 0x1C
  | .sext _ => some 0x1D
  | .zext _ => some 0x1E
  | .mov _ => some 0x1F
  | .movi _ => some 0x20
  | .bfx _ => some 0x21
  | .bfi _ => some 0x22
  | .sel _ => some 0x23
  | .cmpEq _ => some 0x24
  | .cmpNe _ => some 0x25
  | .cmpLt _ => some 0x26
  | .cmpLe _ => some 0x27
  | .cmpiEq _ => some 0x28
  | .cmpiNe _ => some 0x29
  | .cmpiLt _ => some 0x2A
  | .cmpiLe _ => some 0x2B
  | .tst _ => some 0x2C
  | .fadd _ => some 0x40
  | .fsub _ => some 0x41
  | .fmul _ => some 0x42
  | .fmin _ => some 0x43
  | .fmax _ => some 0x44
  | .ffma _ => some 0x45
  | .fabs _ => some 0x46
  | .fneg _ => some 0x47
  | .fexp2 _ => some 0x48
  | .frcp _ => some 0x49
  | .fcvt _ => some 0x4A
  | .fcmpEq _ => some 0x4B
  | .fcmpLt _ => some 0x4C
  | .fcmpLe _ => some 0x4D
  | .fcmpUn _ => some 0x4E
  | .padd _ => some 0x4F
  | .pmk _ => some 0x50
  | .pget _ => some 0x51
  | .pmov _ => some 0x52
  | .qand _ => some 0x53
  | .qor _ => some 0x54
  | .qxor _ => some 0x55
  | .qnot _ => some 0x56
  | .qmov _ => some 0x57
  | .br _ => some 0x58
  | .jmp _ => some 0x59
  | .call _ => some 0x5A
  | .ret _ => some 0x5B
  | .nop _ => some 0x5C
  | .halt _ => some 0x5D
  | .sleep _ => some 0x5E
  | .ld _ => some 0x80
  | .st _ => some 0x81
  | .ldx _ => some 0x82
  | .stx _ => some 0x83
  | .lswap _ => some 0x84
  | .lcas _ => some 0x85
  | .ladd _ => some 0x86
  | .vadd _ => some 0x87
  | .vsub _ => some 0x88
  | .vmul _ => some 0x89
  | .vfma _ => some 0x8A
  | .vmin _ => some 0x8B
  | .vmax _ => some 0x8C
  | .vabs _ => some 0x8D
  | .vneg _ => some 0x8E
  | .vexp _ => some 0x8F
  | .vrcp _ => some 0x90
  | .vrsq _ => some 0x91
  | .vcvt _ => some 0x92
  | .vcpy _ => some 0x93
  | .vsum _ => some 0x94
  | .vrmax _ => some 0x95
  | .vrmin _ => some 0x96
  | .vdot _ => some 0x97
  | .vscal _ => some 0x98
  | .vfill _ => some 0x9B
  | .vclamp _ => some 0x9F
  | .vcmp _ => some 0x99
  | .vsel _ => some 0x9A
  | .vgath _ => some 0x9C
  | .vscat _ => some 0x9D
  | .vtrans _ => some 0x9E
  | .mma _ => some 0xC0
  | .mmas _ => some 0xC1
  | .mldb _ => some 0xC2
  | .mrot _ => some 0xC3
  | .mdrop _ => some 0xC4
  | .mza _ => some 0xC5
  | .mst _ => some 0xC6
  | .mlda _ => some 0xC7
  | .macc _ => some 0xC8
  | .rep _ => some 0xC9
  | .repw _ => some 0xCA
  | .mcorr _ => some 0xCB
  | .ldg _ => some 0x100
  | .stg _ => some 0x101
  | .amo _ => some 0x102
  | .amoc _ => some 0x103
  | .red _ => some 0x104
  | .fence _ => some 0x105
  | .pfg _ => some 0x106
  | .cpy _ => some 0x107
  | .cpy2 _ => some 0x108
  | .cpyg _ => some 0x109
  | .qfence _ => some 0x10A
  | .qst _ => some 0x10B
  | .send _ => some 0x140
  | .sendl _ => some 0x141
  | .mpk _ => some 0x142
  | .mclr _ => some 0x143
  | .mbind _ => some 0x144
  | .lnks _ => some 0x145
  | .bari _ => some 0x146
  | .bara _ => some 0x147
  | .barw _ => some 0x148
  | .barq _ => some 0x149
  | .nesti _ => some 0x14A
  | .nestn _ => some 0x14B
  | .nestq _ => some 0x14C
  | .waita _ => some 0x14D
  | .stamp _ => some 0x14E
  | .patch _ => some 0x14F
  | .arm _ => some 0x150
  | .tdone _ => some 0x151
  | .tq _ => some 0x152
  | .tfail _ => some 0x153
  | .rqp _ => some 0x154
  | .rqt _ => some 0x155
  | .fork _ => some 0x180
  | .rebase _ => some 0x181
  | .flat _ => some 0x182
  | .drop _ => some 0x183
  | .lnq _ => some 0x184
  | .ldel _ => some 0x185
  | .lres _ => some 0x186
  | .kvo _ => some 0x187
  | .kvw _ => some 0x188
  | .kvc _ => some 0x189
  | .kvd _ => some 0x18A
  | .kvq _ => some 0x18B
  | .pgal _ => some 0x18C
  | .pgfr _ => some 0x18D
  | .lock _ => some 0x18E
  | .lcv _ => some 0x18F
  | .lq _ => some 0x190
  | .lmld _ => some 0x191
  | .selk _ => some 0x192
  | .softk _ => some 0x193
  | .hpush _ => some 0x194
  | .hpop _ => some 0x195
  | .hclr _ => some 0x196
  | .htopp _ => some 0x197
  | .rand _ => some 0x198
  | .biasu _ => some 0x199
  | .biasf _ => some 0x19A
  | .adpl _ => some 0x19B
  | .mfc _ => some 0x1C0
  | .mtc _ => some 0x1C1
  | .start _ => some 0x1C2
  | .reap _ => some 0x1C3
  | .swap _ => some 0x1C4
  | .wmf _ => some 0x1C5
  | .wmt _ => some 0x1C6
  | .trap _ => some 0x1C7
  | .rft _ => some 0x1C8
  | .brk _ => some 0x1C9
  | .step _ => some 0x1CA
  | .hold _ => some 0x1CB
  | .resume _ => some 0x1CC
  | .tlbi _ => some 0x1CD
  | .ccf _ => some 0x1CE
  | .illegalInstruction => none
  | .fetchFault _ _ => none
  | .breakpointMatch _ => none
  | .icacheFill _ _ _ => none
  | .crTmsgPop _ => none
  | .crL1splitWrite _ _ => none
  | .l1splitTakeEffect _ _ => none
  | .crTmrWrite _ _ _ => none
  | .crWlimWrite _ _ _ => none
  | .crStatW1c _ _ _ => none
  | .crAccmWrite _ _ => none
  | .timerExpiry _ _ => none
  | .timerTrap _ _ => none
  | .waitLimitExpiry _ _ => none
  | .handlerEntry _ => none
  | .localAccessComplete _ => none
  | .meshAccessComplete _ => none
  | .vectorComplete _ => none
  | .selectionComplete _ => none
  | .deposit _ => none
  | .sendAnswer _ _ => none
  | .sendlStage _ _ => none
  | .deferredDepositApply _ _ => none
  | .deferredBufferEntry _ => none
  | .linkPushEntry _ => none
  | .linkPopWake _ _ => none
  | .linkBlockedPushEntry _ _ => none
  | .barrierArriveEffect _ _ => none
  | .barrierBindEffect _ _ _ _ => none
  | .nestLoadEffect _ _ _ _ => none
  | .stampReturn _ _ => none
  | .matrixEntryStart _ _ => none
  | .matrixEntryComplete _ _ => none
  | .repReissue _ => none
  | .governorRequest _ _ => none
  | .powerGrant _ => none
  | .translationWalkComplete _ => none
  | .globalAccessComplete _ _ => none
  | .postedAck _ _ => none
  | .peerReply _ _ _ _ => none
  | .peerTimeout _ _ => none
  | .postedFailure _ _ _ _ => none
  | .fenceComplete _ _ => none
  | .lineResolve _ _ => none
  | .lineWriteback _ _ => none
  | .lineageEntryStart _ => none
  | .lineageEntryComplete _ => none
  | .copyEntryStart _ _ => none
  | .copyEntryComplete _ _ => none
  | .lockRequestArrival _ => none
  | .lockGrant _ => none
  | .commitStart _ => none
  | .commitRelease _ => none
  | .dieToLoomMove _ => none
  | .loomToDieReturn _ => none
  | .loomChoose _ => none
  | .footprintFetchComplete _ _ => none
  | .autoDispatchStart _ => none
  | .taskRetire _ => none
  | .taskFault _ _ _ => none
  | .uncorrectableRead _ => none
  | .errorDetected _ => none
  | .selfTestComplete _ _ => none
  | .swapComplete _ => none
  | .ccfComplete _ _ _ => none
  | .tlbiAck _ _ _ => none
  | .gangHoldArrival _ _ _ => none
  | .biasuComplete _ _ _ _ _ => none
  | .adplApply _ _ _ _ => none
  | .lmldApply _ _ _ _ => none
  | .launchMessage _ _ _ => none
  | .launchMessageRelease _ => none
  | .fabricRead _ => none
  | .fabricWrite _ => none
  | .fabricAtomic _ _ _ _ => none
  | .fabricVendorAtomic _ _ _ _ => none
  | .fabricOtherRequest _ => none
  | .counterRead _ => none
  | .counterClear _ => none
  | .errorLogRead _ => none
  | .bringUpSetting _ => none
  | .recordImageWrite _ _ => none
  | .ceilSet _ _ => none
  | .thermalCeilAdjust _ _ => none
  | .debugRead _ _ _ => none
  | .debugWrite _ _ _ _ => none
  | .debugHold _ _ _ => none
  | .debugStep _ _ _ => none
  | .debugResume _ _ _ => none
  | .debugTableRead _ _ => none
  | .attestationRequest _ => none
  | .tamperAlarm => none
  | .thermalAlarm => none
  | .deviceReset => none
  | .firmwareVerify _ _ _ => none
  | .bringUpComplete _ => none
  | .stateTransferComplete _ _ => none
  | .nodeOperationComplete _ => none
  | .windowOperationComplete _ => none
  | .controlPlaneReply _ _ _ => none
  | .biasBankFlip _ _ _ _ => none

/-- The operands of an instruction; the defaults for an event. -/
def argsOf : Instr → Args
  | .add x => x
  | .sub x => x
  | .mul x => x
  | .mulh x => x
  | .div x => x
  | .rem x => x
  | .and x => x
  | .or x => x
  | .xor x => x
  | .andn x => x
  | .shl x => x
  | .shr x => x
  | .sar x => x
  | .rol x => x
  | .min x => x
  | .max x => x
  | .addi x => x
  | .andi x => x
  | .ori x => x
  | .xori x => x
  | .shli x => x
  | .shri x => x
  | .sari x => x
  | .roli x => x
  | .clz x => x
  | .ctz x => x
  | .popc x => x
  | .abs x => x
  | .neg x => x
  | .sext x => x
  | .zext x => x
  | .mov x => x
  | .movi x => x
  | .bfx x => x
  | .bfi x => x
  | .sel x => x
  | .cmpEq x => x
  | .cmpNe x => x
  | .cmpLt x => x
  | .cmpLe x => x
  | .cmpiEq x => x
  | .cmpiNe x => x
  | .cmpiLt x => x
  | .cmpiLe x => x
  | .tst x => x
  | .fadd x => x
  | .fsub x => x
  | .fmul x => x
  | .fmin x => x
  | .fmax x => x
  | .ffma x => x
  | .fabs x => x
  | .fneg x => x
  | .fexp2 x => x
  | .frcp x => x
  | .fcvt x => x
  | .fcmpEq x => x
  | .fcmpLt x => x
  | .fcmpLe x => x
  | .fcmpUn x => x
  | .padd x => x
  | .pmk x => x
  | .pget x => x
  | .pmov x => x
  | .qand x => x
  | .qor x => x
  | .qxor x => x
  | .qnot x => x
  | .qmov x => x
  | .br x => x
  | .jmp x => x
  | .call x => x
  | .ret x => x
  | .nop x => x
  | .halt x => x
  | .sleep x => x
  | .ld x => x
  | .st x => x
  | .ldx x => x
  | .stx x => x
  | .lswap x => x
  | .lcas x => x
  | .ladd x => x
  | .vadd x => x
  | .vsub x => x
  | .vmul x => x
  | .vfma x => x
  | .vmin x => x
  | .vmax x => x
  | .vabs x => x
  | .vneg x => x
  | .vexp x => x
  | .vrcp x => x
  | .vrsq x => x
  | .vcvt x => x
  | .vcpy x => x
  | .vsum x => x
  | .vrmax x => x
  | .vrmin x => x
  | .vdot x => x
  | .vscal x => x
  | .vfill x => x
  | .vclamp x => x
  | .vcmp x => x
  | .vsel x => x
  | .vgath x => x
  | .vscat x => x
  | .vtrans x => x
  | .mma x => x
  | .mmas x => x
  | .mldb x => x
  | .mrot x => x
  | .mdrop x => x
  | .mza x => x
  | .mst x => x
  | .mlda x => x
  | .macc x => x
  | .rep x => x
  | .repw x => x
  | .mcorr x => x
  | .ldg x => x
  | .stg x => x
  | .amo x => x
  | .amoc x => x
  | .red x => x
  | .fence x => x
  | .pfg x => x
  | .cpy x => x
  | .cpy2 x => x
  | .cpyg x => x
  | .qfence x => x
  | .qst x => x
  | .send x => x
  | .sendl x => x
  | .mpk x => x
  | .mclr x => x
  | .mbind x => x
  | .lnks x => x
  | .bari x => x
  | .bara x => x
  | .barw x => x
  | .barq x => x
  | .nesti x => x
  | .nestn x => x
  | .nestq x => x
  | .waita x => x
  | .stamp x => x
  | .patch x => x
  | .arm x => x
  | .tdone x => x
  | .tq x => x
  | .tfail x => x
  | .rqp x => x
  | .rqt x => x
  | .fork x => x
  | .rebase x => x
  | .flat x => x
  | .drop x => x
  | .lnq x => x
  | .ldel x => x
  | .lres x => x
  | .kvo x => x
  | .kvw x => x
  | .kvc x => x
  | .kvd x => x
  | .kvq x => x
  | .pgal x => x
  | .pgfr x => x
  | .lock x => x
  | .lcv x => x
  | .lq x => x
  | .lmld x => x
  | .selk x => x
  | .softk x => x
  | .hpush x => x
  | .hpop x => x
  | .hclr x => x
  | .htopp x => x
  | .rand x => x
  | .biasu x => x
  | .biasf x => x
  | .adpl x => x
  | .mfc x => x
  | .mtc x => x
  | .start x => x
  | .reap x => x
  | .swap x => x
  | .wmf x => x
  | .wmt x => x
  | .trap x => x
  | .rft x => x
  | .brk x => x
  | .step x => x
  | .hold x => x
  | .resume x => x
  | .tlbi x => x
  | .ccf x => x
  | .illegalInstruction => {}
  | .fetchFault _ _ => {}
  | .breakpointMatch _ => {}
  | .icacheFill _ _ _ => {}
  | .crTmsgPop _ => {}
  | .crL1splitWrite _ _ => {}
  | .l1splitTakeEffect _ _ => {}
  | .crTmrWrite _ _ _ => {}
  | .crWlimWrite _ _ _ => {}
  | .crStatW1c _ _ _ => {}
  | .crAccmWrite _ _ => {}
  | .timerExpiry _ _ => {}
  | .timerTrap _ _ => {}
  | .waitLimitExpiry _ _ => {}
  | .handlerEntry _ => {}
  | .localAccessComplete _ => {}
  | .meshAccessComplete _ => {}
  | .vectorComplete _ => {}
  | .selectionComplete _ => {}
  | .deposit _ => {}
  | .sendAnswer _ _ => {}
  | .sendlStage _ _ => {}
  | .deferredDepositApply _ _ => {}
  | .deferredBufferEntry _ => {}
  | .linkPushEntry _ => {}
  | .linkPopWake _ _ => {}
  | .linkBlockedPushEntry _ _ => {}
  | .barrierArriveEffect _ _ => {}
  | .barrierBindEffect _ _ _ _ => {}
  | .nestLoadEffect _ _ _ _ => {}
  | .stampReturn _ _ => {}
  | .matrixEntryStart _ _ => {}
  | .matrixEntryComplete _ _ => {}
  | .repReissue _ => {}
  | .governorRequest _ _ => {}
  | .powerGrant _ => {}
  | .translationWalkComplete _ => {}
  | .globalAccessComplete _ _ => {}
  | .postedAck _ _ => {}
  | .peerReply _ _ _ _ => {}
  | .peerTimeout _ _ => {}
  | .postedFailure _ _ _ _ => {}
  | .fenceComplete _ _ => {}
  | .lineResolve _ _ => {}
  | .lineWriteback _ _ => {}
  | .lineageEntryStart _ => {}
  | .lineageEntryComplete _ => {}
  | .copyEntryStart _ _ => {}
  | .copyEntryComplete _ _ => {}
  | .lockRequestArrival _ => {}
  | .lockGrant _ => {}
  | .commitStart _ => {}
  | .commitRelease _ => {}
  | .dieToLoomMove _ => {}
  | .loomToDieReturn _ => {}
  | .loomChoose _ => {}
  | .footprintFetchComplete _ _ => {}
  | .autoDispatchStart _ => {}
  | .taskRetire _ => {}
  | .taskFault _ _ _ => {}
  | .uncorrectableRead _ => {}
  | .errorDetected _ => {}
  | .selfTestComplete _ _ => {}
  | .swapComplete _ => {}
  | .ccfComplete _ _ _ => {}
  | .tlbiAck _ _ _ => {}
  | .gangHoldArrival _ _ _ => {}
  | .biasuComplete _ _ _ _ _ => {}
  | .adplApply _ _ _ _ => {}
  | .lmldApply _ _ _ _ => {}
  | .launchMessage _ _ _ => {}
  | .launchMessageRelease _ => {}
  | .fabricRead _ => {}
  | .fabricWrite _ => {}
  | .fabricAtomic _ _ _ _ => {}
  | .fabricVendorAtomic _ _ _ _ => {}
  | .fabricOtherRequest _ => {}
  | .counterRead _ => {}
  | .counterClear _ => {}
  | .errorLogRead _ => {}
  | .bringUpSetting _ => {}
  | .recordImageWrite _ _ => {}
  | .ceilSet _ _ => {}
  | .thermalCeilAdjust _ _ => {}
  | .debugRead _ _ _ => {}
  | .debugWrite _ _ _ _ => {}
  | .debugHold _ _ _ => {}
  | .debugStep _ _ _ => {}
  | .debugResume _ _ _ => {}
  | .debugTableRead _ _ => {}
  | .attestationRequest _ => {}
  | .tamperAlarm => {}
  | .thermalAlarm => {}
  | .deviceReset => {}
  | .firmwareVerify _ _ _ => {}
  | .bringUpComplete _ => {}
  | .stateTransferComplete _ _ => {}
  | .nodeOperationComplete _ => {}
  | .windowOperationComplete _ => {}
  | .controlPlaneReply _ _ _ => {}
  | .biasBankFlip _ _ _ _ => {}

/-- The row with a given code. -/
def rowOf (code : Nat) : Option Row := rows.find? (fun r => r.code == code)

/-- The control register numbers that Table 6.1 assigns. -/
def crAssigned (n : Nat) : Bool := n ≤ 19 || (32 ≤ n && n ≤ 41)

end Sys2Proof.Machine
end

