-- ==== Sys2Proof/WellFormed.lean ====
section
/-! DEFINITION. Which instructions have an encoding (R51 to R56): every operand in a class its field permits and in that class's
range, a legal modifier, an immediate the row can carry, and at most four prefixes. An event carries no encoding and
is always well formed. -/

namespace Sys2Proof

open Machine

/-- Whether an operand may stand in a field of a kind, under the row's PX.C mark (R51, R52). -/
def opndOk (mark : PxcMark) (k : FKind) (o : Opnd) : Bool :=
  match k, o with
  | .none, .none => true
  | .g, .g _ => true
  | .g, .s _ => mark != .no
  | .g, .k _ => mark != .no
  | .g, .m _ => mark == .any
  | .g, .p _ => mark == .any
  | .g, .q _ => mark == .any
  | .m, .m _ => true
  | .p, .p _ => true
  | .q, .q _ => true
  | .a, .acc _ => true
  | .l, .slot _ => true
  | .c, .cr n => crAssigned n.toNat
  | .n lo hi, .num n => lo ≤ n.toNat && n.toNat ≤ hi
  | .mem, .mem _ _ => true
  | _, _ => false

/-- Whether a post-increment kind is legal on a row (R53). -/
def incOk (r : Row) (o : Opnd) : Bool :=
  match o with
  | .mem _ .imm => r.imm.isInc
  | .mem _ (.reg _) => r.fc == .none
  | _ => true

/-- The register of increment kind 0b11 that an operand names. -/
def incReg : Opnd → Option (BitVec 7)
  | .mem _ (.reg n) => some n
  | _ => none

/-- The two memory operands of one instruction share the one field fc. -/
def incRegsAgree (a b : Opnd) : Bool :=
  match incReg a, incReg b with
  | some m, some n => m == n
  | _, _ => true

/-- Whether `x` is the sign extension of its low 11*j bits. -/
def fitsS (j : Nat) (x : Word) : Bool :=
  let v := signed 64 x.toNat
  let h : Int := ((2 ^ (11 * j) : Nat) : Int)
  if j = 0 then x == 0 else decide (-h ≤ 2 * v) && decide (2 * v < h)

/-- Whether `x` is the zero extension of its low 11*j bits. -/
def fitsZ (j : Nat) (x : Word) : Bool := x.toNat < 2 ^ (11 * j)

/-- Whether `j` PX.I words carry the immediate. -/
def immFits (k : ImmKind) (mod : BitVec 3) (j : Nat) (x : Word) : Bool :=
  if k.isSigned mod then fitsS j x else fitsZ j x

/-- The fewest PX.I words, at most `n`, that carry the immediate (R41). -/
def immCount (k : ImmKind) (mod : BitVec 3) (x : Word) : Nat :=
  ((List.range k.words).find? (fun j => immFits k mod j x)).getD k.words

/-- Whether the immediate is the post-increment of one of the operands. -/
def usesIncImm (a b : Opnd) : Bool :=
  match a, b with
  | .mem _ .imm, _ => true
  | _, .mem _ .imm => true
  | _, _ => false

/-- The class code of an operand (Table 3.3). -/
def clsOf : Opnd → Nat
  | .s _ => 1
  | .m _ => 2
  | .p _ => 3
  | .k _ => 4
  | .q _ => 5
  | _ => 0

/-- The class code of a field's native class. -/
def nativeCls : FKind → Nat
  | .m => 2
  | .p => 3
  | .q => 5
  | _ => 0

/-- The number an operand puts into its field (R51, R53). -/
def numOf : Opnd → Nat
  | .none => 0
  | .g n => n.toNat
  | .s n => n.toNat
  | .m n => n.toNat
  | .p n => n.toNat
  | .k n => n.toNat
  | .q n => n.toNat
  | .acc n => n.toNat
  | .slot n => n.toNat
  | .cr n => n.toNat
  | .num n => n.toNat
  | .mem p .none => p.toNat
  | .mem p .size => p.toNat + 8
  | .mem p .imm => p.toNat + 16
  | .mem p (.reg _) => p.toNat + 24

/-- The number in field fc: the third operand, or the register of increment kind 0b11. -/
def fcNum (x : Args) : Nat :=
  match incReg x.a, incReg x.b with
  | some n, _ => n.toNat
  | none, some n => n.toNat
  | none, none => numOf x.c

/-- Whether PX.P, PX.C and PX.R are needed (R40). -/
def needsP (r : Row) (x : Args) : Bool :=
  r.code / 64 != 0 || x.guard != 0 || x.sense || x.mod != 0
def needsC (r : Row) (x : Args) : Bool :=
  clsOf x.a != nativeCls r.fa || clsOf x.b != nativeCls r.fb || clsOf x.c != nativeCls r.fc
def needsR (r : Row) (x : Args) : Bool :=
  r.fc != .none || (incReg x.a).isSome || (incReg x.b).isSome || 32 ≤ numOf x.a || 32 ≤ numOf x.b

/-- How many prefixes the shortest chain has. -/
def prefixCount (r : Row) (x : Args) : Nat :=
  (needsP r x).toNat + (needsC r x).toNat + (needsR r x).toNat + immCount r.imm x.mod x.imm

/-- The operands fit the row. -/
def rowArgsOk (r : Row) (x : Args) : Bool :=
  opndOk r.pxc r.fa x.a && opndOk r.pxc r.fb x.b && opndOk r.pxc r.fc x.c &&
  incOk r x.a && incOk r x.b && incRegsAgree x.a x.b &&
  decide (x.mod.toNat < r.mods) &&
  immFits r.imm x.mod r.imm.words x.imm &&
  (r.lim.all (fun l => decide (x.imm.toNat < l))) &&
  (!r.imm.isInc || x.imm == 0 || usesIncImm x.a x.b) &&
  decide (prefixCount r x ≤ 4)

/-- An instruction that has an encoding; every event. -/
def Instr.wf (i : Instr) : Bool :=
  match codeOf i with
  | some code =>
    match rowOf code with
    | some r => rowArgsOk r (argsOf i)
    | none => false
  | none => true

end Sys2Proof
end

