-- ==== Sys2Proof/Decode.lean ====
section
/-! DEFINITION. The decoder of R48 to R57, total on any words and rejecting with the word that a trap reports, and the
encoder of R40 and R41 written from the same encoding tables. -/

namespace Sys2Proof

open Machine

/-- The prefixes read so far: the last rank plus 1, each prefix word, and the PX.I payloads in chain order. -/
structure Prefixes where
  count : Nat := 0
  rank : Nat := 0
  p : Option IWord := none
  c : Option IWord := none
  r : Option IWord := none
  imms : List Nat := []
  deriving DecidableEq, Repr

/-- The outcome of decoding a list of words: an instruction with its length in bytes and base word, an illegal chain
with the word reported (R57), or a chain that runs past the words given. -/
inductive Decoded where
  | ok (i : Instr) (len : Nat) (word : IWord)
  | illegal (word : IWord)
  | more
  deriving DecidableEq, Repr

/-- Bits [hi:lo] of an instruction word. -/
def wbits (w : IWord) (hi lo : Nat) : Nat := (w.toNat / 2 ^ lo) % 2 ^ (hi + 1 - lo)

/-- Whether a word is a prefix word (R47). -/
def isPrefix (w : IWord) : Bool := wbits w 15 13 == 7

/-- The rank of a prefix plus 1: PX.P 1, PX.C 2, PX.R 3, PX.I 4 (R48). -/
def prefixRank (w : IWord) : Nat :=
  match wbits w 12 11 with
  | 0 => 4
  | 1 => 3
  | 2 => 2
  | _ => 1

/-- A PX.P naming pages 8 to 15, or a PX.C with spare bits or a class code 6 or 7 (R48). -/
def prefixBad (w : IWord) : Bool :=
  match prefixRank w with
  | 1 => decide (8 ≤ wbits w 10 7)
  | 2 => wbits w 1 0 != 0 || decide (6 ≤ wbits w 10 8) || decide (6 ≤ wbits w 7 5) || decide (6 ≤ wbits w 4 2)
  | _ => false

/-- Take one prefix into account. -/
def Prefixes.add (q : Prefixes) (w : IWord) : Prefixes :=
  let q := { q with count := q.count + 1, rank := prefixRank w }
  match prefixRank w with
  | 1 => { q with p := some w }
  | 2 => { q with c := some w }
  | 3 => { q with r := some w }
  | _ => { q with imms := q.imms ++ [wbits w 10 0] }

/-- The operand that a field's class code and number name (R51, R52). -/
def decodeOpnd (mark : PxcMark) (k : FKind) (cls n : Nat) (fc : BitVec 7) : Option Opnd :=
  let o : Option Opnd :=
    match k with
    | .none => if n = 0 ∧ cls = 0 then some .none else none
    | .a => if cls = 0 ∧ n < 8 then some (.acc (BitVec.ofNat 3 n)) else none
    | .l => if cls = 0 ∧ n < 2 then some (.slot (BitVec.ofNat 1 n)) else none
    | .c => if cls = 0 then some (.cr (BitVec.ofNat 7 n)) else none
    | .n _ _ => if cls = 0 then some (.num (BitVec.ofNat 7 n)) else none
    | .mem =>
      if cls = 0 ∧ n < 32 then
        some (.mem (BitVec.ofNat 3 (n % 8))
          (match n / 8 with
          | 0 => .none
          | 1 => .size
          | 2 => .imm
          | _ => .reg fc))
      else none
    | _ =>
      match cls with
      | 0 => some (.g (BitVec.ofNat 7 n))
      | 1 => if n < 16 then some (.s (BitVec.ofNat 4 n)) else none
      | 2 => if n < 32 then some (.m (BitVec.ofNat 5 n)) else none
      | 3 => if n < 8 then some (.p (BitVec.ofNat 3 n)) else none
      | 4 => if n < 4 then some (.k (BitVec.ofNat 2 n)) else none
      | _ => if n < 8 then some (.q (BitVec.ofNat 3 n)) else none
  o.filter (opndOk mark k)

/-- The immediate from its PX.I payloads, extended as the row says (R49). -/
def decodeImm (k : ImmKind) (mod : BitVec 3) (imms : List Nat) : Word :=
  let raw := imms.foldr (fun v acc => v + 2048 * acc) 0
  if k.isSigned mod then BitVec.ofInt 64 (signed (11 * imms.length) raw) else BitVec.ofNat 64 raw

/-- Decode the base word under its prefixes (R50 to R56). PX.R stands on every row with a used field (R55), `bara` and `barw` among them, though
the text of their entry makes it illegal there (DESIGN CHOICE, log 71). -/
def decodeBase (q : Prefixes) (w : IWord) : Option Instr :=
  let pp := q.p.getD 0
  let page := wbits pp 10 7
  let mod := BitVec.ofNat 3 (wbits pp 2 0)
  match rowOf (page * 64 + wbits w 15 10) with
  | none => none
  | some r =>
    let rr := q.r.getD 0
    let fcn := wbits rr 6 0
    let fan := wbits rr 10 9 * 32 + wbits w 9 5
    let fbn := wbits rr 8 7 * 32 + wbits w 4 0
    let ca := match q.c with | some c => wbits c 10 8 | none => nativeCls r.fa
    let cb := match q.c with | some c => wbits c 7 5 | none => nativeCls r.fb
    let cc := match q.c with | some c => wbits c 4 2 | none => nativeCls r.fc
    let fc := BitVec.ofNat 7 fcn
    match decodeOpnd r.pxc r.fa ca fan fc, decodeOpnd r.pxc r.fb cb fbn fc,
        decodeOpnd r.pxc r.fc cc (if r.fc = .none then 0 else fcn) fc with
    | some a, some b, some c =>
      let byReg := (incReg a).isSome || (incReg b).isSome
      let imm := decodeImm r.imm mod q.imms
      let x : Args := ⟨BitVec.ofNat 3 (wbits pp 6 4), wbits pp 3 3 == 1, mod, a, b, c, imm⟩
      let ok :=
        decide (mod.toNat < r.mods) &&
        (q.c.isNone || r.pxc != .no) &&
        decide (q.imms.length ≤ r.imm.words) &&
        (q.r.isNone || !(r.fa == .none && r.fb == .none && r.fc == .none)) &&
        (q.r.isSome || !(r.fc != .none || byReg)) &&
        (r.fc != .none || byReg || fcn == 0) &&
        incOk r a && incOk r b &&
        (r.lim.all (fun l => decide (imm.toNat < l))) &&
        (!r.imm.isInc || q.imms.isEmpty || usesIncImm a b)
      if ok then some (r.ctor x) else none
    | _, _, _ => none

/-- Decode (R48): read words in address order. -/
def decodeFrom (q : Prefixes) : List IWord → Decoded
  | [] => .more
  | w :: ws =>
    if isPrefix w then
      if 4 ≤ q.count then .illegal w
      else if prefixRank w < q.rank || (prefixRank w == q.rank && q.rank != 4) then .illegal w
      else if prefixBad w then .illegal w
      else decodeFrom (q.add w) ws
    else
      match decodeBase q w with
      | some i => .ok i (2 * q.count + 2) w
      | none => .illegal w

/-- Decode a chain from its first word. -/
def decode (ws : List IWord) : Decoded := decodeFrom {} ws

/-- PX.P of an instruction (Table 3.2). -/
def encodeP (r : Row) (x : Args) : IWord :=
  BitVec.ofNat 16 (0xF800 + r.code / 64 * 128 + x.guard.toNat * 16 + x.sense.toNat * 8 + x.mod.toNat)

/-- PX.C of an instruction. -/
def encodeC (x : Args) : IWord :=
  BitVec.ofNat 16 (0xF000 + clsOf x.a * 256 + clsOf x.b * 32 + clsOf x.c * 4)

/-- PX.R of an instruction. -/
def encodeR (x : Args) : IWord :=
  BitVec.ofNat 16 (0xE800 + numOf x.a / 32 * 512 + numOf x.b / 32 * 128 + fcNum x)

/-- The PX.I words of an immediate, lowest group first (R41). -/
def encodeImm : Nat → Nat → List IWord
  | 0, _ => []
  | j + 1, v => BitVec.ofNat 16 (0xE000 + v % 2048) :: encodeImm j (v / 2048)

/-- The base word (Table 3.1). -/
def encodeBase (r : Row) (x : Args) : IWord :=
  BitVec.ofNat 16 (r.code % 64 * 1024 + numOf x.a % 32 * 32 + numOf x.b % 32)

/-- The shortest chain of a row and operands (R40). -/
def encodeRow (r : Row) (x : Args) : List IWord :=
  (if needsP r x then [encodeP r x] else []) ++
  (if needsC r x then [encodeC x] else []) ++
  (if needsR r x then [encodeR x] else []) ++
  encodeImm (immCount r.imm x.mod x.imm) x.imm.toNat ++ [encodeBase r x]

/-- The words of an instruction; none for an event. -/
def encode (i : Instr) : List IWord :=
  match codeOf i with
  | some code =>
    match rowOf code with
    | some r => encodeRow r (argsOf i)
    | none => []
  | none => []

/-- The words that a number of `nbits` bits stands for, padded with zero words to a whole chain. spec/opcode_table.json
writes a chain as one number with its first word highest, as PX.R and PX.P stand in bits [31:16] of its rows; a number
whose high half is no prefix is read with its first word lowest (log 6). -/
def tableWords (nbits w : Nat) : List IWord :=
  let lo := BitVec.ofNat 16 (w % 65536)
  let hi := BitVec.ofNat 16 (w / 65536 % 65536)
  if nbits ≤ 16 then [lo, 0, 0, 0, 0]
  else if isPrefix hi then [hi, lo, 0, 0, 0]
  else [lo, hi, 0, 0, 0]

/-- The instruction that the decoder reads from an opcode-table word. -/
def decodeTableWord (nbits w : Nat) : Option Instr :=
  match decode (tableWords nbits w) with
  | .ok i _ _ => some i
  | _ => none

end Sys2Proof
end

