-- ==== Sys2Proof/Machine/Floats.lean ====
section
/-! DEFINITION. Number formats: exact values, rounding, overflow, conversions and the table-driven units (R62 to R70, R78,
R83 to R87). A value is computed exactly as a dyadic number and rounded where the spec rounds. -/

namespace Sys2Proof.Machine

/-- An exact value: (-1)^s * m * 2^e, an infinity, or a NaN with its sign (R63, R64). -/
inductive FV where
  | nan (s : Bool)
  | inf (s : Bool)
  | fin (s : Bool) (m : Nat) (e : Int)
  deriving DecidableEq, Repr

/-- Rounding directions (R67). -/
inductive Rnd where
  | ne | rz | rdn | rup
  deriving DecidableEq, Repr

/-- The rounding direction of modifier bits [1:0] (Table 8.5, R110). -/
def rndOf (m : Nat) : Rnd :=
  match m % 4 with
  | 0 => .ne
  | 1 => .rz
  | 2 => .rdn
  | _ => .rup

/-- A floating-point format of Table 4.1; `e4` marks the format without infinities. -/
structure Fmt where
  ew : Nat
  fw : Nat
  bias : Nat
  e4 : Bool
  nanBits : Nat
  deriving DecidableEq, Repr

def fp32 : Fmt := ⟨8, 23, 127, false, 0x7FC00000⟩
def fp16 : Fmt := ⟨5, 10, 15, false, 0x7E00⟩
def bf16 : Fmt := ⟨8, 7, 127, false, 0x7FC0⟩
def fe4 : Fmt := ⟨4, 3, 7, true, 0x7F⟩
def fe5 : Fmt := ⟨5, 2, 15, false, 0x7E⟩

/-- Exponent of the least subnormal of a format. -/
def Fmt.emin (f : Fmt) : Int := 1 - (f.bias : Int) - (f.fw : Int)

/-- The sign bit's weight. -/
def Fmt.signW (f : Fmt) : Nat := 2 ^ (f.ew + f.fw)

/-- Magnitude bits of the largest finite value (Table 4.1). -/
def Fmt.maxBits (f : Fmt) : Nat :=
  if f.e4 then f.signW - 2 else f.signW - 2 ^ f.fw - 1

/-- Magnitude bits of infinity. -/
def Fmt.infBits (f : Fmt) : Nat := f.signW - 2 ^ f.fw

/-- Decode the bits of a format (R63). -/
def Fmt.decode (f : Fmt) (b : Nat) : FV :=
  let s := b.testBit (f.ew + f.fw)
  let e := (b / 2 ^ f.fw) % 2 ^ f.ew
  let fr := b % 2 ^ f.fw
  if f.e4 && e == 15 && fr == 7 then .nan s
  else if !f.e4 && e == 2 ^ f.ew - 1 then (if fr = 0 then .inf s else .nan s)
  else if e = 0 then .fin s fr f.emin
  else .fin s (2 ^ f.fw + fr) ((e : Int) - f.bias - f.fw)

/-- `m * 2^k` for an integer k, truncating when k is negative. -/
def shl (m : Nat) (k : Int) : Nat :=
  if 0 ≤ k then m * 2 ^ k.toNat else m / 2 ^ (-k).toNat

/-- Round m * 2^e to a multiple of 2^u in direction `r` (R67). -/
def roundAt (r : Rnd) (s : Bool) (m : Nat) (e u : Int) : Nat :=
  if u ≤ e then m * 2 ^ (e - u).toNat
  else
    let d := 2 ^ (u - e).toNat
    let q := m / d
    let x := m % d
    let up : Bool :=
      match r with
      | .ne => decide (d < 2 * x) || (decide (2 * x = d) && q % 2 == 1)
      | .rz => false
      | .rdn => s && decide (x ≠ 0)
      | .rup => !s && decide (x ≠ 0)
    if up then q + 1 else q

/-- The unit in the last place for m * 2^e at precision p, not below 2^lo. -/
def ulpExp (p : Nat) (lo : Int) (m : Nat) (e : Int) : Int :=
  max ((m.log2 : Int) + e - (p - 1 : Nat)) lo

/-- The sign bit of a format, or 0. -/
def Fmt.sgn (f : Fmt) (s : Bool) : Nat := if s then f.signW else 0

/-- What a value beyond the largest finite one, or an infinity, is written as (R68, Table 4.2). -/
def Fmt.overflow (f : Fmt) (r : Rnd) (sat isInf s : Bool) : Nat :=
  if sat then f.sgn s + f.maxBits
  else if f.e4 then f.sgn s + f.nanBits
  else if isInf then f.sgn s + f.infBits
  else
    match r, s with
    | .ne, _ => f.sgn s + f.infBits
    | .rz, _ => f.sgn s + f.maxBits
    | .rdn, false => f.maxBits
    | .rdn, true => f.sgn true + f.infBits
    | .rup, false => f.infBits
    | .rup, true => f.sgn true + f.maxBits

/-- Encode a value: one rounding, then R68. A NaN gives the canonical NaN; `keep` keeps its sign (R64, the conversions
into E4 and E5). -/
def Fmt.encode (f : Fmt) (r : Rnd) (sat keep : Bool) (v : FV) : Nat :=
  match v with
  | .nan s => (if keep then f.sgn s else 0) + f.nanBits
  | .inf s => f.overflow r sat true s
  | .fin s m e =>
    if m = 0 then f.sgn s
    else
      let u := ulpExp (f.fw + 1) f.emin m e
      let q := roundAt r s m e u
      let l := q.log2
      let mag : Nat :=
        if q < 2 ^ f.fw then q
        else ((l : Int) + u + f.bias).toNat * 2 ^ f.fw + (q * 2 ^ f.fw / 2 ^ l - 2 ^ f.fw)
      if mag > f.maxBits then f.overflow r sat false s else f.sgn s + mag

/-- Round to FP32 in a direction, overflow as `.wrap` (RoundNE32 of R44 in the selected direction, R67). -/
def rnd32 (r : Rnd) (v : FV) : FV := fp32.decode (fp32.encode r false false v)

/-- RoundNE32 (R44). -/
def rne32 (v : FV) : FV := rnd32 .ne v

/-- RoundNE32(x, ext) (R44): 24 bits, unbounded exponent. -/
def rneExt (v : FV) : FV :=
  match v with
  | .fin s m e =>
    if m = 0 then v
    else
      let u := (m.log2 : Int) + e - 23
      .fin s (roundAt .ne s m e u) u
  | .inf s => .inf s
  | .nan _ => .nan false

/-- The FP32 bits of a value that is already an FP32 value. -/
def bits32 (v : FV) : BitVec 32 := BitVec.ofNat 32 (fp32.encode .ne false false v)

/-- The FP32 value of 32 bits. -/
def val32 (b : BitVec 32) : FV := fp32.decode b.toNat

/-- The FP32 value in bits [31:0] of a register. -/
def fpOf (w : Word) : FV := fp32.decode (w.toNat % 2 ^ 32)

/-- A register holding an FP32 result in [31:0], [63:32] zero. -/
def fpTo (v : FV) : Word := BitVec.ofNat 64 (fp32.encode .ne false false v)

def FV.isNan : FV → Bool
  | .nan _ => true
  | _ => false

def FV.neg : FV → FV
  | .nan s => .nan !s
  | .inf s => .inf !s
  | .fin s m e => .fin (!s) m e

def FV.abs : FV → FV
  | .nan _ => .nan false
  | .inf _ => .inf false
  | .fin _ m e => .fin false m e

/-- Exact product (R66, R81). -/
def FV.mul : FV → FV → FV
  | .nan _, _ => .nan false
  | _, .nan _ => .nan false
  | .inf s, .inf t => .inf (s != t)
  | .inf s, .fin t m _ => if m = 0 then .nan false else .inf (s != t)
  | .fin s m _, .inf t => if m = 0 then .nan false else .inf (s != t)
  | .fin s m e, .fin t n f => .fin (s != t) (m * n) (e + f)

/-- The signed mantissa of a finite value at exponent `lo`. -/
def FV.at (lo : Int) : FV → Int
  | .fin s m e => (if s then -1 else 1) * ((m * 2 ^ (e - lo).toNat : Nat) : Int)
  | _ => 0

def FV.exp (d : Int) : FV → Int
  | .fin _ _ e => e
  | _ => d

def FV.isZero : FV → Option Bool
  | .fin s 0 _ => some s
  | _ => none

/-- The exact sum of a list of addends with the zero signs of R66 and the infinities of R81. -/
def FV.sum (rdn : Bool) (l : List FV) : FV :=
  if l.any FV.isNan then .nan false
  else
    let pi := l.any (fun v => v == .inf false)
    let ni := l.any (fun v => v == .inf true)
    if pi && ni then .nan false
    else if pi then .inf false
    else if ni then .inf true
    else
      let lo := (l.map (FV.exp 0)).foldl min ((l.head?.map (FV.exp 0)).getD 0)
      let t := (l.map (FV.at lo)).foldl (· + ·) 0
      if t = 0 then
        let s := if l.all (fun v => v.isZero == some false) then false
          else if l.all (fun v => v.isZero == some true) then true
          else rdn
        .fin s 0 lo
      else .fin (decide (t < 0)) t.natAbs lo

/-- a + b, exact. -/
def FV.add (r : Rnd) (a b : FV) : FV := FV.sum (r == .rdn) [a, b]

/-- Order of two values that are not NaN; zeros are equal. -/
def FV.cmp (a b : FV) : Ordering :=
  match a, b with
  | .inf true, .inf true => .eq
  | .inf true, _ => .lt
  | _, .inf true => .gt
  | .inf _, .inf _ => .eq
  | .inf _, _ => .gt
  | _, .inf _ => .lt
  | a, b =>
    let lo := min (a.exp 0) (b.exp 0)
    compare (a.at lo) (b.at lo)

def FV.lt (a b : FV) : Bool := !a.isNan && !b.isNan && (a.cmp b == .lt)
def FV.eqv (a b : FV) : Bool := !a.isNan && !b.isNan && (a.cmp b == .eq)
def FV.le (a b : FV) : Bool := !a.isNan && !b.isNan && (a.cmp b != .gt)

/-- a is below b, with -0 below +0 (R78). -/
def FV.below (a b : FV) : Bool :=
  if a.cmp b == .eq then (a.isZero == some true && b.isZero == some false) else a.cmp b == .lt

/-- The lesser operand by R78. -/
def FV.min78 (a b : FV) : FV :=
  if a.isNan then (if b.isNan then a else b)
  else if b.isNan then a
  else if b.below a then b else a

/-- The greater operand by R78. -/
def FV.max78 (a b : FV) : FV :=
  if a.isNan then (if b.isNan then a else b)
  else if b.isNan then a
  else if a.below b then b else a

/-- Multiply by 2^k exactly. -/
def FV.scale (k : Int) : FV → FV
  | .fin s m e => .fin s m (e + k)
  | v => v

/-- The exact value of an integer. -/
def FV.ofInt (x : Int) : FV := .fin (decide (x < 0)) x.natAbs 0

/-- Round a finite value to an integer (R68). -/
def FV.toInt (r : Rnd) : FV → Int
  | .fin s m e => (if s then -1 else 1) * ((roundAt r s m e 0 : Nat) : Int)
  | _ => 0

/-- Conversion into an integer format (R68): clamped under `.sat`, wrapped otherwise. -/
def FV.toIntFmt (w : Nat) (u sat : Bool) (r : Rnd) (v : FV) : Nat :=
  let lo : Int := if u then 0 else -((2 ^ (w - 1) : Nat) : Int)
  let hi : Int := if u then ((2 ^ w : Nat) : Int) - 1 else ((2 ^ (w - 1) : Nat) : Int) - 1
  match v with
  | .nan _ => 0
  | .inf s => wrapTo w (if s then lo else hi)
  | v =>
    let x := v.toInt r
    wrapTo w (if sat then max lo (min hi x) else x)

/-- a / b rounded later: 64 quotient bits beyond the larger operand, with a sticky bit. -/
def FV.div (a b : FV) : FV :=
  match a, b with
  | .fin s m e, .fin t n f =>
    if n = 0 then (if m = 0 then .nan false else .inf (s != t))
    else
      let k := 64 + n.log2
      let q := m * 2 ^ k / n
      let x := m * 2 ^ k % n
      .fin (s != t) (2 * q + (if x = 0 then 0 else 1)) (e - f - k - 1)
  | .nan _, _ => .nan false
  | _, .nan _ => .nan false
  | .inf _, .inf _ => .nan false
  | .inf s, .fin t _ _ => .inf (s != t)
  | .fin s _ e, .inf t => .fin (s != t) 0 e

/-- Set bits of a number from the highest of `n` down while `ok` holds: the greatest x below 2^n with `ok x`. -/
def searchBits (ok : Nat → Bool) : Nat → Nat → Nat
  | 0, x => x
  | n + 1, x => searchBits ok n (if ok (x + 2 ^ n) then x + 2 ^ n else x)

/-- RoundNE32(2^(i/64)) for i below 64 (R83): the nearest 24-bit significand, found by exact integer powers. -/
def exp2Table (i : Nat) : FV :=
  .fin false (searchBits (fun x => decide ((2 * x - 1) ^ 64 ≤ 2 ^ (i + 64 * 24))) 23 (2 ^ 23)) (-23)

/-- RoundNE32(1 / (1 + (j + 0.5)/128)) (R85). -/
def recipTable (j : Nat) : FV := rne32 (FV.div (.fin false 256 0) (.fin false (257 + 2 * j) 0))

/-- Integer square root below 2^n. -/
def isqrt (n x : Nat) : Nat := searchBits (fun r => decide (r * r ≤ x)) n 0

/-- RoundNE32(1 / sqrt(1 + (j + 0.5)/32)) (R86); the root is never exact, so the sticky bit is always set. -/
def rsqrtTable (j : Nat) : FV := rne32 (.fin false (2 * isqrt 50 (2 ^ 96 / (65 + 2 * j)) + 1) (-46))

def one : FV := .fin false 1 0
def pzero : FV := .fin false 0 0

/-- RoundNE32(ln 2), RoundNE32((ln 2)^2/2), RoundNE32((ln 2)^3/6), RoundNE32(log2 e) (R83, R84). -/
def cLn2 : FV := fp32.decode 0x3F317218
def cLn2Sq : FV := fp32.decode 0x3E75FDF0
def cLn2Cu : FV := fp32.decode 0x3D635847
def cLog2e : FV := fp32.decode 0x3FB8AA3B

/-- Exp2 (R83). -/
def exp2 (x : FV) : FV :=
  match x with
  | .nan _ => .nan false
  | .inf false => .inf false
  | .inf true => pzero
  | v =>
    if !(v.lt (.fin false 128 0)) then .inf false
    else if v.lt (.fin true 150 0) then pzero
    else
      let n := v.toInt .rdn
      let f := FV.sum false [v, FV.ofInt (-n)]
      let i := ((f.scale 6).toInt .rdn).toNat
      let t := FV.sum false [f, (.fin true i (-6) : FV)]
      let y := rne32 (FV.sum false [cLn2Sq, t.mul cLn2Cu])
      let y := rne32 (FV.sum false [cLn2, t.mul y])
      let y := rne32 (FV.sum false [one, t.mul y])
      let y := rneExt ((exp2Table i).mul y)
      rne32 (y.scale n)

/-- Exp (R84). -/
def expNat (x : FV) : FV := exp2 (rne32 (x.mul cLog2e))

/-- Recip (R85). -/
def recip (x : FV) : FV :=
  match x with
  | .nan _ => .nan false
  | .inf s => .fin s 0 0
  | .fin s m e =>
    if m = 0 then .inf s
    else
      let l := m.log2
      let mm : FV := .fin false m (-(l : Int))
      let ee : Int := e + l
      let j := 128 * m / 2 ^ l - 128
      let y0 := recipTable j
      let newton := fun (y : FV) =>
        let d := rne32 (FV.sum false [one, (mm.mul y).neg])
        rne32 (FV.sum false [y, y.mul d])
      let y := newton (newton y0)
      match rne32 (y.scale (-ee)) with
      | .fin _ q g => .fin s q g
      | .inf _ => .inf s
      | .nan _ => .nan false

/-- Rsqrt (R86). -/
def rsqrt (x : FV) : FV :=
  match x with
  | .nan _ => .nan false
  | .inf true => .nan false
  | .inf false => pzero
  | .fin s m e =>
    if m = 0 then .inf s
    else if s then .nan false
    else
      let l := m.log2
      let top : Int := e + l
      let ee : Int := if top % 2 = 0 then top else top - 1
      let mm : FV := .fin false m (e - ee)
      let j := ((FV.sum false [mm, (.fin true 1 0 : FV)]).scale 5 |>.toInt .rdn).toNat
      let y0 := rsqrtTable j
      let newton := fun (y : FV) =>
        let u := rne32 (mm.mul y)
        let h := rne32 (FV.sum false [one, (u.mul y).neg])
        rne32 (FV.sum false [y, (y.scale (-1)).mul h])
      let y := newton (newton y0)
      rne32 (y.scale (-(ee / 2)))

end Sys2Proof.Machine
end

