-- ==== Sys2Proof/Machine/State.lean ====
section
/-! DEFINITION. The state of the machine: plain data, one field for every piece of state the spec names. Tables and files of the
device are keyed lists (`getK`, `setK`): a key that is not listed holds the reset value of that item. -/

namespace Sys2Proof.Machine

/-- What ends a run: nothing does. Every trap is a next state (R130 to R135), and no rule of the spec leaves an
instruction without an effect, so the type has no constructor. -/
inductive Fault
  deriving DecidableEq, Repr

/-- What the model refuses. -/
inductive Refusal where
  /-- Raised by `exec` for an instruction whose meaning is not written; safe, since it claims nothing. -/
  | notModelled (mnemonic : String)
  deriving DecidableEq, Repr

/-- Strand states (Table 6.3). -/
inductive StrandState where
  | free | ready | waiting | blocked | trapped | held | halted | done | swapping
  deriving DecidableEq, Repr

/-- A leaf held in a translation buffer (R236): virtual base, size and entry; `barred` are the cores that have given it up by
`tlbi` while their loom still holds it (R155). -/
structure TLeaf where
  base : Nat
  size : Nat
  entry : Word
  barred : List Nat := []
  deriving DecidableEq, Repr

/-- A copy entry (R333, R334): its queue, descriptor and, for a running task, the record;
`from_` is the first cycle in which it may start (R337). Once it has started it moves run by run (R335): `base` is the cycle that its
runs count from, `due` the one in which it completes when nothing delays it further, `row` and `off` the place it has reached, `pages`
the translations it keeps (R237) and `badPage` an address whose walk has failed, `stopped` the fault that it has met (R338), `asking` says
that it waits for a lock of its task (R336) or for a walk, and `done` the bank words served of the run under way. `rowSrc` is the
source of a gathered row under way (R335), `tail` what is left of the bank word of the source in which the last run has ended (R268), and `bad` a byte of its next run, or some byte of its
completion word, that cannot be corrected (R338). -/
structure CopyEnt where
  id : Nat
  q : Nat
  cx : Ctx
  task : Option Nat
  gather : Bool
  rows : Nat
  len : Nat
  src : Word
  dst : Word
  sstr : Int
  dstr : Int
  dir : Nat
  cptr : Word
  cmode : Nat
  cval : Word
  from_ : Nat := 0
  started : Bool := false
  base : Nat := 0
  due : Nat := 0
  row : Nat := 0
  off : Nat := 0
  pages : List TLeaf := []
  stopped : Option (Nat × Word) := none
  asking : Bool := false
  done : List (Nat × Nat) := []
  badPage : Option Nat := none
  rowSrc : Option Word := none
  tail : List Byte := []
  bad : Option Nat := none
  deriving DecidableEq, Repr

/-- What an issued instruction that has not completed waits for. -/
inductive Why where
  /-- its own completion event -/
  | flight
  /-- its own completion event, within 8 cycles unless a bank delays it (R19, R180) -/
  | prompt
  /-- an iteration of a nest fetcher while its core's claim is outstanding (R175) -/
  | nest (n : Nat)
  /-- a deposit or the timer (R123) -/
  | sleep
  /-- its core's lead at a barrier to become 0 (R172) -/
  | barw (n : Nat)
  /-- a held arrive to be applied (R162) -/
  | bara (n : Nat)
  /-- a word in a link queue, popped or only peeked at (R319, R329) -/
  | pop (port : Nat) (peek : Bool)
  /-- the presence of a slot (R321) -/
  | slot (m : Nat) (peek : Bool)
  /-- a place in a neighbour's link queue (R319) -/
  | push (core port : Nat)
  /-- a place in the deferred buffer of a core (R139) -/
  | deferred (core slot : Nat)
  /-- every target of a hold to stop (R154) -/
  | holds (targets : List (Nat × Nat))
  /-- the word at an offset of the core's store to meet a condition (R342): code, offset, operand, mask -/
  | word (cond off : Nat) (val : Word)
  /-- the lock bits of the tiles in a mask (R203) -/
  | tile (mask : Nat)
  /-- a place in the matrix queue for a direct instruction (R204) -/
  | mqPlace
  /-- completion of the strand's direct matrix operation (R204) -/
  | matrix (id : Nat)
  /-- the sequence of the repetition buffer (R218) -/
  | rep (idle : Bool)
  /-- the posted accesses that `fence` waits for: immediate ones, with `sys` peer and host ones too (R254) -/
  | drain (sys : Bool)
  /-- the copy entries of a task whose last `tdone` this is (R339) -/
  | tdone (r : Nat)
  /-- a place among the 1,024 copy entries (R333) -/
  | copyPlace (e : CopyEnt)
  /-- a place among the 64 posted stores (R251) -/
  | posted (g : GAcc) (loc : GLoc)
  /-- a lock request (R243, R398) -/
  | lock
  /-- an entry of a ready queue (R356) -/
  | ready
  /-- matrix work of the target of a `reap` (R149) -/
  | reap (t : Nat)
  /-- work of the core before the L1 split changes (R185) -/
  | split (v : Word)
  /-- the vector or selection unit (R189, R371) -/
  | unit
  /-- what must come before the instruction takes its effect: earlier accesses (R249, R254, R259), a walk (R236), a line that is pending
  (R261), a bank under self-test (R407) -/
  | turn
  deriving DecidableEq, Repr

/-- A wait that costs no turns unless it lasts 8 cycles (R19): the strand stays in the rotation. -/
def Why.costless : Why → Bool
  | .prompt => true
  | .nest _ => true
  | _ => false

/-- A wait: the instruction, what it waits for, and the wait count of R160; `was` are pointers, as they stood at its issue, that a `wmt` has
written meanwhile (R151). -/
structure Wait where
  why : Why
  instr : Instr
  cx : Ctx
  counted : Bool := false
  count : Nat := 0
  since : Nat := 0
  dst : Opnd := .none
  was : List (Nat × Word) := []
  deriving DecidableEq, Repr

/-- A fault held for a strand until it executes a certain instruction (R220, R338): cause, INFO and word. -/
structure HeldFault where
  cause : Byte
  info : Word
  word : IWord
  copy : Bool
  deriving DecidableEq, Repr

/-- The report of posted failures kept for a strand (R250). -/
structure FailReport where
  count : Nat
  node : Nat
  port : Nat
  why : BitVec 2
  deriving DecidableEq, Repr

/-- One strand. `cr` holds its control registers by number (Table 6.1), register 0 only its stored flags; `dfault` says
that a double fault, not `halt`, has halted it (R135); `readyFrom` is the first cycle in which it may issue since it became Ready (R20);
`runs` says whether its timer counts in this cycle (R138); `tmrSet` is the
cycle in which its timer was last written or reached 0; `badText` is an address of text whose walk has failed for it (R236), `launched` says
that its first chain since an automatic start is still to issue (R24), `badOld` is the address and word of a reduction that it has posted and
whose old value could not be corrected (R408), and `pages` are the walks made for its instruction under way (R236):
addresses with the leaf that each has given. -/
structure Strand where
  st : StrandState := .free
  pc : Word := 0
  cr : List (Nat × Word) := []
  ptrs : List (Nat × Word) := []
  preds : BitVec 8 := 1
  kidx : List (Nat × BitVec 32) := []
  last : Option Nat := none
  readyFrom : Nat := 0
  wait : Option Wait := none
  holdReq : Bool := false
  holdPort : Bool := false
  tmrHit : Bool := false
  tmrSet : Option Nat := none
  runs : Bool := false
  resumed : Nat := 0
  dfault : Bool := false
  seq : Option Nat := none
  held : List HeldFault := []
  fail : Option FailReport := none
  badText : Option Nat := none
  launched : Bool := false
  badOld : Option (Word × IWord) := none
  pages : List (Nat × Option TLeaf) := []
  deriving DecidableEq, Repr

/-- The strand a number names at reset: strand 0 Ready with the window and region of Tables 5.2 and 6.4. -/
def Strand.init (t : Nat) : Strand :=
  if t = 0 then { st := .ready, cr := [(4, 0x800000), (12, 0x6000000)], runs := true } else {}

/-- One write to a core-shared register (R99, R125): value, cycle c, writing strand. -/
structure SWrite where
  val : Word
  at_ : Nat
  by_ : Nat
  deriving DecidableEq, Repr

/-- A message of the trap queue (R130). -/
structure TrapMsg where
  cycle : Nat
  strand : Nat
  cause : Byte
  word : IWord
  addr : Word
  deriving DecidableEq, Repr

/-- A link inbound queue (R317, R318): words, claim, and the pushes that found it full or claimed. -/
structure Link where
  words : List Word := []
  claim : Claim := .none
  blocked : List Push := []
  deriving DecidableEq, Repr

/-- A deposit slot (R320); `parked` is the context key it is parked under (R141). -/
structure Slot where
  val : Word := 0
  present : Bool := false
  owner : Option Nat := none
  parked : Option Nat := none
  parkTask : Option Nat := none
  deriving DecidableEq, Repr

/-- An entry of the deferred-message buffer (R139). -/
structure DefEntry where
  slot : Nat
  val : Word
  deriving DecidableEq, Repr

/-- Who owns a barrier or a nest fetcher (R161, R169). -/
inductive Owner where
  | none | task (r : Nat) | core (c : Nat)
  deriving DecidableEq, Repr

/-- A barrier unit (R161); `by_` is the strand that bound it without a task (R165). -/
structure Barrier where
  owner : Owner := .none
  by_ : Nat := 0
  mask : BitVec 16 := 0
  phase : BitVec 16 := 0
  leads : List (Nat × Nat) := []
  held : List Ctx := []
  deriving DecidableEq, Repr

/-- A core's chunk at a nest fetcher (R167); `claim` is the cycle in which its outstanding claim was issued, `reached` whether that
has come to the fetcher (R175). -/
structure Chunk where
  ci : Nat := 0
  cr : Nat := 0
  claim : Option Nat := none
  reached : Bool := false
  deriving DecidableEq, Repr

/-- A nest fetcher (R167). -/
structure Fetcher where
  owner : Owner := .none
  by_ : Nat := 0
  desc : NestDesc := ⟨0, 0, 0, 0, 0, 0⟩
  next : Nat := 0
  rem : Nat := 0
  chunks : List (Nat × Chunk) := []
  deriving DecidableEq, Repr

/-- Latch slot states (R208). -/
inductive LatchState where
  | empty | filling | full | draining
  deriving DecidableEq, Repr

/-- A latch slot (R208): state, format (by its alias window; E4 while it is Empty, log 11), binding, and elements B[k][n] under k*64+n. `inflow`: the
ring predecessor's bytes are coming in; `arrived`: they are all in while the slot's own bytes still leave (R209). -/
structure Latch where
  st : LatchState := .empty
  fmt : Nat := 1
  bind : Owner := .none
  elems : List (Nat × Nat) := []
  inflow : Bool := false
  arrived : Bool := false
  deriving DecidableEq, Repr

/-- What a matrix-queue entry does. -/
inductive MKind where
  | mma | mmas | mldb | mrot | mdrop | mza | mst | mlda | macc | mcorr
  deriving DecidableEq, Repr

/-- An entry of the matrix queue (R204): its kind, context, whether it is direct, modifier, tiles, slot, pointers, shape,
scale, post-increment, the slot binding it stands for, and, once started, what an `mrot` carries and to whom. An entry that reads or
writes the local store does so run by run (R207, R226): `base` is the cycle that its runs count from, `size` the bytes of its walk,
`moved` those moved so far and `row` the window-3 blocks among them, `bytes` what it has read or is to write, `side` the metadata or
list that it has read, `done` the bank words served of the run under way. `late`: a pointer copy of the repetition buffer
waits for the entry's size (R218, log 8). `offBy`: the cycles by which its completion has been put off ahead of its delayed run. -/
structure MEnt where
  id : Nat
  kind : MKind
  cx : Ctx
  direct : Bool
  mod : BitVec 3
  tile : Nat
  tile2 : Nat
  slot : Nat
  p : Word
  p2 : Word
  m : Nat
  n : Nat
  k : Nat
  scale : Word
  count : Nat
  inc : Inc
  incReg : Word
  ptr : BitVec 3
  bind : Owner
  succ : Nat
  started : Bool := false
  fmt : Nat := 1
  data : List (Nat × Nat) := []
  base : Nat := 0
  chunk : Nat := 256
  size : Nat := 0
  moved : Nat := 0
  row : Nat := 0
  bytes : List Byte := []
  side : List Byte := []
  done : List (Nat × Nat) := []
  late : Bool := false
  offBy : Nat := 0
  deriving DecidableEq, Repr

/-- An instruction of the vector unit or of the SU (R189, R371): its strand's vl, its pointers, scalar operand and advances, and how
far it has come: `base` is the cycle that its runs count from, `due` the one in which it completes when nothing delays it further, `blk` the runs
made, `offs` the bytes of the window-3 blocks passed in each operand, `got` what it has read or taken from tables, and `done` the
bank words served of the run under way. -/
structure UJob where
  instr : Instr
  cx : Ctx
  vl : Nat := 0
  ps : List Word := []
  g : Word := 0
  incs : List (BitVec 3 × Word) := []
  started : Bool := false
  base : Nat := 0
  due : Nat := 0
  blk : Nat := 0
  offs : List Nat := []
  got : List Nat := []
  done : List (Nat × Nat) := []
  deriving DecidableEq, Repr

/-- A captured chain of the repetition buffer (R216): the instruction with its base word, address and length. -/
structure Chain where
  instr : Instr
  word : IWord
  addr : Word
  len : Nat
  deriving DecidableEq, Repr

/-- The repetition buffer's sequence (R216 to R221). -/
structure RepBuf where
  cx : Ctx
  chains : List Chain
  count : Nat
  stride : Nat
  toggle : Bool
  pass : Nat := 0
  idx : Nat := 0
  copies : List (Nat × Word) := []
  demand : Nat := 0
  granted : Bool := false
  stopped : Bool := false
  after : Nat := 0
  deriving DecidableEq, Repr

/-- A record of a write log (R244); that of a node or window operation names the instruction that has made it, that of a patch or an arming
its issue cycle. -/
inductive LogRec where
  | store (a : GAddr) (bs : List Byte)
  | red (a : GAddr) (op : BitVec 3) (v : Word)
  | node (op : NodeOp) (cx : Ctx)
  | win (op : WinOp) (cx : Ctx)
  | patch (r item : Nat) (v : Word) (at_ : Nat)
  | arm (r at_ : Nat)
  deriving DecidableEq, Repr

/-- An access under way outside the core's own store: a posted store (R251), or one a peer or the host answers (R250), with the port that it
leaves by; `fenced`: a `fence` stands between it and the later accesses of its strand (R254). -/
structure Posted where
  id : Nat
  g : GAcc
  loc : GLoc
  task : Option Nat := none
  done : Bool := false
  port : Nat := 0
  fenced : Bool := false
  deriving DecidableEq, Repr

/-- A line of the L1 data cache (R240): its place, the task that filled it, and the line. -/
structure L1Line where
  place : Nat
  task : Nat
  line : GAddr
  deriving DecidableEq, Repr

/-- A join entry (R341): its place among the entries of the core's queues, the mask of the queues, and the running task of its strand
(R333, R339). -/
structure Join where
  id : Nat
  mask : Nat
  task : Option Nat := none
  deriving DecidableEq, Repr

/-- An entry of the lineage queue (R295). The bytes that it has formed are written run by run: `base` is the cycle of the first run, `due`
the one in which it completes when nothing delays it further, `moved` what has been written, and `done` the bank words served of
the run under way. -/
structure LinEnt where
  id : Nat
  cx : Ctx
  diff : Bool
  p : Word
  ga : Word
  inc : Inc
  incReg : Word
  ptr : BitVec 3
  started : Bool := false
  bytes : Option (List Byte) := none
  base : Nat := 0
  due : Nat := 0
  moved : Nat := 0
  done : List (Nat × Nat) := []
  deriving DecidableEq, Repr

/-- The items that `wmf` or `wmt` moves (R151), four in a run: whose, from which index on, how many and how many have moved, the offset in
the core's store, the values that `wmt` has written, and the banks' part as for other runs. -/
structure ItemMove where
  cx : Ctx
  put : Bool
  target : Nat
  first : Nat
  count : Nat
  off : Nat
  vals : List Word := []
  moved : Nat := 0
  base : Nat := 0
  done : List (Nat × Nat) := []
  deriving DecidableEq, Repr

/-- The fetch of a member's footprint (R352): what is left of it, as (address, offset in the core's store, length) inside lines, read as
the copy entry `ent` of its task reads, whose `off` counts the runs made. -/
structure FetchJob where
  ent : CopyEnt
  pieces : List (Word × Nat × Nat)
  deriving DecidableEq, Repr

/-- Fault fields and DONE of a copy queue (Table 15.3). -/
structure CqStat where
  fault : Bool := false
  why : Nat := 0
  count : Nat := 0
  addr : Nat := 0
  done : Nat := 0
  deriving DecidableEq, Repr

/-- An entry of the context cache (R141): the key it holds, whether it is dirty, and the image's 160 words. -/
structure CcEnt where
  key : Nat
  dirty : Bool
  img : List Word
  deriving DecidableEq, Repr

/-- The selection heap (R370), pairs (value, index) in rank order. -/
structure Heap where
  pairs : List (BitVec 32 × BitVec 32) := []
  total : BitVec 32 := 0
  evict : Bool := false
  owner : Owner := .none
  deriving DecidableEq, Repr

/-- An entry of a die or loom queue (R350, R351): record, the first cycle in which it counts (Table 1.8), times passed over, levels
risen. -/
structure QEnt where
  rec_ : Nat
  from_ : Nat := 0
  passed : Nat := 0
  raised : Nat := 0
  deriving DecidableEq, Repr

/-- A holder of a lock (Table 18.3): its task, or the request of a strand outside tasks. -/
structure Holder where
  task : Option Nat
  mode : Mode
  lcnt : Nat := 0
  id : Nat := 0
  deriving DecidableEq, Repr

/-- A waiter of a lock (Table 18.3): the request, the mode asked for, whether it converts a held lock, and its task's further
requests for the object, which share the record (R382, log 62). -/
structure Waiter where
  req : LReq
  mode : Mode
  conv : Bool
  more : List LReq := []
  deriving DecidableEq, Repr

/-- A lock table entry (Table 18.2), waiters in the order of R388. -/
structure LockEnt where
  obj : LObj
  holders : List Holder := []
  waiters : List Waiter := []
  deriving DecidableEq, Repr

/-- A line record of a tile delta (R274): full, or a patch. -/
structure DeltaRec where
  full : Bool
  bytes : List Byte
  deriving DecidableEq, Repr

/-- A node (Tables 12.1 to 12.3). `dirty` holds lines written at their home slices and not yet written back, `delta` the
records of lines held, each under its line number; `tiles` are the tiles with reserved storage (R276). -/
structure Node where
  valid : Bool := false
  ghost : Bool := false
  frozen : Bool := false
  resv : Option Nat := none
  depth : Nat := 0
  parent : Nat := 0
  children : Nat := 0
  ntiles : Nat := 0
  dirty : List (Nat × List Byte) := []
  delta : List (Nat × DeltaRec) := []
  tiles : List Nat := []
  deriving DecidableEq, Repr

/-- Sequence states (Table 13.1). -/
inductive SeqState where
  | free | open_ | reserved (task : Nat)
  deriving DecidableEq, Repr

/-- A line record of a window (R301). -/
structure WRec where
  pos : Nat
  state : Bool
  line : Nat
  target : Nat
  data : List Byte
  deriving DecidableEq, Repr

/-- A sequence (R297, R298, R301): its image's eight words, its window's records and tentative pages (index, page). -/
structure Seq where
  st : SeqState := .free
  gen : Nat := 0
  img : List Word := []
  recs : List WRec := []
  pages : List (Nat × Nat) := []
  deriving DecidableEq, Repr

/-- Something that the outside world does: the cycle from which on it comes about, and for a management message that comes over the fabric
its node (R404); without one, such a message comes over the sideband. -/
structure Input where
  due : Nat
  ev : Instr
  node : Option Nat := none
  deriving DecidableEq, Repr

/-- Lines of the management plane's error log (R406, R355). -/
inductive ErrRec where
  | error (e : Element)
  | outcome (e : Element) (lasting : Bool)
  | failed (r graph : Nat)
  deriving DecidableEq, Repr

/-- How far the device has come up, or what stopped it (R409, R411, R412): an alarm keeps whether firmware had been verified. -/
inductive Power where
  | reset | refused | verified | running | alarm (up : Bool)
  deriving DecidableEq, Repr

/-- A launch message at its port (R269, R402): when the port has checked it (Table 1.8), and the earlier writes of its node that it
waits for. -/
structure HeldMsg where
  id : Nat
  due : Nat
  port : Nat
  node : Nat
  m : BitVec 128
  behind : List Input
  deriving DecidableEq, Repr

/-- What the management plane holds (R404, R409 to R412); `walkRoot` is the root that walks use: a change of `root` reaches them by
`tlbi.alld` (R233); `items` the bring-up items that have been set since reset (Table 19.4), `testing` the elements under self-test,
`errCnt` the error counters (Table 7.1), `waysOff` the L2 ways that are disabled (R407), and `lanesOff` the lanes that have been dropped, each
with its port (R403). -/
structure Mgmt where
  power : Power := .reset
  digest : BitVec 384 := 0
  debugLock : Bool := false
  eraseOnTamper : Bool := false
  keysErased : Bool := false
  thermal : Bool := false
  manager : Option Nat := none
  root : Nat := 0
  walkRoot : Nat := 0
  kvBase : Nat := 0
  npages : Nat := 0
  linUnits : Nat := 0
  winRoom : Nat := 0
  poolBase : Option Nat := Option.none
  lanesOff : List (Nat × Nat) := []
  held : List HeldMsg := []
  heldNext : Nat := 0
  log : List ErrRec := []
  items : List Nat := []
  testing : List Element := []
  errCnt : List (Element × Nat) := []
  waysOff : List (Nat × Nat) := []
  deriving DecidableEq, Repr

/-- The bias, adaptation and slot tables (R364, R366): biases under set*2048 + bank*1024 + expert, state words by set,
and the `selk` instructions that hold a bank latched. -/
structure Tables where
  bias : List (Nat × BitVec 32) := []
  biasSt : List (Nat × Word) := []
  latched : List (Nat × Nat × Ctx) := []
  adapt : List (Nat × Word) := []
  slots : List (Nat × Word) := []
  deriving DecidableEq, Repr

/-- The lock manager (R382, R383, R395, R397): entries, requests that wait for room, the rows of the compatibility matrix when
`lmld` has loaded them, and LIMIT. -/
structure LockTab where
  entries : List LockEnt := []
  noRoom : List LReq := []
  matrix : Option (List (BitVec 7)) := none
  limit : Nat := 16
  next : Nat := 0
  deriving DecidableEq, Repr

/-- One core (Table 1.1). `shared` holds s0-s15 under 0-15 and the core control registers under their numbers 32-41;
`busyAt` is the cycle in which the core last issued; counter EMPTY is held as the number of cycles that it does not count (Table 7.6);
`bankUse` are the banks that have served a request in a cycle, one bit each, with that cycle (R179); `vuQ` and `suQ` hold the
instructions of the two units in issue order (R189, R371); `dispFrom` is the strand that automatic dispatch started last for
the task `disp` (R354); `repNext` is the strand, with its pc, that the idle repetition buffer lets issue its `rep` anew (R216). -/
structure Core where
  started : Bool := false
  strands : List (Nat × Strand) := []
  rf : List (Nat × Word) := []
  shared : List (Nat × List SWrite) := []
  lastIssuer : Nat := 15
  ls : Memory := []
  trapQ : List TrapMsg := []
  deferred : List DefEntry := []
  heldBack : List DepMsg := []
  reserved : List Ctx := []
  defAt : Option Nat := none
  slots : List (Nat × Slot) := []
  links : List (Nat × Link) := []
  perf : List (Nat × Word) := []
  busyAt : Option Nat := none
  icache : List Nat := []
  bankUse : Nat × Nat := (0, 0)
  vuQ : List UJob := []
  suQ : List UJob := []
  acc : List (Nat × List (Nat × BitVec 32)) := []
  latch : List (Nat × Latch) := []
  mq : List MEnt := []
  mqWait : List MEnt := []
  mqNext : Nat := 0
  macFree : Nat := 0
  portFree : Nat := 0
  ringFree : Nat := 0
  rep : Option RepBuf := none
  repWaiters : List Nat := []
  repNext : Option (Nat × Word) := none
  tlb : List TLeaf := []
  l1 : List L1Line := []
  logs : List (Nat × List LogRec) := []
  posted : List Posted := []
  postedNext : Nat := 0
  joins : List Join := []
  linQ : List LinEnt := []
  copyQ : List CopyEnt := []
  moves : List ItemMove := []
  fetches : List FetchJob := []
  cqStat : List (Nat × CqStat) := []
  cc : List (Nat × CcEnt) := []
  heap : Heap := {}
  coreQ : List Nat := []
  readyQ : List (Nat × Word) := []
  disp : Option Nat := none
  dispFrom : Nat := 0
  spares : Nat := 0
  barred : Bool := false
  deriving DecidableEq, Repr

/-- One loom: its barrier units and nest fetchers. -/
structure Loom where
  barriers : List (Nat × Barrier) := []
  fetchers : List (Nat × Fetcher) := []
  tlb : List TLeaf := []
  queue : List QEnt := []
  tookAt : Nat × Nat := (0, 0)
  deriving DecidableEq, Repr

/-- Record and task states (Tables 1.9 and 16.3). -/
inductive TaskState where
  | free | idle | queued | locking | running | retired | committing | aborted | faulted | committed | failed
  deriving DecidableEq, Repr

/-- The bookkeeping of a launch record (R25, R345 to R355). `regions` gives each member core's region in the layout of
cr.lsreg; `wins` the bases of the windows reserved on each; `left` the strands still to be started there; `fetch` the
members whose fetch is under way; `locks` the footprint locks still to be granted; `avoid` the core a rerun keeps off; `away` the contexts (core, key) into which strands of the task
are swapped out. -/
structure Task where
  st : TaskState := .free
  drawn : Bool := false
  seq : Nat := 0
  stamp : Nat := 0
  loom : Nat := 0
  members : List Nat := []
  regions : List (Nat × Word) := []
  wins : List (Nat × List Nat) := []
  left : List (Nat × Nat) := []
  fetch : List Nat := []
  locks : Nat := 0
  avoid : Option Nat := none
  commitIx : Option Nat := none
  away : List (Nat × Nat) := []
  retAt : Nat := 0
  deriving DecidableEq, Repr

/-- One die: its power governor (R405): ceiling, granted total, and the waiting requests (core, demand) in arrival order; its queue of
records (R350); the walks that wait for its walker (R236). -/
structure Die where
  ceil : Nat := 1024
  total : Nat := 0
  waiting : List (Nat × Nat) := []
  queue : List QEnt := []
  walks : List WalkReq := []
  deriving DecidableEq, Repr

/-- The machine. `now` is the core cycle since reset (R157); `turn` is the model's place within the cycle: 0 before the
issues, then n + 1 when core n is the next that may issue, then 1025 to 1027 for the end of the cycle; `cur` is the instruction
being issued; `pend` holds happenings under way with the cycle in which each comes about; `env` holds what the outside
world does, with its cycle (log 5); `fresh` is the counter that free values are drawn with (log 4); `replies` is what the
outside has been answered. `readWaits` are reads that wait at a pending line (R261); `linHeld` the lineage lines that home slices
hold (R277), as (node, line); `linCnt` the counters FROZENREF 2, DEPTHREF 3, GHOSTREF 4, RESOLVED 5 and LEVELS 6 of R291;
`pagesOut` the KV pages whose FREE bit is clear and `pagesResv` those a task has reserved (R299, R303), as (page, record);
`seqCount` the device-wide count of R25; `commitNext` the commit index (R260). -/
structure State where
  now : Nat := 0
  turn : Nat := 0
  fresh : Nat := 0
  cur : Ctx := {}
  pend : List (Nat × Instr) := []
  env : List Input := []
  replies : List (Nat × List Word) := []
  cores : List (Nat × Core) := []
  looms : List (Nat × Loom) := []
  mem : Memory := []
  tasks : List (Nat × Task) := []
  stampClock : Nat := 0
  dies : List (Nat × Die) := []
  envAt : Nat := 0
  readWaits : List (GAcc × GLoc) := []
  nodes : List (Nat × Node) := []
  linHeld : List (Nat × Nat) := []
  linCnt : List (Nat × Word) := []
  locks : LockTab := {}
  seqs : List (Nat × Seq) := []
  pagesOut : List Nat := []
  pagesResv : List (Nat × Nat) := []
  tables : Tables := {}
  seqCount : Nat := 0
  commitNext : Nat := 0
  mgmt : Mgmt := {}
  deriving DecidableEq, Repr

/-- The machine right after reset: every field at its reset value, nothing listed. -/
def State.reset : State := {}

end Sys2Proof.Machine
end

