-- ==== Sys2Proof/Machine/Ops.lean ====
section
/-! DEFINITION. The named operations every meaning is built from: finding and changing a core, strand or loom; registers; the
8-cycle visibility of shared registers; scheduling; leaving and rejoining the rotation; taking a trap (R130 to R135) and returning
from one (R136). -/

namespace Sys2Proof.Machine

/-- What a meaning answers. -/
abbrev Out := Host.Outcome State Fault Refusal

/-- The core with number `c`. -/
def getCore (s : State) (c : Nat) : Core := getK {} s.cores c

/-- Strand `t` of a core. -/
def Core.strand (k : Core) (t : Nat) : Strand := getK (Strand.init t) k.strands t

/-- Strand `t` of core `c`. -/
def getStrand (s : State) (c t : Nat) : Strand := (getCore s c).strand t

/-- Change core `c`. -/
def modCore (s : State) (c : Nat) (f : Core → Core) : State :=
  { s with cores := setK s.cores c (f (getCore s c)) }

/-- Change strand `t` of a core. -/
def Core.modStrand (k : Core) (t : Nat) (f : Strand → Strand) : Core :=
  { k with strands := setK k.strands t (f (k.strand t)) }

/-- Change strand `t` of core `c`. -/
def modStrand (s : State) (c t : Nat) (f : Strand → Strand) : State :=
  modCore s c (fun k => k.modStrand t f)

/-- The loom of a core (R12). -/
def loomOf (c : Nat) : Nat := c / 16

/-- The column of a core. -/
def colOf (c : Nat) : Nat := c % 16

/-- The row of a core. -/
def rowOfCore (c : Nat) : Nat := c / 16 % 16

/-- The die of a core. -/
def dieOf (c : Nat) : Nat := c / 256

/-- Ring or vertical distance of two positions of sixteen (R181). -/
def hops (a b : Nat) : Nat :=
  let d := if a ≤ b then b - a else a - b
  min d (16 - d)

def getLoom (s : State) (l : Nat) : Loom := getK {} s.looms l

def modLoom (s : State) (l : Nat) (f : Loom → Loom) : State :=
  { s with looms := setK s.looms l (f (getLoom s l)) }

def getTask (s : State) (r : Nat) : Task := getK {} s.tasks r

def modTask (s : State) (r : Nat) (f : Task → Task) : State :=
  { s with tasks := setK s.tasks r (f (getTask s r)) }

def getDie (s : State) (d : Nat) : Die := getK {} s.dies d

def modDie (s : State) (d : Nat) (f : Die → Die) : State := { s with dies := setK s.dies d (f (getDie s d)) }

/-- Let `ev` come about in cycle `due`. -/
def sched (s : State) (due : Nat) (ev : Instr) : State :=
  { s with pend := s.pend ++ [(due, ev)] }

/-- A free choice from `lo` to `hi` for choice `site` (R414, log 1). Every step, and every happening let come about, draws anew. -/
def pickN (s : State) (site lo hi : Nat) : Nat := Config.pick s.fresh (site + 64 * s.pend.length) lo hi

/-- A free choice of its own for each `sub` (R414, log 1). -/
def pickOf (s : State) (site sub lo hi : Nat) : Nat :=
  Config.pick s.fresh (site + 64 * s.pend.length + 2 ^ 32 * (sub + 1)) lo hi

/-- Answer the outside: `id` says what is answered. -/
def reply (s : State) (id : Nat) (ws : List Word) : State :=
  { s with replies := s.replies ++ [(id, ws)] }

/-! Control registers. -/

/-- A strand control register as stored. -/
def Strand.get (x : Strand) (n : Nat) : Word := getK 0 x.cr n

/-- Store a strand control register. -/
def Strand.set (x : Strand) (n : Nat) (v : Word) : Strand := { x with cr := setK x.cr n v }

/-- A flag of cr.stat (Table 6.2): SELS 11, CF8E 10, HLDP 8, DF 7, HND 6, XB 5. -/
def Strand.flag (x : Strand) (i : Nat) : Bool := bit (x.get 0) i

def Strand.setFlag (x : Strand) (i : Nat) (b : Bool) : Strand :=
  x.set 0 (setBits (x.get 0) i i b.toNat)

/-- GANG 3, DPORT 2, STEP 1 of cr.dbg (Table 6.4). -/
def Strand.dbg (x : Strand) (i : Nat) : Bool := bit (x.get 19) i

def Strand.setDbg (x : Strand) (i : Nat) (b : Bool) : Strand :=
  x.set 19 (setBits (x.get 19) i i b.toNat)

/-- The code of a strand state (Table 6.3). -/
def StrandState.code : StrandState → Nat
  | .free => 0
  | .ready => 1
  | .waiting => 2
  | .blocked => 3
  | .trapped => 4
  | .held => 5
  | .halted => 6
  | .done => 7
  | .swapping => 8

/-- The state that a strand is in as others see it in cycle `now`: during an instruction that costs no turns it stays Ready until
it has lost one (R19, R180). -/
def Strand.shown (x : Strand) (now : Nat) : StrandState :=
  match x.wait with
  | some w => if w.why.costless = true ∧ now < w.since + 8 then .ready else x.st
  | none => x.st

/-- cr.stat as read in cycle `now` (Table 6.2): the stored flags, the strand's number and state, and TMRP, a timer trap that waits
behind another trap (R137). -/
def Strand.stat (x : Strand) (t now : Nat) : Word :=
  let tmrp := x.tmrHit && (x.st == .trapped || (t == 0 && x.flag 6))
  wd (bits (x.get 0) 11 5 * 32 % 4096 + tmrp.toNat * 512 + t % 16 * 2 ^ 20 + (x.shown now).code)

/-- cr.dbg as read. -/
def Strand.dbgWord (x : Strand) : Word :=
  setBits (x.get 19) 0 0 (x.st == .held).toNat

/-- Live strands have a window (R90). -/
def Strand.live (x : Strand) : Bool := x.st != .free

/-- BASE, LIMIT and size of the window (Table 5.2). -/
def Strand.base (x : Strand) : Nat := bits (x.get 4) 10 0
def Strand.limit (x : Strand) : Nat := bits (x.get 4) 27 16
def Strand.size (x : Strand) : Nat := x.limit - x.base

/-! Shared registers: s0-s15 and the core control registers. -/

/-- The reset value of a shared register (Table 6.5): cr.tsel has NONE set. -/
def sharedReset (r : Nat) : Word := if r = 37 then 0x10 else 0

/-- The write that a strand sees in cycle `now` (R99): the latest among its own and those 8 cycles old. -/
def visibleWrite (t now : Nat) : List SWrite → Option Word
  | [] => none
  | w :: ws => if w.by_ = t ∨ w.at_ + 8 ≤ now then some w.val else visibleWrite t now ws

/-- Drop the writes that every reader sees overridden. -/
def pruneWrites (now : Nat) : List SWrite → List SWrite
  | [] => []
  | w :: ws => if w.at_ + 8 ≤ now then [w] else w :: pruneWrites now ws

/-- A shared register as strand `t` reads it in cycle `now`. -/
def Core.sharedRead (k : Core) (r t now : Nat) : Word :=
  (visibleWrite t now (getK [] k.shared r)).getD (sharedReset r)

/-- The last value written to a shared register, which the hardware acts on. -/
def Core.sharedLast (k : Core) (r : Nat) : Word :=
  match getK [] k.shared r with
  | [] => sharedReset r
  | w :: _ => w.val

/-- A write by strand `t` that counts from cycle `now` (R99). -/
def Core.sharedWrite (k : Core) (r t now : Nat) (v : Word) : Core :=
  { k with shared := setK k.shared r (pruneWrites now (⟨v, now, t⟩ :: getK [] k.shared r)) }

/-- Put a write among those of a shared register, the latest first. -/
def insertWrite (w : SWrite) : List SWrite → List SWrite
  | [] => [w]
  | x :: xs => if w.at_ < x.at_ then x :: insertWrite w xs else w :: x :: xs

/-- A write by strand `t`, made now, that counts from an earlier cycle `c` (R99). -/
def Core.sharedWriteAt (k : Core) (r t c now : Nat) (v : Word) : Core :=
  { k with shared := setK k.shared r (pruneWrites now (insertWrite ⟨v, c, t⟩ (getK [] k.shared r))) }

/-- The L1 split in force (R185). -/
def Core.splitNow (k : Core) : Nat := bits (k.sharedLast 33) 1 0

/-- Automatic dispatch (R23). -/
def Core.auto (k : Core) : Bool := bit (k.sharedLast 32) 0

/-- DBGN (Table 6.5). -/
def Core.dbgn (k : Core) : Bool := bit (k.sharedLast 32) 1

/-! Predicates, nest indices, pointers. -/

/-- A predicate; q0 reads 1 (R97). -/
def Strand.pred (x : Strand) (n : Nat) : Bool := n == 0 || x.preds.getLsbD n

/-- Write a predicate; a write to q0 is discarded (R97). -/
def Strand.setPred (x : Strand) (n : Nat) (b : Bool) : Strand :=
  if n = 0 then x
  else { x with preds := BitVec.ofNat 8 (x.preds.toNat - x.preds.toNat / 2 ^ n % 2 * 2 ^ n + b.toNat * 2 ^ n) }

def Strand.ptr (x : Strand) (n : Nat) : Word := getK 0 x.ptrs n

def Strand.setPtr (x : Strand) (n : Nat) (v : Word) : Strand := { x with ptrs := setK x.ptrs n v }

def Strand.kreg (x : Strand) (n : Nat) : BitVec 32 := getK 0 x.kidx n

def Strand.setK (x : Strand) (n : Nat) (v : BitVec 32) : Strand := { x with kidx := Machine.setK x.kidx n v }

/-! Counters of Table 7.6, by offset / 8. -/

def Core.perfAdd (k : Core) (i n : Nat) : Core :=
  { k with perf := setK k.perf i (getK 0 k.perf i + wd n) }

/-- Counter `i` as read in cycle `now`: EMPTY (1) counts the cycles with no issue, from reset on. -/
def Core.perfRead (k : Core) (i now : Nat) : Word :=
  if i = 1 then wd now - getK 0 k.perf 1 else getK 0 k.perf i

/-- Clear counter `i` in cycle `now`. -/
def Core.perfClear (k : Core) (i now : Nat) : Core :=
  { k with perf := setK k.perf i (if i = 1 then wd now else 0) }

/-- The core issues in cycle `now`, which EMPTY then does not count. -/
def Core.noteIssue (k : Core) (now : Nat) : Core :=
  if k.busyAt = some now then k else { k.perfAdd 1 1 with busyAt := some now }

def perfAdd (s : State) (c i n : Nat) : State := modCore s c (fun k => k.perfAdd i n)

/-- An instruction of core `c` issues (Table 7.6). -/
def noteIssued (s : State) (c : Nat) : State := modCore s c (fun k => (k.noteIssue s.now).perfAdd 0 1)

/-! Tasks and gangs. -/

/-- The record whose task a strand runs: cr.task names it and its sequence number, it is resident and the core is a member
(R96, R354, log 12). Strand 0 runs no task. -/
def taskOf (s : State) (c t : Nat) : Option Nat :=
  if t = 0 then none
  else
    let w := (getStrand s c t).get 9
    let r := bits w 43 32
    let k := getTask s r
    if k.st = .running ∧ k.seq = bits w 31 0 ∧ k.members.contains c then some r else none

/-- The gang of a strand: its task's cores, or its own core (R96). -/
def gangOf (s : State) (c t : Nat) : List Nat :=
  match taskOf s c t with
  | some r => (getTask s r).members
  | none => [c]

/-- Who stands as OWNER for a strand (R161). -/
def ownerOf (s : State) (c t : Nat) : Owner :=
  match taskOf s c t with
  | some r => .task r
  | none => .core c

/-! Traps. -/

/-- Messages leave in the order of their cycles, within a cycle by strand (R130). -/
def insertMsg (m : TrapMsg) : List TrapMsg → List TrapMsg
  | [] => [m]
  | x :: xs =>
    if m.cycle < x.cycle ∨ (m.cycle = x.cycle ∧ m.strand < x.strand) then m :: x :: xs else x :: insertMsg m xs

/-- The low 48 bits. -/
def low48 (w : Word) : Word := wd (w.toNat % 2 ^ 48)

/-- cr.cause (Table 6.4). -/
def causeWord (cause : Byte) (info : Word) : Word := wd (info.toNat % 2 ^ 48 * 65536 + cause.toNat)

/-- Record a trap in cr.cause, cr.epc and cr.einst (R130). -/
def Strand.record (x : Strand) (cause : Byte) (info epc : Word) (word : IWord) : Strand :=
  ((x.set 1 (causeWord cause info)).set 2 (low48 epc)).set 3 (wd word.toNat)

/-- The queue without the message of strand `t`: it holds at most one per strand (R130, log 54). -/
def withoutMsg (t : Nat) (q : List TrapMsg) : List TrapMsg := q.filter (fun m => m.strand != t)

/-- Put a message into a core's trap queue. -/
def Core.message (k : Core) (m : TrapMsg) : Core := { k with trapQ := insertMsg m (withoutMsg m.strand k.trapQ) }

/-- Reply ids: what the outside is told. -/
def replyHalt : Nat := 1

/-- Strand 0 enters handler mode (R134): cr.epc, HND, Ready at cr.tvec. -/
def enterHandler (s : State) (c : Nat) (epc : Word) : State :=
  let vec := (getCore s c).sharedLast 34
  modStrand s c 0 (fun x => { ((x.set 2 (low48 epc)).setFlag 6 true) with st := .ready, pc := vec, wait := none, readyFrom := s.now + 1 })

/-- Take a trap (R130, R135): strand `t` of core `c` records cause, INFO, word and resume address; another strand
enters Trapped with a message, strand 0 enters handler mode with its message at the head, and strand 0 in handler mode is
halted by a double fault. A hold pending on strand 0 when its waiting instruction traps with HND 0 stays pending, and strand 0 is Held once
the first instruction of the handler has left (R144 does not say when; DESIGN CHOICE, log 72). -/
def takeTrap (s : State) (c t : Nat) (cause : Byte) (info : Word) (word : IWord) (addr epc : Word) : State :=
  let x := getStrand s c t
  let m : TrapMsg := ⟨s.now, t, cause, word, low48 addr⟩
  let s := if cause = 0x0C then perfAdd s c 7 1 else if cause = 0x1B then perfAdd s c 10 1 else s
  let s := modStrand s c t (fun x => { (x.record cause info epc word).setDbg 1 false with wait := none })
  let s := if cause = 0x16 then modStrand s c t (fun x => { x with tmrHit := false }) else s
  if t = 0 then
    if x.flag 6 then
      reply (modStrand s c 0 (fun x => { (x.setFlag 7 true) with st := .halted, dfault := true })) replyHalt [wd c]
    else
      enterHandler (modCore s c (fun k => { k with trapQ := m :: withoutMsg t k.trapQ })) c epc
  else
    modCore s c (fun k =>
      (k.message m).modStrand t (fun x =>
        { (if x.holdReq then x.setFlag 8 true else x) with st := .trapped, holdReq := false, holdPort := false }))

/-- A trap of the instruction in context `cx`, resumed at that instruction (Table 6.6). -/
def trapAt (s : State) (cx : Ctx) (cause : Byte) (info : Word) : State :=
  takeTrap s cx.core cx.strand cause info cx.word cx.addr cx.addr

/-- The address after an instruction (R120). -/
def nextPc (cx : Ctx) : Word := cx.addr + wd cx.len

/-- A strand becomes Held, its debug bits as given; under DBGN a message with the cause goes to strand 0 (R144). -/
def becomeHeld (s : State) (c t : Nat) (cause : Byte) (tell : Bool) : State :=
  let x := getStrand s c t
  let s := modStrand s c t (fun x => { x with st := .held, wait := none, holdReq := false, holdPort := false })
  if tell && (getCore s c).dbgn then
    modCore s c (fun k =>
      (k.message ⟨s.now, t, cause, 0, low48 x.pc⟩).modStrand t (fun x => x.record cause 0 x.pc 0))
  else s

/-- A strand rejoins the rotation from the next cycle on (R20, R44), unless a step ends (R145), a hold waits for it (R144) or its timer has expired
meanwhile (R138). -/
def rejoin (s : State) (c t : Nat) : State :=
  let x := getStrand s c t
  let wasWaiting := x.shown s.now == .waiting
  let s := modStrand s c t (fun x => { x with st := .ready, wait := none, readyFrom := s.now + 1 })
  if x.dbg 1 then
    becomeHeld (modStrand s c t (fun x => (x.record 0x15 0 x.pc 0).setDbg 1 false)) c t 0x15 true
  else if x.holdReq then becomeHeld s c t 0x18 x.holdPort
  else if wasWaiting && x.tmrHit && !(t == 0 && x.flag 6) then takeTrap s c t 0x16 0 0 x.pc x.pc
  else s

/-- The instruction in context `cx` completes and the strand goes on at `pc`. -/
def completeAt (s : State) (cx : Ctx) (pc : Word) : State :=
  rejoin (modStrand s cx.core cx.strand (fun x => { x with pc := pc })) cx.core cx.strand

/-- The instruction in context `cx` completes and the strand goes on at the next one (R120). -/
def complete (s : State) (cx : Ctx) : State := completeAt s cx (nextPc cx)

/-- The strand leaves the rotation (R44): Waiting for an instruction that has not completed, or Blocked. -/
def leave (s : State) (st : StrandState) (why : Why) (counted : Bool) (i : Instr) (cx : Ctx) (dst : Opnd) : State :=
  modStrand s cx.core cx.strand (fun x =>
    { x with st := st, wait := some { why, instr := i, cx, counted, since := s.now, dst } })

/-- The strand is Waiting until its instruction's own completion event. -/
def leaveFlight (s : State) (i : Instr) (cx : Ctx) : State := leave s .waiting .flight false i cx .none

/-- The strand's instruction completes later, at no cost of turns unless it takes 8 cycles (R19). -/
def leavePrompt (s : State) (i : Instr) (cx : Ctx) : State := leave s .waiting .prompt false i cx .none

/-- Whether a strand still waits for the instruction in context `cx`. -/
def stillWaits (s : State) (cx : Ctx) : Bool :=
  match (getStrand s cx.core cx.strand).wait with
  | some w => w.cx == cx
  | none => false

/-- cr.epc for a wait that is given up (R134): after `sleep` the next instruction, else the waiting one. -/
def abandonPc (x : Strand) : Word :=
  match x.wait with
  | some w => if w.why == .sleep then nextPc w.cx else w.cx.addr
  | none => x.pc

/-! Issue. -/

/-- Whether the guard performs the instruction (R54). -/
def performed (s : State) (x : Args) : Bool :=
  (getStrand s s.cur.core s.cur.strand).pred x.guard.toNat != x.sense

/-- Number of a g register an operand uses (R91). -/
def gNumber : Opnd → Option Nat
  | .g n => some n.toNat
  | .mem _ (.reg n) => some n.toNat
  | _ => none

/-- Whether an operand's g register lies in a window of `n` registers (R91). -/
def inWindow (n : Nat) (o : Opnd) : Bool :=
  match gNumber o with
  | some i => decide (i < n)
  | none => true

/-- Whether every g register of an instruction lies in the window. -/
def argsInWindow (s : State) (x : Args) : Bool :=
  let n := (getStrand s s.cur.core s.cur.strand).size
  inWindow n x.a && inWindow n x.b && inWindow n x.c

/-- The common order of an instruction: causes decided before the guard (R58), the guard (R54), the window check (R91),
then the instruction itself. -/
def issue (pre : Option Byte) (x : Args) (s : State) (body : State → State) : Out :=
  .next
    (match pre with
    | some cause => trapAt s s.cur cause 0
    | none =>
      if performed s x then
        if argsInWindow s x then body s else trapAt s s.cur 0x19 0
      else complete s s.cur)

/-- Cause 0x02 for a strand other than strand 0 (R22, R58). -/
def privileged (s : State) : Option Byte := if s.cur.strand = 0 then none else some 0x02

end Sys2Proof.Machine
end

