-- ==== Sys2Proof/Machine/Operands.lean ====
section
/-! DEFINITION. Operand forms: reading and writing a field in its class (R52), pointers and their advance (R93 to R96), regions
(R182, R183), watchpoints (R143), and elements through alias windows (R71 to R77, R187). -/

namespace Sys2Proof.Machine

/-- The value of an operand that is not a mailbox (R52). -/
def rd (s : State) (cx : Ctx) (o : Opnd) : Word :=
  let k := getCore s cx.core
  let x := k.strand cx.strand
  match o with
  | .g n => getK 0 k.rf (x.base + n.toNat)
  | .s n => k.sharedRead n.toNat cx.strand s.now
  | .p n => x.ptr n.toNat
  | .k n => (x.kreg n.toNat).setWidth 64
  | .q n => b2w (x.pred n.toNat)
  | _ => 0

/-- Write an operand that is not a mailbox (R52): k keeps bits [31:0], q keeps whether the value is nonzero, s follows R99. -/
def wr (s : State) (cx : Ctx) (o : Opnd) (v : Word) : State :=
  match o with
  | .g n =>
    modCore s cx.core (fun k => { k with rf := setK k.rf ((k.strand cx.strand).base + n.toNat) v })
  | .s n => modCore s cx.core (fun k => k.sharedWrite n.toNat cx.strand s.now v)
  | .p n => modStrand s cx.core cx.strand (fun x => x.setPtr n.toNat v)
  | .k n => modStrand s cx.core cx.strand (fun x => x.setK n.toNat (v.setWidth 32))
  | .q n => modStrand s cx.core cx.strand (fun x => x.setPred n.toNat (v != 0))
  | _ => s

/-- Write an operand by an instruction whose write of a shared register counts from cycle `c` (R99). -/
def wrAt (s : State) (cx : Ctx) (o : Opnd) (v : Word) (c : Nat) : State :=
  match o with
  | .s n => modCore s cx.core (fun k => k.sharedWriteAt n.toNat cx.strand c s.now v)
  | o => wr s cx o v

/-- Write the destination and complete. -/
def finish (s : State) (cx : Ctx) (dst : Opnd) (v : Word) : State :=
  complete (wr s cx dst v) cx

/-- Write the destination of an instruction that cost no turns, and complete: a write of a shared register counts from its issue
(R19, R99). -/
def finishIssued (s : State) (cx : Ctx) (dst : Opnd) (v : Word) : State :=
  complete (wrAt s cx dst v cx.at_) cx

/-! Pointers. -/

/-- The number of the core a local pointer names (Table 5.3). -/
def ptrCore (p : Word) : Nat := bits p 28 19

/-- OFF, SPAN, WIN, GLB. -/
def ptrOff (p : Word) : Nat := bits p 18 0
def ptrSpan (p : Word) : Nat := bits p 32 29
def ptrWin (p : Word) : Nat := bits p 35 33
def ptrGlb (p : Word) : Bool := bit p 36

/-- The 48-bit flat address of a global pointer (R93). -/
def ptrFlat (p : Word) : Nat := bits p 48 37 * 2 ^ 36 + bits p 35 0

/-- Advance (R94). -/
def advance (p : Word) (inc : Int) : Word :=
  if ptrGlb p then
    let a := wrapTo 48 ((ptrFlat p : Int) + inc)
    setBits (setBits p 48 37 (a / 2 ^ 36)) 35 0 (a % 2 ^ 36)
  else
    let b := min (ptrSpan p + 8) 19
    let pos : Int := (bits p (b - 1) 0 : Int) + inc
    let carry : Int := pos / ((2 ^ b : Nat) : Int)
    let c := wrapTo 8 (((bits p 26 19 : Nat) : Int) + carry)
    setBits (setBits p (b - 1) 0 (wrapTo b pos)) 26 19 c

/-- Advance by a register value taken as a signed integer. -/
def advanceW (p inc : Word) : Word := advance p (signed 64 inc.toNat)

/-- The increment of a memory operand (R34, R53): none, the access size, the immediate or a register. -/
def incOf (s : State) (cx : Ctx) (inc : Inc) (size : Nat) (imm : Word) : Word :=
  match inc with
  | .none => 0
  | .size => wd size
  | .imm => imm
  | .reg n => rd s cx (.g n)

/-- The pointer number of a memory or pointer operand. -/
def ptrNum : Opnd → BitVec 3
  | .mem p _ => p
  | .p n => n
  | _ => 0

/-- The pointer value of a memory or pointer operand. -/
def ptrVal (s : State) (cx : Ctx) (o : Opnd) : Word := (getStrand s cx.core cx.strand).ptr (ptrNum o).toNat

/-- The pointer advance that an operand's post-increment asks for at completion (R95). -/
def incList (s : State) (cx : Ctx) (o : Opnd) (size : Nat) (imm : Word) : List (BitVec 3 × Word) :=
  match o with
  | .mem p .none => [(p, 0)]
  | .mem p inc => [(p, incOf s cx inc size imm)]
  | _ => []

/-- Advance pointers one after another. -/
def advanceAll (x : Strand) : List (BitVec 3 × Word) → Strand
  | [] => x
  | (p, inc) :: t => advanceAll (x.setPtr p.toNat (advanceW (x.ptr p.toNat) inc)) t

/-- A strand with a pointer as it stood at the issue of the instruction that it waits for (R151, R191). -/
def Strand.ptrAtIssue (x : Strand) (p : Nat) : Strand :=
  match x.wait with
  | some w => x.setPtr p (getK (x.ptr p) w.was p)
  | none => x

/-- Apply post-increments in field order (R95): to the pointers as they stood at the issue (R191). -/
def applyIncs (s : State) (cx : Ctx) (l : List (BitVec 3 × Word)) : State :=
  if l.isEmpty then s else modStrand s cx.core cx.strand (fun x => advanceAll (l.foldl (fun x y => x.ptrAtIssue y.1.toNat) x) l)

/-- Complete an instruction: pointers advance, then the destination is written (R95), then the strand goes on. -/
def finishDone (s : State) (d : Done) : State :=
  let s := applyIncs s d.cx d.ptrs
  complete (match d.val with | some v => wr s d.cx d.dst v | none => s) d.cx

/-! Regions and pointer checks. -/

/-- Offsets below the L1 banks (R185). -/
def storeTop (split : Nat) : Nat := 0x60000 - split * 0x10000

/-- Whether an offset lies in a region given in the layout of cr.lsreg (R182). -/
def inRegion (lsreg : Word) (split off : Nat) : Bool :=
  decide (bits lsreg 10 0 * 256 ≤ off) && decide (off < min (bits lsreg 26 16) 1536 * 256) &&
  decide (off < storeTop split)

/-- The region that governs a strand's accesses on core `c` (R183). -/
def regionOn (s : State) (cx : Ctx) (c : Nat) : Word :=
  if c = cx.core then (getStrand s c cx.strand).get 12
  else
    match taskOf s cx.core cx.strand with
    | some r => getK 0 (getTask s r).regions c
    | none => 0

/-- A trap that a check finds: cause and INFO (R413). -/
abbrev Bad := Byte × Word

/-- core*2^19 + offset (R413, R143). -/
def lsAddr (c off : Nat) : Word := wd (c * 0x80000 + off)

/-- The pointer to an offset of core `c`'s store whose span is the whole store (Table 5.3). -/
def storePtr (c off : Nat) : Word := wd (11 * 2 ^ 29 + c * 0x80000 + off)

/-- Steps 1 and 2 of R96 for the pointer itself. -/
def checkPtr (s : State) (cx : Ctx) (p : Word) : Option Bad :=
  if ptrGlb p then some (0x05, wd (ptrFlat p))
  else if bits p 63 37 != 0 || decide (12 ≤ ptrSpan p) || ptrWin p == 7 then
    some (0x04, lsAddr (ptrCore p) (ptrOff p))
  else if !(gangOf s cx.core cx.strand).contains (ptrCore p) then
    some (0x05, lsAddr (ptrCore p) (ptrOff p))
  else none

/-- The checks of one byte of a walk (R96 steps 2 and 3). -/
def checkByte (s : State) (cx : Ctx) (p : Word) : Option Bad :=
  let c := ptrCore p
  let a := lsAddr c (ptrOff p)
  if !(gangOf s cx.core cx.strand).contains c then some (0x05, a)
  else if !inRegion (regionOn s cx c) (getCore s c).splitNow (ptrOff p) then some (0x04, a)
  else none

/-- The first failure over the bytes of a walk: `n` bytes from the pointer's position `i`. -/
def checkWalk (s : State) (cx : Ctx) (p : Word) (i : Nat) : Nat → Option Bad
  | 0 => none
  | n + 1 =>
    match checkByte s cx (advance p i) with
    | some b => some b
    | none => checkWalk s cx p (i + 1) n

/-- All checks of R96 and R183 over `n` bytes. -/
def checkAccess (s : State) (cx : Ctx) (p : Word) (n : Nat) : Option Bad :=
  match checkPtr s cx p with
  | some b => some b
  | none => checkWalk s cx p 0 n

/-- Alignment of the first byte (R186, R187). -/
def checkAlign (p : Word) (n : Nat) : Option Bad :=
  if ptrOff p % n = 0 then none else some (0x03, lsAddr (ptrCore p) (ptrOff p))

/-- The first of several checks that fails. -/
def firstBad : List (Option Bad) → Option Bad
  | [] => none
  | some b :: _ => some b
  | none :: t => firstBad t

/-- The offset checks of an area in the issuing core's store: alignment 0x03, then the region and the L1 banks 0x04
(R151, R174). -/
def checkArea (s : State) (cx : Ctx) (off : Word) (align n : Nat) : Option Bad :=
  if off.toNat % align != 0 then some (0x03, wd (cx.core * 0x80000) + off)
  else
    match (List.range n).find? (fun i =>
        !inRegion ((getStrand s cx.core cx.strand).get 12) (getCore s cx.core).splitNow (off.toNat + i)) with
    | some i => some (0x04, wd (cx.core * 0x80000) + off + wd i)
    | none => none

/-! Local-store bytes. -/

/-- One byte of a core's local store. -/
def lsRead (s : State) (c off : Nat) : Byte := (getCore s c).ls.read off

/-- `n` bytes of a core's local store. -/
def lsBytes (s : State) (c off n : Nat) : List Byte := (getCore s c).ls.readN off n

/-- Store bytes into a core's local store. -/
def lsWrite (s : State) (c off : Nat) (bs : List Byte) : State :=
  modCore s c (fun k => { k with ls := k.ls.writeN off bs })

/-- The bytes of a pointer walk. -/
def walkBytes (s : State) (p : Word) (i : Nat) : Nat → List Byte
  | 0 => []
  | n + 1 =>
    let q := advance p i
    lsRead s (ptrCore q) (ptrOff q) :: walkBytes s p (i + 1) n

/-- Write bytes along a pointer walk. -/
def walkWrite (s : State) (p : Word) (i : Nat) : List Byte → State
  | [] => s
  | b :: bs =>
    let q := advance p i
    walkWrite (lsWrite s (ptrCore q) (ptrOff q) [b]) p (i + 1) bs

/-! Watchpoints. -/

/-- Whether an enabled cr.wch matches an access of one byte (R143). -/
def wchMatch (w : Word) (load store global : Bool) (a : Nat) : Bool :=
  let kind := bits w 62 61
  let size := bits w 59 54
  bit w 63 && ((load && kind % 2 == 1) || (store && kind / 2 == 1)) && (bit w 60 == global) &&
  decide (size < 48) && bits w 47 0 / 2 ^ size == a / 2 ^ size

/-- Whether either watchpoint of a strand matches the byte; XB exempts the instruction. -/
def watched (s : State) (cx : Ctx) (load store global : Bool) (a : Nat) : Bool :=
  let x := getStrand s cx.core cx.strand
  !cx.xb && (wchMatch (x.get 17) load store global a || wchMatch (x.get 18) load store global a)

/-- The first of `n` bytes from address `a` of the local-store space that is watched. -/
def watchHit (s : State) (cx : Ctx) (load store : Bool) (a n : Nat) : Option Nat :=
  (List.range n).find? (fun i => watched s cx load store false (a + i))

/-- The first watched byte of a local walk. -/
def watchWalk (s : State) (cx : Ctx) (load store : Bool) (p : Word) (n : Nat) : Option Bad :=
  match (List.range n).find? (fun (i : Nat) =>
      let q := advance p (i : Int)
      watched s cx load store false (lsAddr (ptrCore q) (ptrOff q)).toNat) with
  | some i =>
    let q := advance p (i : Int)
    some (0x14, lsAddr (ptrCore q) (ptrOff q))
  | none => none

/-- The first watched byte of a global access. -/
def watchGlobal (s : State) (cx : Ctx) (load store : Bool) (va : Word) (n : Nat) : Option Bad :=
  match (List.range n).find? (fun i => watched s cx load store true (va.toNat + i)) with
  | some i => some (0x14, va + wd i)
  | none => none

/-- End an instruction with the trap a check found, or go on. -/
def orTrap (s : State) (cx : Ctx) (b : Option Bad) (k : State) : State :=
  match b with
  | some (cause, info) => trapAt s cx cause info
  | none => k

/-! CF8 blocks (R73 to R76). -/

/-- Bit `b` of a byte list (R73). -/
def streamBit (bs : List Byte) (b : Nat) : Bool := (nth 0 bs (b / 8)).toNat.testBit (b % 8)

/-- The `n` stream bits from `b`, most significant first. -/
def streamBits (bs : List Byte) (b : Nat) : Nat → Nat
  | 0 => 0
  | n + 1 => (streamBit bs b).toNat * 2 ^ n + streamBits bs (b + 1) n

/-- One coded element at stream bit `b` (Table 4.4): its E4 byte, or none for a negative exponent, and the next bit. -/
def cf8Token (bs : List Byte) (emax b : Nat) : Option Nat × Nat :=
  let elem := fun (e : Option Nat) (b : Nat) =>
    (e.map (fun e => (streamBits bs b 1) * 128 + e % 16 * 8 + streamBits bs (b + 1) 3), b + 4)
  if streamBits bs b 1 = 0 then elem (some emax) (b + 1)
  else if streamBits bs b 2 = 2 then elem (if 1 ≤ emax then some (emax - 1) else none) (b + 2)
  else if streamBits bs b 3 = 6 then (some 0, b + 3)
  else if streamBits bs b 4 = 14 then elem (if 2 ≤ emax then some (emax - 2) else none) (b + 4)
  else elem (some (streamBits bs (b + 4) 4)) (b + 8)

/-- The coded elements of a block of `n` sectors. -/
def cf8Elems (bs : List Byte) (emax n : Nat) (b : Nat) : Nat → Option (List Byte)
  | 0 => some []
  | k + 1 =>
    match cf8Token bs emax b with
    | (some v, b') =>
      if 128 * n < b' then none
      else (cf8Elems bs emax n b' k).map (fun t => BitVec.ofNat 8 v :: t)
    | (none, _) => none

/-- Sectors of a block by its header (R73). -/
def cf8Sectors (h : Byte) : Nat := h.toNat / 2 % 8

/-- DecodeCF8 (R75): 64 E4 bytes, or none when the block is not well formed. -/
def decodeCF8 (bs : List Byte) : Option (List Byte) :=
  let h := nth 0 bs 0
  let n := cf8Sectors h
  if h.toNat % 2 = 1 then
    if n = 5 then some ((List.range 64).map (fun i => nth 0 bs (1 + i))) else none
  else if n = 0 ∨ 5 ≤ n then none
  else cf8Elems bs (h.toNat / 16) n 8 64

/-- The stream bits of one element (R76). -/
def cf8Put (emax : Nat) (v : Byte) : List Bool :=
  if v = 0 then [true, true, false]
  else
    let e := v.toNat / 8 % 16
    let t := fun i => v.toNat.testBit i
    (match emax - e with
    | 0 => [false]
    | 1 => [true, false]
    | 2 => [true, true, true, false]
    | _ => [true, true, true, true, t 6, t 5, t 4, t 3]) ++ [t 7, t 2, t 1, t 0]

/-- Pack stream bits into bytes, padding with 0. -/
def packBits : Nat → List Bool → List Byte
  | 0, _ => []
  | n + 1, l =>
    BitVec.ofNat 8 ((List.range 8).foldl (fun a i => a + (l.getD i false).toNat * 2 ^ i) 0) :: packBits n (l.drop 8)

/-- EncodeCF8 (R76). -/
def encodeCF8 (v : List Byte) : List Byte :=
  let emax := v.foldl (fun m b => max m (b.toNat / 8 % 16)) 0
  let stream := v.flatMap (cf8Put emax)
  let len := stream.length + 8
  if len ≤ 512 then
    let n := cdiv len 128
    BitVec.ofNat 8 (emax * 16 + n * 2) :: packBits (16 * n - 1) stream
  else BitVec.ofNat 8 (emax * 16 + 11) :: (v ++ List.replicate 15 0)

/-! Elements through windows (Table 4.3). -/

/-- Bytes of an element (Table 8.4); a window-3 block counts separately. -/
def elemSize (win : Nat) : Nat :=
  match win with
  | 0 => 4
  | 5 => 2
  | 6 => 2
  | _ => 1

/-- Alignment of an operand (Table 8.4). -/
def elemAlign (win : Nat) : Nat := if win = 3 then 16 else elemSize win

/-- Decode one element (Table 4.3). -/
def winDecode (win n : Nat) : FV :=
  match win with
  | 0 => fp32.decode n
  | 1 => fe4.decode n
  | 2 => fe5.decode n
  | 3 => fe4.decode n
  | 4 => FV.ofInt (signed 8 n)
  | 5 => bf16.decode n
  | _ => fp16.decode n

/-- Encode one element (Table 4.3, R68): by the window's default or saturating. -/
def winEncode (win : Nat) (r : Rnd) (sat : Bool) (v : FV) : Nat :=
  match win with
  | 0 => fp32.encode r sat false v
  | 1 => fe4.encode r true true v
  | 2 => fe5.encode r true true v
  | 3 => fe4.encode r true true v
  | 4 => v.toIntFmt 8 false true r
  | 5 => bf16.encode r sat false v
  | _ => fp16.encode r sat false v

/-- Set the sticky CF8 flag of cr.stat (R75). -/
def setCF8E (s : State) (cx : Ctx) : State := modStrand s cx.core cx.strand (fun x => x.setFlag 10 true)

end Sys2Proof.Machine
end

