-- ==== Sys2Proof/Machine/Counters.lean ====
section
/-! DEFINITION. Barriers, nest fetchers and the stamp clock (R156 to R176). -/

namespace Sys2Proof.Machine

def getBarrier (s : State) (l n : Nat) : Barrier := getK {} (getLoom s l).barriers n

def modBarrier (s : State) (l n : Nat) (f : Barrier → Barrier) : State :=
  modLoom s l (fun k => { k with barriers := setK k.barriers n (f (getK {} k.barriers n)) })

def getFetcher (s : State) (l n : Nat) : Fetcher := getK {} (getLoom s l).fetchers n

def modFetcher (s : State) (l n : Nat) (f : Fetcher → Fetcher) : State :=
  modLoom s l (fun k => { k with fetchers := setK k.fetchers n (f (getK {} k.fetchers n)) })

/-- The lead counter of a column (R161). -/
def Barrier.lead (b : Barrier) (col : Nat) : Nat := getK 0 b.leads col

/-- The member columns. -/
def maskCols (m : BitVec 16) : List Nat := (List.range 16).filter (fun i => m.getLsbD i)

/-- Whether a unit with an owner and a mask serves a strand (R172, R175). -/
def unitServes (s : State) (cx : Ctx) (o : Owner) (mask : BitVec 16) : Bool :=
  o == ownerOf s cx.core cx.strand && mask.getLsbD (colOf cx.core)

/-- The status that binding a unit gives (R171, R174): `busy` when a lead or a chunk is not 0. -/
def bindStatus (s : State) (cx : Ctx) (owner : Owner) (mask : BitVec 16) (busy : Bool) : Nat :=
  let t := ownerOf s cx.core cx.strand
  let g := gangOf s cx.core cx.strand
  let cols := (maskCols mask).map (fun i => loomOf cx.core * 16 + i)
  if owner != .none && owner != t then 1
  else if mask = 0 then (if busy then 3 else 0)
  else if !(cols.all (fun c => g.contains c)) || !mask.getLsbD (colOf cx.core) then 2
  else if owner == t && busy then 3
  else 0

/-- `bari` (R171): takes effect four cycles on. -/
def execBari (x : Args) (s : State) : Out :=
  issue none x s (fun s =>
    let cx := s.cur
    match x.a with
    | .num n =>
      sched (leavePrompt s (.bari x) cx) (s.now + 4)
        (.barrierBindEffect cx n.toNat (BitVec.ofNat 16 (rd s cx x.b).toNat) x.b)
    | _ => complete s cx)

/-- BARRIER_BIND_EFFECT (R171): nothing happens when the strand is gone by then (log 58). -/
def execBarrierBindEffect (cx : Ctx) (n : Nat) (mask : BitVec 16) (dst : Opnd) (s : State) : Out :=
  .next
    (if !stillWaits s cx then s
     else
       let l := loomOf cx.core
       let b := getBarrier s l n
       let st := bindStatus s cx b.owner mask (b.leads.any (fun x => x.2 != 0))
       let s :=
         if st != 0 then s
         else if mask = 0 then modBarrier s l n (fun _ => {})
         else modBarrier s l n (fun _ => { owner := ownerOf s cx.core cx.strand, by_ := cx.strand, mask := mask })
       finishIssued s cx dst (wd st))

/-- `bara` (R172). -/
def execBara (x : Args) (s : State) : Out :=
  issue none x s (fun s =>
    let cx := s.cur
    match x.a with
    | .num n =>
      let b := getBarrier s (loomOf cx.core) n.toNat
      if unitServes s cx b.owner b.mask then
        sched (leaveFlight s (.bara x) cx) (s.now + 4) (.barrierArriveEffect cx n.toNat)
      else trapAt s cx 0x05 0
    | _ => complete s cx)

/-- `barw` (R172). -/
def execBarw (x : Args) (s : State) : Out :=
  issue none x s (fun s =>
    let cx := s.cur
    match x.a with
    | .num n =>
      let b := getBarrier s (loomOf cx.core) n.toNat
      if !unitServes s cx b.owner b.mask then trapAt s cx 0x05 0
      else if b.lead (colOf cx.core) = 0 then complete s cx
      else leave s .blocked (.barw n.toNat) true (.barw x) cx .none
    | _ => complete s cx)

/-- Whether every member has arrived (R162). -/
def Barrier.canComplete (b : Barrier) : Bool := b.mask != 0 && (maskCols b.mask).all (fun i => decide (1 ≤ b.lead i))

/-- Complete one phase (R162). -/
def Barrier.completePhase (b : Barrier) : Barrier :=
  { b with phase := b.phase + 1, leads := (maskCols b.mask).foldl (fun l i => setK l i (getK 0 l i - 1)) b.leads }

/-- Add an arrive of a column. -/
def Barrier.arrive (b : Barrier) (col : Nat) : Barrier := { b with leads := setK b.leads col (b.lead col + 1) }

/-- Apply held arrives, oldest first, to cores whose lead is below 3 (R162 step 2): the barrier and those applied. -/
def applyHeld : List Ctx → Barrier → Barrier × List Ctx
  | [], b => ({ b with held := [] }, [])
  | cx :: t, b =>
    let col := colOf cx.core
    if b.lead col < 3 then
      let (b', done) := applyHeld t (b.arrive col)
      (b', cx :: done)
    else
      let (b', done) := applyHeld t b
      ({ b' with held := cx :: b'.held }, done)

/-- Step 2 of R162: phases complete while they can. -/
def phases : Nat → Barrier → Barrier × List Ctx
  | 0, b => (b, [])
  | fuel + 1, b =>
    if b.canComplete then
      let (b1, d1) := applyHeld b.held b.completePhase
      let (b2, d2) := phases fuel b1
      (b2, d1 ++ d2)
    else (b, [])

/-- The strands of a loom Blocked in `barw n` whose core's lead is 0. -/
def barwReady (s : State) (l n : Nat) : List Ctx :=
  let b := getBarrier s l n
  (List.range 16).flatMap (fun col =>
    if b.lead col = 0 then
      (List.range 16).filterMap (fun t =>
        let x := getStrand s (l * 16 + col) t
        match x.wait with
        | some w => if x.st = .blocked ∧ w.why = .barw n then some w.cx else none
        | none => none)
    else [])

/-- Steps 2 and 3 of R162 at a barrier. -/
def settleBarrier (s : State) (l n : Nat) : State :=
  let (b, done) := phases 1024 (getBarrier s l n)
  let s := modBarrier s l n (fun _ => b)
  let s := done.foldl complete s
  (barwReady s l n).foldl complete s

/-- Whether another arrive at the barrier is due in this cycle. -/
def arriveDue (s : State) (l n : Nat) : Bool :=
  s.pend.any (fun (due, e) =>
    match e with
    | .barrierArriveEffect cx m => decide (due ≤ s.now) && m == n && loomOf cx.core == l
    | _ => false)

/-- Whether an `mst` has still bytes to write. -/
def MEnt.writing (e : MEnt) : Bool := e.kind == .mst && (!e.started || decide (e.moved < e.size))

/-- Whether a sequence has still to reissue a captured chain that satisfies `p`: what is left of the pass under way, or a later pass. -/
def RepBuf.left (p : Instr → Bool) (r : RepBuf) : Bool :=
  !r.stopped && ((decide (r.pass < r.count) && (r.chains.drop r.idx).any (fun h => p h.instr)) ||
    (decide (r.pass + 1 < r.count) && r.chains.any (fun h => p h.instr)))

/-- Whether a captured chain writes a local store. -/
def chainStores : Instr → Bool
  | .mst _ => true
  | _ => false

/-- Whether an earlier store of the strand is still to be performed: only those of its sequence's `mst` entries can be, those of the passes to
come among them, since a strand waits for every other store to a local store (R163). -/
def storesLeft (s : State) (cx : Ctx) : Bool :=
  let k := getCore s cx.core
  k.rep.any (fun r => r.cx.strand == cx.strand && decide (r.cx.at_ < cx.at_) &&
    (r.left chainStores || k.mq.any (fun e => !e.direct && e.writing)))

/-- BARRIER_ARRIVE_EFFECT (R162, R163, R172): the arrive waits for the strand's earlier stores, then it is counted, held or refused;
after the last arrive of the cycle the phases complete. -/
def execBarrierArriveEffect (cx : Ctx) (n : Nat) (s : State) : Out :=
  .next
    (let l := loomOf cx.core
     let col := colOf cx.core
     let b := getBarrier s l n
     let s :=
       if !stillWaits s cx then s
       else if storesLeft s cx then sched s (s.now + 1) (.barrierArriveEffect cx n)
       else if !unitServes s cx b.owner b.mask then trapAt s cx 0x05 0
       else if b.lead col < 3 then complete (modBarrier s l n (fun b => b.arrive col)) cx
       else
         modStrand (modBarrier s l n (fun b => { b with held := b.held ++ [cx] })) cx.core cx.strand (fun x =>
           { x with
             st := .blocked
             wait := x.wait.map (fun w => { w with why := .bara n, counted := true, count := 0 }) })
     if arriveDue s l n then s else settleBarrier s l n)

/-- `barq` (R173). -/
def execBarq (x : Args) (s : State) : Out :=
  issue none x s (fun s =>
    let cx := s.cur
    match x.b with
    | .num n =>
      let b := getBarrier s (loomOf cx.core) n.toNat
      let zeroCols := (maskCols b.mask).foldl (fun a i => if b.lead i = 0 then a + 2 ^ i else a) 0
      finish s cx x.a
        (if b.owner == ownerOf s cx.core cx.strand then
          wd (b.phase.toNat * 2 ^ 48 + b.mask.toNat * 2 ^ 32 + zeroCols * 2 ^ 16 + 4 + b.lead (colOf cx.core))
        else 0)
    | _ => complete s cx)

/-- The total of a nest (Table 7.4). -/
def nestTotal (d : NestDesc) : Nat := d.e0 * d.e1 * d.e2 * d.e3

/-- Read a nest descriptor (Table 7.4); MINCHUNK 0 is taken as 1. -/
def readNest (s : State) (c off : Nat) : NestDesc :=
  let w := fun i => ofBytes (lsBytes s c (off + 4 * i) 4)
  ⟨w 0, w 1, w 2, w 3, max 1 (w 4), BitVec.ofNat 16 (ofBytes (lsBytes s c (off + 20) 2))⟩

/-- `nesti` (R174): the descriptor is read at issue and takes effect four cycles on. -/
def execNesti (x : Args) (s : State) : Out :=
  issue none x s (fun s =>
    let cx := s.cur
    let off := rd s cx x.b
    match x.a with
    | .num n =>
      orTrap s cx (checkArea s cx off 32 32)
        (sched (leavePrompt s (.nesti x) cx) (s.now + 4)
          (.nestLoadEffect cx n.toNat (readNest s cx.core off.toNat) x.b))
    | _ => complete s cx)

/-- NEST_LOAD_EFFECT (R174, R167): claims on their way stay so, and status 4 stands last (log 59). -/
def execNestLoadEffect (cx : Ctx) (n : Nat) (d : NestDesc) (dst : Opnd) (s : State) : Out :=
  .next
    (if !stillWaits s cx then s
     else
       let l := loomOf cx.core
       let f := getFetcher s l n
       let st := bindStatus s cx f.owner d.mask (f.chunks.any (fun x => x.2.cr != 0))
       let t := nestTotal d
       let st := if st = 0 ∧ d.mask ≠ 0 ∧ 2 ^ 32 ≤ t then 4 else st
       let none_ := f.chunks.map (fun (col, k) => (col, { k with ci := 0, cr := 0 }))
       let s :=
         if st != 0 then s
         else if d.mask = 0 then modFetcher s l n (fun _ => { chunks := none_ })
         else
           modFetcher s l n (fun _ =>
             { owner := ownerOf s cx.core cx.strand, by_ := cx.strand, desc := d, next := 0, rem := t, chunks := none_ })
       finishIssued s cx dst (wd st))

/-- The chunk of a column. -/
def Fetcher.chunk (f : Fetcher) (col : Nat) : Chunk := getK {} f.chunks col

/-- Change the chunk of a column. -/
def Fetcher.modChunk (f : Fetcher) (col : Nat) (g : Chunk → Chunk) : Fetcher :=
  { f with chunks := setK f.chunks col (g (f.chunk col)) }

/-- Claim a chunk for a column (R167). -/
def claimChunk (f : Fetcher) (col : Nat) : Fetcher :=
  let m := (maskCols f.desc.mask).length
  let size := min f.rem (max f.desc.minChunk (cdiv f.rem (2 * m)))
  { f.modChunk col (fun k => { k with ci := f.next, cr := size }) with next := f.next + size, rem := f.rem - size }

/-- Take the next iteration of a column's chunk. -/
def takeIter (f : Fetcher) (col : Nat) : Fetcher × Nat :=
  (f.modChunk col (fun k => { k with ci := k.ci + 1, cr := k.cr - 1 }), (f.chunk col).ci)

/-- The indices of an iteration in k0-k3 (R168). -/
def setIndices (x : Strand) (d : NestDesc) (i : Nat) : Strand :=
  let b := fun n => BitVec.ofNat 32 n
  (((x.setK 0 (b (i % d.e0))).setK 1 (b (i / d.e0 % d.e1))).setK 2 (b (i / (d.e0 * d.e1) % d.e2))).setK 3
    (b (i / (d.e0 * d.e1 * d.e2)))

/-- The strand of a context draws the next iteration of its core's chunk (R168, R175). -/
def drawIter (s : State) (cx : Ctx) (n : Nat) (dst : Opnd) : State :=
  let f := getFetcher s (loomOf cx.core) n
  let (f', i) := takeIter f (colOf cx.core)
  let s := modFetcher s (loomOf cx.core) n (fun _ => f')
  finish (modStrand s cx.core cx.strand (fun y => setIndices y f.desc i)) cx dst 1

/-- Core `c` sends a claim (R175). -/
def sendClaim (s : State) (c n : Nat) : State :=
  modFetcher s (loomOf c) n (fun f => f.modChunk (colOf c) (fun k => { k with claim := some s.now, reached := false }))

/-- `nestn` (R175): a strand that must wait for a claim draws when it has returned. -/
def execNestn (x : Args) (s : State) : Out :=
  issue none x s (fun s =>
    let cx := s.cur
    match x.b with
    | .num n =>
      let n := n.toNat
      let f := getFetcher s (loomOf cx.core) n
      let k := f.chunk (colOf cx.core)
      if !unitServes s cx f.owner f.desc.mask then trapAt s cx 0x05 0
      else if k.claim.isSome then leave s .waiting (.nest n) false (.nestn x) cx x.a
      else if 0 < k.cr then drawIter s cx n x.a
      else if 0 < f.rem then sendClaim (leave s .waiting (.nest n) false (.nestn x) cx x.a) cx.core n
      else finish s cx x.a 0
    | _ => complete s cx)

/-- The `nestn` of core `c` that issued first among those that wait at fetcher `n`. -/
def firstNest (s : State) (c n : Nat) : Option Wait :=
  (List.range 16).foldl (fun (best : Option Wait) t =>
    match (getStrand s c t).wait with
    | some w => if w.why = .nest n ∧ best.all (fun b => decide (w.cx.at_ < b.cx.at_)) = true then some w else best
    | none => best) none

/-- The waiting strands of core `c` draw in the order in which they issued (R175); the first that finds the chunk spent makes the next
claim, and one that the fetcher no longer serves raises cause 0x05 (log 59). -/
def serveNest (c n : Nat) : Nat → State → State
  | 0, s => s
  | fuel + 1, s =>
    match firstNest s c n with
    | none => s
    | some w =>
      let f := getFetcher s (loomOf c) n
      if !unitServes s w.cx f.owner f.desc.mask then serveNest c n fuel (trapAt s w.cx 0x05 0)
      else if 0 < (f.chunk (colOf c)).cr then serveNest c n fuel (drawIter s w.cx n w.dst)
      else if 0 < f.rem then sendClaim s c n
      else serveNest c n fuel (finish s w.cx w.dst 0)

/-- A claim reaches its fetcher (R167), which may by then serve its core no more. -/
def claimArrives (s : State) (c n : Nat) : State :=
  modFetcher s (loomOf c) n (fun f =>
    (if f.desc.mask.getLsbD (colOf c) then claimChunk f (colOf c) else f).modChunk (colOf c) (fun k => { k with reached := true }))

/-- A claim returns to its core (R175). -/
def claimReturns (s : State) (c n : Nat) : State :=
  serveNest c n 16 (modFetcher s (loomOf c) n (fun f => f.modChunk (colOf c) (fun k => { k with claim := none })))

/-- A claim that is due at the end of this cycle: core and fetcher, those that reach a fetcher in rising order of columns, then those
that return. -/
def claimDue (s : State) (back : Bool) : Option (Nat × Nat) :=
  s.looms.findSome? (fun (l, (k : Loom)) => k.fetchers.findSome? (fun (n, (f : Fetcher)) =>
    (f.chunks.find? (fun (_, (h : Chunk)) =>
      h.reached == back && h.claim.any (fun c => decide (c + (if back then 6 else 4) ≤ s.now)))).map (fun x => (l * 16 + x.1, n))))

/-- What claims do at the end of a cycle. -/
def nestEvent (s : State) : Option Out :=
  ((claimDue s false).map (fun x => .next (claimArrives s x.1 x.2))) <|>
  ((claimDue s true).map (fun x => .next (claimReturns s x.1 x.2)))

/-- `nestq` (R173). -/
def execNestq (x : Args) (s : State) : Out :=
  issue none x s (fun s =>
    let cx := s.cur
    match x.b with
    | .num n =>
      let f := getFetcher s (loomOf cx.core) n.toNat
      let cr := if f.desc.mask.getLsbD (colOf cx.core) then (f.chunk (colOf cx.core)).cr else 0
      finish s cx x.a
        (if f.owner == ownerOf s cx.core cx.strand then wd (cr * 2 ^ 32 + f.rem) else wd (2 ^ 64 - 1))
    | _ => complete s cx)

/-- The last value of the stamp clock (R158). -/
def stampEnd : Nat := 2 ^ 48 - 1

/-- `stamp` (R176): the value returns within 40 cycles. -/
def execStamp (x : Args) (s : State) : Out :=
  issue none x s (fun s =>
    sched (leaveFlight s (.stamp x) s.cur) (s.now + pickN s 3 1 40) (.stampReturn s.cur x.a))

/-- STAMP_RETURN (R158): the clock returns its value and steps, or stands still with bit 63 set. The request reaches the clock in the cycle of the
return (R176 gives only the bound of the return; DESIGN CHOICE, log 71). -/
def execStampReturn (cx : Ctx) (dst : Opnd) (s : State) : Out :=
  .next
    (let v := s.stampClock
     let w := if v < stampEnd then wd v else wd (2 ^ 63 + stampEnd)
     let s := { s with stampClock := if v < stampEnd then v + 1 else v }
     if stillWaits s cx then finish s cx dst w else s)

/-! Freeing the units of an owner (R165, R169). -/

/-- Cause 0x05 for the strands of a loom that wait at a unit that has been freed (R165, R169). -/
def dropWaiters (s : State) (l : Nat) (at_ : Why → Bool) : State :=
  (List.range 16).foldl (fun s col =>
    (List.range 16).foldl (fun s t =>
      match (getStrand s (l * 16 + col) t).wait with
      | some w => if at_ w.why then trapAt s w.cx 0x05 0 else s
      | none => s) s) s

/-- Free a barrier: held arrives are discarded and its state cleared. -/
def freeBarrier (s : State) (l n : Nat) : State :=
  dropWaiters (modBarrier s l n (fun _ => {})) l (fun w => w == .barw n || w == .bara n)

/-- Free a fetcher (R169): its chunks are discarded. -/
def freeFetcher (s : State) (l n : Nat) : State :=
  dropWaiters (modFetcher s l n (fun _ => {})) l (fun w => w == .nest n)

/-- Free the barriers and fetchers of loom `l` that satisfy a condition on owner and binding strand. -/
def freeUnits (s : State) (l : Nat) (p : Owner → Nat → Bool) : State :=
  let s := (List.range 8).foldl (fun s n =>
    let b := getBarrier s l n
    if p b.owner b.by_ then freeBarrier s l n else s) s
  (List.range 4).foldl (fun s n =>
    let f := getFetcher s l n
    if p f.owner f.by_ then freeFetcher s l n else s) s

end Sys2Proof.Machine
end

