-- ==== Sys2Proof/Machine/Translate.lean ====
section
/-! DEFINITION. Physical memory, the translation table and its buffers (R233 to R238), and the fetch of a chain (R59, R60). -/

namespace Sys2Proof.Machine

/-- One past the HBM (Table 10.3). -/
def hbmTop : Nat := 0x6000000000

/-- Start and size of the counter aperture (Table 10.3, R170). -/
def apertureBase : Nat := 0xF000000000
def apertureSize : Nat := 0x40000

/-- Whether a physical byte lies in the HBM, and in the counter aperture. -/
def inHbm (pa : Nat) : Bool := decide (pa < hbmTop)
def inAperture (pa : Nat) : Bool := decide (apertureBase ≤ pa) && decide (pa < apertureBase + apertureSize)

/-- Whether a physical byte lies in the record pool (R344). -/
def inPool (s : State) (pa : Nat) : Bool :=
  match s.mgmt.poolBase with
  | some b => decide (b ≤ pa) && decide (pa < b + 0x100000)
  | none => false

/-- `n` bytes of physical memory. -/
def memRead (s : State) (pa n : Nat) : List Byte := s.mem.readN pa n

/-- A counter of the aperture (R170): `n` bytes at an offset. -/
def counterBytes (s : State) (off n : Nat) : List Byte :=
  (List.range n).map (fun i =>
    let o := off + i
    let w : Word := if o % 256 / 8 < 13 then (getCore s (o / 256)).perfRead (o % 256 / 8) s.now else 0
    BitVec.ofNat 8 (w.toNat / 256 ^ (o % 8)))

/-- A word of text at a physical address of Table 10.3. -/
def textWord (s : State) (pa : Nat) : IWord :=
  BitVec.ofNat 16 (ofBytes (if inAperture pa then counterBytes s (pa - apertureBase) 2 else memRead s pa 2))

/-- The lines that `n` bytes from `pa` touch. -/
def linesOf (pa n : Nat) : List Nat := (List.range ((pa + n - 1) / 256 - pa / 256 + 1)).map (fun i => pa / 256 + i)

/-- Store bytes in physical memory; a changed line leaves every instruction cache first (R60). -/
def memWrite (s : State) (pa : Nat) (bs : List Byte) : State :=
  let ls := linesOf pa bs.length
  { s with
    mem := s.mem.writeN pa bs
    cores := s.cores.map (fun (c, k) => (c, { k with icache := k.icache.filter (fun l => !ls.contains l) })) }

/-- Fields of a translation-table entry (Table 10.2). -/
def entKind (e : Word) : Nat := bits e 1 0
def entAddr (e : Word) : Nat := bits e 51 8 * 256
def entAttr (e : Word) : Nat := bits e 7 6
def entW (e : Word) : Bool := bit e 5
def entX (e : Word) : Bool := bit e 4
def entNode (e : Word) : Nat := bits e 59 52

/-- An 8-byte entry read whole. One at a physical address outside the HBM, in the counter aperture too, reads as 0 and so fails its walk (R233
does not say; DESIGN CHOICE, log 72). -/
def entryAt (s : State) (pa : Nat) : Word := wd (s.mem.num pa 8)

/-- The leaf that an entry gives when its page is aligned (R233). -/
def leafOf (e : Word) (va size : Nat) : Option TLeaf :=
  if entAddr e % size = 0 then some { base := va / size * size, size, entry := e } else none

/-- The places of the entries that a walk reads, level by level. -/
def walkEntries (s : State) (va : Nat) : List Nat :=
  let p1 := s.mgmt.walkRoot + 8 * (va / 2 ^ 30 % 2 ^ 18)
  let p2 := entAddr (entryAt s p1) + 8 * (va / 2 ^ 21 % 512)
  let p3 := entAddr (entryAt s p2) + 8 * (va / 2 ^ 16 % 32)
  if entKind (entryAt s p1) = 1 then (if entKind (entryAt s p2) = 1 then [p1, p2, p3] else [p1, p2]) else [p1]

/-- The levels whose entries a walk reads. -/
def walkLevels (s : State) (va : Nat) : Nat := (walkEntries s va).length

/-- The walk of R233; none is cause 0x06. -/
def walk (s : State) (va : Nat) : Option TLeaf :=
  let e1 := entryAt s (s.mgmt.walkRoot + 8 * (va / 2 ^ 30 % 2 ^ 18))
  if entKind e1 = 2 then leafOf e1 va (2 ^ 30)
  else if entKind e1 = 1 then
    let e2 := entryAt s (entAddr e1 + 8 * (va / 2 ^ 21 % 512))
    if entKind e2 = 2 then leafOf e2 va (2 ^ 21)
    else if entKind e2 = 1 then
      let e3 := entryAt s (entAddr e2 + 8 * (va / 2 ^ 16 % 32))
      if entKind e3 = 2 then leafOf e3 va (2 ^ 16) else none
    else none
  else none

/-- The physical address that a leaf gives. -/
def TLeaf.pa (l : TLeaf) (va : Nat) : Nat := entAddr l.entry + (va - l.base)

/-- Whether a leaf covers an address. -/
def TLeaf.covers (l : TLeaf) (va : Nat) : Bool := decide (l.base ≤ va) && decide (va < l.base + l.size)

/-- Put a leaf into a buffer of `cap` entries; a full buffer loses the entry `out` names (log 9). -/
def fillLeaf (cap out : Nat) (l : TLeaf) (b : List TLeaf) : List TLeaf :=
  let b := b.filter (fun m => !m.covers l.base && !l.covers m.base)
  if b.length < cap then b ++ [l] else b.eraseIdx (out % cap) ++ [l]

/-- A leaf fills a core's buffer. -/
def fillCore (s : State) (c : Nat) (l : TLeaf) : State :=
  modCore s c (fun k => { k with tlb := fillLeaf 64 (pickN s 6 0 63) l k.tlb })

/-- A walk's result fills the core's and the loom's buffer (R236). -/
def fillBuffers (s : State) (c : Nat) (l : TLeaf) : State :=
  fillCore (modLoom s (loomOf c) (fun k => { k with tlb := fillLeaf 2048 (pickN s 7 0 2047) l k.tlb })) c l

/-- A buffered leaf translates as it stands or as the table now stands (R238). -/
def freshLeaf (s : State) (l : TLeaf) (va : Nat) : Option TLeaf :=
  let l := { l with barred := [] }
  if walk s va = some l then some l
  else if pickN s 5 0 1 = 0 then some l
  else walk s va

/-- The leaf that core `c` holds or its loom holds, with the time that a loom hit adds (Table 10.4). -/
def buffered (s : State) (c va : Nat) : Option (TLeaf × Nat) :=
  match (getCore s c).tlb.find? (fun l => l.covers va) with
  | some l => some (l, 0)
  | none =>
    match (getLoom s (loomOf c)).tlb.find? (fun l => l.covers va && !l.barred.contains c) with
    | some l => some ({ l with barred := [] }, 6)
    | none => none

/-- A leaf that the loom held goes into the core's buffer; the loom's stays as it is, with the cores that have given it up (R155). -/
def useLeaf (s : State) (c : Nat) (l : TLeaf) (t : Nat) : State := if t = 0 then s else fillCore s c l

/-! The walkers (R236). -/

/-- The cycles that an access may wait for an HBM row under self-test (R407): which addresses a row holds is not stated (log 45). -/
def testDelay (s : State) : Nat :=
  if s.mgmt.testing.any (fun e => match e with | .hbmRow _ _ => true | _ => false) then 2000 else 0

/-- The greatest time of a walk (Table 10.4): the loom's buffer, and for each level that it reads an L2 hit or an HBM read. -/
def walkBound (s : State) (va : Nat) : Nat := 6 + walkLevels s va * (40 + 160 + testDelay s)

/-- The cycles of step 7 of Table 1.8 that are left for the fetch of a strand's first chain: its turn among the other strands of its core may take
the rest (R24, R18). -/
def launchRest (s : State) (c : Nat) : Nat := 24 - ((List.range 16).filter (fun t => (getStrand s c t).live)).length

/-- The greatest time of a walk that is asked for: one for the first chain of a launch lies inside step 7 of Table 1.8 (R24). -/
def walkMost (s : State) (w : WalkReq) : Nat :=
  match w.who with
  | .text t => if (getStrand s w.core t).launched then min (walkBound s w.va) (launchRest s w.core / 4 + testDelay s) else walkBound s w.va
  | _ => walkBound s w.va

/-- The time of a walk. -/
def walkTime (s : State) (w : WalkReq) : Nat := pickN s 11 1 (walkMost s w)

/-- The page that a walk is made for, as the table stands: walks of one page are merged (R236). -/
def walkPage (s : State) (va : Nat) : Nat × Nat :=
  match walk s va with
  | some l => (l.base, l.size)
  | none => (va, 0)

/-- The walks of a die that are under way. -/
def walking (s : State) (d : Nat) : List WalkReq :=
  s.pend.filterMap (fun x => match x.2 with | .translationWalkComplete w => if dieOf w.core = d then some w else none | _ => none)

/-- Whether a die's walker has a place for an address: 32 walks at once, those of one page counting as one (R236). -/
def walkRoom (s : State) (d va : Nat) : Bool :=
  let pages := ((walking s d).map (fun w => walkPage s w.va)).eraseDups
  pages.contains (walkPage s va) || decide (pages.length < 32)

/-- A walk begins. -/
def startWalk (s : State) (w : WalkReq) : State := sched s (s.now + walkTime s w) (.translationWalkComplete w)

/-- A miss goes to its die's walker, or waits for a place there (R236). -/
def askWalk (s : State) (w : WalkReq) : State :=
  let d := dieOf w.core
  if walkRoom s d w.va then startWalk s w else modDie s d (fun k => { k with walks := k.walks ++ [w] })

/-- Walks that a die's walker had no place for go to it. -/
def nextWalks (s : State) (d : Nat) : State :=
  (getDie s d).walks.foldl (fun s w =>
    if walkRoom s d w.va then startWalk (modDie s d (fun k => { k with walks := k.walks.filter (fun v => v != w) })) w else s) s

/-- The walk that has been made for a strand's instruction at an address. -/
def walkMade (s : State) (cx : Ctx) (va : Nat) : Option (Nat × Option TLeaf) :=
  (getStrand s cx.core cx.strand).pages.find? (fun p => match p.2 with | some l => l.covers va | none => p.1 == va)

/-- Translate for an instruction that translates in one step, after the walks that it has waited for (R236): by a buffer, or as its walk has
found, none where it has failed. -/
def translate (s : State) (cx : Ctx) (va : Nat) : State × Option TLeaf :=
  match buffered s cx.core va, walkMade s cx va with
  | some (l, t), _ => (useLeaf s cx.core l t, freshLeaf s l va)
  | none, some (_, r) => (s, r)
  | none, none => (s, walk s va)

/-- Whether a strand's instruction has still to wait for the walk of an address. -/
def needsWalk (s : State) (cx : Ctx) (va : Nat) : Bool := (buffered s cx.core va).isNone && (walkMade s cx va).isNone

/-- Whether the walk of an address for a strand's instruction is under way or waits for a place. -/
def walkAsked (s : State) (cx : Ctx) (va : Nat) : Bool :=
  (walking s (dieOf cx.core) ++ (getDie s (dieOf cx.core)).walks).contains ⟨cx.core, va, .strand cx⟩

/-- Ask for the walks that a strand's instruction needs and has not asked for. -/
def askWalks (s : State) (cx : Ctx) (vas : List Nat) : State :=
  vas.foldl (fun s va => if needsWalk s cx va && !walkAsked s cx va then askWalk s ⟨cx.core, va, .strand cx⟩ else s) s

/-! Fetch. -/

/-- What the fetch of a chain gives: words, a fault with the last word read and the bad address, lines to be filled, or an address that no
buffer translates. -/
inductive Fetched where
  | words (ws : List IWord)
  | fault (cause : Byte) (word : IWord) (bad : Word)
  | missing (lines : List Nat)
  | untranslated (va : Nat)
  deriving DecidableEq, Repr

/-- The physical address of a word of text by a leaf, or the cause that keeps it from being read (R59, R235). -/
def leafText (l : Option TLeaf) (a : Word) : Except Byte Nat :=
  match l with
  | none => .error 0x06
  | some l =>
    if 2 ≤ entAttr l.entry then .error 0x07
    else if !inHbm (l.pa a.toNat) && !inAperture (l.pa a.toNat) then .error 0x06
    else if entAttr l.entry == 0 && inAperture (l.pa a.toNat) then .error 0x07
    else if !entX l.entry then .error 0x07
    else .ok (l.pa a.toNat)

/-- The physical address of a word of text for an instruction that captures chains (R216, log 20). -/
def fetchPa (s : State) (cx : Ctx) (a : Word) : Except Byte Nat :=
  if bits a 63 48 != 0 then .error 0x06 else leafText (translate s cx a.toNat).2 a

/-- The physical address of a word of text for the fetch (R59, R236): none until some buffer translates it; `bad` is an address whose
walk has failed. -/
def fetchText (s : State) (c : Nat) (bad : Option Nat) (a : Word) : Option (Except Byte Nat) :=
  if bits a 63 48 != 0 then some (.error 0x06)
  else
    match buffered s c a.toNat with
    | some (l, _) => some (leafText (freshLeaf s l a.toNat) a)
    | none => if bad = some a.toNat then some (.error 0x06) else none

/-- Whether more words are needed. -/
def needsMore (more : List IWord → Bool) (ws : List IWord) : Bool := ws.isEmpty || more ws

/-- Fetch word by word until the chain is whole (R59): `ws` and `lines` are the words and missing lines so far. -/
def fetchFrom (s : State) (c : Nat) (bad : Option Nat) (more : List IWord → Bool) (a : Word) (ws : List IWord) (lines : List Nat) :
    Nat → Fetched
  | 0 => if lines.isEmpty then .words ws else .missing lines
  | n + 1 =>
    if needsMore more ws then
      match fetchText s c bad a with
      | none => .untranslated a.toNat
      | some (.error cause) => if lines.isEmpty then .fault cause (ws.getLastD 0) a else .missing lines
      | some (.ok pa) =>
        let line := pa / 256
        let miss := !(getCore s c).icache.contains line && !lines.contains line
        fetchFrom s c bad more (a + 2) (ws ++ [textWord s pa]) (if miss then lines ++ [line] else lines) n
    else if lines.isEmpty then .words ws
    else .missing lines

/-- Instruction-cache capacity in lines (R60). -/
def icacheLines : Nat := 256

/-- Put lines into an instruction cache; a full one loses lines that a free choice names (log 10). -/
def icacheAdd (out : Nat) (lines old : List Nat) : List Nat :=
  lines.foldl (fun l x =>
    if l.contains x then l
    else if l.length < icacheLines then l ++ [x]
    else l.eraseIdx (out % icacheLines) ++ [x]) old

end Sys2Proof.Machine
end

