-- ==== Sys2Proof/Machine/LineageMem.lean ====
section
/-! DEFINITION. Lineage content: the node table, tile deltas and their encoding (R271 to R276), resolution (R277, R45), and what a
strand loads from global memory through its write log (R244, R278). -/

namespace Sys2Proof.Machine

/-- Node 0, the null root (R271), and every other node. -/
def Node.initial (n : Nat) : Node := if n = 0 then { valid := true, frozen := true } else {}

def getNode (s : State) (n : Nat) : Node := getK (Node.initial n) s.nodes n

def modNode (s : State) (n : Nat) (f : Node → Node) : State :=
  { s with nodes := setK s.nodes n (f (getNode s n)) }

/-- 256 zero bytes. -/
def zeroLine : List Byte := List.replicate 256 0

/-- Replace the bytes of a list from position `i`. -/
def patchBytes (l : List Byte) (i : Nat) (bs : List Byte) : List Byte := l.take i ++ bs ++ l.drop (i + bs.length)

/-- Apply a patch record's entries (Table 12.5): `w` bytes each after an index byte. -/
def applyEntries (w : Nat) : Nat → List Byte → List Byte → List Byte
  | 0, _, line => line
  | n + 1, es, line =>
    applyEntries w n (es.drop (1 + w)) (patchBytes line ((nth 0 es 0).toNat * w) ((es.drop 1).take w))

/-- Apply a line record to the line below it (R45). -/
def applyRec (r : DeltaRec) (line : List Byte) : List Byte :=
  if r.full then r.bytes
  else applyEntries (2 ^ ((nth 0 r.bytes 0).toNat % 4)) ((nth 0 r.bytes 1).toNat + 1) (r.bytes.drop 2) line

/-- The line that node `n` holds, if it does, over the line below. -/
def ownLine (k : Node) (line : Nat) (below : Unit → List Byte) : List Byte :=
  match k.dirty.find? (fun x => x.1 == line) with
  | some (_, bs) => bs
  | none =>
    match k.delta.find? (fun x => x.1 == line) with
    | some (_, r) => if r.full then r.bytes else applyRec r (below ())
    | none => below ()

/-- ResolveLine (R45, R277) over at most `fuel` nodes. -/
def resolveIn (nodes : Nat → Node) (line : Nat) : Nat → Nat → List Byte
  | 0, _ => zeroLine
  | fuel + 1, n =>
    let k := nodes n
    ownLine k line (fun _ => if k.parent = 0 then zeroLine else resolveIn nodes line fuel k.parent)

/-- The nodes of a chain at most: the 17 that the depth allows (R271), and the forks that a gang of 16 cores can have logged behind a
`flat` (R244, R281). -/
def chainFuel : Nat := 65553

/-- The committed content of a line. -/
def resolveLine (s : State) (n line : Nat) : List Byte := resolveIn (getNode s) line chainFuel n

/-- Nodes visited and patch records applied by the walk (R277). -/
def resolveCost (s : State) (line : Nat) : Nat → Nat → Nat × Nat
  | 0, _ => (0, 0)
  | fuel + 1, n =>
    let k := getNode s n
    let dirty := k.dirty.any (fun x => x.1 == line)
    let stop := dirty || k.delta.any (fun x => x.1 == line && x.2.full)
    let patch := !dirty && k.delta.any (fun x => x.1 == line && !x.2.full)
    if stop || k.parent == 0 then (1, patch.toNat)
    else
      let (v, p) := resolveCost s line fuel k.parent
      (v + 1, p + patch.toNat)

/-- The w-aligned elements that differ, with their numbers. -/
def diffElems (w : Nat) (old new : List Byte) : List (Nat × List Byte) :=
  (List.range (256 / w)).filterMap (fun i =>
    let a := (old.drop (i * w)).take w
    let b := (new.drop (i * w)).take w
    if a = b then none else some (i, b))

/-- Size of a patch of width `w` (R275). -/
def patchSize (w : Nat) (old new : List Byte) : Nat := 2 + (diffElems w old new).length * (1 + w)

/-- A patch record (Table 12.5). -/
def patchRec (code w : Nat) (old new : List Byte) : DeltaRec :=
  let d := diffElems w old new
  ⟨false, BitVec.ofNat 8 code :: BitVec.ofNat 8 (d.length - 1) :: d.flatMap (fun (i, b) => BitVec.ofNat 8 i :: b)⟩

/-- The encoding of a line against the line below it (R275): none when equal. -/
def encodeLine (old new : List Byte) : Option DeltaRec :=
  if diffElems 1 old new = [] then none
  else
    let s1 := patchSize 1 old new
    let s2 := patchSize 2 old new
    let s4 := patchSize 4 old new
    if 256 ≤ s1 ∧ 256 ≤ s2 ∧ 256 ≤ s4 then some ⟨true, new⟩
    else if s4 ≤ s1 ∧ s4 ≤ s2 then some (patchRec 2 4 old new)
    else if s2 ≤ s1 then some (patchRec 1 2 old new)
    else some (patchRec 0 1 old new)

/-- The line below a node's own: its parent's, or zeros for a root. -/
def lineBelow (s : State) (n line : Nat) : List Byte :=
  let k := getNode s n
  if k.parent = 0 then zeroLine else resolveLine s k.parent line

/-- Set a line's record in a delta. -/
def putDelta (k : Node) (line : Nat) (r : Option DeltaRec) : Node :=
  { k with
    dirty := delK k.dirty line
    delta := match r with
      | some r => setK k.delta line r
      | none => delK k.delta line }

/-- LINE_WRITEBACK (R275): a written line is encoded against the parent's and goes to HBM. -/
def execLineWriteback (node line : Nat) (s : State) : Out :=
  .next
    (match (getNode s node).dirty.find? (fun x => x.1 == line) with
    | some (_, new) => modNode s node (fun k => putDelta k line (encodeLine (lineBelow s node line) new))
    | none => s)

/-- Add to a lineage counter (R291). -/
def linAdd (s : State) (i n : Nat) : State := { s with linCnt := setK s.linCnt i (getK 0 s.linCnt i + wd n) }

/-- Whether a home slice holds a lineage line. -/
def lineHeld (s : State) (n line : Nat) : Bool :=
  s.linHeld.contains (n, line) || (getNode s n).dirty.any (fun x => x.1 == line)

/-- A node's id becomes Free: no slice holds a line of it any longer (R277). -/
def dropHeld (s : State) (n : Nat) : State := { s with linHeld := s.linHeld.filter (fun x => x.1 != n) }

/-- LINE_RESOLVE (R277): the resolver brings a line into its home slice, and counts. The slice holds it until its node is Free, and a written one until
it is written back (when a slice drops a line R277 does not say; DESIGN CHOICE, log 72). -/
def resolveInto (s : State) (n line : Nat) : State :=
  if lineHeld s n line then s
  else linAdd (linAdd { s with linHeld := s.linHeld ++ [(n, line)] } 5 1) 6 (resolveCost s line chainFuel n).1

def execLineResolve (node line : Nat) (s : State) : Out := .next (resolveInto s node line)

/-- Tiles that hold a delta, and bytes reserved (R294). -/
def tilesHeld (k : Node) : Nat := ((keysK k.delta).map (· / 64) ++ (keysK k.dirty).map (· / 64)).eraseDups.length

/-- Units of lineage area in use (R276). -/
def unitsUsed (s : State) : Nat := (s.nodes.map (fun x => x.2.tiles.length)).foldl (· + ·) 0

/-- Reserve storage for a tile of a node: none when there is no room (R276). -/
def reserveTile (s : State) (n tile : Nat) : Option State :=
  if (getNode s n).tiles.contains tile then some s
  else if unitsUsed s < s.mgmt.linUnits then some (modNode s n (fun k => { k with tiles := k.tiles ++ [tile] }))
  else none

/-! Write logs. -/

/-- The log of record `r` on core `c`. -/
def getLog (s : State) (c r : Nat) : List LogRec := getK [] (getCore s c).logs r

/-- The logs of a task's members, in ascending MEMBER order. -/
def taskLogs (s : State) (r : Nat) : List (Nat × List LogRec) := (getTask s r).members.map (fun c => (c, getLog s c r))

/-- Append to the log of the task that a strand runs. -/
def logAdd (s : State) (c r : Nat) (e : LogRec) : State :=
  modCore s c (fun k => { k with logs := setK k.logs r (getK [] k.logs r ++ [e]) })

/-- Whether a record was made by the instruction of a context. -/
def LogRec.by_ (cx : Ctx) (e : LogRec) : Bool :=
  match e with
  | .node _ x => x == cx
  | .win _ x => x == cx
  | _ => false

/-- Change the log of record `r` on core `c`. -/
def modLog (s : State) (c r : Nat) (f : List LogRec → List LogRec) : State :=
  modCore s c (fun k => { k with logs := setK k.logs r (f (getK [] k.logs r)) })

/-- Take the record of an instruction out of the log. -/
def logDrop (s : State) (r : Nat) (cx : Ctx) : State := modLog s cx.core r (fun l => l.filter (fun e => !e.by_ cx))

/-- Put another window operation into the record of an instruction. -/
def logSet (s : State) (r : Nat) (cx : Ctx) (op : WinOp) : State :=
  modLog s cx.core r (fun l => l.map (fun e => if e.by_ cx then .win op cx else e))

/-- The state with the log as it stood before the record of an instruction. -/
def logBefore (s : State) (r : Nat) (cx : Ctx) : State := modLog s cx.core r (fun l => l.takeWhile (fun e => !e.by_ cx))

/-- Whether a core's log has no room for another record (R244). -/
def logFull (s : State) (c r : Nat) : Bool := decide (4096 ≤ (getLog s c r).length)

/-- The node operations that a task has logged, by members in ascending order. -/
def taskNodeOps (s : State) (r : Nat) : List NodeOp :=
  (getTask s r).members.flatMap (fun c => (getLog s c r).filterMap (fun e => match e with | .node op _ => some op | _ => none))

/-- The window operations that a task has logged. -/
def taskWinOps (s : State) (r : Nat) : List WinOp :=
  (getTask s r).members.flatMap (fun c => (getLog s c r).filterMap (fun e => match e with | .win op _ => some op | _ => none))

/-- Shift of a byte address by `i`. -/
def gplus (a : GAddr) (i : Nat) : GAddr :=
  match a with
  | .phys p => .phys (p + i)
  | .lin n o => .lin n (o + i)

/-- The byte that the stores of a log leave at an address, over `b`. -/
def loggedByte (log : List LogRec) (a : GAddr) (b : Byte) : Byte :=
  log.foldl (fun b e =>
    match e with
    | .store x bs =>
      match (List.range bs.length).find? (fun i => gplus x i == a) with
      | some i => nth 0 bs i
      | none => b
    | _ => b) b

/-- Whether a `fork` of the task made node `n`, and under which parent (R281). -/
def forkedBy (ops : List NodeOp) (n : Nat) : Option Nat :=
  ops.findSome? (fun o => match o with | .fork p _ ch => if ch = n then some p else none | _ => none)

/-- The bytes of a line with those that a log stores in it. -/
def overlay (log : List LogRec) (n line : Nat) (base : List Byte) : List Byte :=
  (List.range 256).map (fun i => loggedByte log (.lin n (line * 256 + i)) (nth 0 base i))

/-- A line of a node as a strand's task finds it without its own stores to that node: committed content, or for a reserved child the
parent's as the task loads it (R278, R281). -/
def taskBase (s : State) (log : List LogRec) (ops : List NodeOp) (line : Nat) : Nat → Nat → List Byte
  | 0, n => resolveLine s n line
  | fuel + 1, n =>
    match forkedBy ops n with
    | some p => if p = 0 then zeroLine else overlay log p line (taskBase s log ops line fuel p)
    | none => resolveLine s n line

/-- A line of a node as a strand's task loads it: what it finds, with the core's log (R244, R278, R281). -/
def taskLine (s : State) (log : List LogRec) (ops : List NodeOp) (line fuel n : Nat) : List Byte :=
  overlay log n line (taskBase s log ops line fuel n)

/-- A lineage line as core `c` loads it, for a task or outside one. -/
def loadLine (s : State) (c : Nat) (task : Option Nat) (n line : Nat) : List Byte :=
  match task with
  | some r => taskLine s (getLog s c r) (taskNodeOps s r) line chainFuel n
  | none => resolveLine s n line

/-- `n` bytes from a committed place as core `c` loads them (R242, R244). -/
def loadBytes (s : State) (c : Nat) (task : Option Nat) (a : GAddr) (n : Nat) : List Byte :=
  match a with
  | .phys p =>
    let bs := memRead s p n
    match task with
    | some r => (List.range n).map (fun i => loggedByte (getLog s c r) (.phys (p + i)) (nth 0 bs i))
    | none => bs
  | .lin nd off => ((loadLine s c task nd (off / 256)).drop (off % 256)).take n

/-! Arithmetic of atomics and reductions. -/

/-- Signed order of 64-bit words. -/
def wordLt (a b : Nat) : Bool := decide (signed 64 a < signed 64 b)

/-- RoundNE32 of a sum of two FP32 words (R252). -/
def faddWord (a b : Nat) : Nat := (bits32 (rne32 (FV.sum false [fp32.decode (a % 2 ^ 32), fp32.decode (b % 2 ^ 32)]))).toNat

/-- The new value of `amo` (R252). -/
def amoNew (op : BitVec 3) (old v : Nat) : Nat :=
  match op.toNat with
  | 0 => (old + v) % 2 ^ 64
  | 1 => v
  | 2 => old &&& v
  | 3 => old ||| v
  | 4 => old ^^^ v
  | 5 => if wordLt v old then v else old
  | 6 => if wordLt old v then v else old
  | _ => faddWord old v

/-- Width in bytes of `amo` and of `red`. -/
def amoWidth (op : BitVec 3) : Nat := if op.toNat = 7 then 4 else 8
def redWidth (op : BitVec 3) : Nat := if op.toNat = 1 ∨ op.toNat = 2 then 4 else 8

/-- The new value of `red` (R253). -/
def redNew (op : BitVec 3) (old v : Nat) : Nat :=
  match op.toNat with
  | 0 => (old + v) % 2 ^ 64
  | 1 => (old + v) % 2 ^ 32
  | 2 => faddWord old v
  | 3 => if wordLt v old then v else old
  | _ => if wordLt old v then v else old

/-- The eight bytes from `a` after a log's stores and reductions, applied in log order over `base` (R246). -/
def mergedBytes (log : List LogRec) (a : GAddr) (base : List Byte) : List Byte :=
  log.foldl (fun bs e =>
    match e with
    | .red x op w =>
      match (List.range 8).find? (fun i => gplus a i == x) with
      | some i =>
        let n := redWidth op
        let old := ofBytes ((bs.drop i).take n)
        patchBytes bs i (toBytes n (redNew op old (w.toNat % 256 ^ n)))
      | none => bs
    | e => (List.range 8).map (fun i => loggedByte [e] (gplus a i) (nth 0 bs i))) base

/-- The aligned doubleword that holds an address, and the address's place in it. -/
def dwordOf (a : GAddr) : GAddr × Nat :=
  match a with
  | .phys p => (.phys (p / 8 * 8), p % 8)
  | .lin n o => (.lin n (o / 8 * 8), o % 8)

/-- The value that an atomic of `n` bytes on a task page or in lineage space reads (R246). -/
def atomicOld (s : State) (c r : Nat) (a : GAddr) (n : Nat) : Nat :=
  let (d, i) := dwordOf a
  let base := match d with
    | .phys p => memRead s p 8
    | .lin nd off => ((taskBase s (getLog s c r) (taskNodeOps s r) (off / 256) chainFuel nd).drop (off % 256)).take 8
  ofBytes (((mergedBytes (getLog s c r) d base).drop i).take n)

end Sys2Proof.Machine
end

