-- ==== Sys2Proof/Machine/Flags.lean ====
section
/-! DEFINITION. Flag computations: the width and signedness of integer operands (R38, R101), the compare conditions (R109,
R113, R198), and the results of Table 5.7 that flags and destinations take. The sticky flags of cr.stat are set in Operands (CF8E)
and Selection (SELS). -/

namespace Sys2Proof.Machine

/-- The width that modifier bits [1:0] select (R38): 0 `.d`, 1 `.w`, 2 `.h`, 3 `.b`. -/
def widthOf (mod : BitVec 3) : Nat :=
  match mod.toNat % 4 with
  | 0 => 64
  | 1 => 32
  | 2 => 16
  | _ => 8

/-- `.u` (R38). -/
def unsignedOf (mod : BitVec 3) : Bool := mod.getLsbD 2

/-- IntIn (R101). -/
def intIn (v : Word) (w : Nat) (u : Bool) : Int :=
  if u then ((v.toNat % 2 ^ w : Nat) : Int) else signed w v.toNat

/-- IntOut (R101). -/
def intOut (x : Int) (w : Nat) (u : Bool) : Word :=
  let b := wrapTo w x
  if u then wd b else BitVec.ofInt 64 (signed w b)

/-- Conditions of `cmp` and `cmpi` (R109). -/
inductive Cond where
  | eq | ne | lt | le
  deriving DecidableEq, Repr

def Cond.holds (c : Cond) (x y : Int) : Bool :=
  match c with
  | .eq => x == y
  | .ne => x != y
  | .lt => decide (x < y)
  | .le => decide (x ≤ y)

/-- Conditions of `fcmp` and `vcmp` (R113, R198). -/
inductive FCond where
  | eq | ne | lt | le | un
  deriving DecidableEq, Repr

def FCond.holds (c : FCond) (x y : FV) : Bool :=
  match c with
  | .eq => x.eqv y
  | .ne => !x.eqv y
  | .lt => x.lt y
  | .le => x.le y
  | .un => x.isNan || y.isNan

end Sys2Proof.Machine
end

