-- ==== Sys2Proof/Machine/Links.lean ====
section
/-! DEFINITION. Link ports, deposit slots and the deferred-message buffer (R316 to R332, R139), `mov`, which alone reads and
writes them through PX.C (R105), and the happenings of the mailboxes. -/

namespace Sys2Proof.Machine

/-- The neighbour of a core at a port (R317). -/
def neighbour (c port : Nat) : Nat :=
  let row := rowOfCore c
  let col := colOf c
  let base := dieOf c * 256
  match port with
  | 0 => base + row * 16 + (col + 15) % 16
  | 1 => base + row * 16 + (col + 1) % 16
  | 2 => base + (row + 15) % 16 * 16 + col
  | _ => base + (row + 1) % 16 * 16 + col

/-- The neighbour's port for the same link (R317). -/
def farPort (port : Nat) : Nat :=
  match port with
  | 0 => 1
  | 1 => 0
  | 2 => 3
  | _ => 2

/-- Whether a strand may use a port (R318). -/
def portOk (s : State) (c t port : Nat) : Bool :=
  match taskOf s c t with
  | some r => decide (port < 2) && (getTask s r).members.contains (neighbour c port)
  | none => true

/-- For whom a strand claims a queue (R318). -/
def claimOf (s : State) (c t : Nat) : Claim :=
  match taskOf s c t with
  | some r => .task r
  | none => .system

def getLink (s : State) (c port : Nat) : Link := getK {} (getCore s c).links port

def modLink (s : State) (c port : Nat) (f : Link → Link) : State :=
  modCore s c (fun k => { k with links := setK k.links port (f (getK {} k.links port)) })

/-- Whether a queue is free for a claimant. -/
def claimFits (k : Link) (cl : Claim) : Bool := k.claim == .none || k.claim == cl

/-- The word a claimant may pop or peek at. -/
def headFor (k : Link) (cl : Claim) : Option Word :=
  if k.claim = cl then k.words.head? else none

/-- A queue after its head has left: a system claim ends when the queue empties (R318). -/
def popLink (k : Link) : Link :=
  let ws := k.words.drop 1
  { k with words := ws, claim := if ws.isEmpty && k.claim == .system then .none else k.claim }

/-- A word enters a queue, which it claims when nothing else does (R318). -/
def enterLink (k : Link) (cl : Claim) (v : Word) : Link :=
  { k with words := k.words ++ [v], claim := cl }

def getSlot (s : State) (c m : Nat) : Slot := getK {} (getCore s c).slots m

def modSlot (s : State) (c m : Nat) (f : Slot → Slot) : State :=
  modCore s c (fun k => { k with slots := setK k.slots m (f (getK {} k.slots m)) })

/-- Whether a strand sleeps (R123). -/
def asleep (x : Strand) : Bool := x.st == .blocked && x.wait.any (fun w => w.why == .sleep)

/-- A sleeping strand is woken: its `sleep` completes (R123). -/
def wakeSleeper (s : State) (c t : Nat) : State :=
  let x := getStrand s c t
  match x.wait with
  | some w => if asleep x then complete s w.cx else s
  | none => s

/-- A word stands in a slot: presence is set and an owner that sleeps wakes (R321, R324). -/
def applyDeposit (s : State) (c m : Nat) (v : Word) : State :=
  let s := modSlot s c m (fun x => { x with val := v, present := true })
  match (getSlot s c m).owner with
  | some t => wakeSleeper s c t
  | none => s

/-- Whether a strand may read a slot, or write and peek it (Table 14.2). -/
def slotReadOk (s : State) (c t m : Nat) : Bool := (getSlot s c m).owner == some t
def slotWriteOk (s : State) (c t m : Nat) : Bool := t == 0 || slotReadOk s c t m

/-- The binding and gang checks of a class-m operand: 0x05 for a port, 0x1A for a slot (R318, R321). -/
def checkMail (s : State) (cx : Ctx) (o : Opnd) (write : Bool) : Option Bad :=
  match o with
  | .m n =>
    if n.toNat < 4 then (if portOk s cx.core cx.strand n.toNat then none else some (0x05, 0))
    else if (if write then slotWriteOk s cx.core cx.strand n.toNat else slotReadOk s cx.core cx.strand n.toNat)
      then none else some (0x1A, 0)
  | _ => none

/-- The pops of the core that have waited at a port for the claimant of `cx` since before it issued: they are served in issue order, before it
(R317, R318). A peek takes no word (R329). -/
def popsBefore (s : State) (cx : Ctx) (n : Nat) : Nat :=
  ((getCore s cx.core).strands.filter (fun (t, x) =>
    x.wait.any (fun w => w.why == .pop n false && decide (w.cx.at_ < cx.at_)) && claimOf s cx.core t == claimOf s cx.core cx.strand)).length

/-- The word that a class-m read finds now: the head of a queue, where no older pop waits for it, or a present slot (R317, R319,
R321). -/
def mailWord (s : State) (cx : Ctx) (n : Nat) : Option Word :=
  if n < 4 then (if 0 < popsBefore s cx n then none else headFor (getLink s cx.core n) (claimOf s cx.core cx.strand))
  else
    let x := getSlot s cx.core n
    if x.present then some x.val else none

/-- Consume the word that a class-m read found. -/
def mailTake (s : State) (c n : Nat) : State :=
  if n < 4 then modLink s c n popLink else modSlot s c n (fun x => { x with present := false })

/-- What a read of an empty port or slot waits for. -/
def mailWhy (n : Nat) (peek : Bool) : Why := if n < 4 then .pop n peek else .slot n peek

/-- Write the value of a `mov` to its destination (R105): a push enters the neighbour's queue at the end of the cycle
four after this one, a slot takes the word as a local write, anything else is written and the instruction completes. A slot's binding is checked
at issue and not again when a `mov` that has waited at its read completes (R105 does not say; DESIGN CHOICE, log 72). -/
def moveTo (s : State) (cx : Ctx) (dst : Opnd) (v : Word) (popped : Bool) (i : Instr) : State :=
  match dst with
  | .m n =>
    if n.toNat < 4 then
      let far := neighbour cx.core n.toNat
      let port := farPort n.toNat
      let p : Push := ⟨cx, far, port, v, claimOf s cx.core cx.strand, popped⟩
      sched (leave s .waiting (.push far port) false i cx dst) (s.now + 4) (.linkPushEntry p)
    else complete (applyDeposit s cx.core n.toNat v) cx
  | _ => finish s cx dst v

/-- `mov` (R105). Where both mailboxes that it names fail, fa's check stands (R92 and R105 give no order; DESIGN CHOICE, log 72). -/
def execMov (x : Args) (s : State) : Out :=
  issue none x s (fun s =>
    let cx := s.cur
    orTrap s cx (firstBad [checkMail s cx x.a true, checkMail s cx x.b false])
      (match x.b with
      | .m n =>
        match mailWord s cx n.toNat with
        | some v => moveTo (mailTake s cx.core n.toNat) cx x.a v true (.mov x)
        | none => leave s .blocked (mailWhy n.toNat false) true (.mov x) cx x.a
      | b => moveTo s cx x.a (rd s cx b) false (.mov x)))

/-- `mpk` (R329). -/
def execMpk (x : Args) (s : State) : Out :=
  issue none x s (fun s =>
    let cx := s.cur
    orTrap s cx (checkMail s cx x.b true)
      (match x.b with
      | .m n =>
        match mailWord s cx n.toNat with
        | some v => finish s cx x.a v
        | none => leave s .blocked (mailWhy n.toNat true) true (.mpk x) cx x.a
      | _ => complete s cx))

/-- Discard the deferred entries of a slot (R325). -/
def dropDeferred (s : State) (c m : Nat) : State :=
  modCore s c (fun k => { k with deferred := k.deferred.filter (fun e => e.slot != m) })

/-- `mclr` (R330). -/
def execMclr (x : Args) (s : State) : Out :=
  issue none x s (fun s =>
    let cx := s.cur
    orTrap s cx (checkMail s cx x.a true)
      (match x.a with
      | .m n =>
        let n := n.toNat
        if n < 4 then
          let k := getLink s cx.core n
          let foreign : Bool :=
            match k.claim with
            | .task r => taskOf s cx.core cx.strand != some r
            | _ => false
          if foreign then trapAt s cx 0x05 0
          else complete (modLink s cx.core n (fun k => { k with words := [], claim := .none })) cx
        else
          let s := modSlot s cx.core n (fun x => { x with present := false })
          complete (if cx.strand = 0 then dropDeferred s cx.core n else s) cx
      | _ => complete s cx))

/-- Whether a strand is Blocked reading or peeking slot `m`. -/
def readsSlot (x : Strand) (m : Nat) : Bool :=
  match x.wait with
  | some w => x.st == .blocked && (w.why == .slot m false || w.why == .slot m true)
  | none => false

/-- A strand Blocked reading or peeking a slot it no longer owns raises cause 0x1A at that read (R331). -/
def refuseReader (s : State) (c t m : Nat) : State :=
  let x := getStrand s c t
  match x.wait with
  | some w => if readsSlot x m then trapAt s w.cx 0x1A 0 else s
  | none => s

/-- `mbind` (R331). -/
def execMbind (x : Args) (s : State) : Out :=
  issue (privileged s) x s (fun s =>
    let cx := s.cur
    match x.a with
    | .m n =>
      let n := n.toNat
      if n < 4 then trapAt s cx 0x1A 0
      else
        let v := rd s cx x.b
        let old := (getSlot s cx.core n).owner
        let new := if bit v 4 then none else some (bits v 3 0)
        let s := modSlot s cx.core n (fun x => { x with owner := new, present := false, parked := none })
        let s := dropDeferred s cx.core n
        let s := complete s cx
        match old with
        | some t => if new = some t ∨ t = 0 then s else refuseReader s cx.core t n
        | none => s
    | _ => complete s cx)

/-- The members of a gang in ascending order, and the next and previous ones of a core (R209). -/
def nextMember (g : List Nat) (c : Nat) : Nat :=
  match g.filter (fun d => decide (c < d)) with
  | d :: ds => ds.foldl min d
  | [] => g.foldl min c

def prevMember (g : List Nat) (c : Nat) : Nat :=
  match g.filter (fun d => decide (d < c)) with
  | d :: ds => ds.foldl max d
  | [] => g.foldl max c

/-- The columns of a list of cores, as a mask. -/
def columnMask (g : List Nat) : Nat :=
  (List.range 16).foldl (fun a i => if g.any (fun c => colOf c == i) then a + 2 ^ i else a) 0

/-- `lnks` items (Table 14.5). -/
def lnksItem (s : State) (cx : Ctx) (item : Nat) : Word :=
  let c := cx.core
  let g := gangOf s c cx.strand
  match item with
  | 0 =>
    wd (columnMask g * 2 ^ 48 + (g.contains (neighbour c 1)).toNat * 2 ^ 31 + (g.contains (neighbour c 0)).toNat * 2 ^ 30
      + nextMember g c * 2 ^ 20 + prevMember g c * 2 ^ 10 + c)
  | 1 =>
    let counts := (List.range 4).foldl (fun a i => a + (getLink s c i).words.length * 2 ^ (32 + 4 * i)) 0
    let pres := (List.range 28).foldl (fun a i =>
      let x := getSlot s c (i + 4)
      if x.owner == some cx.strand && x.present then a + 2 ^ (i + 4) else a) 0
    wd (counts + pres)
  | _ => 0

/-- `lnks` (R332). -/
def execLnks (x : Args) (s : State) : Out :=
  issue none x s (fun s => finish s s.cur x.a (lnksItem s s.cur (bits (rd s s.cur x.a) 1 0)))

/-! Deposits. -/

/-- The latency L of a deposit (R323). -/
def sendLat (a b : Nat) : Nat :=
  let h := hops (colOf a) (colOf b)
  if loomOf a = loomOf b then 6 + 2 * h
  else if dieOf a = dieOf b then 16 + 2 * h + 2 * hops (rowOfCore a) (rowOfCore b)
  else 60

/-- Whether a strand may send to a core (R323). -/
def sendAllowed (s : State) (cx : Ctx) (c : Nat) : Bool :=
  cx.strand == 0 || (gangOf s cx.core cx.strand).contains c

/-- The condition of R323 between a sender and the owner of a slot. -/
def depositAccepted (s : State) (cx : Ctx) (task : Option Nat) (c m : Nat) : Bool :=
  let x := getSlot s c m
  let ownerTask : Option (Option Nat) :=
    match x.parked, x.owner with
    | some _, _ => some x.parkTask
    | none, some t => some (if (getStrand s c t).live then taskOf s c t else none)
    | none, none => none
  match ownerTask with
  | none => false
  | some o => cx.strand == 0 || (task.isSome && o == task) || (task.isNone && o.isNone && cx.core == c)

/-- Whether a deposit must be deferred (R139, R325): its owner is Trapped or Swapping, the slot is parked, or entries of
the slot wait already. -/
def mustDefer (s : State) (c m : Nat) : Bool :=
  let x := getSlot s c m
  let busy : Bool :=
    match x.owner with
    | some t =>
      let st := (getStrand s c t).st
      st == .trapped || st == .swapping
    | none => false
  x.parked.isSome || busy || (getCore s c).deferred.any (fun e => e.slot == m)

/-- Places of the deferred-message buffer in use, the reserved ones included (R139, R328). -/
def bufferUsed (k : Core) : Nat := k.deferred.length + k.reserved.length

/-- `send` (R323, R328). -/
def execSend (x : Args) (s : State) : Out :=
  issue none x s (fun s =>
    let cx := s.cur
    let c := bits (rd s cx x.b) 9 0
    match x.a with
    | .num m =>
      if sendAllowed s cx c then
        let lat := sendLat cx.core c
        sched (leaveFlight s (.send x) cx) (s.now + lat)
          (.deposit ⟨cx, c, m.toNat, rd s cx x.c, taskOf s cx.core cx.strand, lat, false⟩)
      else trapAt s cx 0x05 0
    | _ => complete s cx)

/-- The wait of a sender at a full deferred buffer begins (R139, R159), if it still waits. -/
def countDeferred (s : State) (cx : Ctx) (c m : Nat) : State :=
  modStrand s cx.core cx.strand (fun x =>
    { x with wait := x.wait.map (fun w => if w.cx = cx then { w with why := .deferred c m, counted := true, count := 0 } else w) })

/-- The wait at a full buffer is over. -/
def uncountDeferred (s : State) (cx : Ctx) : State :=
  modStrand s cx.core cx.strand (fun x =>
    { x with wait := x.wait.map (fun w => if w.cx = cx then { w with why := .flight, counted := false, count := 0 } else w) })

/-- Whether the deferred buffer of a core has a place for a newcomer: those held back come first (R139). -/
def bufferFree (k : Core) : Bool := k.heldBack.isEmpty && decide (bufferUsed k < 16)

/-- DEPOSIT (R322 to R325): refused, applied, deferred, or held back at a full buffer. -/
def execDeposit (m : DepMsg) (s : State) : Out :=
  .next
    (if !depositAccepted s m.cx m.task m.core m.slot then sched s (s.now + m.lat) (.sendAnswer m.cx false)
    else if mustDefer s m.core m.slot then
      if bufferFree (getCore s m.core) then
        sched (modCore s m.core (fun k => { k with deferred := k.deferred ++ [⟨m.slot, m.val⟩] }))
          (s.now + m.lat) (.sendAnswer m.cx true)
      else
        countDeferred (modCore s m.core (fun k => { k with heldBack := k.heldBack ++ [m] })) m.cx m.core m.slot
    else sched (applyDeposit s m.core m.slot m.val) (s.now + m.lat) (.sendAnswer m.cx true))

/-- SEND_ANSWER (R323): the acceptance or refusal returns. -/
def execSendAnswer (cx : Ctx) (ok : Bool) (s : State) : Out :=
  .next (if stillWaits s cx then (if ok then complete s cx else trapAt s cx 0x1A 0) else s)

/-- DEFERRED_BUFFER_ENTRY (R139): the oldest deposit held back enters the buffer. -/
def execDeferredBufferEntry (c : Nat) (s : State) : Out :=
  .next
    (match (getCore s c).heldBack with
    | [] => s
    | m :: ms =>
      if bufferUsed (getCore s c) < 16 then
        let s := modCore s c (fun k => { k with heldBack := ms, deferred := k.deferred ++ [⟨m.slot, m.val⟩] })
        sched (uncountDeferred s m.cx) (s.now + m.lat) (.sendAnswer m.cx true)
      else s)

/-- Remove the first entry of a slot. -/
def dropFirst (m : Nat) : List DefEntry → List DefEntry
  | [] => []
  | e :: es => if e.slot = m then es else e :: dropFirst m es

/-- DEFERRED_DEPOSIT_APPLY (R139): the first entry of a slot is applied. -/
def execDeferredDepositApply (c slot : Nat) (s : State) : Out :=
  .next
    (match (getCore s c).deferred.find? (fun e => e.slot == slot) with
    | some e =>
      applyDeposit (modCore s c (fun k => { k with deferred := dropFirst slot k.deferred, defAt := some s.now }))
        c slot e.val
    | none => s)

/-- The cores that a mask of columns names in a loom. -/
def maskCores (c : Nat) (mask : Nat) : List Nat :=
  ((List.range 16).filter (fun i => mask.testBit i)).map (fun i => loomOf c * 16 + i)

/-- `sendl` (R328). -/
def execSendl (x : Args) (s : State) : Out :=
  issue none x s (fun s =>
    let cx := s.cur
    let cores := maskCores cx.core (bits (rd s cx x.b) 15 0)
    match x.a with
    | .num m =>
      if cores.isEmpty then complete s cx
      else if cores.all (fun c => sendAllowed s cx c) then
        let lat := (cores.map (sendLat cx.core)).foldl max 0
        sched (leaveFlight s (.sendl x) cx) (s.now + lat)
          (.sendlStage ⟨cx, m.toNat, rd s cx x.c, taskOf s cx.core cx.strand, cores, lat, s.now, true⟩ 1)
      else trapAt s cx 0x05 0
    | _ => complete s cx)

/-- Reserve a place for `cx` on a core that has one (R328). -/
def reservePlace (s : State) (cx : Ctx) (c : Nat) : State :=
  let k := getCore s c
  if k.reserved.contains cx || !bufferFree k then s
  else modCore s c (fun k => { k with reserved := cx :: k.reserved })

/-- Give a reserved place up. -/
def releasePlace (s : State) (cx : Ctx) (c : Nat) : State :=
  modCore s c (fun k => { k with reserved := k.reserved.filter (fun d => d != cx) })

/-- Deposit a word of `sendl` (R328): applied, or deferred into its reserved place. -/
def placeSendl (j : SendlJob) (s : State) (c : Nat) : State :=
  let s := releasePlace s j.cx c
  if mustDefer s c j.slot then
    modCore s c (fun k => { k with deferred := k.deferred ++ [⟨j.slot, j.val⟩] })
  else applyDeposit s c j.slot j.val

/-- The named cores that have accepted a `sendl` reserve their places; one whose buffer is full holds its answer (R328). -/
def reserveAll (j : SendlJob) (s : State) : State :=
  let s := j.cores.foldl (fun s c => reservePlace s j.cx c) s
  match j.cores.find? (fun c => !(getCore s c).reserved.contains j.cx) with
  | some c =>
    let w := (getStrand s j.cx.core j.cx.strand).wait
    let s := if w.any (fun w => w.counted) then s else countDeferred s j.cx c j.slot
    sched s (s.now + 1) (.sendlStage j 0)
  | none => sched (uncountDeferred s j.cx) (s.now + 2 * j.lat) (.sendlStage j 2)

/-- SENDL_STAGE (R328): at stage 1 each named core checks its slot, once, and reserves a place, stage 0 goes on reserving, stage 2
deposits, stage 3 completes. -/
def execSendlStage (j : SendlJob) (stage : Nat) (s : State) : Out :=
  .next
    (if !stillWaits s j.cx then j.cores.foldl (fun s c => releasePlace s j.cx c) s
    else match stage with
    | 1 =>
      if j.cores.all (fun c => depositAccepted s j.cx j.task c j.slot) then reserveAll j s
      else sched s (s.now + j.lat) (.sendAnswer j.cx false)
    | 0 => reserveAll j s
    | 2 => sched (j.cores.foldl (placeSendl j) s) (s.now + j.lat) (.sendlStage j 3)
    | _ => complete s j.cx)

/-! Pushes and wakes. -/

/-- LINK_PUSH_ENTRY (R319): the word enters, or its strand is Blocked at a full or foreign queue; a push after a pop is
not counted (R326). -/
def execLinkPushEntry (p : Push) (s : State) : Out :=
  .next
    (if !stillWaits s p.cx then s
    else
      let k := getLink s p.core p.port
      if k.words.length < 4 && claimFits k p.claim && k.blocked.isEmpty then
        complete (modLink s p.core p.port (fun k => enterLink k p.claim p.val)) p.cx
      else
        let s := modLink s p.core p.port (fun k => { k with blocked := k.blocked ++ [p] })
        modStrand s p.cx.core p.cx.strand (fun x =>
          { x with
            st := if p.popped then .waiting else .blocked
            wait := x.wait.map (fun w => { w with counted := !p.popped, count := 0 }) }))

/-- The push that enters a queue next: its pushers lie on one core, so pushes enter in issue order (R317). -/
def firstFit (k : Link) : List Push → Option (Push × List Push)
  | [] => none
  | p :: ps => if claimFits k p.claim then some (p, ps) else none

/-- LINK_BLOCKED_PUSH_ENTRY (R319): a push that waited enters a place that has become free. -/
def execLinkBlockedPushEntry (c port : Nat) (s : State) : Out :=
  .next
    (let k := getLink s c port
    if k.words.length < 4 then
      match firstFit k k.blocked with
      | some (p, rest) => complete (modLink s c port (fun k => { enterLink k p.claim p.val with blocked := rest })) p.cx
      | none => s
    else s)

/-- Write the destination of a read that a word has woken at the end of the last cycle, that of its rejoining (R99, R324). -/
def moveWoken (s : State) (w : Wait) (v : Word) (peek : Bool) : State :=
  match w.dst with
  | .s _ => complete (wrAt s w.cx w.dst v (s.now - 1)) w.cx
  | _ => if peek then finish s w.cx w.dst v else moveTo s w.cx w.dst v true w.instr

/-- LINK_POP_WAKE (R319, R324): a read or peek that found its port or slot empty is performed, and its strand may issue in this very
cycle. -/
def execLinkPopWake (c t : Nat) (s : State) : Out :=
  .next
    (match (getStrand s c t).wait with
    | some w =>
      let go := fun (n : Nat) (peek : Bool) =>
        match mailWord s w.cx n with
        | some v =>
          modStrand (moveWoken (if peek then s else mailTake s c n) w v peek) c t (fun x => { x with readyFrom := s.now })
        | none => s
      match w.why with
      | .pop n peek => go n peek
      | .slot m peek => go m peek
      | _ => s
    | none => s)

end Sys2Proof.Machine
end

