-- ==== Sys2Proof/Machine/LocalStore.lean ====
section
/-! DEFINITION. Page 2, the scalar local-store instructions (R186, R191, R192) and the banks, with the order and the times of their requests (R178 to R181). -/

namespace Sys2Proof.Machine

/-- What an access gives: the bytes it stores, if any, and the register value, if any (R191, R192). -/
structure LocResult where
  store : Option Nat
  value : Option Word
  deriving DecidableEq, Repr

/-- The register value of `n` bytes (R101). -/
def loadValue (n : Nat) (u : Bool) (old : Nat) : Word := intOut (intIn (wd old) (8 * n) u) (8 * n) u

/-- The effect of an access on the `n` bytes that hold `old` (R191, R192). -/
def locResult (op : LocOp) (n : Nat) (u : Bool) (old : Nat) (data cmp : Word) : LocResult :=
  let m := 2 ^ (8 * n)
  match op with
  | .ld => ⟨none, some (loadValue n u old)⟩
  | .st => ⟨some (data.toNat % m), none⟩
  | .swap => ⟨some (data.toNat % m), some (loadValue n u old)⟩
  | .cas => ⟨if old = cmp.toNat % m then some (data.toNat % m) else none, some (loadValue n u old)⟩
  | .add => ⟨some ((old + data.toNat) % m), some (loadValue n u old)⟩

/-- Perform an access at its bank: the bytes change, and the completion is returned (R191, R192, R95). -/
def performLoc (s : State) (a : LocAcc) : State × Done :=
  let old := ofBytes (lsBytes s a.core a.off a.n)
  let r := locResult a.op a.n a.u old a.data a.cmp
  let s := match r.store with
    | some v => lsWrite s a.core a.off (toBytes a.n v)
    | none => s
  (s, { cx := a.cx, dst := a.dst, val := r.value, ptrs := a.ptrs })

/-! The banks of a store (R178, R179, Table 8.2). -/

/-- The bank of an offset (R178). -/
def bankOf (off : Nat) : Nat := 8 * (off / 0x10000) + off / 16 % 8

/-- A request of the core's own strands (Table 8.2). -/
def isOwn (a : LocAcc) : Bool := a.cx.core == a.core

/-- The access that an event of the pending list is. -/
def locAccOf : Instr → Option LocAcc
  | .localAccessComplete a => some a
  | .meshAccessComplete a => some a
  | _ => none

/-- The accesses under way at the store of core `c`. -/
def accesses (s : State) (c : Nat) : List LocAcc :=
  (s.pend.filterMap (fun x => locAccOf x.2)).filter (fun a => a.core == c)

/-- A request that has reached its bank and has not been served. -/
def waitsAt (a : LocAcc) (now : Nat) : Bool := a.got.isNone && decide (a.reach ≤ now)

/-- A request at the banks of a core's store (R179): the core, the row of Table 8.2, the cycle in which it reached them, the strand
and core that it comes from, and the banks, one bit each. -/
structure BReq where
  core : Nat
  row : Nat
  reach : Nat
  strand : Nat
  from_ : Nat
  banks : Nat
  deriving DecidableEq, Repr

/-- The banks of `n` bytes from an offset on. -/
def bankMask (off n : Nat) : Nat :=
  (List.range (cdiv (off % 16 + n) 16)).foldl (fun m i => m ||| 2 ^ bankOf (off / 16 * 16 + 16 * i)) 0

/-- Whether a bank of core `c` among some is under self-test: accesses to it wait (R407). -/
def bankTested (s : State) (c banks : Nat) : Bool :=
  s.mgmt.testing.any (fun e =>
    match e with
    | .lsBank d b => d == c && banks.testBit b
    | _ => false)

/-- The request that a scalar access makes. -/
def locReq (a : LocAcc) : BReq := ⟨a.core, if isOwn a then 4 else 5, a.reach, a.cx.strand, a.cx.core, bankMask a.off a.n⟩

/-- The rank of a request in a cycle: 1 when it has waited 4 cycles or more (R179). -/
def BReq.rank (q : BReq) (now : Nat) : Nat := if q.reach + 4 ≤ now then 1 else q.row

/-- Whether request `a` is served before request `b` at a bank (R179): by rank, then the first to reach the bank, then by the row of
the table, then by strand and by core. -/
def BReq.beats (now : Nat) (a b : BReq) : Bool :=
  if a.rank now ≠ b.rank now then decide (a.rank now < b.rank now)
  else if a.reach ≠ b.reach then decide (a.reach < b.reach)
  else if a.row ≠ b.row then decide (a.row < b.row)
  else if a.strand ≠ b.strand then decide (a.strand < b.strand)
  else decide (a.from_ < b.from_)

/-- The cycle in which the next run of a move of items has come to its banks: four items a cycle (R151). -/
def ItemMove.reach (m : ItemMove) : Nat := m.base + m.moved / 4

/-- Whether no request of core `c`'s own strands that reached its bank before cycle `reach` is still to be served: they are performed in issue
order (R179). -/
def ownFirst (s : State) (c reach : Nat) : Bool :=
  (accesses s c).all (fun b => !(isOwn b && b.got.isNone && decide (b.reach < reach))) &&
  (getCore s c).moves.all (fun m => decide (reach ≤ m.reach))

/-- Whether it is the turn of an access among the own requests of its core. -/
def ownTurn (s : State) (a : LocAcc) : Bool := !isOwn a || ownFirst s a.core a.reach

/-- The scalar requests at the banks of core `c` in this cycle. -/
def scalarReqs (s : State) (c : Nat) : List BReq :=
  ((accesses s c).filter (fun a => waitsAt a s.now && ownTurn s a)).map locReq

/-- Whether banks of core `c` have served no request in this cycle. -/
def banksFree (s : State) (c banks : Nat) : Bool :=
  let u := (getCore s c).bankUse
  decide (u.1 ≠ s.now) || u.2 &&& banks == 0

/-- Banks of core `c` serve a request in this cycle. -/
def useBanks (s : State) (c banks : Nat) : State :=
  modCore s c (fun k => { k with bankUse := (s.now, if k.bankUse.1 = s.now then k.bankUse.2 ||| banks else banks) })

/-- The pointer an access uses and the width in bytes. -/
def locPtr (s : State) (cx : Ctx) (x : Args) (indexed : Bool) : Word :=
  let n := widthOf x.mod / 8
  let p := ptrVal s cx x.b
  if indexed then advance p (signed 64 (rd s cx x.c).toNat * (n : Int)) else p

/-- The checks of R191 in their order: the pointer and its walk, alignment, then watchpoints. -/
def locChecks (s : State) (cx : Ctx) (p : Word) (n : Nat) (load store : Bool) : Option Bad :=
  firstBad [checkAccess s cx p n, checkAlign p n, watchWalk s cx load store p n]

/-- The event that an access is: on the own core or on another (R180, R181). -/
def locEvent (a : LocAcc) : Instr := if isOwn a then .localAccessComplete a else .meshAccessComplete a

/-- Issue a scalar access (R180, R181): it reaches its bank in cycle c + 3, on another core in cycle c + 6 + h, and is served
there within 10 cycles (R179). Its strand goes on when it has completed (log 7). -/
def startLoc (s : State) (i : Instr) (a : LocAcc) : State :=
  sched (if isOwn a then leavePrompt s i a.cx else leaveFlight s i a.cx) (a.reach + 10) (locEvent a)

/-- The cycle in which an access issued now reaches its bank (R180, R181). -/
def reachAt (s : State) (c d : Nat) : Nat := if c = d then s.now + 3 else s.now + 6 + hops (colOf c) (colOf d)

/-- The body of a scalar access. Whether an `lcas` is watched as a store is decided at its bank (R192). -/
def locBody (op : LocOp) (indexed : Bool) (i : Instr) (x : Args) (s : State) : State :=
  let cx := s.cur
  let n := widthOf x.mod / 8
  let p := locPtr s cx x indexed
  let c := ptrCore p
  let off := ptrOff p
  let data := if op = .st then rd s cx x.a else rd s cx x.c
  orTrap s cx (locChecks s cx p n (op != .st) (op != .ld && op != .cas))
    (startLoc s i
      { cx, op, n, u := unsignedOf x.mod, core := c, off, data, cmp := rd s cx x.a
        dst := if op = .st then .none else x.a, ptrs := incList s cx x.b n x.imm, reach := reachAt s cx.core c })

/-- `ld` (R191). -/
def execLd (x : Args) (s : State) : Out := issue none x s (locBody .ld false (.ld x) x)

/-- `st` (R191). -/
def execSt (x : Args) (s : State) : Out := issue none x s (locBody .st false (.st x) x)

/-- `ldx` (R191). -/
def execLdx (x : Args) (s : State) : Out := issue none x s (locBody .ld true (.ldx x) x)

/-- `stx` (R191). -/
def execStx (x : Args) (s : State) : Out := issue none x s (locBody .st true (.stx x) x)

/-- `lswap` (R192). -/
def execLswap (x : Args) (s : State) : Out := issue none x s (locBody .swap false (.lswap x) x)

/-- `lcas` (R192). -/
def execLcas (x : Args) (s : State) : Out := issue none x s (locBody .cas false (.lcas x) x)

/-- `ladd` (R192). -/
def execLadd (x : Args) (s : State) : Out := issue none x s (locBody .add false (.ladd x) x)

/-- The watchpoint that an `lcas` meets as a store, decided at its bank: a failed one counts as a load only (R192, R143). -/
def casWatch (s : State) (a : LocAcc) : Option Bad :=
  if a.op = .cas ∧ ofBytes (lsBytes s a.core a.off a.n) = a.cmp.toNat % 2 ^ (8 * a.n) then
    (watchHit s a.cx false true (lsAddr a.core a.off).toNat a.n).map (fun i => (0x14, lsAddr a.core (a.off + i)))
  else none

/-- The bank serves an access: it is performed, or a watchpoint stops it, and `wait` cycles later it completes. -/
def serveLoc (s : State) (a : LocAcc) (wait : Nat) : State :=
  let s := useBanks s a.core (locReq a).banks
  match casWatch s a with
  | some (_, info) => sched s (s.now + wait) (locEvent { a with got := some (s.now, none), watched := some info })
  | none =>
    let (s, r) := performLoc s a
    sched s (s.now + wait) (locEvent { a with got := some (s.now, r.val) })

/-- What an access that has been served brings back. -/
def locDone (a : LocAcc) (v : Option Word) : Done := { cx := a.cx, dst := a.dst, val := v, ptrs := a.ptrs }

/-- Complete an access that its strand has not had to wait for (R19): the strand has been in the rotation all the while, and a
write of an s register counts from its issue (R99). -/
def finishPrompt (s : State) (d : Done) (issued : Nat) : State :=
  let s := applyIncs s d.cx d.ptrs
  complete (match d.val with | some v => wrAt s d.cx d.dst v issued | none => s) d.cx

/-- Complete an access that has been served: a watchpoint's trap (R192), or what it brings back. -/
def completeLoc (s : State) (a : LocAcc) (prompt : Bool) (v : Option Word) : State :=
  match a.watched with
  | some info => trapAt s a.cx 0x14 info
  | none => if prompt then finishPrompt s (locDone a v) (a.reach - 3) else finishDone s (locDone a v)

/-- LOCAL_ACCESS_COMPLETE (R180): the bank serves an access to the own core's store, d cycles after it reached the bank, and
BANKLOST grows by d - 2 when d is 3 or more; at the end of cycle c + 5 + d it completes. -/
def execLocalAccessComplete (a : LocAcc) (s : State) : Out :=
  .next
    (match a.got with
    | none => perfAdd (serveLoc s a 2) a.core 3 (s.now - a.reach - 2)
    | some (at_, v) =>
      if stillWaits s a.cx then completeLoc s a (decide (at_ < a.reach + 3)) v else s)

/-- MESH_ACCESS_COMPLETE (R181): the bank of the named core serves the access; 6 + h cycles later it completes. No
BANKLOST counts its delay (log 57). -/
def execMeshAccessComplete (a : LocAcc) (s : State) : Out :=
  .next
    (match a.got with
    | none => serveLoc s a (6 + hops (colOf a.cx.core) (colOf a.core))
    | some (_, v) => if stillWaits s a.cx then completeLoc s a false v else s)

end Sys2Proof.Machine
end

