-- ==== Sys2Proof/Machine/Vector.lean ====
section
/-! DEFINITION. The vector unit (R187 to R200): checks, block order, elements through windows, reductions, gather and
scatter, transposition, and the unit's times. -/

namespace Sys2Proof.Machine

/-- A vector operand as issued: pointer, window, and, through window 3, the byte offset of its next block (R187). -/
structure VOp where
  p : Word
  win : Nat
  off : Nat := 0
  deriving DecidableEq, Repr

/-- The operand of a pointer field. -/
def vop (s : State) (cx : Ctx) (o : Opnd) : VOp :=
  let p := ptrVal s cx o
  { p, win := ptrWin p }

/-- cr.vl.VL (Table 6.4). -/
def vlOf (s : State) (cx : Ctx) : Nat := bits ((getStrand s cx.core cx.strand).get 5) 16 0

/-- Bytes of a walk of `n` elements for the checks: a window-3 block counts 80 bytes (R188). -/
def walkLen (o : VOp) (n : Nat) : Nat := if o.win = 3 then cdiv n 64 * 80 else n * elemSize o.win

/-- The checks of one operand: R96 over its walk, then alignment (R188, R187). -/
def checkVop (s : State) (cx : Ctx) (o : VOp) (n : Nat) : Option Bad :=
  firstBad [checkAccess s cx o.p (walkLen o n), checkAlign o.p (elemAlign o.win)]

/-- Step 1 of R96 alone (R188, VL = 0). -/
def checkReserved (o : VOp) : Option Bad :=
  if !ptrGlb o.p && (bits o.p 63 37 != 0 || decide (12 ≤ ptrSpan o.p) || o.win == 7) then
    some (0x04, lsAddr (ptrCore o.p) (ptrOff o.p))
  else none

/-- The values of `n` elements from element `i`, the bytes a window-3 block takes, and whether it is well formed. -/
def readBlock (s : State) (o : VOp) (i n : Nat) : List FV × Nat × Bool :=
  if o.win = 3 then
    let bs := walkBytes s o.p o.off 80
    let size := 16 * cf8Sectors (nth 0 bs 0)
    match decodeCF8 bs with
    | some es => (es.map (fun b => winDecode 3 b.toNat), size, true)
    | none => (List.replicate 64 (winDecode 3 0x7F), size, false)
  else
    let e := elemSize o.win
    ((List.range n).map (fun j => winDecode o.win (ofBytes (walkBytes s o.p ((i + j) * e) e))), 0, true)

/-- Store elements from element `i`: the state and the bytes a window-3 block takes (R190, R77). -/
def writeBlock (s : State) (o : VOp) (i : Nat) (r : Rnd) (sat : Bool) (vs : List FV) : State × Nat :=
  if o.win = 3 then
    let bs := encodeCF8 (vs.map (fun v => BitVec.ofNat 8 (winEncode 3 r sat v)))
    (walkWrite s o.p o.off bs, bs.length)
  else
    let e := elemSize o.win
    (walkWrite s o.p (i * e) (vs.flatMap (fun v => toBytes e (winEncode o.win r sat v))), 0)

/-- Read a block of every source; the sources advance past their blocks and a bad block is reported. -/
def readSources (s : State) (i n : Nat) : List VOp → List (List FV) × List VOp × Bool
  | [] => ([], [], true)
  | o :: os =>
    let (vs, size, ok) := readBlock s o i n
    let (vss, os', ok') := readSources s i n os
    (vs :: vss, { o with off := o.off + size } :: os', ok && ok')

/-- The element values at position `j` of every source. -/
def column (vss : List (List FV)) (j : Nat) : List FV := vss.map (fun vs => nth pzero vs j)

/-- Lanes and block size (R189). -/
def lanes (ops : List VOp) : Nat := if ops.any (fun o => o.win == 0) then 32 else 64
def blockSize (ops : List VOp) : Nat := if ops.any (fun o => o.win == 3) then 64 else lanes ops

/-- The spans of a walk of `len` bytes from byte `i` on, each on one core: core, offset and bytes. A span ends where that of its
core does (R94). -/
def walkSpans (p : Word) : Nat → Nat → Nat → List (Nat × Nat × Nat)
  | 0, _, _ => []
  | fuel + 1, i, len =>
    if len = 0 then []
    else
      let q := advance p (i : Int)
      let b := min (ptrSpan p + 8) 19
      let n := min len (2 ^ b - bits q (b - 1) 0)
      (ptrCore q, ptrOff q, n) :: walkSpans p fuel (i + n) (len - n)

/-- The spans of a stretch of a walk: pointer, first byte, bytes. -/
def spansOf (x : Word × Nat × Nat) : List (Nat × Nat × Nat) := walkSpans x.1 (cdiv x.2.2 256 + 1) x.2.1 x.2.2

/-- The bank words that stretches of walks use, by core and number (R178): each stretch uses its words once. -/
def bankWords (l : List (Word × Nat × Nat)) : List (Nat × Nat) :=
  (l.flatMap spansOf).flatMap (fun x => (List.range (cdiv (x.2.1 % 16 + x.2.2) 16)).map (fun i => (x.1, x.2.1 / 16 + i)))

/-- Whether two bank words lie in one bank. -/
def sameBank (w v : Nat × Nat) : Bool := w.1 == v.1 && bankOf (16 * w.2) == bankOf (16 * v.2)

/-- The cycles that the banks take to serve bank words which nothing else keeps waiting: one word of a bank in a cycle (R178). -/
def runWidth (ws : List (Nat × Nat)) : Nat := (ws.map (fun w => (ws.filter (sameBank w)).length)).foldl max 1

/-- The cycles by which a run that came to its banks in cycle `at_` and has now been served is late (R179): what its own words take one after
another is no delay (log 1). -/
def runLate (s : State) (at_ : Nat) (l : List (Word × Nat × Nat)) : Nat := s.now + 1 - (at_ + runWidth (bankWords l))

/-- The mesh delay of an operand whose bytes lie on the given cores: 12 + 2h for elements on other cores and a cycle per 64 bytes
across the ring (R189). -/
def meshCost (cx : Ctx) (parts : List (Nat × Nat)) : Nat :=
  let far := parts.filter (fun x => x.1 != cx.core && x.2 != 0)
  let h := far.foldl (fun m x => max m (hops (colOf cx.core) (colOf x.1))) 0
  let bytes := (far.map (fun x => x.2)).foldl (· + ·) 0
  if far.isEmpty then 0 else 12 + 2 * h + cdiv bytes 64

/-! What an instruction of the unit does, by its form. -/

/-- The course of a vector instruction (R189, R195, R196, R199, R200). -/
inductive VShape where
  | elem | copy | reduce | gather | scatter | trans
  deriving DecidableEq, Repr

/-- The course of an instruction. -/
def vecShape : Instr → VShape
  | .vcpy _ => .copy
  | .vsum _ => .reduce
  | .vrmax _ => .reduce
  | .vrmin _ => .reduce
  | .vdot _ => .reduce
  | .vgath _ => .gather
  | .vscat _ => .scatter
  | .vtrans _ => .trans
  | _ => .elem

/-- The operand fields that an element-wise instruction or a reduction reads, by number: 0 is the destination's. -/
def vecSrcs : Instr → List Nat
  | .vadd _ => [1, 2]
  | .vsub _ => [1, 2]
  | .vmul _ => [1, 2]
  | .vmin _ => [1, 2]
  | .vmax _ => [1, 2]
  | .vcmp _ => [1, 2]
  | .vdot _ => [1, 2]
  | .vfma _ => [1, 2, 0]
  | .vsel _ => [1, 2, 0]
  | .vfill _ => []
  | _ => [1]

/-- The scalar operand of an instruction (R197). -/
def vecScalar (i : Instr) : Opnd :=
  match i with
  | .vscal x => x.c
  | .vclamp x => x.c
  | .vfill x => x.b
  | _ => .none

/-- The first, second and third value. -/
def v0 (l : List FV) : FV := nth pzero l 0
def v1 (l : List FV) : FV := nth pzero l 1
def v2 (l : List FV) : FV := nth pzero l 2

/-- The condition that the modifier of `vcmp` names (R198). -/
def vcond (mod : BitVec 3) : FCond :=
  match mod.toNat with
  | 0 => .eq
  | 1 => .ne
  | 2 => .lt
  | 3 => .le
  | _ => .un

/-- The value of an element from those of its sources, in the order of `vecSrcs`, and the scalar operand: R193, R194, R197, R198, and for
the reductions what R196 combines. -/
def vecValue (i : Instr) (g : Word) (l : List FV) : FV :=
  let r := rndOf (argsOf i).mod.toNat
  match i with
  | .vadd _ => rnd32 r (FV.add r (v0 l) (v1 l))
  | .vsub _ => rnd32 r (FV.add r (v0 l) (v1 l).neg)
  | .vmul _ => rnd32 r ((v0 l).mul (v1 l))
  | .vfma _ => rnd32 r (FV.add r ((v0 l).mul (v1 l)) (v2 l))
  | .vmin _ => (v0 l).min78 (v1 l)
  | .vmax _ => (v0 l).max78 (v1 l)
  | .vabs _ => (v0 l).abs
  | .vneg _ => (v0 l).neg
  | .vexp _ => expNat (v0 l)
  | .vrcp _ => recip (v0 l)
  | .vrsq _ => rsqrt (v0 l)
  | .vscal _ => rnd32 r ((v0 l).mul (fpOf g))
  | .vfill _ => fpOf g
  | .vclamp _ => ((v0 l).max78 (fpOf g)).min78 (fpOf (wd (bits g 63 32)))
  | .vcmp x => if (vcond x.mod).holds (v0 l) (v1 l) then one else pzero
  | .vsel _ => if (v2 l).isZero.isSome then v1 l else v0 l
  | .vdot _ => rnd32 r ((v0 l).mul (v1 l))
  | _ => v0 l

/-- `.sat` of Table 8.5. -/
def satOf (mod : BitVec 3) : Bool := mod.getLsbD 2

/-- Rounding and saturation of the store: the modifier of `vcmp` is its condition (R190, R198). -/
def vecStore (i : Instr) : Rnd × Bool :=
  match i with
  | .vcmp _ => (.ne, false)
  | _ => (rndOf (argsOf i).mod.toNat, satOf (argsOf i).mod)

/-! Reductions (R82, R196). -/

/-- One level of the tree: neighbours combined, an absent right partner passed over. -/
def pairUp (op : FV → FV → FV) : List FV → List FV
  | a :: b :: t => op a b :: pairUp op t
  | l => l

/-- The five levels of one block. -/
def treeBlock (op : FV → FV → FV) (l : List FV) : Option FV :=
  (pairUp op (pairUp op (pairUp op (pairUp op (pairUp op l))))).head?

/-- Reduce (R82): blocks of 32 in address order. -/
def reduceLoop (op : FV → FV → FV) : Nat → Option FV → List FV → Option FV
  | 0, r, _ => r
  | fuel + 1, r, l =>
    match treeBlock op (l.take 32), r with
    | some v, some w => reduceLoop op fuel (some (op w v)) (l.drop 32)
    | some v, none => reduceLoop op fuel (some v) (l.drop 32)
    | none, r => r

def reduce (op : FV → FV → FV) (l : List FV) : Option FV := reduceLoop op (cdiv l.length 32) none l

/-- The stored NaN of a reduction is that of arithmetic, with sign 0 (R64). -/
def arithNan (v : FV) : FV := if v.isNan then .nan false else v

/-- A rounded sum (R82). -/
def sumOp (r : Rnd) (a b : FV) : FV := rnd32 r (FV.add r a b)

/-- What a reduction combines with, and its value for no element (R196). -/
def reduceOf (i : Instr) : (FV → FV → FV) × FV :=
  match i with
  | .vrmax _ => (FV.max78, .nan false)
  | .vrmin _ => (FV.min78, .nan false)
  | _ => (sumOp (rndOf (argsOf i).mod.toNat), pzero)

/-! The unit's queue (R189). -/

/-- The queue of a unit: `su` tells the two apart. -/
def Core.unitQ (k : Core) (su : Bool) : List UJob := if su then k.suQ else k.vuQ

/-- Change the queue of a unit. -/
def modUnit (s : State) (c : Nat) (su : Bool) (f : List UJob → List UJob) : State :=
  modCore s c (fun k => if su then { k with suQ := f k.suQ } else { k with vuQ := f k.vuQ })

/-- The instruction with a context changed, in the queue of a unit. -/
def putJob (s : State) (su : Bool) (j : UJob) : State :=
  modUnit s j.cx.core su (fun q => q.map (fun f => if f.cx = j.cx then j else f))

/-- A unit is done with the instruction in a context. -/
def dropJob (s : State) (su : Bool) (cx : Ctx) : State := modUnit s cx.core su (fun q => q.filter (fun j => j.cx != cx))

/-! The runs of an instruction. -/

/-- Operand `k` of an instruction under way, at the place that its window-3 blocks have reached: `slot` says where that stands. -/
def UJob.op (j : UJob) (k slot : Nat) : VOp :=
  let p := nth 0 j.ps k
  { p, win := ptrWin p, off := nth 0 j.offs slot }

/-- The destination, and the sources, of an element-wise instruction or a reduction. -/
def UJob.dst (j : UJob) : VOp := j.op 0 0
def UJob.srcs (j : UJob) : List VOp :=
  let l := vecSrcs j.instr
  (List.range l.length).map (fun i => j.op (nth 0 l i) (i + 1))

/-- The operands that set the lanes and the block size (R189). -/
def UJob.operands (j : UJob) : List VOp := j.dst :: (vecSrcs j.instr).filterMap (fun k => if k = 0 then none else some (j.op k 0))

/-- Bytes of the larger element of `vtrans` (R200). -/
def UJob.transSize (j : UJob) : Nat := max (elemSize (j.op 0 0).win) (elemSize (j.op 1 0).win)

/-- Elements of a block (R189, R195, R200); `vgath` and `vscat`, whose index words have 4 bytes, have 32 lanes. -/
def UJob.block (j : UJob) : Nat :=
  match vecShape j.instr with
  | .copy => 128
  | .gather => 32
  | .scatter => 32
  | .trans => 128 / j.transSize
  | _ => blockSize j.operands

/-- The number of blocks. -/
def UJob.blocks (j : UJob) : Nat := cdiv j.vl j.block

/-- The number of runs: the blocks, with the index pass before them, the result behind them, or once to read and once to write. -/
def UJob.runs (j : UJob) : Nat :=
  match vecShape j.instr with
  | .reduce => j.blocks + 1
  | .gather => 2 * j.blocks
  | .scatter => 2 * j.blocks
  | .trans => 2 * j.blocks
  | _ => j.blocks

/-- Window-3 operands. -/
def UJob.cf8s (j : UJob) : Nat := (j.operands.filter (fun o => o.win == 3)).length

/-- The cycles from the first run to run `k` (R189, R195, R199, R200). -/
def UJob.runAt (j : UJob) (k : Nat) : Nat :=
  match vecShape j.instr with
  | .copy => k
  | .trans => k
  | .gather => if k ≤ j.blocks then k else j.blocks + (k - j.blocks) * 4
  | .scatter => if k ≤ j.blocks then k else j.blocks + (k - j.blocks) * 4
  | _ => k * (j.block / lanes j.operands + j.cf8s)

/-- The cycles that an instruction takes beyond 6 (R189, R195, R199, R200). -/
def UJob.cycles (j : UJob) : Nat :=
  match vecShape j.instr with
  | .copy => j.blocks
  | .trans => 2 * j.blocks
  | .gather => j.blocks + cdiv j.vl 8
  | .scatter => j.blocks + cdiv j.vl 8
  | _ => j.blocks * j.block / lanes j.operands + j.blocks * j.cf8s

/-- The first element and the number of elements of block `k`. -/
def UJob.part (j : UJob) (k : Nat) : Nat × Nat := (k * j.block, min j.block (j.vl - k * j.block))

/-- The stretch of an operand that holds `n` elements from element `i`: a window-3 block as its header says, or 80 bytes of a
destination. -/
def blockStretch (s : State) (o : VOp) (dst : Bool) (i n : Nat) : Word × Nat × Nat :=
  if o.win = 3 then (o.p, o.off, if dst then 80 else 16 * cf8Sectors (nth 0 (walkBytes s o.p o.off 1) 0))
  else (o.p, i * elemSize o.win, n * elemSize o.win)

/-- The pointer of table element `idx`. -/
def tableAt (o : VOp) (idx : Nat) : Word := advance o.p (idx * elemSize o.win)

/-- The table and data operands of a gather or scatter (R199). -/
def UJob.table (j : UJob) : VOp := j.op (if vecShape j.instr = .gather then 1 else 0) 0
def UJob.data (j : UJob) : VOp := j.op (if vecShape j.instr = .gather then 0 else 1) 0

/-- The stretches that run `k` reads or writes. -/
def UJob.stretches (s : State) (j : UJob) (k : Nat) : List (Word × Nat × Nat) :=
  let (i, n) := j.part k
  let table := fun (k : Nat) =>
    let (i, n) := j.part k
    blockStretch s j.data false i n :: ((j.got.drop i).take n).map (fun x => (tableAt j.table x, 0, elemSize j.table.win))
  match vecShape j.instr with
  | .elem => blockStretch s j.dst true i n :: j.srcs.map (fun o => blockStretch s o false i n)
  | .copy => [(nth 0 j.ps 1, i, n), (nth 0 j.ps 0, i, n)]
  | .reduce => if k < j.blocks then j.srcs.map (fun o => blockStretch s o false i n) else [(j.dst.p, 0, elemSize j.dst.win)]
  | .gather => if k < j.blocks then [(nth 0 j.ps 2, 4 * i, 4 * n)] else table (k - j.blocks)
  | .scatter => if k < j.blocks then [(nth 0 j.ps 2, 4 * i, 4 * n)] else table (k - j.blocks)
  | .trans =>
    let (i, n) := j.part (k % j.blocks)
    let e := elemSize (j.op (if k < j.blocks then 1 else 0) 0).win
    [((j.op (if k < j.blocks then 1 else 0) 0).p, i * e, n * e)]

/-- Advance the places of the window-3 blocks: the destination's by `d`, the sources' to those of `os`. -/
def UJob.passed (j : UJob) (d : Nat) (os : List VOp) : UJob := { j with offs := (j.dst.off + d) :: os.map (fun o => o.off) }

/-- One block of an element-wise instruction: every source is read before a result is written (R189). -/
def elemBlock (s : State) (j : UJob) (i n : Nat) : State × UJob :=
  let (vss, os, ok) := readSources s i n j.srcs
  let s := if ok then s else setCF8E s j.cx
  let (r, sat) := vecStore j.instr
  let (s, size) := writeBlock s j.dst i r sat ((List.range n).map (fun e => vecValue j.instr j.g (column vss e)))
  (s, j.passed size os)

/-- One block of a reduction: what it combines is kept as FP32 (R196). -/
def reduceBlock (s : State) (j : UJob) (i n : Nat) : State × UJob :=
  let (vss, os, ok) := readSources s i n j.srcs
  let s := if ok then s else setCF8E s j.cx
  let vs := (List.range n).map (fun e => (bits32 (vecValue j.instr j.g (column vss e))).toNat)
  (s, { j.passed 0 os with got := j.got ++ vs })

/-- The result of a reduction (R196). -/
def reduceResult (j : UJob) : FV :=
  let (op, empty) := reduceOf j.instr
  arithNan ((reduce op (j.got.map (fun v => val32 (BitVec.ofNat 32 v)))).getD empty)

/-- Scatter elements in ascending order, so that the highest index of duplicates stands (R199). -/
def scatter (o : VOp) (r : Rnd) (sat : Bool) : List (Nat × FV) → State → State
  | [], s => s
  | (idx, v) :: t, s => scatter o r sat t (walkWrite s (tableAt o idx) 0 (toBytes (elemSize o.win) (winEncode o.win r sat v)))

/-- One block of a gather or scatter (R199). -/
def tableBlock (s : State) (j : UJob) (i n : Nat) : State :=
  let (r, sat) := vecStore j.instr
  let idx := (j.got.drop i).take n
  let e := elemSize j.table.win
  if vecShape j.instr = .gather then
    (writeBlock s j.data i r sat (idx.map (fun k => winDecode j.table.win (ofBytes (walkBytes s (tableAt j.table k) 0 e))))).1
  else scatter j.table r sat (idx.zip (readBlock s j.data i n).1) s

/-- The check of a table element (R199, the first pass). -/
def checkElem (s : State) (cx : Ctx) (o : VOp) (idx : Nat) : Option Bad :=
  let q := tableAt o idx
  firstBad [checkWalk s cx q 0 (elemSize o.win), checkAlign q (elemAlign o.win)]

/-- The watchpoints on the walks of a gather or scatter, behind all its other checks (R188 step 4). -/
def tableWatches (s : State) (j : UJob) : Option Bad :=
  let gather := vecShape j.instr == .gather
  firstBad
    ([watchWalk s j.cx (!gather) gather j.data.p (walkLen j.data j.vl), watchWalk s j.cx true false (nth 0 j.ps 2) (4 * j.vl)] ++
      j.got.map (fun k => watchWalk s j.cx gather (!gather) (tableAt j.table k) (elemSize j.table.win)))

/-- A block of the index pass (R199): its indices are read, and each table element that they address is checked; behind the last
block come the watchpoints. The first failure traps, with nothing written. -/
def indexBlock (s : State) (j : UJob) (k : Nat) : State × UJob :=
  let (i, n) := j.part k
  let idx := (List.range n).map (fun e => ofBytes (walkBytes s (nth 0 j.ps 2) (4 * (i + e)) 4))
  let j := { j with got := j.got ++ idx }
  match firstBad (idx.map (checkElem s j.cx j.table) ++ (if k + 1 = j.blocks then [tableWatches s j] else [])) with
  | some (cause, info) => (trapAt (dropJob s false j.cx) j.cx cause info, j)
  | none => (s, j)

/-- A run of `vtrans` (R200): codes of the source are read, and then results written. -/
def transBlock (s : State) (j : UJob) (k : Nat) : State × UJob :=
  let (i, n) := j.part (k % j.blocks)
  let a := j.op 1 0
  let e := elemSize a.win
  if k < j.blocks then
    (s, { j with got := j.got ++ (List.range n).map (fun x => ofBytes (walkBytes s a.p ((i + x) * e) e)) })
  else
    let c := (argsOf j.instr).imm.toNat
    let rows := j.vl / c
    let (r, sat) := vecStore j.instr
    let vs := (List.range n).map (fun x => winDecode a.win (nth 0 j.got ((i + x) % rows * c + (i + x) / rows)))
    ((writeBlock s (j.op 0 0) i r sat vs).1, j)

/-- Run `k` of a vector instruction. -/
def vecRun (s : State) (j : UJob) (k : Nat) : State × UJob :=
  let (i, n) := j.part k
  match vecShape j.instr with
  | .elem => elemBlock s j i n
  | .copy => (walkWrite s (nth 0 j.ps 0) i (walkBytes s (nth 0 j.ps 1) i n), j)
  | .reduce =>
    if k < j.blocks then reduceBlock s j i n
    else
      let (r, sat) := vecStore j.instr
      ((writeBlock s j.dst 0 r sat [reduceResult j]).1, j)
  | .gather => if k < j.blocks then indexBlock s j k else (tableBlock s j (j.part (k - j.blocks)).1 (j.part (k - j.blocks)).2, j)
  | .scatter => if k < j.blocks then indexBlock s j k else (tableBlock s j (j.part (k - j.blocks)).1 (j.part (k - j.blocks)).2, j)
  | .trans => transBlock s j k

/-- The bytes of the walk of an operand that has been gone through, by core. -/
def opParts (o : VOp) (len : Nat) : List (Nat × Nat) := (spansOf (o.p, 0, len)).map (fun x => (x.1, x.2.2))

/-- The bytes that `vl` elements of an operand have taken. -/
def doneLen (o : VOp) (vl : Nat) : Nat := if o.win = 3 then o.off else vl * elemSize o.win

/-- The mesh delay of an instruction whose runs are made (R189): each operand counts once, and so does each table. -/
def vecMesh (j : UJob) : Nat :=
  let one := fun (o : VOp) (len : Nat) => meshCost j.cx (opParts o len)
  let table := meshCost j.cx (j.got.map (fun x => (ptrCore (tableAt j.table x), elemSize j.table.win)))
  let raw := fun (k : Nat) (len : Nat) => meshCost j.cx (opParts { p := nth 0 j.ps k, win := 1 } len)
  match vecShape j.instr with
  | .copy => raw 0 j.vl + raw 1 j.vl
  | .gather => one j.data (doneLen j.data j.vl) + raw 2 (4 * j.vl) + table
  | .scatter => one j.data (doneLen j.data j.vl) + raw 2 (4 * j.vl) + table
  | .trans => one (j.op 0 0) (doneLen (j.op 0 0) j.vl) + one (j.op 1 0) (doneLen (j.op 1 0) j.vl)
  | _ =>
    let l := (j.srcs.zip (vecSrcs j.instr)).filter (fun x => x.2 != 0)
    one j.dst (if vecShape j.instr = .reduce then elemSize j.dst.win else doneLen j.dst j.vl) +
      (l.map (fun x => one x.1 (doneLen x.1 j.vl))).foldl (· + ·) 0

/-! The unit's course (R189). -/

/-- The units give up the instruction of a strand that is ended: no further run of it is made, and a bank that it has latched is let
go (log 7). -/
def dropUnits (s : State) (cx : Ctx) : State :=
  let s := dropJob (dropJob s false cx) true cx
  { s with tables := { s.tables with latched := s.tables.latched.filter (fun x => x.2.2 != cx) } }

/-- The vector unit begins an instruction: its runs count from one of the next cycles, and with none it only takes its time (R189,
log 1). -/
def startVec (s : State) (j : UJob) : State :=
  let j := { j with started := true, base := s.now + pickN s 2 0 6, due := s.now + 6 + j.cycles }
  let s := putJob s false j
  if j.runs = 0 then sched s j.due (.vectorComplete { cx := j.cx }) else s

/-- The vector unit takes an instruction (R189): its strand is Waiting until it completes, and it begins at once when the unit is
free. -/
def vuTake (s : State) (j : UJob) : State :=
  let free := (getCore s j.cx.core).vuQ.isEmpty
  let s := modUnit (leaveFlight s j.instr j.cx) j.cx.core false (fun q => q ++ [j])
  if free then startVec s j else s

/-- A run of a vector instruction is made: the rest comes as much later as its banks have delayed it, and behind the last one the
completion is due (R189). -/
def afterRun (s : State) (j : UJob) : State :=
  let at_ := j.base + j.runAt j.blk
  let late := runLate s at_ (j.stretches s j.blk)
  let (s, k) := vecRun s j j.blk
  let k := { k with blk := j.blk + 1, base := j.base + (s.now - at_), due := j.due + late, done := [] }
  let s := putJob s false k
  if k.blk < k.runs then s else sched s (max (k.due + vecMesh k) s.now) (.vectorComplete { cx := k.cx })

/-- The operands of an instruction as issued. -/
def vecJob (s : State) (cx : Ctx) (i : Instr) : UJob :=
  let x := argsOf i
  { instr := i, cx, vl := vlOf s cx, ps := [ptrVal s cx x.a, ptrVal s cx x.b, ptrVal s cx x.c], g := rd s cx (vecScalar i) }

/-! Checks and issue. -/

/-- The length check of R188: VL, window 3, and the entry's own shape. -/
def lengthBad (vl : Nat) (ops : List VOp) (shape : Bool) : Bool :=
  decide (65536 < vl) || (ops.any (fun o => o.win == 3) && vl % 64 != 0) || shape

/-- The operand fields of an instruction in field order, with what they are used for: whether read, whether written. -/
def vecFields (i : Instr) : List (Nat × Bool × Bool) :=
  (0, (vecSrcs i).contains 0, true) :: ((vecSrcs i).filter (fun k => k != 0)).map (fun k => (k, true, false))

/-- An element-wise instruction (R188, R189). -/
def elementwise (i : Instr) (s : State) : State :=
  let cx := s.cur
  let j := vecJob s cx i
  let vl := j.vl
  let ops := j.operands
  if lengthBad vl ops false then trapAt s cx 0x11 0
  else if vl = 0 then orTrap s cx (firstBad (ops.map checkReserved)) (vuTake s j)
  else
    orTrap s cx
      (firstBad (ops.map (fun o => checkVop s cx o vl) ++
        (vecFields i).map (fun x => watchWalk s cx x.2.1 x.2.2 (j.op x.1 0).p (walkLen (j.op x.1 0) vl))))
      (vuTake s j)

/-- `vadd` (R193). -/
def execVadd (x : Args) (s : State) : Out := issue none x s (elementwise (.vadd x))

/-- `vsub` (R193). -/
def execVsub (x : Args) (s : State) : Out := issue none x s (elementwise (.vsub x))

/-- `vmul` (R193). -/
def execVmul (x : Args) (s : State) : Out := issue none x s (elementwise (.vmul x))

/-- `vfma` (R193). -/
def execVfma (x : Args) (s : State) : Out := issue none x s (elementwise (.vfma x))

/-- `vmin` (R193). -/
def execVmin (x : Args) (s : State) : Out := issue none x s (elementwise (.vmin x))

/-- `vmax` (R193). -/
def execVmax (x : Args) (s : State) : Out := issue none x s (elementwise (.vmax x))

/-- `vabs` (R194). -/
def execVabs (x : Args) (s : State) : Out := issue none x s (elementwise (.vabs x))

/-- `vneg` (R194). -/
def execVneg (x : Args) (s : State) : Out := issue none x s (elementwise (.vneg x))

/-- `vexp` (R194). -/
def execVexp (x : Args) (s : State) : Out := issue none x s (elementwise (.vexp x))

/-- `vrcp` (R194). -/
def execVrcp (x : Args) (s : State) : Out := issue none x s (elementwise (.vrcp x))

/-- `vrsq` (R194). -/
def execVrsq (x : Args) (s : State) : Out := issue none x s (elementwise (.vrsq x))

/-- `vcvt` (R194). -/
def execVcvt (x : Args) (s : State) : Out := issue none x s (elementwise (.vcvt x))

/-- `vcpy` (R195); at VL = 0 it counts as element-wise (log 8). -/
def execVcpy (x : Args) (s : State) : Out :=
  issue none x s (fun s =>
    let cx := s.cur
    let j := vecJob s cx (.vcpy x)
    let vl := j.vl
    let d := vop s cx x.a
    let a := vop s cx x.b
    if 65536 < vl then trapAt s cx 0x11 0
    else if vl = 0 then orTrap s cx (firstBad [checkReserved d, checkReserved a]) (vuTake s j)
    else
      orTrap s cx
        (firstBad [checkAccess s cx d.p vl, checkAccess s cx a.p vl, watchWalk s cx false true d.p vl,
          watchWalk s cx true false a.p vl])
        (vuTake s j))

/-- A reduction (R196). -/
def reduction (i : Instr) (s : State) : State :=
  let cx := s.cur
  let j := vecJob s cx i
  let d := j.dst
  let srcs := j.srcs
  if lengthBad j.vl srcs (d.win == 3) then trapAt s cx 0x11 0
  else
    orTrap s cx
      (firstBad ([checkVop s cx d 1] ++ srcs.map (fun o => checkVop s cx o j.vl) ++
        [watchWalk s cx false true d.p (walkLen d 1)] ++
        srcs.map (fun o => watchWalk s cx true false o.p (walkLen o j.vl))))
      (vuTake s j)

/-- `vsum` (R196). -/
def execVsum (x : Args) (s : State) : Out := issue none x s (reduction (.vsum x))

/-- `vrmax` (R196). -/
def execVrmax (x : Args) (s : State) : Out := issue none x s (reduction (.vrmax x))

/-- `vrmin` (R196). -/
def execVrmin (x : Args) (s : State) : Out := issue none x s (reduction (.vrmin x))

/-- `vdot` (R196). -/
def execVdot (x : Args) (s : State) : Out := issue none x s (reduction (.vdot x))

/-- `vscal` (R197). -/
def execVscal (x : Args) (s : State) : Out := issue none x s (elementwise (.vscal x))

/-- `vfill` (R197). -/
def execVfill (x : Args) (s : State) : Out := issue none x s (elementwise (.vfill x))

/-- `vclamp` (R197). -/
def execVclamp (x : Args) (s : State) : Out := issue none x s (elementwise (.vclamp x))

/-- `vcmp` (R198). -/
def execVcmp (x : Args) (s : State) : Out := issue none x s (elementwise (.vcmp x))

/-- `vsel` (R198). -/
def execVsel (x : Args) (s : State) : Out := issue none x s (elementwise (.vsel x))

/-! Gather, scatter and transposition (R199, R200). -/

/-- A gather or scatter (R199): the operands are checked at issue, and each table element in the index pass, which reads the indices;
at VL = 0 it counts as element-wise (log 8). -/
def gatherBody (gather : Bool) (i : Instr) (x : Args) (s : State) : State :=
  let cx := s.cur
  let j := vecJob s cx i
  let vl := j.vl
  let table := vop s cx (if gather then x.b else x.a)
  let data := vop s cx (if gather then x.a else x.b)
  let index := vop s cx x.c
  if 65536 < vl || table.win == 3 || data.win == 3 then trapAt s cx 0x11 0
  else if vl = 0 then orTrap s cx (firstBad ([vop s cx x.a, vop s cx x.b, index].map checkReserved)) (vuTake s j)
  else
    orTrap s cx
      (firstBad [checkVop s cx data vl, checkAccess s cx index.p (4 * vl), checkAlign index.p 4, checkPtr s cx table.p])
      (vuTake s j)

/-- `vgath` (R199). -/
def execVgath (x : Args) (s : State) : Out := issue none x s (gatherBody true (.vgath x) x)

/-- `vscat` (R199). -/
def execVscat (x : Args) (s : State) : Out := issue none x s (gatherBody false (.vscat x) x)

/-- `vtrans` (R200): every source element is read first; at VL = 0 it counts as element-wise (log 8). -/
def execVtrans (x : Args) (s : State) : Out :=
  issue none x s (fun s =>
    let cx := s.cur
    let j := vecJob s cx (.vtrans x)
    let vl := j.vl
    let c := x.imm.toNat
    let d := vop s cx x.a
    let a := vop s cx x.b
    if c = 0 || vl % c != 0 || 4096 < vl || d.win == 3 || a.win == 3 then trapAt s cx 0x11 0
    else if vl = 0 then orTrap s cx (firstBad [checkReserved d, checkReserved a]) (vuTake s j)
    else
      orTrap s cx
        (firstBad [checkVop s cx d vl, checkVop s cx a vl, watchWalk s cx false true d.p (walkLen d vl),
          watchWalk s cx true false a.p (walkLen a vl)])
        (vuTake s j))

/-- VECTOR_COMPLETE (R189): the unit is done and the strand rejoins. -/
def execVectorComplete (d : Done) (s : State) : Out :=
  .next
    (let s := dropJob s false d.cx
     if stillWaits s d.cx then finishDone s d else s)

end Sys2Proof.Machine
end

