-- ==== Sys2Proof/Machine/Matrix.lean ====
section
/-! DEFINITION. The matrix queue, the accumulator tiles, the latch slots and the shuttle ring (R201 to R215, R222 to R228), and the
correction of products (R289, R296). -/

namespace Sys2Proof.Machine

/-! Cells and slots. -/

/-- Cell C[m][n] of a tile (R201). -/
def getCell (k : Core) (tile m n : Nat) : BitVec 32 := getK 0 (getK [] k.acc tile) (m * 64 + n)

/-- Compute every cell of a tile anew from its coordinates and value. -/
def mapTile (k : Core) (tile : Nat) (f : Nat → Nat → BitVec 32 → BitVec 32) : Core :=
  let old := getK [] k.acc tile
  let new := (List.range 4096).filterMap (fun i =>
    let v := f (i / 64) (i % 64) (getK 0 old i)
    if v = 0 then none else some (i, v))
  { k with acc := setK k.acc tile new }

/-- The cells below M and N computed anew, the others kept. -/
def mapPart (k : Core) (tile m n : Nat) (f : Nat → Nat → BitVec 32 → BitVec 32) : Core :=
  mapTile k tile (fun i j v => if i < m && j < n then f i j v else v)

/-- Set every cell of the tiles in a mask to +0 (R201). -/
def zeroTiles (k : Core) (mask : Nat) : Core :=
  { k with acc := k.acc.filter (fun x => !mask.testBit x.1) }

def getLatch (s : State) (c j : Nat) : Latch := getK {} (getCore s c).latch j

def modLatch (s : State) (c j : Nat) (f : Latch → Latch) : State :=
  modCore s c (fun k => { k with latch := setK k.latch j (f (getK {} k.latch j)) })

/-- Shuttle size of a format (R209). -/
def shuttleSize (fmt : Nat) : Nat := if 5 ≤ fmt then 8192 else 4096

/-! What an entry names. -/

def MEnt.tilesRead (e : MEnt) : List Nat :=
  match e.kind with
  | .mma | .mmas | .mst | .mlda | .mcorr => [e.tile]
  | .macc => [e.tile, e.tile2]
  | _ => []

def MEnt.tilesWritten (e : MEnt) : List Nat :=
  match e.kind with
  | .mma | .mmas | .mza | .mlda | .mcorr | .macc => [e.tile]
  | _ => []

def MEnt.tiles (e : MEnt) : List Nat := e.tilesRead ++ e.tilesWritten

def MEnt.slotRead (e : MEnt) : Bool :=
  match e.kind with
  | .mma | .mmas | .mcorr | .mrot => true
  | _ => false

def MEnt.slotWritten (e : MEnt) : Bool :=
  match e.kind with
  | .mldb | .mdrop | .mrot => true
  | _ => false

def MEnt.namesSlot (e : MEnt) : Bool := e.slotRead || e.slotWritten

/-- Whether a tile's lock bit is 1 (R203): an entry in the queue, or a direct one waiting for a place, names it. -/
def tileLocked (k : Core) (t : Nat) : Bool :=
  k.mq.any (fun e => e.tiles.contains t) || k.mqWait.any (fun e => e.tiles.contains t)

/-- The lock bits of acc0 to acc7. -/
def lockBits (k : Core) : Nat :=
  (List.range 8).foldl (fun a i => if tileLocked k i then a + 2 ^ i else a) 0

/-! Shapes, formats and checks. -/

/-- 64 - 16 * code (R211). -/
def dim (imm : Word) (lo : Nat) : Nat := 64 - 16 * bits imm (lo + 1) lo

/-- Table 9.3: whether an A window pairs with a slot format. -/
def pairOk (kind : MKind) (win fmt : Nat) : Bool :=
  match win with
  | 1 | 2 => fmt == 1 || fmt == 2
  | 3 => kind == .mma && (fmt == 1 || fmt == 2)
  | 4 => fmt == 4
  | 5 => fmt == 5
  | 6 => fmt == 6
  | _ => false

/-- The number of elements of an entry's walk, by rows and row length (R213). -/
def MEnt.rows (e : MEnt) : Nat :=
  match e.kind with
  | .mldb => e.k
  | _ => e.m

def MEnt.rowLen (e : MEnt) : Nat :=
  match e.kind with
  | .mma => e.k
  | .mmas => e.k / 2
  | _ => e.n

/-- Bytes of an entry's walk for the region checks (R213, R188, R296). -/
def MEnt.walk (e : MEnt) : Nat :=
  match e.kind with
  | .mcorr => 8 + 8 * e.count
  | .mrot | .mdrop | .mza | .macc => 0
  | _ => if ptrWin e.p = 3 then e.rows * 80 else e.rows * e.rowLen * elemSize (ptrWin e.p)

/-- Whether an entry has a memory operand. -/
def MEnt.hasPtr (e : MEnt) : Bool :=
  match e.kind with
  | .mrot | .mdrop | .mza | .macc => false
  | _ => true

/-- Whether a strand may name a tile (R202, R137). -/
def ownsTile (s : State) (cx : Ctx) (t : Nat) : Bool :=
  let k := getCore s cx.core
  let x := k.strand cx.strand
  let sel := k.sharedLast 37
  bit (x.get 11) t ||
  (cx.strand == 0 && x.flag 6 && !bit sel 4 && bit ((k.strand (bits sel 3 0)).get 11) t)

/-- The window, shape and immediate rules of R211, R212 and R296 that issue can decide. -/
def shapeBad (e : MEnt) (imm : Word) : Bool :=
  let win := ptrWin e.p
  match e.kind with
  | .mma => decide (64 ≤ imm.toNat) || win == 0 || (win == 3 && e.k != 64)
  | .mmas => decide (64 ≤ imm.toNat) || win == 0 || win == 3
  | .mcorr => decide (64 ≤ imm.toNat) || win == 0 || win == 3 || decide (16384 < e.count)
  | .mldb => decide (16 ≤ imm.toNat) || win == 0 || (win == 3 && e.n != 64)
  | .mst | .mlda => decide (16 ≤ imm.toNat) || (win == 3 && e.n != 64)
  | _ => false

/-- The pair of an entry is wrong for what its slot holds now (R212). -/
def pairBad (s : State) (e : MEnt) : Bool :=
  match e.kind with
  | .mma | .mmas | .mcorr =>
    let l := getLatch s e.cx.core e.slot
    l.st == .full && !pairOk e.kind (ptrWin e.p) l.fmt
  | _ => false

/-- The checks of a direct entry or reissue in their order: tiles (direct only) and slots 0x0D, pointers, 0x03, 0x0E. A slot that is bound to its
core is another's to a strand of a task (R208 names only a slot bound to another task; DESIGN CHOICE, log 71). -/
def checkMatrix (s : State) (e : MEnt) (imm : Word) : Option Bad :=
  let cx := e.cx
  let l := getLatch s cx.core e.slot
  let foreign := e.namesSlot && l.bind != .none && l.bind != e.bind
  firstBad
    [ if (e.direct && !(e.tiles.all (ownsTile s cx))) || foreign then some (0x0D, 0) else none
    , if e.hasPtr then checkAccess s cx e.p e.walk else none
    , if e.kind = .mmas then checkAccess s cx e.p2 (e.m * e.k / 8) else none
    , if e.hasPtr then checkAlign e.p (if e.kind = .mcorr then 8 else elemAlign (ptrWin e.p)) else none
    , if shapeBad e imm || pairBad s e then some (0x0E, 0) else none ]

/-- Number of an accumulator or slot operand. -/
def accNum : Opnd → Nat
  | .acc n => n.toNat
  | _ => 0

def slotNum (kind : MKind) (x : Args) : Nat :=
  match kind, x.a with
  | .mma, _ | .mmas, _ | .mcorr, _ => x.mod.toNat % 2
  | _, .slot n => n.toNat
  | _, _ => 0

/-- The operand that names the entry's memory. -/
def memOpnd (x : Args) : Opnd := x.b

def incKind : Opnd → Inc
  | .mem _ i => i
  | _ => .none

/-- The ring successor of a core for a strand (R209). -/
def ringNext (s : State) (cx : Ctx) : Nat := nextIn (gangOf s cx.core cx.strand) cx.core
where
  /-- The next member in rising order, wrapping. -/
  nextIn (g : List Nat) (c : Nat) : Nat :=
    match g.filter (fun d => decide (c < d)) with
    | d :: ds => ds.foldl Nat.min d
    | [] => g.foldl Nat.min c

/-- COUNT of a difference list (R288). -/
def listCount (s : State) (p : Word) : Nat := ofBytes (walkBytes s p 0 2)

/-- Build an entry from an instruction, its pointers taken through `ptrOf` (the strand's registers, or the copies of the
repetition buffer). -/
def buildEntry (s : State) (cx : Ctx) (kind : MKind) (x : Args) (id tile tile2 slot : Nat) (direct : Bool)
    (ptrOf : Nat → Word) : MEnt :=
  let p := if kind = .mrot ∨ kind = .mdrop ∨ kind = .mza ∨ kind = .macc then 0 else ptrOf (ptrNum (memOpnd x)).toNat
  let isMul := kind == .mma || kind == .mmas || kind == .mcorr
  let incReg := match incKind (memOpnd x) with | .reg n => rd s cx (.g n) | _ => 0
  { id, kind, cx, direct, mod := x.mod, tile, tile2, slot, p
    p2 := if kind = .mmas then ptrOf (ptrNum x.c).toNat else 0
    m := if kind = .mldb then 64 else dim x.imm 0
    n := dim x.imm 2
    k := if kind = .mldb then dim x.imm 0 else if isMul then dim x.imm 4 else 64
    scale := if kind = .mst then rd s cx x.c else 0
    count := if kind = .mcorr then listCount s p else 0
    inc := incKind (memOpnd x), incReg, ptr := ptrNum (memOpnd x)
    bind := ownerOf s cx.core cx.strand, succ := ringNext s cx }

/-- The stretches of the local store that an entry reads, and the one that it writes: pointer, first byte, bytes. -/
def MEnt.reads (e : MEnt) : List (Word × Nat × Nat) :=
  match e.kind with
  | .mmas => [(e.p, 0, e.walk), (e.p2, 0, e.m * e.k / 8)]
  | .mst => []
  | _ => if e.hasPtr then [(e.p, 0, e.walk)] else []

def MEnt.writes (e : MEnt) : List (Word × Nat × Nat) := if e.kind = .mst then [(e.p, 0, e.walk)] else []

/-- Whether two lists of stretches have a byte in common. -/
def stretchesMeet (a b : List (Word × Nat × Nat)) : Bool :=
  (a.flatMap spansOf).any (fun x => (b.flatMap spansOf).any (fun y =>
    x.1 == y.1 && decide (x.2.1 < y.2.1 + y.2.2) && decide (y.2.1 < x.2.1 + x.2.2)))

/-- Whether `f` must wait for the earlier entry `e` to complete (R205). The tiles in the local store count as well: a tile is read
after every earlier entry's write to it (R207, log 8). -/
def MEnt.before (e f : MEnt) : Bool :=
  e.tilesWritten.any (fun t => f.tiles.contains t) || e.tilesRead.any (fun t => f.tilesWritten.contains t) ||
  (e.slot == f.slot && ((e.slotWritten && f.namesSlot) || (e.slotRead && f.slotWritten))) ||
  (e.kind == .mst && (stretchesMeet e.writes f.reads || stretchesMeet e.writes f.writes)) ||
  (f.kind == .mst && stretchesMeet e.reads f.writes)

/-! Times. -/

/-- Total bytes of `n` window-3 blocks from byte offset `off` of a pointer. -/
def blockBytes (s : State) (p : Word) (off : Nat) : Nat → Nat
  | 0 => 0
  | n + 1 =>
    let size := 16 * cf8Sectors (nth 0 (walkBytes s p off 1) 0)
    size + blockBytes s p (off + size) n

/-- The rows that `mst` stores, each as bytes through the window (R226). -/
def mstRows (k : Core) (e : MEnt) : List (List Byte) :=
  let r := rndOf e.mod.toNat
  let sat := e.mod.getLsbD 2
  let win := ptrWin e.p
  (List.range e.m).map (fun i =>
    let vs := (List.range e.n).map (fun j => rnd32 r ((val32 (getCell k e.tile i j)).mul (fpOf e.scale)))
    if win = 3 then encodeCF8 (vs.map (fun v => BitVec.ofNat 8 (winEncode 3 r sat v)))
    else vs.flatMap (fun v => toBytes (elemSize win) (winEncode win r sat v)))

/-- The access size of an entry: the whole walk, the blocks' lengths through window 3, a list's size (R213, R296). -/
def accessSize (s : State) (e : MEnt) : Nat :=
  match e.kind with
  | .mcorr => 8 + 8 * e.count
  | .mst =>
    if ptrWin e.p = 3 then ((mstRows (getCore s e.cx.core) e).map List.length).foldl (· + ·) 0 else e.walk
  | _ => if e.hasPtr && ptrWin e.p == 3 then blockBytes s e.p 0 e.rows else e.walk

/-- The entries of a difference list, as 64-bit words (Table 12.8). -/
def listEntries (s : State) (e : MEnt) : List Word :=
  (List.range e.count).map (fun i => wd (ofBytes (walkBytes s e.p (8 + 8 * i) 8)))

/-- Whether an entry takes the store port, or the MAC array (R205). -/
def MEnt.onPort (e : MEnt) : Bool := e.kind == .mldb || e.kind == .mst || e.kind == .mlda
def MEnt.onArray (e : MEnt) : Bool := e.kind == .mma || e.kind == .mmas || e.kind == .macc || e.kind == .mza || e.kind == .mcorr

/-- Engine cycles t (Table 9.2). -/
def engineCycles (s : State) (e : MEnt) : Nat :=
  let fig := max 1 (cdiv (e.m * e.n * e.k) (if 5 ≤ ptrWin e.p then 8192 else 16384))
  let moved := cdiv (accessSize s e) 256 + (if ptrWin e.p = 3 then e.rows else 0)
  match e.kind with
  | .mma => fig
  | .mmas => max 1 (cdiv fig 2)
  | .mldb | .mlda | .mst => moved
  | .macc => 16
  | .mza => 4
  | .mdrop => 0
  | .mrot =>
    if e.succ = e.cx.core then 0
    else
      shuttleSize (getLatch s e.cx.core e.slot).fmt / 256 + 2 * ((colOf e.succ + 16 - colOf e.cx.core) % 16)
  | .mcorr =>
    let c := ((listEntries s e).filter (fun w => decide (bits w 13 0 < e.m * e.k))).length
    4 + cdiv (c * e.n) 1024

/-! Joins (R341). -/

/-- The ids of the entries of an engine queue: cq0 to cq3, the matrix queue 4, the lineage queue 5. -/
def engineIds (k : Core) (q : Nat) : List Nat :=
  if q < 4 then (k.copyQ.filter (fun e => e.q == q)).map (fun e => e.id)
  else if q = 4 then (k.mq ++ k.mqWait).map (fun e => e.id)
  else k.linQ.map (fun e => e.id)

/-- Whether every earlier entry of the queues of a join has completed, but for joins. -/
def joinClear (k : Core) (j : Join) : Bool :=
  (List.range 6).all (fun q => !j.mask.testBit q || (engineIds k q).all (fun i => decide (j.id < i)))

/-- The joins of a core that are not met, in order: one that shares a queue with an earlier one waits for it, as for any entry. -/
def openJoins (k : Core) : List Join :=
  k.joins.foldl (fun (open_ : List Join) j =>
    if joinClear k j && !open_.any (fun i => i.mask &&& j.mask != 0) then open_ else open_ ++ [j]) []

/-- Whether the joins before an entry of a queue let it start. -/
def joinOk (k : Core) (q id : Nat) : Bool :=
  (openJoins k).all (fun j => !(j.mask.testBit q && decide (j.id < id)))

/-! Starting. -/

/-- Whether the unit of an entry is free (R205). -/
def unitFree (s : State) (k : Core) (e : MEnt) : Bool :=
  match e.kind with
  | .mma | .mmas | .macc | .mza | .mcorr => decide (k.macFree ≤ s.now)
  | .mldb | .mst | .mlda => decide (k.portFree ≤ s.now)
  | .mrot => decide (k.ringFree ≤ s.now)
  | .mdrop => true

/-- The first entry that has not started, with the entries before it. -/
def splitQueue : List MEnt → List MEnt × Option MEnt
  | [] => ([], none)
  | e :: es =>
    if e.started then
      let (l, f) := splitQueue es
      (e :: l, f)
    else ([], some e)

/-- Order, unit and dependences of R205, and the joins before the entry (R341), without the slot conditions. -/
def orderOk (s : State) (k : Core) (before : List MEnt) (e : MEnt) : Bool :=
  unitFree s k e && before.all (fun d => !d.before e) && joinOk k 4 e.id

/-- Whether core `c`'s next entry is an `mrot` of slot `j` that only its successor could keep back. -/
def rotReady (s : State) (j c : Nat) : Option MEnt :=
  let k := getCore s c
  match splitQueue k.mq with
  | (l, some e) =>
    if e.kind = .mrot ∧ e.slot = j ∧ orderOk s k l e = true ∧ (getLatch s c j).st = .full then some e else none
  | _ => none

/-- Whether a slot takes its predecessor's bytes as it stands (R209). -/
def takesShuttle (l : Latch) : Bool :=
  !l.inflow && !l.arrived && (l.st == .empty || l.st == .draining)

/-- Drop the cores of a joint rotation whose successor would not take their bytes. -/
def rotShrink (s : State) (j : Nat) (set : List (Nat × Nat)) : Nat → List (Nat × Nat)
  | 0 => set
  | n + 1 =>
    let keep := set.filter (fun (_, d) => takesShuttle (getLatch s d j) || set.any (fun (c, _) => c == d))
    rotShrink s j keep n

/-- Whether the `mrot` at the head of core `c` can start: its successor takes the bytes, at once or because a whole ring
rotates in one step (R209). -/
def rotCanStart (s : State) (c : Nat) (e : MEnt) : Bool :=
  if e.succ = c then true
  else if takesShuttle (getLatch s e.succ e.slot) then true
  else
    let cand := (List.range 16).filterMap (fun i =>
      let d := loomOf c * 16 + i
      (rotReady s e.slot d).map (fun f => (d, f.succ)))
    let set := rotShrink s e.slot cand 16
    set.any (fun (d, _) => d == c) && set.any (fun (d, _) => d == e.succ) && !(getLatch s e.succ e.slot).inflow

/-- The slot conditions of R208 to R210. -/
def slotOk (s : State) (c : Nat) (e : MEnt) : Bool :=
  let l := getLatch s c e.slot
  match e.kind with
  | .mma | .mmas | .mcorr => l.st == .full
  | .mldb => (l.st == .empty || l.st == .full) && !l.inflow
  | .mdrop => l.st != .filling
  | .mrot => l.st == .full && rotCanStart s c e
  | _ => true

/-- The entry of core `c` that can start now (R205). -/
def startable (s : State) (c : Nat) : Option MEnt :=
  let k := getCore s c
  match splitQueue k.mq with
  | (l, some e) => if orderOk s k l e && slotOk s c e then some e else none
  | _ => none

/-- Whether an entry waits on a slot condition that another core sets (R205, R208, R224): an Empty slot to be filled, which an entry
that found it so waits for until it is Full, a slot that its predecessor fills, or a successor that does not take the shuttle. `was`
says whether the wait has been one before. An entry whose unit is still busy is Waiting, not Blocked, whatever its slot: R205 and R208
leave open which of the two holds meanwhile (DESIGN CHOICE, log 72). -/
def slotBlocked (s : State) (c : Nat) (e : MEnt) (was : Bool) : Bool :=
  let k := getCore s c
  match splitQueue k.mq with
  | (l, some f) =>
    let lt := getLatch s c e.slot
    f.id == e.id && orderOk s k l e && !slotOk s c e &&
    (match e.kind with
    | .mma | .mmas | .mcorr => lt.st == .empty || (was && lt.st == .filling)
    | .mrot | .mldb | .mdrop => true
    | _ => false)
  | _ => false

/-! The runs of an entry at the banks (R207, R226). -/

/-- Whether an entry moves bytes at its banks run by run. -/
def MEnt.moves (e : MEnt) : Bool :=
  match e.kind with
  | .mma | .mmas | .mldb | .mlda | .mst => true
  | _ => false

/-- Whether runs are still to be made. -/
def MEnt.running (e : MEnt) : Bool :=
  e.started && e.moves && (if ptrWin e.p = 3 ∧ e.kind ≠ .mst then decide (e.row < e.rows) else decide (e.moved < e.size))

/-- The ends of the window-3 blocks that `bs` begins with. -/
def blockEnds : Nat → Nat → List Byte → List Nat
  | 0, _, _ => []
  | fuel + 1, off, bs =>
    let n := 16 * cf8Sectors (nth 0 bs 0)
    if bs.isEmpty || n = 0 then [] else (off + n) :: blockEnds fuel (off + n) (bs.drop n)

/-- The cycle of an entry's next run: a run of 256 bytes each cycle, with one cycle more for each window-3 block before it (R226);
`mma` and `mmas` read their tile over the cycles that they occupy the array (R206). -/
def MEnt.runAt (e : MEnt) : Nat :=
  e.base +
    (if ptrWin e.p = 3 then
      match e.kind with
      | .mst => e.moved / 256 + ((blockEnds e.rows 0 e.bytes).filter (fun x => decide (x ≤ e.moved))).length
      | .mma | .mmas => e.row / max 1 e.chunk
      | _ => e.row + e.moved / 256
    else e.moved / max 1 e.chunk)

/-- The bytes of an entry's next run, and the window-3 blocks in it. A run goes to the end of its last bank word, so that each word is read, or
written, at one time (R207, R268). -/
def MEnt.runSize (s : State) (e : MEnt) : Nat × Nat :=
  if ptrWin e.p = 3 ∧ e.kind ≠ .mst then
    let q := min (if e.onPort then 1 else max 1 e.chunk) (e.rows - e.row)
    (blockBytes s e.p e.moved q, q)
  else
    let n := if e.onPort then 256 else max 1 e.chunk
    let a := ptrOff e.p % 16
    (min (16 * cdiv (a + n * (e.moved / n + 1)) 16 - a) e.size - e.moved, 0)

/-- Make an entry's next run: `mst` writes, the others read. -/
def moveRun (s : State) (e : MEnt) : State × MEnt :=
  let (n, q) := e.runSize s
  let f := { e with moved := e.moved + n, row := e.row + q, done := [] }
  if e.kind = .mst then (walkWrite s e.p e.moved ((e.bytes.drop e.moved).take n), f)
  else (s, { f with bytes := e.bytes ++ walkBytes s e.p e.moved n })

/-- Make all runs that are left. -/
def moveRest : Nat → State → MEnt → State × MEnt
  | 0, s, e => (s, e)
  | fuel + 1, s, e =>
    if e.running then
      let (s, e) := moveRun s e
      moveRest fuel s e
    else (s, e)

/-- The metadata or the list that an entry reads as it starts. -/
def MEnt.sideStretch (e : MEnt) : List (Word × Nat × Nat) :=
  match e.kind with
  | .mmas => [(e.p2, 0, e.m * e.k / 8)]
  | .mcorr => [(e.p, 8, 8 * e.count)]
  | _ => []

/-- An entry as it starts (R206, R226): what it holds of its slot, tile and metadata, and when its runs come. The cycle of the first
run of an entry that reads is open (log 1). -/
def MEnt.start (s : State) (e : MEnt) (t : Nat) : MEnt :=
  let l := getLatch s e.cx.core e.slot
  let size := accessSize s e
  { e with
    started := true, fmt := l.fmt, data := if e.kind = .mrot then l.elems else []
    size, base := if e.kind = .mst then s.now + 3 else s.now + pickN s 4 0 6
    chunk := if e.onPort then 256 else cdiv (if ptrWin e.p = 3 then e.rows else size) (max 1 t)
    bytes := if e.kind = .mst then (mstRows (getCore s e.cx.core) e).flatten else []
    side := e.sideStretch.flatMap (fun (p, i, n) => walkBytes s p i n) }

/-- A copy of the repetition buffer advances by the size of an `mst` that it waits for (R218, log 8). -/
def advanceLate (s : State) (c : Nat) (e : MEnt) : State :=
  if e.late then
    modCore s c (fun k => { k with rep := k.rep.map (fun r =>
      { r with copies := setK r.copies e.ptr.toNat (advance (getK 0 r.copies e.ptr.toNat) e.size) }) })
  else s

/-- Put an entry back into its queue as changed. -/
def putMatrix (s : State) (c : Nat) (e : MEnt) : State :=
  modCore s c (fun k => { k with mq := k.mq.map (fun f => if f.id = e.id then e else f) })

/-- An entry begins (R205, R206): it takes its unit, and its slots change state. -/
def beginEntry (s : State) (c : Nat) (e : MEnt) : State :=
  let t := engineCycles s e
  let free := s.now + t
  let e := e.start s t
  let s := advanceLate s c e
  let s := modCore (putMatrix s c { e with late := false }) c (fun k =>
    { k with
      macFree := if e.onArray then free else k.macFree
      portFree := if e.onPort then free else k.portFree
      ringFree := if e.kind = .mrot then free else k.ringFree })
  match e.kind with
  | .mldb => modLatch s c e.slot (fun l => { l with st := .filling, bind := e.bind })
  | .mrot =>
    if e.succ = c then s
    else
      let s := modLatch s c e.slot (fun l => { l with st := .draining })
      modLatch s e.succ e.slot (fun l =>
        { l with st := if l.st = .empty then .filling else l.st, inflow := true, bind := e.bind })
  | _ => s

/-- MATRIX_ENTRY_START (R205, R206): the entry begins, and its completion is due. -/
def execMatrixEntryStart (c id : Nat) (s : State) : Out :=
  .next
    (match startable s c with
    | some e =>
      if e.id = id then sched (beginEntry s c e) (s.now + 6 + engineCycles s e) (.matrixEntryComplete c id) else s
    | none => s)

/-- An entry whose runs are not all made when it would complete is a cycle late (R206, R207, R266): its last runs wait for their banks, or for
an earlier `mst`. -/
def putOff (s : State) (c : Nat) (e : MEnt) : State :=
  let s := putMatrix s c { e with offBy := e.offBy + 1 }
  let s := modCore s c (fun k => { k with portFree := if s.now < k.portFree then k.portFree + 1 else k.portFree })
  sched s (s.now + 1) (.matrixEntryComplete c e.id)

/-- An entry of the store port of core `c` completes `d` cycles later, and so does the port's next entry start (R206). -/
def delayPort (s : State) (c id d : Nat) : State :=
  let s := modCore s c (fun k => { k with portFree := if s.now < k.portFree then k.portFree + d else k.portFree })
  { s with pend := s.pend.map (fun x => if x.2 = .matrixEntryComplete c id then (x.1 + d, x.2) else x) }

/-- The next entry of the store port comes to its banks when the one before it has made its last run (R266). -/
def passPort (s : State) (c : Nat) : State :=
  match (getCore s c).mq.find? (fun f => f.running && f.onPort) with
  | some f =>
    if f.runAt ≤ s.now then
      let d := s.now + 1 - f.runAt
      delayPort (putMatrix s c { f with base := f.base + d }) c f.id d
    else s
  | none => s

/-- A run of entry `e` of core `c` is made (R207): it delays the later runs, and with a store-port entry its completion and its port
(R206). -/
def afterMove (s : State) (c : Nat) (e : MEnt) : State :=
  let d := s.now - e.runAt
  let late := runLate s e.runAt [(e.p, e.moved, (e.runSize s).1)]
  let (s, f) := moveRun s e
  let s := putMatrix s c { f with base := f.base + d, offBy := e.offBy - late }
  if e.onPort then
    let s := if late ≤ e.offBy then s else delayPort s c e.id (late - e.offBy)
    if f.running then s else passPort s c
  else s

/-! Effects. -/

/-- The raw elements of rows of bytes, and whether every window-3 block is well formed. -/
def readRaw (win cols : Nat) : List Byte → Nat → List (List Nat) × Bool
  | _, 0 => ([], true)
  | bs, rows + 1 =>
    if win = 3 then
      let (rest, ok) := readRaw win cols (bs.drop (16 * cf8Sectors (nth 0 bs 0))) rows
      match decodeCF8 (bs.take 80) with
      | some es => (es.map (fun b => b.toNat) :: rest, ok)
      | none => (List.replicate 64 0x7F :: rest, false)
    else
      let e := elemSize win
      let row := (List.range cols).map (fun j => ofBytes ((bs.drop (j * e)).take e))
      let (rest, ok) := readRaw win cols (bs.drop (cols * e)) rows
      (row :: rest, ok)

/-- The dense row of `mmas` from its packed values and metadata bytes (R215). -/
def denseRow (vals : List Nat) (metadata : List Byte) (k : Nat) : List Nat :=
  (List.range k).map (fun c =>
    let g := c / 4
    let nib := (nth 0 metadata (g / 2)).toNat / (if g % 2 = 0 then 1 else 16) % 16
    if nib / 4 = c % 4 then nth 0 vals (2 * g + 1)
    else if nib % 4 = c % 4 then nth 0 vals (2 * g)
    else 0)

/-- Add group sums to a cell: groups of `g` products; `ext` for the pairs of R80. -/
def accGroups (g : Nat) (ext : Bool) : Nat → FV → List FV → FV
  | 0, c, _ => c
  | n + 1, c, ps =>
    let sum := FV.sum false (ps.take g)
    let sum := if ext then rneExt sum else sum
    accGroups g ext n (rne32 (FV.sum false [c, sum])) (ps.drop g)

/-- A cell after the products of a row and a column (R79 to R81). -/
def mulCell (sixteen : Bool) (c : FV) (as bs : List FV) : BitVec 32 :=
  let ps := (as.zip bs).map (fun (a, b) => a.mul b)
  let g := if sixteen then 2 else 16
  bits32 (accGroups g sixteen (ps.length / g) c ps)

/-- The column n of a slot's first K rows, decoded. -/
def slotColumn (l : Latch) (k n : Nat) : List FV :=
  (List.range k).map (fun i => winDecode l.fmt (getK 0 l.elems (i * 64 + n)))

/-- `mma` and `mmas` (R222). -/
def effectMma (s : State) (e : MEnt) : State :=
  let c := e.cx.core
  let win := ptrWin e.p
  let (raw, ok) := readRaw win e.rowLen e.bytes e.m
  let raw := if e.kind = .mmas then
      (raw.zip (List.range e.m)).map (fun (r, i) => denseRow r ((e.side.drop (i * e.k / 8)).take (e.k / 8)) e.k)
    else raw
  let as := raw.map (fun r => r.map (winDecode win))
  let l := getLatch s c e.slot
  let bs := (List.range e.n).map (slotColumn l e.k)
  let zeroFirst := e.mod.getLsbD 1
  let s := modCore s c (fun k =>
    mapPart k e.tile e.m e.n (fun i j v =>
      mulCell (5 ≤ win) (if zeroFirst then pzero else val32 v) (nth [] as i) (nth [] bs j)))
  if ok then s else setCF8E s e.cx

/-- `mldb` (R223, R214). -/
def effectMldb (s : State) (e : MEnt) : State :=
  let win := ptrWin e.p
  let (raw, ok) := readRaw win e.n e.bytes e.k
  let elems := (raw.zip (List.range e.k)).flatMap (fun (r, i) =>
    (r.zip (List.range e.n)).filterMap (fun (v, j) => if v = 0 then none else some (i * 64 + j, v)))
  let s := modLatch s e.cx.core e.slot (fun l =>
    { l with st := .full, fmt := if win = 3 then 1 else win, elems := elems })
  if ok then s else setCF8E s e.cx

/-- `mrot` (R209): the local slot empties, or takes what its predecessor brought, and the successor's slot fills. A successor's slot that is still
Draining stays so, with what has arrived, until its own `mrot` completes (R209 calls it Full then; DESIGN CHOICE, log 71). -/
def effectMrot (s : State) (e : MEnt) : State :=
  let c := e.cx.core
  if e.succ = c then s
  else
    let s := modLatch s c e.slot (fun l =>
      if l.arrived then { l with st := .full, arrived := false }
      else if l.inflow then { l with st := .filling }
      else {})
    modLatch s e.succ e.slot (fun l =>
      { l with
        fmt := e.fmt, elems := e.data, bind := e.bind, inflow := false
        arrived := l.st == .draining, st := if l.st = .draining then .draining else .full })

/-- `mlda` (R227). -/
def effectMlda (s : State) (e : MEnt) : State :=
  let win := ptrWin e.p
  let (raw, ok) := readRaw win e.n e.bytes e.m
  let add := e.mod.getLsbD 0
  let s := modCore s e.cx.core (fun k =>
    mapPart k e.tile e.m e.n (fun i j v =>
      let x := winDecode win (nth 0 (nth [] raw i) j)
      if add then bits32 (rne32 (FV.sum false [val32 v, x])) else bits32 x))
  if ok then s else setCF8E s e.cx

/-- `macc` (R228). -/
def effectMacc (s : State) (e : MEnt) : State :=
  modCore s e.cx.core (fun k =>
    mapTile k e.tile (fun i j v =>
      let w := getCell k e.tile2 i j
      if e.mod.getLsbD 0 then w else bits32 (rne32 (FV.sum false [val32 v, val32 w]))))

/-- The correction of one cell (R289): each group that the list touches adds its exact difference. -/
def corrCell (sixteen : Bool) (win k : Nat) (es : List Word) (bs : List FV) (row : Nat) (v : BitVec 32) : BitVec 32 :=
  let g := if sixteen then 2 else 16
  let mine := es.filter (fun w => bits w 13 0 / k == row)
  bits32 ((List.range (k / g)).foldl (fun c i =>
    let hit := mine.filter (fun w => bits w 13 0 % k / g == i)
    if hit.isEmpty then c
    else
      let ps := hit.flatMap (fun w =>
        let b := nth pzero bs (bits w 13 0 % k)
        [(winDecode win (bits w 47 32)).mul b, ((winDecode win (bits w 31 16)).mul b).neg])
      let sum := FV.sum false ps
      rne32 (FV.sum false [c, if sixteen then rneExt sum else sum])) (val32 v))

/-- `mcorr` (R289). -/
def effectMcorr (s : State) (e : MEnt) : State :=
  let win := ptrWin e.p
  let es := ((List.range e.count).map (fun i => wd (ofBytes ((e.side.drop (8 * i)).take 8)))).filter (fun w =>
    decide (bits w 13 0 < e.m * e.k))
  let l := getLatch s e.cx.core e.slot
  let bs := (List.range e.n).map (slotColumn l e.k)
  modCore s e.cx.core (fun k =>
    mapPart k e.tile e.m e.n (fun i j v =>
      if es.any (fun w => bits w 13 0 / e.k == i) then corrCell (5 ≤ win) win e.k es (nth [] bs j) i v else v))

/-- `mdrop` (R210): the slot becomes Empty, but for what its predecessor has begun to bring into the Empty slot. -/
def effectMdrop (s : State) (e : MEnt) : State :=
  modLatch s e.cx.core e.slot (fun l => if l.inflow then l else {})

/-- What an entry does at its completion (R206), its bytes having been moved. -/
def entryEffect (s : State) (e : MEnt) : State :=
  match e.kind with
  | .mma | .mmas => effectMma s e
  | .mldb => effectMldb s e
  | .mrot => effectMrot s e
  | .mdrop => effectMdrop s e
  | .mza => modCore s e.cx.core (fun k => zeroTiles k (2 ^ e.tile))
  | .mst => s
  | .mlda => effectMlda s e
  | .macc => effectMacc s e
  | .mcorr => effectMcorr s e

/-- An entry ends: the runs that are left, then its effect. -/
def endEntry (s : State) (e : MEnt) : State :=
  let (s, e) := moveRest 4096 s e
  entryEffect s e

/-- The access size of an entry that has run (R213). -/
def MEnt.sizeDone (e : MEnt) : Nat :=
  if ptrWin e.p = 3 ∧ e.kind ≠ .mst ∧ e.moves = true then e.moved else e.size

/-- The advance of an entry's pointer at completion (R95, R213). -/
def entryIncs (e : MEnt) : List (BitVec 3 × Word) :=
  match e.inc with
  | .none => []
  | .size => [(e.ptr, wd e.sizeDone)]
  | .imm => [(e.ptr, 0)]
  | .reg _ => [(e.ptr, e.incReg)]

/-- Take an entry out of the queue or of those waiting for a place. -/
def removeEntry (s : State) (c id : Nat) : State :=
  modCore s c (fun k =>
    { k with mq := k.mq.filter (fun e => e.id != id), mqWait := k.mqWait.filter (fun e => e.id != id) })

/-- Direct instructions that waited for a place enter the queue (R204). -/
def fillQueue (s : State) (c : Nat) : State :=
  modCore s c (fun k =>
    let n := 16 - k.mq.length
    { k with mq := k.mq ++ k.mqWait.take n, mqWait := k.mqWait.drop n })

/-- A strand that received a retry may issue its instruction anew: its tiles are free (R203). -/
def tileMet (s : State) (c : Nat) (w : Wait) : Bool :=
  match w.why with
  | .tile mask => lockBits (getCore s c) &&& mask = 0
  | _ => false

/-- Hold a fault for a strand (R220). -/
def holdFault (s : State) (c t : Nat) (f : HeldFault) : State :=
  modStrand s c t (fun x => { x with held := x.held ++ [f] })

/-- The sequence of the buffer makes no further reissue (R220). -/
def stopRep (s : State) (c : Nat) : State :=
  modCore s c (fun k => { k with rep := k.rep.map (fun r => { r with stopped := true }) })

/-- SLOT_PAIR_CHECK (R212): entries that wait for a slot and pair badly with what it now holds end: a direct one traps, a
reissue's fault is held. -/
def checkPairs (s : State) (c j : Nat) : State :=
  let all := fun (k : Core) => k.mq ++ k.mqWait
  (all (getCore s c)).foldl (fun s e =>
    let earlier := (all (getCore s c)).takeWhile (fun f => f.id != e.id)
    if e.slot = j ∧ e.started = false ∧ pairBad s e = true ∧ (earlier.all (fun f => !(f.slotWritten && f.slot == j))) = true then
      let s := removeEntry s c e.id
      if e.direct then (if stillWaits s e.cx then trapAt s e.cx 0x0E 0 else s)
      else stopRep (holdFault s c e.cx.strand ⟨0x0E, 0, e.cx.word, false⟩) c
    else s) s

/-- The tile mask of an entry. -/
def tileMask (e : MEnt) : Nat := (e.tiles.eraseDups).foldl (fun a t => a + 2 ^ t) 0

/-- Put a direct instruction into the queue (R203, R204): its checks, then the retry of a locked tile, then its place. -/
def enterDirect (kind : MKind) (i : Instr) (x : Args) (s : State) : State :=
  let cx := s.cur
  let k := getCore s cx.core
  let y := k.strand cx.strand
  let e := buildEntry s cx kind x k.mqNext (accNum x.a) (accNum x.b) (slotNum kind x) true y.ptr
  orTrap s cx (checkMatrix s e x.imm)
    (if e.tiles.any (tileLocked k) then
      perfAdd (leave s .waiting (.tile (tileMask e)) false i cx .none) cx.core 6 1
    else
      let s := modCore s cx.core (fun k =>
        if k.mq.length < 16 then { k with mq := k.mq ++ [e], mqNext := k.mqNext + 1 }
        else { k with mqWait := k.mqWait ++ [e], mqNext := k.mqNext + 1 })
      leave s .waiting (.matrix e.id) false i cx .none)

/-- `mma` (R222). -/
def execMma (x : Args) (s : State) : Out := issue none x s (enterDirect .mma (.mma x) x)

/-- `mmas` (R222). -/
def execMmas (x : Args) (s : State) : Out := issue none x s (enterDirect .mmas (.mmas x) x)

/-- `mldb` (R223). -/
def execMldb (x : Args) (s : State) : Out := issue none x s (enterDirect .mldb (.mldb x) x)

/-- `mrot` (R224). -/
def execMrot (x : Args) (s : State) : Out := issue none x s (enterDirect .mrot (.mrot x) x)

/-- `mdrop` (R223, R210). -/
def execMdrop (x : Args) (s : State) : Out := issue none x s (enterDirect .mdrop (.mdrop x) x)

/-- `mza` (R225). -/
def execMza (x : Args) (s : State) : Out := issue none x s (enterDirect .mza (.mza x) x)

/-- `mst` (R226). -/
def execMst (x : Args) (s : State) : Out := issue none x s (enterDirect .mst (.mst x) x)

/-- `mlda` (R227). -/
def execMlda (x : Args) (s : State) : Out := issue none x s (enterDirect .mlda (.mlda x) x)

/-- `macc` (R228). -/
def execMacc (x : Args) (s : State) : Out := issue none x s (enterDirect .macc (.macc x) x)

/-- `mcorr` (R296). -/
def execMcorr (x : Args) (s : State) : Out := issue none x s (enterDirect .mcorr (.mcorr x) x)

end Sys2Proof.Machine
end

