-- ==== Sys2Proof/Machine/Records.lean ====
section
/-! DEFINITION. Launch records and their queues (R344 to R351), the ages of tasks (R25, R387), the commit horizon (R28), and how the
strands of a task, and what they have under way, are ended (R131, R149, R165, R169, R201, R327, R339). -/

namespace Sys2Proof.Machine

/-! Records. -/

/-- Doubleword `i` of record `r` (R345). -/
def recWord (s : State) (r i : Nat) : Word :=
  match s.mgmt.poolBase with
  | some b => wd (s.mem.num (b + 256 * r + 8 * i) 8)
  | none => 0

/-- Write a doubleword of a record. -/
def setRecWord (s : State) (r i : Nat) (v : Word) : State :=
  match s.mgmt.poolBase with
  | some b => { s with mem := s.mem.writeN (b + 256 * r + 8 * i) (toBytes 8 v.toNat) }
  | none => s

/-- Replace bits [hi:lo] of a doubleword of a record. -/
def setRecBits (s : State) (r i hi lo v : Nat) : State := setRecWord s r i (setBits (recWord s r i) hi lo v)

/-- Fields of the header (Table 16.1). -/
def recStamp (s : State) (r : Nat) : Nat := bits (recWord s r 0) 47 0
def recRetry (s : State) (r : Nat) : Nat := bits (recWord s r 0) 50 48
def recPrio (s : State) (r : Nat) : Nat := bits (recWord s r 0) 53 52
def recCores (s : State) (r : Nat) : Nat := bits (recWord s r 1) 3 0 + 1
def recNstr (s : State) (r : Nat) : Nat := bits (recWord s r 1) 7 4
def recWindow (s : State) (r : Nat) : Nat := 8 * (bits (recWord s r 1) 11 8 + 1)
def recRegs (s : State) (r : Nat) : Nat := bits (recWord s r 1) 11 8
def recAccm (s : State) (r : Nat) : Nat := bits (recWord s r 1) 19 12
def recLsz (s : State) (r : Nat) : Nat := bits (recWord s r 1) 30 20
def recEntry (s : State) (r : Nat) : Nat := bits (recWord s r 2) 47 0
def recCnt (s : State) (r : Nat) : Nat := bits (recWord s r 3) 15 0
def recInit (s : State) (r : Nat) : Nat := bits (recWord s r 3) 31 16
def recNsucc (s : State) (r : Nat) : Nat := bits (recWord s r 3) 35 32
def recLimg (s : State) (r : Nat) : Nat := bits (recWord s r 4) 47 0
def recLlen (s : State) (r : Nat) : Nat := bits (recWord s r 4) 63 48
def recGraph (s : State) (r : Nat) : Nat := bits (recWord s r 7) 15 0
def recFcause (s : State) (r : Nat) : Nat := bits (recWord s r 7) 23 16
def recReport (s : State) (r : Nat) : Nat := bits (recWord s r 8) 47 0

/-- Successor `i`: SUCC0 to SUCC4 from bit 320, SUCC5 to SUCC7 from bit 384. -/
def recSucc (s : State) (r i : Nat) : Nat :=
  if i < 5 then bits (recWord s r 5) (12 * i + 11) (12 * i) else bits (recWord s r 6) (12 * (i - 5) + 11) (12 * (i - 5))

/-- A footprint extent (Table 16.2). -/
structure Extent where
  lineage : Bool
  mode : Nat
  loff : Nat
  count : Nat
  first : Nat
  base : Word
  deriving DecidableEq, Repr

/-- The valid extents of a record, in order. -/
def recExtents (s : State) (r : Nat) : List Extent :=
  (List.range 8).filterMap (fun i =>
    let b := recWord s r (16 + 2 * i)
    let w := recWord s r (17 + 2 * i)
    if bit w 63 then some ⟨bit w 62, bits w 61 59, bits w 58 48, bits w 47 27, bits w 26 0, b⟩ else none)

/-- The modes by their code (R383). -/
def modeOf (n : Nat) : Mode :=
  match n with
  | 0 => .is
  | 1 => .ix
  | 2 => .in_
  | 3 => .s
  | 4 => .six
  | 5 => .inc
  | _ => .x

def modeCode : Mode → Nat
  | .is => 0
  | .ix => 1
  | .in_ => 2
  | .s => 3
  | .six => 4
  | .inc => 5
  | .x => 6

/-- An extent that is fetched (R347). -/
def Extent.fetched (e : Extent) : Bool := e.mode == 3 || e.mode == 4 || e.mode == 6

/-- 256-byte units that the image and the fetched tiles need (R346, R358). -/
def unitsNeeded (s : State) (r : Nat) : Nat :=
  (recExtents s r).foldl (fun m e =>
    if e.fetched then max m (e.loff + 64 * cdiv e.count (recCores s r)) else m) (cdiv (recLlen s r * 16) 256)

/-- The code of a state (Table 16.3). -/
def taskCode : TaskState → Nat
  | .free => 0
  | .idle => 1
  | .queued => 2
  | .locking => 3
  | .running => 4
  | .retired => 5
  | .committing => 6
  | .aborted => 7
  | .faulted => 8
  | .committed => 9
  | .failed => 10

/-- Move a record to a state; its STATE field follows. -/
def setTaskState (s : State) (r : Nat) (st : TaskState) : State :=
  setRecBits (modTask s r (fun k => { k with st := st })) r 3 43 40 (taskCode st)

/-- The checks of `arm` (R358): status 1, 2 or 0. -/
def armStatus (s : State) (r : Nat) : Nat :=
  if (getTask s r).st != .idle then 1
  else if recEntry s r = 0 ∨ (recExtents s r).any (fun e => e.mode == 7) ∨ recNstr s r = 0 ∨
      recLsz s r < unitsNeeded s r then 2
  else 0

/-! Age and horizon. -/

/-- Whether age (a, i) is older than (b, j) (R387). -/
def olderAge (a i b j : Nat) : Bool :=
  if a = b then
    let d := (j + 2 ^ 32 - i) % 2 ^ 32
    (decide (1 ≤ d) && decide (d < 2 ^ 31)) || (d == 2 ^ 31 && decide (i < j))
  else decide (a < b)

/-- Whether task `r` is older than task `q`. -/
def olderTask (s : State) (r q : Nat) : Bool :=
  let a := getTask s r
  let b := getTask s q
  olderAge a.stamp a.seq b.stamp b.seq

/-- Whether a state counts for the horizon (R28). -/
def inHorizon (st : TaskState) : Bool :=
  match st with
  | .queued | .locking | .running | .retired | .committing | .aborted | .faulted => true
  | _ => false

/-- Whether a stamp is at most the horizon (R28). -/
def withinHorizon (s : State) (stamp : Nat) : Bool :=
  s.tasks.all (fun (_, k) => !inHorizon k.st || decide (stamp ≤ k.stamp))

/-! Queues. -/

/-- The rank of an entry (R350): PRIO less the levels it has risen, then age. -/
def qBefore (s : State) (a b : QEnt) : Bool :=
  let p := recPrio s a.rec_ - a.raised
  let q := recPrio s b.rec_ - b.raised
  decide (p < q) || (p == q && olderTask s a.rec_ b.rec_)

/-- Insert an entry by rank. -/
def qInsert (s : State) (e : QEnt) : List QEnt → List QEnt
  | [] => [e]
  | x :: xs => if qBefore s e x then e :: x :: xs else x :: qInsert s e xs

/-- An entry for a record enters a die queue. -/
def enterDie (s : State) (d : Nat) (e : QEnt) : State := modDie s d (fun k => { k with queue := qInsert s e k.queue })

/-- A record enters Queued for the first time (R25, R349): it draws its sequence number, and its entry enters the die queue within
8 cycles (Table 1.8). -/
def firstQueued (s : State) (r die : Nat) : State :=
  let n := s.seqCount
  let s := { s with seqCount := (n + 1) % 2 ^ 32 }
  let s := modTask s r (fun k => { k with drawn := true, seq := n, stamp := recStamp s r, avoid := none })
  enterDie (setTaskState s r .queued) die { rec_ := r, from_ := s.now + pickOf s 38 r 0 8 }

/-- One arming (R349): CNT falls, and at 0 the record is queued at a die. -/
def armRecord (s : State) (r die : Nat) : State :=
  if (getTask s r).st != .idle then s
  else
    let s := if recCnt s r = 0 then s else setRecBits s r 3 15 0 (recCnt s r - 1)
    if recCnt s r = 0 then firstQueued s r die else s

/-- Cores of a loom that may take a gang for a record (R27, Table 19.3). -/
def gangCores (s : State) (l r : Nat) : List Nat :=
  ((List.range 16).map (fun i => l * 16 + i)).filter (fun c =>
    !(getCore s c).barred && (getTask s r).avoid != some c)

/-- Whether a loom can hold a record's gang at all (R27). -/
def loomCanHold (s : State) (l r : Nat) : Bool := decide (recCores s r ≤ (gangCores s l r).length)

/-- A loom queue that reaches 256 entries gives its 8 lowest back (R350). -/
def spillLoom (s : State) (l : Nat) : State :=
  let q := (getLoom s l).queue
  if q.length < 256 then s
  else
    let keep := q.take (q.length - 8)
    let back := q.drop (q.length - 8)
    back.foldl (fun s e => enterDie s (l / 16) e) (modLoom s l (fun k => { k with queue := keep }))

/-- Whether some loom of a die can hold a record's gang (R27). -/
def dieCanHold (s : State) (d r : Nat) : Bool := (List.range 16).any (fun i => loomCanHold s (d * 16 + i) r)

/-- A rerun that its loom cannot hold moves to the first die, from `d` on, with a loom that can; when there is none its core is allowed
again (R27). -/
def placeRerun (s : State) (d : Nat) (e : QEnt) : State :=
  match [d, (d + 1) % 4, (d + 2) % 4, (d + 3) % 4].find? (fun d => dieCanHold s d e.rec_) with
  | some d => enterDie s d e
  | none => enterDie (modTask s e.rec_ (fun k => { k with avoid := none })) d e

/-- A wounded record returns to its loom queue (R350), a faulted one as R27 places it. Its entry's passes and raised level start anew at 0
(R29 does not say; DESIGN CHOICE, log 71). -/
def requeue (s : State) (r : Nat) (rerun : Bool) : State :=
  let l := (getTask s r).loom
  let e : QEnt := { rec_ := r }
  if !rerun || loomCanHold s l r then
    spillLoom (modLoom s l (fun k => { k with queue := qInsert s e k.queue })) l
  else placeRerun s (l / 16) e

/-! Ending waits and strands. -/

/-- Whether a lock request is the open of sequence `q` by the instruction of a context. -/
def opens (cx : Ctx) (q : LReq) : Option Nat :=
  match q.cont with
  | .win (.open_ n _) d => if d.cx = cx then some n else none
  | _ => none

/-- The sequence that an instruction waiting for its lock would open. -/
def opening (s : State) (cx : Ctx) : Option Nat :=
  (s.pend.findSome? (fun x =>
    match x.2 with
    | .lockRequestArrival q => opens cx q
    | .lockGrant q => opens cx q
    | _ => none)) <|>
  (s.locks.entries.findSome? (fun e => e.waiters.findSome? (fun w => (w.req :: w.more).findSome? (opens cx)))) <|>
  (s.locks.noRoom.findSome? (opens cx))

/-- A logged operation whose instruction is given up before its lock is granted leaves the log, with what it has taken (R281, R303). -/
def dropLogged (s : State) (r : Nat) (cx : Ctx) : State :=
  let s := match opening s cx with
    | some n => { s with seqs := setK s.seqs n { gen := (getK {} s.seqs n).gen } }
    | none => s
  match (getLog s cx.core r).find? (fun e => e.by_ cx) with
  | some (.node (.fork _ _ ch) _) => logDrop (dropHeld (modNode s ch (fun _ => {})) ch) r cx
  | some (.win (.pgal _ _ _ page) _) =>
    logDrop { s with pagesResv := s.pagesResv.filter (fun y => y.1 != page), pagesOut := s.pagesOut.filter (fun p => p != page) } r cx
  | some _ => logDrop s r cx
  | none => s

/-- The strands that run the task of record `r`. -/
def taskStrands (s : State) (r : Nat) : List (Nat × Nat) :=
  (getTask s r).members.flatMap (fun c =>
    ((List.range 16).filter (fun t => (getStrand s c t).live && taskOf s c t == some r)).map (fun t => (c, t)))

/-- Whether a strand waits in the last `tdone` of a task (R339). -/
def waitsTdone (s : State) (r : Nat) : Bool :=
  (taskStrands s r).any (fun (c, t) => (getStrand s c t).wait.any (fun w => w.why == .tdone r))

/-- Whether a join entry stands in a copy queue (R333). -/
def Join.copies (j : Join) : Bool := j.mask % 16 != 0

/-- Whether any entry of a task is still in a copy queue, joins among them (R333, R339). -/
def taskCopies (s : State) (r : Nat) : Bool :=
  (getTask s r).members.any (fun c =>
    (getCore s c).copyQ.any (fun e => e.task == some r) || (getCore s c).joins.any (fun j => j.copies && j.task == some r))

/-- Whether every strand of a task has been started and has executed `tdone`, but for those in `but` (R355, R359). -/
def allDone (s : State) (r : Nat) (but : List (Nat × Nat)) : Bool :=
  let k := getTask s r
  k.left.all (fun (_, n) => n == 0) && k.away.isEmpty &&
  (taskStrands s r).all (fun (c, t) =>
    let x := getStrand s c t
    but.contains (c, t) || x.st == .done || x.wait.any (fun w => w.why == .tdone r))

/-- A running task whose strands are all done retires once its copy entries have completed (R339, R355). -/
def checkRetire (s : State) (r : Nat) : State :=
  if (getTask s r).st = .running ∧ allDone s r [] = true ∧ taskCopies s r = false then sched s s.now (.taskRetire r) else s

/-- Joins that are met leave, and a task whose last entries they were retires (R341, R339). -/
def pruneJoins (s : State) (c : Nat) : State :=
  let left := openJoins (getCore s c)
  let gone := (getCore s c).joins.filter (fun j => !left.contains j)
  (gone.filterMap (fun j => j.task)).foldl checkRetire (modCore s c (fun k => { k with joins := left }))

/-- What a wait that is given up leaves behind is taken back: a held arrive, a blocked push, a deposit held back, places
reserved, a direct matrix entry that has not started, with the joins that are met thereby (R134, R160, R341). -/
def abandonWait (s : State) (c t : Nat) : State :=
  match (getStrand s c t).wait with
  | none => s
  | some w =>
    let s :=
      match w.why with
      | .bara n => modBarrier s (loomOf c) n (fun b => { b with held := b.held.filter (fun d => d != w.cx) })
      | .push d p => modLink s d p (fun k => { k with blocked := k.blocked.filter (fun q => q.cx != w.cx) })
      | .deferred _ _ =>
        { s with cores := s.cores.map (fun (d, k) =>
            (d, { k with
                  heldBack := k.heldBack.filter (fun m => m.cx != w.cx)
                  reserved := k.reserved.filter (fun x => x != w.cx) })) }
      | .matrix id =>
        if (getCore s c).mq.any (fun e => e.id == id && e.started) then s else pruneJoins (fillQueue (removeEntry s c id) c) c
      | .rep _ => modCore s c (fun k => { k with repWaiters := k.repWaiters.filter (fun u => u != t) })
      | .lock =>
        match taskOf s c t with
        | some r => dropLogged s r w.cx
        | none => s
      | _ => dropUnits s w.cx
    modStrand s c t (fun x => { x with wait := none })

/-- Slots bound to a strand are unbound, and their deferred entries discarded (R149). -/
def unbindSlots (s : State) (c t : Nat) : State :=
  (List.range 28).foldl (fun s i =>
    let m := i + 4
    if (getSlot s c m).owner = some t then
      dropDeferred (modSlot s c m (fun x => { x with owner := none, present := false })) c m
    else s) s

/-- A strand is reaped (R149): window and tiles released, slots unbound, its message discarded; units it bound without a
task are freed (R165, R169). -/
def reapStrand (s : State) (c t : Nat) : State :=
  let bare := (taskOf s c t).isNone
  let s := abandonWait s c t
  let s := unbindSlots s c t
  let s := modCore s c (fun k =>
    { k.modStrand t (fun x =>
        { (x.set 11 0) with
          st := .free, wait := none, holdReq := false, holdPort := false, tmrHit := false, seq := none, held := [], fail := none })
      with trapQ := k.trapQ.filter (fun m => m.strand != t) })
  if bare then freeUnits s (loomOf c) (fun o by_ => o == .core c && by_ == t) else s

/-- The demand of a granted sequence returns to the die's governor (R405). -/
def returnPower (s : State) (c : Nat) : State :=
  match (getCore s c).rep with
  | some r =>
    let s := if r.granted then modDie s (dieOf c) (fun d => { d with total := d.total - r.demand }) else s
    modDie s (dieOf c) (fun d => { d with waiting := d.waiting.filter (fun x => x.1 != c) })
  | none => s

/-- The next `rep` that waits for the buffer issues anew (R216). -/
def releaseRep (s : State) (c : Nat) : State :=
  match (getCore s c).repWaiters with
  | [] => s
  | t :: ts => rejoin (modCore s c (fun k => { k with repWaiters := ts, repNext := some (t, (k.strand t).pc) })) c t

/-- The sequence of core `c` ends (R220, R221). -/
def endRep (s : State) (c : Nat) : State :=
  if (getCore s c).rep.isSome then releaseRep (modCore (returnPower s c) c (fun k => { k with rep := none })) c else s

/-- The strands of core `c` that run the task of a record. -/
def strandsOn (s : State) (r c : Nat) : List Nat := ((taskStrands s r).filter (fun x => x.1 == c)).map (·.2)

/-! The matrix entries of an aborted task (R221, log 8). -/

/-- The units of a core's engine are free. -/
def idleUnits (s : State) (c : Nat) : State := modCore s c (fun k => { k with macFree := s.now, portFree := s.now, ringFree := s.now })

/-- One entry of some of the cores begins, when one can, or the first that has begun completes; an entry whose slot holds what it does not pair
with ends (R212), and so does one for which none is left that could let it start, so that those behind it go on. -/
def drainStep (cs : List Nat) (s : State) : Option State :=
  let first := fun (p : MEnt → Bool) => cs.findSome? (fun c => ((getCore s c).mq.find? p).map (fun e => (c, e)))
  match cs.findSome? (fun c => (startable s c).map (fun e => (c, e))) with
  | some (c, e) => some (if pairBad s e then removeEntry s c e.id else idleUnits (beginEntry s c e) c)
  | none =>
    match first (fun e => e.started) with
    | some (c, e) => some (removeEntry (endEntry s e) c e.id)
    | none => (first (fun _ => true)).map (fun (c, e) => removeEntry s c e.id)

/-- The entries of some cores complete, as far as their slots allow it. -/
def drain (cs : List Nat) : Nat → State → State
  | 0, s => s
  | n + 1, s =>
    match drainStep cs s with
    | some s => drain cs n s
    | none => s

/-- The queued matrix entries of a task's strands complete at once, core by core in the order of R205, behind no join; one that can never start,
and direct ones that wait for a place, are dropped (R221, log 8). -/
def settleMatrix (s : State) (r : Nat) (cs : List Nat) : State :=
  let mine := fun (c : Nat) (e : MEnt) => (strandsOn s r c).contains e.cx.strand
  let alone := cs.foldl (fun t c => idleUnits (modCore t c (fun k => { k with mq := k.mq.filter (mine c), joins := [] })) c) s
  let done := drain cs (2 * (cs.map (fun c => (getCore alone c).mq.length)).sum) alone
  cs.foldl (fun t c =>
    let k := getCore s c
    fillQueue (modCore t c (fun y =>
      { y with
        mq := k.mq.filter (fun e => !mine c e), mqWait := k.mqWait.filter (fun e => !mine c e)
        joins := k.joins, macFree := k.macFree, portFree := k.portFree, ringFree := k.ringFree })) c) done

/-- The copy entries of a task, its joins among them, are discarded (R339). -/
def dropCopies (r : Nat) (s : State) (c : Nat) : State :=
  pruneJoins (modCore s c (fun k =>
    { k with copyQ := k.copyQ.filter (fun e => e.task != some r), joins := k.joins.filter (fun j => j.task != some r) })) c

/-- What core `c` holds for the task of record `r` ends (R201, R240, R327, R339, R370): `keep` keeps its log for commit. -/
def dropCoreWork (keep : Bool) (r : Nat) (s : State) (c : Nat) : State :=
  let strands := strandsOn s r c
  let head := ((getCore s c).linQ.take 1).any (fun e => strands.contains e.cx.strand)
  let s := { s with pend := s.pend.filter (fun (_, ev) =>
    match ev with
    | .lineageEntryComplete d => !(head && d == c)
    | _ => true) }
  let s := match (getCore s c).rep with
    | some q => if strands.contains q.cx.strand then endRep s c else s
    | none => s
  let mask := strands.foldl (fun a t => a ||| bits ((getStrand s c t).get 11) 7 0) 0
  let s := modCore s c (fun k =>
    { zeroTiles k mask with
      logs := if keep then k.logs else delK k.logs r
      l1 := k.l1.filter (fun x => x.task != r)
      linQ := k.linQ.filter (fun e => !strands.contains e.cx.strand)
      coreQ := k.coreQ.filter (fun x => x != r)
      disp := if k.disp = some r then none else k.disp
      dispFrom := if k.disp = some r then 0 else k.dispFrom
      heap := if k.heap.owner = .task r then {} else k.heap })
  let s := (List.range 2).foldl (fun s j =>
    if (getLatch s c j).bind = .task r then modLatch s c j (fun _ => {}) else s) s
  let s := (List.range 4).foldl (fun s p =>
    modLink s c p (fun k =>
      { k with
        words := if k.claim = .task r then [] else k.words
        claim := if k.claim = .task r then .none else k.claim
        blocked := k.blocked.filter (fun q => q.claim != .task r) })) s
  pruneJoins (strands.foldl (fun s t => reapStrand s c t) s) c

/-- The nodes, sequences and pages that a task has reserved are free again (R283, R303), and the lines of those nodes leave L2
(R277). -/
def dropReservations (s : State) (r : Nat) : State :=
  let mine := (s.pagesResv.filter (fun (_, q) => q == r)).map (fun (p, _) => p)
  { s with
    nodes := s.nodes.map (fun (n, (k : Node)) => (n, if k.resv = some r then { Node.initial n with tiles := [] } else k))
    seqs := s.seqs.map (fun (n, (q : Seq)) => (n, if q.st = .reserved r then { gen := q.gen } else q))
    linHeld := s.linHeld.filter (fun x => (getNode s x.1).resv != some r)
    pagesResv := s.pagesResv.filter (fun (_, q) => q != r)
    pagesOut := s.pagesOut.filter (fun p => !mine.contains p) }

/-- Put a message of cause 0x0B into a core's trap queue (R131). -/
def abortMessage (s : State) (c t : Nat) : State := modCore s c (fun k => k.message ⟨s.now, t, 0x0B, 0, 0⟩)

/-- The strands and all work of a running task end (R131, R355): `keep` keeps its logs, `tell` sends the messages of R131,
`wounded` counts a wound. -/
def endTaskWork (s : State) (r : Nat) (keep tell wounded : Bool) : State :=
  let ms := (getTask s r).members
  let ss := taskStrands s r
  let s := if keep then s else settleMatrix (ms.foldl (dropCopies r) s) r ms
  let s := ms.foldl (dropCoreWork keep r) s
  let s := match ms with
    | c :: _ => freeUnits s (loomOf c) (fun o _ => o == .task r)
    | [] => s
  let s := if tell then
      ms.foldl (fun s c =>
        match ss.find? (fun x => x.1 == c) with
        | some (_, t) => abortMessage s c t
        | none => s) s
    else s
  if wounded then ms.foldl (fun s c => perfAdd s c 12 1) s else s

/-- Drop the reservations and bookkeeping of a gang: its entries leave the core queues, its fetches end (R353, R392). -/
def clearGang (s : State) (r : Nat) : State :=
  let s := { s with pend := s.pend.filter (fun (_, e) =>
    match e with
    | .footprintFetchComplete q _ => q != r
    | .taskRetire q => q != r
    | .commitStart q => q != r
    | _ => true) }
  let s := (getTask s r).members.foldl (fun s c =>
    modCore s c (fun k => { k with
      coreQ := k.coreQ.filter (fun x => x != r)
      fetches := k.fetches.filter (fun j => j.ent.task != some r)
      disp := if k.disp = some r then none else k.disp
      dispFrom := if k.disp = some r then 0 else k.dispFrom })) s
  modTask s r (fun k =>
    { k with members := [], regions := [], wins := [], left := [], fetch := [], locks := 0, away := [] })

end Sys2Proof.Machine
end

