-- ==== Sys2Proof/Machine/Locks.lean ====
section
/-! DEFINITION. The lock manager (R380 to R397): objects, modes, the order of waiters, grants, wounds, room, and the release of a
task's locks; and Wound(t) (R44, R392). -/

namespace Sys2Proof.Machine

/-- LockSlice (R381). -/
def lockSlice (o : LObj) : Nat :=
  let v := o.kind * 2 ^ 55 + o.key
  let h := (v ^^^ (v >>> 12) ^^^ (v >>> 24) ^^^ (v >>> 36) ^^^ (v >>> 48)) % 4096
  h * 192 / 4096

/-- Objects of Table 18.1 that hold an address. -/
def flatObj (level va : Nat) : LObj :=
  match level with
  | 0 => ⟨2, va % 2 ^ 48 / 2 ^ 8⟩
  | 1 => ⟨1, va % 2 ^ 48 / 2 ^ 14⟩
  | _ => ⟨0, va % 2 ^ 48 / 2 ^ 30⟩

def linObj (level node off : Nat) : LObj :=
  match level with
  | 0 => ⟨5, node * 2 ^ 32 + off % 2 ^ 40 / 2 ^ 8⟩
  | 1 => ⟨4, node * 2 ^ 26 + off % 2 ^ 40 / 2 ^ 14⟩
  | _ => ⟨3, node⟩

/-- The ancestors of an object, from the top down (Table 18.1). -/
def ancestors (o : LObj) : List LObj :=
  match o.kind with
  | 1 => [⟨0, o.key / 2 ^ 16⟩]
  | 2 => [⟨0, o.key / 2 ^ 22⟩, ⟨1, o.key / 2 ^ 6⟩]
  | 4 => [⟨3, o.key / 2 ^ 26⟩]
  | 5 => [⟨3, o.key / 2 ^ 32⟩, ⟨4, o.key / 2 ^ 32 * 2 ^ 26 + o.key % 2 ^ 32 / 2 ^ 6⟩]
  | _ => []

/-- The tile of a line object. -/
def tileOf (o : LObj) : Option LObj := if o.kind = 2 ∨ o.kind = 5 then (ancestors o).getLast? else none

/-- Whether an object is a tile. -/
def isTile (o : LObj) : Bool := o.kind == 1 || o.kind == 4

/-- Table 18.4: the held modes that a requested mode is compatible with, bit j for mode j. -/
def defaultRow (m : Mode) : BitVec 7 :=
  match m with
  | .is => 0x1F
  | .ix => 0x07
  | .in_ => 0x27
  | .s => 0x09
  | .six => 0x01
  | .inc => 0x24
  | .x => 0x00

/-- Compatibility of a requested mode with a held one (R383). -/
def compatible (s : State) (r h : Mode) : Bool :=
  match s.locks.matrix with
  | some rows => (nth 0 rows (modeCode r)).getLsbD (modeCode h)
  | none => (defaultRow r).getLsbD (modeCode h)

/-- Table 18.5. -/
def joinRow (h : Mode) : List Mode :=
  match h with
  | .is => [.is, .ix, .ix, .s, .six, .x, .x]
  | .ix => [.ix, .ix, .ix, .six, .six, .x, .x]
  | .in_ => [.ix, .ix, .in_, .six, .six, .inc, .x]
  | .s => [.s, .six, .six, .s, .six, .x, .x]
  | .six => [.six, .six, .six, .six, .six, .x, .x]
  | .inc => [.x, .x, .inc, .x, .x, .inc, .x]
  | .x => [.x, .x, .x, .x, .x, .x, .x]

/-- Join (R384). -/
def joinMode (h m : Mode) : Mode := nth .x (joinRow h) (modeCode m)

/-- The covering mode C(m) (R385). -/
def coverMode (m : Mode) : Mode :=
  match m with
  | .is | .s => .is
  | .ix | .six | .x => .ix
  | .in_ | .inc => .in_

/-- What is asked for an object, from the top of its chain down (R385). -/
def chainFor (o : LObj) (m : Mode) : List (LObj × Mode) := (ancestors o).map (fun a => (a, coverMode m)) ++ [(o, m)]

/-! The table. -/

/-- The entry of an object, empty if it has none. -/
def getEntry (s : State) (o : LObj) : LockEnt :=
  match s.locks.entries.find? (fun e => e.obj == o) with
  | some e => e
  | none => { obj := o }

/-- Put an entry back; one with no holder and no waiter is freed (R382). -/
def putEntry (s : State) (e : LockEnt) : State :=
  let es := s.locks.entries
  let es' :=
    if e.holders.isEmpty && e.waiters.isEmpty then es.filter (fun f => f.obj != e.obj)
    else if es.any (fun f => f.obj == e.obj) then es.map (fun f => if f.obj = e.obj then e else f)
    else es ++ [e]
  { s with locks := { s.locks with entries := es' } }

/-- The mode that a task holds on an object. -/
def heldMode (s : State) (r : Nat) (o : LObj) : Option Mode :=
  ((getEntry s o).holders.find? (fun h => h.task == some r)).map (fun h => h.mode)

/-- The modes that a task holds on an object and above it. -/
def heldOver (s : State) (r : Nat) (o : LObj) : List Mode := (o :: ancestors o).filterMap (heldMode s r)

/-- What an access does, for Table 18.6. -/
inductive Access where
  | load | store | reduce
  deriving DecidableEq, Repr

/-- Table 18.6. -/
def covers (a : Access) (m : Mode) : Bool :=
  match a, m with
  | _, .x => true
  | .load, .s => true
  | .load, .six => true
  | .reduce, .inc => true
  | _, _ => false

/-- Whether a task's access to a line is covered (R386). -/
def covered (s : State) (r : Nat) (o : LObj) (a : Access) : Bool := (heldOver s r o).any (covers a)

/-- The mode that an access asks for (R243). -/
def accessMode : Access → Mode
  | .load => .s
  | .store => .x
  | .reduce => .inc

/-- Records of an entry: a waiting conversion shares its holder's (R382). -/
def LockEnt.records (e : LockEnt) : Nat := e.holders.length + (e.waiters.filter (fun w => !w.conv)).length

/-- Whether the slice of an object has room for one more record, and an entry if it needs one (R382). -/
def hasRoom (s : State) (o : LObj) : Bool :=
  let mine := s.locks.entries.filter (fun e => lockSlice e.obj == lockSlice o)
  let records : Nat := (mine.map (fun e => e.records)).foldl (· + ·) 0
  decide (records < 16384) && (mine.any (fun e => e.obj == o) || decide (mine.length < 4096))

/-! Waiters. -/

/-- Whether waiter `w` stands before waiter `x` that is there already (R388). -/
def waitsBefore (s : State) (w x : Waiter) : Bool :=
  match w.req.task, x.req.task with
  | some r, some q =>
    if w.conv then !x.conv || olderTask s r q
    else if x.conv then false
    else olderTask s r q
  | some _, none => w.conv
  | none, _ => false

/-- Insert a waiter: a task request passes younger task requests behind the last one from outside a task (R388). -/
def insertWaiter (s : State) (w : Waiter) (ws : List Waiter) : List Waiter :=
  let rec place : List Waiter → List Waiter
    | [] => [w]
    | x :: xs =>
      if waitsBefore s w x && (w.conv || !xs.any (fun y => y.req.task.isNone)) then w :: x :: xs else x :: place xs
  place ws

/-- Whether a waiter is compatible with every holder but its own record (R389). -/
def grantable (s : State) (e : LockEnt) (w : Waiter) : Bool :=
  e.holders.all (fun h => (w.req.task.isSome && h.task == w.req.task) || compatible s w.mode h.mode)

/-- A holder's record after a grant: a waiting conversion asks for the join already (R384). -/
def grantHolder (e : LockEnt) (w : Waiter) : LockEnt :=
  if w.req.task.isSome ∧ e.holders.any (fun h => h.task == w.req.task) = true then
    { e with holders := e.holders.map (fun h => if h.task = w.req.task then { h with mode := w.mode } else h) }
  else { e with holders := e.holders ++ [{ task := w.req.task, mode := w.mode, id := w.req.id }] }

/-- The way of a request or of a grant: half of an L2 hit at a slice (Table 10.4, R385); a footprint's two levels take no more than 44
cycles in all (Table 1.8, log 1). -/
def lockTrip (s : State) (q : LReq) : Nat :=
  match q.cont with
  | .footprint _ => pickN s 9 1 11
  | _ => pickN s 9 1 24

/-- The LCNT of a task on a tile. -/
def lcntOf (s : State) (r : Nat) (o : LObj) : Nat :=
  match (getEntry s o).holders.find? (fun h => h.task == some r) with
  | some h => h.lcnt
  | none => 0

/-- Count a new line lock in the LCNT of its tile (R395). -/
def bumpLcnt (s : State) (r : Nat) (o : LObj) (up : Bool) : State :=
  match tileOf o with
  | some t =>
    let e := getEntry s t
    if e.holders.any (fun h => h.task == some r) then
      putEntry s { e with holders := e.holders.map (fun h =>
        if h.task = some r then { h with lcnt := if up then h.lcnt + 1 else h.lcnt - 1 } else h) }
    else s
  | none => s

/-- Whether a line's new lock stands above LIMIT in its tile (R395). -/
def aboveLimit (s : State) (r : Nat) (o : LObj) : Bool :=
  s.locks.limit != 0 && (tileOf o).any (fun t => decide (s.locks.limit < lcntOf s r t))

/-- The objects below an object that a task holds locks on. -/
def heldBelow (s : State) (r : Nat) (o : LObj) : List (LObj × Mode) :=
  s.locks.entries.filterMap (fun e =>
    if (ancestors e.obj).contains o then
      (e.holders.find? (fun h => h.task == some r)).map (fun h => (e.obj, h.mode))
    else none)

/-- The join of the modes of a task's line locks in a tile (R395). -/
def lineJoin (s : State) (r : Nat) (tile : LObj) : Option Mode :=
  (heldBelow s r tile).foldl (fun (m : Option Mode) (x : LObj × Mode) =>
    match m with
    | none => some x.2
    | some y => some (joinMode y x.2)) none

/-- The mode E that the lock manager forms when a line's new lock stands above LIMIT in its tile (R395). -/
def escalated (s : State) (r : Nat) (o : LObj) : Option Mode :=
  if aboveLimit s r o then (tileOf o).bind (lineJoin s r) else none

/-- Grant one waiter: the record is a holder and the grant travels to the core of every request that shares it; an operation outside
tasks has its grant in this step (R281). -/
def grantOne (s : State) (o : LObj) (w : Waiter) : State :=
  let e := getEntry s o
  let fresh := !e.holders.any (fun h => w.req.task.isSome && h.task == w.req.task)
  let s := putEntry s (grantHolder e w)
  let s := match w.req.task with
    | some r => if fresh then bumpLcnt s r o true else s
    | none => s
  let raised := if fresh then w.req.task.bind (fun r => escalated s r o) else none
  (w.req :: w.more).foldl (fun s q =>
    sched s (if q.task.isSome then s.now + lockTrip s q else s.now) (.lockGrant { q with raised := raised })) s

/-- Grant waiters from the front while they are compatible (R389). -/
def settleEntry (o : LObj) : Nat → State → State
  | 0, s => s
  | n + 1, s =>
    let e := getEntry s o
    match e.waiters with
    | [] => s
    | w :: ws =>
      if grantable s e w then settleEntry o n (grantOne (putEntry s { e with waiters := ws }) o w) else s

/-- Enough steps for every waiter of an entry. -/
def settle (s : State) (o : LObj) : State := settleEntry o ((getEntry s o).waiters.length + 1) s

/-- Settle every entry that has waiters. -/
def settleAll (s : State) : State :=
  s.locks.entries.foldl (fun s e => if e.waiters.isEmpty then s else settle s e.obj) s

/-! Release and wounds. -/

/-- Every lock of a task is released, and its requests are withdrawn (R392). -/
def releaseTask (s : State) (r : Nat) : State :=
  let es := s.locks.entries.map (fun (e : LockEnt) =>
    { e with
      holders := e.holders.filter (fun h => h.task != some r)
      waiters := e.waiters.filter (fun w => w.req.task != some r) })
  let es := es.filter (fun (e : LockEnt) => !(e.holders.isEmpty && e.waiters.isEmpty))
  let s := { s with
    locks := { s.locks with entries := es, noRoom := s.locks.noRoom.filter (fun q => q.task != some r) }
    pend := s.pend.filter (fun (_, ev) =>
      match ev with
      | .lockRequestArrival q => q.task != some r
      | .lockGrant q => q.task != some r
      | _ => true) }
  settleAll s

/-- Wound(t) (R44, R392): the task's strands and work end, its locks are released, and it is Queued again with its age. -/
def woundTask (s : State) (r : Nat) : State :=
  let st := (getTask s r).st
  let s := match st with
    | .running => endTaskWork s r false true true
    | .retired => (getTask s r).members.foldl (fun s c => modCore s c (fun k => { k with logs := delK k.logs r })) s
    | _ => s
  let s := clearGang (dropReservations s r) r
  requeue (setTaskState (releaseTask s r) r .queued) r false

/-- States in which a wound takes effect (R26). -/
def woundable (st : TaskState) : Bool :=
  match st with
  | .locking | .running | .retired => true
  | _ => false

/-- The tasks that a waiting task request may wound at one entry: younger, woundable, and holding it back (R390). -/
def woundBy (s : State) (e : LockEnt) : List Waiter → List Waiter → Option Nat
  | _, [] => none
  | ahead, w :: ws =>
    match w.req.task with
    | none => woundBy s e (ahead ++ [w]) ws
    | some r =>
      let bad := fun (t : Option Nat) =>
        match t with
        | some q => q != r && olderTask s r q && woundable (getTask s q).st
        | none => false
      let byHolder := e.holders.filterMap (fun h =>
        if bad h.task && (!compatible s w.mode h.mode || ahead.any (fun a => !compatible s a.mode h.mode && a.req.task != h.task))
        then h.task else none)
      let byAhead := ahead.filterMap (fun a =>
        if bad a.req.task && !(compatible s w.mode a.mode && compatible s a.mode w.mode) then a.req.task else none)
      match byHolder ++ byAhead with
      | q :: _ => some q
      | [] => woundBy s e (ahead ++ [w]) ws

/-- The next wound that the table as it stands calls for. -/
def nextWound (s : State) : Option Nat := s.locks.entries.findSome? (fun e => woundBy s e [] e.waiters)


/-- The youngest younger task with a record at a slice (R397). -/
def roomVictim (s : State) (r sl : Nat) : Option Nat :=
  let mine := s.locks.entries.filter (fun e => lockSlice e.obj == sl)
  let ts := mine.flatMap (fun e => e.holders.filterMap (fun h => h.task) ++ e.waiters.filterMap (fun w => w.req.task))
  let ts := ts.filter (fun q => olderTask s r q && woundable (getTask s q).st)
  ts.foldl (fun m q =>
    match m with
    | none => some q
    | some p => if olderTask s p q then some q else some p) none

/-- Add a request to an entry's waiters: to those of its task, with the join of the modes, when the task waits there already (R382). -/
def addWaiter (s : State) (e : LockEnt) (q : LReq) (m : Mode) (conv : Bool) : LockEnt :=
  let mine := fun (w : Waiter) => q.task.isSome && w.req.task == q.task
  if e.waiters.any mine then
    { e with waiters := e.waiters.map (fun w => if mine w then { w with mode := joinMode w.mode m, more := w.more ++ [q] } else w) }
  else { e with waiters := insertWaiter s { req := q, mode := m, conv } e.waiters }

/-- Put a request into the entry of an object (R384, R388, R389). -/
def putRequest (s : State) (q : LReq) (o : LObj) (m : Mode) : State :=
  let e := getEntry s o
  match e.holders.find? (fun h => q.task.isSome && h.task == q.task) with
  | some h =>
    let target := joinMode h.mode m
    if target = h.mode then sched s s.now (.lockGrant q) else putEntry s (addWaiter s e q target true)
  | none => putEntry s (addWaiter s e q m false)

/-- Whether a request needs a record of its own: a task has one for each object (R382). -/
def needsRecord (s : State) (q : LReq) (o : LObj) : Bool :=
  let e := getEntry s o
  !(q.task.isSome && (e.holders.any (fun h => h.task == q.task) || e.waiters.any (fun w => w.req.task == q.task)))

/-- Whether the table has what a request needs. -/
def roomFor (s : State) (q : LReq) (o : LObj) : Bool := !needsRecord s q o || hasRoom s o

/-- Put a request among those that wait for room: task requests older first (R397, log 62). -/
def insertRoom (s : State) (q : LReq) : List LReq → List LReq
  | [] => [q]
  | x :: xs =>
    match q.task, x.task with
    | some r, some p => if olderTask s r p then q :: x :: xs else x :: insertRoom s q xs
    | _, _ => x :: insertRoom s q xs

/-- Whether a request waits for room at a slice. -/
def waitsRoom (s : State) (sl : Nat) : Bool := s.locks.noRoom.any (fun p => p.todo.any (fun x => lockSlice x.1 == sl))

/-- Put a request's next object into the table, or leave it waiting for room, behind those that wait already (R397). -/
def enterRequest (s : State) (q : LReq) : State :=
  match q.todo with
  | [] => sched s s.now (.lockGrant q)
  | (o, m) :: _ =>
    if roomFor s q o && !(needsRecord s q o && waitsRoom s (lockSlice o)) then putRequest s q o m
    else { s with locks := { s.locks with noRoom := insertRoom s q s.locks.noRoom } }

/-- The first request that waited for room and has it now goes into the table. -/
def enterRoom (s : State) : Option State :=
  s.locks.noRoom.findSome? (fun q =>
    match q.todo with
    | (o, m) :: _ =>
      if roomFor s q o then
        some (putRequest { s with locks := { s.locks with noRoom := s.locks.noRoom.filter (fun p => p != q) } } q o m)
      else none
    | [] => none)

/-- The wound that a request waiting for room calls for (R397). -/
def roomWound (s : State) : Option Nat :=
  s.locks.noRoom.findSome? (fun q =>
    match q.task, q.todo with
    | some r, (o, _) :: _ => roomVictim s r (lockSlice o)
    | _, _ => none)

/-- Apply wounds, and let requests that waited for room in, until nothing more is called for (R390, R397). -/
def applyWounds : Nat → State → State
  | 0, s => s
  | n + 1, s =>
    match nextWound s with
    | some q => applyWounds n (woundTask s q)
    | none =>
      match enterRoom s with
      | some s => applyWounds n (settleAll s)
      | none =>
        match roomWound s with
        | some q => applyWounds n (woundTask s q)
        | none => s

/-- The lock table after any change: grants, then wounds and room. -/
def settleLocks (s : State) : State := applyWounds 65536 (settleAll s)

/-- LOCK_REQUEST_ARRIVAL (R389, R390, R397). -/
def execLockRequestArrival (q : LReq) (s : State) : Out := .next (settleLocks (enterRequest s q))

/-- Ask for locks: the request sets out for the slice of its first object. -/
def askLocks (s : State) (q : LReq) : State :=
  let q := { q with id := s.locks.next, raised := none }
  let s := { s with locks := { s.locks with next := s.locks.next + 1 } }
  sched s (s.now + lockTrip s q) (.lockRequestArrival q)

/-- An operation outside a task gives its lock up in the step of its grant (R281, R303). -/
def releaseOutside (s : State) (o : LObj) (id : Nat) : State :=
  let e := getEntry s o
  settleLocks (putEntry s { e with holders := e.holders.filter (fun h => h.task.isSome || h.id != id) })

/-- Release one lock of a task (R395, R398). -/
def releaseOne (s : State) (r : Nat) (o : LObj) : State :=
  let e := getEntry s o
  bumpLcnt (putEntry s { e with holders := e.holders.filter (fun h => h.task != some r) }) r o false

/-- Release the locks of a task below an object that satisfy a condition on their mode. -/
def releaseBelow (s : State) (r : Nat) (o : LObj) (p : Mode → Bool) : State :=
  (heldBelow s r o).foldl (fun s (x, m) => if p m then releaseOne s r x else s) s

/-- Join of the granted modes of an entry: none when there is no holder. -/
def grantedJoin (e : LockEnt) : Option Mode :=
  match e.holders with
  | [] => none
  | h :: hs => some (hs.foldl (fun m x => joinMode m x.mode) h.mode)

end Sys2Proof.Machine
end

