-- ==== Sys2Proof/Machine/Seqs.lean ====
section
/-! DEFINITION. Sequences, their images and windows as data (R297 to R306), and what a load that carries a window returns (R302). -/

namespace Sys2Proof.Machine

def getSeq (s : State) (q : Nat) : Seq := getK {} s.seqs q

def modSeq (s : State) (q : Nat) (f : Seq → Seq) : State := { s with seqs := setK s.seqs q (f (getSeq s q)) }

/-- Doubleword `i` of the image (Table 13.2). -/
def Seq.dw (q : Seq) (i : Nat) : Word := nth 0 q.img i

/-- Fields of the image. -/
def Seq.cnt (q : Seq) : Nat := bits (q.dw 0) 31 0
def Seq.lptc (q : Seq) : Nat := bits (q.dw 0) 34 32
def Seq.lpt (q : Seq) : Nat := 2 ^ q.lptc
def Seq.sl (q : Seq) : Nat := bits (q.dw 0) 42 36
def Seq.plist (q : Seq) : Nat := bits (q.dw 1) 47 0
def Seq.saddr (q : Seq) : Nat := bits (q.dw 2) 47 0
def Seq.npg (q : Seq) : Nat := bits (q.dw 3) 31 0
def Seq.posn (q : Seq) : Nat := bits (q.dw 4) 31 0

/-- Tokens of a page, TPP (R300). -/
def Seq.tpp (q : Seq) : Nat := max 1 (64 / q.lpt)

/-- Replace bits of an image doubleword. -/
def Seq.setField (q : Seq) (i hi lo v : Nat) : Seq := { q with img := q.img.set i (setBits (q.dw i) hi lo v) }

/-- The image with its reserved bits 0 (R298, R6). -/
def cleanImage (ws : List Word) : List Word :=
  let w := fun i => nth 0 ws i
  [ wd (bits (w 0) 34 0 + bits (w 0) 42 36 * 2 ^ 36 + bits (w 0) 61 48 * 2 ^ 48), wd (bits (w 1) 47 0), wd (bits (w 2) 47 0)
  , w 3, wd (bits (w 4) 31 0), w 5, w 6, 0 ]

/-- Page index of a position (R300). -/
def Seq.pageIndex (q : Seq) (p : Nat) : Nat := (q.cnt + p) / q.tpp

/-- The highest page index that a keep of `n` positions reaches (R304). -/
def Seq.last (q : Seq) (n : Nat) : Nat := (q.cnt + n - 1) / q.tpp

/-- What a keep of `n` positions takes beyond its 60 cycles: a cycle for every 4 records kept and 8 for each page kept (R313). -/
def Seq.keepCost (q : Seq) (n : Nat) : Nat :=
  cdiv (q.recs.filter (fun r => decide (r.pos < n))).length 4 + 8 * (q.pages.filter (fun y => decide (y.1 ≤ q.last n))).length

/-- The handle of a sequence (R297). -/
def handleOf (n gen : Nat) : Word := wd (n + gen % 65536 * 4096)

/-- A window operation on a sequence's own data (R303, R304, R306); pages and memory are written elsewhere. -/
def applySeqOp (q : Seq) (op : WinOp) : Seq :=
  match op with
  | .open_ _ img => { q with img := cleanImage img, recs := [], pages := [] }
  | .close _ _ _ => { gen := q.gen }
  | .kvw _ _ pos line state target _ data =>
    let r : WRec := ⟨pos, state, line, target, data⟩
    if q.recs.any (fun x => x.pos == pos && x.state == state && x.line == line) then
      { q with recs := q.recs.map (fun x => if x.pos = pos ∧ x.state = state ∧ x.line = line then r else x) }
    else { q with recs := q.recs ++ [r] }
  | .kvc _ _ n _ _ =>
    let last := q.last n
    let q := { q with recs := [], pages := [] }
    let q := q.setField 3 31 0 (max q.npg (last + 1))
    let q := q.setField 0 31 0 (q.cnt + n)
    q.setField 4 31 0 (q.posn + n)
  | .kvd _ _ => { q with recs := [], pages := [] }
  | .pgal _ _ idx page => { q with pages := setK q.pages idx page }
  | .pgfr _ => q

/-- The sequence that an operation names. -/
def winSeq : WinOp → Option Nat
  | .open_ q _ => some q
  | .close q _ _ => some q
  | .kvw q _ _ _ _ _ _ _ => some q
  | .kvc q _ _ _ _ => some q
  | .kvd q _ => some q
  | .pgal q _ _ _ => some q
  | .pgfr _ => none

/-- A sequence as a strand sees it: with its task's logged operations applied (R303). -/
def seqView (s : State) (task : Option Nat) (q : Nat) : Seq :=
  match task with
  | none => getSeq s q
  | some r =>
    (taskWinOps s r).foldl (fun x op => if winSeq op = some q then applySeqOp x op else x) (getSeq s q)

/-- Whether a handle is foreign to a strand (R297). -/
def foreignHandle (s : State) (task : Option Nat) (h : Word) : Bool :=
  let q := seqView s task (bits h 11 0)
  let mine := match q.st with
    | .free => false
    | .open_ => true
    | .reserved r => task == some r
  !mine || bits h 27 12 != q.gen || bits h 63 28 != 0

/-- The state record of a line with the highest position below `n` (R304). -/
def stateRec (q : Seq) (n line : Nat) : Option WRec :=
  (q.recs.filter (fun r => r.state && r.line == line && decide (r.pos < n))).foldl (fun (m : Option WRec) r =>
    match m with
    | some x => if x.pos < r.pos then some r else some x
    | none => some r) none

/-- The bytes that a keep of `n` positions writes into the line of an address (R304). -/
def keptLine (q : Seq) (n va pa : Nat) : Option (List Byte) :=
  match q.recs.find? (fun r => !r.state && r.target == pa / 256 * 256 && decide (r.pos < n)) with
  | some r => some r.data
  | none =>
    if q.saddr ≤ va ∧ va < q.saddr + 256 * q.sl then (stateRec q n ((va - q.saddr) / 256)).map (fun r => r.data) else none

/-- What a load that carries a window meets as its core's log is gone through (R302): the sequence as its operations leave it; the task's
own last record of the line; the bytes stored behind that record; and the bytes that the log's stores and keeps leave
at the address itself. -/
structure Carry where
  seq : Seq
  mine : Option WRec := none
  above : List (Option Byte)
  below : List (Option Byte)
  deriving DecidableEq, Repr

/-- Bytes over others: those that are there stand. -/
def overBytes (top base : List (Option Byte)) : List (Option Byte) :=
  (List.range base.length).map (fun i => (nth none top i).orElse (fun _ => nth none base i))

/-- The bytes of an access that a store leaves. -/
def storedBytes (a : Option GAddr) (n : Nat) (x : GAddr) (bs : List Byte) : List (Option Byte) :=
  (List.range n).map (fun i =>
    a.bind (fun a => ((List.range bs.length).find? (fun j => gplus x j == gplus a i)).map (fun j => nth 0 bs j)))

/-- The `n` bytes of an address's line, as bytes of a load. -/
def lineBytes (va n : Nat) (l : List Byte) : List (Option Byte) := (((l.drop (va % 256)).take n).map some)

/-- Whether a record is of the line of a load (R302): a KV record by its physical target, a state record by its address. -/
def WRec.carries (q : Seq) (va : Nat) (pa : Option Nat) (r : WRec) : Bool :=
  if r.state then q.saddr + 256 * r.line == va / 256 * 256 else pa.any (fun a => r.target == a / 256 * 256)

/-- Whether a record of a load's line stands before another: a KV record before one of state, and of those the higher position (R302). -/
def WRec.before (r x : WRec) : Bool := !r.state || (x.state && decide (x.pos ≤ r.pos))

/-- The record of a window that a load returns (R302). -/
def Seq.carriedRec (q : Seq) (va : Nat) (pa : Option Nat) : Option WRec :=
  (q.recs.filter (fun r => r.carries q va pa)).foldl (fun (m : Option WRec) r =>
    if m.all (fun x => r.before x) then some r else m) none

/-- A record of the log, in log order: a store lies over what was logged before it, a `kvw` of the line is the task's own record of it in
place of an earlier one (R302, R244), and what ends the window's records keeps them or lets them go (R302, R304, R306). -/
def carryStep (q va : Nat) (pa : Option Nat) (n : Nat) (y : Carry) (e : LogRec) : Carry :=
  let clean := List.replicate n none
  match e with
  | .store x bs =>
    let b := storedBytes (pa.map .phys) n x bs
    { y with above := if y.mine.isSome then overBytes b y.above else y.above, below := overBytes b y.below }
  | .win op _ =>
    if winSeq op = some q then
      let seq := applySeqOp y.seq op
      match op with
      | .kvw _ _ pos line state target _ data =>
        let r : WRec := ⟨pos, state, line, target, data⟩
        if r.carries y.seq va pa then { y with seq, mine := some r, above := clean } else { y with seq }
      | .kvc _ _ k _ _ =>
        let kept := pa.bind (fun a => keptLine y.seq k va a)
        { seq, mine := none, above := clean, below := kept.elim y.below (lineBytes va n) }
      | .pgal _ _ _ _ => { y with seq }
      | _ => { y with seq, mine := none, above := clean }
    else y
  | _ => y

/-- The `n` bytes of a load that carries the window of sequence `q`, over the bytes `base` that are at the address (R302): the core's log,
the task's own records among it, then the window's record. -/
def carried (s : State) (log : List LogRec) (q va : Nat) (pa : Option Nat) (n : Nat) (base : List Byte) : List Byte :=
  let clean := List.replicate n none
  let y := log.foldl (carryStep q va pa n) { seq := getSeq s q, above := clean, below := clean }
  let own := match y.mine with
    | some r => overBytes y.above (lineBytes va n r.data)
    | none => y.below
  let record := (y.seq.carriedRec va pa).elim clean (fun r => lineBytes va n r.data)
  (List.range n).map (fun i => ((nth none own i).orElse (fun _ => nth none record i)).getD (nth 0 base i))

/-- The log of a strand's task on its core. -/
def cxLog (s : State) (cx : Ctx) (task : Option Nat) : List LogRec := task.elim [] (getLog s cx.core)

/-- The bytes of an `ldg` of a flat address whose bytes are `base`, with the window of the strand's sequence (R302): `pa` is none on a page
of a peer or the host, where only state lines lie. -/
def windowLoad (s : State) (cx : Ctx) (task : Option Nat) (va : Nat) (pa : Option Nat) (n : Nat) (base : List Byte) : List Byte :=
  match (getStrand s cx.core cx.strand).seq with
  | some q => carried s (cxLog s cx task) q va pa n base
  | none => base

/-- The bytes of an `ldg` of a flat address, with the window of the strand's sequence (R302, R244); `logged` says whether the page's
stores are logged. -/
def flatLoad (s : State) (cx : Ctx) (task : Option Nat) (logged : Bool) (va pa n : Nat) : List Byte :=
  if (getStrand s cx.core cx.strand).seq.isNone && logged then loadBytes s cx.core task (.phys pa) n
  else windowLoad s cx task va (some pa) n (memRead s pa n)

/-- The window operations that a task has logged, each with its sequence as those before it leave it (R303). -/
def winSteps (s : State) (r : Nat) : List (Seq × WinOp) :=
  ((taskWinOps s r).foldl (fun (y : List (Nat × Seq) × List (Seq × WinOp)) op =>
    match winSeq op with
    | none => (y.1, y.2 ++ [({}, op)])
    | some q =>
      let x := getK (getSeq s q) y.1 q
      (setK y.1 q (applySeqOp x op), y.2 ++ [(x, op)])) (([] : List (Nat × Seq)), ([] : List (Seq × WinOp)))).2

/-- The addresses that the window operations of a task write when it commits: what its keeps write (R261, R304). -/
def winLines (s : State) (r : Nat) : List Nat :=
  (winSteps s r).flatMap (fun (x, op) =>
    match op with
    | .kvc _ _ n plist state =>
      (x.recs.filter (fun w => !w.state && decide (w.pos < n))).map (fun w => w.target) ++ (plist ++ state).map (fun p => p.2)
    | _ => [])

end Sys2Proof.Machine
end

