-- ==== Sys2Proof/Machine/Global.lean ====
section
/-! DEFINITION. Page 4 without the copy engine: global loads and stores, atomics, reductions, `fence` and `pfg` (R231 to R255), with
their happenings. -/

namespace Sys2Proof.Machine

/-- The task of the strand of a context. -/
def cxTask (s : State) (cx : Ctx) : Option Nat := taskOf s cx.core cx.strand

/-- HomeSlice of a value v (R239). -/
def sliceHash (v : Nat) : Nat := ((v ^^^ (v >>> 12) ^^^ (v >>> 24) ^^^ (v >>> 36)) % 4096) * 192 / 4096

/-- HomeSlice of a place (R239). -/
def homeSlice (a : GAddr) : Nat :=
  match a with
  | .phys pa => sliceHash (pa / 256)
  | .lin n off => sliceHash (n * 2 ^ 32 + off / 256)

/-- Whether an access stores: everything but a load (R235). -/
def gStores : GKind → Bool
  | .ld => false
  | _ => true

/-- Whether an access returns a value to its strand. -/
def gReturns : GKind → Bool
  | .st => false
  | .red _ => false
  | _ => true

/-- What an access asks of the lock table (R243). -/
def gAsks : GKind → Access
  | .ld => .load
  | .red _ => .reduce
  | _ => .store

/-- Whether an atomic or reduction is native on a host page (Table 10.5). -/
def gNative (k : GKind) (n : Nat) : Bool :=
  match k with
  | .amo op => decide (op.toNat ≤ 1)
  | .amoc => n == 8
  | .red op => op == 0
  | _ => true

/-- Node id and offset of a lineage address (Table 10.1). -/
def linNode (va : Word) : Nat := bits va 62 40
def linOff (va : Word) : Nat := bits va 39 0

/-- The committed byte address that a place names. -/
def gAddr (loc : GLoc) : GAddr :=
  match loc with
  | .imm pa => .phys pa
  | .task pa => .phys pa
  | .lin n off => .lin n off
  | .remote _ _ pa => .phys pa
  | .counter off => .phys (apertureBase + off)
  | .done _ => .phys 0

/-- End a waiting access with a trap. -/
def gTrap (s : State) (g : GAcc) (cause : Byte) (info : Word) : State := trapAt s g.cx cause info

/-! Node checks. -/

/-- Whether a node is live for a strand: Live, or Reserved by its task, and not dropped by it (R279). -/
def nodeLive (s : State) (task : Option Nat) (n : Nat) : Bool :=
  let k := getNode s n
  let dropped := match task with
    | some r => (taskNodeOps s r).contains (.drop n)
    | none => false
  n != 0 && k.valid && !k.ghost && (k.resv.isNone || k.resv == task) && !dropped

/-- Count a lineage trap (R291). -/
def countLin (s : State) (cause : Byte) : State :=
  if cause = 0x08 then linAdd s 2 1 else if cause = 0x09 then linAdd s 3 1 else if cause = 0x0A then linAdd s 4 1 else s

/-- The lineage checks of R278 and R279 in their order: a trap cause with INFO. -/
def checkLineage (s : State) (task : Option Nat) (va : Word) (store : Bool) : Option Bad :=
  let n := linNode va
  let k := getNode s n
  let dropped := match task with
    | some r => (taskNodeOps s r).contains (.drop n)
    | none => false
  if n = 0 ∨ k.valid = false ∨ k.ghost = true ∨ (k.resv.isSome ∧ k.resv ≠ task) then some (0x0A, 0)
  else if k.ntiles ≤ linOff va / 16384 then some (0x06, va)
  else if store && k.frozen then some (0x08, 0)
  else if dropped then some (0x0A, 0)
  else none

/-- Whether a node is no longer live in the table for a strand (R273, Table 12.7). -/
def nodeGone (s : State) (task : Option Nat) (n : Nat) : Bool :=
  let k := getNode s n
  n != 0 && (!k.valid || k.ghost || (k.resv.isSome && k.resv != task))

/-- Trap with a lineage cause, counted. -/
def linTrap (s : State) (cx : Ctx) (b : Bad) : State := trapAt (countLin s b.1) cx b.1 b.2

/-! Times. -/

/-- The extra time of a lineage line (R277). -/
def resolveTime (s : State) (n off : Nat) : Nat :=
  if lineHeld s n (off / 256) then 0
  else
    let (v, p) := resolveCost s (off / 256) chainFuel n
    24 * (v - 1) + 2 * p

/-- The bound of Table 10.4 for a place, `extra` for translation (R241), and for a row under test (R407). -/
def accessBound (s : State) (c : Nat) (loc : GLoc) (extra : Nat) : Nat :=
  let near := if homeSlice (gAddr loc) / 48 = dieOf c then 48 else 64
  let lin := match loc with
    | .lin n off => resolveTime s n off
    | _ => 0
  near + 160 + extra + lin + testDelay s

/-- A time within the bound (R414). -/
def accessTime (s : State) (c : Nat) (loc : GLoc) (extra : Nat) : Nat := pickN s 10 1 (accessBound s c loc extra)

/-! Performing. -/

/-- The new value of an atomic or reduction: none when nothing is written (R252, R253). -/
def gNew (g : GAcc) (old : Nat) : Option Nat :=
  match g.kind with
  | .ld => none
  | .st => some (g.data.toNat % 256 ^ g.n)
  | .amo op => some (amoNew op old (g.data.toNat % 256 ^ g.n))
  | .amoc => if old = g.cmp.toNat % 256 ^ g.n then some (g.data.toNat % 256 ^ g.n) else none
  | .red op => some (redNew op old (g.data.toNat % 256 ^ g.n))

/-- Perform an access to an immediate page at its home slice: the state and the old value (R246, R257). -/
def performImm (s : State) (g : GAcc) (loc : GLoc) : State × Nat :=
  match loc with
  | .counter off =>
    let bs := counterBytes s off g.n
    (s, ofBytes (if g.kind = .ld then windowLoad s g.cx (cxTask s g.cx) g.va.toNat (some (apertureBase + off)) g.n bs else bs))
  | .imm pa =>
    let old := if g.kind = .ld then ofBytes (flatLoad s g.cx (cxTask s g.cx) false g.va.toNat pa g.n) else ofBytes (memRead s pa g.n)
    (match gNew g old with
      | some v => memWrite s pa (toBytes g.n v)
      | none => s, old)
  | _ => (s, 0)

/-- Whether a committing task has records for the line of an address (R261). -/
def recTouches (e : LogRec) (a : GAddr) : Bool :=
  let same := fun (x y : GAddr) =>
    match x, y with
    | .phys p, .phys q => p / 256 == q / 256
    | .lin n o, .lin m u => n == m && o / 256 == u / 256
    | _, _ => false
  match e with
  | .store x _ => same x a
  | .red x _ _ => same x a
  | _ => false

/-- Whether a line is pending: a committing task writes it and is not yet released (R261). -/
def linePending (s : State) (a : GAddr) : Bool :=
  s.tasks.any (fun (r, k) =>
    k.st == .committing && (k.members.any (fun c => (getLog s c r).any (fun e => recTouches e a)) ||
      (match a with
      | .phys p => (winLines s r).any (fun pa => pa / 256 == p / 256)
      | _ => false)))

/-- The value that a load of committed memory returns to its strand (R242, R244). -/
def loadValueG (s : State) (g : GAcc) (loc : GLoc) : Nat :=
  let task := cxTask s g.cx
  match loc with
  | .task pa => ofBytes (flatLoad s g.cx task true g.va.toNat pa g.n)
  | .lin n off => ofBytes (loadBytes s g.cx.core task (.lin n off) g.n)
  | _ => 0

/-- Whether a strand's earlier posted store must be performed before an access (R249): the same location, or any when the
access is a `.rel` store or an atomic, or when a `fence` stands between them (R254). -/
def mustFollow (s : State) (g : GAcc) (own : Option Nat) (loc : GLoc) : Bool :=
  let order := match g.kind with
    | .st => g.ordered
    | .amo _ => true
    | .amoc => true
    | _ => false
  let a := gAddr loc
  (getCore s g.cx.core).posted.any (fun p =>
    p.g.cx.strand == g.cx.strand && !p.done && !gReturns p.g.kind &&
    (match own with | some i => decide (p.id < i) | none => true) &&
    (order || p.fenced ||
      (match gAddr p.loc, a with
      | .phys x, .phys y => decide (x < y + g.n) && decide (y < x + p.g.n)
      | _, _ => false)))

/-- Whether a `fence` keeps an access of a strand behind a posted one of it that is outstanding (R254). -/
def behindFence (s : State) (c t : Nat) : Bool :=
  (getCore s c).posted.any (fun p => p.g.cx.strand == t && !p.done && !gReturns p.g.kind && p.fenced)

/-! L1. -/

/-- The committed line of a place. -/
def lineOf (a : GAddr) : GAddr :=
  match a with
  | .phys p => .phys (p / 256 * 256)
  | .lin n o => .lin n (o / 256 * 256)

/-- Whether the L1 serves a load (R240). -/
def l1Serves (s : State) (g : GAcc) (loc : GLoc) : Bool :=
  let k := getCore s g.cx.core
  match cxTask s g.cx with
  | some r => g.kind == .ld && k.l1.any (fun x => x.task == r && x.line == lineOf (gAddr loc))
  | none => false

/-- Whether banks of a place of a core's L1 are under self-test (R185, R407). -/
def placeTested (s : State) (c place : Nat) : Bool :=
  bankTested s c (bankMask (storeTop (getCore s c).splitNow + 256 * place) 256)

/-- Whether the L1 line that serves a load lies in a bank under self-test: the load waits (R407). -/
def l1Tested (s : State) (g : GAcc) (loc : GLoc) : Bool :=
  l1Serves s g loc && (getCore s g.cx.core).l1.any (fun x =>
    x.line == lineOf (gAddr loc) && cxTask s g.cx == some x.task && placeTested s g.cx.core x.place)

/-- Whether a load by a task fills the L1: under a lock that covers it (R240). -/
def l1Fills (s : State) (g : GAcc) (loc : GLoc) : Bool :=
  match cxTask s g.cx, loc with
  | some r, .task _ => covered s r (flatObj 0 g.va.toNat) .load
  | some r, .lin n off => covered s r (linObj 0 n off) .load
  | _, _ => false

/-- Put a line into the L1 of a core; a fill overwrites the bytes of its place in the banks (R185), and one into a bank under self-test is not made
(log 45). -/
def l1Fill (s : State) (c r : Nat) (line : GAddr) : State :=
  let k := getCore s c
  let split := k.splitNow
  if split = 0 ∨ k.l1.any (fun x => x.line == line) then s
  else
    let place := pickN s 12 0 (256 * split - 1)
    if placeTested s c place then s
    else
    let bytes := match line with
      | .phys p => memRead s p 256
      | .lin n o => resolveLine s n (o / 256)
    let s := lsWrite s c (storeTop split + 256 * place) bytes
    modCore s c (fun k => { k with l1 := k.l1.filter (fun x => x.place != place) ++ [⟨place, r, line⟩] })

/-! The course of an access. -/

/-- Hand the value of an access to its strand (R251, R252). -/
def finishG (s : State) (g : GAcc) (v : Nat) : State := if stillWaits s g.cx then finish s g.cx g.dst (wd v) else s

/-- Posted stores and reductions outstanding on a core (R251). -/
def postedCount (k : Core) : Nat := (k.posted.filter (fun p => !gReturns p.g.kind)).length

/-- The lanes of a port that have not been dropped (R403): there are ports 0 to 17 with four lanes each (R8). -/
def portLanes (s : State) (port : Nat) : List Nat :=
  if port < 18 then (List.range 4).filter (fun l => !s.mgmt.lanesOff.contains (port, l)) else []

/-- Whether a port is dead (R403). -/
def portDead (s : State) (port : Nat) : Bool := decide ((portLanes s port).length < 2)

/-- Send an access out: it is kept until it is answered. Which port one to a peer or the host leaves by is open (log 4); at a dead one it fails
with WHY 1 (R403) when it would have completed, which is open between the bounds of Table 10.4 and R250 (log 1). -/
def sendOut (s : State) (g : GAcc) (loc : GLoc) : State :=
  let c := g.cx.core
  let id := (getCore s c).postedNext
  let g := { g with id := id }
  let port := pickN s 14 0 17
  let s := modCore s c (fun k => { k with posted := k.posted ++ [{ id, g, loc, task := taskOf s c g.cx.strand, port }], postedNext := id + 1 })
  match loc with
  | .remote _ _ _ =>
    sched s (s.now + (if portDead s port then pickN s 41 1400 700000 else 700000)) (.peerTimeout c id)
  | _ => sched s (s.now + accessTime s c loc 0) (.globalAccessComplete g loc)

/-- Post a store or reduction (R251, R253): its strand goes on, or waits for a place. -/
def post (s : State) (g : GAcc) (loc : GLoc) : State :=
  if postedCount (getCore s g.cx.core) < 64 then complete (sendOut s g loc) g.cx
  else
    modStrand s g.cx.core g.cx.strand (fun x => { x with wait := x.wait.map (fun w => { w with why := .posted g loc }) })

/-- Whether a task's access puts a record into its log: an `amoc` that fails does not (R244, R246). -/
def logsRecord (s : State) (g : GAcc) (loc : GLoc) (r : Nat) : Bool :=
  match g.kind with
  | .ld => false
  | .amoc => (gNew g (atomicOld s g.cx.core r (gAddr loc) g.n)).isSome
  | _ => true

/-- The room that a logged access needs: a record of the log, and the storage of a lineage tile (R244, R276); none when there is none. -/
def logRoom (s : State) (g : GAcc) (loc : GLoc) : Option State :=
  match cxTask s g.cx, loc with
  | some r, .task _ => if logsRecord s g loc r && logFull s g.cx.core r then none else some s
  | some r, .lin n off =>
    if logsRecord s g loc r then (if logFull s g.cx.core r then none else reserveTile s n (off / 16384)) else some s
  | _, _ => some s

/-- Record a logged access (R244, R246); the line that an atomic reads is resolved into its slice (R277). -/
def logAccess (s : State) (g : GAcc) (loc : GLoc) (r : Nat) : State :=
  let a := gAddr loc
  let c := g.cx.core
  match g.kind with
  | .st => complete (logAdd s c r (.store a (toBytes g.n g.data.toNat))) g.cx
  | .red op => complete (logAdd s c r (.red a op g.data)) g.cx
  | _ =>
    let old := atomicOld s c r a g.n
    let time := accessTime s c loc 0
    let s := match loc with
      | .lin n off => resolveInto s n (off / 256)
      | _ => s
    let s := match gNew g old with
      | some v => logAdd s c r (.store a (toBytes g.n v))
      | none => s
    sched s (s.now + time) (.globalAccessComplete g (.done (wd old)))

/-- An access whose locks are held goes to its place (R242), if the log has room for it; watchpoints come last (R133, R143). An `amoc` is watched as
a load and as a store before it compares (R143 does not say for one that fails; DESIGN CHOICE, log 15). One to a task page or lineage space that
reads waits behind a `fence` (R254). -/
def placeAccess (s : State) (g : GAcc) (loc : GLoc) (extra : Nat) : State :=
  match logRoom s g loc with
  | none => gTrap s g 0x07 g.va
  | some room =>
  orTrap s g.cx
    (watchGlobal s g.cx (g.kind == .ld || (match g.kind with | .amo _ => true | .amoc => true | _ => false)) (gStores g.kind) g.va g.n)
    (match loc with
    | .imm _ | .counter _ =>
      if (gReturns g.kind) then sched s (s.now + accessTime s g.cx.core loc extra) (.globalAccessComplete g loc)
      else post s g loc
    | .remote _ _ _ => if (gReturns g.kind) then sendOut s g loc else post s g loc
    | _ =>
      let waits := gReturns g.kind && behindFence s g.cx.core g.cx.strand
      match cxTask s g.cx with
      | some r =>
        if g.kind ≠ .ld ∧ waits = true then sched s (s.now + 1) (.globalAccessComplete g loc)
        else if g.kind = .ld then
          if l1Serves s g loc && !waits && !l1Tested s g loc then finishG (perfAdd s g.cx.core 4 1) g (loadValueG s g loc)
          else
            let s := if 0 < (getCore s g.cx.core).splitNow then perfAdd s g.cx.core 5 1 else s
            sched s (s.now + accessTime s g.cx.core loc extra) (.globalAccessComplete g loc)
        else logAccess room g loc r
      | none => sched s (s.now + accessTime s g.cx.core loc extra) (.globalAccessComplete g loc))

/-- The lock object that an access of a task needs, if any (R243, R278, R386). -/
def lockNeeded (s : State) (g : GAcc) (loc : GLoc) : Option (Nat × LObj) :=
  match cxTask s g.cx, loc with
  | some r, .task _ =>
    let o := flatObj 0 g.va.toNat
    if covered s r o (gAsks g.kind) then none else some (r, o)
  | some r, .lin n off =>
    let o := linObj 0 n off
    if (g.kind == .ld && (getNode s n).frozen) || covered s r o (gAsks g.kind) then none else some (r, o)
  | _, _ => none

/-- Note that a waiting strand waits for a lock. -/
def waitLock (s : State) (cx : Ctx) : State :=
  modStrand s cx.core cx.strand (fun x => { x with wait := x.wait.map (fun w => { w with why := .lock }) })

/-- Ask for the lock of R243, or go on (step 6 of the order of traps). -/
def lockStep (s : State) (g : GAcc) (loc : GLoc) (extra : Nat) : State :=
  match lockNeeded s g loc with
  | some (r, o) =>
    askLocks (waitLock s g.cx)
      { cx := g.cx, task := some r, todo := chainFor o (accessMode (gAsks g.kind)), cont := .access g loc }
  | none => placeAccess s g loc extra

/-- Whether a record of a task's access has no room (R244); that of an `amoc` is judged when it is compared. -/
def noLogRoom (s : State) (g : GAcc) : Bool :=
  match cxTask s g.cx with
  | some r => gStores g.kind && g.kind != .amoc && logFull s g.cx.core r
  | none => false

/-- A flat access under its leaf (R234, R235, R242, R244, R247, R344). -/
def flatAccess (s : State) (g : GAcc) (l : TLeaf) (extra : Nat) : State :=
  let pa := l.pa g.va.toNat
  let attr := entAttr l.entry
  let store := (gStores g.kind)
  if attr < 2 ∧ inHbm pa = false ∧ inAperture pa = false then gTrap s g 0x06 g.va
  else if store && !entW l.entry then gTrap s g 0x07 g.va
  else if attr = 0 ∧ store = true ∧ (cxTask s g.cx).isNone = true then gTrap s g 0x07 g.va
  else if attr = 0 ∧ inAperture pa = true then gTrap s g 0x07 g.va
  else if attr < 2 ∧ inPool s pa = true then gTrap s g 0x07 g.va
  else if attr = 0 ∧ noLogRoom s g = true then gTrap s g 0x07 g.va
  else if attr = 3 ∧ gNative g.kind g.n = false then gTrap s g 0x0F 0
  else
    let loc : GLoc :=
      match attr with
      | 0 => .task pa
      | 1 => if inAperture pa then .counter (pa - apertureBase) else .imm pa
      | _ => .remote (attr == 3) (entNode l.entry) pa
    lockStep s g loc extra

/-- A lineage access (R235, R244, R278, R279). -/
def linAccess (s : State) (g : GAcc) : State :=
  let task := cxTask s g.cx
  let store := (gStores g.kind)
  if store && task.isNone then gTrap s g 0x07 g.va
  else if noLogRoom s g then gTrap s g 0x07 g.va
  else
    match checkLineage s task g.va store with
    | some b => linTrap s g.cx b
    | none => lockStep s g (.lin (linNode g.va) (linOff g.va)) 0

/-- Start a global access: alignment, form and translation (R231 to R233, R236). -/
def startGlobal (s : State) (i : Instr) (g : GAcc) : State :=
  if g.va.toNat % g.n != 0 then gTrap s g 0x03 g.va
  else
    let s := leaveFlight s i g.cx
    if bit g.va 63 then linAccess s g
    else if bits g.va 62 48 != 0 then gTrap s g 0x06 g.va
    else
      match buffered s g.cx.core g.va.toNat with
      | some (l, t) =>
        match freshLeaf s l g.va.toNat with
        | some m => flatAccess (useLeaf s g.cx.core l t) g m t
        | none => gTrap (useLeaf s g.cx.core l t) g 0x06 g.va
      | none => askWalk s ⟨g.cx.core, g.va.toNat, .access g⟩

/-- GLOBAL_ACCESS_COMPLETE (R241, R242, R246, R257, R261): the access is performed at its place and its value returns; a lineage load
whose node a drop has taken away meanwhile raises cause 0x0A (Table 12.7). A posted store or reduction waits at a pending line as a read does, while
writes over the fabric go through (R261 speaks of reads only; DESIGN CHOICE, log 21). -/
def execGlobalAccessComplete (g : GAcc) (loc : GLoc) (s : State) : Out :=
  .next
    (let c := g.cx.core
     let posted := !(gReturns g.kind)
     match loc with
     | .done v => finishG s g v.toNat
     | .imm _ | .counter _ =>
       if (if posted then !(getCore s c).posted.any (fun p => p.id == g.id) else !stillWaits s g.cx) then s
       else if mustFollow s g (if posted then some g.id else none) loc then sched s (s.now + 1) (.globalAccessComplete g loc)
       else if linePending s (gAddr loc) then { s with readWaits := s.readWaits ++ [(g, loc)] }
       else
         let (s, old) := performImm s g loc
         if posted then
           let s := modCore s c (fun k =>
             { k with posted := k.posted.map (fun p => if p.id = g.id then { p with done := true } else p) })
           sched s (s.now + pickN s 13 1 32) (.postedAck c g.id)
         else finishG s g old
     | .remote _ _ _ => s
     | _ =>
       if !stillWaits s g.cx then s
       else if behindFence s c g.cx.strand || l1Tested s g loc then sched s (s.now + 1) (.globalAccessComplete g loc)
       else if linePending s (gAddr loc) then { s with readWaits := s.readWaits ++ [(g, loc)] }
       else
         let gone := match loc with
           | .lin n _ => nodeGone s (cxTask s g.cx) n
           | _ => false
         if gone then linTrap s g.cx (0x0A, 0)
         else if g.kind ≠ .ld then placeAccess s g loc 0
         else
         let v := loadValueG s g loc
         let s := match loc with
           | .lin n off => resolveInto s n (off / 256)
           | _ => s
         let s := match cxTask s g.cx with
           | some r => if l1Fills s g loc then l1Fill s c r (lineOf (gAddr loc)) else s
           | none => s
         finishG s g v)

/-! Answers. -/

def findPosted (s : State) (c id : Nat) : Option Posted := (getCore s c).posted.find? (fun p => p.id == id)

/-- The strand that waits longest for a place among the posted stores. -/
def postedWaiter (s : State) (c : Nat) : Option (Wait × GAcc × GLoc) :=
  (List.range 16).foldl (fun (best : Option (Wait × GAcc × GLoc)) t =>
    match (getStrand s c t).wait with
    | some w =>
      match w.why with
      | .posted g loc =>
        match best with
        | some (b, _, _) => if w.since < b.since then some (w, g, loc) else best
        | none => some (w, g, loc)
      | _ => best
    | none => best) none

/-- An access is answered: its place is free, and a strand that waited for it posts its store (R251). -/
def dropPosted (s : State) (c id : Nat) : State :=
  let s := modCore s c (fun k => { k with posted := k.posted.filter (fun p => p.id != id) })
  match postedWaiter s c with
  | some (_, g, loc) => if postedCount (getCore s c) < 64 then post s g loc else s
  | none => s

/-- POSTED_ACK (R251, R254). -/
def execPostedAck (c id : Nat) (s : State) : Out := .next (if (findPosted s c id).isSome then dropPosted s c id else s)

/-- The node of a remote place. -/
def locNode : GLoc → Nat
  | .remote _ n _ => n
  | _ => 0

/-- A posted failure is recorded against its strand (R250). -/
def recordFailure (s : State) (p : Posted) (port : Nat) (why : BitVec 2) : State :=
  modStrand s p.g.cx.core p.g.cx.strand (fun x =>
    { x with fail := some (match x.fail with
      | some f => { f with count := min 65535 (f.count + 1) }
      | none => ⟨1, locNode p.loc, port, why⟩) })

/-- An access that fails: a load or atomic raises 0x07, a posted one is recorded (R250). -/
def failPosted (s : State) (p : Posted) (port : Nat) (why : BitVec 2) : State :=
  let s := dropPosted s p.g.cx.core p.id
  if (gReturns p.g.kind) then (if stillWaits s p.g.cx then gTrap s p.g 0x07 p.g.va else s)
  else recordFailure s p port why

/-- Whether an access is one that a peer or the host answers. -/
def isRemote : GLoc → Bool
  | .remote _ _ _ => true
  | _ => false

/-- Whether a port carries flits: not while all its lanes are under test (R407); at a dead one they are lost. -/
def portOpen (s : State) (port : Nat) : Bool :=
  portDead s port || (portLanes s port).any (fun l => !s.mgmt.testing.contains (.lane port l))

/-- Whether a peer or the host may answer an access now: 1,400 cycles after its issue or later (R241), behind the accesses of its
strand that it follows (R249, R258), and through a port that is alive and carries flits (R403, R407). -/
def replyReady (s : State) (c id : Nat) : Bool :=
  (findPosted s c id).all (fun p => decide (p.g.cx.at_ + 1400 ≤ s.now) && !mustFollow s p.g (some id) p.loc && !portDead s p.port && portOpen s p.port)

/-- Whether an access may fail now: one that returns a value does so when it would have completed (R250). -/
def failureReady (s : State) (c id : Nat) : Bool :=
  (findPosted s c id).all (fun p => !gReturns p.g.kind || decide (p.g.cx.at_ + 1400 ≤ s.now))

/-- PEER_REPLY (R242, R246, R250): a peer or the host answers an access. -/
def execPeerReply (c id : Nat) (v : Word) (ok : Bool) (s : State) : Out :=
  .next
    (match (findPosted s c id).filter (fun p => isRemote p.loc) with
    | some p =>
      if !ok then failPosted s p p.port 2
      else if (gReturns p.g.kind) then
        let w := if p.g.kind = .ld then ofBytes (windowLoad s p.g.cx (cxTask s p.g.cx) p.g.va.toNat none p.g.n (toBytes p.g.n v.toNat))
          else v.toNat % 256 ^ p.g.n
        finishG (dropPosted s c id) p.g w
      else dropPosted s c id
    | none => s)

/-- PEER_TIMEOUT (R250, R403): no reply within 700,000 cycles, or none through a dead port (WHY 1). -/
def execPeerTimeout (c id : Nat) (s : State) : Out :=
  .next
    (match findPosted s c id with
    | some p => failPosted s p p.port (if portDead s p.port then 1 else 3)
    | none => s)

/-- An access to a peer or the host whose port has died fails with WHY 1: a posted one now (R403), one that returns a value when it would have
completed, which is open up to the bound of R250. -/
def failAtPort (s : State) (p : Posted) : State :=
  if gReturns p.g.kind then
    let first := max s.now (p.g.cx.at_ + 1400)
    sched s (pickOf s 41 p.id first (max first (p.g.cx.at_ + 700000))) (.peerTimeout p.g.cx.core p.id)
  else failPosted s p p.port 1

/-- POSTED_FAILURE (R250): a dead link or a refusal meets an access to a peer or the host, at the port that it left by; at a dead one it is a
dead link's failure (R403). -/
def execPostedFailure (c id _port : Nat) (why : BitVec 2) (s : State) : Out :=
  .next
    (match (findPosted s c id).filter (fun p => isRemote p.loc) with
    | some p => failPosted s p p.port (if portDead s p.port then 1 else why)
    | none => s)

/-! Instructions. -/

/-- Displaced address of a memory access (R251). -/
def gVa (s : State) (o : Opnd) (imm : Word) : Word := rd s s.cur o + imm

/-- Width in bytes from a modifier (R251). -/
def gWidth (m : BitVec 3) : Nat := 8 / 2 ^ (m.toNat % 4)

/-- `ldg` (R251). -/
def execLdg (x : Args) (s : State) : Out :=
  issue none x s (fun s =>
    startGlobal s (.ldg x)
      { cx := s.cur, kind := .ld, n := gWidth x.mod, va := gVa s x.b x.imm, data := 0, cmp := 0, dst := x.a
        ordered := x.mod.getLsbD 2 })

/-- `stg` (R251). -/
def execStg (x : Args) (s : State) : Out :=
  issue none x s (fun s =>
    startGlobal s (.stg x)
      { cx := s.cur, kind := .st, n := gWidth x.mod, va := gVa s x.b x.imm, data := rd s s.cur x.a, cmp := 0, dst := .none
        ordered := x.mod.getLsbD 2 })

/-- `amo` (R252). -/
def execAmo (x : Args) (s : State) : Out :=
  issue none x s (fun s =>
    startGlobal s (.amo x)
      { cx := s.cur, kind := .amo x.mod, n := amoWidth x.mod, va := rd s s.cur x.b, data := rd s s.cur x.c, cmp := 0, dst := x.a
        ordered := true })

/-- `amoc` (R252). -/
def execAmoc (x : Args) (s : State) : Out :=
  issue none x s (fun s =>
    startGlobal s (.amoc x)
      { cx := s.cur, kind := .amoc, n := if x.mod = 1 then 4 else 8, va := rd s s.cur x.b, data := rd s s.cur x.c
        cmp := rd s s.cur x.a, dst := x.a, ordered := true })

/-- `red` (R253). -/
def execRed (x : Args) (s : State) : Out :=
  issue none x s (fun s =>
    startGlobal s (.red x)
      { cx := s.cur, kind := .red x.mod, n := redWidth x.mod, va := rd s s.cur x.a, data := rd s s.cur x.b, cmp := 0
        dst := .none, ordered := false })

/-- Whether nothing is outstanding that a `fence` of a strand waits for (R254). -/
def fenceReady (s : State) (c t : Nat) (sys : Bool) : Bool :=
  !(getCore s c).posted.any (fun p =>
    p.g.cx.strand == t &&
    (match p.loc with
    | .remote _ _ _ => sys
    | _ => !p.done))

/-- The status word of a `fence` (Table 10.7). -/
def fenceWord (f : Option FailReport) : Word :=
  match f with
  | some f => wd (f.count * 2 ^ 48 + f.node % 256 * 2 ^ 40 + f.port % 32 * 2 ^ 35 + f.why.toNat * 2 + 1)
  | none => 0x000000F800000000

/-- A `fence` stands between a strand's outstanding posted accesses and its later ones (R254). -/
def fencePosted (s : State) (cx : Ctx) : State :=
  modCore s cx.core (fun k => { k with posted := k.posted.map (fun p => if p.g.cx.strand = cx.strand then { p with fenced := true } else p) })

/-- A `fence` whose accesses are done writes its status; reported failures are not reported again, and what is still outstanding stands
before every later access (R254, log 67). -/
def fenceEnd (s : State) (cx : Ctx) (dst : Opnd) (sys : Bool) : State :=
  let f := if sys then (getStrand s cx.core cx.strand).fail else none
  let s := fencePosted s cx
  let s := if sys then modStrand s cx.core cx.strand (fun x => { x with fail := none }) else s
  finish s cx dst (fenceWord f)

/-- `fence` (R254). -/
def execFence (x : Args) (s : State) : Out :=
  issue none x s (fun s =>
    let sys := x.imm != 0
    if fenceReady s s.cur.core s.cur.strand sys then fenceEnd s s.cur x.a sys
    else leave s .waiting (.drain sys) false (.fence x) s.cur x.a)

/-- FENCE_COMPLETE (R254). -/
def execFenceComplete (c t : Nat) (s : State) : Out :=
  .next
    (match (getStrand s c t).wait with
    | some w =>
      match w.why with
      | .drain sys => if fenceReady s c t sys then fenceEnd s w.cx w.dst sys else s
      | _ => s
    | none => s)

/-- `pfg` (R255): a lineage line is resolved into its home slice; an address that would fault is ignored. A flat one touches neither a translation
buffer nor the walker (R255 does not say; DESIGN CHOICE, log 72). -/
def execPfg (x : Args) (s : State) : Out :=
  issue none x s (fun s =>
    let va := gVa s x.a x.imm
    let s :=
      if bit va 63 && (checkLineage s (cxTask s s.cur) va false).isNone then resolveInto s (linNode va) (linOff va / 256) else s
    complete s s.cur)

end Sys2Proof.Machine
end

