-- ==== Sys2Proof/Machine/Nodes.lean ====
section
/-! DEFINITION. The node operations (R281 to R287, R292, R293), `lnq`, the lineage queue with `lres` and `ldel` (R288, R294, R295),
and the joins of R341 that all engine queues obey. -/

namespace Sys2Proof.Machine

/-! The node table. -/

/-- Node `n` becomes Free: its storage is released and its lines leave L2 (R286). -/
def freeNode (s : State) (n : Nat) : State :=
  dropHeld { s with nodes := delK s.nodes n } n

/-- A parent loses a child; a Ghost without children becomes Free, up the chain (R286). The second part counts frees. -/
def loseChild : Nat → State → Nat → State × Nat
  | 0, s, _ => (s, 0)
  | fuel + 1, s, p =>
    if p = 0 then (s, 0)
    else
      let k := getNode s p
      let s := modNode s p (fun k => { k with children := k.children - 1 })
      if k.ghost ∧ k.children ≤ 1 then
        let (s, n) := loseChild fuel (freeNode s p) k.parent
        (s, n + 1)
      else (s, 0)

/-- Whether `a` is a proper ancestor of `n`. -/
def hasAncestor (s : State) (a : Nat) : Nat → Nat → Bool
  | 0, _ => false
  | fuel + 1, n =>
    let p := (getNode s n).parent
    p != 0 && (p == a || hasAncestor s a fuel p)

/-- The structure of the table after an operation: everything but deltas. The second part counts the nodes freed. -/
def applyStruct (s : State) (op : NodeOp) : State × Nat :=
  match op with
  | .fork p nt ch =>
    let pk := getNode s p
    let s := modNode s ch (fun k =>
      { k with
        valid := true, ghost := false, resv := none, parent := p
        depth := if p = 0 then 0 else pk.depth + 1
        ntiles := if p = 0 then nt else pk.ntiles })
    (if p = 0 then s else modNode s p (fun k => { k with frozen := true, children := k.children + 1 }), 0)
  | .rebase n p =>
    let old := (getNode s n).parent
    let s := modNode s n (fun k => { k with parent := p, depth := (getNode s p).depth + 1 })
    let s := modNode s p (fun k => { k with frozen := true, children := k.children + 1 })
    loseChild chainFuel s old
  | .flat n =>
    let k := getNode s n
    if k.parent = 0 then (s, 0)
    else
      let s1 := { s with nodes := s.nodes.map (fun (m, (x : Node)) =>
        (m, if hasAncestor s n chainFuel m then { x with depth := x.depth - k.depth } else x)) }
      let s1 := modNode s1 n (fun x => { x with parent := 0, depth := 0 })
      loseChild chainFuel s1 k.parent
  | .drop n =>
    let k := getNode s n
    if k.children = 0 then
      let (s, f) := loseChild chainFuel (freeNode s n) k.parent
      (s, f + 1)
    else (modNode s n (fun k => { k with ghost := true }), 0)

/-- The chain of a node from itself up. -/
def chainOf (s : State) : Nat → Nat → List Nat
  | 0, _ => []
  | fuel + 1, n => if n = 0 then [] else n :: chainOf s fuel (getNode s n).parent

/-- The lines that a node holds. -/
def linesHeldBy (k : Node) : List Nat := keysK k.delta ++ keysK k.dirty

/-- The lines that any node of some chains holds. -/
def linesOfChains (s : State) (ns : List Nat) : List Nat := (ns.flatMap (fun n => linesHeldBy (getNode s n))).eraseDups

/-- The delta of a node against a new parent's content, 0 for a root (R275, R293). -/
def newDelta (s : State) (n p : Nat) : List (Nat × DeltaRec) :=
  (linesOfChains s (chainOf s chainFuel n ++ chainOf s chainFuel p)).foldl (fun d line =>
    match encodeLine (if p = 0 then zeroLine else resolveLine s p line) (resolveLine s n line) with
    | some r => setK d line r
    | none => d) []

/-- The tiles that a delta needs and a node has not reserved (R276). -/
def tilesMissing (k : Node) (d : List (Nat × DeltaRec)) : List Nat :=
  ((keysK d).map (· / 64)).eraseDups.filter (fun t => !k.tiles.contains t)

/-- Recompute a node's deltas against a new parent; its content is unchanged (R293). -/
def moveContent (s : State) (n p : Nat) : State :=
  let d := newDelta s n p
  let held := (keysK (getNode s n).dirty).filter (fun l => !s.linHeld.contains (n, l))
  modNode { s with linHeld := s.linHeld ++ held.map (fun l => (n, l)) } n (fun k =>
    { k with delta := d, dirty := [], tiles := k.tiles ++ tilesMissing k d })

/-- Apply a node operation (R283, R293); the number of nodes freed. -/
def applyNodeOp (s : State) (op : NodeOp) : State × Nat :=
  match op with
  | .rebase n p => applyStruct (moveContent s n p) op
  | .flat n => if (getNode s n).parent = 0 then (s, 0) else applyStruct (moveContent s n 0) op
  | _ => applyStruct s op

/-- The table as a task sees it, with its own operations applied (R281). -/
def nodesView (s : State) (task : Option Nat) : State :=
  match task with
  | some r => (taskNodeOps s r).foldl (fun s op => (applyStruct s op).1) s
  | none => s

/-- The number of ids that `fork` may give. -/
def nodeIds : Nat := 8388607

/-- The Free id that stands at place `k` among the Free ids. -/
def nthFree (used : List Nat) (k : Nat) : Nat := used.foldl (fun i u => if u ≤ i then i + 1 else i) (k + 1)

/-- Ids in use, rising. -/
def usedIds (s : State) : List Nat := (s.nodes.filter (fun (n, (k : Node)) => n != 0 && k.valid)).map (fun (n, _) => n)

/-- A Free id, which one being open (R292). -/
def freeId (s : State) : Nat := nthFree (usedIds s) (pickN s 15 0 (nodeIds - (usedIds s).length - 1))

/-- A line with one logged record applied. -/
def patchLogged (s : State) (e : LogRec) : State :=
  let put := fun (n off : Nat) (f : List Byte → List Byte) =>
    modNode s n (fun k => { k with dirty := setK k.dirty (off / 256) (f (resolveLine s n (off / 256))) })
  match e with
  | .store (.lin n off) bs => put n off (fun l => patchBytes l (off % 256) bs)
  | .red (.lin n off) op v =>
    put n off (fun l =>
      let w := redWidth op
      patchBytes l (off % 256) (toBytes w (redNew op (ofBytes ((l.drop (off % 256)).take w)) (v.toNat % 256 ^ w))))
  | _ => s

/-- The lineage as it would stand if a task committed now: what it has logged, then its operations (R283). -/
def committedView (s : State) (task : Option Nat) : State :=
  match task with
  | some r =>
    let all := (taskLogs s r).flatMap (fun x => x.2)
    (taskNodeOps s r).foldl (fun s op => (applyNodeOp s op).1) (all.foldl patchLogged s)
  | none => s

/-- The tiles that a moved node needs and has not reserved (R276): in a task, for what it has logged by then. -/
def moveNeeds (s : State) (task : Option Nat) (n p : Nat) : List Nat :=
  tilesMissing (getNode s n) (newDelta (committedView s task) n p)

/-- Whether the lineage area can hold the deltas of a moved node. -/
def storageFits (s : State) (task : Option Nat) (n p : Nat) : Bool :=
  decide (unitsUsed s + (moveNeeds s task n p).length ≤ s.mgmt.linUnits)

/-- Reserve the storage of a move that a task logs (R276). -/
def reserveMove (s : State) (task : Option Nat) (op : NodeOp) : State :=
  let put := fun (n p : Nat) =>
    let m := moveNeeds s task n p
    modNode s n (fun k => { k with tiles := k.tiles ++ m })
  match op with
  | .rebase n p => put n p
  | .flat n => if (getNode s n).parent = 0 then s else put n 0
  | _ => s

/-- The refusal reason of a node operation, 0 when it can be performed (Tables 12.6 and 12.10, R292). -/
def nodeRefusal (s : State) (task : Option Nat) (op : NodeOp) : Nat :=
  let v := nodesView s task
  let live := fun n => n == 0 || nodeLive s task n
  match op with
  | .fork p nt _ =>
    if !live p then 1
    else if p = 0 ∧ nt = 0 then 5
    else if p ≠ 0 ∧ 15 ≤ (getNode v p).depth then 2
    else if nodeIds ≤ (usedIds s).length then 3
    else 0
  | .rebase n p =>
    if n = 0 ∨ p = 0 then 5
    else if !live n || !live p then 1
    else if n = p ∨ (getNode v n).ntiles ≠ (getNode v p).ntiles then 5
    else if (getNode v n).children != 0 then 4
    else if 15 ≤ (getNode v p).depth then 2
    else if !storageFits s task n p then 3
    else 0
  | .flat n =>
    if !live n then 1
    else if n = 0 then 5
    else if (getNode v n).parent ≠ 0 ∧ storageFits s task n 0 = false then 3
    else 0
  | .drop n => if !live n then 1 else if n = 0 then 5 else 0

/-- The status word of a refusal (R282). -/
def refusalWord (reason : Nat) : Word := wd (2 ^ 63 + reason)

/-- Count a refusal (R291). -/
def countRefusal (s : State) (reason : Nat) : State :=
  if reason = 2 then linAdd s 3 1 else if reason = 1 then linAdd s 4 1 else s

/-- The locks of a node operation (R281). -/
def nodeLocks (op : NodeOp) : List (LObj × Mode) :=
  match op with
  | .fork p _ _ => [(⟨3, p⟩, .s)]
  | .rebase n p => [(⟨3, n⟩, .s), (⟨3, p⟩, .s)]
  | .flat n => [(⟨3, n⟩, .s)]
  | .drop n => [(⟨3, n⟩, .x)]

/-- Tile indices on the chains involved below their nearest common ancestor (R293). -/
def moveTiles (s : State) (op : NodeOp) : Nat :=
  let tiles := fun ns => ((linesOfChains s ns).map (· / 64)).eraseDups.length
  match op with
  | .rebase n p =>
    let a := chainOf s chainFuel n
    let b := chainOf s chainFuel p
    tiles (a.filter (fun x => !b.contains x) ++ b.filter (fun x => !a.contains x))
  | .flat n => tiles (chainOf s chainFuel n)
  | _ => 0

/-- Give `fork` its child: Reserved by a task at issue (R281, R292). -/
def withChild (s : State) (task : Option Nat) (op : NodeOp) : State × NodeOp :=
  match op with
  | .fork p nt _ =>
    let ch := freeId s
    match task with
    | some r =>
      let pk := getNode (nodesView s task) p
      (modNode s ch (fun _ =>
        { valid := true, resv := some r, parent := p, depth := if p = 0 then 0 else pk.depth + 1
          ntiles := if p = 0 then nt else pk.ntiles }), .fork p nt ch)
    | none => (s, .fork p nt ch)
  | _ => (s, op)

/-- The value a performed operation writes: the child of `fork`, else 0. -/
def nodeResult : NodeOp → Word
  | .fork _ _ ch => wd ch
  | _ => 0

/-- Wait `t` more cycles, then write the status (R292, R293). -/
def nodeFinish (s : State) (cx : Ctx) (dst : Opnd) (v : Word) (t : Nat) : State :=
  sched s (s.now + t) (.nodeOperationComplete { cx, dst, val := some v })

/-- NODE_OPERATION_COMPLETE (R292, R293). -/
def execNodeOperationComplete (d : Done) (s : State) : Out := .next (if stillWaits s d.cx then finishDone s d else s)

/-- Take back the id that `fork` reserved. -/
def withoutChild (s : State) (op : NodeOp) : State :=
  match op with
  | .fork _ _ ch => dropHeld (modNode s ch (fun _ => {})) ch
  | _ => s

/-- The nodes that an operation names. -/
def namedNodes : NodeOp → List Nat
  | .fork p _ _ => [p]
  | .rebase n p => [n, p]
  | .flat n => [n]
  | .drop n => [n]

/-- The last lock of a node operation is granted (R281): outside a task it is judged again and applied; in a task, where it stands in the
log since its issue, it stays there, unless a drop granted before it has taken the node away (Table 12.7). -/
def grantNode (s : State) (cx : Ctx) (task : Option Nat) (op : NodeOp) (dst : Opnd) : State :=
  match task with
  | some r =>
    if (namedNodes op).any (nodeGone s task) then trapAt (countRefusal (withoutChild (logDrop s r cx) op) 1) cx 0x0A 0
    else nodeFinish s cx dst (nodeResult op) 60
  | none =>
    let reason := nodeRefusal s none op
    if reason != 0 then nodeFinish (countRefusal s reason) cx dst (refusalWord reason) 0
    else
      let (s, op) := withChild s none op
      let h := moveTiles s op
      let (s, freed) := applyNodeOp s op
      nodeFinish s cx dst (nodeResult op)
        (match op with
        | .drop _ => 60 + 20 * freed
        | .fork _ _ _ => 60
        | _ => 60 + 40 * h)

/-- Issue a node operation (R281, R282): that of a task is recorded in its log. -/
def issueNode (i : Instr) (dst : Opnd) (op : NodeOp) (s : State) : State :=
  let cx := s.cur
  let task := cxTask s cx
  let reason := nodeRefusal s task op
  let full := match task with
    | some r => logFull s cx.core r
    | none => false
  if reason != 0 then
    let s := countRefusal s reason
    if task.isSome && reason == 1 then trapAt s cx 0x0A 0
    else if task.isSome && reason == 2 then trapAt s cx 0x09 0
    else finish s cx dst (refusalWord reason)
  else if full then trapAt s cx 0x07 0
  else
    let (s, op) := match task with
      | some r =>
        let (s, op) := withChild (reserveMove s task op) task op
        (logAdd s cx.core r (.node op cx), op)
      | none => (s, op)
    askLocks (leave s .waiting .lock false i cx dst) { cx, task, todo := nodeLocks op, cont := .node op dst }

/-- `fork` (R292). -/
def execFork (x : Args) (s : State) : Out :=
  issue none x s (fun s =>
    let v := rd s s.cur x.b
    issueNode (.fork x) x.a (.fork (bits v 22 0) (bits v 57 32) 0) s)

/-- `rebase` (R293). -/
def execRebase (x : Args) (s : State) : Out :=
  issue none x s (fun s => issueNode (.rebase x) x.a (.rebase (bits (rd s s.cur x.b) 22 0) (bits (rd s s.cur x.c) 22 0)) s)

/-- `flat` (R293). -/
def execFlat (x : Args) (s : State) : Out :=
  issue none x s (fun s => issueNode (.flat x) x.a (.flat (bits (rd s s.cur x.b) 22 0)) s)

/-- `drop` (R293). -/
def execDrop (x : Args) (s : State) : Out :=
  issue none x s (fun s => issueNode (.drop x) x.a (.drop (bits (rd s s.cur x.b) 22 0)) s)

/-- Word 0 of a node table entry (Table 12.1). -/
def nodeWord0 (k : Node) : Word :=
  wd (k.valid.toNat * 2 ^ 63 + k.ghost.toNat * 2 ^ 62 + k.frozen.toNat * 2 ^ 61 + k.resv.isSome.toNat * 2 ^ 60 +
    k.depth % 16 * 2 ^ 56 + k.parent % 2 ^ 23 * 2 ^ 33 + k.children % 2 ^ 23 * 2 ^ 10)

/-- The items of `lnq` (R294). -/
def lnqItem (s : State) (n item : Nat) : Word :=
  let k := getNode s n
  if !k.valid then 0
  else
    match item with
    | 0 => nodeWord0 k
    | 1 => wd k.ntiles
    | 2 => wd (tilesHeld k)
    | _ => wd (16400 * k.tiles.length)

/-- `lnq` (R294): answered within 64 cycles. -/
def execLnq (x : Args) (s : State) : Out :=
  issue none x s (fun s =>
    sched (leaveFlight s (.lnq x) s.cur) (s.now + pickN s 16 1 64)
      (.controlPlaneReply s.cur (.lnq (bits (rd s s.cur x.b) 22 0) x.imm.toNat) x.a))

/-! The lineage queue. -/

/-- The checks of `lres` and `ldel` at issue (R295). -/
def lineageChecks (s : State) (cx : Ctx) (p ga : Word) (diff : Bool) : Option Bad :=
  firstBad
    [ checkPtr s cx p
    , if diff && (ptrWin p == 0 || ptrWin p == 3) then some (0x0E, 0) else none
    , if !bit ga 63 then some (0x05, ga) else none
    , if linOff ga % 16384 != 0 then some (0x03, ga) else none
    , checkLineage s (cxTask s cx) ga false ]

/-- Enter the lineage queue (R295). -/
def issueLineage (i : Instr) (diff : Bool) (x : Args) (s : State) : State :=
  let cx := s.cur
  let p := ptrVal s cx x.a
  let ga := rd s cx x.b
  match lineageChecks s cx p ga diff with
  | some b => linTrap s cx b
  | none =>
    let k := getCore s cx.core
    let incReg := match incKind x.a with | .reg n => rd s cx (.g n) | _ => 0
    let e : LinEnt := { id := k.mqNext, cx, diff, p, ga, inc := incKind x.a, incReg, ptr := ptrNum x.a }
    leaveFlight (modCore s cx.core (fun k => { k with linQ := k.linQ ++ [e], mqNext := k.mqNext + 1 })) i cx

/-- `lres` (R295). -/
def execLres (x : Args) (s : State) : Out := issue none x s (issueLineage (.lres x) false x)

/-- `ldel` (R295). -/
def execLdel (x : Args) (s : State) : Out := issue none x s (issueLineage (.ldel x) true x)

/-- The lines of a tile that a node's delta or the core's log for it holds (R288). -/
def diffLines (s : State) (c : Nat) (task : Option Nat) (n tile : Nat) : List Nat :=
  let log := match task with
    | some r => getLog s c r
    | none => []
  (List.range 64).filter (fun j =>
    let line := tile * 64 + j
    (linesHeldBy (getNode s n)).contains line || log.any (fun e => recTouches e (.lin n (line * 256))))
    |>.map (fun j => tile * 64 + j)

/-- The entries of a difference list (R288). -/
def diffList (s : State) (e : LinEnt) : List Word :=
  let task := cxTask s e.cx
  let n := linNode e.ga
  let tile := linOff e.ga / 16384
  let p := (getNode (nodesView s task) n).parent
  let sz := if 5 ≤ ptrWin e.p then 2 else 1
  (diffLines s e.cx.core task n tile).flatMap (fun line =>
    let new := loadLine s e.cx.core task n line
    let old := if p = 0 then zeroLine else loadLine s e.cx.core task p line
    (List.range (256 / sz)).filterMap (fun i =>
      let a := ofBytes ((new.drop (i * sz)).take sz)
      let b := ofBytes ((old.drop (i * sz)).take sz)
      if a = b then none
      else some (wd (a * 2 ^ 32 + b * 2 ^ 16 + (line % 64 * 256 + i * sz) / sz))))

/-- What an entry writes (R295). -/
def lineageBytes (s : State) (e : LinEnt) : List Byte :=
  if e.diff then
    let l := diffList s e
    toBytes 8 l.length ++ l.flatMap (fun w => toBytes 8 w.toNat)
  else
    let task := cxTask s e.cx
    (List.range 64).flatMap (fun j => loadLine s e.cx.core task (linNode e.ga) (linOff e.ga / 256 + j))

/-- The lines that an entry reads, with their nodes: those of its node, and for `ldel` those of the parent (R288). -/
def lineageLines (s : State) (e : LinEnt) : List (Nat × Nat) :=
  let n := linNode e.ga
  if e.diff then
    let task := cxTask s e.cx
    let ls := diffLines s e.cx.core task n (linOff e.ga / 16384)
    let p := (getNode (nodesView s task) n).parent
    ls.map (fun l => (n, l)) ++ (if p = 0 then [] else ls.map (fun l => (p, l)))
  else (List.range 64).map (fun j => (n, linOff e.ga / 256 + j))

/-- Put an entry back as changed. -/
def putLin (s : State) (c : Nat) (e : LinEnt) : State :=
  modCore s c (fun k => { k with linQ := k.linQ.map (fun f => if f.id = e.id then e else f) })

/-- An entry whose lock is held is under way: its bytes are formed in the time of its first line, and written in the rest of it (R295). -/
def runLineage (s : State) (c : Nat) (e : LinEnt) : State :=
  let n := linNode e.ga
  let first := accessTime s e.cx.core (.lin n (linOff e.ga)) 0
  let rest := 64 + (if e.diff then cdiv (diffList s e).length 32 else 0)
  putLin s c { e with started := true, base := s.now + first, due := s.now + first + rest }

/-- The entry of core `c` that may start. -/
def lineageReady (s : State) (c : Nat) : Option LinEnt :=
  let k := getCore s c
  match k.linQ with
  | e :: _ => if !e.started && joinOk k 5 e.id then some e else none
  | [] => none

/-- LINEAGE_ENTRY_START (R295): the entry asks for its tile lock, or goes on. -/
def execLineageEntryStart (c : Nat) (s : State) : Out :=
  .next
    (match lineageReady s c with
    | some e =>
      let n := linNode e.ga
      let o := linObj 1 n (linOff e.ga)
      match cxTask s e.cx with
      | some r =>
        if (getNode s n).frozen || covered s r o .load then runLineage s c e
        else
          askLocks (putLin s c { e with started := true })
            { cx := e.cx, task := some r, todo := chainFor o .s, cont := .lineage c }
      | none => runLineage s c e
    | none => s)

/-- The head of a lineage queue leaves it. -/
def endLineage (s : State) (c : Nat) : State := pruneJoins (modCore s c (fun k => { k with linQ := k.linQ.drop 1 })) c

/-- The bytes of an entry are formed and its destination is checked (R295): a trap ends it with nothing written, cause 0x0A where a drop has
taken its node away meanwhile (Table 12.7). -/
def formLineage (s : State) (c : Nat) (e : LinEnt) : State × Option (List Byte) :=
  if nodeGone s (cxTask s e.cx) (linNode e.ga) then (endLineage (linTrap s e.cx (0x0A, 0)) c, none)
  else
    let bs := lineageBytes s e
    let s := (lineageLines s e).foldl (fun s x => resolveInto s x.1 x.2) s
    match firstBad [checkAccess s e.cx e.p bs.length, checkAlign e.p (if e.diff then 8 else 16)] with
    | some b => (endLineage (trapAt s e.cx b.1 b.2) c, none)
    | none => (s, some bs)

/-- What is left of an entry's bytes is written, and its strand goes on (R295). -/
def finishLineage (s : State) (c : Nat) (e : LinEnt) (bs : List Byte) : State :=
  let inc := match e.inc with
    | .none => []
    | .size => [(e.ptr, wd bs.length)]
    | .imm => [(e.ptr, 0)]
    | .reg _ => [(e.ptr, e.incReg)]
  finishDone (endLineage (walkWrite s e.p e.moved (bs.drop e.moved)) c) { cx := e.cx, ptrs := inc }

/-- Whether an entry reads a line that a committing task is writing (R261). -/
def lineagePending (s : State) (e : LinEnt) : Bool := (lineageLines s e).any (fun x => linePending s (.lin x.1 (256 * x.2)))

/-- Whether an entry forms its bytes or makes its next run in this cycle: 256 bytes a cycle (R295, R261). -/
def lineageDue (s : State) (e : LinEnt) : Bool :=
  e.started && e.due != 0 && decide (e.base + e.moved / 256 ≤ s.now) &&
  (match e.bytes with
  | none => !lineagePending s e
  | some bs => decide (e.moved < bs.length))

/-- The stretch of the destination that the next run writes. -/
def LinEnt.stretches (e : LinEnt) : List (Word × Nat × Nat) :=
  match e.bytes with
  | none => []
  | some bs => [(e.p, e.moved, min 256 (bs.length - e.moved))]

/-- The bytes of an entry are formed, or the banks have served its next run, the last of which lets it complete in its time. -/
def afterLineage (s : State) (c : Nat) (e : LinEnt) : State :=
  if !stillWaits s e.cx then endLineage s c
  else
    match e.bytes with
    | none =>
      match formLineage s c e with
      | (s, some bs) => putLin s c { e with bytes := some bs, base := s.now }
      | (s, none) => s
    | some bs =>
      let at_ := e.base + e.moved / 256
      let late := runLate s at_ e.stretches
      let n := e.moved + 256
      let s := putLin (walkWrite s e.p e.moved ((bs.drop e.moved).take 256)) c
        { e with moved := n, base := e.base + (s.now - at_), due := e.due + late, done := [] }
      if bs.length ≤ n then sched s (max (e.due + late) s.now) (.lineageEntryComplete c) else s

/-- LINEAGE_ENTRY_COMPLETE (R295): what the entry has not yet written is written, its bytes formed first where they are not, once no line
that it reads is pending (R261). -/
def execLineageEntryComplete (c : Nat) (s : State) : Out :=
  .next
    (match (getCore s c).linQ with
    | [] => s
    | e :: _ =>
      if !e.started then s
      else if !stillWaits s e.cx then endLineage s c
      else
        match e.bytes with
        | some bs => finishLineage s c e bs
        | none =>
          if lineagePending s e then sched s (s.now + 1) (.lineageEntryComplete c)
          else
            match formLineage s c e with
            | (s, some bs) => finishLineage s c e bs
            | (s, none) => s)

end Sys2Proof.Machine
end

