-- ==== Sys2Proof/Machine/Windows.lean ====
section
/-! DEFINITION. The instructions of sequences and speculative windows (R297 to R315). -/

namespace Sys2Proof.Machine

/-! Pages. -/

/-- Put a page among those whose FREE bit is clear, in rising order. -/
def insertPage (p : Nat) : List Nat → List Nat
  | [] => [p]
  | x :: xs => if p < x then p :: x :: xs else if p = x then x :: xs else x :: insertPage p xs

def takePage (s : State) (p : Nat) : State := { s with pagesOut := insertPage p s.pagesOut }
def givePage (s : State) (p : Nat) : State := { s with pagesOut := s.pagesOut.filter (fun x => x != p) }

/-- A free page, which one being open (R299). -/
def freePage (s : State) : Nat :=
  s.pagesOut.foldl (fun i u => if u ≤ i then i + 1 else i) (pickN s 17 0 (s.mgmt.npages - s.pagesOut.length - 1))

def poolEmpty (s : State) : Bool := decide (s.mgmt.npages ≤ s.pagesOut.length)

/-- Whether a page is tentative in some window. -/
def tentative (s : State) (p : Nat) : Bool := s.seqs.any (fun (_, q) => q.pages.any (fun x => x.2 == p))

/-- Whether a page is tentative in some window as a strand sees it, with its task's logged operations (R303). -/
def tentativeFor (s : State) (task : Option Nat) (p : Nat) : Bool :=
  s.seqs.any (fun (n, _) => (seqView s task n).pages.any (fun x => x.2 == p))

/-- Whether a logged operation returns a page to the pool: `x` is the sequence that it meets (R304, R306, R315). -/
def returnsPage (p : Nat) (x : Seq) (op : WinOp) : Bool :=
  match op with
  | .pgfr y => y == p
  | .kvd _ _ => x.pages.any (fun y => y.2 == p)
  | .kvc _ _ n _ _ => x.pages.any (fun y => y.2 == p && decide (x.last n < y.1))
  | _ => false

/-- Whether `pgfr` refuses a page (Table 13.3 reason 4), with the task's own earlier operations applied (R303): a page that one of them
returns is free, and one that its own `pgal` took is tentative until its `kvc` keeps it. -/
def pgfrBad (s : State) (task : Option Nat) (p : Nat) : Bool :=
  let freed := task.any (fun r => (winSteps s r).any (fun y => returnsPage p y.1 y.2))
  decide (s.mgmt.npages ≤ p) || !s.pagesOut.contains p || tentativeFor s task p ||
    s.pagesResv.any (fun x => x.1 == p && some x.2 != task) || freed

/-! Applying (R303, R304, R306). -/

/-- Return a window's tentative pages that satisfy a condition to the pool. -/
def returnPages (s : State) (q : Seq) (p : Nat → Bool) : State :=
  q.pages.foldl (fun s (j, page) => if p j then givePage s page else s) s

/-- A store of a keep: to the counter aperture it is ignored (R170). -/
def keepStore (s : State) (pa : Nat) (bs : List Byte) : State := if inAperture pa then s else memWrite s pa bs

/-- The memory that a keep of `n` positions writes (R304). -/
def keepWrites (s : State) (q : Seq) (n : Nat) (plist state : List (Nat × Nat)) : State :=
  let kv := q.recs.filter (fun r => !r.state && decide (r.pos < n))
  let s := kv.foldl (fun s r => keepStore s r.target r.data) s
  let s := state.foldl (fun s (line, pa) =>
    match stateRec q n line with
    | some r => keepStore s pa r.data
    | none => s) s
  plist.foldl (fun s (j, pa) =>
    match q.pages.find? (fun x => x.1 == j) with
    | some (_, page) => keepStore s pa (toBytes 4 page)
    | none => s) s

/-- Strands bound to a sequence lose their binding when its close is applied (R302). -/
def unbindAll (s : State) (q : Nat) : State :=
  { s with cores := s.cores.map (fun (c, (k : Core)) =>
      (c, { k with strands := k.strands.map (fun (t, (x : Strand)) => (t, if x.seq = some q then { x with seq := none } else x)) })) }

/-- Apply a window operation to the device (R303, R304, R306, R311). -/
def applyWin (s : State) (op : WinOp) : State :=
  match op with
  | .open_ q _ => modSeq s q (fun x => applySeqOp { x with st := .open_, gen := (x.gen + 1) % 65536 } op)
  | .close q _ _ => unbindAll (modSeq s q (fun x => applySeqOp x op)) q
  | .kvw q _ _ _ _ _ _ _ => modSeq s q (fun x => applySeqOp x op)
  | .kvc q _ n plist state =>
    let x := getSeq s q
    let s := returnPages (keepWrites s x n plist state) x (fun j => decide (x.last n < j))
    modSeq s q (fun x => applySeqOp x op)
  | .kvd q _ => modSeq (returnPages s (getSeq s q) (fun _ => true)) q (fun x => applySeqOp x op)
  | .pgal q _ _ page => modSeq (takePage s page) q (fun x => applySeqOp x op)
  | .pgfr page => givePage s page

/-! Checks. -/

/-- Whether 64 bytes of an image lie in the strand's region, aligned (R307 reason 5). -/
def imageOk (s : State) (cx : Ctx) (off : Nat) : Bool := (checkArea s cx (wd off) 64 64).isNone

/-- Whether an image's fields are good (R307 reason 5). -/
def imageGood (ws : List Word) : Bool :=
  let q : Seq := { img := ws }
  q.lptc != 7 && decide (q.sl ≤ 64) && q.plist % 4 == 0 && q.saddr % 256 == 0

/-- The Free sequences' count, and one of them (R311). -/
def seqsUsed (s : State) : List Nat := (s.seqs.filter (fun (_, (q : Seq)) => q.st != .free)).map (fun (n, _) => n)
def freeSeq (s : State) : Nat :=
  (seqsUsed s).foldl (fun i u => if u ≤ i then i + 1 else i) (pickN s 18 0 (4096 - (seqsUsed s).length - 1))

/-- The leaf of an address that a window operation forms: none for one that is no flat address (Table 10.1). -/
def windowLeaf (s : State) (cx : Ctx) (va : Nat) : Option TLeaf := if va < 2 ^ 48 then (translate s cx va).2 else none

/-- Translate an address as an immediate page with W set, outside the record pool (R307 reason 6, R344). -/
def immTarget (s : State) (cx : Ctx) (va : Nat) : Option Nat :=
  match windowLeaf s cx va with
  | some l =>
    let pa := l.pa va
    if entAttr l.entry = 1 ∧ entW l.entry = true ∧ (inHbm pa = true ∨ inAperture pa = true) ∧ inPool s pa = false then some pa else none
  | none => none

/-- The page-list entries and the state lines that a keep of `n` positions writes, by number. -/
def keptPages (q : Seq) (n : Nat) : List Nat := (keysK q.pages).filter (fun j => decide (j ≤ q.last n))
def keptLines (q : Seq) (n : Nat) : List Nat := (List.range q.sl).filter (fun l => (stateRec q n l).isSome)

/-- The targets of the page-list entries and state lines that a keep writes: none when one is refused (R313 check 3). -/
def keepTargets (s : State) (cx : Ctx) (q : Seq) (n : Nat) : Option (List (Nat × Nat) × List (Nat × Nat)) :=
  let all := fun (base step : Nat) (is : List Nat) =>
    is.foldr (fun i (acc : Option (List (Nat × Nat))) =>
      match acc, immTarget s cx (base + step * i) with
      | some t, some pa => some ((i, pa) :: t)
      | _, _ => none) (some [])
  match all q.plist 4 (keptPages q n), all q.saddr 256 (keptLines q n) with
  | some a, some b => some (a, b)
  | _, _ => none

/-- The refusal reason of an operation for a strand, 0 when it can be performed (Table 13.3). -/
def winRefusal (s : State) (task : Option Nat) (op : WinOp) : Nat :=
  match op with
  | .open_ _ _ => if 4096 ≤ (seqsUsed s).length then 3 else 0
  | .close q gen _ =>
    if foreignHandle s task (handleOf q gen) then 1
    else
      let x := seqView s task q
      if x.recs.isEmpty && x.pages.isEmpty then 0 else 5
  | .kvw q gen _ _ _ _ _ _ => if foreignHandle s task (handleOf q gen) then 1 else 0
  | .kvc q gen n _ _ =>
    if foreignHandle s task (handleOf q gen) then 1
    else if 16 < n ∨ 2 ^ 32 ≤ (seqView s task q).cnt + n then 2
    else 0
  | .kvd q gen => if foreignHandle s task (handleOf q gen) then 1 else 0
  | .pgal q gen p _ =>
    let x := seqView s task q
    if foreignHandle s task (handleOf q gen) then 1
    else if x.pages.any (fun y => y.1 == p) || decide (p < x.npg) then 2
    else if poolEmpty s || decide (16 ≤ x.pages.length) then 3
    else 0
  | .pgfr p => if pgfrBad s task p then 4 else 0

/-! Issue. -/

/-- Write a status after `t` cycles (R311 to R315). -/
def winFinish (s : State) (d : Done) (t : Nat) : State := sched s (s.now + t) (.windowOperationComplete d)

/-- WINDOW_OPERATION_COMPLETE. -/
def execWindowOperationComplete (d : Done) (s : State) : Out := .next (if stillWaits s d.cx then finishDone s d else s)

/-- Cycles after the grant (R311 to R315). -/
def winTime (s : State) (cx : Ctx) (inTask : Bool) (op : WinOp) : Nat :=
  match op with
  | .open_ _ _ | .close _ _ _ => 80
  | .kvw _ _ _ _ _ target _ _ => accessTime s cx.core (.imm target) 0 + 1
  | .kvc q _ n _ _ =>
    if inTask then 60
    else 60 + (getSeq s q).keepCost n
  | .kvd _ _ => 60
  | .pgal _ _ _ _ | .pgfr _ => 40

/-- The lock of an operation (R303). -/
def winLock (op : WinOp) : List (LObj × Mode) :=
  match op with
  | .open_ q _ => [(⟨6, q⟩, .x)]
  | .close q _ _ => [(⟨6, q⟩, .x)]
  | .kvw q _ _ _ _ _ _ _ => [(⟨6, q⟩, .ix)]
  | .kvc q _ _ _ _ => [(⟨6, q⟩, .x)]
  | .kvd q _ => [(⟨6, q⟩, .x)]
  | .pgal q _ _ _ => [(⟨6, q⟩, .ix)]
  | .pgfr _ => []

/-- Take what an operation of a task takes at issue: a sequence, or a page (R303). -/
def winReserve (s : State) (r : Nat) (op : WinOp) : State × WinOp × Option Word :=
  match op with
  | .open_ _ img =>
    let q := freeSeq s
    let gen := ((getSeq s q).gen + 1) % 65536
    (modSeq s q (fun _ => { st := .reserved r, gen, img := cleanImage img }), .open_ q img, some (handleOf q gen))
  | .pgal q gen j _ =>
    let p := freePage s
    ({ takePage s p with pagesResv := s.pagesResv ++ [(p, r)] }, .pgal q gen j p, some (wd p))
  | _ => (s, op, none)

/-- The record that an operation of a task puts into its log at issue: none for an open (R303); a `pgal`, which until its grant carries its
position, is recorded with its page index. -/
def recordedWin (s : State) (task : Option Nat) (op : WinOp) : Option WinOp :=
  match op with
  | .open_ _ _ => none
  | .pgal q gen pos page => some (.pgal q gen ((seqView s task q).pageIndex pos) page)
  | op => some op

/-- Whether the record of an operation finds no room in the log of a strand's task (R244). -/
def winLogFull (s : State) (cx : Ctx) : Bool := (cxTask s cx).any (fun r => logFull s cx.core r)

/-- Ask for an operation's lock, in a task after what it takes and records at issue (R303). -/
def requestWin (s : State) (i : Instr) (d : Done) (op : WinOp) : State :=
  let cx := d.cx
  let task := cxTask s cx
  match task with
  | some r =>
      let (s, op, v) := winReserve s r op
      let d := match v with
        | some w => { d with val := some w }
        | none => d
      let s := match recordedWin s task op with
        | some op => logAdd s cx.core r (.win op cx)
        | none => s
      let s := leave s .waiting .lock false i cx d.dst
      let q := (winSeq op).getD 0
      let held := heldMode s r ⟨6, q⟩
      let ok : Bool := match op with
        | .kvw _ _ _ _ _ _ _ _ => held == some .x || held == some .ix
        | .pgal _ _ _ _ => held == some .x || held == some .ix
        | _ => held == some .x
      let need := if ok then [] else winLock op
      askLocks s { cx, task, todo := need, cont := .win op d }
  | none => askLocks (leave s .waiting .lock false i cx d.dst) { cx, task, todo := winLock op, cont := .win op d }

/-- Memory as the keeps that a task has logged leave it (R303, R304). -/
def keepView (s : State) (task : Option Nat) : State :=
  match task with
  | some r =>
    (winSteps s r).foldl (fun t y =>
      match y.2 with
      | .kvc _ _ n plist state => keepWrites t y.1 n plist state
      | _ => t) s
  | none => s

/-- A page-list word as a strand reads it through a leaf, with its task's earlier operations applied (R303), or the trap: 0x06 where the leaf
names no memory (R234), 0x07 in the record pool (R344) and for a counter on a task page (Table 10.3). What a peer or the host answers is a free
value (log 4). -/
def leafWord (s : State) (cx : Ctx) (l : TLeaf) (va : Nat) : Except Bad Nat :=
  let pa := l.pa va
  if 2 ≤ entAttr l.entry then .ok (bits (Config.freeWord s.fresh (8192 + pa)) 31 0)
  else if inAperture pa then
    (if entAttr l.entry = 0 then .error (0x07, wd va) else .ok (ofBytes (counterBytes s (pa - apertureBase) 4)))
  else if !inHbm pa then .error (0x06, wd va)
  else if inPool s pa then .error (0x07, wd va)
  else .ok (ofBytes (loadBytes (keepView s (cxTask s cx)) cx.core (cxTask s cx) (.phys pa) 4))

/-- The page of a position, read from the page list or tentative (R300): none without one; an error is a trap. -/
def pageOf (s : State) (cx : Ctx) (q : Seq) (p : Nat) : Except Bad (Option Nat) :=
  let j := q.pageIndex p
  if j < q.npg then
    let va := q.plist + 4 * j
    match windowLeaf s cx va with
    | some l => (leafWord s cx l va).map some
    | none => .error (0x06, wd va)
  else .ok ((q.pages.find? (fun x => x.1 == j)).map (·.2))

/-- The target of a KV line (R300). -/
def kvTarget (s : State) (q : Seq) (p page line : Nat) : Nat :=
  s.mgmt.kvBase + 16384 * page + 256 * q.lpt * ((q.cnt + p) % q.tpp) + 256 * line

/-- Whether there is no room for a new record (R301, R308): the windows are those that a strand sees, its task's earlier operations applied
(R303, log 70). -/
def noRecordRoom (s : State) (task : Option Nat) (q : Seq) : Bool :=
  decide (2048 ≤ q.recs.length) ||
    decide (s.mgmt.winRoom ≤ (s.seqs.map (fun (n, _) => (seqView s task n).recs.length)).foldl (· + ·) 0)

/-- The physical target of a KV line under R235 as a store, or its trap. -/
def kvPhysical (s : State) (cx : Ctx) (va : Nat) : Except Bad Nat :=
  match windowLeaf s cx va with
  | none => .error (0x06, wd va)
  | some l =>
    let attr := entAttr l.entry
    let counters := inAperture (l.pa va)
    if attr < 2 ∧ inHbm (l.pa va) = false ∧ counters = false then .error (0x06, wd va)
    else if !entW l.entry || decide (2 ≤ attr) || (attr == 0 && ((cxTask s cx).isNone || counters)) || inPool s (l.pa va) then
      .error (0x07, wd va)
    else .ok (l.pa va)

/-- The place that a window line goes to, and its address, or the trap of `kvw` (R308, R300, R235). -/
def kvwPlace (s : State) (cx : Ctx) (h : Word) (pos line : Nat) (state : Bool) : Except Bad (Nat × Nat) :=
  let task := cxTask s cx
  let q := seqView s task (bits h 11 0)
  if foreignHandle s task h then .error (0x12, 0)
  else
    match pageOf s cx q pos with
    | .error b => .error b
    | .ok none => .error (0x12, 0)
    | .ok (some page) =>
      let known := q.recs.any (fun r => r.pos == pos && r.state == state && r.line == line)
      if (if state then q.sl else q.lpt) ≤ line then .error (0x12, 0)
      else if !known && noRecordRoom s task q then .error (0x12, 0)
      else if state then .ok (q.saddr + 256 * line, q.saddr + 256 * line)
      else
        let va := kvTarget s q pos page line
        (kvPhysical s cx va).map (fun pa => (pa, va))

/-- The addresses that a window operation translates, each with whether it reads there, as far as they are known (R300, R312, R313). -/
def winAddresses (s : State) (cx : Ctx) (op : WinOp) : List (Nat × Bool) :=
  let task := cxTask s cx
  (match op with
  | .kvw n gen pos line state _ _ _ =>
    let q := seqView s task n
    if foreignHandle s task (handleOf n gen) then []
    else
      (if q.pageIndex pos < q.npg then [(q.plist + 4 * q.pageIndex pos, true)] else []) ++
      (match pageOf s cx q pos with
      | .ok (some page) => if state then [] else [(kvTarget s q pos page line, false)]
      | _ => [])
  | .kvc n _ k _ _ =>
    let q := seqView s task n
    if winRefusal s task op ≠ 0 then []
    else (keptPages q k).map (fun j => (q.plist + 4 * j, false)) ++ (keptLines q k).map (fun l => (q.saddr + 256 * l, false))
  | _ => []).filter (fun x => decide (x.1 < 2 ^ 48))

/-- The walks that addresses still need. -/
def walksOf (s : State) (cx : Ctx) (l : List (Nat × Bool)) : List Nat := (l.map (fun x => x.1)).filter (needsWalk s cx)

/-- Whether a line that is read at one of some addresses is pending: the read waits there (R261). -/
def readsPending (s : State) (cx : Ctx) (l : List (Nat × Bool)) : Bool :=
  l.any (fun x => x.2 && (translate s cx x.1).2.any (fun m => decide (entAttr m.entry < 2) && linePending s (.phys (m.pa x.1))))

/-- An operation judged at its grant: as it then stands, refused, or ended by a trap. -/
inductive Judged where
  | ok (op : WinOp)
  | refused (reason : Nat)
  | trap (b : Bad)
  deriving DecidableEq, Repr

/-- Judge an operation again at its grant (R303, Table 13.4): positions count from the CNT that is then seen. Until then a `pgal`
carries its position in the place of the page index; the page that a task took at issue is not wanted again. -/
def judgeWin (s : State) (cx : Ctx) (task : Option Nat) (op : WinOp) : Judged :=
  let by_ := fun (reason : Nat) (op : WinOp) => if reason = 0 then Judged.ok op else .refused reason
  match op with
  | .kvw q gen pos line state _ _ bs =>
    match kvwPlace s cx (handleOf q gen) pos line state with
    | .ok (pa, va) => .ok (.kvw q gen pos line state pa va bs)
    | .error b => .trap b
  | .kvc q gen n _ _ =>
    let reason := winRefusal s task op
    if reason ≠ 0 then .refused reason
    else
      match keepTargets s cx (seqView s task q) n with
      | some (pl, st) => .ok (.kvc q gen n pl st)
      | none => .refused 6
  | .pgal q gen pos page =>
    let x := seqView s task q
    let op : WinOp := .pgal q gen (x.pageIndex pos) page
    let reason := winRefusal s task op
    by_ (if reason = 3 ∧ task.isSome = true ∧ x.pages.length < 16 then 0 else reason) op
  | op => by_ (winRefusal s task op) op

/-- Give back the page that a `pgal` of a task took at issue. -/
def unreserve (s : State) (task : Option Nat) (op : WinOp) : State :=
  match op with
  | .pgal _ _ _ page =>
    if task.isSome then givePage { s with pagesResv := s.pagesResv.filter (fun y => y.1 != page) } page else s
  | _ => s

/-- A grant for a window operation: it is judged again, in a task against what the log held before its record; outside a task it is
applied, in a task its record stays (R303). -/
def grantWin (s : State) (task : Option Nat) (op : WinOp) (d : Done) : State :=
  let cx := d.cx
  match op with
  | .open_ q img =>
    if task.isSome then winFinish s d 80
    else if (getSeq s q).st = .free then
      let s := applyWin s op
      winFinish s { d with val := some (handleOf q (getSeq s q).gen) } 80
    else if 4096 ≤ (seqsUsed s).length then winFinish s { d with val := some (refusalWord 3) } 0
    else
      let q' := freeSeq s
      askLocks s { cx, task := none, todo := winLock (.open_ q' img), cont := .win (.open_ q' img) d }
  | op =>
    let was := match task with
      | some r => logBefore s r cx
      | none => s
    let out := match task with
      | some r => logDrop s r cx
      | none => s
    match judgeWin was cx task op with
    | .trap b => trapAt out cx b.1 b.2
    | .refused reason => winFinish (unreserve out task op) { d with val := some (refusalWord reason) } 0
    | .ok op =>
      let t := winTime s cx task.isSome op
      match task with
      | some r => winFinish (logSet s r cx op) d t
      | none =>
        match op with
        | .pgal q gen j _ =>
          let p := freePage s
          winFinish (applyWin s (.pgal q gen j p)) { d with val := some (wd p) } t
        | op => winFinish (applyWin s op) d t

/-- Write a refusal into the destination (R307). -/
def refuseWin (s : State) (cx : Ctx) (dst : Opnd) (reason : Nat) : State := finish s cx dst (refusalWord reason)

/-- `kvo` (R311). -/
def execKvo (x : Args) (s : State) : Out :=
  issue none x s (fun s =>
    let cx := s.cur
    let v := rd s cx x.b
    let h := wd (bits v 27 0)
    let q := bits h 11 0
    let gen := bits h 27 12
    let off := bits v 50 32
    let task := cxTask s cx
    let d : Done := { cx, dst := x.a, val := some 0 }
    match bits v 63 62 with
    | 0 =>
      if !imageOk s cx off then refuseWin s cx x.a 5
      else
        let ws := (List.range 8).map (fun i => wd (ofBytes (lsBytes s cx.core (off + 8 * i) 8)))
        let op : WinOp := .open_ (freeSeq s) ws
        if !imageGood ws then refuseWin s cx x.a 5
        else if winRefusal s task op != 0 then refuseWin s cx x.a 3
        else requestWin s (.kvo x) d op
    | 1 =>
      if foreignHandle s task h then refuseWin s cx x.a 1
      else
        winFinish (modStrand (leaveFlight s (.kvo x) cx) cx.core cx.strand (fun y => { y with seq := some q })) d 80
    | 2 => winFinish (modStrand (leaveFlight s (.kvo x) cx) cx.core cx.strand (fun y => { y with seq := none })) d 80
    | _ =>
      let reason := winRefusal s task (.close q gen off)
      if reason != 0 then refuseWin s cx x.a reason
      else if !imageOk s cx off then refuseWin s cx x.a 5
      else if winLogFull s cx then trapAt s cx 0x07 0
      else
        let img := cleanImage (seqView s task q).img
        let s := lsWrite s cx.core off (img.flatMap (fun w => toBytes 8 w.toNat))
        requestWin s (.kvo x) d (.close q gen off))

/-- `kvw` (R312). -/
def execKvw (x : Args) (s : State) : Out :=
  issue none x s (fun s =>
    let cx := s.cur
    let p := ptrVal s cx x.b
    let h := rd s cx x.a
    let pos := bits x.imm 3 0
    let line := bits x.imm 9 4
    let state := bit x.imm 10
    match firstBad [checkAccess s cx p 256, checkAlign p 16] with
    | some b => trapAt s cx b.1 b.2
    | none =>
      match kvwPlace s cx h pos line state with
      | .error b => trapAt s cx b.1 b.2
      | .ok (pa, va) =>
        if winLogFull s cx then trapAt s cx 0x07 (wd va)
        else
        let d : Done := { cx, ptrs := incList s cx x.b 256 x.imm }
        requestWin s (.kvw x) d (.kvw (bits h 11 0) (bits h 27 12) pos line state pa va (walkBytes s p 0 256)))

/-- Cause 0x07 when the log has no room for a record that names no address (R244). -/
def logWin (s : State) (cx : Ctx) (go : State → State) : State := if winLogFull s cx then trapAt s cx 0x07 0 else go s

/-- `kvc` (R313). -/
def execKvc (x : Args) (s : State) : Out :=
  issue none x s (fun s =>
    let cx := s.cur
    let h := rd s cx x.a
    let n := (rd s cx x.b).toNat
    let task := cxTask s cx
    let q := bits h 11 0
    let gen := bits h 27 12
    let d : Done := { cx, dst := x.c, val := some 0 }
    if foreignHandle s task h then refuseWin s cx x.c 1
    else
      let reason := winRefusal s task (.kvc q gen n [] [])
      if reason != 0 then refuseWin s cx x.c reason
      else if n = 0 then logWin s cx (fun s => requestWin s (.kvc x) d (.kvd q gen))
      else
        match keepTargets s cx (seqView s task q) n with
        | none => refuseWin s cx x.c 6
        | some (pl, st) => logWin s cx (fun s => requestWin s (.kvc x) d (.kvc q gen n pl st)))

/-- `kvd` (R313). -/
def execKvd (x : Args) (s : State) : Out :=
  issue none x s (fun s =>
    let cx := s.cur
    let h := rd s cx x.b
    if foreignHandle s (cxTask s cx) h then refuseWin s cx x.a 1
    else logWin s cx (fun s => requestWin s (.kvd x) { cx, dst := x.a, val := some 0 } (.kvd (bits h 11 0) (bits h 27 12))))

/-- Positions that hold a record or reach a tentative page (Table 13.7). -/
def posMask (q : Seq) : Nat :=
  (List.range 16).foldl (fun a p =>
    if q.recs.any (fun r => r.pos == p) || q.pages.any (fun x => x.1 == q.pageIndex p) then a + 2 ^ p else a) 0

/-- The items of `kvq` (R314). -/
def kvqItem (s : State) (cx : Ctx) (v : Word) : Word :=
  let task := cxTask s cx
  let h := wd (bits v 27 0)
  let q := seqView s task (bits h 11 0)
  let item := bits v 35 32
  if item = 9 then
    match (getStrand s cx.core cx.strand).seq with
    | some n => handleOf n (seqView s task n).gen
    | none => 0
  else if foreignHandle s task h then 0
  else
    match item with
    | 0 => q.dw 0
    | 1 => q.dw 3
    | 2 =>
      let resv := match q.st with
        | .reserved _ => true
        | _ => false
      wd (2 ^ 63 + resv.toNat * 2 ^ 62 + q.recs.length % 4096 * 2 ^ 36 + q.pages.length % 32 * 2 ^ 31 + posMask q)
    | 3 =>
      match q.pages[bits v 39 36]? with
      | some (j, page) => wd (2 ^ 63 + j % 2 ^ 24 * 2 ^ 32 + page % 2 ^ 32)
      | none => 0
    | 4 => wd q.posn
    | 5 => q.dw 5
    | 6 => q.dw 6
    | 7 => wd q.plist
    | 8 => wd q.saddr
    | _ => 0

/-- `kvq` (R314): answered within 64 cycles. -/
def execKvq (x : Args) (s : State) : Out :=
  issue none x s (fun s =>
    sched (leaveFlight s (.kvq x) s.cur) (s.now + pickN s 16 1 64) (.controlPlaneReply s.cur (.kvq (rd s s.cur x.b)) x.a))

/-- `pgal` (R315). -/
def execPgal (x : Args) (s : State) : Out :=
  issue none x s (fun s =>
    let cx := s.cur
    let h := rd s cx x.b
    let p := (rd s cx x.c).toNat
    let task := cxTask s cx
    let q := bits h 11 0
    if foreignHandle s task h then refuseWin s cx x.a 1
    else if 15 < p then refuseWin s cx x.a 2
    else
      let op : WinOp := .pgal q (bits h 27 12) ((seqView s task q).pageIndex p) 0
      let reason := winRefusal s task op
      if reason != 0 then refuseWin s cx x.a reason
      else logWin s cx (fun s => requestWin s (.pgal x) { cx, dst := x.a, val := some 0 } (.pgal q (bits h 27 12) p 0)))

/-- `pgfr` (R315): in a task it is logged, else the page returns at once. -/
def execPgfr (x : Args) (s : State) : Out :=
  issue none x s (fun s =>
    let cx := s.cur
    let p := (rd s cx x.b).toNat
    let d : Done := { cx, dst := x.a, val := some 0 }
    match cxTask s cx with
    | some r =>
      if pgfrBad s (some r) p then refuseWin s cx x.a 4
      else if logFull s cx.core r then trapAt s cx 0x07 0
      else winFinish (logAdd (leaveFlight s (.pgfr x) cx) cx.core r (.win (.pgfr p) cx)) d 40
    | none =>
      if pgfrBad s none p then refuseWin s cx x.a 4
      else winFinish (givePage (leaveFlight s (.pgfr x) cx) p) d 40)

end Sys2Proof.Machine
end

