-- ==== Sys2Proof/Machine/CopyEngine.lean ====
section
/-! DEFINITION. The copy engine: `cpy`, `cpy2`, `cpyg`, their entries' start and completion, `qfence`, `qst` and `waita` (R333 to
R343, R266 to R268). -/

namespace Sys2Proof.Machine

/-! Sides. -/

/-- A local pointer of a copy with its window bits, which are ignored, cleared (R335); a global one stands as it is. -/
def rawPtr (p : Word) : Word := if ptrGlb p then p else setBits p 35 33 0

/-- Whether the source and the destination are local (Table 15.1). -/
def CopyEnt.srcLocal (e : CopyEnt) : Bool := !e.gather && e.dir % 2 == 0
def CopyEnt.dstLocal (e : CopyEnt) : Bool := e.gather || decide (e.dir < 2)

/-- Source and destination of row `r`; the list of `cpyg` is read in the issuing core's gang (R335). -/
def copySrc (s : State) (e : CopyEnt) (r : Nat) : Word :=
  if e.gather then wd (ofBytes (walkBytes s e.src (8 * r) 8))
  else if e.srcLocal then advance e.src (r * e.sstr)
  else e.src + BitVec.ofInt 64 (r * e.sstr)

def copyDst (e : CopyEnt) (r : Nat) : Word :=
  if e.dstLocal then advance e.dst (r * e.dstr) else e.dst + BitVec.ofInt 64 (r * e.dstr)

/-- The source of the row under way: the address of a gathered row is read once (R335). -/
def CopyEnt.source (s : State) (e : CopyEnt) : Word := e.rowSrc.getD (copySrc s e e.row)

/-! Global bytes. -/

/-- The leaf that a transfer has kept for the page of an address (R237). -/
def CopyEnt.page (e : CopyEnt) (va : Nat) : Option TLeaf := e.pages.find? (fun l => l.covers va)

/-- Where a copy finds the bytes of a page, or the reason (WHY) that it faults (R234, R235, R336, R344); whether a peer or the host
fails is open (R250, log 4). -/
def leafPlace (s : State) (l : TLeaf) (va : Nat) (store : Bool) : Except Nat GLoc :=
  let pa := l.pa va
  let attr := entAttr l.entry
  if attr < 2 ∧ inHbm pa = false ∧ inAperture pa = false then .error 1
  else if store && (!entW l.entry || attr == 0) then .error 2
  else if attr = 0 ∧ inAperture pa = true then .error 2
  else if attr < 2 ∧ inPool s pa = true then .error 2
  else
    match attr with
    | 0 => .ok (.task pa)
    | 1 => .ok (if inAperture pa then .counter (pa - apertureBase) else .imm pa)
    | _ => if pickOf s 19 va 0 1 = 0 then .ok (.remote (attr == 3) (entNode l.entry) pa) else .error 3

/-- Where a copy finds global bytes, on a page that it has translated (R237): a place, or the reason that it faults (R336, R338). -/
def copyPlace (s : State) (e : CopyEnt) (va : Word) (store : Bool) : Except Nat GLoc :=
  if bit va 63 then
    (if store then .error 2
    else
      match checkLineage s e.task va false with
      | some (cause, _) => .error (if cause = 0x06 then 1 else 2)
      | none => .ok (.lin (linNode va) (linOff va)))
  else
    match e.page va.toNat with
    | some l => leafPlace s l va.toNat store
    | none => .error 1

/-- The bytes that a copy reads at a place inside one line; what a peer or the host answers is a free value (log 4). -/
def copyRead (s : State) (c : Nat) (task : Option Nat) (loc : GLoc) (n : Nat) : List Byte :=
  match loc with
  | .imm pa => memRead s pa n
  | .task pa => loadBytes s c task (.phys pa) n
  | .lin nd off => loadBytes s c task (.lin nd off) n
  | .counter off => counterBytes s off n
  | .remote _ _ pa => (List.range n).map (fun i => (Config.freeWord s.fresh (4096 + pa + i)).setWidth 8)
  | .done _ => []

/-- Pieces of `n` bytes from `a` that cross no line: (address, length). -/
def linePieces : Nat → Word → Nat → List (Word × Nat)
  | 0, _, _ => []
  | fuel + 1, a, n =>
    if n = 0 then []
    else
      let m := min n (256 - a.toNat % 256)
      (a, m) :: linePieces fuel (a + wd m) (n - m)

/-- A fault of an entry: WHY and address. -/
abbrev CopyFault := Nat × Word

/-- Read a block from global memory, up to the faulting byte. -/
def readPieces (s : State) (c : Nat) (e : CopyEnt) : List (Word × Nat) → State × List Byte × Option CopyFault
  | [] => (s, [], none)
  | (a, n) :: ps =>
    match copyPlace s e a false with
    | .error why => (s, [], some (why, a))
    | .ok loc =>
      let bs := copyRead s c e.task loc n
      let s := match loc with
        | .lin nd off => resolveInto s nd (off / 256)
        | _ => s
      let (s, rest, f) := readPieces s c e ps
      (s, bs ++ rest, f)

/-- Write a block to global memory, up to the faulting byte. -/
def writePieces (s : State) (e : CopyEnt) : List (Word × Nat) → List Byte → State × Option CopyFault
  | [], _ => (s, none)
  | (a, n) :: ps, bs =>
    match copyPlace s e a true with
    | .error why => (s, some (why, a))
    | .ok loc =>
      let s := match loc with
        | .imm pa => memWrite s pa (bs.take n)
        | _ => s
      writePieces s e ps (bs.drop n)

/-! The payload (R335). -/

/-- `n` bytes of a local source at offset `i` of a row: a bank word that the run before has begun is not read again (R268). -/
def localSource (s : State) (e : CopyEnt) (src : Word) (i n : Nat) : List Byte :=
  let old := if i = e.off then e.tail.take n else []
  old ++ walkBytes s src (i + old.length) (n - old.length)

/-- Move one block of `n` bytes at offset `i` of a row. -/
def copyBlock (s : State) (c : Nat) (e : CopyEnt) (src dst : Word) (i n : Nat) : State × Option CopyFault :=
  let (s, bs, f) :=
    if e.srcLocal then (s, localSource s e src i n, none) else readPieces s c e (linePieces 2 (src + wd i) n)
  let (s, g) :=
    if e.dstLocal then (walkWrite s dst i bs, none) else writePieces s e (linePieces 2 (dst + wd i) bs.length) bs
  (s, match g with | some x => some x | none => f)

/-- Whether a side of an entry is global. -/
def CopyEnt.global (e : CopyEnt) : Bool := !(e.srcLocal && e.dstLocal)

/-- Bytes that an entry moves in a cycle (R337). -/
def CopyEnt.rate (e : CopyEnt) : Nat := if e.global then 256 else 64

/-- Bytes of the next run. -/
def CopyEnt.runLen (e : CopyEnt) : Nat := min e.rate (e.len - e.off)

/-- Whether runs are still to be made. -/
def CopyEnt.running (e : CopyEnt) : Bool :=
  e.started && e.stopped.isNone && decide (0 < e.len) && decide (e.row < e.rows)

/-- The cycles from the first run to the next one (R337). -/
def CopyEnt.runIndex (e : CopyEnt) : Nat := (e.row * e.len + e.off) / e.rate + e.row

/-- Move the blocks of the first `n` bytes of a run from its offset `i` on, up to a fault. -/
def copyRun (s : State) (c : Nat) (e : CopyEnt) (src dst : Word) (n : Nat) : Nat → Nat → State × Option CopyFault
  | 0, _ => (s, none)
  | fuel + 1, i =>
    if n ≤ i then (s, none)
    else
      match copyBlock s c e src dst (e.off + i) (min 64 (n - i)) with
      | (s, none) => copyRun s c e src dst n fuel (i + 64)
      | r => r

/-- The place behind a run. -/
def CopyEnt.advance (e : CopyEnt) : CopyEnt :=
  if e.off + e.runLen < e.len then { e with off := e.off + e.runLen } else { e with row := e.row + 1, off := 0, rowSrc := none }

/-- What is left of the bank word in which a run of a local source has ended (R268). -/
def wordTail (s : State) (e : CopyEnt) (src : Word) : List Byte :=
  let i := e.off + e.runLen
  if e.srcLocal && decide (i < e.len) then
    walkBytes s src i (min ((16 - ptrOff (advance src i) % 16) % 16) (e.len - i))
  else []

/-- The address that a queue records for uncorrectable data at byte `n` of a run (R338): on the global side; open for an entry that has none
(log 4). -/
def badAddress (s : State) (e : CopyEnt) (n : Nat) : Word :=
  let at_ := fun (p : Word) => p + wd (e.off + n)
  if !e.srcLocal then at_ (e.source s) else if !e.dstLocal then at_ (copyDst e e.row) else Config.freeWord s.fresh 19

/-- Make the next run: the blocks move in ascending order, and a fault, or a byte that cannot be corrected, stops the entry there (R335, R338). -/
def moveCopy (s : State) (c : Nat) (e : CopyEnt) : State × CopyEnt :=
  let src := e.source s
  let n := e.bad.elim e.runLen (fun b => b % e.runLen)
  match copyRun s c e src (copyDst e e.row) n 4 0, e.bad with
  | (s, some f), _ => (s, { e with stopped := some f })
  | (s, none), some _ => (s, { e with stopped := some (4, badAddress s e n) })
  | (s, none), none => (s, { e.advance with tail := wordTail s e src })

/-- Whether the address of the row under way is still to be read from the list of `cpyg`. -/
def CopyEnt.listing (e : CopyEnt) : Bool := e.gather && e.rowSrc.isNone

/-- The stretches of local stores that the next run reads and writes: the address of a gathered row is read before its first run. -/
def copyStretches (s : State) (e : CopyEnt) : List (Word × Nat × Nat) :=
  if e.listing then [(e.src, 8 * e.row, 8)]
  else
    (if e.srcLocal then [(copySrc s e e.row, e.off, e.runLen)] else []) ++
    (if e.dstLocal then [(copyDst e e.row, e.off, e.runLen)] else [])

/-- Whether the old completion word that an entry needs cannot be corrected. -/
def CopyEnt.wordBad (e : CopyEnt) : Bool := e.bad.isSome && e.stopped.isNone && decide (2 ≤ e.cmode)

/-- The completion write (R335); an old word that cannot be corrected counts with an open value (log 45). -/
def completionWrite (s : State) (e : CopyEnt) : State :=
  let old := if e.wordBad then (Config.freeWord s.fresh 20).toNat else ofBytes (walkBytes s e.cptr 0 8)
  let put := fun (v : Nat) => walkWrite s e.cptr 0 (toBytes 8 v)
  match e.cmode with
  | 0 => s
  | 1 => put e.cval.toNat
  | 2 => put (old + e.cval.toNat)
  | _ => put (old ||| e.cval.toNat)

/-! Counting. -/

/-- Copy entries in flight on a core, joins included (R333). -/
def copiesInFlight (k : Core) : Nat :=
  k.copyQ.length +
    (k.joins.map (fun j => ((List.range 4).filter (fun q => j.mask.testBit q)).length)).foldl (· + ·) 0

/-- Put an entry into its queue: it may start in the cycle after c + 2 (R337). -/
def queueCopy (s : State) (c : Nat) (e : CopyEnt) : State :=
  modCore s c (fun k => { k with
    copyQ := k.copyQ ++ [{ e with id := k.mqNext, from_ := s.now + 3 }]
    mqNext := k.mqNext + 1 })

/-- The copy instruction that has waited longest for a place (R333). -/
def copyWaiter (s : State) (c : Nat) : Option (Wait × CopyEnt) :=
  (List.range 16).foldl (fun (best : Option (Wait × CopyEnt)) t =>
    match (getStrand s c t).wait with
    | some w =>
      match w.why with
      | .copyPlace e =>
        match best with
        | some (b, _) => if w.since < b.since then some (w, e) else best
        | none => some (w, e)
      | _ => best
    | none => best) none

/-- Copy instructions that wait for a place take those that are free. -/
def fillCopies : Nat → State → Nat → State
  | 0, s, _ => s
  | fuel + 1, s, c =>
    if copiesInFlight (getCore s c) < 1024 then
      match copyWaiter s c with
      | some (w, e) => fillCopies fuel (complete (queueCopy s c e) w.cx) c
      | none => s
    else s

/-! Issue. -/

/-- Read a descriptor (Table 15.1). -/
def readCopy (s : State) (cx : Ctx) (off q : Nat) (gather : Bool) (one : Bool) : CopyEnt :=
  let d := fun i => wd (ofBytes (lsBytes s cx.core (off + 8 * i) 8))
  let dir := if gather then 1 else bits (d 2) 61 60
  let local_ := fun (b : Bool) (p : Word) => if b then rawPtr p else p
  { id := 0, q, cx, task := cxTask s cx, gather
    rows := if one then 1 else bits (d 2) 43 32 + 1
    len := bits (d 2) 31 0
    src := local_ (gather || dir % 2 == 0) (d 0)
    dst := local_ (dir < 2) (d 1)
    sstr := signed 32 (bits (d 3) 31 0)
    dstr := signed 32 (bits (d 3) 63 32)
    dir, cptr := rawPtr (d 4), cmode := bits (d 2) 63 62, cval := d 5 }

/-- The checks of a local side, row by row (R338, R340). -/
def checkSide (s : State) (e : CopyEnt) (row : Nat → Word) : Option Bad :=
  firstBad ((List.range e.rows).map (fun r => checkAccess s e.cx (row r) e.len))

/-- The checks of R340 after the descriptor's own. -/
def checkCopy (s : State) (e : CopyEnt) : Option Bad :=
  firstBad
    [ if e.srcLocal then checkSide s e (copySrc s e) else none
    , if e.dstLocal then checkSide s e (copyDst e) else none
    , checkAccess s e.cx e.cptr 8
    , if e.gather then checkAccess s e.cx e.src (8 * e.rows) else none
    , checkAlign e.cptr 8
    , if e.gather then checkAlign e.src 8 else none ]

/-- The body of a copy instruction (R340, R333). -/
def issueCopy (i : Instr) (gather one : Bool) (x : Args) (s : State) : State :=
  let cx := s.cur
  let off := rd s cx x.a
  orTrap s cx (checkArea s cx off 16 48)
    (let e := readCopy s cx off.toNat x.mod.toNat gather one
     orTrap s cx (checkCopy s e)
      (if copiesInFlight (getCore s cx.core) < 1024 then complete (queueCopy s cx.core e) cx
      else leave s .waiting (.copyPlace e) false i cx .none))

/-- `cpy` (R340). -/
def execCpy (x : Args) (s : State) : Out := issue none x s (issueCopy (.cpy x) false true x)

/-- `cpy2` (R340). -/
def execCpy2 (x : Args) (s : State) : Out := issue none x s (issueCopy (.cpy2 x) false false x)

/-- `cpyg` (R340). -/
def execCpyg (x : Args) (s : State) : Out := issue none x s (issueCopy (.cpyg x) true false x)

/-! Start. -/

/-- The global lines that the next run reads, and those that it writes. -/
def sourceLines (s : State) (e : CopyEnt) : List Word :=
  if e.srcLocal || e.listing then [] else (linePieces 3 (e.source s + wd e.off) e.runLen).map (fun x => x.1)
def destLines (e : CopyEnt) : List Word :=
  if e.dstLocal then [] else (linePieces 3 (copyDst e e.row + wd e.off) e.runLen).map (fun x => x.1)

/-- The lock that a running task's entry still needs for a line (R336, R386). -/
def copyLock (s : State) (r : Nat) (e : CopyEnt) (va : Word) : Option LObj :=
  if bit va 63 then
    let o := linObj 0 (linNode va) (linOff va)
    if (checkLineage s (some r) va false).isSome || (getNode s (linNode va)).frozen || covered s r o .load then none else some o
  else
    match e.page va.toNat with
    | some l =>
      let o := flatObj 0 va.toNat
      if entAttr l.entry = 0 ∧ covered s r o .load = false then some o else none
    | none => none

/-- The first line among those of a run that an entry has still to translate (R237). -/
def copyUntranslated (e : CopyEnt) (lines : List Word) : Option Nat :=
  (lines.find? (fun va => bits va 63 48 == 0 && (e.page va.toNat).isNone && e.badPage != some va.toNat)).map (fun va => va.toNat)

/-- The first line that the next run reads under a lock that an entry of a task has still to ask for. -/
def copyUnlocked (s : State) (e : CopyEnt) : Option LObj := e.task.bind (fun r => (sourceLines s e).findSome? (copyLock s r e))

/-- The time of a copy's first line (R337, Table 10.4); the walk of a page that no buffer holds comes on top, when the entry reaches it. -/
def copyFirst (s : State) (c : Nat) (va : Word) : Nat :=
  if bit va 63 then accessTime s c (.lin (linNode va) (linOff va)) 0
  else
    let extra := ((buffered s c va.toNat).map (fun x => x.2)).getD 0
    match walk s va.toNat with
    | some l => if 2 ≤ entAttr l.entry then pickN s 10 1400 700000 else accessTime s c (.imm (l.pa va.toNat)) extra
    | none => accessTime s c (.imm 0) extra

/-- The cycles from the start of an entry, or its grant, to its first run at the earliest, and the rest of its time (R337). -/
def copyTimes (s : State) (c : Nat) (e : CopyEnt) : Nat × Nat :=
  let n := e.rows * e.len
  if e.global then (copyFirst s c (if e.srcLocal then copyDst e 0 else copySrc s e 0), cdiv n 256 + 8 + e.rows - 1)
  else
    let h := max (hops (colOf c) (colOf (ptrCore e.src))) (hops (colOf c) (colOf (ptrCore e.dst)))
    (h, 8 + cdiv n 64 + h + e.rows - 1)

/-- The entry of core `c` with an id. -/
def findCopy (s : State) (c id : Nat) : Option CopyEnt := (getCore s c).copyQ.find? (fun e => e.id == id)

/-- The first entry of each queue that has not started, if it may start now (R266, R337, R341). -/
def copyReady (s : State) (c : Nat) : List CopyEnt :=
  let k := getCore s c
  (List.range 4).filterMap (fun q =>
    match k.copyQ.find? (fun e => e.q == q && !e.started) with
    | some e => if e.from_ ≤ s.now ∧ joinOk k q e.id = true then some e else none
    | none => none)

/-- Put an entry back into its queue as changed. -/
def putCopy (s : State) (c : Nat) (e : CopyEnt) : State :=
  modCore s c (fun k => { k with copyQ := k.copyQ.map (fun f => if f.id = e.id then e else f) })

/-- Whether no earlier entry of its queue is left, behind whose writes an entry's are held (R266). -/
def copyTurn (k : Core) (e : CopyEnt) : Bool := !(k.copyQ.takeWhile (fun f => f.id != e.id)).any (fun f => f.q == e.q)

/-- An entry is under way: its first run comes some cycles on (log 1). -/
def runCopy (s : State) (c : Nat) (e : CopyEnt) : State :=
  let (first, rest) := copyTimes s c e
  putCopy s c { e with started := true, base := s.now + first + pickN s 1 0 8, due := s.now + first + rest }

/-- COPY_ENTRY_START (R337). -/
def execCopyEntryStart (c id : Nat) (s : State) : Out :=
  .next
    (match (copyReady s c).find? (fun e => e.id == id) with
    | some e => runCopy s c e
    | none => s)

/-- What a copy entry has waited for, a lock or a walk, is there: it goes on where it stands, with what the walk has given. -/
def resumeCopy (s : State) (c id : Nat) (f : CopyEnt → CopyEnt) : State :=
  match findCopy s c id with
  | some e => putCopy s c { f e with asking := false }
  | none => s

/-! Completion. -/

/-- Change the status of a copy queue. -/
def modCq (s : State) (c q : Nat) (f : CqStat → CqStat) : State :=
  modCore s c (fun k => { k with cqStat := setK k.cqStat q (f (getK {} k.cqStat q)) })

/-- Record a fault in its queue's status (R343). -/
def CqStat.fail (x : CqStat) (why addr : Nat) : CqStat :=
  if x.fault then { x with count := min 4095 (x.count + 1) }
  else { x with fault := true, why := why, count := min 4095 (x.count + 1), addr := addr % 2 ^ 48 }

/-- Whether no strand can raise a fault held for the strand of an entry (R338). -/
def strandGone (s : State) (r : Nat) (cx : Ctx) : Bool :=
  let x := getStrand s cx.core cx.strand
  x.st == .done || x.st == .free || taskOf s cx.core cx.strand != some r || waitsTdone s r

/-- A fault of a task's entry is held for its strand, or makes the task Faulted (R338). -/
def copyFaultTask (s : State) (c r : Nat) (e : CopyEnt) (why : Nat) (addr : Word) : State :=
  let cause : Byte := if why = 1 then 0x06 else 0x07
  if strandGone s r e.cx then sched s s.now (.taskFault r c cause)
  else holdFault s c e.cx.strand ⟨cause, addr, e.cx.word, true⟩

/-- Whether the next run reads a line that a committing task is writing (R261). -/
def copyPending (s : State) (e : CopyEnt) : Bool :=
  (sourceLines s e).any (fun va =>
    match copyPlace s e va false with
    | .ok (.task pa) => linePending s (.phys pa)
    | .ok (.lin n off) => linePending s (.lin n off)
    | .ok (.imm pa) => linePending s (.phys pa)
    | _ => false)

/-- Whether the next run of an entry may be made or asked for in this cycle (R266, R261, R336). -/
def copyRunDue (s : State) (c : Nat) (e : CopyEnt) : Bool :=
  e.running && !e.asking && decide (e.base + e.runIndex ≤ s.now) && copyTurn (getCore s c) e && !copyPending s e

/-- Whether an entry whose payload has moved, or that a fault has stopped, completes in this cycle behind the earlier ones (R266, R337). -/
def copyEndDue (s : State) (c : Nat) (e : CopyEnt) : Bool :=
  e.started && !e.running && !e.asking && decide (e.due ≤ s.now) && copyTurn (getCore s c) e

/-- Whether the next run still needs a translation or a lock. -/
def copyNeeds (s : State) (e : CopyEnt) : Bool :=
  (copyUntranslated e (sourceLines s e ++ destLines e)).isSome || (copyUnlocked s e).isSome

/-- An entry gets the translation of the page that its next run has reached, from a buffer or by a walk, or asks for a lock of its task
(R237, R336, R386). -/
def askForRun (s : State) (c : Nat) (e : CopyEnt) : State :=
  let wait := { e with asking := true }
  match copyUntranslated e (sourceLines s e ++ destLines e), e.task, copyUnlocked s e with
  | some va, _, _ =>
    match buffered s c va with
    | some (l, t) =>
      putCopy (useLeaf s c l t) c
        (match freshLeaf s l va with
        | some m => { e with pages := e.pages ++ [m] }
        | none => { e with badPage := some va })
    | none => askWalk (putCopy s c wait) ⟨c, va, .copy e.id⟩
  | none, some r, some o =>
    askLocks (putCopy s c wait) { cx := e.cx, task := some r, todo := chainFor o .s, cont := .copy c e.id }
  | none, _, _ => s

/-- Whether a run crosses the fabric beyond the entry's first line: its completion waits for the answer (R336, R241). -/
def runAnswered (s : State) (e : CopyEnt) : Bool :=
  let far := fun (l : TLeaf) => decide (2 ≤ entAttr l.entry)
  let on := fun (va : Word) => (e.page va.toNat).any far
  (destLines e).any on || ((sourceLines s e).any on && !(e.pages.head?.any far))

/-- The banks have served a run: the address of a gathered row is read, or the blocks move, and what the banks, a walk or a lock has delayed comes
later. -/
def afterCopyRun (s : State) (c : Nat) (e : CopyEnt) : State :=
  if e.listing then putCopy s c { e with rowSrc := some (copySrc s e e.row), done := [] }
  else
    let at_ := e.base + e.runIndex
    let late := runLate s at_ (copyStretches s e)
    let answer := if runAnswered s e then s.now + pickN s 10 1400 700000 else 0
    let (s, f) := moveCopy s c e
    putCopy s c { f with done := [], base := e.base + (s.now - at_), due := max (e.due + late) answer }

/-- The stretches of the completion word (R335). -/
def CopyEnt.wordStretch (e : CopyEnt) : List (Word × Nat × Nat) := if e.cmode = 0 then [] else [(e.cptr, 0, 8)]

/-- The entries of a queue behind one that has completed go on: those with runs held behind its writes from the next cycle (R266). -/
def releaseCopies (s : State) (c q : Nat) : State :=
  modCore s c (fun k => { k with copyQ := k.copyQ.map (fun f =>
    if f.q = q ∧ f.running = true ∧ f.base + f.runIndex ≤ s.now then
      let last := (f.rows * f.len - (f.row * f.len + f.off)) / f.rate + (f.rows - f.row)
      { f with base := s.now + 1 - f.runIndex, due := max f.due (s.now + 1 + last) }
    else f) })

/-- An entry completes (R335, R338): the completion word is written, and the queue's status and the strand learn of a fault. -/
def endCopy (s : State) (c : Nat) (e : CopyEnt) : State :=
  let s := completionWrite s e
  let e := if e.wordBad then { e with stopped := some (4, Config.freeWord s.fresh 19) } else e
  let s := modCore s c (fun k => { k with copyQ := k.copyQ.filter (fun g => g.id != e.id) })
  let s := releaseCopies s c e.q
  let s := modCq s c e.q (fun x => { x with done := (x.done + 1) % 2 ^ 32 })
  let s := match e.stopped with
    | some (why, a) =>
      let s := modCq s c e.q (fun x => x.fail why a.toNat)
      match e.task with
      | some r => copyFaultTask s c r e why a
      | none => s
    | none => s
  let s := pruneJoins s c
  match e.task with
  | some r => checkRetire s r
  | none => s

/-- COPY_ENTRY_COMPLETE (R335, R338, R266): the payload has moved, and the entry completes behind the earlier entries of its queue. -/
def execCopyEntryComplete (c id : Nat) (s : State) : Out :=
  .next
    (match findCopy s c id with
    | none => s
    | some e => if copyTurn (getCore s c) e then endCopy s c e else s)

/-! `qfence`, `qst`, `waita`. -/

/-- `qfence` (R341). -/
def execQfence (x : Args) (s : State) : Out :=
  issue none x s (fun s =>
    let c := s.cur.core
    let mask := x.imm.toNat % 64
    let s :=
      if mask = 0 then s
      else
        let j : Join := { id := (getCore s c).mqNext, mask, task := cxTask s s.cur }
        pruneJoins (modCore s c (fun k => { k with joins := k.joins ++ [j], mqNext := k.mqNext + 1 })) c
    complete s s.cur)

/-- The items of `qst` (Table 15.3). -/
def qstItem (k : Core) (q : Nat) (item : Bool) : Word :=
  let x : CqStat := getK {} k.cqStat q
  if item then
    let out := (k.copyQ.filter (fun e => e.q == q)).length + (k.joins.filter (fun j => j.mask.testBit q)).length
    wd (x.done * 2 ^ 32 + copiesInFlight k * 2 ^ 16 + out)
  else wd (x.fault.toNat * 2 ^ 63 + x.why % 8 * 2 ^ 60 + x.count * 2 ^ 48 + x.addr)

/-- `qst` (R343). -/
def execQst (x : Args) (s : State) : Out :=
  issue none x s (fun s =>
    let cx := s.cur
    let v := rd s cx x.a
    let q := bits v 1 0
    let item := bit v 2
    let w := qstItem (getCore s cx.core) q item
    let s :=
      if x.mod = 1 ∧ item = false then
        modStrand (modCq s cx.core q (fun y => { done := y.done })) cx.core cx.strand (fun y =>
          { y with held := y.held.filter (fun f => !f.copy) })
      else s
    finish s cx x.a w)

/-- The conditions of `waita` (R342). -/
def waitaHolds (cond : Nat) (w v : Word) : Bool :=
  match cond with
  | 0 => decide (v.toNat ≤ w.toNat)
  | 1 => w == v
  | 2 => w != v
  | 3 => decide (w.toNat < v.toNat)
  | _ => w &&& v != 0

/-- `waita` (R342): while the word's bank is under test, it is not read, and the wait is not counted (R407). -/
def execWaita (x : Args) (s : State) : Out :=
  issue none x s (fun s =>
    let cx := s.cur
    let p := ptrVal s cx x.b
    orTrap s cx (firstBad [checkAccess s cx p 8, checkAlign p 8, watchWalk s cx true false p 8])
      (let w := wd (ofBytes (lsBytes s (ptrCore p) (ptrOff p) 8))
       let v := rd s cx x.a
       let word := Why.word x.mod.toNat (ptrCore p * 2 ^ 19 + ptrOff p) v
       if bankTested s (ptrCore p) (bankMask (ptrOff p) 8) then leave s .waiting word false (.waita x) cx x.a
       else if waitaHolds x.mod.toNat w v then
         finishDone s { cx, dst := x.a, val := some w, ptrs := incList s cx x.b 8 x.imm }
       else leave s .blocked word true (.waita x) cx x.a))

/-- The operands of the `waita` that a strand waits in. -/
def waitaArgs : Instr → Args
  | .waita x => x
  | _ => {}

/-- The condition of a strand's `waita` at the end of a cycle (R342): met, the word is delivered and the strand rejoins. One whose
bank was under test at its issue is Blocked from its first reading on. -/
def settleWaita (s : State) (c t : Nat) : State :=
  match (getStrand s c t).wait with
  | some w =>
    match w.why with
    | .word cond off v =>
      let word := wd (ofBytes (lsBytes s (off / 2 ^ 19) (off % 2 ^ 19) 8))
      if waitaHolds cond word v then
        let x := waitaArgs w.instr
        finishDone s { cx := w.cx, dst := x.a, val := some word, ptrs := incList s w.cx x.b 8 x.imm }
      else if w.counted then s
      else modStrand s c t (fun y => { y with st := .blocked, wait := some { w with counted := true, since := s.now } })
    | _ => s
  | none => s

end Sys2Proof.Machine
end

