-- ==== Sys2Proof/Machine/System.lean ====
section
/-! DEFINITION. Page 7: control registers with `mfc` and `mtc` (R124 to R129, R147), `start` and `reap` (R148, R149), traps,
breakpoints and `rft` (R130 to R138, R152, R153), timers and wait limits (R138, R160). -/

namespace Sys2Proof.Machine

/-! Reading control registers. -/

/-- Table 6.1: the registers that only strand 0 reads, and that only strand 0 writes. -/
def crReadSystem (n : Nat) : Bool := decide (34 ≤ n)
def crWriteSystem (n : Nat) : Bool :=
  n == 6 || n == 7 || n == 11 || n == 32 || n == 33 || n == 34 || decide (37 ≤ n)

/-- Registers whose write is ignored (Table 6.1). -/
def crIgnored (n : Nat) : Bool :=
  n == 1 || n == 2 || n == 3 || n == 4 || n == 8 || n == 9 || n == 10 || n == 12 || n == 19 || n == 35 || n == 36

/-- The word of a trap message (Table 6.5). -/
def msgWord (m : TrapMsg) : Word :=
  wd (2 ^ 63 + m.strand % 16 * 2 ^ 48 + m.cause.toNat * 2 ^ 40 + m.word.toNat)

/-- A read of cr.tmsg (R134): the head message is popped, and cr.taddr and cr.tsel follow it. -/
def popMessage (s : State) (c : Nat) : State × Word :=
  match (getCore s c).trapQ with
  | [] => (s, 0)
  | m :: ms =>
    (modCore s c (fun k =>
      (({ k with trapQ := ms }).sharedWrite 36 0 s.now (low48 m.addr)).sharedWrite 37 0 s.now (wd (m.strand % 16))),
     msgWord m)

/-- The value of a control register that a strand reads. -/
def crValue (s : State) (c t n : Nat) : Word :=
  let k := getCore s c
  let x := k.strand t
  match n with
  | 0 => x.stat t s.now
  | 8 => wd s.now
  | 19 => x.dbgWord
  | n => if n < 32 then x.get n else k.sharedRead n t s.now

/-- `mfc` (R147, R125): the read of cr.tmsg pops. -/
def execMfc (x : Args) (s : State) : Out :=
  let n := match x.b with
    | .cr n => n.toNat
    | _ => 0
  issue (if crReadSystem n then privileged s else none) x s (fun s =>
    let cx := s.cur
    if n = 35 then
      let (s, v) := popMessage s cx.core
      finish s cx x.a v
    else finish s cx x.a (crValue s cx.core cx.strand n))

/-- CR_TMSG_POP (R134). -/
def execCrTmsgPop (c : Nat) (s : State) : Out := .next (popMessage s c).1

/-! Writing control registers. -/

/-- Clear the W1C bits of cr.stat that are given: SELS, CF8E, DF (Table 6.2). -/
def writeStat (s : State) (c t : Nat) (v : Word) : State :=
  modStrand s c t (fun x =>
    let clear := fun (x : Strand) (i : Nat) => if bit v i then x.setFlag i false else x
    clear (clear (clear x 11) 10) 7)

/-- CR_STAT_W1C. -/
def execCrStatW1c (c t : Nat) (v : Word) (s : State) : Out := .next (writeStat s c t v)

/-- Write cr.tmr (R138): 0 disarms it; a nonzero value first counts at the end of the next cycle. -/
def writeTimer (s : State) (c t : Nat) (v : Word) : State :=
  let n := bits v 31 0
  modStrand s c t (fun x =>
    { x.set 7 (wd n) with
      tmrSet := if n = 0 then none else some s.now
      tmrHit := if n = 0 then false else x.tmrHit })

/-- CR_TMR_WRITE. -/
def execCrTmrWrite (c t : Nat) (v : Word) (s : State) : Out := .next (writeTimer s c t v)

/-- Write cr.wlim (R160). -/
def writeLimit (s : State) (c t : Nat) (v : Word) : State := modStrand s c t (fun x => x.set 6 (wd (bits v 31 0)))

/-- CR_WLIM_WRITE. -/
def execCrWlimWrite (c t : Nat) (v : Word) (s : State) : Out := .next (writeLimit s c t v)

/-- The tiles that live strands of a core other than `t` own. -/
def tilesOwned (k : Core) (t : Nat) : Nat :=
  (List.range 16).foldl (fun a u =>
    let x := k.strand u
    if u ≠ t ∧ x.live = true then a ||| bits (x.get 11) 7 0 else a) 0

/-- Strand 0 writes its own cr.accm (Table 6.4): only the bits that no other live strand owns. -/
def writeAccm (s : State) (c : Nat) (v : Word) : State :=
  let own := tilesOwned (getCore s c) 0
  modStrand s c 0 (fun x => x.set 11 (wd (bits v 7 0 - (bits v 7 0 &&& own))))

/-- CR_ACCM_WRITE. -/
def execCrAccmWrite (c : Nat) (v : Word) (s : State) : Out := .next (writeAccm s c v)

/-- The bits of a core register that can be written (Table 6.5, R128). -/
def coreMask (n : Nat) (v : Word) : Word :=
  match n with
  | 32 => wd (bits v 1 0)
  | 34 => wd (bits v 47 1 * 2)
  | 37 => wd (bits v 4 0)
  | 38 => wd (bits v 47 6 * 64)
  | 39 => wd (bits v 58 48 * 2 ^ 48 + bits v 43 0)
  | 40 => wd (bits v 47 0)
  | 41 => wd (bits v 26 16 * 2 ^ 16 + bits v 10 0)
  | _ => 0

/-- The bits of a strand register that can be written (Table 6.4). -/
def strandMask (n : Nat) (v : Word) : Word :=
  if n = 5 then wd (bits v 16 0)
  else if n < 17 then wd (bits v 47 0)
  else wd (bits v 63 54 * 2 ^ 54 + bits v 47 0)

/-! The L1 split (R129, R185). -/

/-- Whether new L1 banks overlap the region of a live strand other than strand 0 (R129, R182). -/
def splitOverlaps (k : Core) (split : Nat) : Bool :=
  (List.range 16).any (fun t =>
    let x := k.strand t
    let l := x.get 12
    t != 0 && x.live && decide (bits l 10 0 < min (bits l 26 16) 1536) &&
      decide (storeTop split < min (bits l 26 16) 1536 * 256))

/-- Whether an instruction is a load or an atomic that may read or fill the L1 (R185, R240). -/
def mayFill : Instr → Bool
  | .ldg _ => true
  | .amo _ => true
  | .amoc _ => true
  | _ => false

/-- Whether no load or atomic that may read or fill the L1 is in flight on a core (R185): those issued behind the `mtc` count too (R185 does not
say; DESIGN CHOICE, log 71). -/
def splitReady (s : State) (c : Nat) : Bool :=
  (List.range 16).all (fun t =>
    match (getStrand s c t).wait with
    | some w => !(mayFill w.instr && (taskOf s c t).isSome)
    | none => true)

/-- A change of SPLIT takes effect: lines in banks that leave the cache are invalidated, the others keep their place. -/
def takeSplit (s : State) (c : Nat) (v : Word) : State :=
  modCore s c (fun k =>
    let old := storeTop k.splitNow
    let new := storeTop (bits v 1 0)
    let l1 := k.l1.filterMap (fun x =>
      let a := old + 256 * x.place
      if a < new then none else some { x with place := (a - new) / 256 })
    ({ k with l1 := l1 }).sharedWrite 33 0 s.now (wd (bits v 1 0)))

/-- L1SPLIT_TAKE_EFFECT (R185). -/
def execL1splitTakeEffect (cx : Ctx) (v : Word) (s : State) : Out :=
  .next (if stillWaits s cx then complete (takeSplit s cx.core v) cx else s)

/-- A write of cr.l1split: refused over a region, else it waits for the loads in flight. -/
def writeSplit (s : State) (i : Instr) (cx : Ctx) (v : Word) : State :=
  if splitOverlaps (getCore s cx.core) (bits v 1 0) then trapAt s cx 0x04 0
  else if splitReady s cx.core then complete (takeSplit s cx.core v) cx
  else leave s .waiting (.split v) false i cx .none

/-- CR_L1SPLIT_WRITE (R129, R185). -/
def execCrL1splitWrite (cx : Ctx) (v : Word) (s : State) : Out :=
  .next (writeSplit s (.mtc { a := .cr 33, b := .none }) cx v)

/-- `mtc` (R147, R125, R129). -/
def execMtc (x : Args) (s : State) : Out :=
  let n := match x.a with
    | .cr n => n.toNat
    | _ => 0
  issue (if crWriteSystem n then privileged s else none) x s (fun s =>
    let cx := s.cur
    let c := cx.core
    let t := cx.strand
    let v := rd s cx x.b
    if crIgnored n then complete s cx
    else
      match n with
      | 0 => complete (writeStat s c t v) cx
      | 6 => complete (writeLimit s c t v) cx
      | 7 => complete (writeTimer s c t v) cx
      | 11 => complete (writeAccm s c v) cx
      | 33 => writeSplit s (.mtc x) cx v
      | n =>
        if n < 32 then complete (modStrand s c t (fun y => y.set n (strandMask n v))) cx
        else complete (modCore s c (fun k => k.sharedWrite n t s.now (coreMask n v))) cx)

/-! Starting and reaping. -/

/-- Whether a window satisfies R90 for strand `t` of a core. -/
def windowOk (k : Core) (t base limit : Nat) : Bool :=
  base % 8 == 0 && limit % 8 == 0 && decide (base + 8 ≤ limit) && decide (limit ≤ base + 128) && decide (limit ≤ 2048) &&
  (List.range 16).all (fun u =>
    let x := k.strand u
    u == t || !x.live || decide (x.limit ≤ base) || decide (limit ≤ x.base))

/-- The word of cr.win. -/
def winWord (base limit : Nat) : Word := wd (limit * 2 ^ 16 + base)

/-- Start a strand (R148, R89): its registers are cleared or set, its window's file entries stay. HLDP and a pending expiry of its timer are
cleared too (R148 names only the W1C bits of cr.stat; DESIGN CHOICE, log 30). -/
def startStrand (s : State) (c t base limit accm : Nat) (wlim task stamp lsreg pc : Word) (hold : Bool) : State :=
  let s := modStrand s c t (fun x =>
    let y : Strand :=
      { st := if hold then .held else .ready
        pc := pc
        cr := [(0, wd (bits (x.get 0) 5 5 * 32)), (4, winWord base limit), (6, wlim), (9, task), (10, stamp), (11, wd accm),
               (12, lsreg)]
        last := x.last, resumed := x.resumed, readyFrom := s.now + 1 }
    y)
  match taskOf s c t with
  | some r => modTask s r (fun k => { k with left := k.left.map (fun (d, n) => if d = c then (d, n - 1) else (d, n)) })
  | none => s

/-- The status of a start (Table 6.12). -/
def startStatus (k : Core) (t base limit accm : Nat) (pc : Word) : Nat :=
  if t = 0 ∨ (k.strand t).live = true then 1
  else if !windowOk k t base limit then 2
  else if accm &&& tilesOwned k t != 0 then 3
  else if bit pc 0 || bits pc 63 48 != 0 then 4
  else 0

/-- `start` (R148). -/
def execStart (x : Args) (s : State) : Out :=
  issue (privileged s) x s (fun s =>
    let cx := s.cur
    let k := getCore s cx.core
    let d := rd s cx x.a
    let pc := rd s cx x.b
    let t := bits d 3 0
    let status := startStatus k t (bits d 26 16) (bits d 43 32) (bits d 15 8) pc
    let s :=
      if status != 0 then s
      else
        startStrand s cx.core t (bits d 26 16) (bits d 43 32) (bits d 15 8) ((k.strand 0).get 6) (k.sharedRead 39 0 s.now)
          (k.sharedRead 40 0 s.now) (k.sharedRead 41 0 s.now) pc (bit d 4)
    finish s cx x.a (wd status))

/-- Whether matrix operations or passes of a strand are in flight (R141, R149). -/
def matrixBusy (k : Core) (t : Nat) : Bool :=
  k.mq.any (fun e => e.cx.strand == t) || k.mqWait.any (fun e => e.cx.strand == t) || k.rep.any (fun r => r.cx.strand == t)

/-- Reap a strand and, when it was its task's last strand not yet done, retire the task (R149, R359). -/
def reapOne (s : State) (c t : Nat) : State :=
  let task := taskOf s c t
  let s := reapStrand s c t
  match task with
  | some r => checkRetire s r
  | none => s

/-- `reap` (R149). -/
def execReap (x : Args) (s : State) : Out :=
  issue (privileged s) x s (fun s =>
    let cx := s.cur
    let k := getCore s cx.core
    let t := bits (rd s cx x.a) 3 0
    let st := (k.strand t).st
    if t = 0 ∨ !(st == .halted || st == .trapped || st == .held || st == .done) then finish s cx x.a 1
    else if matrixBusy k t then leave s .waiting (.reap t) false (.reap x) cx x.a
    else finish (reapOne s cx.core t) cx x.a 0)

/-- A `reap` that waited for matrix work goes on at the end of the cycle in which there is none left (R149). -/
def wakeReap (s : State) (c : Nat) : State :=
  match (getStrand s c 0).wait with
  | some w =>
    match w.why with
    | .reap t => if matrixBusy (getCore s c) t then s else finish (reapOne s c t) w.cx w.dst 0
    | _ => s
  | none => s

/-! Traps by instruction and at issue. -/

/-- `trap` (R152). -/
def execTrap (x : Args) (s : State) : Out :=
  issue none x s (fun s =>
    takeTrap s s.cur.core s.cur.strand 0x17 x.imm s.cur.word s.cur.addr (nextPc s.cur))

/-- `brk` (R152). -/
def execBrk (x : Args) (s : State) : Out :=
  issue none x s (fun s =>
    takeTrap s s.cur.core s.cur.strand 0x13 x.imm s.cur.word s.cur.addr (nextPc s.cur))

/-- A word sequence of Table 3.13 (R57). -/
def execIllegalInstruction (s : State) : Out := .next (trapAt s s.cur 0x01 0)

/-- A fetch fault (R59). -/
def execFetchFault (cause : Byte) (bad : Word) (s : State) : Out := .next (trapAt s s.cur cause bad)

/-- A match of cr.brk*n* (R133, R143). -/
def execBreakpointMatch (n : BitVec 2) (s : State) : Out := .next (trapAt s s.cur 0x13 (wd n.toNat))

/-! Return. -/

/-- Strand `t` is resumed by `rft` (R136, R139); bit 0 of its cr.epc stays as it is (log 66). -/
def resumeTrapped (s : State) (c t : Nat) : State :=
  let x := getStrand s c t
  let s := modStrand s c t (fun x => { x.setFlag 5 true with pc := x.get 2, resumed := s.now })
  if x.flag 8 then modStrand s c t (fun x => { x.setFlag 8 false with st := .held })
  else rejoin s c t

/-- Return from a trap (R136): the selected strand goes on, then strand 0; bit 0 of cr.epc stays as it is (log 66). -/
def returnFromTrap (s : State) (cx : Ctx) : State :=
  let c := cx.core
  let sel := (getCore s c).sharedLast 37
  let t := bits sel 3 0
  let s :=
    if bit sel 4 = false ∧ t ≠ 0 ∧ (getStrand s c t).st = .trapped then resumeTrapped s c t else s
  let s := modCore s c (fun k => k.sharedWrite 37 0 s.now (wd (16 + t)))
  if (getCore s c).trapQ.isEmpty then
    let epc := (getStrand s c 0).get 2
    completeAt (modStrand s c 0 (fun x => (x.setFlag 6 false).setFlag 5 true)) cx epc
  else completeAt s cx ((getCore s c).sharedLast 34)

/-- `rft` (R153): 0x02 from another strand, 0x01 outside handler mode, both before the guard (R58). -/
def execRft (x : Args) (s : State) : Out :=
  issue (if s.cur.strand ≠ 0 then some 0x02
    else if (getStrand s s.cur.core 0).flag 6 then none else some 0x01) x s (fun s => returnFromTrap s s.cur)

/-! The clockwork of traps. -/

/-- Raise a trap that ends a wait: the wait is taken back, and the strand resumes at `epc` (R134, R138, R160). -/
def endWaitTrap (s : State) (c t : Nat) (cause : Byte) (epc : Word) : State :=
  match (getStrand s c t).wait with
  | some w =>
    let word : IWord := if cause = 0x16 then 0 else w.cx.word
    let addr := if cause = 0x16 then epc else w.cx.addr
    takeTrap (abandonWait s c t) c t cause 0 word addr epc
  | none => s

/-- TIMER_EXPIRY (R138): cr.tmr reaches 0. From Blocked the trap is raised at once, but a sleeper rejoins, with a deposit in this
cycle or without one, and its trap stands in place of its next issue (R123). -/
def execTimerExpiry (c t : Nat) (s : State) : Out :=
  .next
    (let s := modStrand s c t (fun x => { x.set 7 0 with tmrHit := true, tmrSet := some s.now })
     let x := getStrand s c t
     if asleep x then wakeSleeper s c t
     else if x.st = .blocked then endWaitTrap s c t 0x16 (abandonPc x) else s)

/-- TIMER_TRAP (R138): in place of an issue. -/
def execTimerTrap (c t : Nat) (s : State) : Out :=
  .next (let pc := (getStrand s c t).pc; takeTrap s c t 0x16 0 0 pc pc)

/-- WAIT_LIMIT_EXPIRY (R160). -/
def execWaitLimitExpiry (c t : Nat) (s : State) : Out :=
  .next
    (match (getStrand s c t).wait with
    | some w => endWaitTrap s c t 0x0C w.cx.addr
    | none => s)

/-- Whether strand 0 enters handler mode now (R134). -/
def handlerDue (k : Core) : Bool :=
  let x := k.strand 0
  !x.flag 6 && !k.trapQ.isEmpty && (x.st == .ready || x.st == .blocked)

/-- HANDLER_ENTRY (R134). -/
def execHandlerEntry (c : Nat) (s : State) : Out :=
  .next
    (if handlerDue (getCore s c) then
      let epc := abandonPc (getStrand s c 0)
      enterHandler (abandonWait s c 0) c epc
    else s)

end Sys2Proof.Machine
end

