-- ==== Sys2Proof/Machine/Contexts.lean ====
section
/-! DEFINITION. The strand state space (R140), `wmf` and `wmt` (R151), the thread-context cache with `swap` and `ccf` (R141, R142,
R150), and `tlbi` (R155). -/

namespace Sys2Proof.Machine

/-! State items (Table 6.7). -/

/-- The strand of a core that owns a tile, if any. -/
def tileOwner (k : Core) (i : Nat) : Option Nat :=
  (List.range 16).find? (fun u => (k.strand u).live && bit ((k.strand u).get 11) i)

/-- Item 246: lock bits and owning strands; the owner field of a tile that no strand owns is not stated, and free (log 4). -/
def tileItem (s : State) (k : Core) : Word :=
  (List.range 8).foldl (fun w i =>
    let u := (tileOwner k i).getD ((Config.freeWord s.fresh (30 + i)).toNat % 16)
    w + wd (u * 2 ^ (8 + 4 * i))) (wd (lockBits k))

/-- Two barriers' leads, 2 bits for each column (items 242 to 245). -/
def leadItem (s : State) (c j : Nat) : Word :=
  let half := fun (n : Nat) =>
    let b := getBarrier s (loomOf c) n
    (List.range 16).foldl (fun a i => a + b.lead i % 4 * 2 ^ (2 * i)) 0
  wd (half (2 * j) + half (2 * j + 1) * 2 ^ 32)

/-- Two nest indices in one item. -/
def kPair (x : Strand) (i : Nat) : Word := wd ((x.kreg i).toNat + (x.kreg (i + 1)).toNat * 2 ^ 32)

/-- The size of a strand's window: none without one (Table 6.3). -/
def windowSize (x : Strand) : Nat := if x.live then x.size else 0

/-- Item `i` of strand `t` of core `c` (Table 6.7). -/
def stateItem (s : State) (c t i : Nat) : Word :=
  let k := getCore s c
  let x := k.strand t
  if i < 128 then (if i < windowSize x then getK 0 k.rf (x.base + i) else 0)
  else if i < 136 then x.ptr (i - 128)
  else if i = 136 then wd (x.preds.toNat / 2 * 2 + 1)
  else if i = 137 then kPair x 0
  else if i = 138 then kPair x 2
  else if i = 139 then x.get 2
  else if i = 140 then x.get 1
  else if i = 141 then x.get 3
  else if i < 146 then (if i = 145 then x.get 11 else x.get (i - 137))
  else if i = 146 then x.stat t s.now
  else if i = 147 then
    wd ((List.range 28).foldl (fun a j => if (getSlot s c (j + 4)).owner = some t then a + 2 ^ (j + 4) else a) 0)
  else if i < 154 then x.get (i - 135)
  else if i = 154 then x.dbgWord
  else if i = 155 then x.get 4
  else if i = 156 then x.get 9
  else if i = 157 then x.get 10
  else if i = 158 then x.get 12
  else if i < 192 then 0
  else if i < 208 then k.sharedLast (i - 192)
  else if i < 212 then ((getLink s c (i - 208)).words.head?).getD 0
  else if i < 240 then (getSlot s c (i - 208)).val
  else if i = 240 then
    wd ((List.range 28).foldl (fun a j => if (getSlot s c (j + 4)).present then a + 2 ^ (j + 4) else a) 0)
  else if i = 241 then wd ((List.range 4).foldl (fun a j => a + (getLink s c j).words.length * 2 ^ (4 * j)) 0)
  else if i < 246 then leadItem s c (i - 242)
  else if i = 246 then tileItem s k
  else if i = 247 then wd (k.deferred.length % 32 + k.trapQ.length % 32 * 256)
  else if i = 248 then k.sharedLast 32
  else if i = 249 then k.sharedLast 33
  else if i = 250 then wd s.now
  else if i = 251 then k.sharedLast 38
  else 0

/-- A pointer of a strand is about to be written while its instruction is under way: that one keeps it as it stood at its issue (R151). -/
def Strand.noteWas (x : Strand) (p : Nat) : Strand :=
  { x with wait := x.wait.map (fun w => if w.was.any (fun y => y.1 == p) then w else { w with was := w.was ++ [(p, x.ptr p)] }) }

/-- Write item `i` of a strand; `port` is the debug port, which alone writes core items: one of s0 to s15 becomes visible as a write of strand 0
in that cycle (R99 and R146 do not say; DESIGN CHOICE, log 71). A cr.epc is written with its bit 0 (log 66). -/
def setStateItem (s : State) (c t i : Nat) (v : Word) (port : Bool) : State :=
  let x := getStrand s c t
  let put := fun (f : Strand → Strand) => modStrand s c t f
  if i < 128 then
    (if i < windowSize x then modCore s c (fun k => { k with rf := setK k.rf (x.base + i) v }) else s)
  else if i < 136 then put (fun x => (x.noteWas (i - 128)).setPtr (i - 128) v)
  else if i = 136 then put (fun x => { x with preds := BitVec.ofNat 8 (bits v 7 1 * 2 + 1) })
  else if i = 137 ∨ i = 138 then
    let j := 2 * (i - 137)
    put (fun x => (x.setK j (BitVec.ofNat 32 (bits v 31 0))).setK (j + 1) (BitVec.ofNat 32 (bits v 63 32)))
  else if i = 139 then put (fun x => x.set 2 (low48 v))
  else if i = 140 then put (fun x => x.set 1 (wd (bits v 63 16 * 65536 + bits v 7 0)))
  else if i = 141 then put (fun x => x.set 3 (wd (bits v 15 0)))
  else if i = 142 then put (fun x => x.set 5 (strandMask 5 v))
  else if i = 143 then writeLimit s c t v
  else if i = 144 then writeTimer s c t v
  else if i = 146 then writeStat s c t v
  else if 148 ≤ i ∧ i < 154 then put (fun x => x.set (i - 135) (strandMask (i - 135) v))
  else if 192 ≤ i ∧ i < 208 ∧ port = true then modCore s c (fun k => k.sharedWrite (i - 192) 0 s.now v)
  else s

/-! Window moves. -/

/-- The checks of R151 before any transfer: alignment, the area, and g indices against the target's window. -/
def checkItems (s : State) (cx : Ctx) (off : Word) (t first count : Nat) : Option Bad :=
  let n := windowSize (getStrand s cx.core t)
  firstBad
    [ checkArea s cx off 8 (8 * count)
    , if (List.range count).any (fun i => decide (first + i < 128) && decide (n ≤ first + i)) then some (0x19, 0) else none ]

/-- The count that field fc holds (R151). -/
def countOf (x : Args) : Nat :=
  match x.c with
  | .num n => n.toNat + 1
  | _ => 1

/-- Strand 0 is Waiting while items move, four a cycle from cycle c + 3 on as a scalar access reaches its bank (R151, R180, log 68). -/
def moveItems (s : State) (i : Instr) (m : ItemMove) : State :=
  modCore (leaveFlight s i m.cx) m.cx.core (fun k => { k with moves := k.moves ++ [{ m with base := s.now + 3 }] })

/-- Item `i` of a move, counted from its first: the number in Table 6.7. -/
def ItemMove.item (m : ItemMove) (i : Nat) : Nat := m.first + i

/-- The items of the next run. -/
def ItemMove.run (m : ItemMove) : List Nat := (List.range (min 4 (m.count - m.moved))).map (fun i => m.moved + i)

/-- An item that only its strand's own instructions change. -/
def ownItem (i : Nat) : Bool := decide (i < 139)

/-- `wmf` records an item: one that changes while the items move is recorded as it stood or as it stands (R151). -/
def recordItem (m : ItemMove) (s : State) (i : Nat) : State :=
  let c := m.cx.core
  let v := if pickOf s 42 i 0 1 = 0 then nth 0 m.vals i else stateItem s c m.target (m.item i)
  lsWrite s c (m.off + 8 * i) (toBytes 8 v.toNat)

/-- The word that `wmt` loads for an item. -/
def ItemMove.loaded (m : ItemMove) (s : State) (i : Nat) : Word := wd (ofBytes (lsBytes s m.cx.core (m.off + 8 * i) 8))

/-- `wmt` writes an item: the target's instruction in flight overrides it (R151), which shows when the item no longer is what stood there
since the issue. -/
def writeItem (m : ItemMove) (s : State) (i : Nat) : State :=
  let c := m.cx.core
  let n := m.item i
  let mine := setStateItem s c m.target n (nth 0 m.vals i) false
  if ownItem n && stateItem mine c m.target n != stateItem s c m.target n then s
  else setStateItem s c m.target n (m.loaded s i) false

/-- The banks have served a run of items: they move in ascending order, and the last run ends the transfer (R151). -/
def afterItems (s : State) (m : ItemMove) : State :=
  let s := m.run.foldl (if m.put then writeItem m else recordItem m) s
  let n := m.moved + 4
  let rest := fun (f : List ItemMove) => modCore s m.cx.core (fun k => { k with moves := k.moves.filter (fun x => x.cx != m.cx) ++ f })
  if m.count ≤ n then sched (rest []) s.now (.stateTransferComplete { cx := m.cx } m.target)
  else rest [{ m with moved := n, base := s.now + 1 - n / 4, done := [] }]

/-- `wmf` (R151): an item is recorded as it stands at issue or at its run. -/
def execWmf (x : Args) (s : State) : Out :=
  issue (privileged s) x s (fun s =>
    let cx := s.cur
    let off := rd s cx x.a
    let d := rd s cx x.b
    let t := bits d 3 0
    let first := bits d 15 8
    let n := countOf x
    orTrap s cx (checkItems s cx off t first n)
      (moveItems s (.wmf x)
        { cx, put := false, target := t, first, count := n, off := off.toNat
          vals := (List.range n).map (fun i => stateItem s cx.core t (first + i)) }))

/-- `wmt` (R151): the items that the target's instruction in flight may still write are written at issue, so that it overrides them, and
every item as its run loads it, in ascending order. -/
def execWmt (x : Args) (s : State) : Out :=
  issue (privileged s) x s (fun s =>
    let cx := s.cur
    let off := rd s cx x.a
    let d := rd s cx x.b
    let t := bits d 3 0
    let first := bits d 15 8
    let n := countOf x
    orTrap s cx (checkItems s cx off t first n)
      (let vs := (List.range n).map (fun i => wd (ofBytes (lsBytes s cx.core (off.toNat + 8 * i) 8)))
       let s1 := (vs.zip (List.range n)).foldl (fun s (v, i) =>
         if ownItem (first + i) then setStateItem s cx.core t (first + i) v false else s) s
       moveItems s1 (.wmt x) { cx, put := true, target := t, first, count := n, off := off.toNat, vals := vs }))

/-- STATE_TRANSFER_COMPLETE (R151). -/
def execStateTransferComplete (d : Done) (_target : Nat) (s : State) : Out :=
  .next (if stillWaits s d.cx then finishDone s d else s)

/-- Whether a strand is kept from issuing by a transfer of its state (R151). -/
def transferring (s : State) (c t : Nat) : Bool :=
  (getCore s c).moves.any (fun m => m.target == t) || s.pend.any (fun (_, e) =>
    match e with
    | .stateTransferComplete d u => d.cx.core == c && u == t
    | _ => false)

/-! Backing images. -/

/-- Where the image of a key lies (R141). -/
def imageVa (k : Core) (key : Nat) : Word := low48 (k.sharedLast 38 + wd (1280 * key))

/-- The physical address of a piece of an image: an immediate page outside the record pool, writable for a store (R150). -/
def imagePlace (s : State) (cx : Ctx) (va : Word) (store : Bool) : State × Option Nat :=
  match translate s cx va.toNat with
  | (s, some l) =>
    let pa := l.pa va.toNat
    (s, if entAttr l.entry = 1 ∧ inHbm pa = true ∧ inPool s pa = false ∧ (store && !entW l.entry) = false then some pa else none)
  | (s, none) => (s, none)

/-- The places of all pieces of an image: none when one faults. -/
def imagePlaces (cx : Ctx) (store : Bool) : List (Word × Nat) → State → State × Option (List (Nat × Nat))
  | [], s => (s, some [])
  | (a, n) :: ps, s =>
    match imagePlace s cx a store with
    | (s, some pa) =>
      match imagePlaces cx store ps s with
      | (s, some l) => (s, some ((pa, n) :: l))
      | (s, none) => (s, none)
    | (s, none) => (s, none)

/-- The pieces of an image. -/
def imagePieces (k : Core) (key : Nat) : List (Word × Nat) := linePieces 8 (imageVa k key) 1280

/-- The addresses of an image, each with whether it is read. -/
def imageAddresses (s : State) (c key : Nat) (reads : Bool) : List (Nat × Bool) :=
  (imagePieces (getCore s c) key).map (fun p => (p.1.toNat, reads))

/-- Words of a byte list. -/
def wordsOf : Nat → List Byte → List Word
  | 0, _ => []
  | n + 1, bs => wd (ofBytes (bs.take 8)) :: wordsOf n (bs.drop 8)

/-- Read the image of a key from its backing area. -/
def readImage (s : State) (cx : Ctx) (key : Nat) : State × Option (List Word) :=
  match imagePlaces cx false (imagePieces (getCore s cx.core) key) s with
  | (s, some ps) => (s, some (wordsOf 160 (ps.flatMap (fun (pa, n) => memRead s pa n))))
  | (s, none) => (s, none)

/-- Write bytes to places one after another. -/
def writePlaces : List (Nat × Nat) → List Byte → State → State
  | [], _, s => s
  | (pa, n) :: ps, bs, s => writePlaces ps (bs.drop n) (memWrite s pa (bs.take n))

/-- Write the image of a key to its backing area: whether it could be. -/
def writeImage (s : State) (cx : Ctx) (key : Nat) (img : List Word) : State × Bool :=
  match imagePlaces cx true (imagePieces (getCore s cx.core) key) s with
  | (s, some ps) => (writePlaces ps (img.flatMap (fun w => toBytes 8 w.toNat)) s, true)
  | (s, none) => (s, false)

def getCc (s : State) (c i : Nat) : Option CcEnt := ((getCore s c).cc.find? (fun x => x.1 == i)).map (·.2)

def setCc (s : State) (c : Nat) (e : CcEnt) : State := modCore s c (fun k => { k with cc := setK k.cc (e.key % 32) e })

/-- Write an entry back if it is dirty. -/
def cleanCc (s : State) (cx : Ctx) (i : Nat) : State × Bool :=
  match getCc s cx.core i with
  | some e =>
    if e.dirty then
      match writeImage s cx e.key e.img with
      | (s, true) => (setCc s cx.core { e with dirty := false }, true)
      | (s, false) => (s, false)
    else (s, true)
  | none => (s, true)

/-- Whether the cache holds the image of a key. -/
def ccHolds (s : State) (c key : Nat) : Bool := (getCc s c (key % 32)).any (fun e => e.key == key)

/-- Bring the image of a key into its entry (R141): another key's dirty image is written back first. -/
def loadCc (s : State) (cx : Ctx) (key : Nat) : State × Bool :=
  if ccHolds s cx.core key then (s, true)
  else
    match cleanCc s cx (key % 32) with
    | (s, true) =>
      match readImage s cx key with
      | (s, some img) => (setCc s cx.core ⟨key, false, img⟩, true)
      | (s, none) => (s, false)
    | (s, false) => (s, false)

/-- The image that a key has now, without moving anything. -/
def peekImage (s : State) (cx : Ctx) (key : Nat) : Option (List Word) :=
  match getCc s cx.core (key % 32) with
  | some e => if e.key = key then some e.img else (readImage s cx key).2
  | none => (readImage s cx key).2

/-! Contexts. -/

/-- Fields of a tag (Table 6.8). -/
def tagValid (w : Word) (key : Nat) : Bool := bit w 63 && bits w 15 0 == key % 65536
def tagN (w : Word) : Nat := bits w 58 48
def tagState (w : Word) : Nat := bits w 19 16
def tagWord (n st key : Nat) : Word := wd (2 ^ 63 + n * 2 ^ 48 + st * 2 ^ 16 + key % 65536)

/-- Whether a strand may be swapped out (R141). -/
def canSwapOut (s : State) (c t : Nat) : Bool :=
  let x := getStrand s c t
  (x.st == .trapped || x.st == .held || x.st == .halted || x.st == .blocked) && !matrixBusy (getCore s c) t && x.get 11 == 0

/-- The image of a strand over what its entry held: items 0 to n - 1 and 128 to 158, and the tag. -/
def imageOfStrand (s : State) (c t key : Nat) (old : List Word) : List Word :=
  let x := getStrand s c t
  let st := if x.st = .blocked then 1 else x.st.code
  (List.range 160).map (fun i =>
    if i = 159 then tagWord x.size st key
    else if i < 128 ∧ x.size ≤ i then nth 0 old i
    else stateItem s c t i)

/-- Swap a strand out (R141): its wait is abandoned, its image written, its slots parked; it is Swapping until completion. An expiry of its timer
that is still pending is dropped (R141 does not say; DESIGN CHOICE, log 31). -/
def swapOut (s : State) (c t key : Nat) : State :=
  let x := getStrand s c t
  let task := taskOf s c t
  let s := if x.st = .trapped then s
    else modStrand s c t (fun y => y.set 2 (low48 (abandonPc x)))
  let old := match getCc s c (key % 32) with
    | some e => e.img
    | none => []
  let s := setCc s c ⟨key, true, imageOfStrand s c t key old⟩
  let s := abandonWait s c t
  let s := (List.range 28).foldl (fun s i =>
    modSlot s c (i + 4) (fun m => if m.owner = some t then { m with owner := none, parked := some key, parkTask := task } else m)) s
  let s := match task with
    | some r => modTask s r (fun k => { k with away := k.away ++ [(c, key)] })
    | none => s
  modStrand s c t (fun x =>
    { x with st := .swapping, holdReq := false, holdPort := false, tmrHit := false, seq := none, held := [], fail := none })

/-- Swap a context in (R141): its items are loaded, its slots rebound, VALID cleared; the strand is Swapping until completion. -/
def swapIn (s : State) (c t base key : Nat) (img : List Word) : State :=
  let w := fun i => nth 0 img i
  let n := tagN (w 159)
  let s := modStrand s c t (fun x =>
    { st := .swapping
      cr := [(0, wd (bits (w 146) 11 10 * 1024 + bits (w 146) 8 8 * 256 + bits (w 146) 5 5 * 32)),
             (1, wd (bits (w 140) 63 16 * 65536 + bits (w 140) 7 0)), (2, low48 (w 139)), (3, wd (bits (w 141) 15 0)),
             (4, winWord base (base + n)), (5, strandMask 5 (w 142)), (6, wd (bits (w 143) 31 0)), (7, wd (bits (w 144) 31 0)),
             (9, coreMask 39 (w 156)), (10, coreMask 40 (w 157)), (12, coreMask 41 (w 158)), (13, strandMask 13 (w 148)),
             (14, strandMask 14 (w 149)), (15, strandMask 15 (w 150)), (16, strandMask 16 (w 151)), (17, strandMask 17 (w 152)),
             (18, strandMask 18 (w 153)), (19, x.get 19)]
      last := x.last, tmrHit := bit (w 146) 9 })
  let s := (List.range 128).foldl (fun s i => if i < n then setStateItem s c t i (w i) false else s) s
  let s := (List.range 11).foldl (fun s i => setStateItem s c t (128 + i) (w (128 + i)) false) s
  let s := (List.range 28).foldl (fun s i =>
    modSlot s c (i + 4) (fun m => if m.parked = some key then { m with owner := some t, parked := none } else m)) s
  let s := { s with tasks := s.tasks.map (fun (r, (k : Task)) => (r, { k with away := k.away.filter (fun a => a != (c, key)) })) }
  setCc s c ⟨key, true, img.set 159 (setBits (w 159) 63 63 0)⟩

/-- The code of the state that a context takes up (R141). -/
def finalState (hold : Bool) (img : List Word) : Nat :=
  let st := tagState (nth 0 img 159)
  if hold || st == 5 then 5 else if st = 6 then 6 else 1

/-- Whether a context may come in: 0, or status 3 or 4 (R150). -/
def inStatus (s : State) (c t base key : Nat) (img : List Word) : Nat :=
  let tag := nth 0 img 159
  if !tagValid tag key then 3 else if !windowOk (getCore s c) t base (base + tagN tag) then 4 else 0

/-- The greatest time of the first line of the image of a key (Table 10.4): its slice, the HBM, and what its translation adds. -/
def imageFirst (s : State) (c key : Nat) : Nat :=
  let va := (imageVa (getCore s c) key).toNat
  let extra := match buffered s c va with
    | some (_, t) => t
    | none => walkBound s va
  accessBound s c (.imm (((walk s va).map (fun l => l.pa va)).getD 0)) extra

/-- The time of the transfer of the image of a key: that of its first line, then 256 bytes a cycle (R241, log 60). -/
def imageTime (s : State) (c key sub : Nat) : Nat := pickOf s 22 sub 1 (imageFirst s c key) + cdiv 1280 256

/-- Cycles of a direction (R142, log 60): an entry that holds another key's dirty image writes it back, and one that does not hold the key is
filled. -/
def swapCost (s : State) (c n key sub : Nat) : Nat :=
  10 + cdiv n 4 +
  (if ccHolds s c key then 0
    else
      imageTime s c key sub +
        (match getCc s c (key % 32) with
        | some e => if e.dirty then imageTime s c e.key (sub + 1) else 0
        | none => 0))

/-- Let a `swap` complete after `cost` cycles. -/
def finishSwap (s : State) (i : Instr) (cx : Ctx) (dst : Opnd) (t final cost : Nat) : State :=
  sched (leaveFlight s i cx) (s.now + cost) (.swapComplete ⟨cx, dst, t, final⟩)

/-- The in half of a `swap`: status 5 leaves the strand as it is, or Free after an out half. -/
def swapHalf (s : State) (i : Instr) (cx : Ctx) (dst : Opnd) (t base key : Nat) (hold out : Bool) (cost : Nat) : State :=
  let c := cx.core
  let status := match peekImage s cx key with
    | some img => inStatus s c t base key img
    | none => 0
  if status != 0 then finish s cx dst (wd status)
  else
    let more := fun n => swapCost s c n key 2
    match loadCc s cx key with
    | (s, true) =>
      let img := match getCc s c (key % 32) with
        | some e => e.img
        | none => []
      finishSwap (swapIn s c t base key img) i cx dst t (finalState hold img) (cost + more (tagN (nth 0 img 159)))
    | (s, false) => finish (if out then modStrand s c t (fun x => { x with st := .free }) else s) cx dst 5

/-- The addresses that a `swap` translates: the images that it fills from, and those of the dirty entries that it writes back. -/
def swapAddresses (s : State) (cx : Ctx) (x : Args) : List (Nat × Bool) :=
  let c := cx.core
  let d := rd s cx x.a
  let t := bits d 3 0
  let op := bits d 5 4
  let out := bits (rd s cx x.b) 15 0
  let in_ := bits (rd s cx x.b) 31 16
  let one := fun (key : Nat) =>
    if ccHolds s c key then []
    else imageAddresses s c key true ++
      (match getCc s c (key % 32) with
      | some e => if e.dirty then imageAddresses s c e.key false else []
      | none => [])
  if op = 0 ∨ t = 0 then []
  else if op = 2 then (if (getStrand s c t).live then [] else one in_)
  else if !canSwapOut s c t then []
  else one out ++ (if op = 3 then one in_ ++ (if in_ % 32 = out % 32 then imageAddresses s c out false else []) else [])

/-- `swap` (R150): the move is made at issue and is over at completion. -/
def execSwap (x : Args) (s : State) : Out :=
  issue (privileged s) x s (fun s =>
    let cx := s.cur
    let c := cx.core
    let d := rd s cx x.a
    let keys := rd s cx x.b
    let t := bits d 3 0
    let op := bits d 5 4
    let out := bits keys 15 0
    let in_ := bits keys 31 16
    let y := getStrand s c t
    let base := if op = 3 then y.base else bits d 26 16
    if op = 0 ∨ t = 0 then finish s cx x.a 1
    else if op = 2 then
      if y.live then finish s cx x.a 2 else swapHalf s (.swap x) cx x.a t base in_ (bit d 6) false 0
    else if !canSwapOut s c t then finish s cx x.a 2
    else
      let early :=
        if op = 3 ∧ in_ ≠ out then
          match peekImage s cx in_ with
          | some img => inStatus s c t base in_ img
          | none => 0
        else 0
      if early != 0 then finish s cx x.a (wd early)
      else
        let cost := swapCost s c y.size out 0
        match loadCc s cx out with
        | (s, true) =>
          let s := swapOut s c t out
          if op = 1 then finishSwap s (.swap x) cx x.a t 0 cost
          else swapHalf s (.swap x) cx x.a t base in_ (bit d 6) true cost
        | (s, false) => finish s cx x.a 5)

/-- SWAP_COMPLETE (R141, R142): the strand takes its state up and strand 0 goes on. -/
def execSwapComplete (j : SwapJob) (s : State) : Out :=
  .next
    (let c := j.cx.core
     let s :=
       if (getStrand s c j.target).st = .swapping then
         let s := modStrand s c j.target (fun x => { x with pc := x.get 2, resumed := s.now })
         match j.final with
         | 0 => modStrand s c j.target (fun x => { x with st := .free, holdReq := false, holdPort := false })
         | 1 => rejoin s c j.target
         | 5 => modStrand s c j.target (fun x => { x with st := .held, holdReq := false, holdPort := false })
         | _ => modStrand s c j.target (fun x => { x with st := .halted, holdReq := false, holdPort := false })
       else s
     if stillWaits s j.cx then finish s j.cx j.dst 0 else s)

/-- The entries that `ccf` writes back, in rising order. -/
def ccfEntries (s : State) (c : Nat) (mask : BitVec 32) : List CcEnt :=
  (List.range 32).filterMap (fun i => if mask.getLsbD i then (getCc s c i).filter (fun e => e.dirty) else none)

/-- The addresses that `ccf` translates. -/
def ccfAddresses (s : State) (c : Nat) (mask : BitVec 32) : List (Nat × Bool) := (ccfEntries s c mask).flatMap (fun e => imageAddresses s c e.key false)

/-- The time of the write-backs of `ccf`: one transfer after another, up to one that faults (R241, log 60). -/
def ccfTime (s : State) (cx : Ctx) (mask : BitVec 32) : Nat :=
  (((ccfEntries s cx.core mask).takeWhile (fun e => (writeImage s cx e.key e.img).2)).map (fun e => imageTime s cx.core e.key (e.key % 32))).sum

/-- `ccf` (R150): it is Waiting until the write-backs are visible. -/
def execCcf (x : Args) (s : State) : Out :=
  issue none x s (fun s =>
    let cx := s.cur
    let mask := BitVec.ofNat 32 (rd s cx x.a).toNat
    sched (leaveFlight s (.ccf x) cx) (s.now + max 1 (ccfTime s cx mask)) (.ccfComplete cx x.a mask))

/-- Write dirty entries back in rising order until one cannot be: the count and whether a fault stopped it. -/
def cleanAll (cx : Ctx) (mask : BitVec 32) : List Nat → State → State × Nat × Bool
  | [], s => (s, 0, false)
  | i :: is, s =>
    if mask.getLsbD i ∧ (getCc s cx.core i).any (fun e => e.dirty) = true then
      match cleanCc s cx i with
      | (s, true) =>
        let (s, n, f) := cleanAll cx mask is s
        (s, n + 1, f)
      | (s, false) => (s, 0, true)
    else cleanAll cx mask is s

/-- CCF_COMPLETE (R150): a page that no buffer translates any more is walked for anew (R236). -/
def execCcfComplete (cx : Ctx) (dst : Opnd) (mask : BitVec 32) (s : State) : Out :=
  .next
    (let l := ccfAddresses s cx.core mask
     if stillWaits s cx && !(walksOf s cx l).isEmpty then sched (askWalks s cx (walksOf s cx l)) (s.now + 1) (.ccfComplete cx dst mask)
     else
     let (s, n, f) := cleanAll cx mask (List.range 32) s
     if stillWaits s cx then finish s cx dst (wd (n + f.toNat * 2 ^ 63)) else s)

/-! `tlbi` (R155). -/

/-- A buffer without the translations named: all, or those of the page of an address. -/
def withoutPage (all : Bool) (va : Nat) (b : List TLeaf) : List TLeaf :=
  if all then [] else b.filter (fun l => !l.covers va)

/-- A loom's buffer whose named translations core `c` no longer uses (R155). -/
def barredPage (c : Nat) (all : Bool) (va : Nat) (b : List TLeaf) : List TLeaf :=
  b.map (fun l => if all || l.covers va then { l with barred := c :: l.barred.filter (fun d => d != c) } else l)

/-- The walks made for a core's instructions under way, without the translations named. -/
def withoutMade (all : Bool) (va : Nat) (k : Core) : Core :=
  { k with strands := k.strands.map (fun (t, x) =>
      (t, { x with pages := if all then [] else x.pages.filter (fun p => !(p.1 == va || p.2.any (fun l => l.covers va))) })) }

/-- `tlbi` (R155): codes 0 and 2 also keep the core from what its loom still holds. -/
def execTlbi (x : Args) (s : State) : Out :=
  issue (privileged s) x s (fun s =>
    let cx := s.cur
    let va := bits (rd s cx x.a) 47 0
    let all := x.mod.getLsbD 1
    if x.mod.getLsbD 0 then
      sched (leaveFlight s (.tlbi x) cx) (s.now + pickN s 21 1 160) (.tlbiAck cx all (wd va))
    else
      complete
        (modLoom (modCore s cx.core (fun k => withoutMade all va { k with tlb := withoutPage all va k.tlb })) (loomOf cx.core) (fun k =>
          { k with tlb := barredPage cx.core all va k.tlb })) cx)

/-- TLBI_ACK (R155): every core's and loom's buffer has acknowledged; after `tlbi.alld` a new root is in force (R233). -/
def execTlbiAck (cx : Ctx) (all : Bool) (va : Word) (s : State) : Out :=
  .next
    (let s := { s with
      mgmt := if all then { s.mgmt with walkRoot := s.mgmt.root } else s.mgmt
      cores := s.cores.map (fun (c, (k : Core)) => (c, withoutMade all va.toNat { k with tlb := withoutPage all va.toNat k.tlb }))
      looms := s.looms.map (fun (l, (k : Loom)) => (l, { k with tlb := withoutPage all va.toNat k.tlb })) }
     if stillWaits s cx then complete s cx else s)

end Sys2Proof.Machine
end

