-- ==== Sys2Proof/Machine/Debug.lean ====
section
/-! DEFINITION. `hold`, `step`, `resume` and the debug port's form of them (R144 to R146, R154), with the happenings. -/

namespace Sys2Proof.Machine

/-- A strand by core and number. -/
abbrev Target := Nat × Nat

/-- The strands that a hold, step or resume of strand `t` of core `c` names: with `gang` its task's, too (R154). -/
def targetsOf (s : State) (c t : Nat) (gang : Bool) : List Target :=
  match gang, taskOf s c t with
  | true, some r => if (taskStrands s r).contains (c, t) then taskStrands s r else (c, t) :: taskStrands s r
  | _, _ => [(c, t)]

/-- Whether a strand may name a target (R154). -/
def mayName (s : State) (cx : Ctx) (c t : Nat) : Bool :=
  if cx.strand = 0 then
    c == cx.core ||
      s.tasks.any (fun (_, (k : Task)) => k.st == .running && k.members.contains cx.core && k.members.contains c)
  else
    match taskOf s cx.core cx.strand with
    | some r => (getStrand s c t).live && taskOf s c t == some r
    | none => false

/-- Whether a strand counts as stopped (Table 6.10). -/
def stopped (x : Strand) : Bool :=
  match x.st with
  | .held | .halted | .done | .free => true
  | .trapped => x.flag 8
  | _ => false

/-- Set the bits of cr.dbg that say who holds a strand (Table 6.4). -/
def markHeld (gang port : Bool) (s : State) (c t : Nat) : State :=
  modStrand s c t (fun x =>
    let x := if gang then x.setDbg 3 true else x
    if port then x.setDbg 2 true else x)

/-- A strand becomes Held when its instruction completes (Table 6.10). -/
def holdLater (gang port : Bool) (s : State) (c t : Nat) : State :=
  modStrand (markHeld gang port s c t) c t (fun x => { x with holdReq := true, holdPort := port })

/-- A hold reaches a strand (Table 6.10). -/
def holdOne (gang port : Bool) (s : State) (y : Target) : State :=
  let c := y.1
  let t := y.2
  let x := getStrand s c t
  let s' := markHeld gang port s c t
  match x.st with
  | .ready => becomeHeld s' c t 0x18 port
  | .blocked =>
    let pc := abandonPc x
    becomeHeld (modStrand (abandonWait s' c t) c t (fun x => { x with pc := pc })) c t 0x18 port
  | .waiting | .swapping => holdLater gang port s c t
  | .trapped => modStrand s' c t (fun x => x.setFlag 8 true)
  | _ => s

/-- GANG_HOLD_ARRIVAL (R145): a gang hold reaches the named strands of a core. -/
def execGangHoldArrival (c : Nat) (ts : List Nat) (dport : Bool) (s : State) : Out :=
  .next ((ts.map (fun t => (c, t))).foldl (holdOne true dport) s)

/-- Send a hold to its targets: a gang hold reaches cores other than `home` within 24 cycles (R145). -/
def sendHold (s : State) (home : Nat) (gang port : Bool) (ts : List Target) : State :=
  let near := ts.filter (fun x => !gang || x.1 == home)
  let s := near.foldl (holdOne gang port) s
  let far := if gang then ((ts.map (·.1)).filter (fun c => c != home)).eraseDups else []
  far.foldl (fun s c =>
    sched s (s.now + pickN s 20 1 24) (.gangHoldArrival c ((ts.filter (fun x => x.1 == c)).map (·.2)) port)) s

/-- Fields of the operand (R154). -/
def tgtStrand (v : Word) : Nat := bits v 3 0
def tgtGang (v : Word) : Bool := bit v 4
def tgtCore (v : Word) : Nat := bits v 25 16

/-- `hold` (R154). -/
def execHold (x : Args) (s : State) : Out :=
  issue none x s (fun s =>
    let cx := s.cur
    let v := rd s cx x.a
    let c := tgtCore v
    let t := tgtStrand v
    if !mayName s cx c t then trapAt s cx 0x02 0
    else if (getStrand s c t).st = .free then finish s cx x.a 1
    else
      let ts := targetsOf s c t (tgtGang v)
      let others := ts.filter (fun y => y != (cx.core, cx.strand))
      let s := sendHold s cx.core (tgtGang v) false others
      let s := if ts.contains (cx.core, cx.strand) then holdLater (tgtGang v) false s cx.core cx.strand else s
      if others.all (fun (d, u) => stopped (getStrand s d u)) then finish s cx x.a 0
      else leave s .waiting (.holds others) true (.hold x) cx x.a)

/-- A `hold` whose targets are all stopped completes (R154). -/
def settleHold (s : State) (c t : Nat) : State :=
  match (getStrand s c t).wait with
  | some w =>
    match w.why with
    | .holds ts => if ts.all (fun (d, u) => stopped (getStrand s d u)) then finish s w.cx w.dst 0 else s
    | _ => s
  | none => s

/-- Set a Held strand going for one instruction (R145). -/
def stepOne (s : State) (c t : Nat) : State :=
  modStrand s c t (fun x => { (x.setDbg 1 true).setFlag 5 true with st := .ready, readyFrom := s.now + 1 })

/-- `step` (R154). -/
def execStep (x : Args) (s : State) : Out :=
  issue none x s (fun s =>
    let cx := s.cur
    let v := rd s cx x.a
    let c := tgtCore v
    let t := tgtStrand v
    let st := (getStrand s c t).st
    if !mayName s cx c t then trapAt s cx 0x02 0
    else if st = .free then finish s cx x.a 1
    else if tgtGang v || st != .held then finish s cx x.a 2
    else finish (stepOne s c t) cx x.a 0)

/-- Make a Held strand Ready (R154). -/
def resumeOne (s : State) (y : Target) : State :=
  if (getStrand s y.1 y.2).st = .held then
    modStrand s y.1 y.2 (fun x => { ((x.setDbg 3 false).setDbg 2 false).setFlag 5 true with st := .ready, readyFrom := s.now + 1 })
  else s

/-- Whether a target of `resume` is Halted or Trapped. -/
def resumeLeft (s : State) (y : Target) : Bool :=
  let st := (getStrand s y.1 y.2).st
  st == .halted || st == .trapped

/-- `resume` (R154). -/
def execResume (x : Args) (s : State) : Out :=
  issue none x s (fun s =>
    let cx := s.cur
    let v := rd s cx x.a
    let c := tgtCore v
    let t := tgtStrand v
    if !mayName s cx c t then trapAt s cx 0x02 0
    else if (getStrand s c t).st = .free then finish s cx x.a 1
    else
      let ts := targetsOf s c t (tgtGang v)
      finish (ts.foldl resumeOne s) cx x.a (if ts.any (resumeLeft s) then 2 else 0))

end Sys2Proof.Machine
end

