-- ==== Sys2Proof/Machine/Tasks.lean ====
section
/-! DEFINITION. Launch records under instructions (`patch`, `arm`), the movement through die, loom and core queues, dispatch, `tq`,
`tdone`, `tfail`, faults and failure, and the ready queue (R349 to R362, R23, R25, R27). -/

namespace Sys2Proof.Machine

/-! `patch` and `arm`. -/

/-- Whether an item of `patch` is assigned (Table 16.5). -/
def patchKnown (item : Nat) : Bool := decide (item ≤ 17) || (decide (32 ≤ item) && decide (item < 48))

/-- Whether a value is accepted for an item (Table 16.5). -/
def patchAccepts (item : Nat) (v : Word) : Bool :=
  let n := v.toNat
  if item = 0 then decide (n < 2 ^ 48)
  else if item = 1 then decide (n ≤ 7)
  else if item = 2 then decide (n ≤ 3)
  else if item = 3 then n % 2 == 0 && n != 0 && decide (n < 2 ^ 48)
  else if item = 4 then decide (1 ≤ n) && decide (n ≤ 65535)
  else if item = 5 then bits v 3 0 == 0
  else if item = 6 then decide (n < 2 ^ 48)
  else if item = 7 then decide (n < 2 ^ 16)
  else if item < 16 then decide (n < 4096)
  else if item = 16 then decide (n ≤ 8)
  else if item = 17 then bits v 7 4 != 0 && bits v 63 31 == 0
  else if item % 2 = 0 then true
  else bits v 61 59 != 7

/-- Write an item of a record. -/
def patchWrite (s : State) (r item : Nat) (v : Word) : State :=
  let n := v.toNat
  if item = 0 then setRecBits s r 0 47 0 n
  else if item = 1 then setRecBits s r 0 50 48 n
  else if item = 2 then setRecBits s r 0 53 52 n
  else if item = 3 then setRecBits s r 2 47 0 n
  else if item = 4 then setRecBits (setRecBits s r 3 31 16 n) r 3 15 0 n
  else if item = 5 then setRecWord s r 4 v
  else if item = 6 then setRecBits s r 8 47 0 n
  else if item = 7 then setRecBits s r 7 15 0 n
  else if item < 13 then setRecBits s r 5 (12 * (item - 8) + 11) (12 * (item - 8)) n
  else if item < 16 then setRecBits s r 6 (12 * (item - 13) + 11) (12 * (item - 13)) n
  else if item = 16 then setRecBits s r 3 35 32 n
  else if item = 17 then setRecWord s r 1 v
  else setRecWord s r (16 + (item - 32)) v

/-- A logged patch or arming is applied (R357, R358): a record that is no longer Idle is left unchanged. -/
def applyRecOp (die : Nat) (s : State) (e : LogRec) : State :=
  match e with
  | .patch r item v _ => if (getTask s r).st = .idle then patchWrite s r item v else s
  | .arm r _ => armRecord s r die
  | _ => s

/-- The issue cycle of a logged patch or arming. -/
def recOpAt : LogRec → Option Nat
  | .patch _ _ _ n => some n
  | .arm _ n => some n
  | _ => none

/-- Put an operation issued in cycle `n` among others, behind those of that cycle. -/
def insertRecOp (n : Nat) (e : LogRec) : List LogRec → List LogRec
  | [] => [e]
  | x :: xs => if n < (recOpAt x).getD 0 then e :: x :: xs else x :: insertRecOp n e xs

/-- The patches and armings among the records of a gang's logs, given member by member, in issue order; those of one cycle in ascending MEMBER
order (R357; for one cycle DESIGN CHOICE, log 72). -/
def recordOps (logs : List LogRec) : List LogRec :=
  logs.foldl (fun l e => match recOpAt e with | some n => insertRecOp n e l | none => l) []

/-- The records as a strand sees them: its task's logged operations applied in issue order (R357). -/
def recordsView (s : State) (c : Nat) (task : Option Nat) : State :=
  match task with
  | some q => (recordOps ((getTask s q).members.flatMap (fun d => getLog s d q))).foldl (applyRecOp (dieOf c)) s
  | none => s

/-- The status of a patch: the lowest that holds (R357). -/
def patchStatus (s : State) (r item : Nat) (v : Word) : Nat :=
  if (getTask s r).st != .idle then 1
  else if !patchKnown item then 2
  else if !patchAccepts item v then 3
  else 0

/-- Answer a status within 40 cycles (R357, R358). -/
def recordReply (s : State) (i : Instr) (cx : Ctx) (dst : Opnd) (status : Nat) : State :=
  sched (leaveFlight s i cx) (s.now + pickN s 27 1 40) (.controlPlaneReply cx (.value (wd status)) dst)

/-- Apply an operation on a record at once, or log it in a task (R357, R358). -/
def recordOp (s : State) (i : Instr) (cx : Ctx) (dst : Opnd) (status : Nat) (e : LogRec) : State :=
  if status != 0 then recordReply s i cx dst status
  else
    match cxTask s cx with
    | some q => if logFull s cx.core q then trapAt s cx 0x07 0 else recordReply (logAdd s cx.core q e) i cx dst 0
    | none => recordReply (applyRecOp (dieOf cx.core) s e) i cx dst 0

/-- `patch` (R357). -/
def execPatch (x : Args) (s : State) : Out :=
  issue none x s (fun s =>
    let cx := s.cur
    let r := bits (rd s cx x.b) 11 0
    let v := rd s cx x.c
    let item := x.imm.toNat
    let status := patchStatus (recordsView s cx.core (cxTask s cx)) r item v
    recordOp s (.patch x) cx x.a status (.patch r item v cx.at_))

/-- `arm` (R358). -/
def execArm (x : Args) (s : State) : Out :=
  issue none x s (fun s =>
    let cx := s.cur
    let r := bits (rd s cx x.a) 11 0
    let status := armStatus (recordsView s cx.core (cxTask s cx)) r
    recordOp s (.arm x) cx x.a status (.arm r cx.at_))

/-! Die queue to loom queue (R350). -/

/-- Whether a loom takes an entry: one that has entered the die queue, and a rerun only if it can hold it (R27). -/
def loomTakes (s : State) (l : Nat) (e : QEnt) : Bool :=
  decide (e.from_ ≤ s.now) && ((getTask s e.rec_).avoid.isNone || loomCanHold s l e.rec_)

/-- Whether some core of a loom can take a new gang (Table 19.3). -/
def loomOpen (s : State) (l : Nat) : Bool := (List.range 16).any (fun i => !(getCore s (l * 16 + i)).barred)

/-- Whether a loom qualifies for a block (R350). -/
def loomQualifies (s : State) (l : Nat) : Bool :=
  decide ((getLoom s l).queue.length ≤ 248) && loomOpen s l && (getDie s (l / 16)).queue.any (loomTakes s l)

/-- DIE_TO_LOOM_MOVE (R350): up to 8 of the highest-ranked entries move as one block; within the 16 cycles of step 3 of Table 1.8 each
can be chosen. -/
def execDieToLoomMove (l : Nat) (s : State) : Out :=
  .next
    (if !loomQualifies s l then s
    else
      let d := l / 16
      let block := ((getDie s d).queue.filter (loomTakes s l)).take 8
      let s := modDie s d (fun k => { k with queue := k.queue.filter (fun e => !block.any (fun f => f.rec_ == e.rec_)) })
      let s := modLoom s l (fun k => { k with tookAt := (s.now, if k.tookAt.1 = s.now then k.tookAt.2 + 1 else 1) })
      block.foldl (fun s e =>
        modLoom s l (fun k => { k with queue := qInsert s { e with from_ := s.now + pickOf s 39 e.rec_ 0 15 } k.queue })) s)

/-- LOOM_TO_DIE_RETURN (R350): a loom without an open core returns a block of 8. -/
def execLoomToDieReturn (l : Nat) (s : State) : Out :=
  .next
    (if loomOpen s l then s
    else
      let q := (getLoom s l).queue
      (q.take 8).foldl (fun s e => enterDie s (l / 16) e) (modLoom s l (fun k => { k with queue := q.drop 8 })))

/-- A rerun that its loom, or every loom of its die, can hold no more: cores have been barred meanwhile (R27). -/
def strandedRerun (s : State) : Option (Nat × QEnt) :=
  let rerun := fun (e : QEnt) => (getTask s e.rec_).avoid.isSome
  (s.looms.findSome? (fun (l, (k : Loom)) =>
    (k.queue.find? (fun e => rerun e && !loomCanHold s l e.rec_)).map (fun e => (l / 16, e)))) <|>
  (s.dies.findSome? (fun (d, (k : Die)) =>
    (k.queue.find? (fun e => rerun e && !dieCanHold s d e.rec_)).map (fun e => (d, e))))

/-- Such a rerun moves on (R27). -/
def moveRerun (s : State) (d : Nat) (e : QEnt) : State :=
  let out := fun (q : List QEnt) => q.filter (fun f => f.rec_ != e.rec_)
  placeRerun
    { s with
      looms := s.looms.map (fun (l, (k : Loom)) => (l, { k with queue := out k.queue }))
      dies := s.dies.map (fun (i, (k : Die)) => (i, { k with queue := out k.queue })) } d e

/-! Choosing (R350 to R352). -/

/-- Tasks that have a gang. -/
def gangTasks (s : State) : List (Nat × Task) := s.tasks.filter (fun (_, k) => !k.members.isEmpty)

/-- Strands reserved on a core and not yet started, and entries that will take a place in its queue. -/
def reservedStrands (s : State) (c : Nat) : Nat := ((gangTasks s).map (fun (_, k) => getK 0 k.left c)).foldl (· + ·) 0
def queuePlaces (s : State) (c : Nat) : Nat :=
  (getCore s c).coreQ.length +
    ((gangTasks s).filter (fun (r, k) => k.st == .locking && k.members.contains c && !(getCore s c).coreQ.contains r)).length

/-- Windows in use or reserved on a core, as (base, limit). -/
def windowsTaken (s : State) (c : Nat) : List (Nat × Nat) :=
  let k := getCore s c
  ((List.range 16).filterMap (fun t => let x := k.strand t; if x.live then some (x.base, x.limit) else none)) ++
  (gangTasks s).flatMap (fun (r, g) =>
    if getK 0 g.left c = 0 then [] else (getK [] g.wins c).map (fun b => (b, b + recWindow s r)))

/-- The bases of `n` free windows of `size` registers on a core, lowest first: fewer when there are not so many. -/
def freeWindows (taken : List (Nat × Nat)) (size n : Nat) : List Nat :=
  ((List.range 256).foldl (fun (acc : List Nat × Nat) i =>
    let b := 8 * i
    if acc.1.length < n ∧ acc.2 ≤ b ∧ b + size ≤ 2048 ∧ taken.all (fun (lo, hi) => decide (hi ≤ b) || decide (b + size ≤ lo)) then
      (acc.1 ++ [b], b + size)
    else acc) ([], 0)).1

/-- The bases, in 256-byte units, at which a region of `lsz` units fits on a core (R350). -/
def freeRegions (s : State) (c lsz : Nat) : List Nat :=
  let top := storeTop (getCore s c).splitNow / 256
  let taken := (gangTasks s).filterMap (fun (_, k) =>
    let w : Word := getK 0 k.regions c
    if k.regions.any (fun x => x.1 == c) then some (bits w 10 0, bits w 26 16) else none)
  (List.range (top + 1)).filter (fun b =>
    decide (b + lsz ≤ top) && taken.all (fun (lo, hi) => decide (hi ≤ b) || decide (b + lsz ≤ lo)))

/-- Whether a core fits a record's part of the gang (R350). -/
def coreFits (s : State) (r c : Nat) : Bool :=
  let k := getCore s c
  let free := ((List.range 16).filter (fun t => t != 0 && !(k.strand t).live)).length
  let n := recNstr s r
  decide (queuePlaces s c < 32) && decide (n + reservedStrands s c ≤ free) &&
  (freeWindows (windowsTaken s c) (recWindow s r) n).length == n && !(freeRegions s c (recLsz s r)).isEmpty

/-- The cores that a loom gives a record: the lowest columns that fit, if there are enough. -/
def gangFor (s : State) (l r : Nat) : Option (List Nat) :=
  let cs := ((gangCores s l r).filter (coreFits s r)).take (recCores s r)
  if cs.length = recCores s r then some cs else none

/-- The entry that a loom chooses and those it passes over (R350, R351): an entry at priority 0 that has been passed over 256
more times bars every other. -/
def chooseFrom (s : State) (l : Nat) : List QEnt → Option (QEnt × List Nat) × List Nat
  | [] => (none, [])
  | e :: es =>
    match gangFor s l e.rec_ with
    | some g => (some (e, g), [])
    | none =>
      if 256 ≤ e.passed then (none, [])
      else
        let (c, past) := chooseFrom s l es
        (c, e.rec_ :: past)

/-- Whether a loom chooses in this cycle: the time of step 3 of Table 1.8 is over for one of its entries that fit. The highest-ranked one that fits
is then chosen, whichever it is (R24, R350). -/
def choosesNow (s : State) (l : Nat) (q : List QEnt) : Bool :=
  q.any (fun e => decide (e.from_ ≤ s.now) && (gangFor s l e.rec_).isSome)

/-- An entry that is passed over once more (R351). -/
def passOver (s : State) (e : QEnt) : QEnt :=
  if e.passed + 1 < 256 then { e with passed := e.passed + 1 }
  else if 0 < recPrio s e.rec_ - e.raised then { e with passed := 0, raised := e.raised + 1 }
  else { e with passed := 256 }

/-- An entry that no other may be chosen before, if there is one (R351). -/
def barring (q : List QEnt) : Option QEnt := q.find? (fun e => decide (256 ≤ e.passed))

/-- Reserve a member's region, windows and strands (R352): which of the regions that fit is open (log 1). -/
def reserveMember (s : State) (r c : Nat) : State :=
  let bases := freeRegions s c (recLsz s r)
  let b := nth 0 bases (pickN s 25 0 (bases.length - 1))
  let wins := freeWindows (windowsTaken s c) (recWindow s r) (recNstr s r)
  modTask s r (fun k => { k with
    regions := setK k.regions c (wd ((b + recLsz s r) * 2 ^ 16 + b))
    wins := setK k.wins c wins
    left := setK k.left c (recNstr s r) })

/-- The address of tile `t` of an extent (R346). No node has a tile above the offsets of lineage space: the last offset, which none has
either (R292), stands for it. -/
def Extent.tile (e : Extent) (t : Nat) : Word :=
  if e.lineage then wd (2 ^ 63 + bits e.base 22 0 * 2 ^ 40 + 16384 * min t (2 ^ 26 - 1)) else e.base + wd (16384 * t)

/-- The tile objects of an extent (R352, R394). -/
def extentTiles (e : Extent) : List LObj :=
  (List.range e.count).map (fun i =>
    let a := e.tile (e.first + i)
    if e.lineage then linObj 1 (linNode a) (linOff a) else flatObj 1 a.toNat)

/-! Fetch (R347, R352). -/

/-- The global addresses that a member's fetch reads, with the offset in its region and the length. -/
def fetchPieces (s : State) (r k : Nat) : List (Word × Nat × Nat) :=
  let n := recCores s r
  (if recLlen s r = 0 then [] else [(wd (recLimg s r), 0, 16 * recLlen s r)]) ++
  ((recExtents s r).filter (fun e => e.fetched)).flatMap (fun e =>
    ((List.range e.count).filter (fun j => j % n == k)).map (fun j => (e.tile (e.first + j), e.loff * 256 + 16384 * (j / n), 16384)))

/-- Pieces cut at lines, with their offsets in the core's store. -/
def fetchLines (base : Nat) (ps : List (Word × Nat × Nat)) : List (Word × Nat × Nat) :=
  ps.flatMap (fun p =>
    ((linePieces (p.2.2 / 256 + 2) p.1 p.2.2).foldl (fun (acc : Nat × List (Word × Nat × Nat)) x =>
      (acc.1 + x.2, acc.2 ++ [(x.1, acc.1, x.2)])) (base + p.2.1, [])).2)

/-- A fetch reads as a copy entry of its task reads (R352): its translations hold for its whole length (R237). -/
def fetchEnt (r c : Nat) : CopyEnt :=
  { id := 0, q := 0, cx := { core := c }, task := some r, gather := false, rows := 1, len := 0, src := 0, dst := 0
    sstr := 0, dstr := 0, dir := 1, cptr := 0, cmode := 0, cval := 0, started := true }

/-- Whether the committed line of a piece is resident: the core's store holds its bytes already (R8, R24, log 69). -/
def resident (s : State) (r c : Nat) (p : Word × Nat × Nat) : Bool :=
  let bytes := fun (loc : Option GLoc) => loc.map (fun l => copyRead s c (some r) l p.2.2)
  let loc : Option GLoc :=
    if bit p.1 63 then
      (if (checkLineage s (some r) p.1 false).isNone then some (.lin (linNode p.1) (linOff p.1)) else none)
    else
      match walk s p.1.toNat with
      | some l =>
        if bits p.1 63 48 = 0 ∧ entAttr l.entry < 2 then
          (match leafPlace s l p.1.toNat false with
          | .ok x => some x
          | .error _ => none)
        else none
      | none => none
  bytes loc == some (lsBytes s c p.2.1 p.2.2)

/-- The bound of step 5 of Table 1.8, less what the start may wait for strand 0's turn beyond step 6 (R24, log 56). -/
def stepFive (s : State) (c : Nat) : Nat := 10 - (((List.range 16).filter (fun t => ((getCore s c).strand t).live)).length - 12)

/-- A member's fetch begins (R352): with nothing to load or all of it resident, step 5 of Table 1.8 follows (R24); else its runs come, the first
in the time of its first line (Table 10.4). -/
def fetchMember (r : Nat) (s : State) (c : Nat) : State :=
  let k := getTask s r
  let i := (k.members.takeWhile (fun d => d != c)).length
  let ls := fetchLines (bits (getK 0 k.regions c) 10 0 * 256) (fetchPieces s r i)
  match ls with
  | [] => sched s (s.now + pickN s 28 1 (stepFive s c)) (.footprintFetchComplete r c)
  | x :: _ =>
    if ls.all (resident s r c) then sched s (s.now + pickN s 28 1 (stepFive s c)) (.footprintFetchComplete r c)
    else
      let first := copyFirst s c x.1
      let e := { fetchEnt r c with base := s.now + first + pickN s 1 0 8, due := s.now + first + ls.length + 8 }
      modCore s c (fun k => { k with fetches := k.fetches ++ [⟨e, ls⟩] })

/-- Every member's fetch begins (R352). -/
def startFetch (s : State) (r : Nat) : State :=
  let ms := (getTask s r).members
  ms.foldl (fetchMember r) (modTask s r (fun k => { k with fetch := ms }))

/-- A chosen record's footprint locks are requested, every tile of every extent at once (R352). -/
def requestFootprint (s : State) (r : Nat) : State :=
  let tiles := (recExtents s r).flatMap (fun e => (extentTiles e).map (fun o => (o, modeOf e.mode)))
  if tiles.isEmpty then startFetch s r
  else
    let c := (getTask s r).members.headD 0
    let s := modTask s r (fun k => { k with locks := tiles.length })
    tiles.foldl (fun s x =>
      askLocks s { cx := { core := c }, task := some r, todo := chainFor x.1 x.2, cont := .footprint r }) s

/-- LOOM_CHOOSE (R350 to R352): the entry leaves the queue for Locking. -/
def execLoomChoose (l : Nat) (s : State) : Out :=
  .next
    (let q := (getLoom s l).queue
     let (choice, past) := match barring q with
       | some e => ((gangFor s l e.rec_).map (fun g => (e, g)), [])
       | none => chooseFrom s l q
     match choice with
     | none => s
     | some (e, g) =>
       let rest := (q.filter (fun f => f.rec_ != e.rec_)).map (fun f => if past.contains f.rec_ then passOver s f else f)
       let rest := rest.foldl (fun (acc : List QEnt) f => qInsert s f acc) []
       let s := modLoom s l (fun k => { k with queue := rest })
       let s := modTask (setTaskState s e.rec_ .locking) e.rec_ (fun k => { k with loom := l, members := g, away := [] })
       requestFootprint (g.foldl (fun s c => reserveMember s e.rec_ c) s) e.rec_)

/-! Faults and failure (R355). -/

/-- The locks of a task are released and waiting requests go on. -/
def freeLocks (s : State) (r : Nat) : State := settleLocks (releaseTask s r)

/-- The failure report word is stored at REPORT when it translates to a writable immediate page (R355). -/
def writeReport (s : State) (r cause : Nat) : State :=
  let a := recReport s r
  if a = 0 then s
  else
    match walk s a with
    | some l =>
      if entAttr l.entry = 1 ∧ entW l.entry = true ∧ inHbm (l.pa a) = true then
        memWrite s (l.pa a) (toBytes 8 (2 ^ 63 + r * 2 ^ 32 + recGraph s r * 2 ^ 8 + cause))
      else s
    | none => s

/-- A task becomes Faulted (R25, R355): its strands and work end, its locks are released, and it is queued again with one
retry less, or it fails. -/
def faultTask (s : State) (r core : Nat) (cause : Byte) : State :=
  let st := (getTask s r).st
  if !woundable st then s
  else
    let s := endTaskWork s r false true false
    let s := clearGang (dropReservations s r) r
    let s := freeLocks (setTaskState s r .faulted) r
    let s := setRecBits (setRecBits s r 7 23 16 cause.toNat) r 7 33 24 core
    if recRetry s r = 0 then
      let s := writeReport (setTaskState s r .failed) r cause.toNat
      { s with mgmt := { s.mgmt with log := s.mgmt.log ++ [.failed r (recGraph s r)] } }
    else
      let s := setRecBits s r 0 50 48 (recRetry s r - 1)
      requeue (modTask (setTaskState s r .queued) r (fun k => { k with avoid := some core })) r true

/-- TASK_FAULT (R25, R338, R355, R408). -/
def execTaskFault (r core : Nat) (cause : Byte) (s : State) : Out := .next (faultTask s r core cause)

/-! The runs of a fetch (R352, R353). -/

/-- Insert a record into a core queue by rank (R353). -/
def coreInsert (s : State) (r : Nat) : List Nat → List Nat
  | [] => [r]
  | x :: xs => if qBefore s { rec_ := r } { rec_ := x } then r :: x :: xs else x :: coreInsert s r xs

/-- The fetch of the footprint of record `r` on core `c`. -/
def findFetch (s : State) (c r : Nat) : Option FetchJob := (getCore s c).fetches.find? (fun j => j.ent.task == some r)

/-- Change the fetch of the footprint of record `r` on core `c`. -/
def modFetch (s : State) (c r : Nat) (f : FetchJob → FetchJob) : State :=
  modCore s c (fun k => { k with fetches := k.fetches.map (fun j => if j.ent.task = some r then f j else j) })

/-- What a fetch has waited for is there. -/
def resumeFetch (s : State) (c r : Nat) (f : CopyEnt → CopyEnt) : State :=
  modFetch s c r (fun j => { j with ent := { f j.ent with asking := false } })

/-- The address of the next piece. -/
def FetchJob.addr (j : FetchJob) : Word := (j.pieces.head?.map (fun p => p.1)).getD 0

/-- Whether the next piece holds a line that a committing task is writing (R261). -/
def piecePending (s : State) (j : FetchJob) : Bool :=
  match copyPlace s j.ent j.addr false with
  | .ok (.task pa) => linePending s (.phys pa)
  | .ok (.imm pa) => linePending s (.phys pa)
  | .ok (.lin n off) => linePending s (.lin n off)
  | _ => false

/-- The page of the next piece when it is still to be translated (R237). -/
def fetchUntranslated (j : FetchJob) : Option Nat := copyUntranslated j.ent [j.addr]

/-- Whether the next run of a fetch may be made in this cycle. -/
def fetchDue (s : State) (j : FetchJob) : Bool :=
  !j.pieces.isEmpty && !j.ent.asking && decide (j.ent.base + j.ent.off ≤ s.now) && !piecePending s j

/-- The bytes of the core's store that the next run writes, as a pointer walk. -/
def fetchStretches (c : Nat) (j : FetchJob) : List (Word × Nat × Nat) := (j.pieces.take 1).map (fun p => (storePtr c p.2.1, 0, p.2.2))

/-- A fetch gets the translation of the page that it has reached, from a buffer or by a walk (R236, R237). -/
def askForPiece (s : State) (c r va : Nat) : State :=
  match buffered s c va with
  | some (l, t) =>
    resumeFetch (useLeaf s c l t) c r (fun e =>
      match freshLeaf s l va with
      | some m => { e with pages := e.pages ++ [m] }
      | none => { e with badPage := some va })
  | none => askWalk (modFetch s c r (fun j => { j with ent := { j.ent with asking := true } })) ⟨c, va, .footprint r⟩

/-- The cause of a fetch's fault (R352): a lineage tile is judged as `lres` judges it (R295), anything else by its WHY (R338). -/
def fetchCause (s : State) (r why : Nat) (a : Word) : Byte :=
  match (if bit a 63 then checkLineage s (some r) a false else none) with
  | some (cause, _) => cause
  | none => if why = 1 then 0x06 else 0x07

/-- The banks have served a run of a fetch: the bytes of its line are in the region, or a fault makes the task Faulted (R352). After the
last run the fetch is over. -/
def afterFetchRun (s : State) (c r : Nat) (j : FetchJob) : State :=
  match j.pieces with
  | [] => s
  | (a, off, n) :: ps =>
    match readPieces s c j.ent [(a, n)] with
    | (s, _, some (why, a)) => faultTask s r c (fetchCause s r why a)
    | (s, bs, none) =>
      let at_ := j.ent.base + j.ent.off
      let late := runLate s at_ (fetchStretches c j)
      let far := (j.ent.page a.toNat).any (fun l => decide (2 ≤ entAttr l.entry))
      let answer := if far && !bit a 63 then s.now + pickN s 10 1400 700000 else 0
      let e := { j.ent with off := j.ent.off + 1, base := j.ent.base + (s.now - at_), due := max (j.ent.due + late) answer, done := [] }
      let s := modFetch (lsWrite s c off bs) c r (fun _ => ⟨e, ps⟩)
      if ps.isEmpty then sched s (max e.due s.now) (.footprintFetchComplete r c) else s

/-- Whether runs of a fetch are still to be made. -/
def fetchLeft (s : State) (c r : Nat) : Bool := (findFetch s c r).any (fun j => !j.pieces.isEmpty)

/-- FOOTPRINT_FETCH_COMPLETE (R352, R353): the member's bytes are in its region and its entry enters the core queue; the task
runs when every member's has. -/
def execFootprintFetchComplete (r c : Nat) (s : State) : Out :=
  .next
    (let k := getTask s r
     if k.st != .locking || !k.fetch.contains c || fetchLeft s c r then s
     else
       let s := modTask s r (fun k => { k with fetch := k.fetch.filter (fun d => d != c) })
       let s := modCore s c (fun k => { k with
         coreQ := coreInsert s r k.coreQ
         fetches := k.fetches.filter (fun j => j.ent.task != some r) })
       if (getTask s r).fetch.isEmpty then setTaskState s r .running else s)

/-! Dispatch (R354, R23). -/

/-- The head of a core queue whose task is Running. -/
def coreHead (s : State) (c : Nat) : Option Nat :=
  match (getCore s c).coreQ with
  | r :: _ => if (getTask s r).st = .running then some r else none
  | [] => none

/-- A task leaves the core queue; DISPATCH counts it. -/
def takeHead (s : State) (c r : Nat) : State :=
  perfAdd (modCore s c (fun k => { k with coreQ := k.coreQ.filter (fun x => x != r) })) c 11 1

/-- cr.task and cr.stamp of a task's strands on a core (Table 6.4). -/
def taskWord (s : State) (r c : Nat) : Word :=
  let k := getTask s r
  let member := (k.members.takeWhile (fun d => d != c)).length
  wd (k.seq % 2 ^ 32 + r * 2 ^ 32 + (k.members.length - 1) * 2 ^ 48 + member * 2 ^ 52 + recRetry s r * 2 ^ 56)

def stampWord (s : State) (r : Nat) : Word := wd ((getTask s r).stamp % 2 ^ 48)
def regionWord (s : State) (r c : Nat) : Word := getK 0 (getTask s r).regions c

/-- `tq` (R360): cause 0x02 before the guard on any strand but strand 0. -/
def execTq (x : Args) (s : State) : Out :=
  issue (privileged s) x s (fun s =>
    let cx := s.cur
    let c := cx.core
    match coreHead s c with
    | some r =>
      if (getCore s c).auto then finish s cx x.a 0
      else
        let s := takeHead s c r
        let s := modCore s c (fun k =>
          ((k.sharedWrite 39 0 s.now (taskWord s r c)).sharedWrite 40 0 s.now (stampWord s r)).sharedWrite 41 0 s.now
            (regionWord s r c))
        finish s cx x.a
          (wd (recEntry s r + recNstr s r * 2 ^ 48 + recRegs s r * 2 ^ 52 + recAccm s r * 2 ^ 56))
    | none => finish s cx x.a 0)

/-- The lowest Free strand of a core above a number, and the lowest base at which a window of `size` registers satisfies R90. -/
def lowestFree (k : Core) (above : Nat) : Option Nat := (List.range 16).find? (fun t => decide (above < t) && !(k.strand t).live)
def lowestBase (k : Core) (t size : Nat) : Option Nat :=
  ((List.range 256).map (fun i => 8 * i)).find? (fun b => windowOk k t b (b + size))

/-- The task that automatic dispatch is starting on a core, or may take now (R354). -/
def autoTask (s : State) (c : Nat) : Option Nat :=
  let k := getCore s c
  match k.disp with
  | some r => some r
  | none =>
    if !k.auto then none
    else
      match coreHead s c with
      | some r =>
        if recNstr s r ≤ ((List.range 16).filter (fun t => t != 0 && !(k.strand t).live)).length then some r else none
      | none => none

/-- What the next automatic start is: task, strand, base and tile mask; none when no start can be made now. The strands of a task are
started in rising order, so that the first start is that of the lowest, which receives ACCM (R354). -/
def autoStart (s : State) (c : Nat) : Option (Nat × Nat × Nat × Nat) :=
  let k := getCore s c
  match autoTask s c with
  | some r =>
    match lowestFree k k.dispFrom with
    | some t =>
      match lowestBase k t (recWindow s r) with
      | some b =>
        let accm := if getK 0 (getTask s r).left c = recNstr s r then recAccm s r else 0
        if startStatus k t b (b + recWindow s r) accm (wd (recEntry s r)) = 0 then some (r, t, b, accm) else none
      | none => none
    | none => none
  | none => none

/-- AUTO_DISPATCH_START (R23, R354): one `start` in strand 0's slot. -/
def execAutoDispatchStart (c : Nat) (s : State) : Out :=
  .next
    (match autoStart s c with
    | some (r, t, b, accm) =>
      let s := if (getCore s c).disp.isNone then takeHead s c r else s
      let s := startStrand s c t b (b + recWindow s r) accm ((getStrand s c 0).get 6) (taskWord s r c) (stampWord s r)
        (regionWord s r c) (wd (recEntry s r)) false
      let s := modStrand s c t (fun x => { x with launched := true })
      let more := getK 0 (getTask s r).left c != 0
      modCore s c (fun k => { k with disp := if more then some r else none, dispFrom := if more then t else 0 })
    | none => s)

/-! The end of a strand's part. -/

/-- A strand enters Done (R359). -/
def enterDone (s : State) (cx : Ctx) : State :=
  modStrand s cx.core cx.strand (fun x =>
    { x.setDbg 1 false with st := .done, pc := nextPc cx, wait := none, holdReq := false, holdPort := false })

/-- Raise a fault held for a strand (R220, R338). -/
def raiseHeld (s : State) (cx : Ctx) (f : HeldFault) : State :=
  let s := modStrand s cx.core cx.strand (fun x => { x with held := x.held.erase f })
  takeTrap s cx.core cx.strand f.cause f.info (if f.copy then cx.word else f.word) cx.addr cx.addr

/-- `tdone` (R359): cause 0x02 before the guard on strand 0. -/
def execTdone (x : Args) (s : State) : Out :=
  issue (if s.cur.strand = 0 then some 0x02 else none) x s (fun s =>
    let cx := s.cur
    match (getStrand s cx.core cx.strand).held with
    | f :: _ => raiseHeld s cx f
    | [] =>
      match cxTask s cx with
      | none => enterDone s cx
      | some r =>
        if allDone s r [(cx.core, cx.strand)] && taskCopies s r then leave s .waiting (.tdone r) false (.tdone x) cx .none
        else checkRetire (enterDone s cx) r)

/-- Matrix work of a task's strands is under way somewhere (R149, R355). -/
def taskMatrixBusy (s : State) (r : Nat) : Bool :=
  (taskStrands s r).any (fun (c, t) => matrixBusy (getCore s c) t)

/-- TASK_RETIRE (R355): the strands are reaped and the gang's resources released; the logs stay for the commit. -/
def execTaskRetire (r : Nat) (s : State) : Out :=
  .next
    (if !((getTask s r).st == .running && allDone s r [] && !taskCopies s r) then s
    else if taskMatrixBusy s r then
      sched { s with pend := s.pend.filter (fun (_, e) => e != .taskRetire r) } (s.now + 1) (.taskRetire r)
    else
      let s := endTaskWork s r true false false
      let s := modTask s r (fun k => { k with regions := [], wins := [], left := [], fetch := [] })
      setTaskState (modTask s r (fun k => { k with retAt := s.now })) r .retired)

/-- `tfail` (R361): cause 0x02 before the guard on a strand other than strand 0 that runs no task. -/
def execTfail (x : Args) (s : State) : Out :=
  let bare := s.cur.strand ≠ 0 ∧ (cxTask s s.cur).isNone
  issue (if bare then some 0x02 else none) x s (fun s =>
    let cx := s.cur
    let v := rd s cx x.a
    let cause : Byte := if bits v 7 0 = 0 then 0x17 else BitVec.ofNat 8 (bits v 7 0)
    match cxTask s cx with
    | some r => faultTask s r cx.core cause
    | none =>
      let t := bits v 11 8
      match taskOf s cx.core t with
      | some r =>
        if (getStrand s cx.core t).live then faultTask (finish s cx x.a 0) r cx.core cause else finish s cx x.a 1
      | none => finish s cx x.a 1)

/-! The ready queue (R356, R362). -/

/-- Cause 0x02 for a strand that runs a task (R356). -/
def notInTask (s : State) : Option Byte := if (cxTask s s.cur).isSome then some 0x02 else none

/-- The strand that has been Blocked longest in `rqt.wait`. -/
def readyWaiter (s : State) (c : Nat) : Option Wait :=
  (List.range 16).foldl (fun (best : Option Wait) t =>
    match (getStrand s c t).wait with
    | some w =>
      if w.why = .ready then
        match best with
        | some b => if w.since < b.since then some w else best
        | none => some w
      else best
    | none => best) none

/-- `rqp` (R362). -/
def execRqp (x : Args) (s : State) : Out :=
  issue (notInTask s) x s (fun s =>
    let cx := s.cur
    let lv := x.mod.toNat
    let v := wd (bits (rd s cx x.a) 62 0)
    match readyWaiter s cx.core with
    | some w => finish (finish s cx x.a v) w.cx w.dst v
    | none =>
      if ((getCore s cx.core).readyQ.filter (fun e => e.1 == lv)).length < 16 then
        finish (modCore s cx.core (fun k => { k with readyQ := k.readyQ ++ [(lv, v)] })) cx x.a v
      else finish s cx x.a (wd (v.toNat + 2 ^ 63)))

/-- The oldest entry of the lowest level that is not empty, and the queue without it. -/
def takeReady (q : List (Nat × Word)) : Option (Word × List (Nat × Word)) :=
  match (List.range 4).find? (fun lv => q.any (fun e => e.1 == lv)) with
  | some lv =>
    let before := q.takeWhile (fun e => e.1 != lv)
    match q.drop before.length with
    | e :: es => some (e.2, before ++ es)
    | [] => none
  | none => none

/-- `rqt` (R362). -/
def execRqt (x : Args) (s : State) : Out :=
  issue (notInTask s) x s (fun s =>
    let cx := s.cur
    match takeReady (getCore s cx.core).readyQ with
    | some (v, q) => finish (modCore s cx.core (fun k => { k with readyQ := q })) cx x.a v
    | none =>
      if x.mod = 0 then finish s cx x.a (wd (2 ^ 63))
      else leave s .blocked .ready true (.rqt x) cx x.a)

end Sys2Proof.Machine
end

