-- ==== Sys2Proof/Machine/Commit.lean ====
section
/-! DEFINITION. Commit (R28, R44, R245, R260 to R262, R280, R283, R303): its start, and the one step in which everything the task
logged is released. -/

namespace Sys2Proof.Machine

/-- Whether an immediate store, atomic or reduction of a task's strands is not yet performed (R262). -/
def storesOpen (s : State) (r : Nat) : Bool :=
  s.cores.any (fun (_, (k : Core)) => k.posted.any (fun p =>
    p.task == some r && !p.done &&
    (match p.loc with
    | .imm _ => true
    | .counter _ => true
    | _ => false)))

/-- Whether a retired task may enter Committing (R28, R262): its logs are read first, from the cycle after its retirement on (R408, log 63). -/
def mayCommit (s : State) (r : Nat) : Bool :=
  let k := getTask s r
  k.st == .retired && decide (k.retAt < s.now) && withinHorizon s k.stamp && !storesOpen s r

/-- The lines that a task's logs write. -/
def commitLines (s : State) (r : Nat) : List GAddr :=
  ((taskLogs s r).flatMap (fun (_, l) => l.filterMap (fun e =>
    match e with
    | .store a _ => some (lineOf a)
    | .red a _ _ => some (lineOf a)
    | _ => none)) ++ (winLines s r).map (fun pa => lineOf (.phys pa))).eraseDups

/-- What the application of the node operations of a task takes at most (R293): 40 cycles for each tile index that a `rebase` or `flat`
goes through, 20 for each node that a `drop` frees. -/
def nodeTime (s : State) (r : Nat) : Nat :=
  ((taskNodeOps s r).foldl (fun (y : State × Nat) op =>
    let h := moveTiles y.1 op
    let (s, freed) := applyNodeOp y.1 op
    (s, y.2 + 40 * h + (match op with | .drop _ => 20 * freed | _ => 0))) (s, 0)).2

/-- What the application of the window operations of a task takes at most (R313). -/
def windowTime (s : State) (r : Nat) : Nat :=
  ((winSteps s r).map (fun (x, op) => match op with | .kvc _ _ n _ _ => x.keepCost n | _ => 0)).foldl (· + ·) 0

/-- COMMIT_START (R28, R260, R261): the task takes the next commit index and its logs begin to drain. -/
def execCommitStart (r : Nat) (s : State) : Out :=
  .next
    (if !mayCommit s r then s
    else
      let ix := s.commitNext
      let s := modTask (setTaskState { s with commitNext := ix + 1 } r .committing) r (fun k => { k with commitIx := some ix })
      sched s (s.now + pickN s 29 1 (100 + 162 * (commitLines s r).length + nodeTime s r + windowTime s r)) (.commitRelease r))

/-! Data records (R245, R280). -/

/-- Apply a flat store or reduction. -/
def applyFlatStore (s : State) (e : LogRec) : State :=
  match e with
  | .store (.phys a) bs => memWrite s a bs
  | _ => s

def applyFlatRed (s : State) (e : LogRec) : State :=
  match e with
  | .red (.phys a) op v =>
    let n := redWidth op
    memWrite s a (toBytes n (redNew op (s.mem.num a n) (v.toNat % 256 ^ n)))
  | _ => s

/-- The bytes of a lineage line after the logged stores, then the reductions. -/
def lineAfter (logs : List LogRec) (n line : Nat) (base : List Byte) : List Byte :=
  let stored := (List.range 256).map (fun i => loggedByte logs (.lin n (line * 256 + i)) (nth 0 base i))
  logs.foldl (fun bs e =>
    match e with
    | .red (.lin m off) op v =>
      if m = n ∧ off / 256 = line then
        let w := redWidth op
        let old := ofBytes ((bs.drop (off % 256)).take w)
        patchBytes bs (off % 256) (toBytes w (redNew op old (v.toNat % 256 ^ w)))
      else bs
    | _ => bs) stored

/-- The home slice takes a lineage line's new content (R280). -/
def applyLinLine (logs : List LogRec) (s : State) (x : Nat × Nat) : State :=
  let new := lineAfter logs x.1 x.2 (resolveLine s x.1 x.2)
  modNode s x.1 (fun k => { k with dirty := setK k.dirty x.2 new })

/-- How many nodes above a node the task has forked, up to one that it has not: a node of the task's own comes behind the node that it
was forked from. -/
def forkDepth (ops : List NodeOp) : Nat → Nat → Nat
  | 0, _ => 0
  | fuel + 1, n =>
    match forkedBy ops n with
    | some p => forkDepth ops fuel p + 1
    | none => 0

/-- The lineage lines that logs write, parents before the children that the task has forked from them (R280, R281). -/
def linLines (logs : List LogRec) : List (Nat × Nat) :=
  let ls := (logs.filterMap (fun e =>
    match e with
    | .store (.lin n off) _ => some (n, off / 256)
    | .red (.lin n off) _ _ => some (n, off / 256)
    | _ => none)).eraseDups
  let ops := logs.filterMap (fun e => match e with | .node op _ => some op | _ => none)
  (List.range (ops.length + 1)).flatMap (fun d => ls.filter (fun x => forkDepth ops ops.length x.1 == d))

/-- Apply every data record of a commit (R245, R280). -/
def applyData (s : State) (logs : List LogRec) : State :=
  let s := logs.foldl applyFlatStore s
  let s := logs.foldl applyFlatRed s
  (linLines logs).foldl (applyLinLine logs) s

/-! Operations. -/

/-- Whether the address of a window record's target lies in a page (R303). -/
def inPage (s : State) (page va : Nat) : Bool :=
  decide (s.mgmt.kvBase + 16384 * page ≤ va) && decide (va < s.mgmt.kvBase + 16384 * page + 16384)

/-- Apply a logged window operation (R303); `bad` are pages of logged `pgal`s that were not applied. -/
def commitWin (x : State × List Nat) (op : WinOp) : State × List Nat :=
  let (s, bad) := x
  match op with
  | .pgal q _ idx page =>
    let w := getSeq s q
    let s := { s with pagesResv := s.pagesResv.filter (fun y => y.1 != page) }
    if w.pages.any (fun y => y.1 == idx) || decide (16 ≤ w.pages.length) then (givePage s page, page :: bad)
    else (applyWin s op, bad)
  | .kvw _ _ _ _ _ _ va _ =>
    if bad.any (fun p => inPage s p va) then (s, bad) else (applyWin s op, bad)
  | .pgfr page =>
    if !s.pagesOut.contains page || tentative s page || s.pagesResv.any (fun y => y.1 == page) then (s, bad) else (applyWin s op, bad)
  | op => (applyWin s op, bad)

/-- Apply all logged window operations: a `kvw` into a page of a `pgal` that is not applied is discarded with it, in whatever order they
stand (R303). -/
def commitWins (s : State) (ops : List WinOp) : State :=
  let bad := (ops.foldl commitWin (s, [])).2
  (ops.foldl commitWin (s, bad)).1

/-- The sequences that a task has reserved become Open (R303, R311). -/
def openReserved (s : State) (r : Nat) : State :=
  { s with seqs := s.seqs.map (fun (n, (q : Seq)) => (n, if q.st = .reserved r then { q with st := .open_ } else q)) }

/-- Apply node operations after the data, then window operations, each member's in issue order (R283, R303), then patches and armings in issue
order (R357, R358). -/
def applyOps (s : State) (r : Nat) (logs : List (Nat × List LogRec)) : State :=
  let all := logs.flatMap (fun x => x.2)
  let s := all.foldl (fun s e => match e with | .node op _ => (applyNodeOp s op).1 | _ => s) s
  let s := openReserved s r
  let s := commitWins s (all.filterMap (fun e => match e with | .win op _ => some op | _ => none))
  (recordOps all).foldl (applyRecOp (dieOf ((logs.map (fun x => x.1)).headD 0))) s

/-! Release (R261). -/

/-- A read that waited at a line is served in the release step and completes within 24 cycles, or 32 when the slice is on another die
(R261); any other access goes on. -/
def serveWait (s : State) (g : GAcc) (loc : GLoc) : State :=
  if g.kind = .ld then
    let v := match loc with
      | .imm _ => (performImm s g loc).2
      | _ => loadValueG s g loc
    sched s (s.now + pickN s 31 1 (if homeSlice (gAddr loc) / 48 = dieOf g.cx.core then 24 else 32)) (.globalAccessComplete g (.done (wd v)))
  else sched s s.now (.globalAccessComplete g loc)

/-- Reads whose line is no longer pending go on. -/
def serveWaits (s : State) : State :=
  let go := s.readWaits.filter (fun (_, loc) => !linePending s (gAddr loc))
  let s := { s with readWaits := s.readWaits.filter (fun (_, loc) => linePending s (gAddr loc)) }
  go.foldl (fun s (g, loc) => serveWait s g loc) s

/-- Whether a task of a lower commit index has not been released (R261). -/
def earlierCommit (s : State) (r : Nat) : Bool :=
  let mine := (getTask s r).commitIx.getD 0
  s.tasks.any (fun (q, k) => q != r && k.st == .committing && decide (k.commitIx.getD 0 < mine))

/-- Arm the successors of a committed record (R349). -/
def armSuccessors (s : State) (r die : Nat) : State :=
  (List.range (min 8 (recNsucc s r))).foldl (fun s i => armRecord s (recSucc s r i) die) s

/-- COMMIT_RELEASE (R261, R260, R348, R349): in commit-index order, all of the commit becomes visible, its locks are released, its
successors are armed, and the record is Idle again with its counter reloaded, or Free. -/
def execCommitRelease (r : Nat) (s : State) : Out :=
  .next
    (if (getTask s r).st != .committing then s
    else if earlierCommit s r then sched s (s.now + 1) (.commitRelease r)
    else
      let ms := (getTask s r).members
      let logs := taskLogs s r
      let s := applyData s (logs.flatMap (fun x => x.2))
      let s := applyOps s r logs
      let s := ms.foldl (fun s c => modCore s c (fun k => { k with logs := delK k.logs r })) s
      let s := setTaskState s r .committed
      let s := serveWaits s
      let s := freeLocks s r
      let s := armSuccessors s r (dieOf (ms.headD 0))
      let s := clearGang s r
      let s := modTask s r (fun k => { k with commitIx := none, drawn := false })
      if recInit s r = 0 then setTaskState s r .free
      else setTaskState (setRecBits s r 3 15 0 (recInit s r)) r .idle)

end Sys2Proof.Machine
end

