-- ==== Sys2Proof/Machine/LockOps.lean ====
section
/-! DEFINITION. What follows a lock's grant (R243, R281, R303, R352, R395), `lock`, `lcv`, `lq`, `lmld` (R398 to R400), and the answers
of the control plane. -/

namespace Sys2Proof.Machine

/-! Grants. -/

/-- The escalation that a line's grant calls for when it has raised LCNT above LIMIT (R395): its tile and mode. -/
def escalation (q : LReq) (o : LObj) : Option (LObj × Mode) := q.raised.bind (fun m => (tileOf o).map (fun t => (t, m)))

/-- The escalated tile is granted: every line lock of the task in it is released (R395). -/
def endEscalation (s : State) (r : Nat) (t : LObj) : State := settleLocks (releaseBelow s r t (fun _ => true))

/-- An access whose lock is granted (R243, R279): a node frozen or gone meanwhile traps, and its record must have room. -/
def grantAccess (s : State) (g : GAcc) (loc : GLoc) : State :=
  match loc with
  | .lin n _ =>
    let store := gStores g.kind
    if !nodeLive s (cxTask s g.cx) n then linTrap s g.cx (0x0A, 0)
    else if store && (getNode s n).frozen then linTrap s g.cx (0x08, 0)
    else if noLogRoom s g then gTrap s g 0x07 g.va
    else placeAccess s g loc 0
  | loc => if noLogRoom s g then gTrap s g 0x07 g.va else placeAccess s g loc 0

/-- The locks below an object that a converted mode covers (R398). -/
def coversBelow (m : Mode) (y : Mode) : Bool :=
  match m with
  | .x => true
  | .s | .six => y == .s || y == .is
  | .inc => y == .inc || y == .in_
  | _ => false

/-- What a request was made for happens (R243, R281, R303, R336, R352, R398). -/
def grantCont (s : State) (q : LReq) : LCont → State
  | .access g loc => if stillWaits s g.cx then grantAccess s g loc else s
  | .node op dst =>
    if stillWaits s q.cx then grantNode s q.cx q.task op dst else s
  | .win op d =>
    if stillWaits s q.cx then grantWin s q.task op d else s
  | .lock dst => if stillWaits s q.cx then finish s q.cx dst 0 else s
  | .lcv dst obj m =>
    match q.task with
    | some r =>
      let new := (heldMode s r obj).getD m
      let s := settleLocks (releaseBelow s r obj (coversBelow new))
      if stillWaits s q.cx then finish s q.cx dst 0 else s
    | none => s
  | .footprint r =>
    let n := (getTask s r).locks - 1
    let s := modTask s r (fun k => { k with locks := n })
    if n = 0 ∧ (getTask s r).st = .locking then startFetch s r else s
  | .lineage c =>
    match (getCore s c).linQ with
    | e :: _ => if e.started && e.due == 0 then runLineage s c e else s
    | [] => s
  | .copy c id => resumeCopy s c id (fun e => e)
  | .escalated _ k => grantCont s q k

/-- The addresses that a window operation translates when it is judged at its grant: in a task as the log stood before its record (R303). -/
def grantAddresses (s : State) (q : LReq) : List (Nat × Bool) :=
  match q.cont with
  | .win op _ => winAddresses (q.task.elim s (fun r => logBefore s r q.cx)) q.cx op
  | _ => []

/-- The walks that such an operation still needs (R236). -/
def grantWalks (s : State) (q : LReq) : List Nat := walksOf s q.cx (grantAddresses s q)

/-- Whether such an operation waits for a walk, or at a pending line (R236, R261). -/
def grantHeld (s : State) (q : LReq) : Bool :=
  stillWaits s q.cx && (!(grantWalks s q).isEmpty || readsPending s q.cx (grantAddresses s q))

/-- LOCK_GRANT (R385, R395, R281): the next object is asked for, an escalation intervenes, or the request's purpose is served. An
operation outside tasks gives its lock up in this step. -/
def execLockGrant (q : LReq) (s : State) : Out :=
  .next
    (let (head, rest) : Option (LObj × Mode) × List (LObj × Mode) :=
       match q.todo with
       | [] => (none, [])
       | x :: xs => (some x, xs)
     let (s, q) : State × LReq :=
       match q.task, head, q.cont with
       | some r, some (o, _), .escalated t k => if o = t then (endEscalation s r t, { q with cont := k }) else (s, q)
       | _, _, _ => (s, q)
     match head.bind (fun x => escalation q x.1) with
     | some (t, m) => askLocks s { q with todo := (t, m) :: rest, cont := .escalated t q.cont }
     | none =>
       if rest.isEmpty && grantHeld s q then sched (askWalks s q.cx (grantWalks s q)) (s.now + 1) (.lockGrant q)
       else
       let s1 := match rest with
         | [] => grantCont s q q.cont
         | _ => askLocks s { q with todo := rest }
       match q.task, head with
       | none, some (o, _) => releaseOutside s1 o q.id
       | _, _ => s1)

/-! The end of a walk (R236). -/

/-- Whoever has asked for a walk goes on with the leaf it gives, or learns that it has failed. -/
def continueWalk (l : Option TLeaf) (s : State) (w : WalkReq) : State :=
  let note := fun (e : CopyEnt) =>
    match l with
    | some m => { e with pages := e.pages ++ [m] }
    | none => { e with badPage := some w.va }
  match w.who with
  | .access g =>
    if !stillWaits s g.cx then s
    else
      match l with
      | some m => flatAccess s g m 0
      | none => gTrap s g 0x06 g.va
  | .copy id => resumeCopy s w.core id note
  | .footprint r => resumeFetch s w.core r note
  | .text t => if l.isNone then modStrand s w.core t (fun x => { x with badText := some w.va }) else s
  | .strand cx =>
    if stillWaits s cx then modStrand s cx.core cx.strand (fun x => { x with pages := x.pages ++ [(w.va, l)] }) else s

/-- The walks that are merged with one of a die: those under way there or waiting for a place whose addresses fall in the same page. -/
def mergedWalks (s : State) (w : WalkReq) : List WalkReq :=
  let d := dieOf w.core
  w :: (walking s d ++ (getDie s d).walks).filter (fun v => walkPage s v.va == walkPage s w.va)

/-- Take walks that have been made out of those under way and those that wait. -/
def withoutWalks (s : State) (ws : List WalkReq) (d : Nat) : State :=
  modDie { s with pend := s.pend.filter (fun x => match x.2 with | .translationWalkComplete v => !ws.contains v | _ => true) } d
    (fun k => { k with walks := k.walks.filter (fun v => !ws.contains v) })

/-- Whether a walk reads an entry in a line that is pending: it waits there (R233, R261). -/
def walkPending (s : State) (va : Nat) : Bool := (walkEntries s va).any (fun p => linePending s (.phys p))

/-- TRANSLATION_WALK_COMPLETE (R233, R236, R261): the walk's result fills every requesting buffer, everyone who has asked for it goes on, and the
walker takes up what waits. -/
def execTranslationWalkComplete (w : WalkReq) (s : State) : Out :=
  .next
    (if walkPending s w.va then sched s (s.now + 1) (.translationWalkComplete w)
     else
     let ws := mergedWalks s w
     let l := walk s w.va
     let s := withoutWalks s ws (dieOf w.core)
     let s := match l with
       | some m => ws.foldl (fun s v => fillBuffers s v.core m) s
       | none => s
     nextWalks (ws.foldl (continueWalk l) s) (dieOf w.core))

/-- ICACHE_FILL (R60): the missing words arrive, once no line among them is pending (R261). -/
def execIcacheFill (c t : Nat) (lines : List Nat) (s : State) : Out :=
  .next
    (if lines.any (fun l => linePending s (.phys (256 * l))) then sched s (s.now + 1) (.icacheFill c t lines)
     else modCore s c (fun k => { k with icache := icacheAdd (pickN s 8 0 255) lines k.icache }))

/-! `lock` and `lcv`. -/

/-- The object that a level and an operand name (R398, Table 18.1). -/
def namedObject (level : Nat) (v : Word) : LObj :=
  if level = 3 then ⟨6, bits v 11 0⟩
  else if bit v 63 then linObj level (linNode v) (linOff v)
  else flatObj level v.toNat

/-- The address checks of R398. -/
def checkNamed (s : State) (task : Option Nat) (level : Nat) (v : Word) : Option Bad :=
  if level = 3 then none
  else if bit v 63 then checkLineage s task v false
  else if bits v 62 48 != 0 then some (0x06, v)
  else none

/-- Reason 3 of Table 18.9. -/
def lockModeBad (level : Nat) (m : Mode) : Bool :=
  if level = 3 then !(m == .ix || m == .x) else level == 0 && (m == .is || m == .ix || m == .in_)

def lcvModeBad (level : Nat) (m : Mode) : Bool :=
  level == 0 || level == 3 || !(m == .s || m == .six || m == .inc || m == .x)

/-- The rights of a mode (R383, Table 18.6). -/
def modeRights : Mode → List Access
  | .is | .s => [.load]
  | .in_ | .inc => [.reduce]
  | .six => [.load, .store]
  | .ix => [.load, .store]
  | .x => [.load, .store, .reduce]

/-- Whether what a mode permits is already covered (R398): on a sequence by X, and IX by IX (Table 18.6). -/
def modeCovered (s : State) (r : Nat) (o : LObj) (m : Mode) : Bool :=
  if o.kind = 6 then (heldMode s r o).any (fun h => h == .x || h == m) else (modeRights m).all (covered s r o)

/-- A mode operand: the modifier. -/
def modOf (x : Args) : Mode := modeOf x.mod.toNat

/-- The body of `lock` and `lcv` (R398): the address checks, the refusals of Table 18.9 in their order, then the request. -/
def lockBody (i : Instr) (x : Args) (bad : Nat → Mode → Bool) (need : State → Nat → LObj → Bool)
    (go : State → Nat → LObj → Option (List (LObj × Mode) × LCont)) (s : State) : State :=
  let cx := s.cur
  let level := bits (rd s cx x.a) 1 0
  let v := rd s cx x.b
  let o := namedObject level v
  match checkNamed s (cxTask s cx) level v with
  | some b => linTrap s cx b
  | none =>
    match cxTask s cx with
    | none => finish s cx x.a (refusalWord 1)
    | some r =>
      if level = 3 ∧ foreignHandle s (some r) v = true then finish s cx x.a (refusalWord 2)
      else if bad level (modOf x) then finish s cx x.a (refusalWord 3)
      else if !need s r o then finish s cx x.a (refusalWord 4)
      else
        match go s r o with
        | none => finish s cx x.a 0
        | some (todo, cont) => askLocks (leave s .waiting .lock false i cx x.a) { cx, task := some r, todo, cont }

/-- `lock` (R398). -/
def execLock (x : Args) (s : State) : Out :=
  issue none x s (lockBody (.lock x) x lockModeBad (fun _ _ _ => true) (fun s r o =>
    if modeCovered s r o (modOf x) then none else some (chainFor o (modOf x), .lock x.a)))

/-- `lcv` (R398). -/
def execLcv (x : Args) (s : State) : Out :=
  issue none x s (lockBody (.lcv x) x lcvModeBad (fun s r o => (heldMode s r o).isSome) (fun _ _ o =>
    some (chainFor o (modOf x), .lcv x.a o (modOf x))))

/-! `lq` and `lmld`. -/

/-- The result of `lq` (Table 18.10). -/
def lqWord (s : State) (cx : Ctx) (level : Nat) (v : Word) : Word :=
  let task := cxTask s cx
  if level = 3 ∧ foreignHandle s task v = true then 0
  else
    let o := namedObject level v
    let e := getEntry s o
    let own := match task with
      | some r => ((heldMode s r o).map modeCode).getD 7
      | none => 7
    let lcnt := match task with
      | some r => if isTile o then lcntOf s r o else 0
      | none => 0
    let entry := s.locks.entries.any (fun f => f.obj == o)
    wd (e.holders.length * 2 ^ 49 + e.waiters.length * 2 ^ 34 + lcnt % 4096 * 2 ^ 22 +
      ((grantedJoin e).map modeCode).getD 7 * 2 ^ 18 + own * 2 ^ 15 + entry.toNat)

/-- `lq` (R399): answered within 64 cycles. -/
def execLq (x : Args) (s : State) : Out :=
  issue none x s (fun s =>
    let cx := s.cur
    sched (leaveFlight s (.lq x) cx) (s.now + pickN s 16 1 64)
      (.controlPlaneReply cx (.lq (bits (rd s cx x.a) 1 0) (rd s cx x.b)) x.a))

/-- Bit `j` of row `i` of a loaded matrix. -/
def rowBit (rows : List Byte) (i j : Nat) : Bool := (nth 0 rows i).getLsbD j

/-- Reason 1 of `lmld` (R400). -/
def matrixBad (rows : List Byte) : Bool :=
  (List.range 7).any (fun i => (List.range 7).any (fun j => rowBit rows i j != rowBit rows j i)) ||
  (List.range 7).any (rowBit rows 6) || [1, 2, 4, 5, 6].any (rowBit rows 3)

/-- `lmld` (R400). -/
def execLmld (x : Args) (s : State) : Out :=
  issue (privileged s) x s (fun s =>
    let cx := s.cur
    let off := rd s cx x.a
    orTrap s cx (checkArea s cx off 16 16)
      (let rows := lsBytes s cx.core off.toNat 7
       let lim := ofBytes (lsBytes s cx.core (off.toNat + 8) 2)
       if matrixBad rows then finish s cx x.a (refusalWord 1)
       else if 4096 ≤ lim then finish s cx x.a (refusalWord 2)
       else sched (leaveFlight s (.lmld x) cx) (s.now + pickN s 32 1 200) (.lmldApply cx rows lim x.a)))

/-- LMLD_APPLY (R400): the matrix and LIMIT take effect in every slice at one instant; every waiter is judged anew. -/
def execLmldApply (cx : Ctx) (rows : List Byte) (limit : Nat) (dst : Opnd) (s : State) : Out :=
  .next
    (let s := { s with locks := { s.locks with matrix := some (rows.map (fun b => b.setWidth 7)), limit } }
     let s := settleLocks s
     if stillWaits s cx then finish s cx dst 0 else s)

/-- CONTROL_PLANE_REPLY (R294, R314, R357, R358, R399). -/
def execControlPlaneReply (cx : Ctx) (q : Query) (dst : Opnd) (s : State) : Out :=
  .next
    (if !stillWaits s cx then s
    else
      finish s cx dst
        (match q with
        | .value v => v
        | .lnq node item => lnqItem s node item
        | .kvq h => kvqItem s cx h
        | .lq level v => lqWord s cx level v))

end Sys2Proof.Machine
end

