-- ==== Sys2Proof/Machine/Selection.lean ====
section
/-! DEFINITION. The selection unit: `selk`, `softk`, the heap, `rand`, and the bias, adaptation and slot tables (R363 to R379). -/

namespace Sys2Proof.Machine

/-- Set the sticky SELS of cr.stat (Table 6.2). -/
def setSELS (s : State) (cx : Ctx) (b : Bool) : State :=
  if b then modStrand s cx.core cx.strand (fun x => x.setFlag 11 true) else s

/-! Ranking (R367). -/

/-- A candidate: expert id, whether its slot is not hot, raw logit, and key. -/
structure Cand where
  id : Nat
  cold : Bool
  raw : Nat
  key : FV
  deriving DecidableEq, Repr

/-- Whether key `a` with id `i` ranks before key `b` with id `j`. -/
def ranksBefore (a : FV) (i : Nat) (b : FV) (j : Nat) : Bool :=
  match a.isNan, b.isNan with
  | true, true => decide (i < j)
  | true, false => false
  | false, true => true
  | false, false => b.lt a || (a.eqv b && decide (i < j))

def insertCand (c : Cand) : List Cand → List Cand
  | [] => [c]
  | x :: xs => if ranksBefore c.key c.id x.key x.id then c :: x :: xs else x :: insertCand c xs

/-! Tables (R364 to R366). -/

/-- Fields of an adaptation entry (Table 17.2). -/
def adaptEntry (s : State) (a : Nat) : Word := getK 0 s.tables.adapt a
def adaptSlots (s : State) (a : Nat) : List Nat :=
  let w := adaptEntry s a
  (List.range (min 4 (bits w 50 48))).map (fun i => bits w (9 * i + 8) (9 * i))

/-- Fields of a slot entry (Table 17.3). -/
def slotEntry (s : State) (m : Nat) : Word := getK 0 s.tables.slots m
def slotValid (s : State) (m : Nat) : Bool := bit (slotEntry s m) 63
def slotHot (s : State) (m : Nat) : Bool := bit (slotEntry s m) 62
def slotAdapt (s : State) (m : Nat) : Nat := bits (slotEntry s m) 61 48
def slotBatch (s : State) (m : Nat) : Nat := bits (slotEntry s m) 47 36

/-- The state word of a bias set: ACTIVE in bit 0, the banks' tags above (R366). -/
def biasState (s : State) (set : Nat) : Word := getK 0 s.tables.biasSt set
def biasActive (s : State) (set : Nat) : Nat := bits (biasState s set) 0 0
def biasTag (s : State) (set bank : Nat) : Nat :=
  if bank = 0 then bits (biasState s set) 39 16 else bits (biasState s set) 63 40
def biasAt (s : State) (set bank id : Nat) : BitVec 32 := getK 0 s.tables.bias (set * 2048 + bank * 1024 + id)

/-- The expert that element `i` is eligible as (R365). -/
def expertOf (s : State) (a nb i : Nat) : Option Nat :=
  if i < nb then some i
  else
    match (adaptSlots s a)[i - nb]? with
    | some m => if slotValid s m ∧ slotAdapt s m = a then some (512 + m) else none
    | none => none

/-! `selk` and `softk`. -/

/-- What the tables say of element `i` at issue (R365): 0 when it is not eligible, else its expert, whether that is cold, and its bias. -/
def selkCode (s : State) (a nb set i : Nat) : Nat :=
  match expertOf s a nb i with
  | some id =>
    let cold := decide (512 ≤ id) && !slotHot s (id - 512)
    1 + 2 * cold.toNat + 4 * id + 2 ^ 16 * (biasAt s set (biasActive s set) id).toNat
  | none => 0

/-- The header of a `selk` result but for K (Table 17.4). -/
def selkHead (s : State) (set : Nat) : Nat :=
  let bank := biasActive s set
  bank * 2 ^ 40 + biasTag s set bank * 2 ^ 16 + set * 2 ^ 8

/-- A candidate from what the tables say and its raw logit. -/
def selkCand (code raw : Nat) : Option Cand :=
  if code = 0 then none
  else some { id := code / 4 % 2 ^ 14, cold := code / 2 % 2 == 1, raw
              key := FV.sum false [winDecode 5 raw, val32 (BitVec.ofNat 32 (code / 2 ^ 16))] }

/-- The winners of a row (R365, R367). -/
def winners (codes raws : List Nat) (k : Nat) : List Cand :=
  (((codes.zip raws).filterMap (fun x => selkCand x.1 x.2)).foldl (fun l c => insertCand c l) []).take k

/-- The bytes of a `selk` result (Table 17.4). -/
def selkBytes (head k : Nat) (ws : List Cand) : List Byte :=
  toBytes 8 (head + ws.length) ++ (List.range k).flatMap (fun i =>
    match ws[i]? with
    | some c => toBytes 4 (c.raw * 65536 + c.cold.toNat * 32768 + c.id)
    | none => toBytes 4 0)

/-- The weights of winners by their raw logits (R369). -/
def softWeights (ls : List FV) : List FV :=
  let w := ls.filter (fun l => !l.isNan)
  let frac := fun (n : Nat) => rne32 (FV.div one (.fin false n 0))
  let top : FV := .inf false
  if w.isEmpty then ls.map (fun _ => pzero)
  else if w.any (fun l => l == top) then
    let c := (w.filter (fun l => l == top)).length
    ls.map (fun l => if l = top then frac c else pzero)
  else
    let m : FV := w.foldl (fun a l => if a.lt l then l else a) (FV.inf true)
    if m = (FV.inf true : FV) then ls.map (fun l => if l.isNan then pzero else frac w.length)
    else
      let e := fun l => expNat (rne32 (FV.sum false [l, m.neg]))
      let sum := w.foldl (fun a l => rne32 (FV.sum false [a, e l])) pzero
      ls.map (fun l => if l.isNan then pzero else rne32 (FV.div (e l) sum))

/-! The heap (R370). -/

def getHeap (s : State) (c : Nat) : Heap := (getCore s c).heap

/-- Whether a heap belongs to someone else than a strand (R370). -/
def heapForeign (s : State) (cx : Ctx) : Bool :=
  let o := (getHeap s cx.core).owner
  o != .none && o != ownerOf s cx.core cx.strand

def insertPair (v i : BitVec 32) : List (BitVec 32 × BitVec 32) → List (BitVec 32 × BitVec 32)
  | [] => [(v, i)]
  | x :: xs => if ranksBefore (val32 v) i.toNat (val32 x.1) x.2.toNat then (v, i) :: x :: xs else x :: insertPair v i xs

/-- Enter one pair: a NaN is not entered; a full heap drops its lowest. -/
def Heap.push (h : Heap) (v i : BitVec 32) : Heap :=
  if (val32 v).isNan then h
  else
    let ps := insertPair v i h.pairs
    let total := bits32 (rne32 (FV.sum false [val32 h.total, val32 v]))
    { h with pairs := ps.take 256, total, evict := h.evict || decide (256 < ps.length) }

/-- The rank at which the sum reaches `t`, with the value there (R376). -/
def toppLoop (t : FV) : List (BitVec 32 × BitVec 32) → FV → Nat → Option (Nat × BitVec 32)
  | [], _, _ => none
  | (v, _) :: ps, a, r =>
    let a := rne32 (FV.sum false [a, val32 v])
    if t.le a then some (r, v) else toppLoop t ps a (r + 1)

/-- The mass asked for: 1 for NaN and above 1, +0 below 0 (R376). -/
def toppMass (p : FV) : FV :=
  if p.isNan || one.lt p then one else if p.lt pzero then pzero else p

/-- The cutoff of a heap and the value there, 0 for an empty heap; none when the mass lies in what the heap has dropped (R376). -/
def toppResult (h : Heap) (g : Word) : Option Word :=
  let t := rne32 ((toppMass (fpOf g)).mul (val32 h.total))
  let size := h.pairs.length
  let found := fun (n : Nat) (v : BitVec 32) => some (wd (v.toNat * 2 ^ 32 + n))
  match toppLoop t h.pairs pzero 1 with
  | some (n, v) => found n v
  | none =>
    if size = 0 then some 0
    else if h.evict then none
    else found size (nth (0, 0) h.pairs (size - 1)).1

/-! The unit (R371): one instruction at a time, in issue order. -/

/-- k of a `selk`. -/
def selkK (i : Instr) : Nat := bits (argsOf i).imm 3 0 + 1

/-- The runs of an instruction at the banks: those that read, and one that writes a result. -/
def suRuns (j : UJob) : Nat :=
  match j.instr with
  | .selk _ => cdiv j.vl 64 + 1
  | .softk _ => 3
  | .hpush _ => cdiv j.vl 32
  | _ => 0

/-- The cycles from the first run to run `k`. -/
def suRunAt (j : UJob) (k : Nat) : Nat :=
  match j.instr with
  | .selk i => if k < cdiv j.vl 64 then k else k + selkK (.selk i)
  | .softk _ => if k < 2 then k else 6 + 2 * nth 0 j.got 0
  | _ => k

/-- The cycles from the issue to the completion when nothing delays an instruction (R373 to R376); `softk` takes 2 more for each winner of the header
that its first run reads. -/
def suCycles (s : State) (j : UJob) : Nat :=
  match j.instr with
  | .selk i => 6 + cdiv j.vl 64 + selkK (.selk i)
  | .softk _ => 12
  | .hpush _ => 6 + cdiv j.vl 32
  | .htopp _ => 6 + cdiv (getHeap s j.cx.core).pairs.length 32
  | _ => 0

/-- The stretches that run `k` reads or writes. -/
def suStretches (j : UJob) (k : Nat) : List (Word × Nat × Nat) :=
  let p := nth 0 j.ps 0
  let r := nth 0 j.ps 1
  match j.instr with
  | .selk i => if k < cdiv j.vl 64 then [(p, 128 * k, min 128 (2 * j.vl - 128 * k))] else [(r, 0, 8 + 4 * selkK (.selk i))]
  | .softk _ =>
    let n := nth 0 j.got 0
    if k = 0 then [(p, 0, 8)] else if k = 1 then [(p, 8, 4 * n)] else [(r, 0, n * elemSize (ptrWin r))]
  | .hpush _ =>
    let e := elemSize (ptrWin p)
    [(p, 32 * k * e, min 32 (j.vl - 32 * k) * e)]
  | _ => []

/-- Push elements into the heap, the first with a given index (R375). -/
def pushAll (s : State) (cx : Ctx) (first : Nat) (vs : List FV) : State :=
  let h := (vs.zip (List.range vs.length)).foldl (fun (h : Heap) (v, i) =>
    h.push (bits32 v) (BitVec.ofNat 32 (first + i))) (getHeap s cx.core)
  setSELS (modCore s cx.core (fun k => { k with heap := h })) cx (vs.any FV.isNan)

/-- The advance of a pointer that was read at issue (R95), by the access size where the operand asks for it. -/
def sizedInc (o : Opnd) (n : Nat) (i : BitVec 3 × Word) : BitVec 3 × Word :=
  match o with
  | .mem p .size => (p, wd n)
  | _ => i

/-- The advances of the two pointers of `softk` when K is known (R374). -/
def softIncs (x : Args) (n e : Nat) : List (BitVec 3 × Word) → List (BitVec 3 × Word)
  | [a, b] => [sizedInc x.a (8 + 4 * n) a, sizedInc x.b (n * e) b]
  | l => l

/-- Run `k` of an instruction: `selk` and `softk` write their result behind all that they read, and `softk` first reads K from the header (R373,
R374). -/
def suRun (s : State) (j : UJob) (k : Nat) : State × UJob :=
  let p := nth 0 j.ps 0
  let r := nth 0 j.ps 1
  match j.instr with
  | .selk i =>
    if k < cdiv j.vl 64 then
      (s, { j with offs := j.offs ++ (List.range (min 64 (j.vl - 64 * k))).map (fun e =>
        ofBytes (walkBytes s p (128 * k + 2 * e) 2)) })
    else
      let n := selkK (.selk i)
      (walkWrite s r 0 (selkBytes (nth 0 j.got 0) n (winners (j.got.drop 1) j.offs n)), j)
  | .softk x =>
    if k = 0 then
      let n := ofBytes (walkBytes s p 0 1)
      (s, { j with got := [n], due := j.due + 2 * n, incs := softIncs x n (elemSize (ptrWin r)) j.incs })
    else if k = 1 then
      (s, { j with offs := (List.range (nth 0 j.got 0)).map (fun e => ofBytes (walkBytes s p (8 + 4 * e + 2) 2)) })
    else
      let ls := j.offs.map (winDecode 5)
      let bs := (softWeights ls).flatMap (fun v => toBytes (elemSize (ptrWin r)) (winEncode (ptrWin r) .ne false v))
      (setSELS (walkWrite s r 0 bs) j.cx (ls.any FV.isNan), j)
  | .hpush _ =>
    let e := elemSize (ptrWin p)
    (pushAll s j.cx (j.g.toNat + 32 * k) ((List.range (min 32 (j.vl - 32 * k))).map (fun x =>
      winDecode (ptrWin p) (ofBytes (walkBytes s p ((32 * k + x) * e) e)))), j)
  | _ => (s, j)

/-- The checks that `softk` makes when its first run has read K (R374). -/
def suJudge (s : State) (j : UJob) : Option Bad :=
  match j.instr with
  | .softk _ =>
    let p := nth 0 j.ps 0
    let r := nth 0 j.ps 1
    let k := nth 0 j.got 0
    let e := elemSize (ptrWin r)
    if j.blk = 0 then
      firstBad [if 16 < k then some (0x10, 0) else none, checkAccess s j.cx p (8 + 4 * k), checkAccess s j.cx r (k * e), checkAlign p 8,
        checkAlign r e]
    else none
  | _ => none

/-- What an instruction is refused for when its turn comes (R370, R376): a heap of another owner, a mass that is lost. -/
def suRefusal (s : State) (j : UJob) : Option Bad :=
  let foreign := if heapForeign s j.cx then some (0x0D, 0) else none
  match j.instr with
  | .hpush _ => foreign
  | .hpop _ => foreign
  | .hclr _ => if j.cx.strand = 0 then none else foreign
  | .htopp _ =>
    match foreign with
    | some b => some b
    | none => if (toppResult (getHeap s j.cx.core) j.g).isNone then some (0x10, 0) else none
  | _ => none

/-- `hpop` and `hclr`, which take no time of the unit (R375): with fa = fb the value is written. -/
def suAtOnce (s : State) (j : UJob) : State :=
  let cx := j.cx
  let x := argsOf j.instr
  match j.instr with
  | .hpop _ =>
    match (getHeap s cx.core).pairs with
    | (v, i) :: ps =>
      let s := modCore s cx.core (fun k => { k with heap := { k.heap with pairs := ps } })
      finishDone (wr s cx x.a (i.setWidth 64)) { cx, dst := x.b, val := some (v.setWidth 64) }
    | [] => finishDone (wr s cx x.a (wd (2 ^ 63))) { cx, dst := x.b, val := some 0 }
  | _ => finishDone (modCore s cx.core (fun k => { k with heap := {} })) { cx }

/-- Whether an instruction takes no time of the unit. -/
def suPrompt : Instr → Bool
  | .hpop _ => true
  | .hclr _ => true
  | _ => false

/-- The unit begins an instruction: `hpush` binds a heap that has no owner (R370), and runs count from one of the next cycles
(log 1). -/
def startSu (s : State) (j : UJob) : State :=
  let j := { j with started := true, base := s.now + pickN s 2 0 6, due := s.now + suCycles s j }
  let s := putJob s true j
  match j.instr with
  | .htopp x =>
    sched s j.due (.selectionComplete { cx := j.cx, dst := x.a, val := toppResult (getHeap s j.cx.core) j.g })
  | .hpush _ =>
    if j.vl = 0 then sched s j.due (.selectionComplete { cx := j.cx, ptrs := j.incs })
    else modCore s j.cx.core (fun k =>
      { k with heap := if k.heap.owner = .none then { k.heap with owner := ownerOf s j.cx.core j.cx.strand } else k.heap })
  | _ => s

/-- The turn of an instruction has come: it is refused, done at once, or begins. -/
def suTurn (s : State) (j : UJob) : State :=
  match suRefusal s j with
  | some (cause, info) => if stillWaits s j.cx then trapAt (dropJob s true j.cx) j.cx cause info else dropJob s true j.cx
  | none => if suPrompt j.instr then suAtOnce (dropJob s true j.cx) j else startSu s j

/-- The unit takes an instruction (R371): it begins at once when the unit is free, else its strand is Waiting. -/
def suTake (s : State) (j : UJob) : State :=
  if (getCore s j.cx.core).suQ.isEmpty then
    match suRefusal s j with
    | some (cause, info) => trapAt s j.cx cause info
    | none =>
      if suPrompt j.instr then suAtOnce s j
      else startSu (modUnit (leaveFlight s j.instr j.cx) j.cx.core true (fun q => q ++ [j])) j
  else modUnit (leaveFlight s j.instr j.cx) j.cx.core true (fun q => q ++ [j])

/-- A run is made: the rest comes as much later as its banks have delayed it, and behind the last one the completion is due. A `softk` whose header fails
its checks traps, and the unit is free. -/
def afterSuRun (s : State) (j : UJob) : State :=
  let at_ := j.base + suRunAt j j.blk
  let late := runLate s at_ (suStretches j j.blk)
  let (s, k) := suRun s j j.blk
  match suJudge s k with
  | some (cause, info) => if stillWaits s j.cx then trapAt (dropJob s true j.cx) j.cx cause info else dropJob s true j.cx
  | none =>
  let k := { k with blk := j.blk + 1, base := j.base + (s.now - at_), due := k.due + late, done := [] }
  let s := putJob s true k
  if k.blk < suRuns k then s else sched s (max k.due s.now) (.selectionComplete { cx := k.cx, ptrs := k.incs })

/-- SELECTION_COMPLETE (R366, R371): the unit is done, and a `selk` lets its bank go. -/
def execSelectionComplete (d : Done) (s : State) : Out :=
  .next
    (let s := dropJob s true d.cx
     let s := { s with tables := { s.tables with latched := s.tables.latched.filter (fun x => x.2.2 != d.cx) } }
     if stillWaits s d.cx then finishDone s d else s)

/-- `selk` (R373): the tables are read and the bank is latched at issue. -/
def execSelk (x : Args) (s : State) : Out :=
  issue none x s (fun s =>
    let cx := s.cur
    let p := ptrVal s cx x.a
    let r := ptrVal s cx x.b
    let v := rd s cx x.c
    let vl := vlOf s cx
    let k := bits x.imm 3 0 + 1
    let set := bits v 21 16
    let nb := bits v 41 32
    if 1024 < vl ∨ ptrWin p ≠ 5 then trapAt s cx 0x11 0
    else if bits x.imm 10 4 != 0 || decide (512 < nb) then trapAt s cx 0x10 0
    else
      orTrap s cx (firstBad [checkAccess s cx p (2 * vl), checkAccess s cx r (8 + 4 * k), checkAlign p 2, checkAlign r 8])
        (let got := selkHead s set :: (List.range vl).map (selkCode s (bits v 13 0) nb set)
         let s1 := { s with tables := { s.tables with latched := s.tables.latched ++ [(set, biasActive s set, cx)] } }
         suTake s1 { instr := .selk x, cx, vl, ps := [p, r], got
                     incs := incList s cx x.a (2 * vl) 0 ++ incList s cx x.b (8 + 4 * k) 0 }))

/-- `softk` (R374): K is read from the header in the instruction's turn at the unit (R371), and what depends on it is checked then. -/
def execSoftk (x : Args) (s : State) : Out :=
  issue none x s (fun s =>
    let cx := s.cur
    let p := ptrVal s cx x.a
    let r := ptrVal s cx x.b
    let win := ptrWin r
    if !(win == 0 || win == 5 || win == 6) then trapAt s cx 0x11 0
    else orTrap s cx (checkAccess s cx p 8) (suTake s { instr := .softk x, cx, ps := [p, r], incs := incList s cx x.a 0 0 ++ incList s cx x.b 0 0 }))

/-- `hpush` (R375). -/
def execHpush (x : Args) (s : State) : Out :=
  issue none x s (fun s =>
    let cx := s.cur
    let p := ptrVal s cx x.a
    let win := ptrWin p
    let e := elemSize win
    let vl := vlOf s cx
    if 65536 < vl ∨ !(win == 0 || win == 5 || win == 6) = true then trapAt s cx 0x11 0
    else
      orTrap s cx (firstBad [checkAccess s cx p (vl * e), checkAlign p e])
        (suTake s { instr := .hpush x, cx, vl, ps := [p], g := rd s cx x.b, incs := incList s cx x.a (vl * e) 0 }))

/-- `hpop` (R375). -/
def execHpop (x : Args) (s : State) : Out := issue none x s (fun s => suTake s { instr := .hpop x, cx := s.cur })

/-- `hclr` (R375). -/
def execHclr (x : Args) (s : State) : Out := issue none x s (fun s => suTake s { instr := .hclr x, cx := s.cur })

/-- `htopp` (R376). -/
def execHtopp (x : Args) (s : State) : Out :=
  issue none x s (fun s => suTake s { instr := .htopp x, cx := s.cur, g := rd s s.cur x.b })

/-! `rand` (R372, R377). -/

def randRounds (k1 : Word) : Nat → Word → Word
  | 0, x => x
  | n + 1, x =>
    let r := 4 - n
    let x := x + k1 + wd r
    let x := x ^^^ (x >>> 31)
    let x := x * 0x9E3779B97F4A7C15
    randRounds k1 n (x ^^^ (x >>> 29))

/-- Rand (R372). -/
def randWord (k0 k1 c : Word) : Word := randRounds k1 4 (c ^^^ k0)

/-- `rand` (R377). -/
def execRand (x : Args) (s : State) : Out :=
  issue none x s (fun s =>
    let cx := s.cur
    let task := cxTask s cx
    let h := rd s cx x.b
    if foreignHandle s task h then trapAt s cx 0x12 0
    else
      let q := seqView s task (bits h 11 0)
      let v := randWord (q.dw 5) (q.dw 6) (wd (bits (rd s cx x.c) 47 0))
      sched (leaveFlight s (.rand x) cx) (s.now + pickN s 27 1 40) (.controlPlaneReply cx (.value v) x.a))

/-! Bias tables (R378). -/

/-- `biasu` (R378): the values are read at issue. -/
def execBiasu (x : Args) (s : State) : Out :=
  issue (privileged s) x s (fun s =>
    let cx := s.cur
    let off := rd s cx x.a
    let v := rd s cx x.b
    let count := (rd s cx x.c).toNat
    orTrap s cx (checkArea s cx off 4 (4 * min count 100000))
      (if count = 0 ∨ 1024 < bits v 25 16 + count then finish s cx x.a (refusalWord 1)
      else
        let vals := (List.range count).map (fun i => BitVec.ofNat 32 (ofBytes (lsBytes s cx.core (off.toNat + 4 * i) 4)))
        sched (leaveFlight s (.biasu x) cx) (s.now + pickN s 33 1 (60 + cdiv count 16))
          (.biasuComplete cx (bits v 5 0) (bits v 25 16) vals x.a)))

/-- BIASU_COMPLETE (R366, R378): while a `selk` holds the inactive bank latched it does not begin. -/
def execBiasuComplete (cx : Ctx) (set first : Nat) (vals : List (BitVec 32)) (dst : Opnd) (s : State) : Out :=
  .next
    (let bank := 1 - biasActive s set
     if s.tables.latched.any (fun x => x.1 == set && x.2.1 == bank) then
       sched s (s.now + pickN s 33 1 (60 + cdiv vals.length 16)) (.biasuComplete cx set first vals dst)
     else
       let bias := (vals.zip (List.range vals.length)).foldl (fun b (v, i) => setK b (set * 2048 + bank * 1024 + first + i) v)
         s.tables.bias
       let s := { s with tables := { s.tables with bias } }
       if stillWaits s cx then finish s cx dst 0 else s)

/-- `biasf` (R378): the flip comes at most 40 cycles on. -/
def execBiasf (x : Args) (s : State) : Out :=
  issue (privileged s) x s (fun s =>
    let cx := s.cur
    let v := rd s cx x.a
    sched (leaveFlight s (.biasf x) cx) (s.now + pickN s 34 1 40) (.biasBankFlip cx (bits v 5 0) (BitVec.ofNat 24 (bits v 31 8)) x.a))

/-- BIAS_BANK_FLIP (R366, R378): the inactive bank takes the tag and becomes active on every die. -/
def execBiasBankFlip (cx : Ctx) (set : Nat) (tag : BitVec 24) (dst : Opnd) (s : State) : Out :=
  .next
    (let w := biasState s set
     let new := 1 - biasActive s set
     let w := if new = 0 then setBits w 39 16 tag.toNat else setBits w 63 40 tag.toNat
     let w := setBits w 0 0 new
     let s := { s with tables := { s.tables with biasSt := setK s.tables.biasSt set w } }
     if stillWaits s cx then finish s cx dst w else s)

/-! `adpl` (R379). -/

/-- An adaptation entry over a list of slots; its VALID falls with the last. -/
def adaptWord (batch : Nat) (ms : List Nat) : Word :=
  wd ((!ms.isEmpty).toNat * 2 ^ 63 + batch * 2 ^ 51 + ms.length * 2 ^ 48 +
    ((ms.zip (List.range ms.length)).map (fun (m, i) => m * 2 ^ (9 * i))).foldl (· + ·) 0)

def setAdapt (s : State) (a : Nat) (w : Word) : State := { s with tables := { s.tables with adapt := setK s.tables.adapt a w } }
def setSlotEntry (s : State) (m : Nat) (w : Word) : State := { s with tables := { s.tables with slots := setK s.tables.slots m w } }

/-- Take a slot out of an adaptation's list. -/
def unlistSlot (s : State) (a m : Nat) : State :=
  let ms := adaptSlots s a
  if ms.contains m then setAdapt s a (adaptWord (bits (adaptEntry s a) 62 51) (ms.filter (fun x => x != m))) else s

/-- The refusal reason of an operation, 0 for none (R379). -/
def adplRefusal (s : State) (op a b m node : Nat) : Nat :=
  let claim := op == 0
  if claim && slotValid s m && slotBatch s m == b && slotAdapt s m != a then 1
  else if claim && !(adaptSlots s a).contains m && decide (4 ≤ (adaptSlots s a).length) then 2
  else if claim && !nodeLive s none node then 3
  else if a == 0 || ((op == 1 || op == 2) && !slotValid s m) then 4
  else 0

/-- An operation that is not refused: the state and what it writes (R379). -/
def adplPerform (s : State) (op a b m node : Nat) (hot : Bool) : State × Word :=
  match op with
  | 0 =>
    let s := if slotValid s m ∧ slotAdapt s m ≠ a then unlistSlot s (slotAdapt s m) m else s
    let s := setSlotEntry s m (wd (2 ^ 63 + hot.toNat * 2 ^ 62 + a * 2 ^ 48 + b * 2 ^ 36 + node))
    let ms := adaptSlots s a
    (setAdapt s a (adaptWord b (if ms.contains m then ms else ms ++ [m])), 0)
  | 1 => (setSlotEntry (unlistSlot s (slotAdapt s m) m) m 0, 0)
  | 2 => (setSlotEntry s m (setBits (slotEntry s m) 62 62 hot.toNat), 0)
  | _ => (s, slotEntry s m)

/-- `adpl` (R379): it takes effect at most 60 cycles on. -/
def execAdpl (x : Args) (s : State) : Out :=
  issue (privileged s) x s (fun s =>
    let cx := s.cur
    sched (leaveFlight s (.adpl x) cx) (s.now + pickN s 35 1 60) (.adplApply cx (rd s cx x.b) (rd s cx x.c) x.a))

/-- ADPL_APPLY (R379). -/
def execAdplApply (cx : Ctx) (b c : Word) (dst : Opnd) (s : State) : Out :=
  .next
    (let op := bits b 63 62
     let a := bits b 13 0
     let m := bits c 8 0
     let node := bits c 54 32
     let reason := adplRefusal s op a (bits b 27 16) m node
     let (s, w) := if reason != 0 then (s, refusalWord reason) else adplPerform s op a (bits b 27 16) m node (bit c 63)
     if stillWaits s cx then finish s cx dst w else s)

end Sys2Proof.Machine
end

