-- ==== Sys2Proof/Machine/Repeat.lean ====
section
/-! DEFINITION. The completion of matrix entries (R206), the repetition buffer (R216 to R221, R229) and the power governors that it
asks (R405). -/

namespace Sys2Proof.Machine

/-! Capturing. -/

/-- The words of a chain as its text stands (R59): read without the instruction cache, from `a` on. -/
def readChain (s : State) (cx : Ctx) (a : Word) (ws : List IWord) : Nat → Except (Byte × IWord × Word) (List IWord)
  | 0 => .ok ws
  | n + 1 =>
    match decode ws with
    | .more =>
      match fetchPa s cx a with
      | .error cause => .error (cause, ws.getLastD 0, a)
      | .ok pa => readChain s cx (a + 2) (ws ++ [textWord s pa]) n
    | _ => .ok ws

/-- The `n` chains from `a` on, or the first that cannot be decoded or fetched: cause, word and INFO (R216). -/
def readChains (s : State) (cx : Ctx) (a : Word) : Nat → Except (Byte × IWord × Word) (List Chain)
  | 0 => .ok []
  | n + 1 =>
    match readChain s cx a [] 5 with
    | .error e => .error e
    | .ok ws =>
      match decode ws with
      | .ok i len word => (readChains s cx (a + wd len) n).map (fun l => ⟨i, word, a, len⟩ :: l)
      | .illegal word => .error (0x01, word, 0)
      | .more => .error (0x01, ws.getLastD 0, 0)

/-- The addresses of the words that `readChain` reads. -/
def wordAddresses (s : State) (cx : Ctx) (a : Word) (ws : List IWord) : Nat → List Nat
  | 0 => []
  | n + 1 =>
    match decode ws with
    | .more =>
      a.toNat :: (match fetchPa s cx a with
      | .error _ => []
      | .ok pa => wordAddresses s cx (a + 2) (ws ++ [textWord s pa]) n)
    | _ => []

/-- The addresses of the words that `readChains` reads. -/
def chainAddresses (s : State) (cx : Ctx) (a : Word) : Nat → List Nat
  | 0 => []
  | n + 1 =>
    wordAddresses s cx a [] 5 ++
      (match (readChain s cx a [] 5).map decode with
      | .ok (.ok _ len _) => chainAddresses s cx (a + wd len) n
      | _ => [])

/-- The matrix operation of an instruction that may be captured (R216). -/
def capturable : Instr → Option MKind
  | .mma _ => some .mma
  | .mmas _ => some .mmas
  | .mldb _ => some .mldb
  | .mrot _ => some .mrot
  | .mdrop _ => some .mdrop
  | .mza _ => some .mza
  | .mst _ => some .mst
  | .mlda _ => some .mlda
  | .macc _ => some .macc
  | _ => none

/-- The entry that a captured chain makes in pass `j` (R217), its pointers taken through `ptrOf`. -/
def passEntry (s : State) (cx : Ctx) (kind : MKind) (x : Args) (stride : Nat) (toggle : Bool) (j : Nat) (ptrOf : Nat → Word) :
    MEnt :=
  let slot := slotNum kind x
  buildEntry s cx kind x (getCore s cx.core).mqNext ((accNum x.a + j * stride) % 8) ((accNum x.b + j * stride) % 8)
    (if toggle && j % 2 == 1 then 1 - slot else slot) false ptrOf

/-- The context of a captured chain: its own address, length and word, under the strand of its `rep`. -/
def chainCx (cx : Ctx) (h : Chain) : Ctx := { cx with addr := h.addr, len := h.len, word := h.word }

/-- The entries of the first pass as the strand's registers stand at `rep` (R219). -/
def firstPass (s : State) (cx : Ctx) (hs : List Chain) : List (MEnt × Args) :=
  hs.filterMap (fun h =>
    (capturable h.instr).map (fun kind =>
      let x := argsOf h.instr
      (passEntry s (chainCx cx h) kind x 0 false 0 (getStrand s cx.core cx.strand).ptr, x)))

/-- Whether the first pass breaks a shape, immediate or pair rule that issue can decide (R219): a pair is decided where its
slot is Full and no earlier captured chain writes it. -/
def passBad (s : State) : List MEnt → List (MEnt × Args) → Bool
  | _, [] => false
  | seen, (e, x) :: es =>
    shapeBad e x.imm || (pairBad s e && !seen.any (fun d => d.slotWritten && d.slot == e.slot)) || passBad s (seen ++ [e]) es

/-- Whether every tile that any of `count` passes names belongs to the strand (R219). -/
def passTilesOwned (s : State) (cx : Ctx) (es : List (MEnt × Args)) (stride count : Nat) : Bool :=
  (List.range (min count 8)).all (fun j =>
    es.all (fun (e, _) => e.tiles.all (fun t => ownsTile s cx ((t + j * stride) % 8))))

/-- The demand of a sequence (R219). -/
def seqDemand (s : State) (es : List (MEnt × Args)) (count : Nat) : Nat :=
  count * (es.foldl (fun a (e, _) => if e.kind = .mma ∨ e.kind = .mmas then a + engineCycles s e else a) 0)

/-! The end of a sequence. -/

/-- A `repw` of a strand completes (R229). -/
def wakeRepw (s : State) (c t : Nat) : State :=
  match (getStrand s c t).wait with
  | some w => if w.why = .rep false then complete s w.cx else s
  | none => s

/-- A sequence that has issued every pass, or was stopped, ends when none of its entries is left (R220, R229). -/
def settleSeq (s : State) (c : Nat) : State :=
  let k := getCore s c
  match k.rep with
  | some r =>
    if (r.stopped || decide (r.count ≤ r.pass)) && k.mq.all (fun e => e.direct) then
      wakeRepw (endRep s c) c r.cx.strand
    else s
  | none => s

/-- Waiting `rep` instructions issue anew one at a time (R216): the next goes when the last one released has issued and the
buffer is idle again. -/
def settleRep (s : State) (c : Nat) : State :=
  let k := getCore s c
  match k.repNext with
  | some (t, pc) =>
    if (k.strand t).st = .ready ∧ (k.strand t).pc = pc then s
    else
      let s := modCore s c (fun k => { k with repNext := none })
      if k.rep.isNone then releaseRep s c else s
  | none => s

/-- What follows when an entry has left a matrix queue: direct instructions take its place, a sequence may end, and joins may be met. -/
def afterEntry (s : State) (c : Nat) : State := pruneJoins (settleSeq (fillQueue s c) c) c

/-- MATRIX_ENTRY_COMPLETE (R203, R206, R212): the entry has its effect, its strand goes on, its tiles are let go. -/
def execMatrixEntryComplete (c id : Nat) (s : State) : Out :=
  .next
    (match (getCore s c).mq.find? (fun e => e.id == id && e.started) with
    | none => s
    | some e =>
      if e.running then putOff s c e
      else
      let s := removeEntry (entryEffect s e) c id
      let s := if e.direct && stillWaits s e.cx then finishDone s { cx := e.cx, ptrs := entryIncs e } else s
      let s := if e.kind = .mldb ∨ e.kind = .mrot then checkPairs s c e.slot else s
      let s := afterEntry s c
      if e.kind = .mrot ∧ e.succ ≠ c then afterEntry (checkPairs s e.succ e.slot) e.succ else s)

/-! `rep` and `repw`. -/

/-- Issue of an instruction that raises a fault held by a sequence first (R220, R229): the guard, the fault, then the window check. -/
def issueHeld (x : Args) (s : State) (wait : Bool) (i : Instr) (body : State → State) : Out :=
  .next
    (if performed s x then
      match (getStrand s s.cur.core s.cur.strand).held.find? (fun f => !f.copy) with
      | some f => raiseHeld s s.cur f
      | none =>
        if wait then
          modCore (leave s .waiting (.rep true) false i s.cur .none) s.cur.core (fun k =>
            { k with repWaiters :=
              if k.repNext.any (fun x => x.1 == s.cur.strand) then s.cur.strand :: k.repWaiters
              else k.repWaiters ++ [s.cur.strand] })
        else if argsInWindow s x then body s
        else trapAt s s.cur 0x19 0
    else complete s s.cur)

/-- Start a sequence: the chains are captured and the pointers copied (R216, R218); a demand of 1,024 or more asks the
governor first (R219). -/
def beginSeq (s : State) (cx : Ctx) (hs : List Chain) (count stride : Nat) (toggle : Bool) (demand : Nat) : State :=
  let copies := (List.range 8).map (fun p => (p, (getStrand s cx.core cx.strand).ptr p))
  let s := modCore s cx.core (fun k =>
    { k with rep := some { cx, chains := hs, count, stride, toggle, copies, demand, after := s.now + 1 } })
  if 1024 ≤ demand then sched (perfAdd s cx.core 8 1) s.now (.governorRequest cx.core demand) else s

/-- `rep` (R216 to R219, R229): its traps in the order of its entry, behind the 0x01 of a chain that cannot be decoded, also where an earlier
chain may not be captured (0x0E): R216 and R229 give no order between the two (DESIGN CHOICE, log 71). The checks of the first pass are made
with count 0 too (R219 does not say; DESIGN CHOICE, log 71). -/
def execRep (x : Args) (s : State) : Out :=
  issueHeld x s (getCore s s.cur.core).rep.isSome (.rep x) (fun s =>
    let cx := s.cur
    let count := (rd s cx x.a).toNat
    let stride := bits x.imm 5 3
    match readChains s cx (nextPc cx) (bits x.imm 2 0 + 1) with
    | .error (cause, word, info) => takeTrap s cx.core cx.strand cause info word cx.addr cx.addr
    | .ok hs =>
      let es := firstPass s cx hs
      if !passTilesOwned s cx es stride count then trapAt s cx 0x0D 0
      else if hs.any (fun h => (capturable h.instr).isNone) || bits x.imm 63 7 != 0 || decide (4096 < count) || passBad s [] es then
        trapAt s cx 0x0E 0
      else
        let s := completeAt s cx (nextPc cx + wd ((hs.map (·.len)).foldl (· + ·) 0))
        if count = 0 then s
        else beginSeq s cx hs count stride (bit x.imm 6) (seqDemand s es count))

/-- `repw` (R229). -/
def execRepw (x : Args) (s : State) : Out :=
  issueHeld x s false (.repw x) (fun s =>
    let cx := s.cur
    if (getCore s cx.core).rep.any (fun r => r.cx.strand == cx.strand) then
      leave s .waiting (.rep false) false (.repw x) cx .none
    else complete s cx)

/-! Reissue. -/

/-- Whether a captured chain names the copy of pointer `p`. -/
def namesPtr (kind : MKind) (x : Args) (p : Nat) : Bool :=
  match kind with
  | .mrot | .mdrop | .mza | .macc => false
  | .mmas => (ptrNum x.b).toNat == p || (ptrNum x.c).toNat == p
  | _ => (ptrNum x.b).toNat == p

/-- Whether a chain must wait for a window-3 `mst` whose size is not known yet: an earlier entry still writes its tile (R218, log 8). -/
def copyLate (k : Core) (kind : MKind) (x : Args) : Bool := k.mq.any (fun e => e.late && namesPtr kind x e.ptr.toNat)

/-- Whether the size of a reissued entry is known only when it starts. -/
def sizeOpen (k : Core) (e : MEnt) : Bool :=
  e.kind == .mst && ptrWin e.p == 3 && e.inc == .size &&
  (k.mq ++ k.mqWait).any (fun f => f.tilesWritten.contains e.tile)

/-- Whether the buffer of core `c` reissues now (R217, R219): it has a pass to issue and its grant, and the queue has a place. -/
def repReady (s : State) (c : Nat) : Bool :=
  let k := getCore s c
  match k.rep with
  | some r =>
    let h := nth ⟨.repw {}, 0, 0, 0⟩ r.chains r.idx
    !r.stopped && decide (r.pass < r.count) && decide (r.after ≤ s.now) && (decide (r.demand < 1024) || r.granted) &&
    decide (k.mq.length < 16) && k.mqWait.isEmpty &&
    (match capturable h.instr with
    | some kind => !copyLate k kind (argsOf h.instr)
    | none => true)
  | none => false

/-- The next captured chain, or the first one of the next pass, from the next cycle on (R217). -/
def RepBuf.advance (now : Nat) (r : RepBuf) : RepBuf :=
  let r := { r with after := now + 1 }
  if r.idx + 1 < r.chains.length then { r with idx := r.idx + 1 } else { r with idx := 0, pass := r.pass + 1 }

/-- The copies after a reissue (R218). -/
def advanceCopies (s : State) (r : RepBuf) (e : MEnt) (imm : Word) : List (Nat × Word) :=
  let inc : Word :=
    match e.inc with
    | .none => 0
    | .size => if e.late then 0 else wd (accessSize s e)
    | .imm => imm
    | .reg _ => e.incReg
  setK r.copies e.ptr.toNat (advanceW (getK 0 r.copies e.ptr.toNat) inc)

/-- The checks of a reissue (R220): those of a direct entry, its registers' window, and no tile. -/
def checkReissue (s : State) (cx : Ctx) (x : Args) (e : MEnt) : Option Bad :=
  let n := (getStrand s cx.core cx.strand).size
  if inWindow n x.a && inWindow n x.b && inWindow n x.c then checkMatrix s e x.imm else some (0x19, 0)

/-- One reissue (R217): the guard is read, and an entry enters the queue or a fault ends the sequence (R220). Its cycle is none without an issue for
EMPTY (R18, R170 and R217 do not say; DESIGN CHOICE, log 46). -/
def reissue (s : State) (c : Nat) (r : RepBuf) (h : Chain) (kind : MKind) : State :=
  let x := argsOf h.instr
  let cx := { chainCx r.cx h with at_ := s.now }
  let s := noteIssued s c
  let put := fun (s : State) (r : RepBuf) => modCore s c (fun k => { k with rep := some r })
  if (getStrand s c cx.strand).pred x.guard.toNat = x.sense then put s (r.advance s.now)
  else
    let e := passEntry s cx kind x r.stride r.toggle r.pass (fun p => getK 0 r.copies p)
    let e := { e with late := sizeOpen (getCore s c) e }
    match checkReissue s cx x e with
    | some (cause, info) => stopRep (holdFault s c cx.strand ⟨cause, info, h.word, false⟩) c
    | none =>
      let r := if e.hasPtr then { r with copies := advanceCopies s r e x.imm } else r
      put (modCore s c (fun k => { k with mq := k.mq ++ [e], mqNext := k.mqNext + 1 })) (r.advance s.now)

/-- REP_REISSUE (R217, R218, R220). -/
def execRepReissue (c : Nat) (s : State) : Out :=
  .next
    (if repReady s c then
      match (getCore s c).rep with
      | some r =>
        let h := nth ⟨.repw {}, 0, 0, 0⟩ r.chains r.idx
        match capturable h.instr with
        | some kind => settleSeq (reissue s c r h kind) c
        | none => s
      | none => s
    else s)

/-! Power. -/

/-- A sequence's grant is refused (R219, R405): the fault is held with the word of its `rep`, and the sequence ends. -/
def refusePower (s : State) (c : Nat) : State :=
  match (getCore s c).rep with
  | some r => settleSeq (stopRep (holdFault s c r.cx.strand ⟨0x1B, 0, r.cx.word, false⟩) c) c
  | none => s

/-- Take a core's request out of its governor. -/
def dropPower (s : State) (c : Nat) : State :=
  modDie s (dieOf c) (fun d => { d with waiting := d.waiting.filter (fun x => x.1 != c) })

/-- Whether the device is stopped by an alarm (R411). -/
def alarmed (s : State) : Bool :=
  match s.mgmt.power with
  | .alarm _ => true
  | _ => false

/-- GOVERNOR_REQUEST (R405): a demand above CEIL is refused, any other waits in arrival order. -/
def execGovernorRequest (c demand : Nat) (s : State) : Out :=
  .next
    (if (getCore s c).rep.any (fun r => r.demand == demand && !r.granted && !r.stopped) then
      if decide ((getDie s (dieOf c)).ceil < demand) || alarmed s then refusePower s c
      else modDie s (dieOf c) (fun d => { d with waiting := d.waiting ++ [(c, demand)] })
    else s)

/-- Whether the first waiting request of a die can be granted (R405). -/
def grantDue (d : Die) : Bool :=
  match d.waiting with
  | [] => false
  | (_, demand) :: _ => decide (d.total + demand ≤ d.ceil)

/-- POWER_GRANT (R405): the first waiting request is granted. -/
def execPowerGrant (d : Nat) (s : State) : Out :=
  .next
    (let g := getDie s d
     match g.waiting with
     | [] => s
     | (c, demand) :: rest =>
       if grantDue g then
         let s := modDie s d (fun g => { g with total := g.total + demand, waiting := rest })
         modCore s c (fun k => { k with rep := k.rep.map (fun r => { r with granted := true, after := s.now + 1 }) })
       else s)

/-- Refuse the waiting requests of a die that satisfy a condition on their demand (R405, R411). -/
def refuseWaiting (s : State) (d : Nat) (p : Nat → Bool) : State :=
  ((getDie s d).waiting.filter (fun x => p x.2)).foldl (fun s x => refusePower (dropPower s x.1) x.1) s

/-- Set a die's ceiling (R405): requests that wait and now exceed it are refused. -/
def setCeil (s : State) (d ceil : Nat) : State :=
  refuseWaiting (modDie s d (fun g => { g with ceil := ceil })) d (fun n => decide (ceil < n))

end Sys2Proof.Machine
end

