-- ==== Sys2Proof/Machine/Holds.lean ====
section
/-! DEFINITION. What an instruction waits for before it takes its effect: the accesses that come before its own (R254, R259, R328), the walks of the
addresses that it translates in one step (R236), the release of a line that it reads so (R261), and the self-test of a bank that it reads so
(R407). -/

namespace Sys2Proof.Machine

/-- Whether an instruction accesses a local store, itself or through the sequence that it starts: behind a `fence` its accesses come after those
that are outstanding (R254). Copies are not ordered by their strand (Table 11.1). -/
def usesStore : Instr → Bool
  | .ld _ | .st _ | .ldx _ | .stx _ | .lswap _ | .lcas _ | .ladd _ | .waita _ => true
  | .vadd _ | .vsub _ | .vmul _ | .vfma _ | .vmin _ | .vmax _ | .vabs _ | .vneg _ | .vexp _ | .vrcp _ | .vrsq _ | .vcvt _ => true
  | .vcpy _ | .vsum _ | .vrmax _ | .vrmin _ | .vdot _ | .vscal _ | .vfill _ | .vclamp _ | .vcmp _ | .vsel _ | .vgath _ => true
  | .vscat _ | .vtrans _ | .selk _ | .softk _ => true
  | .mma _ | .mmas _ | .mldb _ | .mst _ | .mlda _ | .mcorr _ | .rep _ => true
  | .nesti _ | .kvo _ | .kvw _ | .biasu _ | .lmld _ | .ldel _ | .lres _ | .wmf _ | .wmt _ => true
  | _ => false

/-- Whether a captured chain reads or writes a local store. -/
def chainAccesses : Instr → Bool
  | .mma _ => true
  | .mmas _ => true
  | .mldb _ => true
  | .mlda _ => true
  | .mst _ => true
  | _ => false

/-- Whether accesses to a local store that strand `t`'s sequence has begun are still to be performed, or to be issued (R259, R328). -/
def accessesLeft (s : State) (c t : Nat) : Bool :=
  let k := getCore s c
  k.rep.any (fun r => r.cx.strand == t &&
    (r.left chainAccesses || k.mq.any (fun e => !e.direct && e.moves && (!e.started || e.running))))

/-- Whether an instruction delivers a word to a slot or a queue of another core (R259). -/
def delivers : Instr → Bool
  | .send _ | .sendl _ => true
  | .mov x =>
    match x.a with
    | .m n => decide (n.toNat < 4)
    | _ => false
  | _ => false

/-- Whether a strand has posted accesses outstanding that a `fence` or a `.rel` access puts before what it delivers (R259). -/
def releasing (s : State) (c t : Nat) : Bool :=
  behindFence s c t || (getCore s c).posted.any (fun p => p.g.cx.strand == t && !p.done && !gReturns p.g.kind && p.g.ordered)

/-- Whether earlier accesses of a strand must be performed before its instruction (R254, R259, R328; log 67). -/
def orderHeld (s : State) (c t : Nat) (i : Instr) : Bool :=
  (usesStore i && behindFence s c t) || (delivers i && (accessesLeft s c t || releasing s c t))

/-- The addresses that an instruction translates in one step, each with whether it reads there (R150, R216, R312, R313). -/
def issueAddresses (s : State) (cx : Ctx) : Instr → List (Nat × Bool)
  | .kvw x =>
    let h := rd s cx x.a
    let p := ptrVal s cx x.b
    if (firstBad [checkAccess s cx p 256, checkAlign p 16]).isSome then []
    else winAddresses s cx (.kvw (bits h 11 0) (bits h 27 12) (bits x.imm 3 0) (bits x.imm 9 4) (bit x.imm 10) 0 0 [])
  | .kvc x =>
    let h := rd s cx x.a
    let n := (rd s cx x.b).toNat
    if n = 0 then [] else winAddresses s cx (.kvc (bits h 11 0) (bits h 27 12) n [] [])
  | .rep x =>
    if (getCore s cx.core).rep.isSome then []
    else ((chainAddresses s cx (nextPc cx) (bits x.imm 2 0 + 1)).filter (fun a => decide (a < 2 ^ 48))).map (fun a => (a, true))
  | .swap x => if cx.strand = 0 then swapAddresses s cx x else []
  | .ccf x => ccfAddresses s cx.core (BitVec.ofNat 32 (rd s cx x.a).toNat)
  | _ => []

/-- The bytes of local stores that an instruction reads or writes in its issue cycle: core, offset and number. -/
def issueBytes (s : State) (cx : Ctx) : Instr → List (Nat × Nat × Nat)
  | .cpy x | .cpy2 x | .cpyg x => area (rd s cx x.a) 16 48
  | .nesti x => area (rd s cx x.b) 32 32
  | .kvo x =>
    let v := rd s cx x.b
    if bits v 63 62 = 0 ∨ bits v 63 62 = 3 then area (wd (bits v 50 32)) 64 64 else []
  | .biasu x => if cx.strand = 0 then area (rd s cx x.a) 4 (4 * min (rd s cx x.c).toNat 1024) else []
  | .lmld x => if cx.strand = 0 then area (rd s cx x.a) 16 16 else []
  | .kvw x => walk (ptrVal s cx x.b) 256
  | .mcorr x => walk (ptrVal s cx x.b) 8
  | _ => []
where
  area (off : Word) (align n : Nat) : List (Nat × Nat × Nat) :=
    if (checkArea s cx off align n).isNone then [(cx.core, off.toNat, n)] else []
  walk (p : Word) (n : Nat) : List (Nat × Nat × Nat) := if (checkAccess s cx p n).isNone then spansOf (p, 0, n) else []

/-- Whether the instruction that is at its issue must wait. -/
def mustWait (s : State) (i : Instr) : Bool :=
  let cx := s.cur
  let l := issueAddresses s cx i
  performed s (argsOf i) &&
    (orderHeld s cx.core cx.strand i || !(walksOf s cx l).isEmpty || readsPending s cx l ||
      (issueBytes s cx i).any (fun x => bankTested s x.1 (bankMask x.2.1 x.2.2)))

/-- The walks that an instruction at its issue needs and has not asked for. -/
def walksLacking (s : State) (i : Instr) : List Nat :=
  (walksOf s s.cur (issueAddresses s s.cur i)).filter (fun va => !walkAsked s s.cur va)

/-- The strand waits with its instruction, and the walks that it needs are asked for. -/
def holdIssue (s : State) (i : Instr) : State := askWalks (leave s .waiting .turn false i s.cur .none) s.cur (walksLacking s i)

end Sys2Proof.Machine
end

