-- ==== Sys2Proof/Machine/Banks.lean ====
section
/-! DEFINITION. The banks of a local store as all units use them (R178, R179, Table 8.2): the runs of the matrix engine, the vector
unit, the SU, the copy engine, the lineage queue and the fetches of footprints, and the items that `wmf` and `wmt` move, beside the scalar
accesses. -/

namespace Sys2Proof.Machine

/-- A unit whose run stands at its banks: an entry of a core's matrix queue, the vector unit or the SU of a core, a copy entry with a run or with
its completion word, the head of a lineage queue, the fetch of a footprint, and a move of items. -/
inductive Runner where
  | matrix (e : MEnt)
  | unit (su : Bool) (j : UJob)
  | copy (c : Nat) (e : CopyEnt)
  | copyEnd (c : Nat) (e : CopyEnt)
  | lineage (c : Nat) (e : LinEnt)
  | fetch (c r : Nat) (j : FetchJob)
  | items (m : ItemMove)
  deriving DecidableEq, Repr

/-- The core that a run belongs to, its strand, the cycle in which it has come to its banks, its row of Table 8.2, its bank words that have
been served, and all its bank words, each with its core. -/
structure RunAt where
  who : Runner
  core : Nat
  strand : Nat
  reach : Nat
  row : Nat
  done : List (Nat × Nat)
  words : List (Nat × Nat)
  deriving DecidableEq, Repr

/-- The matrix entries of a core whose runs may be made: the first of those that take the store port, and those that read for the
array (R266). -/
def matrixRuns (s : State) (c : Nat) (k : Core) : List RunAt :=
  let l := k.mq.filter (fun e => e.running && decide (e.runAt ≤ s.now))
  let port := k.mq.find? (fun e => e.running && e.onPort)
  (l.filter (fun e => !e.onPort || port.any (fun f => f.id == e.id))).map (fun e =>
    ⟨.matrix e, c, e.cx.strand, e.runAt, 2, e.done, bankWords [(e.p, e.moved, (e.runSize s).1)]⟩)

/-- The run of a core's vector unit or SU. -/
def unitRuns (s : State) (c : Nat) (k : Core) (su : Bool) : List RunAt :=
  match k.unitQ su with
  | j :: _ =>
    let n := if su then suRuns j else j.runs
    let at_ := j.base + (if su then suRunAt j j.blk else j.runAt j.blk)
    if j.started && decide (j.blk < n) && decide (at_ ≤ s.now) then
      [⟨.unit su j, c, j.cx.strand, at_, 3, j.done, bankWords (if su then suStretches j j.blk else j.stretches s j.blk)⟩]
    else []
  | [] => []

/-- The runs of a core's copy entries, and their completion words: a run that still needs a translation or a lock uses no bank yet. -/
def copyRuns (s : State) (c : Nat) (k : Core) : List RunAt :=
  (k.copyQ.filter (copyRunDue s c)).map (fun e =>
    ⟨.copy c e, c, e.cx.strand, e.base + e.runIndex, 6, e.done, if copyNeeds s e then [] else bankWords (copyStretches s e)⟩) ++
  (k.copyQ.filter (copyEndDue s c)).map (fun e => ⟨.copyEnd c e, c, e.cx.strand, e.due, 6, e.done, bankWords e.wordStretch⟩)

/-- The run of the head of a lineage queue (R295). -/
def lineageRuns (s : State) (c : Nat) (k : Core) : List RunAt :=
  ((k.linQ.take 1).filter (lineageDue s)).map (fun e =>
    ⟨.lineage c e, c, e.cx.strand, e.base + e.moved / 256, 6, e.done, bankWords e.stretches⟩)

/-- The runs of the fetches on a core (R352). -/
def fetchRuns (s : State) (c : Nat) (k : Core) : List RunAt :=
  (k.fetches.filter (fetchDue s)).map (fun j =>
    ⟨.fetch c (j.ent.task.getD 0) j, c, 0, j.ent.base + j.ent.off, 6, j.ent.done,
      if (fetchUntranslated j).isSome then [] else bankWords (fetchStretches c j)⟩)

/-- The runs of the moves of items on a core, in their turn among the core's own requests (R151, R179). -/
def itemRuns (s : State) (c : Nat) (k : Core) : List RunAt :=
  (k.moves.filter (fun m => decide (m.reach ≤ s.now) && ownFirst s c m.reach)).map (fun m =>
    ⟨.items m, c, m.cx.strand, m.reach, 4, m.done, bankWords [(storePtr c m.off, 8 * m.moved, 8 * m.run.length)]⟩)

/-- All runs that stand at banks in this cycle. -/
def allRuns (s : State) : List RunAt :=
  s.cores.flatMap (fun (c, k) =>
    matrixRuns s c k ++ unitRuns s c k false ++ unitRuns s c k true ++ itemRuns s c k ++ copyRuns s c k ++ lineageRuns s c k ++
      fetchRuns s c k)

/-- The first word of each bank among the words that a run has still to be served: a bank serves one word in a cycle (R178). -/
def headWords : List (Nat × Nat) → List (Nat × Nat)
  | [] => []
  | w :: ws => w :: (headWords ws).filter (fun v => !sameBank w v)

/-- The bank words of a run that stand at their banks now, one at each bank. -/
def RunAt.heads (r : RunAt) : List (Nat × Nat) := headWords (r.done.foldl List.erase r.words)

/-- The request that a run makes for a bank word: on the banks of another core it is a mesh access, but for those of rank 6 (Table 8.2).
A word comes to its bank a cycle after the word before it there (log 1). -/
def RunAt.req (r : RunAt) (w : Nat × Nat) : BReq :=
  ⟨w.1, if r.row = 6 ∨ w.1 = r.core then r.row else 5, r.reach + (r.done.filter (sameBank w)).length, r.strand, r.core,
    2 ^ bankOf (16 * w.2)⟩

/-- The requests of a run that have not been served. -/
def RunAt.reqs (r : RunAt) : List BReq := r.heads.map r.req

/-- Whether a bank of a request is under self-test. -/
def underTest (s : State) (q : BReq) : Bool := bankTested s q.core q.banks

/-- Whether a request is served in this cycle (R179): its bank has served none in it, and no other request comes first there. Every
request is served within 10 cycles, were the bank to serve a second one for it (log 1), unless its bank is under test. -/
def servedNow (s : State) (all : List BReq) (q : BReq) : Bool :=
  !underTest s q && (decide (q.reach + 10 ≤ s.now) ||
  (banksFree s q.core q.banks && all.all (fun b => b.core != q.core || b.banks &&& q.banks == 0 || !b.beats s.now q)))

/-- A run all of whose bank words have been served is made. -/
def makeRun (s : State) : Runner → State
  | .matrix e => afterMove s e.cx.core e
  | .unit false j => afterRun s j
  | .unit true j => afterSuRun s j
  | .copy c e => if copyNeeds s e then askForRun s c e else afterCopyRun s c e
  | .copyEnd c e => endCopy s c e
  | .lineage c e => afterLineage s c e
  | .fetch c r j =>
    match fetchUntranslated j with
    | some va => askForPiece s c r va
    | none => afterFetchRun s c r j
  | .items m => afterItems s m

/-- A bank serves a word of a run. -/
def noteServed (s : State) (d : Nat × Nat) : Runner → State
  | .matrix e => putMatrix s e.cx.core { e with done := d :: e.done }
  | .unit su j => putJob s su { j with done := d :: j.done }
  | .copy c e => putCopy s c { e with done := d :: e.done }
  | .copyEnd c e => putCopy s c { e with done := d :: e.done }
  | .lineage c e => putLin s c { e with done := d :: e.done }
  | .fetch c r j => modFetch s c r (fun _ => { j with ent := { j.ent with done := d :: j.ent.done } })
  | .items m => modCore s m.cx.core (fun k => { k with moves := k.moves.map (fun x => if x.cx = m.cx then { x with done := d :: x.done } else x) })

/-- The first run that can be made or of which some bank serves a word now. -/
def runEvent (s : State) : Option State :=
  let runs := allRuns s
  let all := runs.flatMap RunAt.reqs ++ (s.cores.map (fun x => x.1)).flatMap (scalarReqs s)
  runs.findSome? (fun r =>
    match r.heads with
    | [] => some (makeRun s r.who)
    | l => (l.find? (fun w => servedNow s all (r.req w))).map (fun w =>
        noteServed (useBanks s (r.req w).core (r.req w).banks) w r.who))

/-- The first scalar access of the pending list that its bank serves now (R179). -/
def scalarServed (s : State) : Option Nat :=
  let all := (allRuns s).flatMap RunAt.reqs ++ (s.cores.map (fun x => x.1)).flatMap (scalarReqs s)
  s.pend.findIdx? (fun x => (locAccOf x.2).any (fun a =>
    waitsAt a s.now && ownTurn s a && servedNow s all (locReq a)))

end Sys2Proof.Machine
end

