-- ==== Sys2Proof/Machine/Sha.lean ====
section
/-! DEFINITION. SHA-384 (FIPS 180-4), the digest over which the firmware's signatures stand (R409). -/

namespace Sys2Proof.Machine

/-- The greatest number below `r + 2 ^ b` whose `k`-th power is at most `n`, found bit by bit from `r` on. -/
def rootBelow (k n : Nat) : Nat → Nat → Nat
  | 0, r => r
  | b + 1, r => rootBelow k n b (if (r + 2 ^ b) ^ k ≤ n then r + 2 ^ b else r)

/-- The first 64 bits of the fractional part of the `k`-th root of a number below 2 ^ 9. -/
def rootFraction (k n : Nat) : Word := wd (rootBelow k (n * 2 ^ (64 * k)) 70 0)

/-- Whether a number has no divisor but 1 and itself. -/
def isPrime (n : Nat) : Bool := decide (2 ≤ n) && (List.range n).all (fun d => decide (d ≤ 1) || n % d != 0)

/-- The first 80 primes. -/
def shaPrimes : List Nat := (List.range 410).filter isPrime

/-- The round constants, from the cube roots of the first 80 primes. -/
def shaK : List Word := shaPrimes.map (rootFraction 3)

/-- The initial hash value, from the square roots of the ninth to sixteenth primes. -/
def shaInit : List Word := ((shaPrimes.drop 8).take 8).map (rootFraction 2)

/-- The functions of the message schedule and of a round. -/
def shaLow0 (x : Word) : Word := x.rotateRight 1 ^^^ x.rotateRight 8 ^^^ (x >>> 7)
def shaLow1 (x : Word) : Word := x.rotateRight 19 ^^^ x.rotateRight 61 ^^^ (x >>> 6)
def shaBig0 (x : Word) : Word := x.rotateRight 28 ^^^ x.rotateRight 34 ^^^ x.rotateRight 39
def shaBig1 (x : Word) : Word := x.rotateRight 14 ^^^ x.rotateRight 18 ^^^ x.rotateRight 41

/-- The message schedule, the latest word first, `n` words on. -/
def shaSchedule : Nat → List Word → List Word
  | 0, l => l
  | n + 1, l => shaSchedule n ((shaLow1 (nth 0 l 1) + nth 0 l 6 + shaLow0 (nth 0 l 14) + nth 0 l 15) :: l)

/-- A round on the eight working words, with its constant and its word of the schedule: the fifth word chooses between the sixth and
the seventh, bit by bit, and the first three vote. -/
def shaRound (v : List Word) (kw : Word × Word) : List Word :=
  let w := fun i => nth 0 v i
  let choice := w 6 ^^^ (w 4 &&& (w 5 ^^^ w 6))
  let vote := (w 0 &&& w 1) ||| (w 2 &&& (w 0 ||| w 1))
  let fed := kw.1 + kw.2 + choice + shaBig1 (w 4) + w 7
  (fed + vote + shaBig0 (w 0)) :: (v.take 3 ++ [w 3 + fed] ++ (v.drop 4).take 3)

/-- A block of 16 words goes into the hash value. -/
def shaBlock (h block : List Word) : List Word :=
  let v := (shaK.zip (shaSchedule 64 block.reverse).reverse).foldl shaRound h
  (h.zip v).map (fun x => x.1 + x.2)

/-- The `n` big-endian words of bytes. -/
def shaWords : Nat → List Byte → List Word
  | 0, _ => []
  | n + 1, bs => wd (ofBytes (bs.take 8).reverse) :: shaWords n (bs.drop 8)

/-- A message padded to whole blocks of 128 bytes: a one bit, zeros, and its length in bits. -/
def shaPad (m : List Byte) : List Byte :=
  let z := (239 - m.length % 128) % 128
  m ++ [0x80] ++ List.replicate z 0 ++ (toBytes 16 (8 * m.length)).reverse

/-- The hash value after `n` blocks. -/
def shaBlocks : Nat → List Byte → List Word → List Word
  | 0, _, h => h
  | n + 1, bs, h => shaBlocks n (bs.drop 128) (shaBlock h (shaWords 16 bs))

/-- The 48 bytes of the digest of a message, in their order, the first byte lowest. -/
def sha384 (m : List Byte) : BitVec 384 :=
  let p := shaPad m
  BitVec.ofNat 384 (ofBytes ((shaBlocks (p.length / 128) p shaInit).take 6 |>.flatMap (fun w => (toBytes 8 w.toNat).reverse)))

end Sys2Proof.Machine
end

