-- ==== Sys2Proof/Machine/Boundaries.lean ====
section
/-! DEFINITION. Where the device meets the world (R401 to R412): fabric requests, launch messages, the management plane with its
counters, logs and debug port, errors and self-test, security, reset and bring-up. What the device answers is appended to
`replies` under the ids below. -/

namespace Sys2Proof.Machine

/-! What the outside is told. -/

/-- A fabric completion: tag, status (0 done, 1 refused), then data, 8 bytes a word. -/
def replyFabric : Nat := 2
/-- A launch message's completion: TAG and its status (R402). -/
def replyLaunch : Nat := 3
/-- A launch message refused before bring-up is complete or after an alarm (R412, R411): TAG. -/
def replyRefused : Nat := 4
/-- A management request: status (0 done, 1 refused), then values. -/
def replyMgmt : Nat := 5
/-- A debug request: status (0 done, 1 and 2 refused), then values (R146, R404). -/
def replyDebug : Nat := 6
/-- The boot status on the sideband (R409). -/
def replyBoot : Nat := 7
/-- An alarm: 0 tamper, 1 thermal (R411). -/
def replyAlarm : Nat := 8
/-- An attestation report: the bytes of its text, then of its two signatures (R410). -/
def replyAttest : Nat := 9

/-- Bytes packed into words, 8 to a word. -/
def packWords (bs : List Byte) : List Word := wordsOf (cdiv bs.length 8) bs

/-! Task pages. -/

/-- The entries of a table that hold a nonzero byte, within `span` bytes from `base`. -/
def tableEntries (s : State) (base span : Nat) : List Word :=
  (((s.mem.filter (fun x => decide (base ≤ x.1) && decide (x.1 < base + span))).map (fun x => (x.1 - base) / 8)).eraseDups).map
    (fun i => entryAt s (base + 8 * i))

/-- Whether an entry is an aligned leaf of attribute task, of a size, that covers a physical address. -/
def taskLeaf (pa size : Nat) (e : Word) : Bool :=
  entKind e == 2 && entAttr e == 0 && entAddr e % size == 0 && decide (entAddr e ≤ pa) && decide (pa < entAddr e + size)

/-- Whether a leaf of attribute task maps a physical address (R401): writes of other nodes to it are refused. -/
def taskMapped (s : State) (pa : Nat) : Bool :=
  (tableEntries s s.mgmt.walkRoot (2 ^ 21)).any (fun e1 =>
    taskLeaf pa (2 ^ 30) e1 || (entKind e1 == 1 &&
      (tableEntries s (entAddr e1) 4096).any (fun e2 =>
        taskLeaf pa (2 ^ 21) e2 || (entKind e2 == 1 && (tableEntries s (entAddr e2) 256).any (taskLeaf pa (2 ^ 16))))))

/-! Fabric (R401). -/

/-- A completion of a request. -/
def fabReply (s : State) (q : FabReq) (ok : Bool) (data : List Byte) : State :=
  reply s replyFabric (wd q.tag :: wd (!ok).toNat :: packWords data)

/-- Whether the device has left reset (R409), and firmware runs on the management controller. -/
def deviceUp (s : State) : Bool :=
  match s.mgmt.power with
  | .reset | .refused => false
  | .verified | .running => true
  | .alarm up => up

/-- Whether a request is one of Table 19.1: 1 to 256 bytes inside one aligned block of 256, at addresses of Table 10.3, of a device that is
out of reset and under no alarm (R409, R411). -/
def fabOk (s : State) (q : FabReq) : Bool :=
  deviceUp s && !alarmed s && decide (1 ≤ q.n) && decide (q.addr % 256 + q.n ≤ 256) && (inHbm q.addr || inAperture q.addr)

/-- Whether other nodes may write a place: in the HBM, outside the record pool and task pages. -/
def fabWritable (s : State) (q : FabReq) : Bool := !inPool s q.addr && !inPool s (q.addr + q.n - 1) && !taskMapped s q.addr

/-- A request comes in at its port: at a dead one, or one that does not exist, nothing does (R403, R8). -/
def atPort (q : FabReq) (k : State → State) (s : State) : Out := .next (if portDead s q.port then s else k s)

/-- FABRIC_READ (R401). -/
def execFabricRead (q : FabReq) (s : State) : Out :=
  atPort q (fun s =>
    if !fabOk s q then fabReply s q false []
    else if inAperture q.addr then fabReply s q true (counterBytes s (q.addr - apertureBase) q.n)
    else fabReply s q true (memRead s q.addr q.n)) s

/-- FABRIC_WRITE (R401): a store to the aperture is ignored (R170). -/
def execFabricWrite (q : FabReq) (s : State) : Out :=
  atPort q (fun s =>
    if !(fabOk s q && q.data.length == q.n) then fabReply s q false []
    else if inAperture q.addr then fabReply s q true []
    else if fabWritable s q then fabReply (memWrite s q.addr q.data) q true []
    else fabReply s q false []) s

/-- An atomic of another node at its home slice: the old value is returned, and a new one written. -/
def fabApply (s : State) (q : FabReq) (n : Nat) (new : Nat → Option Nat) : State :=
  if !(fabOk s q && q.n == n && q.addr % n == 0) then fabReply s q false []
  else if inAperture q.addr then fabReply s q true (counterBytes s (q.addr - apertureBase) n)
  else if fabWritable s q then
    let old := ofBytes (memRead s q.addr n)
    let s' := match new old with
      | some v => memWrite s q.addr (toBytes n v)
      | none => s
    fabReply s' q true (toBytes n old)
  else fabReply s q false []

/-- FABRIC_ATOMIC (R401): 64-bit add, swap or compare-and-swap. -/
def execFabricAtomic (q : FabReq) (op : FabAtomic) (v cmp : Word) (s : State) : Out :=
  atPort q (fun s => fabApply s q 8 (fun old =>
    match op with
    | .add => some ((old + v.toNat) % 2 ^ 64)
    | .swap => some v.toNat
    | .cas => if old = cmp.toNat then some v.toNat else none)) s

/-- FABRIC_VENDOR_ATOMIC (R401): the atomics of Table 10.5, from a peer Z940 only. -/
def execFabricVendorAtomic (q : FabReq) (k : GKind) (v cmp : Word) (s : State) : Out :=
  atPort q (fun s =>
     let n := match k with
      | .amo op => amoWidth op
      | .red op => redWidth op
      | _ => q.n
     let atomic := match k with
      | .ld | .st => false
      | .red op => decide (op.toNat < 5)
      | _ => n == 4 || n == 8
     if q.peer && atomic then
       fabApply s q n (gNew { cx := {}, kind := k, n, va := 0, data := v, cmp, dst := .none, ordered := false })
     else fabReply s q false []) s

/-- FABRIC_OTHER_REQUEST (R401): refused, without effect. -/
def execFabricOtherRequest (q : FabReq) (s : State) : Out := atPort q (fun s => fabReply s q false []) s

/-! Launch messages (R402, R269). -/

/-- Fields of a launch message (Table 19.2). -/
def launchTag (m : BitVec 128) : Word := wd (m.toNat / 2 ^ 64)
def launchDie (m : BitVec 128) : Nat := m.toNat / 4096 % 4
def launchRecord (m : BitVec 128) : Nat := m.toNat % 4096
def launchReserved (m : BitVec 128) : Bool := m.toNat % 2 ^ 64 / 2 ^ 14 != 0

/-- The stamp clock follows the timestamp of a launch message that enters a die queue (R158). -/
def clockAfter (s : State) (stamp : Nat) : Nat :=
  if s.stampClock ≤ stamp then min (stamp + 1) (2 ^ 48 - 1) else s.stampClock

/-- A launch message acts as one arming of its record (R402). -/
def applyLaunch (s : State) (m : BitVec 128) : State :=
  let r := launchRecord m
  let status := armStatus s r
  if status != 0 then reply s replyLaunch [launchTag m, wd status]
  else
    let s := armRecord s r (launchDie m)
    let s := if (getTask s r).st = .queued then { s with stampClock := clockAfter s (recStamp s r) } else s
    reply s replyLaunch [launchTag m, 0]

/-- Whether an input is a write of a node. -/
def writesBy (node : Nat) (i : Instr) : Bool :=
  match i with
  | .fabricWrite q => q.node == node
  | .fabricAtomic q _ _ _ => q.node == node
  | .fabricVendorAtomic q _ _ _ => q.node == node
  | _ => false

/-- LAUNCH_MESSAGE (R402, R269, R412): lost at a dead port, refused before bring-up is complete, refused with status 3, or held
at its port until it is checked (Table 1.8) and the earlier writes of its node are in. -/
def execLaunchMessage (port node : Nat) (m : BitVec 128) (s : State) : Out :=
  .next
    (if portDead s port then s
    else if s.mgmt.power != .running then reply s replyRefused [launchTag m]
    else if launchReserved m then reply s replyLaunch [launchTag m, 3]
    else
      let behind := (s.env.take s.envAt).filter (fun e => writesBy node e.ev)
      let g := s.mgmt
      { s with mgmt := { g with
          held := g.held ++ [{ id := g.heldNext, due := s.now + pickN s 40 0 12, port, node, m, behind }], heldNext := g.heldNext + 1 } })

/-- Whether a held message may be released: it has been checked, and no write that it waits for is still in flight. -/
def launchFree (s : State) (h : HeldMsg) : Bool := decide (h.due ≤ s.now) && h.behind.all (fun e => !s.env.contains e)

/-- LAUNCH_MESSAGE_RELEASE (R269, R402). -/
def execLaunchMessageRelease (id : Nat) (s : State) : Out :=
  .next
    (match s.mgmt.held.find? (fun h => h.id == id) with
    | some h =>
      applyLaunch { s with mgmt := { s.mgmt with held := s.mgmt.held.filter (fun x => x.id != id) } } h.m
    | none => s)

/-! Management (R404, R405). -/

/-- A management answer. -/
def mgmtReply (s : State) (status : Nat) (ws : List Word) : State := reply s replyMgmt (wd status :: ws)

/-- Whether an input is a management message (R404). -/
def managed : Instr → Bool
  | .counterRead _ | .counterClear _ | .errorLogRead _ | .ceilSet _ _ | .bringUpSetting _ | .recordImageWrite _ _ | .debugRead _ _ _
  | .debugWrite _ _ _ _ | .debugHold _ _ _ | .debugStep _ _ _ | .debugResume _ _ _ | .debugTableRead _ _ => true
  | _ => false

/-- Whether an input may be taken: a management message over the fabric only from the manager node, and not after an alarm (R401, R404,
R411). -/
def fromManager (s : State) (e : Input) : Bool :=
  match e.node with
  | some n => !managed e.ev || (s.mgmt.manager == some n && !alarmed s)
  | none => true

/-- A management request of a device that is out of reset (R409); before, none is served, and status 1 is the answer (log 41). -/
def manage (s : State) (k : State → State) : Out := .next (if deviceUp s then k s else mgmtReply s 1 [])

/-- LIVE and GHOSTS, the current counts of nodes (R291). -/
def liveNodes (s : State) : Nat := (s.nodes.filter (fun (n, (k : Node)) => n != 0 && k.valid && !k.ghost && k.resv.isNone)).length
def ghostNodes (s : State) : Nat := (s.nodes.filter (fun (n, (k : Node)) => n != 0 && k.valid && k.ghost)).length

/-- The value of a counter (Table 7.6, R291). -/
def counterValue (s : State) (x : CounterId) : Word :=
  match x with
  | .core c i => if i < 13 then (getCore s c).perfRead i s.now else 0
  | .lineage i => if i = 0 then wd (liveNodes s) else if i = 1 then wd (ghostNodes s) else getK 0 s.linCnt i

/-- COUNTER_READ (R404). -/
def execCounterRead (x : CounterId) (s : State) : Out := manage s (fun s => mgmtReply s 0 [counterValue s x])

/-- COUNTER_CLEAR (R404, R170): the current counts LIVE and GHOSTS stay what they are. -/
def execCounterClear (x : CounterId) (s : State) : Out :=
  manage s (fun s =>
    let s := match x with
      | .core c i => modCore s c (fun k => k.perfClear i s.now)
      | .lineage i => if i < 2 then s else { s with linCnt := setK s.linCnt i 0 }
    mgmtReply s 0 [])

/-- An element as words (Table 19.3). -/
def elementWords : Element → List Word
  | .lsBank c b => [1, wd c, wd b]
  | .hbmRow st r => [2, wd st, wd r]
  | .l2Way sl w => [3, wd sl, wd w]
  | .lane p l => [4, wd p, wd l]
  | .other id => [5, wd id, 0]

/-- A line of the error log as words. -/
def errWords : ErrRec → List Word
  | .error e => 1 :: elementWords e
  | .outcome e lasting => 2 :: wd lasting.toNat :: elementWords e
  | .failed r g => [3, wd r, wd g]

/-- ERROR_LOG_READ (R404). -/
def execErrorLogRead (i : Nat) (s : State) : Out :=
  manage s (fun s =>
    match s.mgmt.log[i]? with
    | some e => mgmtReply s 0 (errWords e)
    | none => mgmtReply s 1 [])

/-- CEIL_SET (R405). -/
def execCeilSet (d ceil : Nat) (s : State) : Out :=
  manage s (fun s =>
    if d < 4 ∧ 1024 ≤ ceil ∧ ceil < 2 ^ 32 then mgmtReply (setCeil s d ceil) 0 [] else mgmtReply s 1 [])

/-- THERMAL_CEIL_ADJUST (R405): the management controller moves CEIL on its own. -/
def execThermalCeilAdjust (d ceil : Nat) (s : State) : Out :=
  .next (if deviceUp s = true ∧ d < 4 ∧ 1024 ≤ ceil ∧ ceil < 2 ^ 32 then setCeil s d ceil else s)

/-- Whether a bring-up item has a value that it may have (Table 19.4, R299, R405). -/
def settingOk : BringUp → Bool
  | .root pa => decide (pa < hbmTop)
  | .kvBase va => va % 16384 == 0 && decide (va < 2 ^ 48)
  | .npages n => decide (n ≤ 2 ^ 24)
  | .lineageUnits n => decide (2 ^ 24 ≤ 16400 * n) && decide (16400 * n ≤ hbmTop)
  | .windowRecords n => decide (2048 ≤ n) && decide (n ≤ 1048576)
  | .poolBase pa => decide (pa + 0x100000 ≤ hbmTop)
  | .ceil d v => decide (d < 4) && decide (1024 ≤ v) && decide (v < 2 ^ 32)
  | .text pa bs => decide (pa + bs.length ≤ hbmTop)
  | _ => true

/-- The number of an item of bring-up, ten times its step of Table 19.4 and more; below 10 for what no step names. -/
def itemCode : BringUp → Nat
  | .selfTest _ => 10
  | .lineageUnits _ => 20
  | .windowRecords _ => 21
  | .poolBase _ => 22
  | .root _ => 40
  | .kvBase _ => 41
  | .npages _ => 42
  | .ceil d _ => 50 + d
  | .text _ _ => 54
  | .debugLock _ | .eraseOnTamper _ | .manager _ => 0

/-- The items that bring-up must set (Table 19.4); step 3 finds its tables as reset leaves them. -/
def bringUpItems : List Nat := [10, 20, 21, 22, 40, 41, 42, 50, 51, 52, 53, 54]

/-- Whether the steps before that of an item are complete (R412). -/
def stepReached (g : Mgmt) (code : Nat) : Bool :=
  code < 10 || bringUpItems.all (fun i => decide (code / 10 ≤ i / 10) || g.items.contains i)

/-- Bytes of the write-log overflow area (Table 19.4): 4,096 records of every task that can be resident, of which there are no more than records
of the pool (R344); what a record takes is the device's (log 64). -/
def overflowBytes : Nat := 4096 * 4096 * Config.logRecordBytes

/-- Whether the areas of step 2 fit into the HBM (Table 19.4): the lineage area, the bytes of the window records, the node table, the record
pool, the sequences' images and the write-log overflow (log 64). -/
def areasFit (g : Mgmt) : Bool :=
  decide (16400 * g.linUnits + 256 * g.winRoom + 16 * 2 ^ 23 + 0x100000 + 64 * 4096 + overflowBytes ≤ hbmTop)

/-- What a lasting fault does (Table 19.3, R403). -/
def retireElement (s : State) (e : Element) : State :=
  match e with
  | .lsBank c _ =>
    modCore s c (fun k => if k.spares < 2 then { k with spares := k.spares + 1 } else { k with barred := true })
  | .lane port l =>
    let s := { s with mgmt := { s.mgmt with lanesOff := (port, l) :: s.mgmt.lanesOff.filter (fun x => x != (port, l)) } }
    if portDead s port then
      let s := { s with mgmt := { s.mgmt with held := s.mgmt.held.filter (fun h => h.port != port) } }
      (s.cores.flatMap (fun (_, (k : Core)) => k.posted.filter (fun p => isRemote p.loc && p.port == port))).foldl failAtPort s
    else s
  | .l2Way sl w => { s with mgmt := { s.mgmt with waysOff := s.mgmt.waysOff ++ [(sl, w)] } }
  | _ => s

/-- Whether an item is set at bring-up only; the root and CEIL may change later (R233, R405). -/
def settingEarly : BringUp → Bool
  | .root _ => false
  | .ceil _ _ => false
  | _ => true

/-- Set an item: a root set while the device runs is used from `tlbi.alld` on (R233). -/
def applySetting (s : State) (b : BringUp) : State :=
  let put := fun (f : Mgmt → Mgmt) => { s with mgmt := f s.mgmt }
  match b with
  | .selfTest faults => faults.eraseDups.foldl retireElement s
  | .root pa => put (fun g => { g with root := pa, walkRoot := if g.power == .running then g.walkRoot else pa })
  | .kvBase va => put (fun g => { g with kvBase := va })
  | .npages n => put (fun g => { g with npages := n })
  | .lineageUnits n => put (fun g => { g with linUnits := n })
  | .windowRecords n => put (fun g => { g with winRoom := n })
  | .poolBase pa => put (fun g => { g with poolBase := some pa })
  | .ceil d v => setCeil s d v
  | .text pa bs => memWrite s pa bs
  | .debugLock x => put (fun g => { g with debugLock := x })
  | .eraseOnTamper x => put (fun g => { g with eraseOnTamper := x })
  | .manager n => put (fun g => { g with manager := some n })

/-- BRING_UP_SETTING (R412, R233, R299): an item is taken when the steps before its own are complete. -/
def execBringUpSetting (b : BringUp) (s : State) : Out :=
  .next
    (let early := s.mgmt.power == .verified
     let t := applySetting s b
     let ok := settingOk b && areasFit t.mgmt &&
       ((early && stepReached s.mgmt (itemCode b)) || (s.mgmt.power == .running && !settingEarly b))
     if ok then mgmtReply { t with mgmt := { t.mgmt with items := t.mgmt.items ++ [itemCode b] } } 0 [] else mgmtReply s 1 [])

/-- Whether a record may take an image: it is Free, Idle or Failed (R25, R348). -/
def imageFits (st : TaskState) : Bool := st == .free || st == .idle || st == .failed

/-- Write the doublewords of an image from index `i` on. -/
def writeImageDws (s : State) (r i : Nat) : List Word → State
  | [] => s
  | w :: ws => writeImageDws (setRecWord s r i w) r (i + 1) ws

/-- RECORD_IMAGE_WRITE (R344, R348): a new image makes its record Idle. -/
def execRecordImageWrite (r : Nat) (dws : List Word) (s : State) : Out :=
  manage s (fun s =>
    if r < 4096 ∧ dws.length = 32 ∧ s.mgmt.poolBase.isSome = true ∧ imageFits (getTask s r).st = true then
      mgmtReply (setTaskState (modTask (writeImageDws s r 0 dws) r (fun _ => {})) r .idle) 0 []
    else mgmtReply s 1 [])

/-! The debug port (R146, R404). -/

/-- A debug answer. -/
def debugReply (s : State) (status : Nat) (ws : List Word) : State := reply s replyDebug (wd status :: ws)

/-- A debug request under the debug lock is refused with status 2, and one to a device in reset with 1 (R404, R409). -/
def debugged (s : State) (k : State → State) : Out :=
  .next (if s.mgmt.debugLock then debugReply s 2 [] else if deviceUp s then k s else debugReply s 1 [])

/-- DEBUG_READ (R146). -/
def execDebugRead (c t i : Nat) (s : State) : Out := debugged s (fun s => debugReply s 0 [stateItem s c t i])

/-- States in which the debug port writes a strand's items (R146). -/
def debugStopped (st : StrandState) : Bool := st == .held || st == .trapped || st == .halted || st == .done

/-- Whether an item is a core item (Table 6.7). -/
def coreItem (i : Nat) : Bool := decide (192 ≤ i) && decide (i < 252)

/-- DEBUG_WRITE (R146): a g register that the strand does not have is ignored (log 40). -/
def execDebugWrite (c t i : Nat) (v : Word) (s : State) : Out :=
  debugged s (fun s =>
    let ok :=
      if coreItem i then
        (List.range 16).all (fun u => !(getStrand s c u).live || debugStopped (getStrand s c u).st)
      else debugStopped (getStrand s c t).st
    if ok then debugReply (setStateItem s c t i v true) 0 [] else debugReply s 1 [])

/-- DEBUG_HOLD (R146, R144, R145): the answer says that the hold is sent, or 1 for a Free strand. -/
def execDebugHold (c t : Nat) (gang : Bool) (s : State) : Out :=
  debugged s (fun s =>
    if (getStrand s c t).st = .free then debugReply s 1 []
    else debugReply (sendHold s c gang true (targetsOf s c t gang)) 0 [])

/-- DEBUG_STEP (R146, R145). -/
def execDebugStep (c t : Nat) (gang : Bool) (s : State) : Out :=
  debugged s (fun s =>
    let st := (getStrand s c t).st
    if st = .free then debugReply s 1 []
    else if gang || st != .held then debugReply s 2 []
    else debugReply (stepOne s c t) 0 [])

/-- The debug port's resume of one strand: a Held one, or a Halted one, which goes on after its `halt` or, after a double
fault, at cr.epc (R122, R135). -/
def debugResumeOne (s : State) (y : Target) : State :=
  let x := getStrand s y.1 y.2
  if x.st = .halted then
    modStrand s y.1 y.2 (fun x =>
      { x.setFlag 5 true with
        st := .ready, pc := if x.dfault then x.get 2 else x.pc, dfault := false, readyFrom := s.now + 1 })
  else resumeOne s y

/-- DEBUG_RESUME (R146, R135, R154): a Trapped target is left as it is, with status 2. -/
def execDebugResume (c t : Nat) (gang : Bool) (s : State) : Out :=
  debugged s (fun s =>
    if (getStrand s c t).st = .free then debugReply s 1 []
    else
      let ts := targetsOf s c t gang
      let left := ts.any (fun y => (getStrand s y.1 y.2).st == .trapped)
      debugReply (ts.foldl debugResumeOne s) (if left then 2 else 0) [])

/-- Word 1 of a node table entry (Table 12.2): node 0 has no directory (R272); where that of another lies is not stated, and free
(log 4). -/
def nodeWord1 (s : State) (n : Nat) : Word :=
  if n != 0 && (getNode s n).valid then
    wd ((getNode s n).ntiles % 2 ^ 26 * 2 ^ 38 + (Config.freeWord s.fresh (100000 + n)).toNat % 2 ^ 38)
  else 0

/-- The request records of a lock entry in the order of Table 18.2, holders first: granted, mode, a conversion's target, task,
and LCNT. -/
def lockRecords (e : LockEnt) : List (Bool × Mode × Option Mode × Option Nat × Nat) :=
  e.holders.map (fun h =>
    let conv := e.waiters.find? (fun w => w.conv && w.req.task == h.task)
    (true, h.mode, conv.map (fun w => w.mode), h.task, h.lcnt)) ++
  (e.waiters.filter (fun w => !w.conv)).map (fun w => (false, w.mode, none, w.req.task, 0))

/-- The entries of a slice. -/
def sliceEntries (s : State) (sl : Nat) : List LockEnt := s.locks.entries.filter (fun e => lockSlice e.obj == sl)

/-- The number of the first record of entry `i` of a slice: records are numbered through the slice's entries in order (R382, log 13). -/
def firstRecord (es : List LockEnt) (i : Nat) : Nat := ((es.take i).map (fun e => (lockRecords e).length)).foldl (· + ·) 0

/-- A lock table entry as two words, low first (Table 18.2). -/
def lockEntryWords (es : List LockEnt) (i : Nat) : List Word :=
  match es[i]? with
  | none => [wd (0x7FFF * 2 ^ 21), 0x1C]
  | some e =>
    let gm := match grantedJoin e with
      | some m => modeCode m
      | none => 7
    let n := e.holders.length
    let w := e.waiters.length
    let head := if n + w = 0 then 0x7FFF else firstRecord es i
    let v := 2 ^ 127 + e.obj.kind % 8 * 2 ^ 124 + e.obj.key % 2 ^ 55 * 2 ^ 69 + gm * 2 ^ 66 + n % 2 ^ 15 * 2 ^ 51 +
      w % 2 ^ 15 * 2 ^ 36 + head % 2 ^ 15 * 2 ^ 21
    [wd (v % 2 ^ 64), wd (v / 2 ^ 64)]

/-- All request records with the number of the next one of their entry. -/
def allRecords (es : List LockEnt) : List ((Bool × Mode × Option Mode × Option Nat × Nat) × Nat) :=
  (List.range es.length).flatMap (fun i =>
    let l := lockRecords (es.getD i { obj := ⟨0, 0⟩ })
    let base := firstRecord es i
    (l.zip (List.range l.length)).map (fun (r, j) => (r, if j + 1 < l.length then base + j + 1 else 0x7FFF)))

/-- A request record as two words, low first (Table 18.3). -/
def lockRecordWords (s : State) (es : List LockEnt) (i : Nat) : List Word :=
  match (allRecords es)[i]? with
  | none => [0, wd (0x7FFF * 2 ^ 27)]
  | some ((granted, mode, conv, task, lcnt), next) =>
    let (stamp, seq) := match task with
      | some r => ((getTask s r).stamp, (getTask s r).seq)
      | none => (0, 0)
    let v := 2 ^ 127 + granted.toNat * 2 ^ 126 + conv.isSome.toNat * 2 ^ 125 + modeCode mode * 2 ^ 122 +
      (match conv with | some m => modeCode m | none => 0) * 2 ^ 119 + task.isNone.toNat * 2 ^ 118 + lcnt % 4096 * 2 ^ 106 +
      next % 2 ^ 15 * 2 ^ 91 + stamp % 2 ^ 48 * 2 ^ 32 + seq % 2 ^ 32
    [wd (v % 2 ^ 64), wd (v / 2 ^ 64)]

/-- A sequence table entry: its state (0 Free, 1 Open, 2 Reserved), GEN and image. -/
def sequenceWords (q : Seq) : List Word :=
  let st : Word := match q.st with
    | .free => 0
    | .open_ => 1
    | .reserved _ => 2
  st :: wd q.gen :: q.img

/-- What a table read gives (R404); an index of the lock table counts the 4,096 entries, or the 16,384 records, of each slice (R382). -/
def tableWordsOf (s : State) (tab : DebugTable) (i : Nat) : List Word :=
  match tab with
  | .node0 => [nodeWord0 (getNode s i)]
  | .node1 => [nodeWord1 s i]
  | .lockEntry => lockEntryWords (sliceEntries s (i / 4096)) (i % 4096)
  | .lockRecord => lockRecordWords s (sliceEntries s (i / 16384)) (i % 16384)
  | .sequence => sequenceWords (getSeq s i)
  | .bias => [(getK 0 s.tables.bias i).setWidth 64]
  | .biasState => [biasState s i]
  | .adaptation => [adaptEntry s i]
  | .slot => [slotEntry s i]

/-- DEBUG_TABLE_READ (R404). -/
def execDebugTableRead (tab : DebugTable) (i : Nat) (s : State) : Out :=
  debugged s (fun s => debugReply s 0 (tableWordsOf s tab i))

/-! Errors (R406 to R408). -/

def logError (s : State) (e : ErrRec) : State := { s with mgmt := { s.mgmt with log := s.mgmt.log ++ [e] } }

/-- The error counter of an element (Table 7.1). -/
def errCount (s : State) (e : Element) : Nat := ((s.mgmt.errCnt.find? (fun x => x.1 == e)).map (fun x => x.2)).getD 0

def setErr (s : State) (e : Element) (n : Nat) : State :=
  { s with mgmt := { s.mgmt with errCnt := s.mgmt.errCnt.filter (fun x => x.1 != e) ++ [(e, n)] } }

/-- An error is detected (R406, R407): it is counted and logged, and a self-test of its element begins, unless one is under way. -/
def noteError (s : State) (e : Element) : State :=
  let s := logError (setErr s e (errCount s e + 1)) (.error e)
  if s.mgmt.testing.contains e then s
  else
  sched { s with mgmt := { s.mgmt with testing := s.mgmt.testing ++ [e] } } (s.now + pickN s 36 1 2000)
    (.selfTestComplete e (pickN s 37 0 1 == 1))

/-- ERROR_DETECTED (R406, R407). -/
def execErrorDetected (e : Element) (s : State) : Out := .next (noteError s e)

/-- SELF_TEST_COMPLETE (R407, R403): what it leaves in the element's error counter is open (Table 7.1, log 4). -/
def execSelfTestComplete (e : Element) (lasting : Bool) (s : State) : Out :=
  .next
    (let s := logError (setErr s e (Config.freeWord s.fresh 64).toNat) (.outcome e lasting)
     let s := { s with mgmt := { s.mgmt with testing := s.mgmt.testing.erase e } }
     if lasting then retireElement s e else s)

/-- An entry of a copy queue meets uncorrectable data at a byte of its next run, or in its completion word (R338): a task becomes Faulted; outside a
task the entry stops there when the run is made, in its turn behind the earlier entries of its queue (R266), and its queue records WHY 4. -/
def badCopy (s : State) (c id byte : Nat) : State :=
  match findCopy s c id with
  | none => s
  | some e =>
    match e.task with
    | some r => faultTask s r c 0x07
    | none => putCopy s c { e with bad := some byte }

/-- Uncorrectable data of a matrix entry whose strand has gone on: the fault of a sequence, held for the strand (R220, log 45). -/
def badReissue (s : State) (cx : Ctx) (addr : Word) : State :=
  if (getCore s cx.core).mq.any (fun e => !e.direct && e.cx == cx) then
    stopRep (holdFault s cx.core cx.strand ⟨0x07, addr, cx.word, false⟩) cx.core
  else s

/-- The reduction that a strand has posted and that is still to be performed. -/
def postedRed (s : State) (cx : Ctx) : Option Posted :=
  (getCore s cx.core).posted.find? (fun p => p.g.cx == cx && !p.done && !gReturns p.g.kind && !isRemote p.loc)

/-- Uncorrectable data of an instruction whose strand has gone on: a reduction is not performed, and its strand raises the fault in place of its next issue
(log 45); a reissue's is held for the strand. -/
def badBehind (s : State) (cx : Ctx) (addr : Word) : State :=
  match postedRed s cx with
  | some p => modStrand (dropPosted s cx.core p.id) cx.core cx.strand (fun x => { x with badOld := some (addr, cx.word) })
  | none => badReissue s cx addr

/-- Whether a strand is about to issue the instruction of a context: a read of its registers or its words is then that instruction's. -/
def aboutTo (s : State) (cx : Ctx) : Bool :=
  let x := getStrand s cx.core cx.strand
  x.st == .ready && x.pc == cx.addr

/-- UNCORRECTABLE_READ (R406, R408, R25): the error is noted as any other. -/
def execUncorrectableRead (u : BadRead) (s : State) : Out :=
  .next
    (let s := noteError s u.element
     match u.reader with
    | .task r core => faultTask s r core 0x07
    | .copy c id byte => badCopy s c id byte
    | .strand cx addr =>
      match cxTask s cx with
      | some r => faultTask s r cx.core 0x07
      | none =>
        if stillWaits s cx || ((postedRed s cx).isNone && aboutTo s cx) then trapAt s cx 0x07 addr else badBehind s cx addr)

/-! Security (R409 to R411). -/

/-- FIRMWARE_VERIFY (R409): both signatures over the image's digest must verify. -/
def execFirmwareVerify (image rsaSig slhSig : List Byte) (s : State) : Out :=
  .next
    (if s.mgmt.power != .reset then s
    else
      let d := sha384 image
      if Config.verifyRsa d rsaSig && Config.verifySlh d slhSig then
        { s with mgmt := { s.mgmt with power := .verified, digest := d } }
      else reply { s with mgmt := { s.mgmt with power := .refused } } replyBoot [0x0B1])

/-- The text of an attestation report (R410), its items in order, little-endian. -/
def attestText (s : State) (nonce : List Byte) : List Byte :=
  toBytes 32 Config.deviceId.toNat ++ toBytes 48 s.mgmt.digest.toNat ++ toBytes 8 Config.fuseVersion.toNat ++ nonce

/-- ATTESTATION_REQUEST (R410): refused without running firmware, without keys, or for a nonce that is not 32 bytes (log 41). -/
def execAttestationRequest (nonce : List Byte) (s : State) : Out :=
  .next
    (if nonce.length = 32 ∧ s.mgmt.keysErased = false ∧ deviceUp s = true then
      let text := attestText s nonce
      reply s replyAttest ((text ++ Config.signRsa text ++ Config.signSlh text).map (fun b => b.setWidth 64))
    else mgmtReply s 1 [])

/-- The alarm stops the device (R411): waiting power requests are refused; commits not yet released never are, and no engine completes
what it has begun. -/
def raiseAlarm (s : State) : State :=
  let s := (List.range 4).foldl (fun s d => refuseWaiting s d (fun _ => true)) s
  { s with
    mgmt := { s.mgmt with power := .alarm (deviceUp s) }
    pend := s.pend.filter (fun (_, i) =>
      match i with
      | .commitRelease _ => false
      | .matrixEntryComplete _ _ => false
      | .lineageEntryComplete _ => false
      | .copyEntryComplete _ _ => false
      | .vectorComplete _ => false
      | .selectionComplete _ => false
      | .footprintFetchComplete _ _ => false
      | _ => true) }

/-- TAMPER_ALARM (R411): as policy sets, the device keys are erased. -/
def execTamperAlarm (s : State) : Out :=
  .next
    (let s := raiseAlarm s
     reply { s with mgmt := { s.mgmt with keysErased := s.mgmt.keysErased || s.mgmt.eraseOnTamper } } replyAlarm [0])

/-- THERMAL_ALARM (R411): the keys are never erased. -/
def execThermalAlarm (s : State) : Out :=
  .next
    (let s := raiseAlarm s
     reply { s with mgmt := { s.mgmt with thermal := true } } replyAlarm [1])

/-! Reset and bring-up (R412). -/

/-- DEVICE_RESET: every register at its reset value; memory bytes, the outside's inputs, the answers given, the erased keys and what is
lastingly faulty stay (log 11). -/
def execDeviceReset (s : State) : Out :=
  .next
    { State.reset with
      fresh := s.fresh, env := s.env, replies := s.replies, mem := s.mem
      cores := s.cores.map (fun (c, (k : Core)) => (c, { ls := k.ls, spares := k.spares, barred := k.barred }))
      mgmt := { keysErased := s.mgmt.keysErased, lanesOff := s.mgmt.lanesOff, waysOff := s.mgmt.waysOff } }

/-- Whether bring-up has been through its steps (Table 19.4). -/
def bringUpDone (g : Mgmt) : Bool := bringUpItems.all g.items.contains

/-- BRING_UP_COMPLETE (R412): strand 0 of every core starts at the entry. An odd entry, or one above 48 bits, is taken as it is: the spec
states no outcome for it (DESIGN CHOICE, log 66). -/
def execBringUpComplete (entry : Word) (s : State) : Out :=
  .next
    (if s.mgmt.power == .verified && bringUpDone s.mgmt then
      let s := { s with mgmt := { s.mgmt with power := .running } }
      (List.range 1024).foldl (fun s c =>
        modCore s c (fun k => { (k.modStrand 0 (fun x => { x with pc := entry })) with started := true })) s
    else mgmtReply s 1 [])

end Sys2Proof.Machine
end

