-- ==== Sys2Proof/Machine/Control.lean ====
section
/-! DEFINITION. Page 1, control flow (R119 to R123). -/

namespace Sys2Proof.Machine

/-- A transfer to a target: bit 0 set raises 0x03, a bit of [63:48] set raises 0x06, each with the target as INFO (R61,
R119, R413). -/
def transfer (s : State) (cx : Ctx) (target : Word) (k : State → State) : State :=
  if bit target 0 then trapAt s cx 0x03 target
  else if bits target 63 48 != 0 then trapAt s cx 0x06 target
  else completeAt (k s) cx target

/-- The target of `br` and `call` (R119). -/
def dispTarget (cx : Ctx) (imm : Word) : Word := cx.addr + 2 * imm

/-- `br` (R119). -/
def execBr (x : Args) (s : State) : Out :=
  issue none x s (fun s => transfer s s.cur (dispTarget s.cur x.imm) id)

/-- `jmp` (R119). -/
def execJmp (x : Args) (s : State) : Out :=
  issue none x s (fun s => transfer s s.cur (rd s s.cur x.a + x.imm) id)

/-- `call` (R119). -/
def execCall (x : Args) (s : State) : Out :=
  issue none x s (fun s =>
    transfer s s.cur (dispTarget s.cur x.imm) (fun s => wr s s.cur x.a (nextPc s.cur)))

/-- `ret` (R119). -/
def execRet (x : Args) (s : State) : Out :=
  issue none x s (fun s => transfer s s.cur (rd s s.cur x.a) id)

/-- `nop` (R121). -/
def execNop (x : Args) (s : State) : Out := issue none x s (fun s => complete s s.cur)

/-- `halt` (R122): the strand stands Halted after the instruction, with its window and registers. It stands so after a `step` of it too, with cause
0x15 recorded (R145 and R122 do not say which state stands; DESIGN CHOICE, log 71). -/
def execHalt (x : Args) (s : State) : Out :=
  issue none x s (fun s =>
    let s := complete s s.cur
    modStrand s s.cur.core s.cur.strand (fun x => { x with st := .halted }))

/-- Whether a slot bound to the strand holds presence 1. -/
def hasMail (s : State) (c t : Nat) : Bool :=
  (List.range 28).any (fun i =>
    let x := getSlot s c (i + 4)
    x.owner == some t && x.present)

/-- `sleep` (R123). -/
def execSleep (x : Args) (s : State) : Out :=
  issue none x s (fun s =>
    if hasMail s s.cur.core s.cur.strand then complete s s.cur
    else leave s .blocked .sleep true (.sleep x) s.cur .none)

end Sys2Proof.Machine
end

