-- ==== Sys2Proof/Machine/FloatPtr.lean ====
section
/-! DEFINITION. Page 1: scalar floating point (R110 to R113), pointers (R114 to R117) and predicates (R118). -/

namespace Sys2Proof.Machine

/-- The body of a two-source floating instruction (R110). -/
def fp2Body (op : Rnd → FV → FV → FV) (x : Args) (s : State) : State :=
  let r := rndOf x.mod.toNat
  finish s s.cur x.a (fpTo (rnd32 r (op r (fpOf (rd s s.cur x.b)) (fpOf (rd s s.cur x.c)))))

/-- `fadd` (R110). -/
def execFadd (x : Args) (s : State) : Out := issue none x s (fp2Body FV.add x)

/-- `fsub` (R110). -/
def execFsub (x : Args) (s : State) : Out := issue none x s (fp2Body (fun r a b => FV.add r a b.neg) x)

/-- `fmul` (R110). -/
def execFmul (x : Args) (s : State) : Out := issue none x s (fp2Body (fun _ a b => a.mul b) x)

/-- `fmin` (R110, R78). -/
def execFmin (x : Args) (s : State) : Out := issue none x s (fp2Body (fun _ a b => a.min78 b) x)

/-- `fmax` (R110, R78). -/
def execFmax (x : Args) (s : State) : Out := issue none x s (fp2Body (fun _ a b => a.max78 b) x)

/-- `ffma` (R110): the destination is the addend. -/
def execFfma (x : Args) (s : State) : Out :=
  issue none x s (fun s => fp2Body (fun r a b => FV.add r (a.mul b) (fpOf (rd s s.cur x.a))) x s)

/-- `fabs` (R111): a bit operation. -/
def execFabs (x : Args) (s : State) : Out :=
  issue none x s (fun s => finish s s.cur x.a (wd ((rd s s.cur x.b).toNat % 2 ^ 31)))

/-- `fneg` (R111): a bit operation. -/
def execFneg (x : Args) (s : State) : Out :=
  issue none x s (fun s => finish s s.cur x.a (wd (((rd s s.cur x.b).toNat + 2 ^ 31) % 2 ^ 32)))

/-- `fexp2` (R111, R83). -/
def execFexp2 (x : Args) (s : State) : Out :=
  issue none x s (fun s => finish s s.cur x.a (fpTo (exp2 (fpOf (rd s s.cur x.b)))))

/-- `frcp` (R111, R85). -/
def execFrcp (x : Args) (s : State) : Out :=
  issue none x s (fun s => finish s s.cur x.a (fpTo (recip (fpOf (rd s s.cur x.b)))))

/-- Conversions of Table 5.8. -/
def fcvtVal (code : Nat) (v : Word) : Word :=
  match code with
  | 0 => wd ((fpOf v).toIntFmt 64 false true .rz)
  | 1 => wd ((fpOf v).toIntFmt 64 false true .ne)
  | 2 => wd ((fpOf v).toIntFmt 64 true true .rz)
  | 3 => fpTo (rne32 (FV.ofInt (signed 64 v.toNat)))
  | 4 => fpTo (rne32 (FV.ofInt v.toNat))
  | 5 => wd (bf16.encode .ne false false (fpOf v))
  | 6 => wd (fp16.encode .ne false false (fpOf v))
  | _ => fpTo (fp16.decode (v.toNat % 65536))

/-- `fcvt` (R112). -/
def execFcvt (x : Args) (s : State) : Out :=
  issue none x s (fun s => finish s s.cur x.a (fcvtVal x.mod.toNat (rd s s.cur x.b)))

/-- The body of `fcmp` (R113). -/
def fcmpBody (c : FCond) (x : Args) (s : State) : State :=
  finish s s.cur x.a (b2w (c.holds (fpOf (rd s s.cur x.b)) (fpOf (rd s s.cur x.c))))

/-- `fcmp.eq` (R113). -/
def execFcmpEq (x : Args) (s : State) : Out := issue none x s (fcmpBody .eq x)

/-- `fcmp.lt` (R113). -/
def execFcmpLt (x : Args) (s : State) : Out := issue none x s (fcmpBody .lt x)

/-- `fcmp.le` (R113). -/
def execFcmpLe (x : Args) (s : State) : Out := issue none x s (fcmpBody .le x)

/-- `fcmp.un` (R113). -/
def execFcmpUn (x : Args) (s : State) : Out := issue none x s (fcmpBody .un x)

/-! Pointers. -/

/-- `padd` (R114). -/
def execPadd (x : Args) (s : State) : Out :=
  issue none x s (fun s => finish s s.cur x.a (advanceW (rd s s.cur x.b) (rd s s.cur x.c)))

/-- A local pointer to core `c` (R115). -/
def makePtr (c : Nat) (b k : Word) : Word :=
  wd (bits k 6 4 * 2 ^ 33 + bits k 3 0 * 2 ^ 29 + c % 1024 * 2 ^ 19 + bits b 18 0)

/-- `pmk` (R115). -/
def execPmk (x : Args) (s : State) : Out :=
  issue none x s (fun s => finish s s.cur x.a (makePtr s.cur.core (rd s s.cur x.b) (rd s s.cur x.c)))

/-- Pointer items (R116). -/
def pgetItem (p : Word) (i : Nat) : Nat :=
  if ptrGlb p then (match i with | 0 => ptrFlat p | 6 => 1 | _ => 0)
  else
    match i with
    | 0 => ptrOff p
    | 1 => bits p 22 19
    | 2 => bits p 26 23
    | 3 => bits p 28 27
    | 4 => ptrSpan p
    | 5 => ptrWin p
    | 6 => 0
    | _ => ptrCore p

/-- `pget` (R116). -/
def execPget (x : Args) (s : State) : Out :=
  issue none x s (fun s => finish s s.cur x.a (wd (pgetItem (rd s s.cur x.b) x.imm.toNat)))

/-- `pmov` (R117). -/
def execPmov (x : Args) (s : State) : Out := issue none x s (fun s => finish s s.cur x.a (rd s s.cur x.b))

/-! Predicates. -/

/-- The body of a predicate instruction (R118). -/
def predBody (f : Bool → Bool → Bool) (x : Args) (s : State) : State :=
  finish s s.cur x.a (b2w (f (rd s s.cur x.b != 0) (rd s s.cur x.c != 0)))

/-- `qand` (R118). -/
def execQand (x : Args) (s : State) : Out := issue none x s (predBody (· && ·) x)

/-- `qor` (R118). -/
def execQor (x : Args) (s : State) : Out := issue none x s (predBody (· || ·) x)

/-- `qxor` (R118). -/
def execQxor (x : Args) (s : State) : Out := issue none x s (predBody (· != ·) x)

/-- `qnot` (R118). -/
def execQnot (x : Args) (s : State) : Out := issue none x s (predBody (fun a _ => !a) x)

/-- `qmov` (R118). -/
def execQmov (x : Args) (s : State) : Out := issue none x s (predBody (fun a _ => a) x)

end Sys2Proof.Machine
end

