-- ==== Sys2Proof/Machine/Scalar.lean ====
section
/-! DEFINITION. Page 0: the integer instructions (R101 to R109); `mov` stands in Links. -/

namespace Sys2Proof.Machine

/-- The body of an integer instruction with two register sources (R102): `op` gets the width, signedness and the two raw
sources. -/
def int2Body (op : Nat → Bool → Word → Word → Int) (x : Args) (s : State) : State :=
  let w := widthOf x.mod
  let u := unsignedOf x.mod
  finish s s.cur x.a (intOut (op w u (rd s s.cur x.b) (rd s s.cur x.c)) w u)

/-- The body of an integer instruction with an immediate (R103). -/
def intImmBody (op : Nat → Bool → Word → Word → Int) (x : Args) (s : State) : State :=
  let w := widthOf x.mod
  let u := unsignedOf x.mod
  finish s s.cur x.a (intOut (op w u (rd s s.cur x.b) x.imm) w u)

/-- The body of a one-source integer instruction (R104) whose 64-bit result is computed whole. -/
def int1Body (op : Nat → Bool → Word → Word) (x : Args) (s : State) : State :=
  finish s s.cur x.a (op (widthOf x.mod) (unsignedOf x.mod) (rd s s.cur x.b))

/-- The low w bits of a register. -/
def lowBits (v : Word) (w : Nat) : Nat := v.toNat % 2 ^ w

/-- The shift amount (R102). -/
def shiftBy (y : Word) (w : Nat) : Nat := y.toNat % 64 % w

/-- An operation on the exact integers of the sources. -/
def onInts (f : Int → Int → Int) (w : Nat) (u : Bool) (a b : Word) : Int := f (intIn a w u) (intIn b w u)

/-- An operation on the bit patterns of the sources. -/
def onBits (f : Nat → Nat → Nat) (w : Nat) (_ : Bool) (a b : Word) : Int := (f (lowBits a w) (lowBits b w) : Nat)

/-! Table 5.7. -/

def opAdd := onInts (· + ·)
def opSub := onInts (· - ·)
def opMul := onInts (· * ·)
def opMulh (w : Nat) (u : Bool) (a b : Word) : Int := onInts (· * ·) w u a b / ((2 ^ w : Nat) : Int)
def opDiv := onInts (fun x y => if y = 0 then -1 else Int.tdiv x y)
def opRem := onInts (fun x y => if y = 0 then x else x - y * Int.tdiv x y)
def opAnd := onBits Nat.land
def opOr := onBits Nat.lor
def opXor := onBits Nat.xor
def opAndn (w : Nat) (_ : Bool) (a b : Word) : Int := (Nat.land (lowBits a w) (2 ^ w - 1 - lowBits b w) : Nat)
def opShl (w : Nat) (u : Bool) (a b : Word) : Int := intIn a w u * ((2 ^ shiftBy b w : Nat) : Int)
def opShr (w : Nat) (_ : Bool) (a b : Word) : Int := (lowBits a w / 2 ^ shiftBy b w : Nat)
def opSar (w : Nat) (_ : Bool) (a b : Word) : Int := signed w a.toNat / ((2 ^ shiftBy b w : Nat) : Int)
def opRol (w : Nat) (_ : Bool) (a b : Word) : Int :=
  let k := shiftBy b w
  (lowBits a w * 2 ^ k % 2 ^ w + lowBits a w / 2 ^ (w - k) : Nat)
def opMin := onInts min
def opMax := onInts max

/-- The shift amount of an immediate form is the immediate modulo w (R103). -/
def immShift (f : Nat → Bool → Word → Word → Int) (w : Nat) (u : Bool) (a imm : Word) : Int :=
  f w u a (wd (imm.toNat % w))

/-! R104. -/

/-- Number of leading zero bits among the low `w`. -/
def clzBits (v : Nat) : Nat → Nat
  | 0 => 0
  | w + 1 => if v.testBit w then 0 else 1 + clzBits v w

/-- Number of trailing zero bits, looking at `n` bits from bit `i`. -/
def ctzBits (v i : Nat) : Nat → Nat
  | 0 => 0
  | n + 1 => if v.testBit i then 0 else 1 + ctzBits v (i + 1) n

/-- Number of one bits among the low `w`. -/
def popBits (v : Nat) : Nat → Nat
  | 0 => 0
  | w + 1 => (v.testBit w).toNat + popBits v w

/-- `add` (R102, Table 5.7). -/
def execAdd (x : Args) (s : State) : Out := issue none x s (int2Body opAdd x)

/-- `sub` (R102, Table 5.7). -/
def execSub (x : Args) (s : State) : Out := issue none x s (int2Body opSub x)

/-- `mul` (R102, Table 5.7). -/
def execMul (x : Args) (s : State) : Out := issue none x s (int2Body opMul x)

/-- `mulh` (R102, Table 5.7). -/
def execMulh (x : Args) (s : State) : Out := issue none x s (int2Body opMulh x)

/-- `div` (R102, Table 5.7). -/
def execDiv (x : Args) (s : State) : Out := issue none x s (int2Body opDiv x)

/-- `rem` (R102, Table 5.7). -/
def execRem (x : Args) (s : State) : Out := issue none x s (int2Body opRem x)

/-- `and` (R102, Table 5.7). -/
def execAnd (x : Args) (s : State) : Out := issue none x s (int2Body opAnd x)

/-- `or` (R102, Table 5.7). -/
def execOr (x : Args) (s : State) : Out := issue none x s (int2Body opOr x)

/-- `xor` (R102, Table 5.7). -/
def execXor (x : Args) (s : State) : Out := issue none x s (int2Body opXor x)

/-- `andn` (R102, Table 5.7). -/
def execAndn (x : Args) (s : State) : Out := issue none x s (int2Body opAndn x)

/-- `shl` (R102, Table 5.7). -/
def execShl (x : Args) (s : State) : Out := issue none x s (int2Body opShl x)

/-- `shr` (R102, Table 5.7). -/
def execShr (x : Args) (s : State) : Out := issue none x s (int2Body opShr x)

/-- `sar` (R102, Table 5.7). -/
def execSar (x : Args) (s : State) : Out := issue none x s (int2Body opSar x)

/-- `rol` (R102, Table 5.7). -/
def execRol (x : Args) (s : State) : Out := issue none x s (int2Body opRol x)

/-- `min` (R102, Table 5.7). -/
def execMin (x : Args) (s : State) : Out := issue none x s (int2Body opMin x)

/-- `max` (R102, Table 5.7). -/
def execMax (x : Args) (s : State) : Out := issue none x s (int2Body opMax x)

/-- `addi` (R103). -/
def execAddi (x : Args) (s : State) : Out := issue none x s (intImmBody opAdd x)

/-- `andi` (R103). -/
def execAndi (x : Args) (s : State) : Out := issue none x s (intImmBody opAnd x)

/-- `ori` (R103). -/
def execOri (x : Args) (s : State) : Out := issue none x s (intImmBody opOr x)

/-- `xori` (R103). -/
def execXori (x : Args) (s : State) : Out := issue none x s (intImmBody opXor x)

/-- `shli` (R103). -/
def execShli (x : Args) (s : State) : Out := issue none x s (intImmBody (immShift opShl) x)

/-- `shri` (R103). -/
def execShri (x : Args) (s : State) : Out := issue none x s (intImmBody (immShift opShr) x)

/-- `sari` (R103). -/
def execSari (x : Args) (s : State) : Out := issue none x s (intImmBody (immShift opSar) x)

/-- `roli` (R103). -/
def execRoli (x : Args) (s : State) : Out := issue none x s (intImmBody (immShift opRol) x)

/-- `clz` (R104). -/
def execClz (x : Args) (s : State) : Out := issue none x s (int1Body (fun w _ a => wd (clzBits a.toNat w)) x)

/-- `ctz` (R104). -/
def execCtz (x : Args) (s : State) : Out := issue none x s (int1Body (fun w _ a => wd (ctzBits a.toNat 0 w)) x)

/-- `popc` (R104). -/
def execPopc (x : Args) (s : State) : Out := issue none x s (int1Body (fun w _ a => wd (popBits a.toNat w)) x)

/-- `abs` (R104). -/
def execAbs (x : Args) (s : State) : Out := issue none x s (int1Body (fun w u a => intOut ((intIn a w u).natAbs : Int) w u) x)

/-- `neg` (R104). -/
def execNeg (x : Args) (s : State) : Out := issue none x s (int1Body (fun w u a => intOut (-(intIn a w u)) w u) x)

/-- `sext` (R104). -/
def execSext (x : Args) (s : State) : Out := issue none x s (int1Body (fun w _ a => BitVec.ofInt 64 (signed w a.toNat)) x)

/-- `zext` (R104). -/
def execZext (x : Args) (s : State) : Out := issue none x s (int1Body (fun w _ a => wd (lowBits a w)) x)

/-- `movi` (R106). -/
def execMovi (x : Args) (s : State) : Out := issue none x s (fun s => finish s s.cur x.a x.imm)

/-- The extracted field of R107; bits above 63 read as bit 63. -/
def bfxVal (w : Nat) (u : Bool) (b imm : Word) : Word :=
  let v := intOut (intIn b w u) w u
  let pos := bits imm 5 0
  let len := bits imm 11 6 + 1
  let f := wrapTo len (signed 64 v.toNat / ((2 ^ pos : Nat) : Int))
  if u then wd f else BitVec.ofInt 64 (signed len f)

/-- The field inserted by R107. -/
def bfiVal (w : Nat) (u : Bool) (z b imm : Word) : Word :=
  let v := intOut (intIn b w u) w u
  let pos := bits imm 5 0
  let len := bits imm 11 6 + 1
  let hi := min 63 (pos + len - 1)
  intOut (intIn (setBits z hi pos v.toNat) w u) w u

/-- `bfx` (R107). -/
def execBfx (x : Args) (s : State) : Out :=
  issue none x s (fun s => finish s s.cur x.a (bfxVal (widthOf x.mod) (unsignedOf x.mod) (rd s s.cur x.b) x.imm))

/-- `bfi` (R107). -/
def execBfi (x : Args) (s : State) : Out :=
  issue none x s (fun s =>
    finish s s.cur x.a (bfiVal (widthOf x.mod) (unsignedOf x.mod) (rd s s.cur x.a) (rd s s.cur x.b) x.imm))

/-- `sel` (R108). -/
def execSel (x : Args) (s : State) : Out :=
  issue none x s (fun s =>
    let q := (getStrand s s.cur.core s.cur.strand).pred x.mod.toNat
    finish s s.cur x.a (if q then rd s s.cur x.b else rd s s.cur x.c))

/-- The body of `cmp` (R109). -/
def cmpBody (c : Cond) (x : Args) (s : State) : State :=
  let w := widthOf x.mod
  let u := unsignedOf x.mod
  finish s s.cur x.a (b2w (c.holds (intIn (rd s s.cur x.b) w u) (intIn (rd s s.cur x.c) w u)))

/-- The body of `cmpi` (R109). -/
def cmpiBody (c : Cond) (x : Args) (s : State) : State :=
  let w := widthOf x.mod
  let u := unsignedOf x.mod
  finish s s.cur x.a (b2w (c.holds (intIn (rd s s.cur x.b) w u) (intIn x.imm w u)))

/-- `cmp.eq` (R109). -/
def execCmpEq (x : Args) (s : State) : Out := issue none x s (cmpBody .eq x)

/-- `cmp.ne` (R109). -/
def execCmpNe (x : Args) (s : State) : Out := issue none x s (cmpBody .ne x)

/-- `cmp.lt` (R109). -/
def execCmpLt (x : Args) (s : State) : Out := issue none x s (cmpBody .lt x)

/-- `cmp.le` (R109). -/
def execCmpLe (x : Args) (s : State) : Out := issue none x s (cmpBody .le x)

/-- `cmpi.eq` (R109). -/
def execCmpiEq (x : Args) (s : State) : Out := issue none x s (cmpiBody .eq x)

/-- `cmpi.ne` (R109). -/
def execCmpiNe (x : Args) (s : State) : Out := issue none x s (cmpiBody .ne x)

/-- `cmpi.lt` (R109). -/
def execCmpiLt (x : Args) (s : State) : Out := issue none x s (cmpiBody .lt x)

/-- `cmpi.le` (R109). -/
def execCmpiLe (x : Args) (s : State) : Out := issue none x s (cmpiBody .le x)

/-- `tst` (R109). -/
def execTst (x : Args) (s : State) : Out :=
  issue none x s (fun s =>
    let w := widthOf x.mod
    finish s s.cur x.a (b2w (Nat.land (lowBits (rd s s.cur x.b) w) (lowBits (rd s s.cur x.c) w) != 0)))

end Sys2Proof.Machine
end

