-- ==== Sys2Proof/Machine/Dispatch.lean ====
section
/-! DEFINITION. One arm for every constructor of `Instr`: a direct call of its meaning. -/

namespace Sys2Proof.Machine

/-- What an instruction or happening does. -/
def exec (i : Instr) (s : State) : Host.Outcome State Fault Refusal :=
  match i with
  | .add x => Sys2Proof.Machine.execAdd x s
  | .sub x => Sys2Proof.Machine.execSub x s
  | .mul x => Sys2Proof.Machine.execMul x s
  | .mulh x => Sys2Proof.Machine.execMulh x s
  | .div x => Sys2Proof.Machine.execDiv x s
  | .rem x => Sys2Proof.Machine.execRem x s
  | .and x => Sys2Proof.Machine.execAnd x s
  | .or x => Sys2Proof.Machine.execOr x s
  | .xor x => Sys2Proof.Machine.execXor x s
  | .andn x => Sys2Proof.Machine.execAndn x s
  | .shl x => Sys2Proof.Machine.execShl x s
  | .shr x => Sys2Proof.Machine.execShr x s
  | .sar x => Sys2Proof.Machine.execSar x s
  | .rol x => Sys2Proof.Machine.execRol x s
  | .min x => Sys2Proof.Machine.execMin x s
  | .max x => Sys2Proof.Machine.execMax x s
  | .addi x => Sys2Proof.Machine.execAddi x s
  | .andi x => Sys2Proof.Machine.execAndi x s
  | .ori x => Sys2Proof.Machine.execOri x s
  | .xori x => Sys2Proof.Machine.execXori x s
  | .shli x => Sys2Proof.Machine.execShli x s
  | .shri x => Sys2Proof.Machine.execShri x s
  | .sari x => Sys2Proof.Machine.execSari x s
  | .roli x => Sys2Proof.Machine.execRoli x s
  | .clz x => Sys2Proof.Machine.execClz x s
  | .ctz x => Sys2Proof.Machine.execCtz x s
  | .popc x => Sys2Proof.Machine.execPopc x s
  | .abs x => Sys2Proof.Machine.execAbs x s
  | .neg x => Sys2Proof.Machine.execNeg x s
  | .sext x => Sys2Proof.Machine.execSext x s
  | .zext x => Sys2Proof.Machine.execZext x s
  | .mov x => Sys2Proof.Machine.execMov x s
  | .movi x => Sys2Proof.Machine.execMovi x s
  | .bfx x => Sys2Proof.Machine.execBfx x s
  | .bfi x => Sys2Proof.Machine.execBfi x s
  | .sel x => Sys2Proof.Machine.execSel x s
  | .cmpEq x => Sys2Proof.Machine.execCmpEq x s
  | .cmpNe x => Sys2Proof.Machine.execCmpNe x s
  | .cmpLt x => Sys2Proof.Machine.execCmpLt x s
  | .cmpLe x => Sys2Proof.Machine.execCmpLe x s
  | .cmpiEq x => Sys2Proof.Machine.execCmpiEq x s
  | .cmpiNe x => Sys2Proof.Machine.execCmpiNe x s
  | .cmpiLt x => Sys2Proof.Machine.execCmpiLt x s
  | .cmpiLe x => Sys2Proof.Machine.execCmpiLe x s
  | .tst x => Sys2Proof.Machine.execTst x s
  | .fadd x => Sys2Proof.Machine.execFadd x s
  | .fsub x => Sys2Proof.Machine.execFsub x s
  | .fmul x => Sys2Proof.Machine.execFmul x s
  | .fmin x => Sys2Proof.Machine.execFmin x s
  | .fmax x => Sys2Proof.Machine.execFmax x s
  | .ffma x => Sys2Proof.Machine.execFfma x s
  | .fabs x => Sys2Proof.Machine.execFabs x s
  | .fneg x => Sys2Proof.Machine.execFneg x s
  | .fexp2 x => Sys2Proof.Machine.execFexp2 x s
  | .frcp x => Sys2Proof.Machine.execFrcp x s
  | .fcvt x => Sys2Proof.Machine.execFcvt x s
  | .fcmpEq x => Sys2Proof.Machine.execFcmpEq x s
  | .fcmpLt x => Sys2Proof.Machine.execFcmpLt x s
  | .fcmpLe x => Sys2Proof.Machine.execFcmpLe x s
  | .fcmpUn x => Sys2Proof.Machine.execFcmpUn x s
  | .padd x => Sys2Proof.Machine.execPadd x s
  | .pmk x => Sys2Proof.Machine.execPmk x s
  | .pget x => Sys2Proof.Machine.execPget x s
  | .pmov x => Sys2Proof.Machine.execPmov x s
  | .qand x => Sys2Proof.Machine.execQand x s
  | .qor x => Sys2Proof.Machine.execQor x s
  | .qxor x => Sys2Proof.Machine.execQxor x s
  | .qnot x => Sys2Proof.Machine.execQnot x s
  | .qmov x => Sys2Proof.Machine.execQmov x s
  | .br x => Sys2Proof.Machine.execBr x s
  | .jmp x => Sys2Proof.Machine.execJmp x s
  | .call x => Sys2Proof.Machine.execCall x s
  | .ret x => Sys2Proof.Machine.execRet x s
  | .nop x => Sys2Proof.Machine.execNop x s
  | .halt x => Sys2Proof.Machine.execHalt x s
  | .sleep x => Sys2Proof.Machine.execSleep x s
  | .ld x => Sys2Proof.Machine.execLd x s
  | .st x => Sys2Proof.Machine.execSt x s
  | .ldx x => Sys2Proof.Machine.execLdx x s
  | .stx x => Sys2Proof.Machine.execStx x s
  | .lswap x => Sys2Proof.Machine.execLswap x s
  | .lcas x => Sys2Proof.Machine.execLcas x s
  | .ladd x => Sys2Proof.Machine.execLadd x s
  | .vadd x => Sys2Proof.Machine.execVadd x s
  | .vsub x => Sys2Proof.Machine.execVsub x s
  | .vmul x => Sys2Proof.Machine.execVmul x s
  | .vfma x => Sys2Proof.Machine.execVfma x s
  | .vmin x => Sys2Proof.Machine.execVmin x s
  | .vmax x => Sys2Proof.Machine.execVmax x s
  | .vabs x => Sys2Proof.Machine.execVabs x s
  | .vneg x => Sys2Proof.Machine.execVneg x s
  | .vexp x => Sys2Proof.Machine.execVexp x s
  | .vrcp x => Sys2Proof.Machine.execVrcp x s
  | .vrsq x => Sys2Proof.Machine.execVrsq x s
  | .vcvt x => Sys2Proof.Machine.execVcvt x s
  | .vcpy x => Sys2Proof.Machine.execVcpy x s
  | .vsum x => Sys2Proof.Machine.execVsum x s
  | .vrmax x => Sys2Proof.Machine.execVrmax x s
  | .vrmin x => Sys2Proof.Machine.execVrmin x s
  | .vdot x => Sys2Proof.Machine.execVdot x s
  | .vscal x => Sys2Proof.Machine.execVscal x s
  | .vfill x => Sys2Proof.Machine.execVfill x s
  | .vclamp x => Sys2Proof.Machine.execVclamp x s
  | .vcmp x => Sys2Proof.Machine.execVcmp x s
  | .vsel x => Sys2Proof.Machine.execVsel x s
  | .vgath x => Sys2Proof.Machine.execVgath x s
  | .vscat x => Sys2Proof.Machine.execVscat x s
  | .vtrans x => Sys2Proof.Machine.execVtrans x s
  | .mma x => Sys2Proof.Machine.execMma x s
  | .mmas x => Sys2Proof.Machine.execMmas x s
  | .mldb x => Sys2Proof.Machine.execMldb x s
  | .mrot x => Sys2Proof.Machine.execMrot x s
  | .mdrop x => Sys2Proof.Machine.execMdrop x s
  | .mza x => Sys2Proof.Machine.execMza x s
  | .mst x => Sys2Proof.Machine.execMst x s
  | .mlda x => Sys2Proof.Machine.execMlda x s
  | .macc x => Sys2Proof.Machine.execMacc x s
  | .rep x => Sys2Proof.Machine.execRep x s
  | .repw x => Sys2Proof.Machine.execRepw x s
  | .mcorr x => Sys2Proof.Machine.execMcorr x s
  | .ldg x => Sys2Proof.Machine.execLdg x s
  | .stg x => Sys2Proof.Machine.execStg x s
  | .amo x => Sys2Proof.Machine.execAmo x s
  | .amoc x => Sys2Proof.Machine.execAmoc x s
  | .red x => Sys2Proof.Machine.execRed x s
  | .fence x => Sys2Proof.Machine.execFence x s
  | .pfg x => Sys2Proof.Machine.execPfg x s
  | .cpy x => Sys2Proof.Machine.execCpy x s
  | .cpy2 x => Sys2Proof.Machine.execCpy2 x s
  | .cpyg x => Sys2Proof.Machine.execCpyg x s
  | .qfence x => Sys2Proof.Machine.execQfence x s
  | .qst x => Sys2Proof.Machine.execQst x s
  | .send x => Sys2Proof.Machine.execSend x s
  | .sendl x => Sys2Proof.Machine.execSendl x s
  | .mpk x => Sys2Proof.Machine.execMpk x s
  | .mclr x => Sys2Proof.Machine.execMclr x s
  | .mbind x => Sys2Proof.Machine.execMbind x s
  | .lnks x => Sys2Proof.Machine.execLnks x s
  | .bari x => Sys2Proof.Machine.execBari x s
  | .bara x => Sys2Proof.Machine.execBara x s
  | .barw x => Sys2Proof.Machine.execBarw x s
  | .barq x => Sys2Proof.Machine.execBarq x s
  | .nesti x => Sys2Proof.Machine.execNesti x s
  | .nestn x => Sys2Proof.Machine.execNestn x s
  | .nestq x => Sys2Proof.Machine.execNestq x s
  | .waita x => Sys2Proof.Machine.execWaita x s
  | .stamp x => Sys2Proof.Machine.execStamp x s
  | .patch x => Sys2Proof.Machine.execPatch x s
  | .arm x => Sys2Proof.Machine.execArm x s
  | .tdone x => Sys2Proof.Machine.execTdone x s
  | .tq x => Sys2Proof.Machine.execTq x s
  | .tfail x => Sys2Proof.Machine.execTfail x s
  | .rqp x => Sys2Proof.Machine.execRqp x s
  | .rqt x => Sys2Proof.Machine.execRqt x s
  | .fork x => Sys2Proof.Machine.execFork x s
  | .rebase x => Sys2Proof.Machine.execRebase x s
  | .flat x => Sys2Proof.Machine.execFlat x s
  | .drop x => Sys2Proof.Machine.execDrop x s
  | .lnq x => Sys2Proof.Machine.execLnq x s
  | .ldel x => Sys2Proof.Machine.execLdel x s
  | .lres x => Sys2Proof.Machine.execLres x s
  | .kvo x => Sys2Proof.Machine.execKvo x s
  | .kvw x => Sys2Proof.Machine.execKvw x s
  | .kvc x => Sys2Proof.Machine.execKvc x s
  | .kvd x => Sys2Proof.Machine.execKvd x s
  | .kvq x => Sys2Proof.Machine.execKvq x s
  | .pgal x => Sys2Proof.Machine.execPgal x s
  | .pgfr x => Sys2Proof.Machine.execPgfr x s
  | .lock x => Sys2Proof.Machine.execLock x s
  | .lcv x => Sys2Proof.Machine.execLcv x s
  | .lq x => Sys2Proof.Machine.execLq x s
  | .lmld x => Sys2Proof.Machine.execLmld x s
  | .selk x => Sys2Proof.Machine.execSelk x s
  | .softk x => Sys2Proof.Machine.execSoftk x s
  | .hpush x => Sys2Proof.Machine.execHpush x s
  | .hpop x => Sys2Proof.Machine.execHpop x s
  | .hclr x => Sys2Proof.Machine.execHclr x s
  | .htopp x => Sys2Proof.Machine.execHtopp x s
  | .rand x => Sys2Proof.Machine.execRand x s
  | .biasu x => Sys2Proof.Machine.execBiasu x s
  | .biasf x => Sys2Proof.Machine.execBiasf x s
  | .adpl x => Sys2Proof.Machine.execAdpl x s
  | .mfc x => Sys2Proof.Machine.execMfc x s
  | .mtc x => Sys2Proof.Machine.execMtc x s
  | .start x => Sys2Proof.Machine.execStart x s
  | .reap x => Sys2Proof.Machine.execReap x s
  | .swap x => Sys2Proof.Machine.execSwap x s
  | .wmf x => Sys2Proof.Machine.execWmf x s
  | .wmt x => Sys2Proof.Machine.execWmt x s
  | .trap x => Sys2Proof.Machine.execTrap x s
  | .rft x => Sys2Proof.Machine.execRft x s
  | .brk x => Sys2Proof.Machine.execBrk x s
  | .step x => Sys2Proof.Machine.execStep x s
  | .hold x => Sys2Proof.Machine.execHold x s
  | .resume x => Sys2Proof.Machine.execResume x s
  | .tlbi x => Sys2Proof.Machine.execTlbi x s
  | .ccf x => Sys2Proof.Machine.execCcf x s
  | .localAccessComplete a => Sys2Proof.Machine.execLocalAccessComplete a s
  | .meshAccessComplete a => Sys2Proof.Machine.execMeshAccessComplete a s
  | .vectorComplete d => Sys2Proof.Machine.execVectorComplete d s
  | .selectionComplete d => Sys2Proof.Machine.execSelectionComplete d s
  | .deposit m => Sys2Proof.Machine.execDeposit m s
  | .sendAnswer cx ok => Sys2Proof.Machine.execSendAnswer cx ok s
  | .sendlStage j stage => Sys2Proof.Machine.execSendlStage j stage s
  | .linkPushEntry p => Sys2Proof.Machine.execLinkPushEntry p s
  | .barrierArriveEffect cx n => Sys2Proof.Machine.execBarrierArriveEffect cx n s
  | .barrierBindEffect cx n mask dst => Sys2Proof.Machine.execBarrierBindEffect cx n mask dst s
  | .nestLoadEffect cx n d dst => Sys2Proof.Machine.execNestLoadEffect cx n d dst s
  | .stampReturn cx dst => Sys2Proof.Machine.execStampReturn cx dst s
  | .matrixEntryComplete c id => Sys2Proof.Machine.execMatrixEntryComplete c id s
  | .l1splitTakeEffect cx v => Sys2Proof.Machine.execL1splitTakeEffect cx v s
  | .icacheFill c t lines => Sys2Proof.Machine.execIcacheFill c t lines s
  | .governorRequest c demand => Sys2Proof.Machine.execGovernorRequest c demand s
  | .translationWalkComplete g => Sys2Proof.Machine.execTranslationWalkComplete g s
  | .globalAccessComplete g loc => Sys2Proof.Machine.execGlobalAccessComplete g loc s
  | .postedAck c id => Sys2Proof.Machine.execPostedAck c id s
  | .peerTimeout c id => Sys2Proof.Machine.execPeerTimeout c id s
  | .lineageEntryComplete c => Sys2Proof.Machine.execLineageEntryComplete c s
  | .copyEntryComplete c id => Sys2Proof.Machine.execCopyEntryComplete c id s
  | .lockRequestArrival r => Sys2Proof.Machine.execLockRequestArrival r s
  | .lockGrant r => Sys2Proof.Machine.execLockGrant r s
  | .commitRelease r => Sys2Proof.Machine.execCommitRelease r s
  | .footprintFetchComplete r c => Sys2Proof.Machine.execFootprintFetchComplete r c s
  | .taskRetire r => Sys2Proof.Machine.execTaskRetire r s
  | .taskFault r core cause => Sys2Proof.Machine.execTaskFault r core cause s
  | .swapComplete j => Sys2Proof.Machine.execSwapComplete j s
  | .ccfComplete cx dst mask => Sys2Proof.Machine.execCcfComplete cx dst mask s
  | .tlbiAck cx all va => Sys2Proof.Machine.execTlbiAck cx all va s
  | .gangHoldArrival c ts dport => Sys2Proof.Machine.execGangHoldArrival c ts dport s
  | .biasuComplete cx set first vals dst => Sys2Proof.Machine.execBiasuComplete cx set first vals dst s
  | .adplApply cx b c dst => Sys2Proof.Machine.execAdplApply cx b c dst s
  | .lmldApply cx rows limit dst => Sys2Proof.Machine.execLmldApply cx rows limit dst s
  | .selfTestComplete e lasting => Sys2Proof.Machine.execSelfTestComplete e lasting s
  | .stateTransferComplete d target => Sys2Proof.Machine.execStateTransferComplete d target s
  | .nodeOperationComplete d => Sys2Proof.Machine.execNodeOperationComplete d s
  | .windowOperationComplete d => Sys2Proof.Machine.execWindowOperationComplete d s
  | .controlPlaneReply cx q dst => Sys2Proof.Machine.execControlPlaneReply cx q dst s
  | .biasBankFlip cx set tag dst => Sys2Proof.Machine.execBiasBankFlip cx set tag dst s
  | .commitStart r => Sys2Proof.Machine.execCommitStart r s
  | .bringUpSetting b => Sys2Proof.Machine.execBringUpSetting b s
  | .recordImageWrite r dws => Sys2Proof.Machine.execRecordImageWrite r dws s
  | .bringUpComplete entry => Sys2Proof.Machine.execBringUpComplete entry s
  | .launchMessage port node m => Sys2Proof.Machine.execLaunchMessage port node m s
  | .launchMessageRelease id => Sys2Proof.Machine.execLaunchMessageRelease id s
  | .illegalInstruction => Sys2Proof.Machine.execIllegalInstruction s
  | .fetchFault cause bad => Sys2Proof.Machine.execFetchFault cause bad s
  | .breakpointMatch n => Sys2Proof.Machine.execBreakpointMatch n s
  | .crTmsgPop c => Sys2Proof.Machine.execCrTmsgPop c s
  | .crL1splitWrite cx v => Sys2Proof.Machine.execCrL1splitWrite cx v s
  | .crTmrWrite c t v => Sys2Proof.Machine.execCrTmrWrite c t v s
  | .crWlimWrite c t v => Sys2Proof.Machine.execCrWlimWrite c t v s
  | .crStatW1c c t v => Sys2Proof.Machine.execCrStatW1c c t v s
  | .crAccmWrite c v => Sys2Proof.Machine.execCrAccmWrite c v s
  | .timerExpiry c t => Sys2Proof.Machine.execTimerExpiry c t s
  | .timerTrap c t => Sys2Proof.Machine.execTimerTrap c t s
  | .waitLimitExpiry c t => Sys2Proof.Machine.execWaitLimitExpiry c t s
  | .handlerEntry c => Sys2Proof.Machine.execHandlerEntry c s
  | .deferredDepositApply c slot => Sys2Proof.Machine.execDeferredDepositApply c slot s
  | .deferredBufferEntry c => Sys2Proof.Machine.execDeferredBufferEntry c s
  | .linkPopWake c t => Sys2Proof.Machine.execLinkPopWake c t s
  | .linkBlockedPushEntry c port => Sys2Proof.Machine.execLinkBlockedPushEntry c port s
  | .matrixEntryStart c id => Sys2Proof.Machine.execMatrixEntryStart c id s
  | .repReissue c => Sys2Proof.Machine.execRepReissue c s
  | .powerGrant d => Sys2Proof.Machine.execPowerGrant d s
  | .peerReply c id v ok => Sys2Proof.Machine.execPeerReply c id v ok s
  | .postedFailure c id port why => Sys2Proof.Machine.execPostedFailure c id port why s
  | .fenceComplete c t => Sys2Proof.Machine.execFenceComplete c t s
  | .lineResolve node line => Sys2Proof.Machine.execLineResolve node line s
  | .lineWriteback node line => Sys2Proof.Machine.execLineWriteback node line s
  | .lineageEntryStart c => Sys2Proof.Machine.execLineageEntryStart c s
  | .copyEntryStart c id => Sys2Proof.Machine.execCopyEntryStart c id s
  | .dieToLoomMove l => Sys2Proof.Machine.execDieToLoomMove l s
  | .loomToDieReturn l => Sys2Proof.Machine.execLoomToDieReturn l s
  | .loomChoose l => Sys2Proof.Machine.execLoomChoose l s
  | .autoDispatchStart c => Sys2Proof.Machine.execAutoDispatchStart c s
  | .uncorrectableRead u => Sys2Proof.Machine.execUncorrectableRead u s
  | .errorDetected e => Sys2Proof.Machine.execErrorDetected e s
  | .fabricRead q => Sys2Proof.Machine.execFabricRead q s
  | .fabricWrite q => Sys2Proof.Machine.execFabricWrite q s
  | .fabricAtomic q op v cmp => Sys2Proof.Machine.execFabricAtomic q op v cmp s
  | .fabricVendorAtomic q k v cmp => Sys2Proof.Machine.execFabricVendorAtomic q k v cmp s
  | .fabricOtherRequest q => Sys2Proof.Machine.execFabricOtherRequest q s
  | .counterRead which => Sys2Proof.Machine.execCounterRead which s
  | .counterClear which => Sys2Proof.Machine.execCounterClear which s
  | .errorLogRead n => Sys2Proof.Machine.execErrorLogRead n s
  | .ceilSet d ceil => Sys2Proof.Machine.execCeilSet d ceil s
  | .thermalCeilAdjust d ceil => Sys2Proof.Machine.execThermalCeilAdjust d ceil s
  | .debugRead c t n => Sys2Proof.Machine.execDebugRead c t n s
  | .debugWrite c t n v => Sys2Proof.Machine.execDebugWrite c t n v s
  | .debugHold c t gang => Sys2Proof.Machine.execDebugHold c t gang s
  | .debugStep c t gang => Sys2Proof.Machine.execDebugStep c t gang s
  | .debugResume c t gang => Sys2Proof.Machine.execDebugResume c t gang s
  | .debugTableRead tab n => Sys2Proof.Machine.execDebugTableRead tab n s
  | .attestationRequest nonce => Sys2Proof.Machine.execAttestationRequest nonce s
  | .tamperAlarm => Sys2Proof.Machine.execTamperAlarm s
  | .thermalAlarm => Sys2Proof.Machine.execThermalAlarm s
  | .deviceReset => Sys2Proof.Machine.execDeviceReset s
  | .firmwareVerify image rsaSig slhSig => Sys2Proof.Machine.execFirmwareVerify image rsaSig slhSig s

end Sys2Proof.Machine
end

