-- ==== Sys2Proof/Machine/Cycle.lean ====
section
/-! DEFINITION. The course of a core cycle: what happens at its start, the rotation (R18 to R23), the fetch of the next chain (R59,
R60), what comes about at the end of the cycle, and the clockwork of timers, wait limits and handler entry (R134, R138, R160). -/

namespace Sys2Proof.Machine

/-! The start of a cycle. -/

/-- Whether an input may come about now: a read of a pending line waits (R261), a port whose lanes are all under test carries nothing (R407),
and an answer comes no earlier than it can. -/
def inputReady (s : State) (e : Input) : Bool :=
  decide (e.due ≤ s.now) &&
  (match e.ev with
  | .fabricRead q => portOpen s q.port && !linePending s (.phys q.addr)
  | .fabricWrite q => portOpen s q.port
  | .fabricAtomic q _ _ _ => portOpen s q.port && !linePending s (.phys q.addr)
  | .fabricVendorAtomic q _ _ _ => portOpen s q.port && !linePending s (.phys q.addr)
  | .fabricOtherRequest q => portOpen s q.port
  | .launchMessage port _ _ => portOpen s port
  | .peerReply c id _ _ => replyReady s c id
  | .postedFailure c id _ _ => failureReady s c id
  | _ => true)

/-- The first input that comes about now, with its place in the list. -/
def nextInput (s : State) : Option (Nat × Input) :=
  match s.env.findIdx? (inputReady s) with
  | some i => s.env[i]?.map (fun e => (i, e))
  | none => none

/-- An input comes about; a management message of a node that is not the manager is refused, and any over the fabric after an alarm (R401,
R404, R411). -/
def takeInput (s : State) (i : Nat) (e : Input) : Out :=
  let s := { s with env := s.env.eraseIdx i, envAt := i }
  if fromManager s e then exec e.ev s else .next (mgmtReply s 1 [])

/-- Whether the word that a strand waits for has come (R319, R324). -/
def wordCame (s : State) (x : Strand) : Bool :=
  match x.wait with
  | some w =>
    x.st == .blocked &&
    (match w.why with
    | .pop n _ => (mailWord s w.cx n).isSome
    | .slot m _ => (mailWord s w.cx m).isSome
    | _ => false)
  | none => false

/-- Whether a word for a strand's wait has entered by the end of a cycle: its condition is met, though older pops may be served first (R160, R317). -/
def wordEntered (s : State) (x : Strand) : Bool :=
  match x.wait with
  | some w =>
    x.st == .blocked &&
    (match w.why with
    | .pop n _ =>
      let k := getLink s w.cx.core n
      k.claim == claimOf s w.cx.core w.cx.strand && decide (popsBefore s w.cx n < k.words.length)
    | .slot m _ => (mailWord s w.cx m).isSome
    | _ => false)
  | none => false

/-- All listed strands with their cores. -/
def allStrands (s : State) : List (Nat × Nat × Strand) :=
  s.cores.flatMap (fun (c, k) => k.strands.map (fun (t, x) => (c, t, x)))

/-- When the wait of a strand began. -/
def waitSince (x : Strand) : Nat :=
  match x.wait with
  | some w => w.since
  | none => 0

/-- The strand that is served next among those whose word has come: the oldest wait first (R317). -/
def nextWake (s : State) : Option (Nat × Nat) :=
  ((allStrands s).filter (fun y => wordCame s y.2.2)).foldl (fun (best : Option (Nat × Nat)) y =>
    match best with
    | some (c, t) => if waitSince y.2.2 < waitSince (getStrand s c t) then some (y.1, y.2.1) else best
    | none => some (y.1, y.2.1)) none

/-! The rotation. -/

/-- Whether a chain needs more words. -/
def chainOpen (ws : List IWord) : Bool :=
  match decode ws with
  | .more => true
  | _ => false

/-- The fetch of the next chain of a strand. -/
def fetchChain (s : State) (c : Nat) (x : Strand) : Fetched := fetchFrom s c x.badText chainOpen x.pc [] [] 5

/-- Whether a strand is outside its 8-cycle spacing (R18). -/
def spaced (x : Strand) (now : Nat) : Bool :=
  match x.last with
  | some l => decide (l + 8 ≤ now)
  | none => true

/-- What an eligible strand has fetched: none when it is not eligible (R18, R20, R60, R151). A strand whose next chain the instruction
cache lacks keeps the state Ready, with its timer counting, and is only not eligible: R60 says "not ready" and names no state of
Table 6.3 (DESIGN CHOICE, log 72). -/
def eligible (s : State) (c t : Nat) : Option Fetched :=
  let x := getStrand s c t
  if x.st == .ready && spaced x s.now && decide (x.readyFrom ≤ s.now) && !transferring s c t then
    match fetchChain s c x with
    | .missing _ => none
    | .untranslated _ => none
    | f => some f
  else none

/-- Whether an automatic start takes strand 0's slot (R23). -/
def dispatchDue (s : State) (c : Nat) : Bool :=
  let x := getStrand s c 0
  spaced x s.now && (x.st == .ready || x.st == .waiting || x.st == .blocked) && (autoStart s c).isSome

/-- What a core does with its slot. -/
inductive Slotted where
  | dispatch
  | strand (t : Nat) (f : Fetched)
  deriving DecidableEq, Repr

/-- The cyclic search of a core, from the strand after the last issuer on (R18). An automatic start waits for strand 0's turn in it
(R23, log 56). -/
def search (s : State) (c : Nat) : Nat → Nat → Option Slotted
  | 0, _ => none
  | n + 1, t =>
    if t == 0 && dispatchDue s c then some .dispatch
    else
      match eligible s c t with
      | some f => some (.strand t f)
      | none => search s c n ((t + 1) % 16)

/-- What core `c` issues now. -/
def coreSlot (s : State) (c : Nat) : Option Slotted :=
  let k := getCore s c
  if k.started then search s c 16 ((k.lastIssuer + 1) % 16) else none

/-- The first core from `from_` on that issues now. -/
def nextIssue (s : State) (from_ : Nat) : Option (Nat × Slotted) :=
  s.cores.findSome? (fun (c, _) => if from_ ≤ c then (coreSlot s c).map (fun x => (c, x)) else none)

/-- Strand `t` takes the core's slot (R18). -/
def takeSlot (s : State) (c t : Nat) : State :=
  modCore s c (fun k =>
    { k.modStrand t (fun x => { x with last := some s.now, badText := none, launched := false, pages := [] }) with lastIssuer := t })

/-- The breakpoint that matches at an address: the lowest (R143). At 2^48 and beyond none does, and the fetch faults (R120, R59). -/
def breakAt (x : Strand) (pc : Word) : Option (BitVec 2) :=
  if x.flag 5 then none
  else
    match (List.range 4).find? (fun i =>
        let w := x.get (13 + i)
        bit w 0 && bits w 47 1 * 2 == pc.toNat) with
    | some i => some (BitVec.ofNat 2 i)
    | none => none

/-- The word that a trap at a chain reports, and the chain's length (R57, R59). -/
def chainWord : Fetched → IWord × Nat
  | .words ws =>
    match decode ws with
    | .ok _ len w => (w, len)
    | .illegal w => (w, 0)
    | .more => (0, 0)
  | .fault _ w _ => (w, 0)
  | .missing _ => (0, 0)
  | .untranslated _ => (0, 0)

/-- The text at an address has been translated by a leaf that the loom holds: it goes into the core's buffer (R236). -/
def useText (s : State) (c : Nat) (pc : Word) : State :=
  match buffered s c pc.toNat with
  | some (l, t) => useLeaf s c l t
  | none => s

/-- The state in which strand `t` of core `c` issues the instruction at its pc: the slot is taken, and `cur` describes it. -/
def atIssue (s : State) (c t : Nat) (word : IWord) (len : Nat) : State :=
  let x := getStrand s c t
  { takeSlot (useText s c x.pc) c t with cur := { core := c, strand := t, addr := x.pc, len, word, xb := x.flag 5, at_ := s.now } }

/-- An instruction issues: ISSUED counts it, and XB has served (Table 7.6, R143). -/
def issued (s : State) : State :=
  modStrand (noteIssued s s.cur.core) s.cur.core s.cur.strand (fun x => x.setFlag 5 false)

/-- A strand's slot (R138, R143, R57, R59): a timer trap in place of the issue, the trap of a posted reduction (R408, log 45), a breakpoint, a fetch
fault, an illegal chain, or the instruction, which may have to wait first. -/
def runSlot (s : State) (c t : Nat) (f : Fetched) : Out :=
  let x := getStrand s c t
  let (word, len) := chainWord f
  let s := atIssue s c t word len
  if x.tmrHit && !(t == 0 && x.flag 6) then execTimerTrap c t s
  else
    match x.badOld with
    | some (a, w) => .next (takeTrap (modStrand s c t (fun y => { y with badOld := none })) c t 0x07 a w x.pc x.pc)
    | none =>
    match breakAt x x.pc with
    | some n => execBreakpointMatch n s
    | none =>
      match f with
      | .words ws =>
        match decode ws with
        | .ok i _ _ => if mustWait s i then .next (holdIssue s i) else exec i (issued s)
        | _ => execIllegalInstruction s
      | .fault cause _ bad => execFetchFault cause bad s
      | .missing _ => .next s
      | .untranslated _ => .next s

/-- A core uses its slot. -/
def issueOn (s : State) (c : Nat) (x : Slotted) : Out :=
  match x with
  | .dispatch => execAutoDispatchStart c (modCore (takeSlot s c 0) c (fun k => k.noteIssue s.now))
  | .strand t f => runSlot s c t f

/-! The end of a cycle. -/

/-- The first started core that satisfies a condition. -/
def findCore (s : State) (p : Nat → Core → Bool) : Option Nat :=
  (s.cores.find? (fun (c, k) => k.started && p c k)).map (fun x => x.1)

/-- The first strand whose wait satisfies a condition. -/
def findWait (s : State) (p : Nat → Nat → Wait → Bool) : Option (Nat × Nat × Wait) :=
  (allStrands s).findSome? (fun y =>
    match y.2.2.wait with
    | some w => if p y.1 y.2.1 w then some (y.1, y.2.1, w) else none
    | none => none)

/-- The matrix entry of a core that starts now (R205), `mrot` or not: one whose metadata or list lies in a bank under test waits (R407). -/
def matrixDue (s : State) (rot : Bool) (c : Nat) : Option MEnt :=
  (startable s c).filter (fun e => (e.kind == .mrot) == rot && !(bankWords e.sideStretch).any (fun w => bankTested s w.1 (2 ^ bankOf (16 * w.2))))

/-- Whether an `mrot` gives way: its successor starts one of the other slot first, behind which an `mldb` may stand that takes the Empty slot
in this cycle (R208). -/
def rotYields (s : State) (e : MEnt) : Bool := (matrixDue s true e.succ).any (fun f => f.slot != e.slot)

/-- The start of a matrix entry in this cycle: those that are no `mrot` first on all cores, so that an `mldb` takes an Empty slot before its
predecessor's shuttle (R208). -/
def matrixEvent (s : State) : Option Out :=
  let first := fun (rot : Bool) (p : MEnt → Bool) => s.cores.findSome? (fun (c, _) => ((matrixDue s rot c).filter p).map (fun e => (c, e.id)))
  (first false (fun _ => true) <|> first true (fun e => !rotYields s e) <|> first true (fun _ => true)).map (fun x =>
    execMatrixEntryStart x.1 x.2 s)

/-- The instruction at the head of a core's vector unit or SU that begins now (R189, R371). -/
def unitDue (s : State) (su : Bool) : Option UJob :=
  s.cores.findSome? (fun (_, k) => (k.unitQ su).head?.bind (fun j => if j.started then none else some j))

/-- The order in which the happenings of one end of a cycle come about: arrives by core and strand, then bindings (R162),
then deposits by sender (R322), the places that held answers of `sendl` take (R328), then what ends tasks. -/
def rank : Instr → Nat
  | .barrierArriveEffect cx _ => 1 + cx.core * 16 + cx.strand
  | .barrierBindEffect _ _ _ _ => 20000
  | .deposit m => 30000 + m.cx.core * 16 + m.cx.strand
  | .sendlStage j 2 => 30000 + j.cx.core * 16 + j.cx.strand
  | .sendlStage _ 0 => 59999
  | .taskFault _ _ _ => 60000
  | .taskRetire _ => 60001
  | _ => 0

/-- The happening that is due and comes first, with its place in the list: equal ranks keep the list's order. -/
def duePend (now : Nat) : List (Nat × Instr) → Nat → Option (Nat × Instr) → Option (Nat × Instr)
  | [], _, best => best
  | (d, ev) :: es, i, best =>
    let better :=
      match best with
      | some (_, b) => decide (rank ev < rank b)
      | none => true
    duePend now es (i + 1) (if d ≤ now ∧ better = true then some (i, ev) else best)

/-- A port of a core where a blocked push can enter (R319). -/
def pushDue (s : State) : Option (Nat × Nat) :=
  s.cores.findSome? (fun (c, k) =>
    (k.links.find? (fun (_, l) => decide (l.words.length < 4) && (firstFit l l.blocked).isSome)).map (fun x => (c, x.1)))

/-- The slot of a core whose first deferred entry is applied in this cycle: one for each core (R139, log 61). -/
def deferredDue (s : State) (c : Nat) (k : Core) : Option Nat :=
  if k.defAt = some s.now then none
  else
    (k.deferred.find? (fun e =>
      let x := getSlot s c e.slot
      x.parked.isNone &&
      (match x.owner with
      | some t =>
        let y := k.strand t
        y.st != .trapped && y.st != .swapping && decide (y.resumed < s.now)
      | none => false))).map (fun e => e.slot)

/-- A copy entry that starts now. -/
def copyDue (s : State) : Option (Nat × Nat) :=
  s.cores.findSome? (fun (c, _) => ((copyReady s c).head?).map (fun e => (c, e.id)))

/-- Blocks that a loom has taken in this cycle. -/
def taken (s : State) (l : Nat) : Nat := if (getLoom s l).tookAt.1 = s.now then (getLoom s l).tookAt.2 else 0

/-- Looms in which a record may stand or for which one waits: those of the dies with entries. -/
def loomsOf (s : State) : List Nat := (s.dies.filter (fun (_, d) => !d.queue.isEmpty)).flatMap (fun (d, _) =>
  (List.range 16).map (fun i => d * 16 + i))

/-- The loom that takes a block next (R350): two L2 cycles end in a core cycle; in each the loom with the fewest entries takes
first. -/
def moveDue (s : State) : Option Nat :=
  ((loomsOf s).filter (fun l => decide (taken s l < 2) && loomQualifies s l)).foldl (fun (best : Option Nat) l =>
    match best with
    | some b =>
      let key := fun l => taken s l * 1000 + (getLoom s l).queue.length
      if key l < key b then some l else best
    | none => some l) none

/-- A loom that has entries and no open core (R350). -/
def returnDue (s : State) : Option Nat :=
  (s.looms.find? (fun (l, k) => !k.queue.isEmpty && !loomOpen s l)).map (fun x => x.1)

/-- Whether a loom can choose an entry (R350, R351). -/
def canChoose (s : State) (l : Nat) (q : List QEnt) : Bool :=
  choosesNow s l q &&
  (match barring q with
  | some e => (gangFor s l e.rec_).isSome
  | none => (chooseFrom s l q).1.isSome)

/-- A loom that chooses an entry now. -/
def chooseDue (s : State) : Option Nat :=
  (s.looms.find? (fun (l, k) => !k.queue.isEmpty && canChoose s l k.queue)).map (fun x => x.1)

/-- A line that its home slice writes back now: which, and when, is open (R275, R414). -/
def writebackDue (s : State) : Option (Nat × Nat) :=
  s.nodes.findSome? (fun (n, k) =>
    match k.dirty with
    | (line, _) :: _ => if pickN s 26 0 1 = 1 then some (n, line) else none
    | [] => none)

/-- What the engines and buffers do in a cycle, before what is due at its end: reissues, starts, entries into freed places. -/
def engineEvent (s : State) : Option Out :=
  ((findCore s (fun c _ => repReady s c)).map (fun c => execRepReissue c s)) <|>
  matrixEvent s <|>
  ((unitDue s false).map (fun j => .next (startVec s j))) <|>
  ((unitDue s true).map (fun j => .next (suTurn s j))) <|>
  ((findCore s (fun c _ => (lineageReady s c).isSome)).map (fun c => execLineageEntryStart c s)) <|>
  ((copyDue s).map (fun x => execCopyEntryStart x.1 x.2 s)) <|>
  ((pushDue s).map (fun x => execLinkBlockedPushEntry x.1 x.2 s))

/-- What the deferred-message buffers do, when it stands which owners are Trapped at the end of the cycle (R139). -/
def deferredEvent (s : State) : Option Out :=
  ((findCore s (fun _ k => !k.heldBack.isEmpty && decide (bufferUsed k < 16))).map (fun c => execDeferredBufferEntry c s)) <|>
  ((s.cores.findSome? (fun (c, k) => (deferredDue s c k).map (fun m => (c, m)))).map (fun x => execDeferredDepositApply x.1 x.2 s))

/-- The happening at place `i` of the pending list comes about. -/
def takePend (s : State) (i : Nat) : Option Out :=
  s.pend[i]?.map (fun x => exec x.2 { s with pend := s.pend.eraseIdx i })

/-- What the banks serve now: a scalar access, or a part of an engine's run (R179). -/
def bankEvent (s : State) : Option Out := ((scalarServed s).bind (takePend s)) <|> ((runEvent s).map .next)

/-- A happening that is due: deposits and what ends tasks come late, when it stands which waits have reached their limit (R325). -/
def dueEvent (s : State) (late : Bool) : Option Out :=
  match duePend s.now s.pend 0 none with
  | some (i, ev) => if late || decide (rank ev < 30000) then some (exec ev { s with pend := s.pend.eraseIdx i }) else none
  | none => none

/-- The word of a waiting `waita` meets its condition (R342), or is read for the first time; its bank is not under test (R407). -/
def waitaMet (s : State) (w : Wait) : Bool :=
  match w.why with
  | .word cond off v =>
    !bankTested s (off / 2 ^ 19) (bankMask (off % 2 ^ 19) 8) &&
      (!w.counted || waitaHolds cond (wd (ofBytes (lsBytes s (off / 2 ^ 19) (off % 2 ^ 19) 8))) v)
  | _ => false

/-- The state in which a strand's waiting instruction stands at its issue. -/
def atTurn (s : State) (w : Wait) : State := { s with cur := w.cx }

/-- Whether a waiting instruction takes its effect now, and whether it lacks a walk that has not been asked for. -/
def turnCome (s : State) (w : Wait) : Bool := w.why == .turn && !mustWait (atTurn s w) w.instr
def turnLacks (s : State) (w : Wait) : Bool := w.why == .turn && !(walksLacking (atTurn s w) w.instr).isEmpty

/-- A waiting instruction takes its effect: it issues in this cycle (log 67). -/
def takeTurn (s : State) (w : Wait) : Out :=
  let cx := { w.cx with at_ := s.now }
  exec w.instr (issued (modStrand { s with cur := cx } cx.core cx.strand (fun x => { x with st := .ready, wait := none })))

/-- Every target of a waiting `hold` has stopped (R154). -/
def holdMet (s : State) (w : Wait) : Bool :=
  match w.why with
  | .holds ts => ts.all (fun (d, u) => stopped (getStrand s d u))
  | _ => false

/-- Nothing is outstanding that a waiting `fence` waits for (R254). -/
def fenceMet (s : State) (c t : Nat) (w : Wait) : Bool :=
  match w.why with
  | .drain sys => fenceReady s c t sys
  | _ => false

/-- A write of cr.l1split may take effect (R185). -/
def splitMet (s : State) (c : Nat) (w : Wait) : Bool :=
  match w.why with
  | .split _ => splitReady s c
  | _ => false

/-- The matrix work of the target of a waiting `reap` is over (R149). -/
def reapMet (s : State) (c : Nat) (w : Wait) : Bool :=
  match w.why with
  | .reap t => !matrixBusy (getCore s c) t
  | _ => false

/-- The value that a waiting write of cr.l1split writes. -/
def splitValue (w : Wait) : Word :=
  match w.why with
  | .split v => v
  | _ => 0

/-- Waits whose condition holds at the end of the cycle. -/
def waitEvent (s : State) : Option Out :=
  ((findWait s (fun _ _ w => turnCome s w)).map (fun y => takeTurn s y.2.2)) <|>
  ((findWait s (fun _ _ w => turnLacks s w)).map (fun y => .next (askWalks s y.2.2.cx (walksLacking (atTurn s y.2.2) y.2.2.instr)))) <|>
  ((findWait s (fun c t w => fenceMet s c t w)).map (fun y => execFenceComplete y.1 y.2.1 s)) <|>
  ((findWait s (fun _ _ w => waitaMet s w)).map (fun y => .next (settleWaita s y.1 y.2.1))) <|>
  ((findWait s (fun _ _ w => holdMet s w)).map (fun y => .next (settleHold s y.1 y.2.1))) <|>
  ((findWait s (fun c _ w => reapMet s c w)).map (fun y => .next (wakeReap s y.1))) <|>
  ((findWait s (fun c _ w => splitMet s c w)).map (fun y => execL1splitTakeEffect y.2.2.cx (splitValue y.2.2) s)) <|>
  ((findWait s (fun c _ w => tileMet s c w)).map (fun y => .next (rejoin s y.1 y.2.1))) <|>
  ((findCore s (fun c k => decide (copiesInFlight k < 1024) && (copyWaiter s c).isSome)).map (fun c => .next (fillCopies 16 s c))) <|>
  ((findCore s (fun c k => k.repNext.isSome && settleRep s c != s)).map (fun c => .next (settleRep s c)))

/-- What the control plane does at the end of a cycle: power grants, the queues, commits, launch messages, write-backs. -/
def controlEvent (s : State) : Option Out :=
  ((s.dies.find? (fun (_, g) => grantDue g)).map (fun x => execPowerGrant x.1 s)) <|>
  ((returnDue s).map (fun l => execLoomToDieReturn l s)) <|>
  ((strandedRerun s).map (fun x => .next (moveRerun s x.1 x.2))) <|>
  ((moveDue s).map (fun l => execDieToLoomMove l s)) <|>
  ((chooseDue s).map (fun l => execLoomChoose l s)) <|>
  ((s.tasks.find? (fun (r, _) => mayCommit s r)).map (fun x => execCommitStart x.1 s)) <|>
  ((s.mgmt.held.find? (launchFree s)).map (fun h => execLaunchMessageRelease h.id s)) <|>
  ((writebackDue s).map (fun x => execLineWriteback x.1 x.2 s))

/-- Whether a strand's wait is one on the engine that another core holds up (R159, R205, R229). -/
def heldUp (s : State) (c : Nat) (w : Wait) : Bool :=
  let k := getCore s c
  match w.why with
  | .matrix id =>
    match k.mq.find? (fun e => e.id == id) with
    | some e => slotBlocked s c e w.counted
    | none => false
  | .rep false =>
    match (splitQueue k.mq).2 with
    | some e => slotBlocked s c e w.counted
    | none => false
  | _ => false

/-- Whether a wait is one on the matrix engine. -/
def onEngine (w : Wait) : Bool :=
  match w.why with
  | .matrix _ => true
  | .rep false => true
  | _ => false

/-- A wait on the matrix engine is Blocked, and counted, exactly while it is held up (R159, R205). -/
def markStrand (s : State) (c : Nat) (x : Strand) : Strand :=
  match x.wait with
  | some w =>
    if onEngine w then
      let b := heldUp s c w
      if b == w.counted then x
      else { x with st := if b then .blocked else .waiting, wait := some { w with counted := b, count := 0 } }
    else x
  | none => x

/-- Mark every strand that waits on the matrix engine. -/
def markWaits (s : State) : State :=
  { s with cores := s.cores.map (fun (c, k) => (c, { k with strands := k.strands.map (fun (t, x) => (t, markStrand s c x)) })) }

/-! Expiries. -/

/-- Whether a strand's timer reaches 0 at the end of this cycle (R138). -/
def timerDue (now : Nat) (x : Strand) : Bool := x.runs && x.live && x.get 7 == 1 && x.tmrSet != some now

/-- Whether a strand's count reaches its limit at the end of this cycle and its wait stands; a timer that reaches 0 wins (R160). -/
def limitReached (s : State) (c t : Nat) : Bool :=
  let x := getStrand s c t
  match x.wait with
  | some w =>
    let limit := (x.get 6).toNat
    w.counted && limit != 0 && decide (limit ≤ w.count + 1) && !wordEntered s x && !(x.tmrHit && x.tmrSet == some s.now)
  | none => false

/-- What may still end a wait in this cycle: deposits, places in deferred buffers, and the waits that these end. -/
def wakingEvent (s : State) : Option Out := deferredEvent s <|> dueEvent s true <|> waitEvent s

/-- The state after at most `n` such happenings. -/
def afterWaking : Nat → State → State
  | 0, s => s
  | n + 1, s =>
    match wakingEvent s with
    | some (.next t) => afterWaking n t
    | _ => s

/-- As many happenings as can end waits in a cycle: each takes a pending one, a deposit held back, a deferred entry of a core, or ends
a wait. -/
def wakingBound (s : State) : Nat :=
  s.pend.length + (s.cores.map (fun x => 3 + x.2.heldBack.length + x.2.strands.length)).sum

/-- Whether a strand's wait ends by its limit in this cycle (R160): one whose condition is still met in the cycle does not. -/
def limitDue (s : State) (c t : Nat) : Bool :=
  limitReached s c t && limitReached (afterWaking (wakingBound s) s) c t

/-- Whether a strand waits for others to stop (R154). -/
def awaitsStops (x : Strand) : Bool :=
  match x.wait with
  | some w =>
    match w.why with
    | .holds _ => true
    | _ => false
  | none => false

/-- Timers, then the wait limits, those of `hold` last, since the expiry of another strand's limit may stop its target. They come before
the deposits of the cycle, which find their owners Trapped (R139, R325). -/
def expiry (s : State) : Option Out :=
  let limit := fun (h : Bool) =>
    ((allStrands s).find? (fun y => awaitsStops y.2.2 == h && limitDue s y.1 y.2.1)).map (fun y => execWaitLimitExpiry y.1 y.2.1 s)
  (((allStrands s).find? (fun y => timerDue s.now y.2.2)).map (fun y => execTimerExpiry y.1 y.2.1 s)) <|> limit false <|> limit true

/-- The handler entries (R134). -/
def handlerEvent (s : State) : Option Out := (findCore s (fun _ k => handlerDue k)).map (fun c => execHandlerEntry c s)

/-! The tick. -/

/-- A wait count a cycle later: 32 bits (Table 7.1). What follows the greatest count, which no limit has ended, is open (log 55). -/
def nextCount (s : State) (c t n : Nat) : Nat :=
  if n + 1 < 2 ^ 32 then n + 1 else if pickOf s 60 (c * 16 + t) 0 1 = 0 then 0 else n

/-- A strand at the end of a cycle: its timer and wait count, and whether its timer counts in the next cycle. -/
def tickStrand (s : State) (c t : Nat) (x : Strand) : Strand :=
  let n := (x.get 7).toNat
  let x := if x.runs && decide (2 ≤ n) && x.tmrSet != some s.now then x.set 7 (wd (n - 1)) else x
  let on := (x.st == .ready || x.st == .waiting || x.st == .blocked) && !(t == 0 && x.flag 6)
  { x with
    runs := on
    wait := x.wait.map (fun w => if w.counted then { w with count := nextCount s c t w.count } else w) }

/-- A core at the end of a cycle: MBUSY counts while the MAC array is occupied, and PGWAIT (Table 7.6). -/
def tickCore (s : State) (c : Nat) (k : Core) : Core :=
  let waits := k.rep.any (fun r => decide (1024 ≤ r.demand) && !r.granted && !r.stopped)
  let k := { k with strands := k.strands.map (fun (t, x) => (t, tickStrand s c t x)) }
  (k.perfAdd 2 (decide (s.now < k.macFree)).toNat).perfAdd 9 waits.toNat

/-- Whether a fill for a strand is under way. -/
def filling (s : State) (c t : Nat) : Bool :=
  s.pend.any (fun (_, e) =>
    match e with
    | .icacheFill d u _ => d == c && u == t
    | _ => false)

/-- The fills that Ready strands need (R60): cores, strands and lines. -/
def fillsNeeded (s : State) : List (Nat × Nat × List Nat) :=
  (s.cores.filter (fun x => x.2.started)).flatMap (fun (c, k) =>
    (List.range 16).filterMap (fun t =>
      let x := k.strand t
      if x.st == .ready && !filling s c t then
        match fetchChain s c x with
        | .missing ls => some (c, t, ls)
        | _ => none
      else none))

/-- Whether a walk for a strand's text is under way or waits for the walker. -/
def textWalking (s : State) (c t : Nat) : Bool :=
  let p := fun (w : WalkReq) => w.core == c && w.who == .text t
  (walking s (dieOf c)).any p || (getDie s (dieOf c)).walks.any p

/-- The walks that the fetch of Ready strands needs (R236). -/
def walksNeeded (s : State) : List WalkReq :=
  (s.cores.filter (fun x => x.2.started)).flatMap (fun (c, k) =>
    (List.range 16).filterMap (fun t =>
      let x := k.strand t
      if x.st == .ready && !textWalking s c t then
        match fetchChain s c x with
        | .untranslated va => some ⟨c, va, .text t⟩
        | _ => none
      else none))

/-- The greatest time of a fill (Table 10.4): that of a launch's first chain lies inside step 7 of Table 1.8 (R24). -/
def fillMost (s : State) (c t : Nat) (lines : List Nat) : Nat :=
  if (getStrand s c t).launched then launchRest s c / 2 + testDelay s
  else (lines.map (fun l => accessBound s c (.imm (256 * l)) 0)).foldl max 1

/-- The cycle ends and the next begins (R157). -/
def tick (s : State) : State :=
  let s := (walksNeeded s).foldl askWalk s
  let s := (fillsNeeded s).foldl (fun s x =>
    sched s (s.now + pickN s 28 1 (fillMost s x.1 x.2.1 x.2.2)) (.icacheFill x.1 x.2.1 x.2.2)) s
  { s with cores := s.cores.map (fun (c, k) => (c, tickCore s c k)), now := s.now + 1, turn := 0 }

/-- After an alarm only what is under way comes about, and inputs; engines make no further run (R411). -/
def alarmStep (s : State) : Out :=
  match nextInput s with
  | some (i, ev) => takeInput s i ev
  | none =>
    match ((scalarServed s).bind (takePend s)) <|> dueEvent s true with
    | some o => o
    | none => .next { s with now := s.now + 1, turn := 0 }

/-- The end of a cycle: the engines and buffers, then what is due (so that what it frees is used from the next cycle on), then
the expiries with the deposits among them, what ends tasks, what the control plane does, then the tick. -/
def endStep (s : State) : Out :=
  if s.turn ≤ 1025 then
    match engineEvent s with
    | some o => o
    | none => .next { s with turn := 1026 }
  else if s.turn = 1026 then
    match nestEvent s <|> bankEvent s <|> dueEvent s false <|> waitEvent s with
    | some o => o
    | none => .next { markWaits s with turn := 1027 }
  else
    match expiry s <|> wakingEvent s <|> controlEvent s <|> handlerEvent s with
    | some o => o
    | none => .next (tick (markWaits s))

/-- The start of a cycle: inputs, then the reads whose word has come. -/
def startEvent (s : State) : Option Out :=
  match nextInput s with
  | some (i, ev) => some (takeInput s i ev)
  | none => (nextWake s).map (fun y => execLinkPopWake y.1 y.2 s)

/-- The issues of a cycle, core by core in rising order, then its end. -/
def issueStep (s : State) : Out :=
  match nextIssue s (s.turn - 1) with
  | some (c, x) => issueOn { s with turn := c + 2 } c x
  | none => endStep { s with turn := 1025 }

/-- One step of the machine. -/
def stepOnce (s : State) : Out :=
  if alarmed s then alarmStep s
  else if s.turn = 0 then
    match startEvent s with
    | some o => o
    | none => issueStep s
  else if s.turn ≤ 1024 then issueStep s
  else endStep s

end Sys2Proof.Machine
end

