-- ==== Sys2Proof/Machine/Step.lean ====
section
/-! DEFINITION. One step of the machine, and the placing of one instruction where the next step fetches it. -/

namespace Sys2Proof.Machine

/-- One step: one instruction, one happening, or the passing of a cycle. Every step draws its free values anew. -/
def step (s : State) : Host.Outcome State Fault Refusal := stepOnce { s with fresh := s.fresh + 1 }

/-- Where `withFetchWord` puts its instruction: address 0x1000, in a page that a leaf at level 1 maps to itself. -/
def placeAt : Nat := 0x1000

/-- The leaf: kind 2, X, W, attribute immediate, physical address 0. -/
def placeLeaf : Nat := 0x72

/-- Bytes of words, low byte first. -/
def wordBytes (ws : List IWord) : List Byte := ws.flatMap (fun w => toBytes 2 w.toNat)

/-- Place the instruction that an opcode-table word stands for where strand 0 of core 0 fetches next: the device is running,
the page is mapped and its leaf in the core's buffer, the line is in the instruction cache, and the strand is Ready there and first in the rotation. -/
def State.withFetchWord (s : State) (nbits w : Nat) : State :=
  let s := { s with
    mem := (s.mem.writeN 0 (toBytes 8 placeLeaf)).writeN placeAt (wordBytes (tableWords nbits w))
    mgmt := { s.mgmt with power := .running, root := 0, walkRoot := 0 }
    turn := 1 }
  modCore s 0 (fun k =>
    { k.modStrand 0 (fun x => { x with
        st := .ready, pc := wd placeAt, last := none, wait := none, tmrHit := false, readyFrom := 0 }) with
      started := true, tlb := [{ base := 0, size := 2 ^ 30, entry := wd placeLeaf }], lastIssuer := 15, icache := [placeAt / 256] })

end Sys2Proof.Machine
end

