-- ==== Sys2Proof/Safety.lean ====
section
/-! DEFINITION. What counts as a safe state and a safe run, and the terms the statements use. Nothing ends a run of this machine:
every step answers a next state (R130 to R135), so safety is an invariant of the states, not the absence of a stop. -/

namespace Sys2Proof

open Machine

/-- Every memory of the machine keeps its canonical form: global memory and the store of every core (log 2). -/
def MemWf (s : State) : Prop := s.mem.wf = true ∧ ∀ e ∈ s.cores, e.2.ls.wf = true

/-- A step that answers a next state. -/
def StepsTo (s t : State) : Prop := step s = .next t

/-- Reachable from a state by finitely many steps. -/
inductive Reaches (s : State) : State → Prop where
  | refl : Reaches s s
  | tail (t u : State) (h : Reaches s t) (k : StepsTo t u) : Reaches s u

/-- An invariant: every step that answers a next state keeps it. -/
def KeptByStep (p : State → Prop) : Prop := ∀ s t : State, p s → StepsTo s t → p t

/-! Conditions of an instruction. -/

/-- The issuing strand and its core. -/
abbrev curStrand (s : State) : Strand := getStrand s s.cur.core s.cur.strand
abbrev curCore (s : State) : Core := getCore s s.cur.core

/-- The guard performs the instruction (R54) and its g registers lie in the window (R91). -/
def Performs (s : State) (x : Args) : Prop := performed s x = true ∧ argsInWindow s x = true

/-- Nothing ends a strand's course when its instruction completes: no single step (R145), no hold (R144), no timer trap at the
end of a wait (R138). -/
def Undisturbed (x : Strand) : Prop := x.dbg 1 = false ∧ x.holdReq = false ∧ (x.st = .waiting → x.tmrHit = false)

/-- The issuing strand is in the rotation (R44), undisturbed. -/
def InRotation (s : State) : Prop := (curStrand s).st = .ready ∧ Undisturbed (curStrand s)

/-- The strand of a context waits for the completion of that instruction, undisturbed. -/
def Awaits (s : State) (cx : Ctx) : Prop :=
  stillWaits s cx = true ∧ Undisturbed (getStrand s cx.core cx.strand)

/-- What a destination reads as when `v` has been written to it (R52, R97, R98): k keeps 32 bits, q keeps whether the value is
nonzero, q0 reads 1. -/
def readsAs (o : Opnd) (v : Word) : Word :=
  match o with
  | .g _ => v
  | .s _ => v
  | .p _ => v
  | .k _ => (v.setWidth 32).setWidth 64
  | .q n => if n = 0 then 1 else b2w (v != 0)
  | _ => 0

/-! Frames. -/

/-- The machine outside its cores is as before. -/
def OutsideSame (s t : State) : Prop := { t with cores := [] } = { s with cores := [] }

/-- Every byte of global memory and of every local store reads as before. -/
def BytesSame (s t : State) : Prop :=
  (∀ a, t.mem.read a = s.mem.read a) ∧ ∀ c a, lsRead t c a = lsRead s c a

/-- Every core but `c`, and every strand of `c` but `u`, is as before. -/
def OthersSame (s t : State) (c u : Nat) : Prop :=
  (∀ d, d ≠ c → getCore t d = getCore s d) ∧ ∀ v, v ≠ u → getStrand t c v = getStrand s c v

/-- What a core holds besides its strands, register file and shared registers. -/
def coreBody (k : Core) : Core := { k with strands := [], rf := [], shared := [] }

/-- What a strand holds besides its state, pc, wait, pointers, predicates and nest indices, and the cycle from which on it may issue:
its control registers, debug and timer state. -/
def strandBody (x : Strand) : Strand :=
  { x with st := .ready, pc := 0, wait := none, readyFrom := 0, ptrs := [], preds := 0, kidx := [] }

/-- Of the registers of the context `cx`, only the operand `o` may differ: general, shared, pointer, predicate and nest-index registers,
the register file outside the strand's window, and the core's control registers. -/
structure OnlyRegister (s t : State) (cx : Ctx) (o : Opnd) : Prop where
  reads : ∀ p, p ≠ o → rd t cx p = rd s cx p
  file : ∀ j, (∀ n, o = .g n → j ≠ (getStrand s cx.core cx.strand).base + n.toNat) →
    getK 0 (getCore t cx.core).rf j = getK 0 (getCore s cx.core).rf j
  shared : ∀ r, (∀ n, o = .s n → r ≠ n.toNat) →
    getK [] (getCore t cx.core).shared r = getK [] (getCore s cx.core).shared r

/-- The frame of an instruction that writes one register: nothing else of the machine differs but the strand's pc. -/
structure RegisterFrame (s t : State) (cx : Ctx) (o : Opnd) : Prop where
  outside : OutsideSame s t
  bytes : BytesSame s t
  others : OthersSame s t cx.core cx.strand
  core : coreBody (getCore t cx.core) = coreBody (getCore s cx.core)
  strand : strandBody (getStrand t cx.core cx.strand) = strandBody (getStrand s cx.core cx.strand)
  registers : OnlyRegister s t cx o

/-- The strand of `cx` is in the rotation at `pc`. -/
def GoesOn (t : State) (cx : Ctx) (pc : Word) : Prop :=
  (getStrand t cx.core cx.strand).st = .ready ∧ (getStrand t cx.core cx.strand).pc = pc ∧
  (getStrand t cx.core cx.strand).wait = none

/-- The issuing strand waits, for `why`, at its instruction; no register of it differs. -/
structure Leaves (s t : State) (st : StrandState) (why : Why) (counted : Bool) : Prop where
  state : (curStrand t).st = st
  wait : ∃ w, (curStrand t).wait = some w ∧ w.why = why ∧ w.cx = s.cur ∧ w.counted = counted ∧ w.since = s.now
  pc : (curStrand t).pc = (curStrand s).pc
  strand : strandBody (curStrand t) = strandBody (curStrand s)
  registers : ∀ p, rd t s.cur p = rd s s.cur p

/-- The frame of an instruction that only leaves the rotation until a happening `ev` comes about in cycle `due`; `why` is `.prompt` for one that
shows Waiting only when it takes more than 8 cycles (R19, R180). -/
structure LeavesUntil (s t : State) (due : Nat) (ev : Instr) (why : Why := .flight) : Prop where
  leaves : Leaves s t .waiting why false
  pend : t.pend = s.pend ++ [(due, ev)]
  outside : { t with cores := [], pend := [] } = { s with cores := [], pend := [] }
  bytes : BytesSame s t
  others : OthersSame s t s.cur.core s.cur.strand
  core : { curCore t with strands := [] } = { curCore s with strands := [] }

end Sys2Proof
end

