-- ==== Sys2Proof/Certificates/Slice0/Obligations.lean ====
section
/-! DEFINITION. The statements for the provers. `Claims` holds what they share: the results that the spec's tables give, written
from the tables over the sources as bit vectors of the operation's width. -/

namespace Sys2Proof.Claims

open Machine

/-- The value of an operand of the issuing strand at issue. -/
abbrev src (s : State) (o : Opnd) : Word := rd s s.cur o

/-- A result of w bits extended to 64 (R101). -/
def ext (w : Nat) (u : Bool) (y : BitVec w) : Word := if u then y.setWidth 64 else y.signExtend 64

/-- A result as a function of width, signedness and the two sources. -/
abbrev IntFn := (w : Nat) → Bool → BitVec w → BitVec w → BitVec w

/-- The instruction answers the next state in which `o` holds `v` and nothing else of the machine differs but the pc, which stands at
the next instruction. -/
def Gives (i : Instr) (s : State) (o : Opnd) (v : Word) : Prop :=
  ∃ t, exec i s = .next t ∧ rd t s.cur o = readsAs o v ∧ RegisterFrame s t s.cur o ∧ GoesOn t s.cur (nextPc s.cur)

/-- The instruction takes a trap with a cause and INFO and none of its effect: what a trap does is TrapEntry's. -/
def Traps (i : Instr) (s : State) (cause : Byte) (info : Word) : Prop := exec i s = .next (trapAt s s.cur cause info)

/-- Each of the instructions, performed with a g register outside the window, raises cause 0x19 (R91). -/
def ForeignWindow (f : Args → List Instr) : Prop :=
  ∀ (x : Args) (s : State), performed s x = true → argsInWindow s x = false → ∀ i ∈ f x, Traps i s 0x19 0

def addFn : IntFn := fun _ _ a b => a + b
def andFn : IntFn := fun _ _ a b => a &&& b
def orFn : IntFn := fun _ _ a b => a ||| b
def xorFn : IntFn := fun _ _ a b => a ^^^ b
def shlFn : IntFn := fun w _ a b => a <<< (b.toNat % w)
def shrFn : IntFn := fun w _ a b => a >>> (b.toNat % w)
def sarFn : IntFn := fun w _ a b => a.sshiftRight (b.toNat % w)
def rolFn : IntFn := fun w _ a b => a.rotateLeft (b.toNat % w)

/-- Table 5.7. The shift amount is the low 6 bits modulo w; w divides 64, so it is the source modulo w. -/
def twoSource : List ((Args → Instr) × IntFn) := [
  (.add, addFn), (.sub, fun _ _ a b => a - b), (.mul, fun _ _ a b => a * b),
  (.mulh, fun w u a b =>
    if u then BitVec.ofNat w (a.toNat * b.toNat / 2 ^ w) else BitVec.ofInt w (a.toInt * b.toInt / 2 ^ w)),
  (.div, fun w u a b => if b = 0 then BitVec.allOnes w else if u then a / b else a.sdiv b),
  (.rem, fun _ u a b => if b = 0 then a else if u then a % b else a.srem b),
  (.and, andFn), (.or, orFn), (.xor, xorFn), (.andn, fun _ _ a b => a &&& ~~~b),
  (.shl, shlFn), (.shr, shrFn), (.sar, sarFn), (.rol, rolFn),
  (.min, fun _ u a b => if (if u then a.ule b else a.sle b) then a else b),
  (.max, fun _ u a b => if (if u then a.ule b else a.sle b) then b else a)]

/-- R103: the operation of the same name with the immediate as its second source. -/
def immSource : List ((Args → Instr) × IntFn) := [
  (.addi, addFn), (.andi, andFn), (.ori, orFn), (.xori, xorFn), (.shli, shlFn), (.shri, shrFn), (.sari, sarFn), (.roli, rolFn)]

/-- R104, the results that are words of w bits. -/
def oneSource : List ((Args → Instr) × ((w : Nat) → Bool → BitVec w → Word)) := [
  (.abs, fun w u a => ext w u (if u then a else if a.msb then -a else a)),
  (.neg, fun w u a => ext w u (-a)),
  (.sext, fun _ _ a => a.signExtend 64),
  (.zext, fun _ _ a => a.setWidth 64)]

/-- R104, the counts: the number of leading zeros, of trailing zeros and of one bits among w bits. -/
def countSource : List ((Args → Instr) × ((w : Nat) → BitVec w → Nat → Prop)) := [
  (.clz, fun w a n => n ≤ w ∧ a.toNat < 2 ^ (w - n) ∧ (n < w → a.getLsbD (w - 1 - n) = true)),
  (.ctz, fun w a n => n ≤ w ∧ a.toNat % 2 ^ n = 0 ∧ (n < w → a.getLsbD n = true)),
  (.popc, fun w a n => n = ((List.range w).filter (fun j => a.getLsbD j)).length)]

/-- The field of `len` bits from bit `pos` (R107), bits above 63 reading as bit 63. -/
def fieldAt (v : Word) (pos len : Nat) : BitVec len := (v.sshiftRight pos).setWidth len

/-- `into` with the low `len` bits of `v` at bit `pos` on; bits beyond 63 fall off (R107). -/
def insertAt (into v : Word) (pos len : Nat) : Word :=
  let mask : Word := ((BitVec.allOnes len).setWidth 64) <<< pos
  (into &&& ~~~mask) ||| ((v <<< pos) &&& mask)

/-- The comparisons of R109. -/
def holds (w : Nat) (u : Bool) (k : Nat) (a b : BitVec w) : Bool :=
  match k with
  | 0 => a == b
  | 1 => a != b
  | 2 => if u then a.ult b else a.slt b
  | _ => if u then a.ule b else a.sle b

def comparisons : List ((Args → Instr) × Nat) := [(.cmpEq, 0), (.cmpNe, 1), (.cmpLt, 2), (.cmpLe, 3)]
def immComparisons : List ((Args → Instr) × Nat) := [(.cmpiEq, 0), (.cmpiNe, 1), (.cmpiLt, 2), (.cmpiLe, 3)]

end Sys2Proof.Claims

open Sys2Proof Sys2Proof.Machine Sys2Proof.Claims

/-- R102, Table 5.7: each two-source integer instruction gives its result of w bits, extended, and completes; frame. -/
def Sys2Proof.Claims.TwoSourceResults : Prop :=
  ∀ (x : Args) (s : State), Performs s x → InRotation s → ∀ r ∈ twoSource,
    Gives (r.1 x) s x.a
      (ext (widthOf x.mod) (unsignedOf x.mod)
        (r.2 (widthOf x.mod) (unsignedOf x.mod) ((src s x.b).setWidth _) ((src s x.c).setWidth _)))

/-- R103: each immediate form. -/
def Sys2Proof.Claims.ImmediateResults : Prop :=
  ∀ (x : Args) (s : State), Performs s x → InRotation s → ∀ r ∈ immSource,
    Gives (r.1 x) s x.a
      (ext (widthOf x.mod) (unsignedOf x.mod)
        (r.2 (widthOf x.mod) (unsignedOf x.mod) ((src s x.b).setWidth _) (x.imm.setWidth _)))

/-- R102, R103: the two-source integer operations, and the forms with an immediate: their results, and their trap 0x19. -/
def Obligations.IntegerResults : Prop :=
  Sys2Proof.Claims.TwoSourceResults ∧ Sys2Proof.Claims.ImmediateResults ∧
  ForeignWindow (fun x => (twoSource ++ immSource).map (fun r => r.1 x))

/-- R104, R106, R107, R108: one source, counts, the immediate move, bit fields and the choice by a predicate; and their
trap 0x19. -/
def Obligations.OneSourceResults : Prop :=
  (∀ (x : Args) (s : State), Performs s x → InRotation s →
    let w := widthOf x.mod
    let u := unsignedOf x.mod
    (∀ r ∈ oneSource, Gives (r.1 x) s x.a (r.2 w u ((src s x.b).setWidth w))) ∧
    (∀ r ∈ countSource, ∃ n, r.2 w ((src s x.b).setWidth w) n ∧ Gives (r.1 x) s x.a (BitVec.ofNat 64 n)) ∧
    Gives (.movi x) s x.a x.imm ∧
    Gives (.bfx x) s x.a
      (ext _ u (fieldAt (ext w u ((src s x.b).setWidth w)) (bits x.imm 5 0) (bits x.imm 11 6 + 1))) ∧
    Gives (.bfi x) s x.a
      (ext w u ((insertAt (src s x.a) (ext w u ((src s x.b).setWidth w)) (bits x.imm 5 0) (bits x.imm 11 6 + 1)).setWidth w)) ∧
    Gives (.sel x) s x.a (if (curStrand s).pred x.mod.toNat then src s x.b else src s x.c)) ∧
  ForeignWindow (fun x => oneSource.map (fun r => r.1 x) ++ countSource.map (fun r => r.1 x) ++
    [.movi x, .bfx x, .bfi x, .sel x])

/-- R109: the comparisons and the bit test give 1 or 0; and their trap 0x19. -/
def Obligations.CompareResults : Prop :=
  (∀ (x : Args) (s : State), Performs s x → InRotation s →
    let w := widthOf x.mod
    let u := unsignedOf x.mod
    (∀ r ∈ comparisons, Gives (r.1 x) s x.a (b2w (holds w u r.2 ((src s x.b).setWidth w) ((src s x.c).setWidth w)))) ∧
    (∀ r ∈ immComparisons, Gives (r.1 x) s x.a (b2w (holds w u r.2 ((src s x.b).setWidth w) (x.imm.setWidth w)))) ∧
    Gives (.tst x) s x.a (b2w (((src s x.b) &&& (src s x.c)).setWidth w != 0))) ∧
  ForeignWindow (fun x => (comparisons ++ immComparisons).map (fun r => r.1 x) ++ [.tst x])


namespace Sys2Proof.Claims

/-- The FP32 value in an operand (R110). -/
abbrev fsrc (s : State) (o : Opnd) : FV := fpOf (src s o)

/-- R110, R111, R112: results of one rounding of the exact sum or product in the direction of the modifier, bit operations, and the
operators of R78, R83 and R85. -/
def floatResults : List ((Args → Instr) × (State → Args → Word)) := [
  (.fadd, fun s x => let r := rndOf x.mod.toNat
    fpTo (rnd32 r (FV.sum (r == .rdn) [fsrc s x.b, fsrc s x.c]))),
  (.fsub, fun s x => let r := rndOf x.mod.toNat
    fpTo (rnd32 r (FV.sum (r == .rdn) [fsrc s x.b, (fsrc s x.c).neg]))),
  (.fmul, fun s x => fpTo (rnd32 (rndOf x.mod.toNat) ((fsrc s x.b).mul (fsrc s x.c)))),
  (.fmin, fun s x => fpTo (rnd32 (rndOf x.mod.toNat) ((fsrc s x.b).min78 (fsrc s x.c)))),
  (.fmax, fun s x => fpTo (rnd32 (rndOf x.mod.toNat) ((fsrc s x.b).max78 (fsrc s x.c)))),
  (.ffma, fun s x => let r := rndOf x.mod.toNat
    fpTo (rnd32 r (FV.sum (r == .rdn) [(fsrc s x.b).mul (fsrc s x.c), fsrc s x.a]))),
  (.fabs, fun s x => (src s x.b) &&& 0x7FFFFFFF),
  (.fneg, fun s x => ((src s x.b) ^^^ 0x80000000) &&& 0xFFFFFFFF),
  (.fexp2, fun s x => fpTo (exp2 (fsrc s x.b))),
  (.frcp, fun s x => fpTo (recip (fsrc s x.b))),
  (.fcmpEq, fun s x => b2w ((fsrc s x.b).eqv (fsrc s x.c))),
  (.fcmpLt, fun s x => b2w ((fsrc s x.b).lt (fsrc s x.c))),
  (.fcmpLe, fun s x => b2w ((fsrc s x.b).le (fsrc s x.c))),
  (.fcmpUn, fun s x => b2w ((fsrc s x.b).isNan || (fsrc s x.c).isNan))]

/-- Table 5.8, by the modifier. -/
def conversions : List (Word → Word) := [
  fun v => BitVec.ofNat 64 ((fpOf v).toIntFmt 64 false true .rz),
  fun v => BitVec.ofNat 64 ((fpOf v).toIntFmt 64 false true .ne),
  fun v => BitVec.ofNat 64 ((fpOf v).toIntFmt 64 true true .rz),
  fun v => fpTo (rne32 (FV.ofInt v.toInt)),
  fun v => fpTo (rne32 (FV.ofInt v.toNat)),
  fun v => BitVec.ofNat 64 (bf16.encode .ne false false (fpOf v)),
  fun v => BitVec.ofNat 64 (fp16.encode .ne false false (fpOf v)),
  fun v => fpTo (fp16.decode (v.toNat % 65536))]

/-- R118. -/
def predicates : List ((Args → Instr) × (Bool → Bool → Bool)) := [
  (.qand, fun a b => a && b), (.qor, fun a b => a || b), (.qxor, fun a b => a != b), (.qnot, fun a _ => !a), (.qmov, fun a _ => a)]

/-- The fields of a local pointer to a core (Table 5.3). -/
structure IsLocal (v : Word) (core off span win : Nat) : Prop where
  core : ptrCore v = core
  off : ptrOff v = off
  span : ptrSpan v = span
  win : ptrWin v = win
  glb : ptrGlb v = false
  top : bits v 63 37 = 0

/-- `p` advanced by `inc` (R94): a global pointer moves its 48-bit address; a local pointer moves its position of
min(SPAN + 8, 19) bits, and what leaves the position moves COL and ROW; nothing else of the pointer changes. -/
def Advanced (p : Word) (inc : Int) (v : Word) : Prop :=
  if ptrGlb p then
    (ptrFlat v : Int) = ((ptrFlat p : Int) + inc) % 2 ^ 48 ∧ ptrGlb v = true ∧ bits v 63 49 = bits p 63 49
  else
    let b := min (ptrSpan p + 8) 19
    let pos : Int := (bits p (b - 1) 0 : Int) + inc
    (bits v (b - 1) 0 : Int) = pos % 2 ^ b ∧
    (bits v 26 19 : Int) = ((bits p 26 19 : Int) + pos / 2 ^ b) % 2 ^ 8 ∧
    (∀ j, b ≤ j → j < 19 → bit v j = bit p j) ∧ bits v 63 27 = bits p 63 27

end Sys2Proof.Claims

/-- R110, R111, R113: scalar floating-point results. -/
def Obligations.FloatResults : Prop :=
  ∀ (x : Args) (s : State), Performs s x → InRotation s → ∀ r ∈ floatResults, Gives (r.1 x) s x.a (r.2 s x)

/-- R112, Table 5.8: every conversion of `fcvt`. -/
def Obligations.FcvtResults : Prop :=
  ∀ (x : Args) (s : State), Performs s x → InRotation s → ∀ f, conversions[x.mod.toNat]? = some f →
    Gives (.fcvt x) s x.a (f (src s x.b))

/-- R94, R114: `padd` advances a pointer, or raises 0x19. -/
def Obligations.PointerAdvance : Prop :=
  (∀ (x : Args) (s : State), Performs s x → InRotation s →
    ∃ v, Advanced (src s x.b) (src s x.c).toInt v ∧ Gives (.padd x) s x.a v) ∧
  ForeignWindow (fun x => [.padd x])

/-- R115, R116, R117, R118: building, reading and copying a pointer, with their trap 0x19, and the predicate
operations. -/
def Obligations.PointerAndPredicateResults : Prop :=
  (∀ (x : Args) (s : State), Performs s x → InRotation s →
    (∃ v, IsLocal v (s.cur.core % 1024) (bits (src s x.b) 18 0) (bits (src s x.c) 3 0) (bits (src s x.c) 6 4) ∧
      Gives (.pmk x) s x.a v) ∧
    (∀ v ∈ (if ptrGlb (src s x.b) then [ptrFlat (src s x.b), 0, 0, 0, 0, 0, 1, 0]
        else [bits (src s x.b) 18 0, bits (src s x.b) 22 19, bits (src s x.b) 26 23, bits (src s x.b) 28 27,
          bits (src s x.b) 32 29, bits (src s x.b) 35 33, 0, bits (src s x.b) 28 19])[x.imm.toNat]?,
      Gives (.pget x) s x.a (BitVec.ofNat 64 v)) ∧
    Gives (.pmov x) s x.a (src s x.b) ∧
    ∀ r ∈ predicates, Gives (r.1 x) s x.a (b2w (r.2 (src s x.b != 0) (src s x.c != 0)))) ∧
  ForeignWindow (fun x => [.pmk x, .pget x, .pmov x])

namespace Sys2Proof.Claims

/-- The instruction transfers control to `pc`, `o` holding `v`. -/
def GoesTo (i : Instr) (s : State) (o : Opnd) (v pc : Word) : Prop :=
  ∃ t, exec i s = .next t ∧ rd t s.cur o = readsAs o v ∧ RegisterFrame s t s.cur o ∧ GoesOn t s.cur pc

/-- The targets of the transfers (R119) with the register each writes and its value. -/
def transfers : List ((Args → Instr) × (State → Args → Word) × (Args → Opnd)) := [
  (.br, fun s x => s.cur.addr + 2 * x.imm, fun _ => .none),
  (.jmp, fun s x => src s x.a + x.imm, fun _ => .none),
  (.call, fun s x => s.cur.addr + 2 * x.imm, fun x => x.a),
  (.ret, fun s x => src s x.a, fun _ => .none)]

end Sys2Proof.Claims

/-- R119, R61, R413: a transfer to an even address below 2^48 goes there, and `call` leaves the return address; bit 0 of the target
raises 0x03, a bit above 47 raises 0x06, each with the target as INFO. -/
def Obligations.TransferResults : Prop :=
  ∀ (x : Args) (s : State), Performs s x → InRotation s → ∀ r ∈ transfers,
    let target := r.2.1 s x
    (target.getLsbD 0 = false → target.toNat < 2 ^ 48 →
      GoesTo (r.1 x) s (r.2.2 x) (s.cur.addr + BitVec.ofNat 64 s.cur.len) target) ∧
    (target.getLsbD 0 = true → Traps (r.1 x) s 0x03 target) ∧
    (target.getLsbD 0 = false → 2 ^ 48 ≤ target.toNat → Traps (r.1 x) s 0x06 target)

namespace Sys2Proof.Claims

/-- A deposit slot of the issuing core. -/
abbrev curSlot (s : State) (m : Nat) : Slot := getSlot s s.cur.core m

/-- What a core holds besides registers, strands and deposit slots. -/
def slotless (k : Core) : Core := { coreBody k with slots := [] }

end Sys2Proof.Claims

/-- R121, R122, R123: `nop` only advances; `halt` leaves the strand Halted after the instruction with its registers; `sleep` goes on
when a bound slot holds a word and else is Blocked at its instruction. -/
def Sys2Proof.Claims.NopHaltSleep : Prop :=
  ∀ (x : Args) (s : State), Performs s x → InRotation s →
    Gives (.nop x) s .none 0 ∧
    (∃ t, exec (.halt x) s = .next t ∧ RegisterFrame s t s.cur .none ∧ (curStrand t).st = .halted ∧
      (curStrand t).pc = nextPc s.cur ∧ (curStrand t).wait = none) ∧
    ((∃ m, 4 ≤ m ∧ m < 32 ∧ (curSlot s m).owner = some s.cur.strand ∧ (curSlot s m).present = true) →
      Gives (.sleep x) s .none 0) ∧
    ((∀ m, 4 ≤ m → m < 32 → (curSlot s m).owner = some s.cur.strand → (curSlot s m).present = false) →
      ∃ t, exec (.sleep x) s = .next t ∧ Leaves s t .blocked .sleep true ∧ OutsideSame s t ∧ BytesSame s t ∧
        OthersSame s t s.cur.core s.cur.strand ∧ coreBody (curCore t) = coreBody (curCore s))

namespace Sys2Proof.Claims

/-- Whether a trap message leaves the queue before another (R130). -/
def earlier (m n : TrapMsg) : Prop := m.cycle < n.cycle ∨ (m.cycle = n.cycle ∧ m.strand < n.strand)

/-- What a core holds besides registers, strands, trap queue and counters. -/
def untrapped (k : Core) : Core := { coreBody k with trapQ := [], perf := [] }

/-- cr.cause, cr.epc and cr.einst of a strand describe a trap (R130, Table 6.4). -/
def Recorded (x : Strand) (cause : Byte) (info epc : Word) (word : IWord) : Prop :=
  bits (x.get 1) 7 0 = cause.toNat ∧ bits (x.get 1) 63 16 = info.toNat % 2 ^ 48 ∧ (x.get 2).toNat = epc.toNat % 2 ^ 48 ∧
  (x.get 3).toNat = word.toNat

/-- No register, byte, other strand or other core is touched. -/
structure Untouched (s t : State) (c u : Nat) : Prop where
  bytes : BytesSame s t
  others : OthersSame s t c u
  registers : ∀ cx : Ctx, cx.core = c → cx.strand = u → ∀ o, rd t cx o = rd s cx o
  core : untrapped (getCore t c) = untrapped (getCore s c)
  outside : { t with cores := [], replies := [] } = { s with cores := [], replies := [] }

/-- What taking a trap does (R130, R134, R135), `m` being its message: another strand is Trapped with its message in its place of
the queue, where it replaces one of the same strand (log 54); strand 0 enters handler mode at cr.tvec with its message at the head; strand 0 in handler mode is Halted by a double
fault, which the debug port reports, and queues nothing. -/
structure TrapEffect (s t : State) (c u : Nat) (cause : Byte) (info : Word) (word : IWord) (addr epc : Word) : Prop where
  recorded : Recorded (getStrand t c u) cause info epc word
  untouched : Untouched s t c u
  waits : (getStrand t c u).wait = none
  other : u ≠ 0 → (getStrand t c u).st = .trapped ∧ (getStrand t c u).pc = (getStrand s c u).pc ∧
    ∃ before after, withoutMsg u (getCore s c).trapQ = before ++ after ∧
      (getCore t c).trapQ = before ++ ⟨s.now, u, cause, word, low48 addr⟩ :: after ∧
      (∀ y ∈ before, ¬ earlier ⟨s.now, u, cause, word, low48 addr⟩ y) ∧
      ∀ y ∈ after.head?, earlier ⟨s.now, u, cause, word, low48 addr⟩ y
  zero : u = 0 → (getStrand s c 0).flag 6 = false → (getStrand t c 0).st = .ready ∧ (getStrand t c 0).flag 6 = true ∧
    (getStrand t c 0).pc = (getCore s c).sharedLast 34 ∧
    (getCore t c).trapQ = ⟨s.now, 0, cause, word, low48 addr⟩ :: withoutMsg 0 (getCore s c).trapQ
  double : u = 0 → (getStrand s c 0).flag 6 = true → (getStrand t c 0).st = .halted ∧ (getStrand t c 0).flag 7 = true ∧
    (getStrand t c 0).flag 6 = true ∧ (getCore t c).trapQ = (getCore s c).trapQ ∧
    t.replies = s.replies ++ [(replyHalt, [wd c])]

/-- The instruction of `cur` traps, resumed at `epc`. -/
def TrapsWith (i : Instr) (s : State) (cause : Byte) (info epc : Word) : Prop :=
  ∃ t, exec i s = .next t ∧ TrapEffect s t s.cur.core s.cur.strand cause info s.cur.word s.cur.addr epc

/-- The instructions that only strand 0 may issue: the privileged ones (‡) of the opcode table, `rft` and `tq` (R58). -/
def strandZeroInstrs (x : Args) : List Instr := [
  .mbind x, .start x, .reap x, .swap x, .wmf x, .wmt x, .tlbi x, .lmld x, .biasu x, .biasf x, .adpl x, .rft x, .tq x]

/-- The registers that only strand 0 reads, and that only strand 0 writes (Table 6.1). -/
def systemRead (n : Nat) : Bool := decide (34 ≤ n)
def systemWrite (n : Nat) : Bool := [6, 7, 11, 32, 33, 34, 37, 38, 39, 40, 41].contains n

/-- The instructions whose guard is read before anything else of them: those that R58 does not name. -/
def guarded (x : Args) : List Instr := [
  .add x, .sub x, .mul x, .mulh x, .div x, .rem x, .and x, .or x, .xor x, .andn x, .shl x, .shr x, .sar x, .rol x, .min x,
  .max x, .addi x, .andi x, .ori x, .xori x, .shli x, .shri x, .sari x, .roli x, .clz x, .ctz x, .popc x, .abs x, .neg x,
  .sext x, .zext x, .mov x, .movi x, .bfx x, .bfi x, .sel x, .cmpEq x, .cmpNe x, .cmpLt x, .cmpLe x, .cmpiEq x, .cmpiNe x,
  .cmpiLt x, .cmpiLe x, .tst x, .fadd x, .fsub x, .fmul x, .fmin x, .fmax x, .ffma x, .fabs x, .fneg x, .fexp2 x, .frcp x,
  .fcvt x, .fcmpEq x, .fcmpLt x, .fcmpLe x, .fcmpUn x, .padd x, .pmk x, .pget x, .pmov x, .qand x, .qor x, .qxor x, .qnot x,
  .qmov x, .br x, .jmp x, .call x, .ret x, .nop x, .halt x, .sleep x, .ld x, .st x, .ldx x, .stx x, .lswap x, .lcas x,
  .ladd x, .vadd x, .vsub x, .vmul x, .vfma x, .vmin x, .vmax x, .vabs x, .vneg x, .vexp x, .vrcp x, .vrsq x, .vcvt x,
  .vcpy x, .vsum x, .vrmax x, .vrmin x, .vdot x, .vscal x, .vfill x, .vclamp x, .vcmp x, .vsel x, .vgath x, .vscat x,
  .vtrans x, .mma x, .mmas x, .mldb x, .mrot x, .mdrop x, .mza x, .mst x, .mlda x, .macc x, .mcorr x, .ldg x, .stg x,
  .amo x, .amoc x, .red x, .fence x, .pfg x, .cpy x, .cpy2 x, .cpyg x, .qfence x, .qst x, .send x, .sendl x, .mpk x,
  .mclr x, .lnks x, .bari x, .bara x, .barw x, .barq x, .nesti x, .nestn x, .nestq x, .waita x, .stamp x, .patch x, .arm x,
  .fork x, .rebase x, .flat x, .drop x, .lnq x, .ldel x, .lres x, .kvo x, .kvw x, .kvc x, .kvd x, .kvq x, .pgal x, .pgfr x,
  .lock x, .lcv x, .lq x, .selk x, .softk x, .hpush x, .hpop x, .hclr x, .htopp x, .rand x, .trap x, .brk x, .step x,
  .hold x, .resume x, .ccf x]

end Sys2Proof.Claims

/-- R130, R134, R135: what taking a trap does to the strand, to the queue and to nothing else. -/
def Sys2Proof.Claims.TrapEntry : Prop :=
  ∀ (s : State) (c u : Nat) (cause : Byte) (info : Word) (word : IWord) (addr epc : Word),
    TrapEffect s (takeTrap s c u cause info word addr epc) c u cause info word addr epc

/-- R152, R132, R57, R59, R143, R138: `trap` and `brk` are performed and resume after themselves; an illegal chain, a fetch fault,
a breakpoint and a timer resume at the instruction. -/
def Sys2Proof.Claims.TrapInstructions : Prop :=
  ∀ (x : Args) (s : State),
    (Performs s x → TrapsWith (.trap x) s 0x17 x.imm (nextPc s.cur) ∧ TrapsWith (.brk x) s 0x13 x.imm (nextPc s.cur)) ∧
    TrapsWith .illegalInstruction s 0x01 0 s.cur.addr ∧
    (∀ cause bad, TrapsWith (.fetchFault cause bad) s cause bad s.cur.addr) ∧
    (∀ n : BitVec 2, TrapsWith (.breakpointMatch n) s 0x13 (n.setWidth 64) s.cur.addr) ∧
    ∀ c u, ∃ t, exec (.timerTrap c u) s = .next t ∧
      TrapEffect s t c u 0x16 0 0 (getStrand s c u).pc (getStrand s c u).pc ∧ (getStrand t c u).tmrHit = false

/-- R130 to R135: what taking a trap saves and where it goes, and the instructions whose effect is a trap. That a timer's trap records the word 0 and the
resume address as its message's address is log 17, that a strand has one message in the queue log 54, and the words of the report of a double fault
log 49. -/
def Obligations.TakingTraps : Prop := Sys2Proof.Claims.TrapEntry ∧ Sys2Proof.Claims.TrapInstructions

/-- R58: the causes 0x01 and 0x02 that are decided before the guard is read, whatever it says: a privileged instruction, `rft`
and `tq` by a strand other than strand 0; `rft` by strand 0 outside handler mode; `tdone` by strand 0; `rqp` and `rqt` by a strand that
runs a task; `tfail` by a strand other than strand 0 that runs none; `mfc` and `mtc` of a register of strand 0 by another. -/
def Obligations.PrivilegedTrap : Prop :=
  ∀ (x : Args) (s : State),
    (s.cur.strand ≠ 0 → (∀ i ∈ strandZeroInstrs x, TrapsWith i s 0x02 0 s.cur.addr) ∧
      (taskOf s s.cur.core s.cur.strand = none → TrapsWith (.tfail x) s 0x02 0 s.cur.addr) ∧
      (∀ n, x.b = .cr n → systemRead n.toNat = true → TrapsWith (.mfc x) s 0x02 0 s.cur.addr) ∧
      ∀ n, x.a = .cr n → systemWrite n.toNat = true → TrapsWith (.mtc x) s 0x02 0 s.cur.addr) ∧
    (s.cur.strand = 0 → TrapsWith (.tdone x) s 0x02 0 s.cur.addr ∧
      ((curStrand s).flag 6 = false → TrapsWith (.rft x) s 0x01 0 s.cur.addr)) ∧
    ((taskOf s s.cur.core s.cur.strand).isSome = true →
      TrapsWith (.rqp x) s 0x02 0 s.cur.addr ∧ TrapsWith (.rqt x) s 0x02 0 s.cur.addr)

/-- R54: an instruction that its guard does not perform only advances; R91: one that is performed with a g register outside the
window raises cause 0x19. -/
def Obligations.GuardAndWindow : Prop :=
  ∀ (x : Args) (s : State), ∀ i ∈ guarded x,
    (performed s x = false → InRotation s → Gives i s .none 0) ∧
    (performed s x = true → argsInWindow s x = false → TrapsWith i s 0x19 0 s.cur.addr)

namespace Sys2Proof.Claims

/-- The value that `mfc` reads (Table 6.1): cr.stat and cr.dbg composed, cr.cycle, a register of the strand, or a core
register as the strand sees it. -/
def controlValue (s : State) (n : Nat) : Word :=
  if n = 0 then (curStrand s).stat s.cur.strand s.now
  else if n = 8 then wd s.now
  else if n = 19 then (curStrand s).dbgWord
  else if n < 32 then (curStrand s).get n
  else (curCore s).sharedRead n s.cur.strand s.now

/-- The bits of a register that `mtc` writes (Tables 6.4 and 6.5), for the registers that only keep what is written. -/
def writable : List (Nat × Word) := [
  (5, 0x1FFFF), (13, 0xFFFFFFFFFFFF), (14, 0xFFFFFFFFFFFF), (15, 0xFFFFFFFFFFFF), (16, 0xFFFFFFFFFFFF),
  (17, 0xFFC0FFFFFFFFFFFF), (18, 0xFFC0FFFFFFFFFFFF), (32, 3), (34, 0xFFFFFFFFFFFE), (37, 0x1F), (38, 0xFFFFFFFFFFC0),
  (39, 0x07FF0FFFFFFFFFFF), (40, 0xFFFFFFFFFFFF), (41, 0x07FF07FF)]

/-- The registers that `mtc` does not change (RO, Table 6.1). -/
def readOnly : List Nat := [1, 2, 3, 4, 8, 9, 10, 12, 19, 35, 36]

/-- Between two states a strand's control register `n` may differ, and nothing else but the strand's pc. -/
structure ControlFrame (s t : State) (n : Nat) : Prop where
  outside : OutsideSame s t
  bytes : BytesSame s t
  others : OthersSame s t s.cur.core s.cur.strand
  core : coreBody (curCore t) = coreBody (curCore s)
  controls : ∀ m, m < 32 → m ≠ n → (curStrand t).get m = (curStrand s).get m
  shared : ∀ m, m ≠ n ∨ n < 32 → getK [] (curCore t).shared m = getK [] (curCore s).shared m
  registers : ∀ o, rd t s.cur o = rd s s.cur o

end Sys2Proof.Claims

/-- R147, R125, R134: `mfc` reads a control register; a read of cr.tmsg pops the head of the trap queue, sets cr.taddr and cr.tsel, and an
empty queue reads 0 and changes nothing else. -/
def Obligations.ReadControl : Prop :=
  ∀ (x : Args) (s : State) (n : BitVec 7), x.b = .cr n → Performs s x → InRotation s →
    (systemRead n.toNat = true → s.cur.strand = 0) →
    (n ≠ 35 → Gives (.mfc x) s x.a (controlValue s n.toNat)) ∧
    (n = 35 → (curCore s).trapQ = [] → Gives (.mfc x) s x.a 0) ∧
    ∀ m rest, n = 35 → (curCore s).trapQ = m :: rest →
      ∃ t, exec (.mfc x) s = .next t ∧ (curCore t).trapQ = rest ∧
        (∃ v, rd t s.cur x.a = readsAs x.a v ∧ bit v 63 = true ∧ bits v 51 48 = m.strand % 16 ∧ bits v 47 40 = m.cause.toNat ∧
          bits v 15 0 = m.word.toNat) ∧
        (curCore t).sharedLast 36 = low48 m.addr ∧ (curCore t).sharedLast 37 = wd (m.strand % 16) ∧ BytesSame s t ∧
        GoesOn t s.cur (nextPc s.cur)

/-- R147, R125, Tables 6.4 and 6.5: `mtc` writes the writable bits of a register, and nothing of a read-only one; the strand
reads what it wrote at its next instruction. -/
def Sys2Proof.Claims.WriteControl : Prop :=
  ∀ (x : Args) (s : State) (n : BitVec 7), x.a = .cr n → Performs s x → InRotation s →
    (systemWrite n.toNat = true → s.cur.strand = 0) →
    (∀ mask, (n.toNat, mask) ∈ writable →
      ∃ t, exec (.mtc x) s = .next t ∧ controlValue t n.toNat = src s x.b &&& mask ∧ ControlFrame s t n.toNat ∧
        GoesOn t s.cur (nextPc s.cur)) ∧
    (n.toNat ∈ readOnly → Gives (.mtc x) s .none 0)

namespace Sys2Proof.Claims

/-- What writes of `v` to cr.stat, cr.wlim, cr.tmr and cr.accm leave in the strand's registers (R138, Table 6.4): cr.stat clears the flags
written 1, cr.wlim and cr.tmr take the low word, and cr.tmr arms or disarms the timer; cr.accm takes only the tiles that no other live
strand owns. -/
def StatWritten (x y : Strand) (v : Word) : Prop :=
  (∀ j ∈ [7, 10, 11], y.flag j = (x.flag j && !bit v j)) ∧ ∀ j ∈ [5, 6, 8], y.flag j = x.flag j

def LimitWritten (y : Strand) (v : Word) : Prop := y.get 6 = v &&& 0xFFFFFFFF

def TimerWritten (y : Strand) (v : Word) (now : Nat) : Prop :=
  y.get 7 = v &&& 0xFFFFFFFF ∧ (v &&& 0xFFFFFFFF = 0 → y.tmrHit = false) ∧ (v &&& 0xFFFFFFFF ≠ 0 → y.tmrSet = some now)

def AccmWritten (k : Core) (y : Strand) (v : Word) : Prop :=
  ∀ j, j < 8 → bit (y.get 11) j = (bit v j && !((List.range 16).any fun w => w != 0 && (k.strand w).live && bit ((k.strand w).get 11) j))

/-- The offset in the store at which a line of the L1 stands (R185). -/
def l1Offset (k : Core) (x : L1Line) : Nat := storeTop k.splitNow + 256 * x.place

/-- A write of cr.l1split takes effect (R185): SPLIT becomes bits [1:0] of `v`, lines in banks that leave the cache are gone, and the others keep their
place in the store. -/
structure SplitWritten (s t : State) (v : Word) : Prop where
  split : (curCore t).sharedLast 33 = v &&& 3
  stays : ∀ x ∈ (curCore s).l1, storeTop (bits v 1 0) ≤ l1Offset (curCore s) x →
    ∃ y ∈ (curCore t).l1, y.line = x.line ∧ y.task = x.task ∧ l1Offset (curCore t) y = l1Offset (curCore s) x
  only : ∀ y ∈ (curCore t).l1, ∃ x ∈ (curCore s).l1, y.line = x.line ∧ y.task = x.task ∧ storeTop (bits v 1 0) ≤ l1Offset (curCore s) x
  outside : OutsideSame s t
  bytes : BytesSame s t
  others : OthersSame s t s.cur.core s.cur.strand
  core : { coreBody (curCore t) with l1 := [] } = { coreBody (curCore s) with l1 := [] }
  shared : ∀ m, m ≠ 33 → getK [] (curCore t).shared m = getK [] (curCore s).shared m
  registers : ∀ o, rd t s.cur o = rd s s.cur o

/-- `mtc` to the registers whose write does more than keep bits (R125, R129, R138, R160, R185): cr.stat, cr.wlim, cr.tmr, cr.accm and
cr.l1split, whose new banks may not overlap the region of a live strand other than strand 0, and which waits for loads in flight. -/
def WriteControlOthers : Prop :=
  ∀ (x : Args) (s : State) (n : BitVec 7), x.a = .cr n → Performs s x → InRotation s →
    (systemWrite n.toNat = true → s.cur.strand = 0) →
    (∀ f, (n.toNat, f) ∈ [(0, fun t => StatWritten (curStrand s) (curStrand t) (src s x.b)),
        (6, fun t => LimitWritten (curStrand t) (src s x.b)), (7, fun t => TimerWritten (curStrand t) (src s x.b) s.now),
        (11, fun t => AccmWritten (curCore s) (curStrand t) (src s x.b))] →
      ∃ t : State, exec (.mtc x) s = .next t ∧ f t ∧ ControlFrame s t n.toNat ∧ GoesOn t s.cur (nextPc s.cur)) ∧
    (n = 33 →
      (splitOverlaps (curCore s) (bits (src s x.b) 1 0) = true → Traps (.mtc x) s 0x04 0) ∧
      (splitOverlaps (curCore s) (bits (src s x.b) 1 0) = false → splitReady s s.cur.core = true →
        ∃ t, exec (.mtc x) s = .next t ∧ SplitWritten s t (src s x.b) ∧ GoesOn t s.cur (nextPc s.cur)) ∧
      (splitOverlaps (curCore s) (bits (src s x.b) 1 0) = false → splitReady s s.cur.core = false →
        ∃ t, exec (.mtc x) s = .next t ∧ Leaves s t .waiting (.split (src s x.b)) false ∧ OutsideSame s t ∧ BytesSame s t))

end Sys2Proof.Claims

/-- The registers with effects of their own, by `mtc` and by their happenings: cr.stat clears the flags written 1, cr.wlim takes the
limit, cr.tmr arms or disarms the timer (R138), cr.accm takes only the tiles that no other live strand owns. -/
def Sys2Proof.Claims.WriteControlEffects : Prop :=
  ∀ (s : State) (c t : Nat) (v : Word),
    (∃ u, exec (.crStatW1c c t v) s = .next u ∧ OthersSame s u c t ∧ BytesSame s u ∧
      StatWritten (getStrand s c t) (getStrand u c t) v ∧
      ∀ m, m ≠ 0 → (getStrand u c t).get m = (getStrand s c t).get m) ∧
    (∃ u, exec (.crWlimWrite c t v) s = .next u ∧ OthersSame s u c t ∧ BytesSame s u ∧
      LimitWritten (getStrand u c t) v ∧ ∀ m, m ≠ 6 → (getStrand u c t).get m = (getStrand s c t).get m) ∧
    (∃ u, exec (.crTmrWrite c t v) s = .next u ∧ OthersSame s u c t ∧ BytesSame s u ∧
      TimerWritten (getStrand u c t) v s.now ∧ ∀ m, m ≠ 7 → (getStrand u c t).get m = (getStrand s c t).get m) ∧
    (∃ u, exec (.crAccmWrite c v) s = .next u ∧ OthersSame s u c 0 ∧ BytesSame s u ∧
      AccmWritten (getCore s c) (getStrand u c 0) v ∧ ∀ m, m ≠ 11 → (getStrand u c 0).get m = (getStrand s c 0).get m) ∧
    ∃ u, exec (.crTmsgPop c) s = .next u ∧ (getCore u c).trapQ = (getCore s c).trapQ.drop 1 ∧ BytesSame s u ∧
      (∀ d, d ≠ c → getCore u d = getCore s d) ∧ ∀ w, getStrand u c w = getStrand s c w

/-- R147, R125, R129, R134, R138, R160, R185, Tables 6.4 and 6.5: `mtc` writes the writable bits of each control register, and what such a write
sets going. That a write of 0 to cr.tmr clears an expiry that is still pending is log 14; that loads issued behind a write of cr.l1split keep it
waiting too is log 71. -/
def Obligations.WritingControl : Prop :=
  Sys2Proof.Claims.WriteControl ∧ Sys2Proof.Claims.WriteControlOthers ∧ Sys2Proof.Claims.WriteControlEffects

namespace Sys2Proof.Claims

/-- The wait of a strand. -/
def waitOf (s : State) (c u : Nat) : Option Wait := (getStrand s c u).wait

/-- Waits that hold nothing outside their strand. -/
def plainWait (w : Wait) : Bool :=
  match w.why with
  | .sleep | .barw _ | .pop _ _ | .slot _ _ | .word _ _ _ | .holds _ | .drain _ | .ready => true
  | _ => false

end Sys2Proof.Claims

/-- R138, R123, R160, R134: a timer reaches 0, and a sleeper goes on behind its `sleep` with the trap in place of its next issue; a wait limit ends a wait with cause 0x0C at the waiting instruction; strand 0
enters handler mode from the rotation or from a wait, after a `sleep` at the instruction that follows it. -/
def Obligations.Clockwork : Prop :=
  ∀ (s : State) (c u : Nat),
    (∃ t, exec (.timerExpiry c u) s = .next t ∧ (getStrand t c u).get 7 = 0 ∧
      ((getStrand s c u).st ≠ .blocked → (getStrand t c u).tmrHit = true ∧ (getStrand t c u).st = (getStrand s c u).st ∧
        (getStrand t c u).pc = (getStrand s c u).pc ∧ BytesSame s t ∧ OthersSame s t c u) ∧
      ∀ w, waitOf s c u = some w → w.why = .sleep → w.cx.core = c → w.cx.strand = u → (getStrand s c u).st = .blocked →
        (getStrand s c u).dbg 1 = false → (getStrand s c u).holdReq = false →
        (getStrand t c u).st = .ready ∧ (getStrand t c u).pc = nextPc w.cx ∧ waitOf t c u = none ∧ (getStrand t c u).tmrHit = true ∧
        (getCore t c).trapQ = (getCore s c).trapQ ∧ BytesSame s t) ∧
    (∀ w, waitOf s c u = some w → plainWait w = true →
      ∃ t, exec (.waitLimitExpiry c u) s = .next t ∧ TrapEffect s t c u 0x0C 0 w.cx.word w.cx.addr w.cx.addr) ∧
    ((getStrand s c 0).flag 6 = false → (getCore s c).trapQ ≠ [] →
      ∀ epc, (((getStrand s c 0).st = .ready ∧ waitOf s c 0 = none ∧ epc = (getStrand s c 0).pc) ∨
        ((getStrand s c 0).st = .blocked ∧ ∃ w, waitOf s c 0 = some w ∧ plainWait w = true ∧
          epc = if w.why = .sleep then nextPc w.cx else w.cx.addr)) →
      ∃ t, exec (.handlerEntry c) s = .next t ∧ (getStrand t c 0).pc = (getCore s c).sharedLast 34 ∧
        (getStrand t c 0).flag 6 = true ∧ (getStrand t c 0).st = .ready ∧ waitOf t c 0 = none ∧
        (getStrand t c 0).get 2 = low48 epc ∧ (getCore t c).trapQ = (getCore s c).trapQ ∧ BytesSame s t ∧
        OthersSame s t c 0)

/-- R136, R153: `rft` by strand 0 in handler mode. The strand that cr.tsel names, when Trapped, goes on at its cr.epc, Held if a hold
has reached it; cr.tsel.NONE is set; strand 0 leaves handler mode for its cr.epc when the queue is empty, and else handles the next
message at cr.tvec. -/
def Sys2Proof.Claims.ReturnFromTrap : Prop :=
  ∀ (x : Args) (s : State), s.cur.strand = 0 → (curStrand s).flag 6 = true → Performs s x → InRotation s →
    let c := s.cur.core
    let sel := (curCore s).sharedLast 37
    let u := bits sel 3 0
    ∃ t, exec (.rft x) s = .next t ∧ bit ((getCore t c).sharedLast 37) 4 = true ∧ BytesSame s t ∧
      (∀ d, d ≠ c → getCore t d = getCore s d) ∧ (∀ v, v ≠ 0 → v ≠ u → getStrand t c v = getStrand s c v) ∧
      (getStrand t c 0).st = .ready ∧
      ((curCore s).trapQ = [] → (getStrand t c 0).flag 6 = false ∧ (getStrand t c 0).flag 5 = true ∧
        (getStrand t c 0).pc = (curStrand s).get 2) ∧
      ((curCore s).trapQ ≠ [] → (getStrand t c 0).flag 6 = true ∧ (getStrand t c 0).pc = (curCore s).sharedLast 34) ∧
      (bit sel 4 = false → u ≠ 0 → (getStrand s c u).st = .trapped →
        (getStrand s c u).dbg 1 = false → (getStrand s c u).holdReq = false →
        (getStrand t c u).pc = (getStrand s c u).get 2 ∧ (getStrand t c u).flag 5 = true ∧ (getStrand t c u).flag 8 = false ∧
        (getStrand t c u).st = if (getStrand s c u).flag 8 then .held else .ready) ∧
      ((bit sel 4 = true ∨ (getStrand s c u).st ≠ .trapped) → u ≠ 0 → getStrand t c u = getStrand s c u)

/-- R121 to R123, R136, R153: `nop`, `halt` and `sleep`, and the return from a trap. -/
def Obligations.StrandFlow : Prop := Sys2Proof.Claims.NopHaltSleep ∧ Sys2Proof.Claims.ReturnFromTrap

namespace Sys2Proof.Claims

/-- The instruction in context `cx` completes with `v` in `o`; no other register, byte or strand is touched. -/
structure Resumed (s t : State) (cx : Ctx) (o : Opnd) (v : Word) : Prop where
  value : rd t cx o = readsAs o v
  goes : GoesOn t cx (nextPc cx)
  bytes : BytesSame s t
  registers : ∀ p, p ≠ o → rd t cx p = rd s cx p
  others : ∀ d u, ¬(d = cx.core ∧ u = cx.strand) → getStrand t d u = getStrand s d u

/-- The registers and the strand after a completion (R95): pointers advance in field order, then the destination is
written. -/
structure DoneRegisters (s t : State) (d : Done) : Prop where
  value : ∀ v, d.val = some v → rd t d.cx d.dst = readsAs d.dst v
  pointers : ∀ n, ¬(d.val.isSome = true ∧ d.dst = .p n) → rd t d.cx (.p n) = rd (applyIncs s d.cx d.ptrs) d.cx (.p n)
  registers : ∀ o, o ≠ d.dst → (∀ n, o ≠ .p n) → rd t d.cx o = rd s d.cx o
  goes : GoesOn t d.cx (nextPc d.cx)
  others : ∀ e u, ¬(e = d.cx.core ∧ u = d.cx.strand) → getStrand t e u = getStrand s e u

/-- The happenings that complete what a unit has done, by what they bring back. -/
def completions (d : Done) (target : Nat) : List Instr := [
  .vectorComplete d, .selectionComplete d, .stateTransferComplete d target, .nodeOperationComplete d, .windowOperationComplete d]

/-- The scalar local-store instructions (R191, R192): constructor, operation, and whether the address is indexed. -/
def localInstrs : List ((Args → Instr) × LocOp × Bool) := [
  (.ld, .ld, false), (.st, .st, false), (.ldx, .ld, true), (.stx, .st, true), (.lswap, .swap, false), (.lcas, .cas, false),
  (.ladd, .add, false)]

/-- The bytes an access leaves in place of `old`, as a number: none when it stores nothing. -/
def storesNum (op : LocOp) (n old data cmp : Nat) : Option Nat :=
  match op with
  | .ld => none
  | .st => some (data % 256 ^ n)
  | .swap => some (data % 256 ^ n)
  | .cas => if old = cmp % 256 ^ n then some (data % 256 ^ n) else none
  | .add => some ((old + data) % 256 ^ n)

/-- The word that an access returns: the old bytes, extended (R101). -/
def returnsWord (op : LocOp) (n old : Nat) (u : Bool) : Option Word :=
  match op with
  | .st => none
  | _ => some (ext (8 * n) u (BitVec.ofNat (8 * n) old))

/-- An access of an instruction: width in bytes, pointer, data and old bytes. -/
abbrev accN (x : Args) : Nat := widthOf x.mod / 8
abbrev accPtr (s : State) (x : Args) (indexed : Bool) : Word := locPtr s s.cur x indexed
abbrev accOld (s : State) (p : Word) (n : Nat) : Nat := ofBytes (lsBytes s (ptrCore p) (ptrOff p) n)

/-- The access that a scalar instruction starts: its place, its data, and what it brings back (R191, R192). -/
def accessOf (s : State) (x : Args) (op : LocOp) (indexed : Bool) (reach : Nat) : LocAcc :=
  { cx := s.cur, op, n := accN x, u := unsignedOf x.mod, core := ptrCore (accPtr s x indexed), off := ptrOff (accPtr s x indexed)
    data := if op = .st then src s x.a else src s x.c, cmp := src s x.a, dst := if op = .st then .none else x.a
    ptrs := incList s s.cur x.b (accN x) x.imm, reach }

/-- What an access does to the stores: the `n` bytes at (core, off) hold `v`, or what they held; all others read as before. -/
def StoresAt (s t : State) (core off n : Nat) (v : Option Nat) : Prop :=
  lsBytes t core off n = v.elim (lsBytes s core off n) (toBytes n) ∧
  ∀ c a, ¬(c = core ∧ off ≤ a ∧ a < off + n) → lsRead t c a = lsRead s c a

/-- A bank serves the access `a`, which is to complete as `ev` in cycle `due`: its bytes change, and no register and no strand; the banks of its
bytes serve nothing else in this cycle. -/
structure Served (s t : State) (a : LocAcc) (due : Nat) (ev : Instr) : Prop where
  stores : StoresAt s t a.core a.off a.n
    (storesNum a.op a.n (ofBytes (lsBytes s a.core a.off a.n)) a.data.toNat a.cmp.toNat)
  pend : t.pend = s.pend ++ [(due, ev)]
  outside : { t with cores := [], pend := [] } = { s with cores := [], pend := [] }
  strands : ∀ c u, getStrand t c u = getStrand s c u
  registers : ∀ cx o, rd t cx o = rd s cx o
  used : banksFree t a.core (bankMask a.off a.n) = false

/-- A watchpoint stops the access `a` at its bank (R192): nothing of it is performed; its trap comes with its completion, in cycle `due` as `ev`. -/
structure Watched (s t : State) (due : Nat) (ev : Instr) : Prop where
  bytes : BytesSame s t
  pend : t.pend = s.pend ++ [(due, ev)]
  strands : ∀ c u, getStrand t c u = getStrand s c u
  registers : ∀ cx o, rd t cx o = rd s cx o

/-- The access `a`, once served in this cycle with its register value, and once stopped by a watchpoint at an address. -/
def servedAcc (s : State) (a : LocAcc) : LocAcc :=
  { a with got := some (s.now, returnsWord a.op a.n (ofBytes (lsBytes s a.core a.off a.n)) a.u) }
def watchedAcc (s : State) (a : LocAcc) (info : Word) : LocAcc := { a with got := some (s.now, none), watched := some info }

/-- The rank of a request for a bank in a cycle (Table 8.2): that of its row, and 1 after 4 cycles. -/
def tableRank (now : Nat) (q : BReq) : Nat := if q.reach + 4 ≤ now then 1 else q.row

/-- The row of Table 8.2 of a unit's run at its own core's banks. -/
def unitRow : Runner → Nat
  | .matrix _ => 2
  | .unit _ _ => 3
  | .items _ => 4
  | .copy _ _ => 6
  | .copyEnd _ _ => 6
  | .lineage _ _ => 6
  | .fetch _ _ _ => 6

/-- The requests that wait at banks: those of the units' runs, and the scalar ones. -/
def waitingReqs (s : State) : List BReq :=
  (allRuns s).flatMap RunAt.reqs ++ (s.cores.map (fun x => x.1)).flatMap (scalarReqs s)

end Sys2Proof.Claims

/-- R95, R189, R371, R151, R292, R311: the completion of a unit's work writes the destination, advances the pointers and lets the
strand go on. -/
def Obligations.Completions : Prop :=
  ∀ (s : State) (d : Done) (target : Nat), Awaits s d.cx →
    ∀ i ∈ completions d target, ∃ t, exec i s = .next t ∧ DoneRegisters s t d ∧ BytesSame s t

/-- R191, R192, R180: an access to the own core's store whose checks pass reaches its bank 3 cycles after its issue, its strand showing
Ready for 8 cycles and then Waiting; when the bank serves it, its bytes change, and BANKLOST counts a delay of 3 cycles or more; 2 cycles later
its register is written and its pointer advances. An `lcas` that stores and meets a store watchpoint at its bank is not performed and raises
0x14. -/
def Obligations.LocalAccessResults : Prop :=
  (∀ (x : Args) (s : State), Performs s x → ∀ r ∈ localInstrs,
    let p := accPtr s x r.2.2
    ptrCore p = s.cur.core → locChecks s s.cur p (accN x) (r.2.1 != .st) (r.2.1 != .ld && r.2.1 != .cas) = none →
    ∃ t, exec (r.1 x) s = .next t ∧
      LeavesUntil s t (s.now + 13) (.localAccessComplete (accessOf s x r.2.1 r.2.2 (s.now + 3))) .prompt ∧
      ∀ now, (curStrand t).shown now = if now < s.now + 8 then .ready else .waiting) ∧
  ∀ (s : State) (a : LocAcc), a.cx.core = a.core →
    (a.got = none → ∀ n ∈ [1, 2, 4, 8], a.n = n →
      (casWatch s a = none →
        ∃ t, exec (.localAccessComplete a) s = .next t ∧ Served s t a (s.now + 2) (.localAccessComplete (servedAcc s a)) ∧
          getK 0 (getCore t a.core).perf 3 = getK 0 (getCore s a.core).perf 3 + wd (s.now - a.reach - 2)) ∧
      ∀ b, casWatch s a = some b →
        ∃ t, exec (.localAccessComplete a) s = .next t ∧
          Watched s t (s.now + 2) (.localAccessComplete (watchedAcc s a b.2))) ∧
    ∀ c v, a.got = some (c, v) → Awaits s a.cx →
      (a.watched = none →
        (∀ n, a.dst = .s n → a.reach + 3 ≤ c ∨ ∀ w ∈ getK [] (getCore s a.core).shared n.toNat, w.at_ ≤ a.reach - 3) →
        ∃ t, exec (.localAccessComplete a) s = .next t ∧ BytesSame s t ∧ DoneRegisters s t ⟨a.cx, a.dst, v, a.ptrs⟩) ∧
      ∀ info, a.watched = some info →
        ∃ t, exec (.localAccessComplete a) s = .next t ∧
          TrapEffect s t a.cx.core a.cx.strand 0x14 info a.cx.word a.cx.addr a.cx.addr

/-- R181, R192: an access to another core's store reaches the bank there 6 + h cycles after its issue; the bank serves it, and 6 + h
cycles later it completes; a check that fails raises its cause at issue and does nothing else.
R179: among all the requests at a bank, the engines' and the strands', one of the lowest rank is served, one in a cycle; a core's own scalar
requests, the runs of `wmf` and `wmt` among them, are served in the order in which they reach their banks, and none waits longer than 10 cycles
unless its bank is under test. The row of a run at another core's banks and the 10 cycles are log 1, the order of own requests and those kept back
log 53, an atomic watched as a load and as a store log 15. -/
def Obligations.MeshAccessResults : Prop :=
  (∀ (x : Args) (s : State), Performs s x → ∀ r ∈ localInstrs,
    let p := accPtr s x r.2.2
    let h := hops (colOf s.cur.core) (colOf (ptrCore p))
    (ptrCore p ≠ s.cur.core → locChecks s s.cur p (accN x) (r.2.1 != .st) (r.2.1 != .ld && r.2.1 != .cas) = none →
      ∃ t, exec (r.1 x) s = .next t ∧
        LeavesUntil s t (s.now + 16 + h) (.meshAccessComplete (accessOf s x r.2.1 r.2.2 (s.now + 6 + h)))) ∧
    ∀ cause info, locChecks s s.cur p (accN x) (r.2.1 != .st) (r.2.1 != .ld && r.2.1 != .cas) = some (cause, info) →
      TrapsWith (r.1 x) s cause info s.cur.addr) ∧
  (∀ (s : State) (a : LocAcc), a.cx.core ≠ a.core →
    (a.got = none → ∀ n ∈ [1, 2, 4, 8], a.n = n →
      (casWatch s a = none →
        ∃ t, exec (.meshAccessComplete a) s = .next t ∧
          Served s t a (s.now + 6 + hops (colOf a.cx.core) (colOf a.core)) (.meshAccessComplete (servedAcc s a))) ∧
      ∀ b, casWatch s a = some b →
        ∃ t, exec (.meshAccessComplete a) s = .next t ∧
          Watched s t (s.now + 6 + hops (colOf a.cx.core) (colOf a.core)) (.meshAccessComplete (watchedAcc s a b.2))) ∧
    ∀ c v, a.got = some (c, v) → Awaits s a.cx →
      (a.watched = none →
        ∃ t, exec (.meshAccessComplete a) s = .next t ∧ BytesSame s t ∧ DoneRegisters s t ⟨a.cx, a.dst, v, a.ptrs⟩) ∧
      ∀ info, a.watched = some info →
        ∃ t, exec (.meshAccessComplete a) s = .next t ∧
          TrapEffect s t a.cx.core a.cx.strand 0x14 info a.cx.word a.cx.addr a.cx.addr) ∧
  ∀ (s : State),
    (∀ a, (locReq a).row = if a.cx.core = a.core then 4 else 5) ∧
    (∀ r ∈ allRuns s, ∀ q ∈ r.reqs, q.row = if q.core = r.core then unitRow r.who else if unitRow r.who = 6 then 6 else 5) ∧
    (∀ i due ev a, scalarServed s = some i → s.pend[i]? = some (due, ev) → locAccOf ev = some a →
      a.got = none ∧ a.reach ≤ s.now ∧ Machine.servedNow s (waitingReqs s) (locReq a) = true ∧
      ∀ b ∈ accesses s a.core, a.cx.core = a.core → b.cx.core = b.core → b.got = none → a.reach ≤ b.reach) ∧
    (∀ i due ev a, scalarServed s = some i → s.pend[i]? = some (due, ev) → locAccOf ev = some a → a.cx.core = a.core →
      ∀ m ∈ (getCore s a.core).moves, a.reach ≤ m.reach) ∧
    (∀ q, Machine.servedNow s (waitingReqs s) q = true → s.now < q.reach + 10 →
      banksFree s q.core q.banks = true ∧
      ∀ b ∈ waitingReqs s, b.core = q.core → b.banks &&& q.banks ≠ 0 → tableRank s.now q ≤ tableRank s.now b) ∧
    ∀ c a, a ∈ accesses s c → a.got = none → a.reach + 10 ≤ s.now → ownTurn s a = true →
      underTest s (locReq a) = false → scalarServed s ≠ none

namespace Sys2Proof.Claims

/-- An operand that is no link port and no deposit slot. -/
def plain (o : Opnd) : Bool :=
  match o with
  | .m _ => false
  | _ => true

/-- Deposit slot `m` of a core holds `v`, absent or present; every other slot is as before. -/
def SlotBecomes (s t : State) (c m : Nat) (v : Word) (present : Bool) : Prop :=
  (getSlot t c m).val = v ∧ (getSlot t c m).present = present ∧ (getSlot t c m).owner = (getSlot s c m).owner ∧
  ∀ d i, ¬(d = c ∧ i = m) → getSlot t d i = getSlot s d i

/-- A link queue becomes `k`; every other queue is as before. -/
def LinkBecomes (s t : State) (c port : Nat) (k : Link) : Prop :=
  getLink t c port = k ∧ ∀ d i, ¬(d = c ∧ i = port) → getLink t d i = getLink s d i

/-- Nobody sleeps on a slot of a core (R123). -/
def noSleeper (s : State) (c m : Nat) : Prop := ∀ u, (getSlot s c m).owner = some u → (getStrand s c u).st ≠ .blocked

/-- The checks of a mailbox operand pass. -/
def mayUse (s : State) (o : Opnd) (write : Bool) : Prop := checkMail s s.cur o write = none

end Sys2Proof.Claims

/-- R105, R317, R319, R321, R329, R330, R332: `mov` between registers, from a slot that holds a word, from an own link port's head when no older pop waits
for it, to a slot, and from an empty slot; `mpk` reads without consuming; `mclr` empties; `lnks` reports. -/
def Sys2Proof.Claims.MailboxResults : Prop :=
  ∀ (x : Args) (s : State), Performs s x → InRotation s →
    let c := s.cur.core
    (plain x.a = true → plain x.b = true → Gives (.mov x) s x.a (src s x.b)) ∧
    (∀ (m : BitVec 5), x.b = .m m → plain x.a = true → mayUse s x.b false →
      (4 ≤ m.toNat → (curSlot s m.toNat).present = true →
        ∃ t, exec (.mov x) s = .next t ∧ Resumed s t s.cur x.a (curSlot s m.toNat).val ∧
          SlotBecomes s t c m.toNat (curSlot s m.toNat).val false) ∧
      (m.toNat < 4 → popsBefore s s.cur m.toNat = 0 → ∀ v, headFor (getLink s c m.toNat) (claimOf s c s.cur.strand) = some v →
        ∃ t, exec (.mov x) s = .next t ∧ Resumed s t s.cur x.a v ∧ LinkBecomes s t c m.toNat (popLink (getLink s c m.toNat))) ∧
      (mailWord s s.cur m.toNat = none →
        ∃ t, exec (.mov x) s = .next t ∧ Leaves s t .blocked (mailWhy m.toNat false) true ∧ OutsideSame s t ∧
          coreBody (curCore t) = coreBody (curCore s))) ∧
    (∀ (m : BitVec 5), x.a = .m m → plain x.b = true → mayUse s x.a true →
      (4 ≤ m.toNat → noSleeper s c m.toNat →
        ∃ t, exec (.mov x) s = .next t ∧ Resumed s t s.cur .none 0 ∧ SlotBecomes s t c m.toNat (src s x.b) true) ∧
      (m.toNat < 4 →
        ∃ t, exec (.mov x) s = .next t ∧
          t.pend = s.pend ++ [(s.now + 4, .linkPushEntry
            ⟨s.cur, neighbour c m.toNat, farPort m.toNat, src s x.b, claimOf s c s.cur.strand, false⟩)] ∧
          (curStrand t).st = .waiting ∧ BytesSame s t ∧ OthersSame s t c s.cur.strand ∧ ∀ o, rd t s.cur o = rd s s.cur o)) ∧
    (∀ (m : BitVec 5), x.b = .m m → mayUse s x.b true → ∀ v, mailWord s s.cur m.toNat = some v → Gives (.mpk x) s x.a v) ∧
    (∀ (m : BitVec 5), x.a = .m m → mayUse s x.a true → 4 ≤ m.toNat →
      ∃ t, exec (.mclr x) s = .next t ∧ Resumed s t s.cur .none 0 ∧
        SlotBecomes s t c m.toNat (curSlot s m.toNat).val false) ∧
    Gives (.lnks x) s x.a (lnksItem s s.cur (bits (src s x.a) 1 0))

/-- R331: `mbind` by strand 0 gives a slot an owner, or none, and empties it; a port raises 0x1A, and so does the old owner when
it is Blocked at the slot. -/
def Sys2Proof.Claims.SlotBinding : Prop :=
  ∀ (x : Args) (s : State) (m : BitVec 5), x.a = .m m → s.cur.strand = 0 → Performs s x → InRotation s →
    let c := s.cur.core
    let owner := if bit (src s x.b) 4 then none else some (bits (src s x.b) 3 0)
    (m.toNat < 4 → TrapsWith (.mbind x) s 0x1A 0 s.cur.addr) ∧
    (4 ≤ m.toNat → (∀ u, readsSlot (getStrand s c u) m.toNat = false) →
      ∃ t, exec (.mbind x) s = .next t ∧ Resumed s t s.cur .none 0 ∧ (curSlot t m.toNat).present = false ∧
        (curSlot t m.toNat).owner = owner ∧ (∀ e ∈ (curCore t).deferred, e.slot ≠ m.toNat) ∧
        ∀ d i, ¬(d = c ∧ i = m.toNat) → getSlot t d i = getSlot s d i) ∧
    ∀ u w, 4 ≤ m.toNat → (curSlot s m.toNat).owner = some u → u ≠ 0 → owner ≠ some u →
      readsSlot (getStrand s c u) m.toNat = true → waitOf s c u = some w → w.cx.core = c → w.cx.strand = u →
      ∃ t, exec (.mbind x) s = .next t ∧ (curSlot t m.toNat).owner = owner ∧ (getStrand t c u).st = .trapped ∧
        Recorded (getStrand t c u) 0x1A 0 w.cx.addr w.cx.word ∧ GoesOn t s.cur (nextPc s.cur)

/-- R105, R319, R321, R329 to R332: the mailbox instructions, and the binding of a deposit slot. -/
def Obligations.MailboxInstructions : Prop := Sys2Proof.Claims.MailboxResults ∧ Sys2Proof.Claims.SlotBinding

/-- R323, R328, R322, R324, R123: `send` and `sendl` leave for their latency; a deposit is refused, applied or deferred, and wakes its slot's owner from
`sleep`; its answer
completes the sender or raises 0x1A. -/
def Sys2Proof.Claims.DepositResults : Prop :=
  (∀ (x : Args) (s : State) (m : BitVec 7), x.a = .num m → Performs s x →
    let c := bits (src s x.b) 9 0
    let cores := maskCores s.cur.core (bits (src s x.b) 15 0)
    (sendAllowed s s.cur c = true →
      ∃ t, exec (.send x) s = .next t ∧ LeavesUntil s t (s.now + sendLat s.cur.core c)
        (.deposit ⟨s.cur, c, m.toNat, src s x.c, taskOf s s.cur.core s.cur.strand, sendLat s.cur.core c, false⟩)) ∧
    (sendAllowed s s.cur c = false → TrapsWith (.send x) s 0x05 0 s.cur.addr) ∧
    (cores ≠ [] → (∀ d ∈ cores, sendAllowed s s.cur d = true) →
      ∃ t j lat, exec (.sendl x) s = .next t ∧ LeavesUntil s t (s.now + lat) (.sendlStage j 1) ∧ j.cores = cores ∧ j.slot = m.toNat ∧
        j.val = src s x.c ∧ (∀ d ∈ cores, sendLat s.cur.core d ≤ lat) ∧ ∃ d ∈ cores, sendLat s.cur.core d = lat) ∧
    (cores = [] → InRotation s → Gives (.sendl x) s .none 0)) ∧
  (∀ (s : State) (m : DepMsg),
    (depositAccepted s m.cx m.task m.core m.slot = false →
      exec (.deposit m) s = .next { s with pend := s.pend ++ [(s.now + m.lat, .sendAnswer m.cx false)] }) ∧
    (depositAccepted s m.cx m.task m.core m.slot = true → mustDefer s m.core m.slot = false → noSleeper s m.core m.slot →
      ∃ t, exec (.deposit m) s = .next t ∧ SlotBecomes s t m.core m.slot m.val true ∧ BytesSame s t ∧
        t.pend = s.pend ++ [(s.now + m.lat, .sendAnswer m.cx true)] ∧ ∀ d u, getStrand t d u = getStrand s d u) ∧
    (∀ u w, depositAccepted s m.cx m.task m.core m.slot = true → mustDefer s m.core m.slot = false →
      (getSlot s m.core m.slot).owner = some u → waitOf s m.core u = some w → w.why = .sleep → w.cx.core = m.core → w.cx.strand = u →
      (getStrand s m.core u).st = .blocked → Undisturbed (getStrand s m.core u) →
      ∃ t, exec (.deposit m) s = .next t ∧ SlotBecomes s t m.core m.slot m.val true ∧ BytesSame s t ∧ GoesOn t w.cx (nextPc w.cx)) ∧
    (depositAccepted s m.cx m.task m.core m.slot = true → mustDefer s m.core m.slot = true →
      bufferUsed (getCore s m.core) < 16 → (getCore s m.core).heldBack = [] →
      ∃ t, exec (.deposit m) s = .next t ∧ (getCore t m.core).deferred = (getCore s m.core).deferred ++ [⟨m.slot, m.val⟩] ∧
        t.pend = s.pend ++ [(s.now + m.lat, .sendAnswer m.cx true)] ∧ ∀ d i, getSlot t d i = getSlot s d i) ∧
    (depositAccepted s m.cx m.task m.core m.slot = true → mustDefer s m.core m.slot = true →
      (16 ≤ bufferUsed (getCore s m.core) ∨ (getCore s m.core).heldBack ≠ []) →
      ∃ t, exec (.deposit m) s = .next t ∧ (getCore t m.core).heldBack = (getCore s m.core).heldBack ++ [m] ∧
        (getCore t m.core).deferred = (getCore s m.core).deferred ∧ t.pend = s.pend ∧ (∀ d i, getSlot t d i = getSlot s d i) ∧
        ∀ w, waitOf s m.cx.core m.cx.strand = some w → w.cx = m.cx →
          waitOf t m.cx.core m.cx.strand = some { w with why := .deferred m.core m.slot, counted := true, count := 0 })) ∧
  ∀ (s : State) (cx : Ctx), stillWaits s cx = true →
    (Undisturbed (getStrand s cx.core cx.strand) →
      ∃ t, exec (.sendAnswer cx true) s = .next t ∧ RegisterFrame s t cx .none ∧ GoesOn t cx (nextPc cx)) ∧
    ∃ t, exec (.sendAnswer cx false) s = .next t ∧ TrapEffect s t cx.core cx.strand 0x1A 0 cx.word cx.addr cx.addr

/-- R319, R139, R328: pushes enter, words that have come are read, deferred deposits are applied and held-back ones enter the
buffer; the last stage of a `sendl` completes it. -/
def Sys2Proof.Claims.MailboxHappenings : Prop :=
  ∀ (s : State),
    (∀ p : Push, Awaits s p.cx → (getLink s p.core p.port).words.length < 4 → claimFits (getLink s p.core p.port) p.claim = true →
      (getLink s p.core p.port).blocked = [] →
      ∃ t, exec (.linkPushEntry p) s = .next t ∧ Resumed s t p.cx .none 0 ∧
        LinkBecomes s t p.core p.port (enterLink (getLink s p.core p.port) p.claim p.val)) ∧
    (∀ p : Push, stillWaits s p.cx = true → (4 ≤ (getLink s p.core p.port).words.length ∨
        claimFits (getLink s p.core p.port) p.claim = false ∨ (getLink s p.core p.port).blocked ≠ []) →
      ∃ t, exec (.linkPushEntry p) s = .next t ∧ BytesSame s t ∧ OthersSame s t p.cx.core p.cx.strand ∧
        LinkBecomes s t p.core p.port { getLink s p.core p.port with blocked := (getLink s p.core p.port).blocked ++ [p] } ∧
        (getStrand t p.cx.core p.cx.strand).st = (if p.popped then .waiting else .blocked) ∧
        ∀ w, waitOf s p.cx.core p.cx.strand = some w →
          waitOf t p.cx.core p.cx.strand = some { w with counted := !p.popped, count := 0 }) ∧
    (∀ c port p rest, (getLink s c port).words.length < 4 → firstFit (getLink s c port) (getLink s c port).blocked = some (p, rest) →
      Awaits s p.cx →
      ∃ t, exec (.linkBlockedPushEntry c port) s = .next t ∧ Resumed s t p.cx .none 0 ∧
        LinkBecomes s t c port { enterLink (getLink s c port) p.claim p.val with blocked := rest }) ∧
    (∀ c u w m v, waitOf s c u = some w → w.cx.core = c → w.cx.strand = u → w.why = .slot m false → 4 ≤ m → plain w.dst = true →
      mailWord s w.cx m = some v → Undisturbed (getStrand s c u) →
      (∀ n, w.dst = .s n → ∀ y ∈ getK [] (getCore s c).shared n.toNat, y.at_ < s.now) →
      ∃ t, exec (.linkPopWake c u) s = .next t ∧ Resumed s t w.cx w.dst v ∧ SlotBecomes s t c m v false) ∧
    (∀ c m e, (getCore s c).deferred.find? (fun e => e.slot == m) = some e → noSleeper s c m →
      ∃ t, exec (.deferredDepositApply c m) s = .next t ∧ SlotBecomes s t c m e.val true ∧
        (getCore t c).deferred = (getCore s c).deferred.erase e) ∧
    (∀ c m ms, (getCore s c).heldBack = m :: ms → bufferUsed (getCore s c) < 16 →
      ∃ t, exec (.deferredBufferEntry c) s = .next t ∧ (getCore t c).heldBack = ms ∧
        (getCore t c).deferred = (getCore s c).deferred ++ [⟨m.slot, m.val⟩] ∧
        t.pend = s.pend ++ [(s.now + m.lat, .sendAnswer m.cx true)]) ∧
    (∀ j, stillWaits s j.cx = true →
      (∃ c ∈ j.cores, depositAccepted s j.cx j.task c j.slot = false) →
      exec (.sendlStage j 1) s = .next { s with pend := s.pend ++ [(s.now + j.lat, .sendAnswer j.cx false)] }) ∧
    (∀ j c, stillWaits s j.cx = true → j.cores = [c] → depositAccepted s j.cx j.task c j.slot = true →
      (getCore s c).heldBack = [] → bufferUsed (getCore s c) < 16 → j.cx ∉ (getCore s c).reserved →
      ∃ t, exec (.sendlStage j 1) s = .next t ∧ (getCore t c).reserved = j.cx :: (getCore s c).reserved ∧
        t.pend = s.pend ++ [(s.now + 2 * j.lat, .sendlStage j 2)] ∧ ∀ d i, getSlot t d i = getSlot s d i) ∧
    (∀ j c, stillWaits s j.cx = true → j.cores = [c] → mustDefer s c j.slot = false → noSleeper s c j.slot →
      ∃ t, exec (.sendlStage j 2) s = .next t ∧ SlotBecomes s t c j.slot j.val true ∧ j.cx ∉ (getCore t c).reserved ∧
        t.pend = s.pend ++ [(s.now + j.lat, .sendlStage j 3)]) ∧
    ∀ j, Awaits s j.cx →
      ∃ t, exec (.sendlStage j 3) s = .next t ∧ RegisterFrame s t j.cx .none ∧ GoesOn t j.cx (nextPc j.cx)

/-- R319, R322 to R324, R328, R139: deposits into slots, and the happenings of links and slots. -/
def Obligations.Deposits : Prop := Sys2Proof.Claims.DepositResults ∧ Sys2Proof.Claims.MailboxHappenings

namespace Sys2Proof.Claims

/-- A loom's barrier `n` becomes `b`; every other unit of every loom is as before. -/
def BarrierBecomes (s t : State) (l n : Nat) (b : Barrier) : Prop :=
  getBarrier t l n = b ∧ (∀ k i, ¬(k = l ∧ i = n) → getBarrier t k i = getBarrier s k i) ∧
  ∀ k i, getFetcher t k i = getFetcher s k i

/-- A loom's nest fetcher `n` becomes `f`; every other unit of every loom is as before. -/
def FetcherBecomes (s t : State) (l n : Nat) (f : Fetcher) : Prop :=
  getFetcher t l n = f ∧ (∀ k i, ¬(k = l ∧ i = n) → getFetcher t k i = getFetcher s k i) ∧
  ∀ k i, getBarrier t k i = getBarrier s k i

/-- The unit numbers that the fields of the barrier and fetcher instructions name. -/
abbrev curBarrier (s : State) (n : BitVec 7) : Barrier := getBarrier s (loomOf s.cur.core) n.toNat
abbrev curFetcher (s : State) (n : BitVec 7) : Fetcher := getFetcher s (loomOf s.cur.core) n.toNat

end Sys2Proof.Claims

/-- R171, R172, R173, R174, R176: the barrier, fetcher and clock instructions that take effect four cycles on, or within 40
cycles, leave the rotation until then; an arrive or wait at a unit that does not serve the core raises 0x05; a wait at lead 0 completes at
once and another is Blocked; the queries report. -/
def Sys2Proof.Claims.CounterInstructions : Prop :=
  ∀ (x : Args) (s : State), Performs s x →
    (∀ n, x.a = .num n →
      (∃ t, exec (.bari x) s = .next t ∧
        LeavesUntil s t (s.now + 4) (.barrierBindEffect s.cur n.toNat ((src s x.b).setWidth 16) x.b) .prompt) ∧
      (unitServes s s.cur (curBarrier s n).owner (curBarrier s n).mask = true →
        (∃ t, exec (.bara x) s = .next t ∧ LeavesUntil s t (s.now + 4) (.barrierArriveEffect s.cur n.toNat)) ∧
        ((curBarrier s n).lead (colOf s.cur.core) = 0 → InRotation s → Gives (.barw x) s .none 0) ∧
        ((curBarrier s n).lead (colOf s.cur.core) ≠ 0 →
          ∃ t, exec (.barw x) s = .next t ∧ Leaves s t .blocked (.barw n.toNat) true ∧ OutsideSame s t ∧ BytesSame s t)) ∧
      (unitServes s s.cur (curBarrier s n).owner (curBarrier s n).mask = false →
        TrapsWith (.bara x) s 0x05 0 s.cur.addr ∧ TrapsWith (.barw x) s 0x05 0 s.cur.addr) ∧
      (checkArea s s.cur (src s x.b) 32 32 = none →
        ∃ t, exec (.nesti x) s = .next t ∧ LeavesUntil s t (s.now + 4)
          (.nestLoadEffect s.cur n.toNat (readNest s s.cur.core (src s x.b).toNat) x.b) .prompt)) ∧
    (∀ n, x.b = .num n → InRotation s →
      ((curBarrier s n).owner ≠ ownerOf s s.cur.core s.cur.strand → Gives (.barq x) s x.a 0) ∧
      ((curBarrier s n).owner = ownerOf s s.cur.core s.cur.strand → (curBarrier s n).lead (colOf s.cur.core) ≤ 3 →
        ∃ v, Gives (.barq x) s x.a v ∧ bits v 63 48 = (curBarrier s n).phase.toNat ∧ bits v 47 32 = (curBarrier s n).mask.toNat ∧
          (∀ i, i < 16 → bit v (16 + i) = ((curBarrier s n).mask.getLsbD i && (curBarrier s n).lead i == 0)) ∧ bits v 15 2 = 1 ∧
          bits v 1 0 = (curBarrier s n).lead (colOf s.cur.core)) ∧
      ((curFetcher s n).owner ≠ ownerOf s s.cur.core s.cur.strand → Gives (.nestq x) s x.a (BitVec.allOnes 64)) ∧
      ((curFetcher s n).owner = ownerOf s s.cur.core s.cur.strand →
        (curFetcher s n).desc.mask.getLsbD (colOf s.cur.core) = false → Gives (.nestq x) s x.a (BitVec.ofNat 64 (curFetcher s n).rem)) ∧
      ((curFetcher s n).owner = ownerOf s s.cur.core s.cur.strand →
        (curFetcher s n).desc.mask.getLsbD (colOf s.cur.core) = true →
        Gives (.nestq x) s x.a
          (BitVec.ofNat 64 ((getK ({} : Chunk) (curFetcher s n).chunks (colOf s.cur.core)).cr * 2 ^ 32 + (curFetcher s n).rem)))) ∧
    ∃ t d, exec (.stamp x) s = .next t ∧ 1 ≤ d ∧ d ≤ 40 ∧ LeavesUntil s t (s.now + d) (.stampReturn s.cur x.a)

/-- A drawn iteration `i` of a nest: k0 to k3 hold its indices (R168). -/
def Sys2Proof.Claims.IndicesOf (t : State) (cx : Ctx) (d : NestDesc) (i : Nat) : Prop :=
  (rd t cx (.k 0)).toNat = i % d.e0 % 2 ^ 32 ∧ (rd t cx (.k 1)).toNat = i / d.e0 % d.e1 % 2 ^ 32 ∧
  (rd t cx (.k 2)).toNat = i / (d.e0 * d.e1) % d.e2 % 2 ^ 32 ∧ (rd t cx (.k 3)).toNat = i / (d.e0 * d.e1 * d.e2) % 2 ^ 32

/-- A fetcher with the chunk of one column replaced. -/
def Sys2Proof.Claims.withChunk (f : Fetcher) (col : Nat) (k : Chunk) : Fetcher := { f with chunks := setK f.chunks col k }

/-- R175, R168: `nestn` draws an iteration of its core's chunk: the indices stand in k0 to k3 and the result is 1, or 0 when
the nest is empty; at a spent chunk it waits and its core sends a claim, and while a claim is out it waits; a fetcher that does not serve the
core raises 0x05. -/
def Sys2Proof.Claims.NestNext : Prop :=
  ∀ (x : Args) (s : State) (n : BitVec 7), x.b = .num n → (∀ k, x.a ≠ .k k) → Performs s x → InRotation s →
    let f := curFetcher s n
    let col := colOf s.cur.core
    let chunk : Chunk := getK {} f.chunks col
    (unitServes s s.cur f.owner f.desc.mask = false → TrapsWith (.nestn x) s 0x05 0 s.cur.addr) ∧
    (unitServes s s.cur f.owner f.desc.mask = true →
      (chunk.claim = none → chunk.cr = 0 → f.rem = 0 → Gives (.nestn x) s x.a 0) ∧
      (chunk.claim = none → chunk.cr = 0 → 0 < f.rem →
        ∃ t, exec (.nestn x) s = .next t ∧ Leaves s t .waiting (.nest n.toNat) false ∧ BytesSame s t ∧
          FetcherBecomes s t (loomOf s.cur.core) n.toNat (withChunk f col { chunk with claim := some s.now, reached := false })) ∧
      (chunk.claim ≠ none →
        ∃ t, exec (.nestn x) s = .next t ∧ Leaves s t .waiting (.nest n.toNat) false ∧ OutsideSame s t ∧ BytesSame s t) ∧
      (chunk.claim = none → 0 < chunk.cr →
        ∃ t, exec (.nestn x) s = .next t ∧ rd t s.cur x.a = readsAs x.a 1 ∧ GoesOn t s.cur (nextPc s.cur) ∧ BytesSame s t ∧
          FetcherBecomes s t (loomOf s.cur.core) n.toNat
            (withChunk f col { chunk with ci := chunk.ci + 1, cr := chunk.cr - 1 }) ∧
          IndicesOf t s.cur f.desc chunk.ci))

/-- R167, R175: a claim that reaches the fetcher takes the larger of MINCHUNK and a share of what remains, in the order of the members'
columns; when it has returned, a strand that waits for it draws. -/
def Sys2Proof.Claims.NestClaims : Prop :=
  (∀ (s : State) (c n : Nat),
    let f := getFetcher s (loomOf c) n
    let col := colOf c
    let members := ((List.range 16).filter (fun i => f.desc.mask.getLsbD i)).length
    let size := min f.rem (max f.desc.minChunk ((f.rem + 2 * members - 1) / (2 * members)))
    f.desc.mask.getLsbD col = true →
    FetcherBecomes s (claimArrives s c n) (loomOf c) n
      (withChunk { f with next := f.next + size, rem := f.rem - size } col
        { f.chunk col with ci := f.next, cr := size, reached := true }) ∧
    BytesSame s (claimArrives s c n) ∧ ∀ d u, getStrand (claimArrives s c n) d u = getStrand s d u) ∧
  (∀ (s : State) (c u n : Nat) (w : Wait), u < 16 → waitOf s c u = some w → w.why = .nest n → w.cx.core = c → w.cx.strand = u →
    (∀ v, v ≠ u → ∀ y, waitOf s c v = some y → y.why ≠ .nest n) → (∀ k, w.dst ≠ .k k) → Undisturbed (getStrand s c u) →
    let f := getFetcher s (loomOf c) n
    let k := f.chunk (colOf c)
    unitServes s w.cx f.owner f.desc.mask = true → 0 < k.cr →
    let t := claimReturns s c n
    rd t w.cx w.dst = readsAs w.dst 1 ∧ IndicesOf t w.cx f.desc k.ci ∧ GoesOn t w.cx (nextPc w.cx) ∧ BytesSame s t ∧
    FetcherBecomes s t (loomOf c) n (withChunk f (colOf c) { k with ci := k.ci + 1, cr := k.cr - 1, claim := none })) ∧
  ∀ (s : State) (c n : Nat), claimDue s false = some (c, n) → nestEvent s = some (.next (claimArrives s c n)) ∧
    ∃ at_ k, (colOf c, k) ∈ (getFetcher s (loomOf c) n).chunks ∧ k.claim = some at_ ∧ k.reached = false ∧ at_ + 4 ≤ s.now

/-- R167, R168, R171 to R176: the instructions on the loom's barriers and nest fetchers, and the walk of a nest. -/
def Obligations.CountersAndNests : Prop :=
  Sys2Proof.Claims.CounterInstructions ∧ Sys2Proof.Claims.NestNext ∧ Sys2Proof.Claims.NestClaims

/-- R171, R174, R167, R158: what the happenings of the counters do: a binding takes effect or reports its refusal, a descriptor is
loaded with NEXT 0 and all iterations remaining, and the stamp clock returns its value and steps, standing still at its end. -/
def Sys2Proof.Claims.CounterHappenings : Prop :=
  ∀ (s : State) (cx : Ctx) (dst : Opnd), Awaits s cx →
    (∀ n, dst = .s n → ∀ w ∈ getK [] (getCore s cx.core).shared n.toNat, w.at_ ≤ cx.at_) →
    (∀ n mask,
      let b := getBarrier s (loomOf cx.core) n
      let st := bindStatus s cx b.owner mask (b.leads.any (fun x => x.2 != 0))
      ∃ t, exec (.barrierBindEffect cx n mask dst) s = .next t ∧ Resumed s t cx dst (wd st) ∧
        BarrierBecomes s t (loomOf cx.core) n
          (if st ≠ 0 then b else if mask = 0 then {}
          else { owner := ownerOf s cx.core cx.strand, by_ := cx.strand, mask := mask })) ∧
    (∀ n d,
      let f := getFetcher s (loomOf cx.core) n
      bindStatus s cx f.owner d.mask (f.chunks.any (fun x => x.2.cr != 0)) = 0 → d.mask ≠ 0 →
      (d.e0 * d.e1 * d.e2 * d.e3 < 2 ^ 32 →
        ∃ t, exec (.nestLoadEffect cx n d dst) s = .next t ∧ Resumed s t cx dst 0 ∧
          FetcherBecomes s t (loomOf cx.core) n
            { owner := ownerOf s cx.core cx.strand, by_ := cx.strand, desc := d, next := 0,
              rem := d.e0 * d.e1 * d.e2 * d.e3
              chunks := f.chunks.map (fun c => (c.1, { c.2 with ci := 0, cr := 0 })) }) ∧
      (2 ^ 32 ≤ d.e0 * d.e1 * d.e2 * d.e3 →
        ∃ t, exec (.nestLoadEffect cx n d dst) s = .next t ∧ Resumed s t cx dst 4 ∧ FetcherBecomes s t (loomOf cx.core) n f)) ∧
    (s.stampClock < 2 ^ 48 - 1 →
      ∃ t, exec (.stampReturn cx dst) s = .next t ∧ Resumed s t cx dst (wd s.stampClock) ∧ t.stampClock = s.stampClock + 1) ∧
    (2 ^ 48 - 1 ≤ s.stampClock →
      ∃ t, exec (.stampReturn cx dst) s = .next t ∧ Resumed s t cx dst (wd (2 ^ 63 + 2 ^ 48 - 1)) ∧ t.stampClock = s.stampClock) ∧
    ∀ n,
      let b := getBarrier s (loomOf cx.core) n
      let col := colOf cx.core
      arriveDue s (loomOf cx.core) n = true →
      (storesLeft s cx = false → unitServes s cx b.owner b.mask = true → b.lead col < 3 →
        ∃ t, exec (.barrierArriveEffect cx n) s = .next t ∧ Resumed s t cx .none 0 ∧
          BarrierBecomes s t (loomOf cx.core) n { b with leads := setK b.leads col (b.lead col + 1) }) ∧
      (storesLeft s cx = false → unitServes s cx b.owner b.mask = true → 3 ≤ b.lead col →
        ∃ t, exec (.barrierArriveEffect cx n) s = .next t ∧ BarrierBecomes s t (loomOf cx.core) n { b with held := b.held ++ [cx] } ∧
          (getStrand t cx.core cx.strand).st = .blocked ∧ BytesSame s t ∧ OthersSame s t cx.core cx.strand ∧
          ∀ w, waitOf s cx.core cx.strand = some w →
            waitOf t cx.core cx.strand = some { w with why := .bara n, counted := true, count := 0 }) ∧
      (storesLeft s cx = false → unitServes s cx b.owner b.mask = false →
        ∃ t, exec (.barrierArriveEffect cx n) s = .next t ∧ TrapEffect s t cx.core cx.strand 0x05 0 cx.word cx.addr cx.addr) ∧
      (storesLeft s cx = true →
        exec (.barrierArriveEffect cx n) s = .next { s with pend := s.pend ++ [(s.now + 1, .barrierArriveEffect cx n)] })

/-- A strand of loom `l` that waits in `barw` of barrier `n`, in its own context. -/
def Sys2Proof.Claims.WaitsAt (s : State) (l n c u : Nat) (w : Wait) : Prop :=
  ∃ col, col < 16 ∧ u < 16 ∧ c = l * 16 + col ∧ waitOf s c u = some w ∧ w.why = .barw n

/-- R162, R163, R172: the last arrive at a barrier in a cycle is counted; while some member has lead 0 nothing more comes of it. When it gives the
last member its lead, the phase completes: PHASE rises by 1, every member's lead falls by 1, a held arrive of a member whose lead was 3 is counted and its
strand rejoins, and so does every `barw` whose core has lead 0 then. -/
def Sys2Proof.Claims.ArriveCompletes : Prop :=
  ∀ (s : State) (cx : Ctx) (n : Nat), Awaits s cx →
    let l := loomOf cx.core
    let b := getBarrier s l n
    let b1 := b.arrive (colOf cx.core)
    arriveDue s l n = false → storesLeft s cx = false → unitServes s cx b.owner b.mask = true → b.lead (colOf cx.core) < 3 →
    (∀ c u w, WaitsAt s l n c u w → w.cx.core = c ∧ w.cx.strand = u) →
    ((∃ i, b.mask.getLsbD i = true ∧ b1.lead i = 0) → (∀ c u w, ¬ WaitsAt s l n c u w) →
      ∃ t, exec (.barrierArriveEffect cx n) s = .next t ∧ Resumed s t cx .none 0 ∧ BarrierBecomes s t l n b1) ∧
    (b.held.length ≤ 1 →
      (∀ h ∈ b.held, b.mask.getLsbD (colOf h.core) = true ∧ b1.lead (colOf h.core) = 3 ∧ (h.core ≠ cx.core ∨ h.strand ≠ cx.strand) ∧
        Undisturbed (getStrand s h.core h.strand) ∧ ∃ w, waitOf s h.core h.strand = some w ∧ w.why = .bara n) →
      (∀ i, b.mask.getLsbD i = true → 1 ≤ b1.lead i) → (∃ i, b.mask.getLsbD i = true ∧ b1.lead i = 1) →
      ∃ t, exec (.barrierArriveEffect cx n) s = .next t ∧
        let b2 := getBarrier t l n
        b2.phase = b.phase + 1 ∧ b2.mask = b.mask ∧ b2.owner = b.owner ∧ b2.held = [] ∧
        (∀ i, b.mask.getLsbD i = true → b2.lead i = b1.lead i - 1 + (if i ∈ b.held.map (fun h => colOf h.core) then 1 else 0)) ∧
        BytesSame s t ∧ GoesOn t cx (nextPc cx) ∧ (∀ h ∈ b.held, GoesOn t h (nextPc h)) ∧
        ∀ c u w, WaitsAt s l n c u w → b2.lead (colOf c) = 0 → (getStrand s c u).st = .blocked → Undisturbed (getStrand s c u) →
          GoesOn t w.cx (nextPc w.cx))

/-- R162, R163: the last arrive of a cycle completes a phase when every member has a lead of at least 1 and no arrive is held: the phase
number rises by one, every member's lead falls by one. -/
def Sys2Proof.Claims.BarrierPhase : Prop :=
  ∀ (b : Barrier), b.held = [] → b.mask ≠ 0 → (∀ i, b.mask.getLsbD i = true → 1 ≤ b.lead i) →
    (∃ i, b.mask.getLsbD i = true ∧ b.lead i = 1) →
    ∀ fuel, 2 ≤ fuel →
      (phases fuel b).1.phase = b.phase + 1 ∧ (phases fuel b).1.mask = b.mask ∧ (phases fuel b).2 = [] ∧
      (∀ i, b.mask.getLsbD i = true → (phases fuel b).1.lead i = b.lead i - 1) ∧
      ∀ i, b.mask.getLsbD i = false → (phases fuel b).1.lead i = b.lead i

/-- R158, R162, R163, R167, R171, R172, R174: the happenings of the counters, and the phase of a barrier. That a claim on its way stays so when its fetcher is
loaded anew, and that status 4 stands last, is log 59; that the stamp clock is drawn from in the cycle of the return is log 71. -/
def Obligations.CountersChange : Prop :=
  Sys2Proof.Claims.CounterHappenings ∧ Sys2Proof.Claims.ArriveCompletes ∧ Sys2Proof.Claims.BarrierPhase

namespace Sys2Proof.Claims

/-- The bytes of a walk from a pointer hold `bs`; every other byte of every store reads as before. -/
def WalkHolds (s t : State) (p : Word) (bs : List Byte) : Prop :=
  walkBytes t p 0 bs.length = bs ∧
  ∀ c a, (∀ j : Nat, j < bs.length → ¬(c = ptrCore (advance p j) ∧ a = ptrOff (advance p j))) → lsRead t c a = lsRead s c a

/-- The vector unit has taken the instruction `i` as the job `j` (R189): its strand is Waiting, and the job stands last in the unit's queue with the
pointers and the length as they are at issue. In a free unit it begins, its first run coming within 6 cycles, and it completes no sooner
than 6 cycles and those of its blocks on. -/
structure VectorTakes (s t : State) (i : Instr) (j : UJob) : Prop where
  leaves : Leaves s t .waiting .flight false
  queue : (curCore t).vuQ = (curCore s).vuQ ++ [j]
  job : j.instr = i ∧ j.cx = s.cur ∧ j.vl = vlOf s s.cur ∧
    j.ps = [ptrVal s s.cur (argsOf i).a, ptrVal s s.cur (argsOf i).b, ptrVal s s.cur (argsOf i).c]
  begins : (curCore s).vuQ = [] → j.started = true ∧ s.now ≤ j.base ∧ j.base ≤ s.now + 6 ∧ j.due = s.now + 6 + j.cycles
  waits : (curCore s).vuQ ≠ [] → j.started = false
  pend : t.pend = s.pend ++ (if j.started = true ∧ j.runs = 0 then [(j.due, .vectorComplete { cx := s.cur })] else [])
  bytes : BytesSame s t
  others : ∀ d u, ¬(d = s.cur.core ∧ u = s.cur.strand) → getStrand t d u = getStrand s d u

/-- What the runs of a job do, one after another. -/
def runsMade (s : State) (j : UJob) : State := ((List.range j.runs).foldl (fun a k => vecRun a.1 a.2 k) (s, j)).1

/-- The vector instruction is taken, and its runs store `bs` by the walk from `p` and change nothing else. -/
def VectorStoresAt (i : Instr) (s : State) (p : Word) (bs : List Byte) : Prop :=
  ∃ t j, exec i s = .next t ∧ VectorTakes s t i j ∧ WalkHolds t (runsMade t j) p bs ∧ (runsMade t j).mem = t.mem ∧
    ∀ d u, getStrand (runsMade t j) d u = getStrand t d u

/-- The vector instruction stores `bs` through the pointer of its destination and nothing else. -/
abbrev VectorStores (i : Instr) (s : State) (x : Args) (bs : List Byte) : Prop := VectorStoresAt i s (vop s s.cur x.a).p bs

/-- Element 0 of an operand, decoded through its window (R71). -/
def elem0 (s : State) (o : Opnd) : FV :=
  let v := vop s s.cur o
  winDecode v.win (ofBytes (walkBytes s v.p 0 (elemSize v.win)))

/-- The bytes of a value stored through an operand's window (R71, R68). -/
def stored (s : State) (o : Opnd) (r : Rnd) (sat : Bool) (v : FV) : List Byte :=
  let d := vop s s.cur o
  toBytes (elemSize d.win) (winEncode d.win r sat v)

/-- The operands of one element pass their checks and no watchpoint matches; none is a window-3 block. -/
def OneElement (s : State) (ops : List (Opnd × Bool × Bool)) : Prop :=
  vlOf s s.cur = 1 ∧ ∀ o ∈ ops, (vop s s.cur o.1).win ≠ 3 ∧ checkVop s s.cur (vop s s.cur o.1) 1 = none ∧
    watchWalk s s.cur o.2.1 o.2.2 (vop s s.cur o.1).p (elemSize (vop s s.cur o.1).win) = none

abbrev vrnd (x : Args) : Rnd := rndOf x.mod.toNat

/-- The value of an element: from the instruction's fields, its scalar operand, and the elements of the operands fa, fb and fc. -/
abbrev ElemFn := Args → Word → FV → FV → FV → FV

/-- R193, R194, R197, R198: each element-wise instruction with the pointer operands it reads besides its destination, whether it reads that too, its
scalar operand, and the value it stores. -/
def elementRows : List ((Args → Instr) × (Args → List Opnd) × Bool × (Args → Opnd) × ElemFn) := [
  (.vadd, fun x => [x.b, x.c], false, fun _ => .none, fun x _ _ b c => rnd32 (vrnd x) (FV.add (vrnd x) b c)),
  (.vsub, fun x => [x.b, x.c], false, fun _ => .none, fun x _ _ b c => rnd32 (vrnd x) (FV.add (vrnd x) b c.neg)),
  (.vmul, fun x => [x.b, x.c], false, fun _ => .none, fun x _ _ b c => rnd32 (vrnd x) (b.mul c)),
  (.vfma, fun x => [x.b, x.c], true, fun _ => .none, fun x _ a b c => rnd32 (vrnd x) (FV.add (vrnd x) (b.mul c) a)),
  (.vmin, fun x => [x.b, x.c], false, fun _ => .none, fun _ _ _ b c => b.min78 c),
  (.vmax, fun x => [x.b, x.c], false, fun _ => .none, fun _ _ _ b c => b.max78 c),
  (.vabs, fun x => [x.b], false, fun _ => .none, fun _ _ _ b _ => b.abs),
  (.vneg, fun x => [x.b], false, fun _ => .none, fun _ _ _ b _ => b.neg),
  (.vexp, fun x => [x.b], false, fun _ => .none, fun _ _ _ b _ => expNat b),
  (.vrcp, fun x => [x.b], false, fun _ => .none, fun _ _ _ b _ => recip b),
  (.vrsq, fun x => [x.b], false, fun _ => .none, fun _ _ _ b _ => rsqrt b),
  (.vcvt, fun x => [x.b], false, fun _ => .none, fun _ _ _ b _ => b),
  (.vscal, fun x => [x.b], false, fun x => x.c, fun x g _ b _ => rnd32 (vrnd x) (b.mul (fpOf g))),
  (.vfill, fun _ => [], false, fun x => x.b, fun _ g _ _ _ => fpOf g),
  (.vclamp, fun x => [x.b], false, fun x => x.c,
    fun _ g _ b _ => (b.max78 (fpOf g)).min78 (fpOf (BitVec.ofNat 64 (bits g 63 32)))),
  (.vsel, fun x => [x.b, x.c], true, fun _ => .none, fun _ _ a b c => if a.isZero.isSome then c else b)]

/-- R198: the condition that the modifier of `vcmp` names. -/
def vcmpHolds (k : Nat) (a b : FV) : Bool :=
  match k with
  | 0 => a.eqv b
  | 1 => !a.eqv b
  | 2 => a.lt b
  | 3 => a.le b
  | _ => a.isNan || b.isNan

/-- R196, R82: the value of a reduction of one element. -/
def reductionRows : List ((Args → Instr) × (Args → List Opnd) × (State → Args → FV)) := [
  (.vsum, fun x => [x.b], fun s x => elem0 s x.b),
  (.vrmax, fun x => [x.b], fun s x => elem0 s x.b),
  (.vrmin, fun x => [x.b], fun s x => elem0 s x.b),
  (.vdot, fun x => [x.b, x.c], fun s x => rnd32 (vrnd x) ((elem0 s x.b).mul (elem0 s x.c)))]

/-- Element `i` of a walk through a window other than 3 (R71). -/
def elemAt (s : State) (o : VOp) (i : Nat) : FV := winDecode o.win (ofBytes (walkBytes s o.p (i * elemSize o.win) (elemSize o.win)))

/-- Element `k` of the window-3 block at byte `off` of a walk (R73 to R76): a block that is not well formed reads as NaN. -/
def blockElem (s : State) (p : Word) (off k : Nat) : FV :=
  winDecode 3 (((decodeCF8 (walkBytes s p off 80)).map (fun es => (nth 0 es k).toNat)).getD 0x7F)

/-- Element `i + k` of an operand, `i` being the first of a block, of which a window-3 operand has reached byte `off`. -/
def operandElem (s : State) (o : VOp) (i k : Nat) : FV := if o.win = 3 then blockElem s o.p o.off k else elemAt s o (i + k)

/-- The byte at which block `m` of a window-3 walk begins: each block has the sectors that its header names (R74). -/
def blockStart (s : State) (p : Word) : Nat → Nat
  | 0 => 0
  | m + 1 => let off := blockStart s p m; off + 16 * cf8Sectors (nth 0 (walkBytes s p off 1) 0)

/-- Element `i` of a walk as FP32 (R82). -/
def walkElem (s : State) (o : VOp) (i : Nat) : FV :=
  if o.win = 3 then blockElem s o.p (blockStart s o.p (i / 64)) (i % 64) else elemAt s o i

/-- The `n` bytes of a walk from byte `i` on hold `bs`; every other byte of every store reads as before. -/
def WalkHoldsFrom (s t : State) (p : Word) (i : Nat) (bs : List Byte) : Prop :=
  walkBytes t p i bs.length = bs ∧
  ∀ c a, (∀ j : Nat, j < bs.length → ¬(c = ptrCore (advance p ((i + j : Nat) : Int)) ∧ a = ptrOff (advance p ((i + j : Nat) : Int)))) →
    lsRead t c a = lsRead s c a

/-- The operands of a vector instruction pass their checks over VL elements and no watchpoint matches; VL suits a window-3 operand (R188). -/
def ManyElements (s : State) (ops : List (Opnd × Bool × Bool)) : Prop :=
  1 ≤ vlOf s s.cur ∧ vlOf s s.cur ≤ 65536 ∧ ∀ o ∈ ops, ((vop s s.cur o.1).win = 3 → vlOf s s.cur % 64 = 0) ∧
    checkVop s s.cur (vop s s.cur o.1) (vlOf s s.cur) = none ∧
    watchWalk s s.cur o.2.1 o.2.2 (vop s s.cur o.1).p (walkLen (vop s s.cur o.1) (vlOf s s.cur)) = none

/-- Block `k` of an instruction under way whose elements have the values `val` stores them through its destination, and changes nothing else in the
stores (R189, R190): elements one after another, or a window-3 block. -/
def BlockStores (s : State) (j : UJob) (i n k : Nat) (r : Rnd) (sat : Bool) (val : Nat → FV) : Prop :=
  (j.dst.win ≠ 3 →
    WalkHoldsFrom s (vecRun s j k).1 j.dst.p (i * elemSize j.dst.win)
      ((List.range n).flatMap (fun e => toBytes (elemSize j.dst.win) (winEncode j.dst.win r sat (val e))))) ∧
  (j.dst.win = 3 →
    let bs := encodeCF8 ((List.range n).map (fun e => BitVec.ofNat 8 (winEncode 3 r sat (val e))))
    WalkHoldsFrom s (vecRun s j k).1 j.dst.p j.dst.off bs ∧ (vecRun s j k).2.dst.off = j.dst.off + bs.length) ∧
  (vecRun s j k).1.mem = s.mem ∧ (vecRun s j k).1.pend = s.pend

/-- The first element and the number of elements of block `k` (R189): blocks of 64 when an operand goes through window 3, else of 32 when one has
4-byte elements, and of 64 when none has. -/
def blockOf (wins : List Nat) (vl k : Nat) : Nat × Nat :=
  let b := if 3 ∈ wins then 64 else if 0 ∈ wins then 32 else 64
  (k * b, min b (vl - k * b))

/-- The windows of a job's destination and of the operands it reads. -/
def jobWins (j : UJob) (n : Nat) : List Nat := (List.range n).map (fun k => ptrWin (nth 0 j.ps k))

/-- R196, R82: the combination of two values of which either may be absent, the tree of 2^n values, and the reduction of `vl` values. -/
def combine (op : FV → FV → FV) : Option FV → Option FV → Option FV
  | none, b => b
  | a, none => a
  | some a, some b => some (op a b)

def treeOf (op : FV → FV → FV) (x : Nat → Option FV) : Nat → Nat → Option FV
  | 0, i => x i
  | n + 1, i => combine op (treeOf op x n (2 * i)) (treeOf op x n (2 * i + 1))

def reduceOver (op : FV → FV → FV) (vl : Nat) (x : Nat → FV) : Option FV :=
  (List.range (cdiv vl 32)).foldl (fun r b => combine op r (treeOf op (fun i => if i < vl then some (x i) else none) 5 b)) none

/-- R196, R82: the reductions, with the sources they read, the operation they combine with, the value of an element, and that of no element. -/
def reduceRows : List ((Args → Instr) × (Args → List Opnd) × (Args → FV → FV → FV) × (Args → FV → FV → FV) × FV) := [
  (.vsum, fun x => [x.b], fun x a b => rnd32 (vrnd x) (FV.add (vrnd x) a b), fun _ b _ => b, pzero),
  (.vrmax, fun x => [x.b], fun _ a b => a.max78 b, fun _ b _ => b, .nan false),
  (.vrmin, fun x => [x.b], fun _ a b => a.min78 b, fun _ b _ => b, .nan false),
  (.vdot, fun x => [x.b, x.c], fun x a b => rnd32 (vrnd x) (FV.add (vrnd x) a b), fun x b c => rnd32 (vrnd x) (b.mul c), pzero)]

/-- The vector instructions. -/
def vectorInstrs (x : Args) : List Instr := [
  .vadd x, .vsub x, .vmul x, .vfma x, .vmin x, .vmax x, .vabs x, .vneg x, .vexp x, .vrcp x, .vrsq x, .vcvt x, .vcpy x, .vsum x,
  .vrmax x, .vrmin x, .vdot x, .vscal x, .vfill x, .vclamp x, .vcmp x, .vsel x, .vgath x, .vscat x, .vtrans x]

end Sys2Proof.Claims

/-- R193, R194, R197, R198, R71, R78: with VL = 1, each element-wise instruction stores its value through the destination window,
and no other byte or register changes. -/
def Sys2Proof.Claims.SingleElements : Prop :=
  ∀ (x : Args) (s : State), Performs s x →
    (∀ r ∈ elementRows, OneElement s ((x.a, r.2.2.1, true) :: (r.2.1 x).map (fun o => (o, true, false))) →
      VectorStores (r.1 x) s x (stored s x.a (vrnd x) (satOf x.mod)
        (r.2.2.2.2 x (src s (r.2.2.2.1 x)) (elem0 s x.a) (elem0 s x.b) (elem0 s x.c)))) ∧
    (OneElement s [(x.a, false, true), (x.b, true, false), (x.c, true, false)] →
      VectorStores (.vcmp x) s x
        (stored s x.a .ne false (if vcmpHolds x.mod.toNat (elem0 s x.b) (elem0 s x.c) then one else pzero)))

/-- R188, R189, R190, R193, R194, R197, R198, R73 to R77: with any VL the unit takes each element-wise instruction whose operands pass their checks; each of its
blocks reads every element of its sources, through window 3 too, before it stores the value of each. -/
def Sys2Proof.Claims.ElementBlocks : Prop :=
  (∀ (x : Args) (s : State), Performs s x →
    (∀ r ∈ elementRows, ManyElements s ((x.a, r.2.2.1, true) :: (r.2.1 x).map (fun o => (o, true, false))) →
      ∃ t j, exec (r.1 x) s = .next t ∧ VectorTakes s t (r.1 x) j ∧ j.g = src s (r.2.2.2.1 x)) ∧
    (ManyElements s [(x.a, false, true), (x.b, true, false), (x.c, true, false)] →
      ∃ t j, exec (.vcmp x) s = .next t ∧ VectorTakes s t (.vcmp x) j)) ∧
  ∀ (s : State) (x : Args) (j : UJob) (k : Nat),
    let a := j.op 0 3
    let b := j.op 1 1
    let c := j.op 2 2
    (∀ r ∈ elementRows, j.instr = r.1 x →
      let p := blockOf (jobWins j (1 + (r.2.1 x).length)) j.vl k
      (3 ∈ jobWins j (1 + (r.2.1 x).length) → p.2 = 64) →
      BlockStores s j p.1 p.2 k (vrnd x) (satOf x.mod) (fun e =>
        r.2.2.2.2 x j.g (operandElem s a p.1 e) (operandElem s b p.1 e) (operandElem s c p.1 e))) ∧
    (j.instr = .vcmp x →
      let p := blockOf (jobWins j 3) j.vl k
      (3 ∈ jobWins j 3 → p.2 = 64) →
      BlockStores s j p.1 p.2 k .ne false (fun e => if vcmpHolds x.mod.toNat (operandElem s b p.1 e) (operandElem s c p.1 e) then one else pzero))

/-- R193, R194, R197, R198, R71, R78, R188 to R190: the element-wise instructions, with VL = 1 as a whole and with any VL block by block.
That the first run of the unit comes within 6 cycles of its start is log 1. -/
def Obligations.VectorElements : Prop := Sys2Proof.Claims.SingleElements ∧ Sys2Proof.Claims.ElementBlocks

/-- R196, R82, R64: with VL = 1 a reduction stores the one element, or the one product, a NaN as that of arithmetic. -/
def Sys2Proof.Claims.SingleReductions : Prop :=
  ∀ (x : Args) (s : State), Performs s x → ∀ r ∈ reductionRows,
    OneElement s ((x.a, false, true) :: (r.2.1 x).map (fun o => (o, true, false))) →
    VectorStores (r.1 x) s x (stored s x.a (vrnd x) (satOf x.mod) (if (r.2.2 s x).isNan then .nan false else r.2.2 s x))

/-- R196, R82, R64, R73 to R76: with any VL, 0 among them, a reduction combines the elements of its sources, through window 3 too, in the fixed tree of
R82, and stores the result, a NaN as that of arithmetic; no other byte of a store or of memory changes. -/
def Sys2Proof.Claims.ReductionTree : Prop :=
  ∀ (x : Args) (s : State), Performs s x → ∀ r ∈ reduceRows,
    let vl := vlOf s s.cur
    let d := vop s s.cur x.a
    vl ≤ 65536 → d.win ≠ 3 → checkVop s s.cur d 1 = none → watchWalk s s.cur false true d.p (elemSize d.win) = none →
    (∀ o ∈ r.2.1 x, ((vop s s.cur o).win = 3 → vl % 64 = 0) ∧ checkVop s s.cur (vop s s.cur o) vl = none ∧
      watchWalk s s.cur true false (vop s s.cur o).p (walkLen (vop s s.cur o) vl) = none) →
    let elem := fun i =>
      val32 (bits32 (r.2.2.2.1 x (walkElem s (vop s s.cur x.b) i) (walkElem s (vop s s.cur x.c) i)))
    let v := (reduceOver (r.2.2.1 x) vl elem).getD r.2.2.2.2
    ∃ t j, exec (r.1 x) s = .next t ∧ VectorTakes s t (r.1 x) j ∧ (runsMade t j).mem = t.mem ∧
      WalkHolds t (runsMade t j) d.p (stored s x.a (vrnd x) (satOf x.mod) (if v.isNan then .nan false else v))

/-- R196, R82, R64, R188 to R190: the reductions, with VL = 1 and with any VL. That the first run of the unit comes within 6 cycles of its start is log 1. -/
def Obligations.VectorReductions : Prop := Sys2Proof.Claims.SingleReductions ∧ Sys2Proof.Claims.ReductionTree

/-- R195, R199, R200: with VL = 1, `vcpy` copies a byte, `vgath` and `vscat` an element of the table that the index names, and `vtrans`
of one column the element. -/
def Sys2Proof.Claims.VectorMoves : Prop :=
  ∀ (x : Args) (s : State), Performs s x → vlOf s s.cur = 1 →
    let a := vop s s.cur x.a
    let b := vop s s.cur x.b
    let ix := vop s s.cur x.c
    let k := ofBytes (walkBytes s ix.p 0 4)
    (checkAccess s s.cur a.p 1 = none → checkAccess s s.cur b.p 1 = none → watchWalk s s.cur false true a.p 1 = none →
      watchWalk s s.cur true false b.p 1 = none → VectorStores (.vcpy x) s x (walkBytes s b.p 0 1)) ∧
    (x.imm = 1 → OneElement s [(x.a, false, true), (x.b, true, false)] →
      VectorStores (.vtrans x) s x (stored s x.a (vrnd x) (satOf x.mod) (elem0 s x.b))) ∧
    (b.win ≠ 3 → a.win ≠ 3 → checkVop s s.cur a 1 = none → checkAccess s s.cur ix.p 4 = none → checkAlign ix.p 4 = none →
      checkPtr s s.cur b.p = none → checkElem s s.cur b k = none → watchWalk s s.cur false true a.p (elemSize a.win) = none →
      watchWalk s s.cur true false ix.p 4 = none → watchWalk s s.cur true false (tableAt b k) (elemSize b.win) = none →
      VectorStores (.vgath x) s x (stored s x.a (vrnd x) (satOf x.mod)
        (winDecode b.win (ofBytes (walkBytes s (tableAt b k) 0 (elemSize b.win)))))) ∧
    (b.win ≠ 3 → a.win ≠ 3 → checkVop s s.cur b 1 = none → checkAccess s s.cur ix.p 4 = none → checkAlign ix.p 4 = none →
      checkPtr s s.cur a.p = none → checkElem s s.cur a k = none → watchWalk s s.cur true false b.p (elemSize b.win) = none →
      watchWalk s s.cur true false ix.p 4 = none → watchWalk s s.cur false true (tableAt a k) (elemSize a.win) = none →
      VectorStoresAt (.vscat x) s (tableAt a k) (stored s x.a (vrnd x) (satOf x.mod) (elem0 s x.b)))

/-- R199: the index pass of `vgath` and `vscat` reads its indices block by block and checks each table element that they address: a check that fails
traps, ends the instruction and stores nothing, and before the last block nothing else comes of the pass. -/
def Sys2Proof.Claims.IndexPass : Prop :=
  ∀ (s : State) (j : UJob) (x : Args) (k : Nat), j.instr = .vgath x ∨ j.instr = .vscat x → 32 * k < j.vl →
    let n := min 32 (j.vl - 32 * k)
    let idx := (List.range n).map (fun e => ofBytes (walkBytes s (nth 0 j.ps 2) (4 * (32 * k + e)) 4))
    (∀ b, firstBad (idx.map (checkElem s j.cx j.table)) = some b →
      let t := (vecRun s j k).1
      (∀ f ∈ (getCore t j.cx.core).vuQ, f.cx ≠ j.cx) ∧ BytesSame s t ∧ Recorded (getStrand t j.cx.core j.cx.strand) b.1 b.2 j.cx.addr j.cx.word ∧
        (j.cx.strand ≠ 0 → (getStrand t j.cx.core j.cx.strand).st = .trapped)) ∧
    (firstBad (idx.map (checkElem s j.cx j.table)) = none → 32 * (k + 1) < j.vl → vecRun s j k = (s, { j with got := j.got ++ idx }))

/-- R188: a vector length above 65,536 raises cause 0x11; with VL = 0 and no operand that fails step 1 of R96, an element-wise
instruction makes no run and completes when the unit has taken its time. That `vcpy` counts as one is the model's choice (log 8). -/
def Sys2Proof.Claims.VectorLengths : Prop :=
  ∀ (x : Args) (s : State), Performs s x →
    (65536 < vlOf s s.cur → ∀ i ∈ vectorInstrs x, TrapsWith i s 0x11 0 s.cur.addr) ∧
    (vlOf s s.cur = 0 →
      (∀ r ∈ elementRows, (∀ o ∈ x.a :: r.2.1 x, checkReserved (vop s s.cur o) = none) →
        ∃ t j, exec (r.1 x) s = .next t ∧ VectorTakes s t (r.1 x) j ∧ j.runs = 0) ∧
      ((∀ o ∈ [x.a, x.b], checkReserved (vop s s.cur o) = none) →
        ∃ t j, exec (.vcpy x) s = .next t ∧ VectorTakes s t (.vcpy x) j ∧ j.runs = 0))

/-- R189: a run of the unit is made when all the banks that it uses have served it: what it changes in the stores is what the run does, the
rest comes later by as much as its banks have delayed it, and behind the last run the completion is due. -/
def Sys2Proof.Claims.VectorRuns : Prop :=
  ∀ (s : State) (j : UJob),
    (∀ c a, lsRead (afterRun s j) c a = lsRead (vecRun s j j.blk).1 c a) ∧
    (j.blk + 1 < j.runs → (afterRun s j).pend = s.pend) ∧
    (j.runs ≤ j.blk + 1 → ∃ due, j.due + runLate s (j.base + j.runAt j.blk) (j.stretches s j.blk) ≤ due ∧
      (afterRun s j).pend = s.pend ++ [(due, .vectorComplete { cx := j.cx })])

/-- R188, R189, R195, R199, R200: the vector moves, the index pass, the vector length, and the runs of the unit.
That the first run of the unit comes within 6 cycles of its start is log 1. -/
def Obligations.VectorTransfers : Prop :=
  Sys2Proof.Claims.VectorMoves ∧ Sys2Proof.Claims.IndexPass ∧ Sys2Proof.Claims.VectorLengths ∧ Sys2Proof.Claims.VectorRuns

namespace Sys2Proof.Claims

/-- The matrix instructions with the kind of their queue entry (R222 to R228, R296). -/
def matrixRows : List ((Args → Instr) × MKind) := [
  (.mma, .mma), (.mmas, .mmas), (.mldb, .mldb), (.mrot, .mrot), (.mdrop, .mdrop), (.mza, .mza), (.mst, .mst), (.mlda, .mlda),
  (.macc, .macc), (.mcorr, .mcorr)]

/-- The entry that a matrix instruction puts into the queue (R204). -/
def entryOf (s : State) (kind : MKind) (x : Args) : MEnt :=
  buildEntry s s.cur kind x (curCore s).mqNext (accNum x.a) (accNum x.b) (slotNum kind x) true (curStrand s).ptr

/-- Nothing on a core waits for what a matrix entry lets go. -/
def QuietCore (s : State) (c u : Nat) : Prop :=
  (getCore s c).rep = none ∧ (getCore s c).mqWait = [] ∧ (getCore s c).joins = [] ∧ ∀ v, v ≠ u → waitOf s c v = none

/-- Element `j` of row `i` of an entry's memory operand, rows of `cols` elements, in the bytes that its runs have read (R213, R222): the raw
code, and its value through the window (R71). A row of window 3 is one block. -/
def rawElem (e : MEnt) (cols i j : Nat) : Nat :=
  if ptrWin e.p = 3 then nth 0 (nth [] (readRaw 3 cols e.bytes e.rows).1 i) j
  else ofBytes ((e.bytes.drop ((i * cols + j) * elemSize (ptrWin e.p))).take (elemSize (ptrWin e.p)))

def opElem (e : MEnt) (cols i j : Nat) : FV := winDecode (ptrWin e.p) (rawElem e cols i j)

/-- Element `q` of the dense row `i` of `mmas` (R215): two values of each group of four stand in the columns that the two halves of the
group's metadata name, the second where both name one. -/
def denseElem (e : MEnt) (i q : Nat) : FV :=
  let nib := (nth 0 ((e.side.drop (i * e.k / 8)).take (e.k / 8)) (q / 4 / 2)).toNat / (if q / 4 % 2 = 0 then 1 else 16) % 16
  if nib / 4 = q % 4 then opElem e (e.k / 2) i (2 * (q / 4) + 1)
  else if nib % 4 = q % 4 then opElem e (e.k / 2) i (2 * (q / 4))
  else winDecode (ptrWin e.p) 0

/-- Element B[q][j] of an entry's slot (R208). -/
def slotElem (s : State) (e : MEnt) (q j : Nat) : FV :=
  let l := getLatch s e.cx.core e.slot
  winDecode l.fmt (getK 0 l.elems (q * 64 + j))

/-- Cell `i`, `j` of a tile of the core of an entry. -/
abbrev cellOf (s : State) (e : MEnt) (tile i j : Nat) : BitVec 32 := getCell (getCore s e.cx.core) tile i j

/-- The positions of a walk of `n` bytes are distinct. -/
def WalkDistinct (p : Word) (n : Nat) : Prop :=
  ∀ i j : Nat, i < n → j < n → ptrCore (advance p i) = ptrCore (advance p j) → ptrOff (advance p i) = ptrOff (advance p j) → i = j

end Sys2Proof.Claims

/-- R203, R204, R201: a matrix instruction enters the queue, or waits for a place in it, and its strand leaves the rotation until the
entry completes; a locked tile gives a retry; a check that fails raises its cause. No accumulator, slot or byte has changed. -/
def Sys2Proof.Claims.MatrixIssue : Prop :=
  ∀ (x : Args) (s : State), Performs s x → ∀ r ∈ matrixRows,
    let e := entryOf s r.2 x
    (∀ cause info, checkMatrix s e x.imm = some (cause, info) → TrapsWith (r.1 x) s cause info s.cur.addr) ∧
    (checkMatrix s e x.imm = none →
      ∃ t, exec (r.1 x) s = .next t ∧ OutsideSame s t ∧ BytesSame s t ∧ OthersSame s t s.cur.core s.cur.strand ∧
        (curCore t).acc = (curCore s).acc ∧ (curCore t).latch = (curCore s).latch ∧
        (e.tiles.any (tileLocked (curCore s)) = true →
          Leaves s t .waiting (.tile (tileMask e)) false ∧ (curCore t).mq = (curCore s).mq ∧
            getK 0 (curCore t).perf 6 = getK 0 (curCore s).perf 6 + 1) ∧
        (e.tiles.any (tileLocked (curCore s)) = false →
          Leaves s t .waiting (.matrix e.id) false ∧
          ((curCore s).mq.length < 16 → (curCore t).mq = (curCore s).mq ++ [e] ∧ (curCore t).mqWait = (curCore s).mqWait) ∧
          (16 ≤ (curCore s).mq.length → (curCore t).mq = (curCore s).mq ∧ (curCore t).mqWait = (curCore s).mqWait ++ [e])))

/-- R222, R225, R227, R228, R289: what the entries do to the tiles: every cell of the shape gets its sum of products, its loaded value, its
correction or +0, and every other cell stays. The correction is stated for a list of one difference. -/
def Sys2Proof.Claims.TileEffects : Prop :=
  ∀ (s : State) (e : MEnt), let t := entryEffect s e
    (∀ tile i j, tile ≠ e.tile ∨ e.kind ∈ [MKind.mldb, .mrot, .mdrop, .mst] → cellOf t e tile i j = cellOf s e tile i j) ∧
    (e.kind = .mza → ∀ i j, cellOf t e e.tile i j = 0) ∧
    (e.kind = .macc → ∀ i j, i < 64 → j < 64 → cellOf t e e.tile i j =
      if e.mod.getLsbD 0 then cellOf s e e.tile2 i j
      else bits32 (rne32 (FV.sum false [val32 (cellOf s e e.tile i j), val32 (cellOf s e e.tile2 i j)]))) ∧
    (e.kind = .mlda → ∀ i j, i < 64 → j < 64 → cellOf t e e.tile i j =
      if i < e.m ∧ j < e.n then
        if e.mod.getLsbD 0 then bits32 (rne32 (FV.sum false [val32 (cellOf s e e.tile i j), opElem e e.n i j]))
        else bits32 (opElem e e.n i j)
      else cellOf s e e.tile i j) ∧
    (e.kind = .mma ∨ e.kind = .mmas → e.k ∈ [16, 32, 48, 64] → ∀ i j, i < 64 → j < 64 → cellOf t e e.tile i j =
      if i < e.m ∧ j < e.n then
        mulCell (5 ≤ ptrWin e.p) (if e.mod.getLsbD 1 then pzero else val32 (cellOf s e e.tile i j))
          ((List.range e.k).map (fun q => if e.kind = .mma then opElem e e.k i q else denseElem e i q))
          ((List.range e.k).map (fun q => slotElem s e q j))
      else cellOf s e e.tile i j) ∧
    (e.kind = .mcorr → e.count = 1 → e.k ∈ [16, 32, 48, 64] → ∀ w : Word, e.side = toBytes 8 w.toNat →
      let row := bits w 13 0 / e.k
      let b := fun j => slotElem s e (bits w 13 0 % e.k) j
      let wide := decide (5 ≤ ptrWin e.p)
      ∀ i j, i < 64 → j < 64 → cellOf t e e.tile i j =
        if bits w 13 0 < e.m * e.k ∧ i = row ∧ j < e.n then
          let d := FV.sum false [(winDecode (ptrWin e.p) (bits w 47 32)).mul (b j),
            ((winDecode (ptrWin e.p) (bits w 31 16)).mul (b j)).neg]
          bits32 (rne32 (FV.sum false [val32 (cellOf s e e.tile i j), if wide then rneExt d else d]))
        else cellOf s e e.tile i j)

/-- R223, R214, R209, R210, R226: what the entries do to the slots and the bytes: a load fills its slot, a rotation brings its bytes to the next core
and lets its own slot take what has come or empty, a drop empties its slot unless the ring has begun to fill it; only `mst` stores. That a successor
slot which still drains keeps the bytes that arrive until it has drained, and that the own slot then takes them, is the model's choice (R209, log
71), and so is it that `mdrop` leaves a slot that the ring has begun to fill (R210, log 71). -/
def Sys2Proof.Claims.SlotEffects : Prop :=
  ∀ (s : State) (e : MEnt), let t := entryEffect s e
    let c := e.cx.core
    let l := getLatch s c e.slot
    BytesSame s t ∧
    (e.kind ∉ [MKind.mldb, .mrot, .mdrop] → ∀ d j, getLatch t d j = getLatch s d j) ∧
    (∀ d j, j ≠ e.slot ∨ (d ≠ c ∧ (e.kind = .mrot → d ≠ e.succ)) → getLatch t d j = getLatch s d j) ∧
    (e.kind = .mdrop → getLatch t c e.slot = if l.inflow then l else {}) ∧
    (e.kind = .mldb → e.n ≤ 64 → (ptrWin e.p = 3 → e.n = 64) →
      let u := getLatch t c e.slot
      u.st = .full ∧ u.fmt = (if ptrWin e.p = 3 then 1 else ptrWin e.p) ∧ u.bind = l.bind ∧
      ∀ q j, j < 64 → getK 0 u.elems (q * 64 + j) = if q < e.k ∧ j < e.n then rawElem e e.n q j else 0) ∧
    (e.kind = .mrot → e.succ = c → t = s) ∧
    (e.kind = .mrot → e.succ ≠ c →
      getLatch t c e.slot = (if l.arrived then { l with st := .full, arrived := false } else if l.inflow then { l with st := .filling } else {}) ∧
      let m := getLatch s e.succ e.slot
      getLatch t e.succ e.slot = { m with
        fmt := e.fmt, elems := e.data, bind := e.bind, inflow := false
        arrived := decide (m.st = .draining), st := if m.st = .draining then .draining else .full })

/-- R226, R205, R206: `mst` takes its rows from the tile when it starts: each cell times the scale, rounded and stored through the window; its runs
write them along the walk and nothing else; the other entries take from their slot what they bring on. -/
def Sys2Proof.Claims.StoreEffects : Prop :=
  ∀ (s : State) (e : MEnt) (t : Nat),
    (e.kind = .mst → ptrWin e.p ≠ 3 →
      (e.start s t).bytes = (List.range e.m).flatMap (fun i => (List.range e.n).flatMap (fun j =>
        toBytes (elemSize (ptrWin e.p)) (winEncode (ptrWin e.p) (rndOf e.mod.toNat) (e.mod.getLsbD 2)
          (rnd32 (rndOf e.mod.toNat) ((val32 (cellOf s e e.tile i j)).mul (fpOf e.scale))))))) ∧
    (e.kind = .mst → e.started = true → e.moved = 0 → e.size = e.bytes.length → e.size ≤ 2 ^ 16 → WalkDistinct e.p e.size →
      WalkHolds s (endEntry s e) e.p e.bytes) ∧
    (e.kind = .mrot → (e.start s t).data = (getLatch s e.cx.core e.slot).elems ∧
      (e.start s t).fmt = (getLatch s e.cx.core e.slot).fmt)

/-- R201, R203, R204, R209, R210, R214, R215, R222 to R228, R289: the issue of matrix instructions, and what their entries do. An entry's effect on tiles
and slots comes about whole when it completes (log 8). The model's choices on slots that drain while the ring fills them, and on an `mdrop` of one
that the ring has begun to fill, are log 71 (R209, R210). -/
def Obligations.MatrixInstructions : Prop :=
  Sys2Proof.Claims.MatrixIssue ∧ Sys2Proof.Claims.TileEffects ∧ Sys2Proof.Claims.SlotEffects ∧ Sys2Proof.Claims.StoreEffects

namespace Sys2Proof.Claims

/-- Nothing on a core waits for what its matrix queue lets go, and nothing is in that queue. -/
def IdleQueue (k : Core) : Prop := k.mq = [] ∧ k.mqWait = [] ∧ k.rep = none ∧ k.joins = []

end Sys2Proof.Claims

/-- Table 9.2, R209, R296: the engine cycles t of an entry: for 8-bit and for 16-bit operands, through window 3 and through the others. Half an odd figure
is rounded up (log 18). -/
def Sys2Proof.Claims.EngineCycles : Prop :=
  ∀ (s : State) (e : MEnt),
    let fig := if 5 ≤ ptrWin e.p then (e.m * e.n * e.k + 8191) / 8192 else (e.m * e.n * e.k + 16383) / 16384
    (e.kind = .mma → engineCycles s e = max 1 fig) ∧
    (e.kind = .mmas → engineCycles s e = max 1 ((max 1 fig + 1) / 2)) ∧
    (e.kind ∈ [MKind.mldb, .mlda, .mst] → ptrWin e.p ≠ 3 →
      engineCycles s e = (e.rows * e.rowLen * elemSize (ptrWin e.p) + 255) / 256) ∧
    (e.kind ∈ [MKind.mldb, .mlda] → ptrWin e.p = 3 → engineCycles s e = (blockStart s e.p e.rows + 255) / 256 + e.rows) ∧
    (e.kind = .mst → ptrWin e.p = 3 → engineCycles s e = ((mstRows (getCore s e.cx.core) e).flatten.length + 255) / 256 + e.m) ∧
    (e.kind = .macc → engineCycles s e = 16) ∧ (e.kind = .mza → engineCycles s e = 4) ∧ (e.kind = .mdrop → engineCycles s e = 0) ∧
    (e.kind = .mrot → e.succ = e.cx.core → engineCycles s e = 0) ∧
    (e.kind = .mrot → e.succ ≠ e.cx.core →
      engineCycles s e = (if 5 ≤ (getLatch s e.cx.core e.slot).fmt then 8192 else 4096) / 256 +
        2 * ((colOf e.succ + 16 - colOf e.cx.core) % 16)) ∧
    (e.kind = .mcorr → engineCycles s e = 4 +
      (((List.range e.count).filter (fun i => decide (bits (wd (ofBytes (walkBytes s e.p (8 + 8 * i) 8))) 13 0 < e.m * e.k))).length * e.n +
        1023) / 1024)

/-- R207, R268, R226: a run of an entry reads bytes of its walk, or writes those that `mst` has taken from its tile, and changes nothing else in the
stores; outside window 3 it ends where a bank word ends, or with the walk. -/
def Sys2Proof.Claims.MatrixRuns : Prop :=
  ∀ (s : State) (c : Nat) (e : MEnt), e.running = true → (getCore s c).mq = [e] →
    let n := (e.runSize s).1
    let t := afterMove s c e
    (e.kind = .mst → WalkDistinct e.p (e.moved + n) → WalkHoldsFrom s t e.p e.moved ((e.bytes.drop e.moved).take n)) ∧
    (e.kind ≠ .mst → BytesSame s t ∧
      ∃ f, (getCore t c).mq = [f] ∧ f.id = e.id ∧ f.moved = e.moved + n ∧ f.bytes = e.bytes ++ walkBytes s e.p e.moved n) ∧
    (ptrWin e.p ≠ 3 ∨ e.kind = .mst → 0 < n ∧ (e.moved + n = e.size ∨ (ptrOff e.p + e.moved + n) % 16 = 0))

/-- R205, R206: the entry that can start takes its unit and is to complete 6 + t cycles on, with t of Table 9.2, unless its banks delay it, and then it
is put off by a cycle; R206, R203: a completed entry of any kind, its runs made, leaves the queue with its effect on the tiles and the slots, its pointer
advances and its strand goes on. -/
def Sys2Proof.Claims.MatrixCourse : Prop :=
  ∀ (s : State),
    (∀ c e, startable s c = some e →
      ∃ t, exec (.matrixEntryStart c e.id) s = .next t ∧
        t.pend = s.pend ++ [(s.now + 6 + engineCycles s e, .matrixEntryComplete c e.id)] ∧ BytesSame s t ∧
        (getCore t c).acc = (getCore s c).acc ∧
        (∀ f ∈ (getCore t c).mq, f.id = e.id → f.started = true) ∧
        (getCore t c).mq.map (·.id) = (getCore s c).mq.map (·.id)) ∧
    (∀ c e, (getCore s c).mq.find? (fun f => f.id == e.id && f.started) = some e → e.running = true →
      ∃ t, exec (.matrixEntryComplete c e.id) s = .next t ∧ t.pend = s.pend ++ [(s.now + 1, .matrixEntryComplete c e.id)] ∧
        BytesSame s t ∧ (getCore t c).acc = (getCore s c).acc ∧ (getCore t c).mq.map (·.id) = (getCore s c).mq.map (·.id) ∧
        ∀ d u, getStrand t d u = getStrand s d u) ∧
    (∀ e, Awaits s e.cx → e.started = true → e.direct = true → e.running = false →
      (getCore s e.cx.core).mq = [e] → QuietCore s e.cx.core e.cx.strand →
      (e.kind = .mrot → e.succ ≠ e.cx.core → IdleQueue (getCore s e.succ)) →
      ∃ t, exec (.matrixEntryComplete e.cx.core e.id) s = .next t ∧ (getCore t e.cx.core).mq = [] ∧ BytesSame s t ∧
        (∀ d, (getCore t d).acc = (getCore (entryEffect s e) d).acc) ∧
        (∀ d j, getLatch t d j = getLatch (entryEffect s e) d j) ∧
        DoneRegisters s t { cx := e.cx, dst := .none, val := none, ptrs := entryIncs e }) ∧
    ∀ e, Awaits s e.cx → e.started = true → e.direct = true → e.inc = .none → (e.kind = .mza ∨ e.kind = .macc) →
      (getCore s e.cx.core).mq = [e] → QuietCore s e.cx.core e.cx.strand →
      ∃ t, exec (.matrixEntryComplete e.cx.core e.id) s = .next t ∧ (getCore t e.cx.core).mq = [] ∧
        Resumed s t e.cx .none 0 ∧ (getCore t e.cx.core).acc = (getCore (entryEffect s e) e.cx.core).acc

/-- R203, R205 to R207, R209, R226, R268, R296: the course of a matrix entry: its time, its runs at the banks and its completion. -/
def Obligations.MatrixHappenings : Prop :=
  Sys2Proof.Claims.EngineCycles ∧ Sys2Proof.Claims.MatrixRuns ∧ Sys2Proof.Claims.MatrixCourse

/-- R216 to R219, R229, R220: `rep` captures its chains and goes on behind them with the sequence in the buffer; `repw` goes on when the
strand has no sequence and else waits for it; a held fault is raised first; a reissue puts an entry into the queue. -/
def Sys2Proof.Claims.RepeatBuffer : Prop :=
  ∀ (x : Args) (s : State),
    (∀ hs, Performs s x → InRotation s → (∀ f ∈ (curStrand s).held, f.copy = true) → (curCore s).rep = none →
      let es := firstPass s s.cur hs
      let count := (src s x.a).toNat
      readChains s s.cur (nextPc s.cur) (bits x.imm 2 0 + 1) = .ok hs →
      (∀ h ∈ hs, (capturable h.instr).isSome = true) → passTilesOwned s s.cur es (bits x.imm 5 3) count = true →
      bits x.imm 63 7 = 0 → 0 < count → count ≤ 4096 → passBad s [] es = false → seqDemand s es count < 1024 →
      ∃ t r, exec (.rep x) s = .next t ∧ (curCore t).rep = some r ∧ r.cx = s.cur ∧ r.chains = hs ∧ r.count = count ∧
        r.stride = bits x.imm 5 3 ∧ r.toggle = bit x.imm 6 ∧ r.pass = 0 ∧ r.idx = 0 ∧
        (∀ p, p < 8 → getK 0 r.copies p = (curStrand s).ptr p) ∧ BytesSame s t ∧
        GoesOn t s.cur (nextPc s.cur + wd ((hs.map (·.len)).foldl (· + ·) 0))) ∧
    (Performs s x → InRotation s → (∀ f ∈ (curStrand s).held, f.copy = true) →
      ((curCore s).rep.any (fun r => r.cx.strand == s.cur.strand) = false → Gives (.repw x) s .none 0) ∧
      ((curCore s).rep.any (fun r => r.cx.strand == s.cur.strand) = true →
        ∃ t, exec (.repw x) s = .next t ∧ Leaves s t .waiting (.rep false) false ∧ OutsideSame s t ∧ BytesSame s t)) ∧
    (∀ f rest, performed s x = true → (curStrand s).held = f :: rest → f.copy = false → ∀ i ∈ [Instr.rep x, .repw x],
      ∃ t, exec i s = .next t ∧ (curStrand t).held = rest ∧
        TrapEffect s t s.cur.core s.cur.strand f.cause f.info f.word s.cur.addr s.cur.addr) ∧
    ∀ c r kind, repReady s c = true → (getCore s c).rep = some r → r.cx.core = c →
      let u := noteIssued s c
      let h := nth ⟨.repw {}, 0, 0, 0⟩ r.chains r.idx
      let cx := { chainCx r.cx h with at_ := s.now }
      let e := passEntry u cx kind (argsOf h.instr) r.stride r.toggle r.pass (fun p => getK 0 r.copies p)
      capturable h.instr = some kind →
      (getStrand u c r.cx.strand).pred (argsOf h.instr).guard.toNat ≠ (argsOf h.instr).sense →
      checkReissue u cx (argsOf h.instr) { e with late := sizeOpen (getCore u c) e } = none →
      ∃ t, exec (.repReissue c) s = .next t ∧ BytesSame s t ∧ (getCore t c).acc = (getCore s c).acc ∧
        (getCore t c).mq = (getCore s c).mq ++ [{ e with late := sizeOpen (getCore u c) e }] ∧
        ∀ q, (e.hasPtr = false ∨ q ≠ e.ptr.toNat) → ∀ r', (getCore t c).rep = some r' → getK 0 r'.copies q = getK 0 r.copies q

/-- R405: a demand that fits under CEIL waits in arrival order; the first waiting demand is granted when the total with it does not
exceed CEIL, and its sequence may reissue from the next cycle on. -/
def Sys2Proof.Claims.PowerGovernor : Prop :=
  ∀ (s : State) (c demand : Nat),
    ((getCore s c).rep.any (fun r => r.demand == demand && !r.granted && !r.stopped) = true → alarmed s = false →
      demand ≤ (getDie s (dieOf c)).ceil →
      ∃ t, exec (.governorRequest c demand) s = .next t ∧
        (getDie t (dieOf c)).waiting = (getDie s (dieOf c)).waiting ++ [(c, demand)] ∧
        (getDie t (dieOf c)).total = (getDie s (dieOf c)).total ∧ t.cores = s.cores ∧ t.mem = s.mem) ∧
    ∀ d rest, (getDie s d).waiting = (c, demand) :: rest → (getDie s d).total + demand ≤ (getDie s d).ceil →
      ∃ t, exec (.powerGrant d) s = .next t ∧ (getDie t d).waiting = rest ∧ (getDie t d).total = (getDie s d).total + demand ∧
        (getDie t d).ceil = (getDie s d).ceil ∧ (∀ r, (getCore t c).rep = some r → r.granted = true ∧ r.after = s.now + 1) ∧
        BytesSame s t ∧ ∀ e u, getStrand t e u = getStrand s e u

/-- R216 to R220, R229, R405: the repeat buffer, and the power governor that a repetition asks. The cycle and the guard of a reissue are as log 20
says. -/
def Obligations.Repetition : Prop := Sys2Proof.Claims.RepeatBuffer ∧ Sys2Proof.Claims.PowerGovernor

namespace Sys2Proof.Claims

/-- The selection unit has taken the instruction `i` as the job `j` (R371): its strand is Waiting, and the job stands last in the unit's queue. In a
free unit it begins, its first run coming within 6 cycles (the model's choice, log 1: no rule states the bound), and is to complete `n` cycles on unless its banks delay it; `ev` is what is
scheduled at once. -/
structure UnitTakes (s t : State) (i : Instr) (j : UJob) (n : Nat) (ev : List (Nat × Instr)) : Prop where
  leaves : Leaves s t .waiting .flight false
  queue : (curCore t).suQ = (curCore s).suQ ++ [j]
  job : j.instr = i ∧ j.cx = s.cur
  begins : (curCore s).suQ = [] → j.started = true ∧ s.now ≤ j.base ∧ j.base ≤ s.now + 6 ∧ j.due = s.now + n
  waits : (curCore s).suQ ≠ [] → j.started = false
  pend : t.pend = s.pend ++ ev
  bytes : BytesSame s t
  others : ∀ e u, ¬(e = s.cur.core ∧ u = s.cur.strand) → getStrand t e u = getStrand s e u

/-- What the runs of a job of the selection unit do, one after another. -/
def unitRunsMade (s : State) (j : UJob) : State := ((List.range (suRuns j)).foldl (fun a k => suRun a.1 a.2 k) (s, j)).1

/-- The heap is the strand's to use (R370). -/
def heapOwn (s : State) : Prop := heapForeign s s.cur = false

end Sys2Proof.Claims

/-- R373, R374, R371: `selk` latches its bank and reads the tables at issue; its runs write its header and its winners by rank, those of `softk` read K
and the logits and write the weights, and each is to complete after the unit's cycles; the lengths, the immediate and the pointers are checked first. -/
def Sys2Proof.Claims.SelectionTakes : Prop :=
  ∀ (x : Args) (s : State), Performs s x →
    let p := ptrVal s s.cur x.a
    let r := ptrVal s s.cur x.b
    let v := src s x.c
    let vl := vlOf s s.cur
    let k := bits x.imm 3 0 + 1
    let set := bits v 21 16
    (1024 < vl ∨ ptrWin p ≠ 5 → TrapsWith (.selk x) s 0x11 0 s.cur.addr) ∧
    (vl ≤ 1024 → ptrWin p = 5 → bits x.imm 10 4 = 0 → bits v 41 32 ≤ 512 → checkAccess s s.cur p (2 * vl) = none →
      checkAccess s s.cur r (8 + 4 * k) = none → checkAlign p 2 = none → checkAlign r 8 = none →
      ∃ t j, exec (.selk x) s = .next t ∧ UnitTakes s t (.selk x) j (6 + cdiv vl 64 + k) [] ∧
        WalkHolds t (unitRunsMade t j) r
          (selkBytes (selkHead s set) k
            (winners ((List.range vl).map (selkCode s (bits v 13 0) (bits v 41 32) set))
              ((List.range vl).map (fun i => ofBytes (walkBytes s p (2 * i) 2))) k)) ∧
        t.tables.latched = s.tables.latched ++ [(set, biasActive s set, s.cur)] ∧
        t.tables.bias = s.tables.bias ∧ t.tables.biasSt = s.tables.biasSt) ∧
    let n := ofBytes (walkBytes s p 0 1)
    let e := elemSize (ptrWin r)
    (ptrWin r = 0 ∨ ptrWin r = 5 ∨ ptrWin r = 6 → checkAccess s s.cur p 8 = none →
      ∃ t j, exec (.softk x) s = .next t ∧ UnitTakes s t (.softk x) j 12 [] ∧ suRuns j = 3 ∧ j.ps = [p, r] ∧
        (n ≤ 16 → checkAccess s s.cur p (8 + 4 * n) = none → checkAccess s s.cur r (n * e) = none → checkAlign p 8 = none →
          checkAlign r e = none → WalkHolds t (unitRunsMade t j) r
          ((softWeights ((List.range n).map (fun i => winDecode 5 (ofBytes (walkBytes s p (8 + 4 * i + 2) 2))))).flatMap
            (fun v => toBytes e (winEncode (ptrWin r) .ne false v)))))

/-- R371, R374: a run of the unit is made when all the bank words that it uses have been served: what it changes in the stores is what the run does, and
behind the last run the completion is due. The first run of `softk` reads K: a K above 16, or a pointer that fails, traps and frees the unit,
and else the instruction takes 2 cycles more for each winner. -/
def Sys2Proof.Claims.SelectionRuns : Prop :=
  ∀ (s : State) (j : UJob),
    (∀ c a, lsRead (afterSuRun s j) c a = lsRead (suRun s j j.blk).1 c a) ∧
    (j.blk + 1 < suRuns j → (afterSuRun s j).pend = s.pend) ∧
    (∀ x, j.instr = .softk x → j.blk = 0 → stillWaits s j.cx = true →
      let p := nth 0 j.ps 0
      let r := nth 0 j.ps 1
      let n := ofBytes (walkBytes s p 0 1)
      let e := elemSize (ptrWin r)
      let bad := firstBad [if 16 < n then some (0x10, 0) else none, checkAccess s j.cx p (8 + 4 * n), checkAccess s j.cx r (n * e),
        checkAlign p 8, checkAlign r e]
      (∀ b, bad = some b →
        let t := afterSuRun s j
        (∀ f ∈ (getCore t j.cx.core).suQ, f.cx ≠ j.cx) ∧ BytesSame s t ∧
          Recorded (getStrand t j.cx.core j.cx.strand) b.1 b.2 j.cx.addr j.cx.word ∧
          (j.cx.strand ≠ 0 → (getStrand t j.cx.core j.cx.strand).st = .trapped)) ∧
      (bad = none → ∃ k, afterSuRun s j = putJob s true k ∧ k.blk = 1 ∧ k.got = [n] ∧ j.due + 2 * n ≤ k.due ∧
        (s.now ≤ j.base → k.due = j.due + 2 * n))) ∧
    (suRuns j ≤ j.blk + 1 → ∃ due, j.due + runLate s (j.base + suRunAt j j.blk) (suStretches j j.blk) ≤ due ∧
      (afterSuRun s j).pend = s.pend ++ [(due, .selectionComplete { cx := j.cx, ptrs := j.incs })])

/-- R371, R373, R374: what `selk` and `softk` select, and the runs of the selection unit. The cycle of the first run and the reading of the tables at
issue are the model's choice (log 1). -/
def Obligations.SelectionResults : Prop := Sys2Proof.Claims.SelectionTakes ∧ Sys2Proof.Claims.SelectionRuns

/-- R370, R371, R375, R376: the heap of a core. A foreign heap raises 0x0D; a push binds a heap without owner, and enters a pair by rank when its run
is made; a pop takes the first; `hclr` empties, for strand 0 a foreign heap too; `htopp` finds the rank at which the mass is reached, the last pair where the heap has dropped nothing
and the mass is not reached, and 0 for an empty heap. An instruction that finds the unit
taken waits for its turn. The cycle of the first run is the model's choice (log 1). -/
def Obligations.HeapResults : Prop :=
  ∀ (x : Args) (s : State), Performs s x →
    let h := (curCore s).heap
    let p := ptrVal s s.cur x.a
    let e := elemSize (ptrWin p)
    ((curCore s).suQ = [] → ¬ heapOwn s →
      TrapsWith (.hpop x) s 0x0D 0 s.cur.addr ∧ TrapsWith (.htopp x) s 0x0D 0 s.cur.addr ∧
        (s.cur.strand ≠ 0 → TrapsWith (.hclr x) s 0x0D 0 s.cur.addr) ∧
        ((ptrWin p = 0 ∨ ptrWin p = 5 ∨ ptrWin p = 6) → vlOf s s.cur ≤ 65536 →
          checkAccess s s.cur p (vlOf s s.cur * e) = none → checkAlign p e = none → TrapsWith (.hpush x) s 0x0D 0 s.cur.addr)) ∧
    ((curCore s).suQ = [] → heapOwn s → (ptrWin p = 0 ∨ ptrWin p = 5 ∨ ptrWin p = 6) → vlOf s s.cur = 1 →
      checkAccess s s.cur p (1 * e) = none → checkAlign p e = none →
      ∃ t j, exec (.hpush x) s = .next t ∧ UnitTakes s t (.hpush x) j 7 [] ∧
        (getCore (unitRunsMade t j) s.cur.core).heap =
          (if h.owner = .none then { h with owner := ownerOf s s.cur.core s.cur.strand } else h).push
            (bits32 (winDecode (ptrWin p) (ofBytes (walkBytes s p 0 e)))) ((src s x.b).setWidth 32)) ∧
    (heapOwn s → InRotation s → (curCore s).suQ = [] → ∀ v i ps, h.pairs = (v, i) :: ps →
      ∃ t, exec (.hpop x) s = .next t ∧ (x.a ≠ x.b → rd t s.cur x.a = readsAs x.a (i.setWidth 64)) ∧
        rd t s.cur x.b = readsAs x.b (v.setWidth 64) ∧ GoesOn t s.cur (nextPc s.cur) ∧ BytesSame s t ∧
        (curCore t).heap = { h with pairs := ps }) ∧
    (heapOwn s → InRotation s → (curCore s).suQ = [] → h.pairs = [] →
      ∃ t, exec (.hpop x) s = .next t ∧ (x.a ≠ x.b → rd t s.cur x.a = readsAs x.a (wd (2 ^ 63))) ∧
        rd t s.cur x.b = readsAs x.b 0 ∧ GoesOn t s.cur (nextPc s.cur) ∧ BytesSame s t ∧ (curCore t).heap = h) ∧
    (heapOwn s ∨ s.cur.strand = 0 → InRotation s → (curCore s).suQ = [] →
      ∃ t, exec (.hclr x) s = .next t ∧ Resumed s t s.cur .none 0 ∧ (curCore t).heap = {}) ∧
    ((curCore s).suQ ≠ [] → ∀ i ∈ [Instr.hpop x, .hclr x, .htopp x],
      ∃ t j, exec i s = .next t ∧ UnitTakes s t i j 0 [] ∧ (curCore t).heap = h) ∧
    ((curCore s).suQ = [] → heapOwn s →
      let goal := rne32 ((toppMass (fsrc s x.b)).mul (val32 h.total))
      (∀ n v, h.pairs ≠ [] → toppLoop goal h.pairs pzero 1 = some (n, v) →
        ∃ t j, exec (.htopp x) s = .next t ∧
          UnitTakes s t (.htopp x) j (6 + cdiv h.pairs.length 32)
            [(s.now + 6 + cdiv h.pairs.length 32,
              .selectionComplete { cx := s.cur, dst := x.a, val := some (wd (v.toNat * 2 ^ 32 + n)) })]) ∧
      (∀ ps v i, h.pairs = ps ++ [(v, i)] → toppLoop goal h.pairs pzero 1 = none → h.evict = false →
        ∃ t j, exec (.htopp x) s = .next t ∧
          UnitTakes s t (.htopp x) j (6 + cdiv h.pairs.length 32)
            [(s.now + 6 + cdiv h.pairs.length 32,
              .selectionComplete { cx := s.cur, dst := x.a, val := some (wd (v.toNat * 2 ^ 32 + h.pairs.length)) })]) ∧
      (h.pairs = [] →
        ∃ t j, exec (.htopp x) s = .next t ∧
          UnitTakes s t (.htopp x) j 6 [(s.now + 6, .selectionComplete { cx := s.cur, dst := x.a, val := some 0 })]) ∧
      (h.pairs ≠ [] → toppLoop goal h.pairs pzero 1 = none → h.evict = true → TrapsWith (.htopp x) s 0x10 0 s.cur.addr))

/-- R372, R377, R378, R379: `rand`, `biasu`, `biasf` and `adpl` leave the rotation until their effect, within their bounds. -/
def Sys2Proof.Claims.TableInstructions : Prop :=
  ∀ (x : Args) (s : State), Performs s x →
    (foreignHandle s (cxTask s s.cur) (src s x.b) = false →
      ∃ t d, exec (.rand x) s = .next t ∧ 1 ≤ d ∧ d ≤ 40 ∧
        LeavesUntil s t (s.now + d) (.controlPlaneReply s.cur
          (.value (randWord ((seqView s (cxTask s s.cur) (bits (src s x.b) 11 0)).dw 5)
            ((seqView s (cxTask s s.cur) (bits (src s x.b) 11 0)).dw 6) (wd (bits (src s x.c) 47 0)))) x.a)) ∧
    (foreignHandle s (cxTask s s.cur) (src s x.b) = true → TrapsWith (.rand x) s 0x12 0 s.cur.addr) ∧
    (s.cur.strand = 0 →
      (∃ t d, exec (.biasf x) s = .next t ∧ 1 ≤ d ∧ d ≤ 40 ∧ LeavesUntil s t (s.now + d)
        (.biasBankFlip s.cur (bits (src s x.a) 5 0) (BitVec.ofNat 24 (bits (src s x.a) 31 8)) x.a)) ∧
      (∃ t d, exec (.adpl x) s = .next t ∧ 1 ≤ d ∧ d ≤ 60 ∧
        LeavesUntil s t (s.now + d) (.adplApply s.cur (src s x.b) (src s x.c) x.a)) ∧
      let count := (src s x.c).toNat
      (0 < count → bits (src s x.b) 25 16 + count ≤ 1024 → checkArea s s.cur (src s x.a) 4 (4 * count) = none →
        ∃ t d vals, exec (.biasu x) s = .next t ∧ 1 ≤ d ∧ d ≤ 60 + cdiv count 16 ∧ vals.length = count ∧
          (∀ i, i < count → vals[i]? = some (BitVec.ofNat 32 (ofBytes (lsBytes s s.cur.core ((src s x.a).toNat + 4 * i) 4)))) ∧
          LeavesUntil s t (s.now + d) (.biasuComplete s.cur (bits (src s x.b) 5 0) (bits (src s x.b) 25 16) vals x.a)))

/-- R366, R378, R379: values go into the inactive bank; a flip makes the inactive bank active with its tag; `adpl` reads, claims and
releases slots. -/
def Sys2Proof.Claims.TableHappenings : Prop :=
  ∀ (s : State) (cx : Ctx) (dst : Opnd), Awaits s cx →
    (∀ set first vals, s.tables.latched.any (fun y => y.1 == set && y.2.1 == 1 - biasActive s set) = false →
      ∃ t, exec (.biasuComplete cx set first vals dst) s = .next t ∧ Resumed s t cx dst 0 ∧
        (∀ i v, vals[i]? = some v →
          getK 0 t.tables.bias (set * 2048 + (1 - biasActive s set) * 1024 + first + i) = v) ∧
        (∀ k, (∀ i, i < vals.length → k ≠ set * 2048 + (1 - biasActive s set) * 1024 + first + i) →
          getK 0 t.tables.bias k = getK 0 s.tables.bias k)) ∧
    (∀ set (tag : BitVec 24),
      ∃ t, exec (.biasBankFlip cx set tag dst) s = .next t ∧ Resumed s t cx dst (biasState t set) ∧
        biasActive t set = 1 - biasActive s set ∧ biasTag t set (1 - biasActive s set) = tag.toNat ∧
        biasTag t set (biasActive s set) = biasTag s set (biasActive s set) ∧
        (∀ k, k ≠ set → biasState t k = biasState s k) ∧ t.tables.bias = s.tables.bias) ∧
    ∀ b c : Word,
      let op := bits b 63 62
      let a := bits b 13 0
      let m := bits c 8 0
      let reason := adplRefusal s op a (bits b 27 16) m (bits c 54 32)
      (reason ≠ 0 → ∃ t, exec (.adplApply cx b c dst) s = .next t ∧ Resumed s t cx dst (refusalWord reason) ∧
        t.tables = s.tables) ∧
      (reason = 0 → op = 3 → ∃ t, exec (.adplApply cx b c dst) s = .next t ∧ Resumed s t cx dst (slotEntry s m) ∧
        t.tables = s.tables) ∧
      (reason = 0 → op = 0 → ∃ t, exec (.adplApply cx b c dst) s = .next t ∧ Resumed s t cx dst 0 ∧ slotValid t m = true ∧
        slotHot t m = bit c 63 ∧ slotAdapt t m = a ∧ slotBatch t m = bits b 27 16) ∧
      (reason = 0 → op = 1 → ∃ t, exec (.adplApply cx b c dst) s = .next t ∧ Resumed s t cx dst 0 ∧ slotEntry t m = 0)

/-- R366, R372, R377 to R379: the instructions on the bias and adaptation tables, and their happenings. -/
def Obligations.BiasAndAdaptation : Prop := Sys2Proof.Claims.TableInstructions ∧ Sys2Proof.Claims.TableHappenings

namespace Sys2Proof.Claims

/-- The global accesses of an instruction (R251 to R253): kind, width, address, data, comparand, destination, and whether the strand's
earlier posted stores come first. -/
def globalAccs (s : State) (x : Args) : List (Instr × GAcc) := [
  (.ldg x, { cx := s.cur, kind := .ld, n := 8 / 2 ^ (x.mod.toNat % 4), va := src s x.b + x.imm, data := 0, cmp := 0, dst := x.a,
             ordered := x.mod.getLsbD 2 }),
  (.stg x, { cx := s.cur, kind := .st, n := 8 / 2 ^ (x.mod.toNat % 4), va := src s x.b + x.imm, data := src s x.a, cmp := 0,
             dst := .none, ordered := x.mod.getLsbD 2 }),
  (.amo x, { cx := s.cur, kind := .amo x.mod, n := if x.mod = 7 then 4 else 8, va := src s x.b, data := src s x.c, cmp := 0,
             dst := x.a, ordered := true }),
  (.amoc x, { cx := s.cur, kind := .amoc, n := if x.mod = 1 then 4 else 8, va := src s x.b, data := src s x.c, cmp := src s x.a,
              dst := x.a, ordered := true }),
  (.red x, { cx := s.cur, kind := .red x.mod, n := if x.mod = 1 ∨ x.mod = 2 then 4 else 8, va := src s x.a, data := src s x.b,
             cmp := 0, dst := .none, ordered := false })]

/-- Whether an access returns a value, and whether it stores. -/
def returns (k : GKind) : Bool := match k with | .st | .red _ => false | _ => true
def stores (k : GKind) : Bool := match k with | .ld => false | _ => true

/-- The issuing core's buffer holds the leaf of an address, and the table says the same. -/
def Translated (s : State) (va : Word) (l : TLeaf) : Prop :=
  bits va 63 48 = 0 ∧ buffered s s.cur.core va.toNat = some (l, 0) ∧ walk s va.toNat = some l

/-- No watchpoint of the strand matches a byte of the access (R143). -/
def Unwatched (s : State) (g : GAcc) : Prop :=
  ∀ i, i < g.n → ∀ load store : Bool, watched s g.cx load store true (g.va.toNat + i) = false

/-- The page admits the access (R234, R235, R344): HBM outside the record pool, W for a store. -/
def PageAdmits (s : State) (g : GAcc) (l : TLeaf) : Prop :=
  inHbm (l.pa g.va.toNat) = true ∧ inPool s (l.pa g.va.toNat) = false ∧ (stores g.kind = true → entW l.entry = true)

/-- The issuing strand can complete within the instruction: in the rotation, with no expired timer. -/
def Calm (s : State) : Prop := InRotation s ∧ (curStrand s).tmrHit = false

end Sys2Proof.Claims

/-- R231, R233, R236, R243, R244, R251 to R253: what a global access does at issue. Misaligned 0x03; outside the 48 bits 0x06; no leaf
buffered: a walk, for whose levels Table 10.4 gives the greatest time, at once or when the die's walker has a place; no memory there 0x06; not writable 0x07. On an immediate page a returning access leaves until it
is performed and a posted one goes on; on a task page a covered store is logged, a covered atomic is logged and returns the old value,
and an access that is not covered asks for its lock. On a peer or host page it goes out and is answered or fails within 700,000 cycles; through
a dead port it fails when it would have completed (R250), which lies at least 1,400 cycles on (Table 10.4) and is free up to 700,000;
what is not native there raises 0x0F. Behind a `fence` with stores outstanding a task's load or atomic waits (R254, log 67), and a load that the L1
serves waits for its banks under test (R407).
That an access takes at least one cycle, and a lock's request at most 24, is the model's reading of a bound (log 1); what a row under test adds is log 45. -/
def Obligations.GlobalIssue : Prop :=
  ∀ (x : Args) (s : State), Performs s x → ∀ r ∈ globalAccs s x,
    let g := r.2
    let c := s.cur.core
    (g.va.toNat % g.n ≠ 0 → TrapsWith r.1 s 0x03 g.va s.cur.addr) ∧
    (g.va.toNat % g.n = 0 →
      (bit g.va 63 = false → bits g.va 62 48 ≠ 0 → TrapsWith r.1 s 0x06 g.va s.cur.addr) ∧
      (bits g.va 63 48 = 0 → buffered s c g.va.toNat = none → walkRoom s (dieOf c) g.va.toNat = true →
        ∃ t d, exec r.1 s = .next t ∧ 1 ≤ d ∧ d ≤ 6 + walkLevels s g.va.toNat * (200 + testDelay s) ∧
          LeavesUntil s t (s.now + d) (.translationWalkComplete ⟨c, g.va.toNat, .access g⟩)) ∧
      (bits g.va 63 48 = 0 → buffered s c g.va.toNat = none → walkRoom s (dieOf c) g.va.toNat = false →
        ∃ t, exec r.1 s = .next t ∧ Leaves s t .waiting .flight false ∧ BytesSame s t ∧ t.pend = s.pend ∧
          (getDie t (dieOf c)).walks = (getDie s (dieOf c)).walks ++ [⟨c, g.va.toNat, .access g⟩]) ∧
      (bit g.va 63 = true → stores g.kind = true → cxTask s s.cur = none → TrapsWith r.1 s 0x07 g.va s.cur.addr) ∧
      ∀ l, Translated s g.va l →
        let pa := l.pa g.va.toNat
        (entAttr l.entry < 2 → inHbm pa = false → inAperture pa = false → TrapsWith r.1 s 0x06 g.va s.cur.addr) ∧
        (entAttr l.entry < 2 → inHbm pa = true → stores g.kind = true → entW l.entry = false →
          TrapsWith r.1 s 0x07 g.va s.cur.addr) ∧
        (entAttr l.entry < 2 → PageAdmits s g l → stores g.kind = true → entAttr l.entry = 0 → cxTask s s.cur = none →
          TrapsWith r.1 s 0x07 g.va s.cur.addr) ∧
        (entAttr l.entry = 1 → PageAdmits s g l → Unwatched s g →
          (returns g.kind = true → ∃ t d, exec r.1 s = .next t ∧ 1 ≤ d ∧ d ≤ 224 + testDelay s ∧
            LeavesUntil s t (s.now + d) (.globalAccessComplete g (.imm pa))) ∧
          (returns g.kind = false → Calm s → postedCount (curCore s) < 64 →
            ∃ t d p, exec r.1 s = .next t ∧ Resumed s t s.cur .none 0 ∧ 1 ≤ d ∧ d ≤ 224 + testDelay s ∧ (curCore t).posted = (curCore s).posted ++ [p] ∧
              p.g = { g with id := p.id } ∧ t.pend = s.pend ++ [(s.now + d, .globalAccessComplete p.g (.imm pa))])) ∧
        (2 ≤ entAttr l.entry → (stores g.kind = true → entW l.entry = true) → Unwatched s g → returns g.kind = true →
          (entAttr l.entry = 2 ∨ gNative g.kind g.n = true) →
          ∃ t p due, exec r.1 s = .next t ∧ Leaves s t .waiting .flight false ∧ BytesSame s t ∧
            (curCore t).posted = (curCore s).posted ++ [p] ∧ p.g = { g with id := p.id } ∧ p.port ≤ 17 ∧
            p.loc = .remote (entAttr l.entry == 3) (entNode l.entry) pa ∧ t.pend = s.pend ++ [(due, .peerTimeout c p.id)] ∧
            (portDead s p.port = false → due = s.now + 700000) ∧
            (portDead s p.port = true → s.now + 1400 ≤ due ∧ due ≤ s.now + 700000)) ∧
        (entAttr l.entry = 3 → (stores g.kind = true → entW l.entry = true) → gNative g.kind g.n = false →
          TrapsWith r.1 s 0x0F 0 s.cur.addr) ∧
        ∀ q, entAttr l.entry = 0 → PageAdmits s g l → cxTask s s.cur = some q →
          (stores g.kind = true → (getLog s c q).length < 4096) →
          (covered s q (flatObj 0 g.va.toNat) (gAsks g.kind) = false →
            ∃ t d e, exec r.1 s = .next t ∧ Leaves s t .waiting .lock false ∧ BytesSame s t ∧ 1 ≤ d ∧ d ≤ 24 ∧
              t.pend = s.pend ++ [(s.now + d, .lockRequestArrival e)] ∧ e.cx = s.cur ∧ e.task = some q ∧
              e.todo = chainFor (flatObj 0 g.va.toNat) (accessMode (gAsks g.kind)) ∧ e.cont = .access g (.task pa)) ∧
          (covered s q (flatObj 0 g.va.toNat) (gAsks g.kind) = true → Unwatched s g →
            (g.kind = .ld → l1Serves s g (.task pa) = true → behindFence s c s.cur.strand = false → l1Tested s g (.task pa) = false → Calm s →
              ∃ t, exec r.1 s = .next t ∧ Resumed s t s.cur g.dst (wd (loadValueG s g (.task pa)))) ∧
            (g.kind = .ld → (l1Serves s g (.task pa) = false ∨ behindFence s c s.cur.strand = true ∨ l1Tested s g (.task pa) = true) →
              ∃ t d, exec r.1 s = .next t ∧ Leaves s t .waiting .flight false ∧ BytesSame s t ∧ 1 ≤ d ∧ d ≤ 224 + testDelay s ∧
                t.pend = s.pend ++ [(s.now + d, .globalAccessComplete g (.task pa))]) ∧
            (g.kind = .st → Calm s →
              ∃ t, exec r.1 s = .next t ∧ Resumed s t s.cur .none 0 ∧
                getLog t c q = getLog s c q ++ [.store (.phys pa) (toBytes g.n g.data.toNat)]) ∧
            (∀ op, g.kind = .red op → Calm s →
              ∃ t, exec r.1 s = .next t ∧ Resumed s t s.cur .none 0 ∧
                getLog t c q = getLog s c q ++ [.red (.phys pa) op g.data]) ∧
            (returns g.kind = true → g.kind ≠ .ld → behindFence s c s.cur.strand = true →
              ∃ t, exec r.1 s = .next t ∧ Leaves s t .waiting .flight false ∧ BytesSame s t ∧ getLog t c q = getLog s c q ∧
                t.pend = s.pend ++ [(s.now + 1, .globalAccessComplete g (.task pa))]) ∧
            (returns g.kind = true → g.kind ≠ .ld → behindFence s c s.cur.strand = false →
              ∃ t d, exec r.1 s = .next t ∧ Leaves s t .waiting .flight false ∧ BytesSame s t ∧ 1 ≤ d ∧ d ≤ 224 + testDelay s ∧
                t.pend = s.pend ++ [(s.now + d, .globalAccessComplete g (.done (wd (atomicOld s c q (.phys pa) g.n))))] ∧
                getLog t c q = getLog s c q ++
                  ((gNew g (atomicOld s c q (.phys pa) g.n)).map fun v => LogRec.store (.phys pa) (toBytes g.n v)).toList)))

namespace Sys2Proof.Claims

/-- The new value of an atomic of 64 bits (R252), by its operation. -/
def atomics : List (Word → Word → Word) := [
  (· + ·), fun _ v => v, (· &&& ·), (· ||| ·), (· ^^^ ·), fun a v => if v.slt a then v else a, fun a v => if a.slt v then v else a]

/-- The FP32 sum of R252 and R253. -/
def fpSum (a v : Nat) : Nat := (bits32 (rne32 (FV.sum false [fp32.decode (a % 2 ^ 32), fp32.decode (v % 2 ^ 32)]))).toNat

/-- The value that an access leaves in place of `old` (R251 to R253): none when it stores nothing. -/
def leavesValue (g : GAcc) (old : Nat) : Option Nat :=
  let o : Word := BitVec.ofNat 64 old
  match g.kind with
  | .ld => none
  | .st => some (g.data.toNat % 256 ^ g.n)
  | .amo op => if op = 7 then some (fpSum old (g.data.toNat % 2 ^ 32)) else (atomics[op.toNat]?).map (fun f => (f o g.data).toNat)
  | .amoc => if old = g.cmp.toNat % 256 ^ g.n then some (g.data.toNat % 256 ^ g.n) else none
  | .red op =>
    match op.toNat with
    | 0 => some (o + g.data).toNat
    | 1 => some ((old + g.data.toNat) % 2 ^ 32)
    | 2 => some (fpSum old (g.data.toNat % 2 ^ 32))
    | 3 => some (if g.data.slt o then g.data else o).toNat
    | _ => some (if o.slt g.data then g.data else o).toNat

/-- Global memory holds `v` in the `n` bytes at `pa`, or what it held; every other byte of any memory reads as before. -/
def MemHolds (s t : State) (pa n : Nat) (v : Option Nat) : Prop :=
  t.mem.readN pa n = v.elim (s.mem.readN pa n) (toBytes n) ∧
  (∀ a, ¬(pa ≤ a ∧ a < pa + n) → t.mem.read a = s.mem.read a) ∧ ∀ c a, lsRead t c a = lsRead s c a

/-- The value in `o`, every other register, and the strand at its next instruction. -/
structure Returned (s t : State) (cx : Ctx) (o : Opnd) (v : Word) : Prop where
  value : rd t cx o = readsAs o v
  registers : ∀ p, p ≠ o → rd t cx p = rd s cx p
  goes : GoesOn t cx (nextPc cx)
  others : ∀ d u, ¬(d = cx.core ∧ u = cx.strand) → getStrand t d u = getStrand s d u

/-- The widths of the kinds (R251 to R253). -/
def WidthFits (g : GAcc) : Prop :=
  match g.kind with
  | .ld | .st => g.n ∈ [1, 2, 4, 8]
  | .amo op => g.n = if op = 7 then 4 else 8
  | .amoc => g.n ∈ [4, 8]
  | .red op => g.n = if op = 1 ∨ op = 2 then 4 else 8

end Sys2Proof.Claims

/-- R233, R236, R261: a walk that reads an entry in a pending line waits; the walk fills both buffers and the access goes on, or raises 0x06. R241, R246, R251 to R253: an access is performed at
its place: old value returned, new value stored, a posted one acknowledged within 32 cycles. R170: a load of the counter aperture. R244: a task's
load sees its own logged store, and waits behind a `fence` that has stores outstanding (R254, log 67).
That an acknowledgement takes at least one cycle is the model's reading of a bound (log 1). -/
def Obligations.GlobalHappenings : Prop :=
  ∀ (s : State) (g : GAcc), WidthFits g →
    let c := g.cx.core
    let w : WalkReq := ⟨c, g.va.toNat, .access g⟩
    (walkPending s g.va.toNat = true → exec (.translationWalkComplete w) s = .next { s with pend := s.pend ++ [(s.now + 1, .translationWalkComplete w)] }) ∧
    (stillWaits s g.cx = true → walkPending s g.va.toNat = false → walk s g.va.toNat = none → walking s (dieOf c) = [] → (getDie s (dieOf c)).walks = [] →
      ∃ t, exec (.translationWalkComplete w) s = .next t ∧
        TrapEffect s t c g.cx.strand 0x06 g.va g.cx.word g.cx.addr g.cx.addr) ∧
    (∀ l, stillWaits s g.cx = true → walkPending s g.va.toNat = false → walking s (dieOf c) = [] → (getDie s (dieOf c)).walks = [] → walk s g.va.toNat = some l → entAttr l.entry = 1 → PageAdmits s g l → Unwatched s g →
      returns g.kind = true →
      ∃ t d, exec (.translationWalkComplete w) s = .next t ∧ 1 ≤ d ∧ d ≤ 224 + testDelay s ∧ BytesSame s t ∧
        (∀ e u, getStrand t e u = getStrand s e u) ∧ l ∈ (getCore t c).tlb ∧ l ∈ (getLoom t (loomOf c)).tlb ∧
        t.pend = s.pend ++ [(s.now + d, .globalAccessComplete g (.imm (l.pa g.va.toNat)))]) ∧
    (∀ pa, linePending s (.phys pa) = false →
      let old := ofBytes (s.mem.readN pa g.n)
      (returns g.kind = true → Awaits s g.cx → mustFollow s g none (.imm pa) = false →
        (getStrand s c g.cx.strand).seq = none →
        ∃ t, exec (.globalAccessComplete g (.imm pa)) s = .next t ∧ Returned s t g.cx g.dst (wd old) ∧
          MemHolds s t pa g.n (leavesValue g old)) ∧
      (returns g.kind = false → (getCore s c).posted.any (fun p => p.id == g.id) = true → mustFollow s g (some g.id) (.imm pa) = false →
        ∃ t d, exec (.globalAccessComplete g (.imm pa)) s = .next t ∧ MemHolds s t pa g.n (leavesValue g old) ∧ 1 ≤ d ∧ d ≤ 32 ∧
          t.pend = s.pend ++ [(s.now + d, .postedAck c g.id)] ∧ ∀ e u, getStrand t e u = getStrand s e u)) ∧
    (∀ v, Awaits s g.cx → ∃ t, exec (.globalAccessComplete g (.done v)) s = .next t ∧ Resumed s t g.cx g.dst v) ∧
    (∀ off, Awaits s g.cx → returns g.kind = true → g.n = 8 → off % 8 = 0 → off % 256 / 8 < 13 →
      mustFollow s g none (.counter off) = false → linePending s (.phys (apertureBase + off)) = false →
      (getStrand s c g.cx.strand).seq = none →
      ∃ t, exec (.globalAccessComplete g (.counter off)) s = .next t ∧
        Resumed s t g.cx g.dst ((getCore s (off / 256)).perfRead (off % 256 / 8) s.now)) ∧
    (∀ pa, stillWaits s g.cx = true → behindFence s c g.cx.strand = true →
      exec (.globalAccessComplete g (.task pa)) s = .next { s with pend := s.pend ++ [(s.now + 1, .globalAccessComplete g (.task pa))] }) ∧
    ∀ pa q, g.kind = .ld → Awaits s g.cx → cxTask s g.cx = some q → linePending s (.phys pa) = false → (getCore s c).splitNow = 0 →
      behindFence s c g.cx.strand = false → l1Tested s g (.task pa) = false → (getStrand s c g.cx.strand).seq = none →
      (getLog s c q = [] →
        ∃ t, exec (.globalAccessComplete g (.task pa)) s = .next t ∧ Resumed s t g.cx g.dst (wd (ofBytes (s.mem.readN pa g.n)))) ∧
      ∀ rest bs, bs.length = g.n → getLog s c q = rest ++ [.store (.phys pa) bs] →
        ∃ t, exec (.globalAccessComplete g (.task pa)) s = .next t ∧ Resumed s t g.cx g.dst (wd (ofBytes bs))

namespace Sys2Proof.Claims

/-- The machine with a posted access of a core answered. -/
def answered (s : State) (c id : Nat) : State :=
  modCore s c (fun k => { k with posted := k.posted.filter (fun p => p.id != id) })

/-- No strand of a core waits for a place among the posted stores. -/
def NoneQueued (s : State) (c : Nat) : Prop :=
  ∀ u w g loc, (getStrand s c u).wait = some w → w.why ≠ .posted g loc

end Sys2Proof.Claims

/-- R254, R255, R250, Table 10.7: `fence` completes when nothing of its strand is outstanding, reporting failures with `sys` once, and
else waits; an acknowledgement frees its place; a peer's answer completes its access, a refusal or 700,000 cycles without one raises
0x07 or is recorded; `pfg` brings a live lineage line into its home slice and changes nothing that a program reads. -/
def Obligations.FenceAndAnswers : Prop :=
  (∀ (x : Args) (s : State), Performs s x → InRotation s →
    let sys := x.imm != 0
    (fenceReady s s.cur.core s.cur.strand sys = true → (sys = false ∨ (curStrand s).fail = none) →
      Gives (.fence x) s x.a 0x000000F800000000) ∧
    (∀ f, fenceReady s s.cur.core s.cur.strand sys = true → sys = true → (curStrand s).fail = some f →
      f.count < 65536 → f.node < 256 → f.port < 32 →
      ∃ t v, exec (.fence x) s = .next t ∧ Resumed s t s.cur x.a v ∧ (curStrand t).fail = none ∧ bit v 0 = true ∧
        bits v 2 1 = f.why.toNat ∧ bits v 39 35 = f.port ∧ bits v 47 40 = f.node ∧ bits v 63 48 = f.count) ∧
    (fenceReady s s.cur.core s.cur.strand sys = false →
      ∃ t, exec (.fence x) s = .next t ∧ Leaves s t .waiting (.drain sys) false ∧ OutsideSame s t ∧ BytesSame s t ∧
        OthersSame s t s.cur.core s.cur.strand ∧ coreBody (curCore t) = coreBody (curCore s)) ∧
    (bit (src s x.a + x.imm) 63 = false → Gives (.pfg x) s .none 0) ∧
    (let va := src s x.a + x.imm
     bit va 63 = true → checkLineage s (cxTask s s.cur) va false = none →
      ∃ t, exec (.pfg x) s = .next t ∧ Resumed s t s.cur .none 0 ∧ lineHeld t (bits va 62 40) (bits va 39 8) = true ∧ t.nodes = s.nodes)) ∧
  ∀ (s : State) (c id : Nat),
    (∀ u w sys, (getStrand s c u).wait = some w → w.why = .drain sys → w.cx.core = c → w.cx.strand = u →
      Undisturbed (getStrand s c u) → fenceReady s c u sys = true → (getStrand s c u).fail = none →
      ∃ t, exec (.fenceComplete c u) s = .next t ∧ Resumed s t w.cx w.dst 0x000000F800000000) ∧
    ∀ p, (getCore s c).posted.find? (fun p => p.id == id) = some p → p.g.cx.core = c → NoneQueued s c →
      exec (.postedAck c id) s = .next (answered s c p.id) ∧
      (isRemote p.loc = false → ∀ v ok, exec (.peerReply c id v ok) s = .next s) ∧
      (isRemote p.loc = true → ∀ v, returns p.g.kind = true → p.g.n ∈ [1, 2, 4, 8] → Awaits s p.g.cx →
        (p.g.kind = .ld → (getStrand s c p.g.cx.strand).seq = none) →
        ∃ t, exec (.peerReply c id v true) s = .next t ∧ Resumed s t p.g.cx p.g.dst (wd (v.toNat % 256 ^ p.g.n)) ∧
          (getCore t c).posted = (getCore (answered s c p.id) c).posted) ∧
      (isRemote p.loc = true → returns p.g.kind = true → stillWaits s p.g.cx = true →
        ∀ i, (∃ v, i = Instr.peerReply c id v false) ∨ i = .peerTimeout c id ∨ (∃ port why, i = .postedFailure c id port why) →
        ∃ t, exec i s = .next t ∧
          TrapEffect (answered s c p.id) t c p.g.cx.strand 0x07 p.g.va p.g.cx.word p.g.cx.addr p.g.cx.addr) ∧
      (isRemote p.loc = true → returns p.g.kind = false → (getStrand s c p.g.cx.strand).fail = none →
        ∀ i why, ((∃ v, i = Instr.peerReply c id v false) ∧ why = 2) ∨
          (i = .peerTimeout c id ∧ why = (if portDead s p.port then 1 else 3)) ∨
          (∃ port w, i = .postedFailure c id port w ∧ why = if portDead s p.port then 1 else w) →
        ∃ t, exec i s = .next t ∧ (getStrand t c p.g.cx.strand).fail = some ⟨1, locNode p.loc, p.port, why⟩ ∧ BytesSame s t)

namespace Sys2Proof.Claims

/-- A window for strand `u` of a core (R90): aligned, of 8 to 128 registers, in the file, and clear of every other live strand's. -/
def WindowFits (k : Core) (u base limit : Nat) : Prop :=
  base % 8 = 0 ∧ limit % 8 = 0 ∧ base + 8 ≤ limit ∧ limit ≤ base + 128 ∧ limit ≤ 2048 ∧
  ∀ v, v < 16 → v ≠ u → (k.strand v).st ≠ .free → (k.strand v).limit ≤ base ∨ limit ≤ (k.strand v).base

/-- No other live strand owns a tile of the mask (R89). -/
def TilesFree (k : Core) (u mask : Nat) : Prop :=
  ∀ v, v < 16 → v ≠ u → (k.strand v).st ≠ .free → ∀ j, j < 8 → mask.testBit j = true → bit ((k.strand v).get 11) j = false

/-- A strand as `start` leaves it (R89, R148): ready or held at its entry point, its control registers set, everything else cleared, HLDP, a
pending hold and a pending expiry among it (log 30). -/
structure Started (x : Strand) (base limit accm : Nat) (pc wlim task stamp lsreg : Word) (hold : Bool) : Prop where
  state : x.st = if hold then .held else .ready
  pc : x.pc = pc
  window : x.base = base ∧ x.limit = limit
  tiles : x.get 11 = BitVec.ofNat 64 accm
  given : x.get 6 = wlim ∧ x.get 9 = task ∧ x.get 10 = stamp ∧ x.get 12 = lsreg
  cleared : ∀ n ∈ [1, 2, 3, 5, 7, 13, 14, 15, 16, 17, 18, 19], x.get n = 0
  flags : ∀ j ∈ [6, 7, 8, 10, 11], x.flag j = false
  registers : (∀ n, x.ptr n = 0) ∧ (∀ n, x.kreg n = 0) ∧ ∀ n, 1 ≤ n → n < 8 → x.pred n = false
  idle : x.wait = none ∧ x.holdReq = false ∧ x.tmrHit = false ∧ x.held = []

end Sys2Proof.Claims

/-- R148, Table 6.12: `start` refuses by status, in the order 1 to 4, or starts the strand. R149: `reap` refuses a strand that runs, waits
for its matrix work, or frees the strand, its tiles, slots and message. That a start also clears HLDP, a hold that is pending and an expiry
of the timer that is pending is the model's reading of R148 (DEDUCED, log 30). -/
def Obligations.StartAndReap : Prop :=
  ∀ (x : Args) (s : State), s.cur.strand = 0 → Performs s x → InRotation s →
    let c := s.cur.core
    let k := curCore s
    let d := src s x.a
    let pc := src s x.b
    let u := bits d 3 0
    let base := bits d 26 16
    let limit := bits d 43 32
    let accm := bits d 15 8
    (u = 0 ∨ (k.strand u).st ≠ .free → Gives (.start x) s x.a 1) ∧
    (u ≠ 0 → (k.strand u).st = .free →
      (¬ WindowFits k u base limit → Gives (.start x) s x.a 2) ∧
      (WindowFits k u base limit → ¬ TilesFree k u accm → Gives (.start x) s x.a 3) ∧
      (WindowFits k u base limit → TilesFree k u accm → (pc.getLsbD 0 = true ∨ 2 ^ 48 ≤ pc.toNat) → Gives (.start x) s x.a 4) ∧
      (WindowFits k u base limit → TilesFree k u accm → pc.getLsbD 0 = false → pc.toNat < 2 ^ 48 →
        ∃ t, exec (.start x) s = .next t ∧ rd t s.cur x.a = readsAs x.a 0 ∧ GoesOn t s.cur (nextPc s.cur) ∧ BytesSame s t ∧
          Started (getStrand t c u) base limit accm pc ((k.strand 0).get 6) (k.sharedRead 39 0 s.now) (k.sharedRead 40 0 s.now)
            (k.sharedRead 41 0 s.now) (bit d 4) ∧
          (∀ j, (∀ n, x.a = .g n → j ≠ (curStrand s).base + n.toNat) → getK 0 (curCore t).rf j = getK 0 k.rf j) ∧
          (∀ v, v ≠ 0 → v ≠ u → getStrand t c v = getStrand s c v) ∧ ∀ e, e ≠ c → getCore t e = getCore s e)) ∧
    let st := (k.strand u).st
    (u = 0 ∨ (st ≠ .halted ∧ st ≠ .trapped ∧ st ≠ .held ∧ st ≠ .done) → Gives (.reap x) s x.a 1) ∧
    (u ≠ 0 → (st = .halted ∨ st = .trapped ∨ st = .held ∨ st = .done) →
      (matrixBusy k u = true →
        ∃ t, exec (.reap x) s = .next t ∧ Leaves s t .waiting (.reap u) false ∧ OutsideSame s t ∧ BytesSame s t) ∧
      (matrixBusy k u = false → (k.strand u).wait = none → (∀ n, (getBarrier s (loomOf c) n).owner ≠ .core c) →
        ∃ t, exec (.reap x) s = .next t ∧ rd t s.cur x.a = readsAs x.a 0 ∧ GoesOn t s.cur (nextPc s.cur) ∧ BytesSame s t ∧
          (getStrand t c u).st = .free ∧ (getStrand t c u).get 11 = 0 ∧
          (∀ m, 4 ≤ m → m < 32 → (getSlot t c m).owner ≠ some u) ∧
          (∀ m, (getSlot s c m).owner ≠ some u → getSlot t c m = getSlot s c m) ∧
          (curCore t).trapQ = k.trapQ.filter (fun m => m.strand != u) ∧
          (∀ v, v ≠ 0 → v ≠ u → getStrand t c v = getStrand s c v) ∧ ∀ e, e ≠ c → getCore t e = getCore s e))

namespace Sys2Proof.Claims

/-- A strand that waits, if it does, for something that its wait takes no place in: giving it up changes nothing else. -/
def LooseWait (x : Strand) : Prop :=
  ∀ w, x.wait = some w →
    w.why = .sleep ∨ (∃ n, w.why = .barw n) ∨ (∃ p k, w.why = .pop p k) ∨ (∃ m k, w.why = .slot m k) ∨ ∃ c o v, w.why = .word c o v

/-- A strand that may be swapped out (R141). -/
def Movable (s : State) (c u : Nat) : Prop :=
  (getStrand s c u).st ∈ [StrandState.trapped, .held, .halted, .blocked] ∧ matrixBusy (getCore s c) u = false ∧
    (getStrand s c u).get 11 = 0

/-- What Table 6.7 gives as the items of a strand that `swap` and `wmf` move most: window registers, pointers, predicates, nest indices, cr.epc,
window, task. -/
def ItemHolds (s : State) (c u i : Nat) (v : Word) : Prop :=
  let x := getStrand s c u
  (i < 128 → x.st ≠ .free → i < x.size → v = getK 0 (getCore s c).rf (x.base + i)) ∧
  (128 ≤ i → i < 136 → v = x.ptr (i - 128)) ∧
  (i = 136 → ∀ j, 1 ≤ j → j < 8 → v.getLsbD j = x.preds.getLsbD j) ∧
  (i = 137 → v = (x.kreg 0).setWidth 64 ||| ((x.kreg 1).setWidth 64 <<< 32)) ∧
  (i = 138 → v = (x.kreg 2).setWidth 64 ||| ((x.kreg 3).setWidth 64 <<< 32)) ∧
  (i = 139 → v = x.get 2) ∧ (i = 140 → v = x.get 1) ∧ (i = 141 → v = x.get 3) ∧ (i = 146 → v = x.stat u s.now) ∧
  (i = 155 → v = x.get 4) ∧ (i = 156 → v = x.get 9) ∧ (i = 158 → v = x.get 12)

/-- The items that a `wmf` or `wmt` of strand 0 is to move: its words `vs` as they stand at the issue, the first run of four three cycles on. -/
def moveOf (s : State) (put : Bool) (off u first count : Nat) (vs : List Word) : ItemMove :=
  { cx := s.cur, put, target := u, first, count, off, vals := vs, base := s.now + 3 }

end Sys2Proof.Claims

/-- R151: `wmf` takes items of a strand to the core's store and `wmt` takes them from there, both with strand 0 Waiting; a misaligned or
forbidden area, or a g item outside the window, traps. `wmt` writes at its issue what the target's instruction in flight may still write, and a pointer
of such an instruction stays noted as it stood. -/
def Sys2Proof.Claims.TransfersIssue : Prop :=
  ∀ (x : Args) (s : State) (n : BitVec 7), s.cur.strand = 0 → x.c = .num n → Performs s x →
    let c := s.cur.core
    let off := src s x.a
    let u := bits (src s x.b) 3 0
    let first := bits (src s x.b) 15 8
    let count := n.toNat + 1
    (off.toNat % 8 ≠ 0 → ∀ i ∈ [Instr.wmf x, .wmt x], TrapsWith i s 0x03 (wd (c * 0x80000) + off) s.cur.addr) ∧
    (checkArea s s.cur off 8 (8 * count) = none →
      ((∃ i, i < count ∧ first + i < 128 ∧ windowSize (getStrand s c u) ≤ first + i) →
        ∀ i ∈ [Instr.wmf x, .wmt x], TrapsWith i s 0x19 0 s.cur.addr) ∧
      ((∀ i, i < count → first + i < 128 → first + i < windowSize (getStrand s c u)) →
        (∃ t vs, exec (.wmf x) s = .next t ∧ Leaves s t .waiting .flight false ∧ BytesSame s t ∧ t.pend = s.pend ∧
          (curCore t).moves = (curCore s).moves ++ [moveOf s false off.toNat u first count vs] ∧
          ∀ i, i < count → ∃ v, ItemHolds s c u (first + i) v ∧ vs[i]? = some v) ∧
        ∃ t vs, exec (.wmt x) s = .next t ∧ BytesSame s t ∧ (curStrand t).st = .waiting ∧ t.pend = s.pend ∧
          (curCore t).moves = (curCore s).moves ++ [moveOf s true off.toNat u first count vs] ∧
          (∀ i, i < count → vs[i]? = some (wd (ofBytes (lsBytes s c (off.toNat + 8 * i) 8)))) ∧
          (∀ i, i < count → first + i < 128 →
            getK 0 (curCore t).rf ((getStrand s c u).base + first + i) = wd (ofBytes (lsBytes s c (off.toNat + 8 * i) 8))) ∧
          (∀ i, i < count → 128 ≤ first + i → first + i < 136 →
            (getStrand t c u).ptr (first + i - 128) = wd (ofBytes (lsBytes s c (off.toNat + 8 * i) 8)) ∧
            ∀ w, u ≠ 0 → waitOf s c u = some w → w.was = [] →
              ∃ y, waitOf t c u = some y ∧ (first + i - 128, (getStrand s c u).ptr (first + i - 128)) ∈ y.was) ∧
          ∀ v, v ≠ 0 → v ≠ u → getStrand t c v = getStrand s c v))

/-- R151: a run moves the next four items, in ascending order. `wmf` records each as it stood at the issue or as it stands; `wmt` writes what the
run loads, unless the item no longer holds what the issue wrote. The last run, in cycle 2 + ceil(count / 4) when no bank delays any, ends the
transfer. -/
def Sys2Proof.Claims.TransfersRun : Prop :=
  ∀ (s : State) (m : ItemMove), m.moved < m.count → m.vals.length = m.count →
    let c := m.cx.core
    let t := afterItems s m
    let next := min m.count (m.moved + 4)
    (m.put = false →
      (∀ i, m.moved ≤ i → i < next → ∃ v, (v = nth 0 m.vals i ∨ ItemHolds s c m.target (m.first + i) v) ∧
        lsBytes t c (m.off + 8 * i) 8 = toBytes 8 v.toNat) ∧
      ∀ e a, ¬(e = c ∧ m.off + 8 * m.moved ≤ a ∧ a < m.off + 8 * next) → lsRead t e a = lsRead s e a) ∧
    (m.put = true → (∀ e a, lsRead t e a = lsRead s e a) ∧
      ∀ i, m.moved ≤ i → i < next → m.first + i < windowSize (getStrand s c m.target) → m.first + i < 128 →
        let r := (getStrand s c m.target).base + (m.first + i)
        getK 0 (getCore t c).rf r =
          if getK 0 (getCore s c).rf r = nth 0 m.vals i then wd (ofBytes (lsBytes s c (m.off + 8 * i) 8)) else getK 0 (getCore s c).rf r) ∧
    (m.moved + 4 < m.count → t.pend = s.pend ∧ { m with moved := m.moved + 4, base := s.now + 1 - (m.moved + 4) / 4, done := [] } ∈ (getCore t c).moves) ∧
    (m.count ≤ m.moved + 4 → t.pend = s.pend ++ [(s.now, .stateTransferComplete { cx := m.cx } m.target)] ∧
      ∀ y ∈ (getCore t c).moves, y.cx ≠ m.cx)

/-- R151, R191: an instruction in flight whose pointer a `wmt` has written since its issue completes with the pointer as it stood at the issue, advanced:
that overrides what the `wmt` wrote. -/
def Sys2Proof.Claims.AdvanceOverrides : Prop :=
  ∀ (s : State) (d : Done) (n : BitVec 3) (inc v : Word) (target : Nat), Awaits s d.cx → d.val = none → d.ptrs = [(n, inc)] →
    (∃ w, waitOf s d.cx.core d.cx.strand = some w ∧ w.was = [(n.toNat, v)]) →
    ∀ i ∈ completions d target, ∃ t, exec i s = .next t ∧ rd t d.cx (.p n) = advanceW v inc ∧ GoesOn t d.cx (nextPc d.cx)

/-- R151, R191: `wmf` and `wmt`, the runs of their items, and the advance of a pointer that a `wmt` has written.
That four items move together, from the third cycle on, is the model's choice, and so is what a register that has changed meanwhile is taken to
say of an instruction in flight (log 68). -/
def Obligations.StateTransfers : Prop := Sys2Proof.Claims.TransfersIssue ∧ Sys2Proof.Claims.TransfersRun ∧ Sys2Proof.Claims.AdvanceOverrides

/-- R141, R142, R150: `swap` refuses by status, moves a strand out to its entry of the context cache, parking its slots, and in from an
entry, clearing VALID; on completion the strand takes up its state. A swap that is refused with status 3 or 4 changes nothing, also
when the entry holds another key's image. `ccf` takes, for each image, its first line and 5 cycles (R241), and completes with what it has written
back, once the walks that this needs are made (R236).
That the words move in the cycle of the issue is the model's choice (log 7); the order of refusals is read from R141 (log 32); the
transfers of a `ccf` come one after another by the model's choice (log 60). -/
def Obligations.Swaps : Prop :=
  (∀ (x : Args) (s : State), s.cur.strand = 0 → Performs s x →
    let c := s.cur.core
    let d := src s x.a
    let u := bits d 3 0
    let op := bits d 5 4
    let out := bits (src s x.b) 15 0
    let key := bits (src s x.b) 31 16
    let y := getStrand s c u
    (InRotation s → op = 0 ∨ u = 0 → Gives (.swap x) s x.a 1) ∧
    (InRotation s → u ≠ 0 → op = 2 → y.st ≠ .free → Gives (.swap x) s x.a 2) ∧
    (InRotation s → u ≠ 0 → op = 1 ∨ op = 3 → ¬ Movable s c u → Gives (.swap x) s x.a 2) ∧
    (u ≠ 0 → op = 1 → Movable s c u → LooseWait y → y.size ≤ 128 → ∀ e, getCc s c (out % 32) = some e → e.key = out →
      ∃ t f, exec (.swap x) s = .next t ∧ (curStrand t).st = .waiting ∧ BytesSame s t ∧
        t.pend = s.pend ++ [(s.now + 10 + (y.size + 3) / 4, .swapComplete ⟨s.cur, x.a, u, 0⟩)] ∧
        getCc t c (out % 32) = some f ∧ f.key = out ∧ f.dirty = true ∧
        (∀ i, i < 159 → i < y.size ∨ 128 ≤ i → i ≠ 139 → i ≠ 146 → ItemHolds s c u i (nth 0 f.img i)) ∧
        (∀ i, y.size ≤ i → i < 128 → nth 0 f.img i = nth 0 e.img i) ∧
        nth 0 f.img 139 = (if y.st = .trapped then y.get 2 else low48 (abandonPc y)) ∧
        tagValid (nth 0 f.img 159) out = true ∧ tagN (nth 0 f.img 159) = y.size ∧
        tagState (nth 0 f.img 159) = (if y.st = .blocked then 1 else y.st.code) ∧
        (getStrand t c u).st = .swapping ∧
        ∀ m, 4 ≤ m → m < 32 → (getSlot s c m).owner = some u →
          (getSlot t c m).owner = none ∧ (getSlot t c m).parked = some out ∧ (getSlot t c m).val = (getSlot s c m).val ∧
            (getSlot t c m).present = (getSlot s c m).present) ∧
    (InRotation s → u ≠ 0 → op = 2 → y.st = .free → ∀ img, peekImage s s.cur key = some img →
      let tag := nth 0 img 159
      let base := bits d 26 16
      (¬(bit tag 63 = true ∧ bits tag 15 0 = key) → Gives (.swap x) s x.a 3) ∧
      (bit tag 63 = true → bits tag 15 0 = key → ¬ WindowFits (getCore s c) u base (base + tagN tag) → Gives (.swap x) s x.a 4)) ∧
    (u ≠ 0 → op = 2 → y.st = .free → ∀ e, getCc s c (key % 32) = some e → e.key = key → e.img.length = 160 →
      let tag := nth 0 e.img 159
      let base := bits d 26 16
      (bit tag 63 = true → bits tag 15 0 = key → WindowFits (getCore s c) u base (base + tagN tag) →
        ∃ t final f, exec (.swap x) s = .next t ∧ (curStrand t).st = .waiting ∧ BytesSame s t ∧
          t.pend = s.pend ++ [(s.now + 10 + (tagN tag + 3) / 4, .swapComplete ⟨s.cur, x.a, u, final⟩)] ∧
          final = (if bit d 6 = true ∨ tagState tag = 5 then 5 else if tagState tag = 6 then 6 else 1) ∧
          getCc t c (key % 32) = some f ∧ bit (nth 0 f.img 159) 63 = false ∧
          (getStrand t c u).st = .swapping ∧ (getStrand t c u).base = base ∧ (getStrand t c u).size = tagN tag ∧
          (∀ i, i < tagN tag → getK 0 (getCore t c).rf (base + i) = nth 0 e.img i) ∧
          (∀ j, j < 8 → (getStrand t c u).ptr j = nth 0 e.img (128 + j)) ∧ (getStrand t c u).get 2 = low48 (nth 0 e.img 139) ∧
          (getStrand t c u).get 9 = nth 0 e.img 156 &&& 0x07FF0FFFFFFFFFFF ∧
          ∀ m, 4 ≤ m → m < 32 → (getSlot s c m).parked = some key → (getSlot t c m).owner = some u)) ∧
    let es := ccfEntries s c ((src s x.a).setWidth 32)
    ∃ t n, exec (.ccf x) s = .next t ∧ 1 ≤ n ∧ n ≤ max 1 ((es.map (fun e => imageFirst s c e.key + 5)).sum) ∧
      ((∀ e ∈ es, (writeImage s s.cur e.key e.img).2 = true) → 6 * es.length ≤ n) ∧
      LeavesUntil s t (s.now + n) (.ccfComplete s.cur x.a ((src s x.a).setWidth 32))) ∧
  (∀ (s : State) (j : SwapJob), Awaits s j.cx → j.cx.strand = 0 → j.target ≠ 0 →
    let c := j.cx.core
    (getStrand s c j.target).st = .swapping → Undisturbed (getStrand s c j.target) →
    ∃ t, exec (.swapComplete j) s = .next t ∧ rd t j.cx j.dst = readsAs j.dst 0 ∧ GoesOn t j.cx (nextPc j.cx) ∧ BytesSame s t ∧
      (getStrand t c j.target).pc = (getStrand s c j.target).get 2 ∧
      (j.final = 0 → (getStrand t c j.target).st = .free) ∧ (j.final = 1 → (getStrand t c j.target).st = .ready) ∧
      (j.final = 5 → (getStrand t c j.target).st = .held) ∧ (j.final = 6 → (getStrand t c j.target).st = .halted)) ∧
  ∀ (s : State) (cx : Ctx) (dst : Opnd) (mask : BitVec 32), Awaits s cx →
    ((∀ i e, i < 32 → mask.getLsbD i = true → getCc s cx.core i = some e → e.dirty = false) →
      ∃ t, exec (.ccfComplete cx dst mask) s = .next t ∧ Resumed s t cx dst 0) ∧
    (walksOf s cx (ccfAddresses s cx.core mask) ≠ [] →
      ∃ t, exec (.ccfComplete cx dst mask) s = .next t ∧ BytesSame s t ∧ t.cores = s.cores ∧ (s.now + 1, .ccfComplete cx dst mask) ∈ t.pend) ∧
    ∀ i e, i < 32 → mask = 1#32 <<< i → getCc s cx.core i = some e → e.dirty = true → e.key % 32 = i →
      walksOf s cx (ccfAddresses s cx.core mask) = [] → (writeImage s cx e.key e.img).2 = true →
      ∃ t, exec (.ccfComplete cx dst mask) s = .next t ∧ rd t cx dst = readsAs dst 1 ∧ GoesOn t cx (nextPc cx) ∧
        getCc t cx.core i = some { e with dirty := false } ∧ t.mem = (writeImage s cx e.key e.img).1.mem

namespace Sys2Proof.Claims

/-- A translation buffer after `tlbi`: empty, or without the leaves of the address's page. -/
def Invalidated (old new : List TLeaf) (all : Bool) (va : Nat) : Prop :=
  ∀ l, l ∈ new ↔ l ∈ old ∧ all = false ∧ ¬(l.base ≤ va ∧ va < l.base + l.size)

/-- A loom's buffer after a `tlbi` of core `c` alone: the leaves named stay for the other cores. -/
def BarredFor (c : Nat) (old new : List TLeaf) (all : Bool) (va : Nat) : Prop :=
  new.length = old.length ∧ ∀ (i : Nat) z, old[i]? = some z →
    ∃ y, new[i]? = some y ∧ { y with barred := [] } = { z with barred := [] } ∧
      ∀ d, d ∈ y.barred ↔ d ∈ z.barred ∨ (d = c ∧ (all = true ∨ (z.base ≤ va ∧ va < z.base + z.size)))

/-- After a `tlbi` the strand of `cx` goes on; of a core, the pages that were walked for its instructions under way are left but for those named. -/
structure PagesLeft (s t : State) (cx : Ctx) (p : Nat → Prop) (all : Bool) (va : Nat) : Prop where
  goes : GoesOn t cx (nextPc cx)
  bytes : BytesSame s t
  registers : ∀ o, rd t cx o = rd s cx o
  others : ∀ d u, ¬(d = cx.core ∧ u = cx.strand) → { getStrand t d u with pages := [] } = { getStrand s d u with pages := [] }
  pages : ∀ d u y, y ∈ (getStrand t d u).pages ↔ y ∈ (getStrand s d u).pages ∧
    (p d → all = false ∧ y.1 ≠ va ∧ ∀ l, y.2 = some l → ¬(l.base ≤ va ∧ va < l.base + l.size))

/-- A change of the L1 split: SPLIT reads as written, and the cached lines in banks that return to the store are gone. -/
def SplitTaken (s t : State) (c split : Nat) : Prop :=
  (getCore t c).splitNow = split ∧
  ∀ y, y ∈ (getCore t c).l1 ↔ ∃ z ∈ (getCore s c).l1, z.task = y.task ∧ z.line = y.line ∧
    storeTop split + 256 * y.place = storeTop (getCore s c).splitNow + 256 * z.place

end Sys2Proof.Claims

/-- R155, R233: `tlbi` of its own core completes at once and keeps that core from what its loom's buffer holds; with every core it waits
at most 160 cycles, and with every page it puts a new root in force. R185, R129: a change of the split. R60:
filled lines are held, once no commit that writes one of them is under way (R261). R357, R358: an answer of the control plane completes its instruction with the value. -/
def Obligations.BuffersAndReplies : Prop :=
  (∀ (x : Args) (s : State), s.cur.strand = 0 → Performs s x →
    let va := bits (src s x.a) 47 0
    let all := x.mod.getLsbD 1
    (x.mod.getLsbD 0 = false → InRotation s →
      ∃ t, exec (.tlbi x) s = .next t ∧ PagesLeft s t s.cur (· = s.cur.core) all va ∧ Invalidated (curCore s).tlb (curCore t).tlb all va ∧
        { t with cores := [], looms := [] } = { s with cores := [], looms := [] } ∧
        (∀ d, d ≠ s.cur.core → getCore t d = getCore s d) ∧ (∀ l, l ≠ loomOf s.cur.core → getLoom t l = getLoom s l) ∧
        { getLoom t (loomOf s.cur.core) with tlb := [] } = { getLoom s (loomOf s.cur.core) with tlb := [] } ∧
        BarredFor s.cur.core (getLoom s (loomOf s.cur.core)).tlb (getLoom t (loomOf s.cur.core)).tlb all va) ∧
    (x.mod.getLsbD 0 = true →
      ∃ t n, exec (.tlbi x) s = .next t ∧ 1 ≤ n ∧ n ≤ 160 ∧ LeavesUntil s t (s.now + n) (.tlbiAck s.cur all (wd va)))) ∧
  ∀ (s : State) (cx : Ctx), Awaits s cx →
    (∀ all (va : Word), ∃ t, exec (.tlbiAck cx all va) s = .next t ∧ PagesLeft s t cx (fun _ => True) all va.toNat ∧
      (∀ c, Invalidated (getCore s c).tlb (getCore t c).tlb all va.toNat) ∧
      (∀ l, Invalidated (getLoom s l).tlb (getLoom t l).tlb all va.toNat) ∧
      t.mgmt.walkRoot = if all = true then s.mgmt.root else s.mgmt.walkRoot) ∧
    (∀ v : Word, ∃ t, exec (.l1splitTakeEffect cx v) s = .next t ∧ Resumed s t cx .none 0 ∧ SplitTaken s t cx.core (bits v 1 0)) ∧
    (∀ v : Word,
      (splitOverlaps (getCore s cx.core) (bits v 1 0) = true →
        ∃ t, exec (.crL1splitWrite cx v) s = .next t ∧ TrapEffect s t cx.core cx.strand 0x04 0 cx.word cx.addr cx.addr) ∧
      (splitOverlaps (getCore s cx.core) (bits v 1 0) = false → splitReady s cx.core = true →
        ∃ t, exec (.crL1splitWrite cx v) s = .next t ∧ Resumed s t cx .none 0 ∧ SplitTaken s t cx.core (bits v 1 0)) ∧
      (splitOverlaps (getCore s cx.core) (bits v 1 0) = false → splitReady s cx.core = false →
        ∃ t w, exec (.crL1splitWrite cx v) s = .next t ∧ (getStrand t cx.core cx.strand).wait = some w ∧ w.why = .split v ∧
          w.cx = cx ∧ (getCore t cx.core).shared = (getCore s cx.core).shared)) ∧
    (∀ v dst, ∃ t, exec (.controlPlaneReply cx (.value v) dst) s = .next t ∧ Resumed s t cx dst v) ∧
    ∀ c u lines, (getCore s c).icache.length + lines.length ≤ 256 →
      ((∃ l ∈ lines, linePending s (.phys (256 * l)) = true) →
        exec (.icacheFill c u lines) s = .next { s with pend := s.pend ++ [(s.now + 1, .icacheFill c u lines)] }) ∧
      ((∀ l ∈ lines, linePending s (.phys (256 * l)) = false) → ∃ t, exec (.icacheFill c u lines) s = .next t ∧ BytesSame s t ∧ (∀ d v, getStrand t d v = getStrand s d v) ∧
        ∀ l, l ∈ (getCore t c).icache ↔ l ∈ (getCore s c).icache ∨ l ∈ lines)

namespace Sys2Proof.Claims

/-- The strand that the operand of `hold`, `step` and `resume` names (R154). -/
abbrev tgtOf (v : Word) : Nat × Nat := (bits v 25 16, bits v 3 0)

/-- A strand has become Held where it stands (Table 6.10). -/
def HeldAt (x y : Strand) : Prop := y.st = .held ∧ y.pc = x.pc ∧ y.wait = none ∧ y.cr = x.cr ∧ y.ptrs = x.ptrs ∧ y.preds = x.preds

end Sys2Proof.Claims

/-- R154, R144, R145, Table 6.10: who may be named; a free strand gives 1; `hold` of one strand holds it at once from the rotation, when
its instruction completes from Waiting (the holder is Waiting meanwhile, in a wait that counts), and itself at its next instruction;
`step` refuses 2 or sets STEP; `resume` sets a Held strand going and reports 2 for one Halted or Trapped; with the gang bit they act on
every strand of the task, a hold on those of other cores arriving within 24 cycles; a gang hold that arrives sets GANG.
Status 2 of `step` for a strand that is not Held is read from Table 6.10 (log 39). -/
def Obligations.HoldStepResume : Prop :=
  (∀ (x : Args) (s : State), Performs s x → InRotation s →
    let v := src s x.a
    let c := (tgtOf v).1
    let u := (tgtOf v).2
    let y := getStrand s c u
    (s.cur.strand ≠ 0 → taskOf s s.cur.core s.cur.strand = none →
      ∀ i ∈ [Instr.hold x, .step x, .resume x], TrapsWith i s 0x02 0 s.cur.addr) ∧
    ((s.cur.strand = 0 ∧ c = s.cur.core) ∨ mayName s s.cur c u = true →
      (y.st = .free → ∀ i ∈ [Instr.hold x, .step x, .resume x], Gives i s x.a 1) ∧
      ((y.st ≠ .free ∧ bit v 4 = true) ∨ (y.st ≠ .free ∧ y.st ≠ .held) → Gives (.step x) s x.a 2) ∧
      (bit v 4 = false → (c, u) ≠ (s.cur.core, s.cur.strand) →
        (y.st = .ready →
          ∃ t, exec (.hold x) s = .next t ∧ rd t s.cur x.a = readsAs x.a 0 ∧ GoesOn t s.cur (nextPc s.cur) ∧ BytesSame s t ∧
            HeldAt y (getStrand t c u)) ∧
        (y.st = .blocked → LooseWait y →
          ∃ t, exec (.hold x) s = .next t ∧ rd t s.cur x.a = readsAs x.a 0 ∧ GoesOn t s.cur (nextPc s.cur) ∧ BytesSame s t ∧
            (getStrand t c u).st = .held ∧ (getStrand t c u).wait = none ∧ (getStrand t c u).pc = abandonPc y ∧
            (getStrand t c u).cr = y.cr) ∧
        (y.st = .waiting ∨ y.st = .swapping →
          ∃ t w, exec (.hold x) s = .next t ∧ (getStrand t c u).holdReq = true ∧ (getStrand t c u).st = y.st ∧
            (curStrand t).st = .waiting ∧ (curStrand t).wait = some w ∧ w.why = .holds [(c, u)] ∧ w.cx = s.cur ∧ w.dst = x.a ∧
            w.counted = true ∧ BytesSame s t) ∧
        (y.st = .trapped →
          ∃ t, exec (.hold x) s = .next t ∧ rd t s.cur x.a = readsAs x.a 0 ∧ GoesOn t s.cur (nextPc s.cur) ∧ BytesSame s t ∧
            (getStrand t c u).st = .trapped ∧ (getStrand t c u).flag 8 = true) ∧
        (y.st = .held ∨ y.st = .halted ∨ y.st = .done → Gives (.hold x) s x.a 0) ∧
        (y.st = .held →
          (∃ t, exec (.step x) s = .next t ∧ rd t s.cur x.a = readsAs x.a 0 ∧ GoesOn t s.cur (nextPc s.cur) ∧ BytesSame s t ∧
            (getStrand t c u).st = .ready ∧ (getStrand t c u).dbg 1 = true ∧ (getStrand t c u).flag 5 = true ∧
            (getStrand t c u).pc = y.pc) ∧
          ∃ t, exec (.resume x) s = .next t ∧ rd t s.cur x.a = readsAs x.a 0 ∧ GoesOn t s.cur (nextPc s.cur) ∧ BytesSame s t ∧
            (getStrand t c u).st = .ready ∧ (getStrand t c u).dbg 3 = false ∧ (getStrand t c u).dbg 2 = false ∧
            (getStrand t c u).flag 5 = true ∧ (getStrand t c u).pc = y.pc) ∧
        (y.st = .halted ∨ y.st = .trapped → Gives (.resume x) s x.a 2) ∧
        (y.st = .blocked ∨ y.st = .waiting ∨ y.st = .ready ∨ y.st = .done ∨ y.st = .swapping → Gives (.resume x) s x.a 0)) ∧
      (bit v 4 = false → (c, u) = (s.cur.core, s.cur.strand) →
        ∃ t, exec (.hold x) s = .next t ∧ rd t s.cur x.a = readsAs x.a 0 ∧ (curStrand t).st = .held ∧
          (curStrand t).pc = nextPc s.cur ∧ BytesSame s t) ∧
      (bit v 4 = true → ∀ r, taskOf s c u = some r → (c, u) ∈ taskStrands s r →
        (∃ t, exec (.resume x) s = .next t ∧ GoesOn t s.cur (nextPc s.cur) ∧ BytesSame s t ∧
          rd t s.cur x.a = readsAs x.a
            (if (taskStrands s r).any (fun z =>
              (getStrand s z.1 z.2).st == .halted || (getStrand s z.1 z.2).st == .trapped) then 2 else 0) ∧
          (∀ z ∈ taskStrands s r, (getStrand s z.1 z.2).st = .held →
            (getStrand t z.1 z.2).st = .ready ∧ (getStrand t z.1 z.2).dbg 3 = false ∧ (getStrand t z.1 z.2).dbg 2 = false ∧
              (getStrand t z.1 z.2).flag 5 = true) ∧
          ∀ d w, (d, w) ∉ taskStrands s r → (d, w) ≠ (s.cur.core, s.cur.strand) → getStrand t d w = getStrand s d w) ∧
        ∃ t, exec (.hold x) s = .next t ∧
          (∀ z ∈ taskStrands s r, z.1 = s.cur.core → z ≠ (s.cur.core, s.cur.strand) → (getStrand s z.1 z.2).st = .ready →
            (getStrand t z.1 z.2).st = .held ∧ (getStrand t z.1 z.2).dbg 3 = true) ∧
          ∀ z ∈ taskStrands s r, z.1 ≠ s.cur.core →
            ∃ due ts, s.now < due ∧ due ≤ s.now + 24 ∧ (due, .gangHoldArrival z.1 ts false) ∈ t.pend ∧ z.2 ∈ ts))) ∧
  ∀ (s : State) (c u : Nat) (port : Bool),
    ((getStrand s c u).st = .ready → (port = true → (getCore s c).dbgn = false) →
      ∃ t, exec (.gangHoldArrival c [u] port) s = .next t ∧ (getStrand t c u).st = .held ∧ (getStrand t c u).dbg 3 = true ∧
        (port = true → (getStrand t c u).dbg 2 = true) ∧ (getStrand t c u).pc = (getStrand s c u).pc ∧ BytesSame s t ∧
        OthersSame s t c u) ∧
    ((getStrand s c u).st = .waiting →
      ∃ t, exec (.gangHoldArrival c [u] port) s = .next t ∧ (getStrand t c u).st = .waiting ∧ (getStrand t c u).holdReq = true ∧
        (getStrand t c u).holdPort = port ∧ (getStrand t c u).dbg 3 = true ∧ BytesSame s t ∧ OthersSame s t c u) ∧
    ((getStrand s c u).st = .trapped →
      ∃ t, exec (.gangHoldArrival c [u] port) s = .next t ∧ (getStrand t c u).st = .trapped ∧ (getStrand t c u).flag 8 = true ∧
        OthersSame s t c u)

namespace Sys2Proof.Claims

/-- The copy instructions (R340): whether the source is a list of addresses, and whether there is one row whatever ROWS says. -/
def copyInstrs : List ((Args → Instr) × Bool × Bool) := [(.cpy, false, true), (.cpy2, false, false), (.cpyg, true, false)]

/-- A local pointer of a copy: the word read, with its window bits 0 (R335); a global pointer, which faults, stands as it is. -/
def Unwindowed (w v : Word) : Prop :=
  if ptrGlb v = true then w = v else bits w 35 33 = 0 ∧ bits w 63 36 = bits v 63 36 ∧ bits w 32 0 = bits v 32 0

/-- An entry as its descriptor gives it (Table 15.1). -/
structure Described (s : State) (x : Args) (off : Nat) (gather one : Bool) (e : CopyEnt) : Prop where
  who : e.cx = s.cur ∧ e.task = taskOf s s.cur.core s.cur.strand ∧ e.q = x.mod.toNat ∧ e.gather = gather ∧ e.started = false
  sizes : ∀ d, d = wd (ofBytes (lsBytes s s.cur.core (off + 16) 8)) →
    e.len = bits d 31 0 ∧ e.rows = (if one then 1 else bits d 43 32 + 1) ∧ e.dir = (if gather then 1 else bits d 61 60) ∧
    e.cmode = bits d 63 62
  source : ∀ v, v = wd (ofBytes (lsBytes s s.cur.core off 8)) →
    if gather = true ∨ e.dir % 2 = 0 then Unwindowed e.src v else e.src = v
  target : ∀ v, v = wd (ofBytes (lsBytes s s.cur.core (off + 8) 8)) → if e.dir < 2 then Unwindowed e.dst v else e.dst = v
  strides : ∀ v, v = wd (ofBytes (lsBytes s s.cur.core (off + 24) 8)) →
    e.sstr = (v.setWidth 32).toInt ∧ e.dstr = ((v >>> 32).setWidth 32).toInt
  last : Unwindowed e.cptr (wd (ofBytes (lsBytes s s.cur.core (off + 32) 8))) ∧
    e.cval = wd (ofBytes (lsBytes s s.cur.core (off + 40) 8))

end Sys2Proof.Claims

/-- R333, R340, R341, R343, Table 15.3: a copy instruction reads its descriptor, checks it, and enters its queue or waits for a place;
`qfence` leaves a join behind the entries in flight, other joins among them, and an entry behind an open join may not start; `qst` reads a queue's status and,
with its modifier, clears it. -/
def Obligations.CopyIssue : Prop :=
  (∀ (x : Args) (s : State), Performs s x → ∀ r ∈ copyInstrs,
    let c := s.cur.core
    let off := src s x.a
    (off.toNat % 16 ≠ 0 → TrapsWith (r.1 x) s 0x03 (wd (c * 0x80000) + off) s.cur.addr) ∧
    (checkArea s s.cur off 16 48 = none →
      ∃ e, Described s x off.toNat r.2.1 r.2.2 e ∧
        (∀ cause info, checkCopy s e = some (cause, info) → TrapsWith (r.1 x) s cause info s.cur.addr) ∧
        (checkCopy s e = none →
          (copiesInFlight (curCore s) < 1024 → InRotation s →
            ∃ t id, exec (r.1 x) s = .next t ∧ Resumed s t s.cur .none 0 ∧
              (curCore t).copyQ = (curCore s).copyQ ++ [{ e with id := id, from_ := s.now + 3 }]) ∧
          (1024 ≤ copiesInFlight (curCore s) →
            ∃ t, exec (r.1 x) s = .next t ∧ Leaves s t .waiting (.copyPlace e) false ∧ OutsideSame s t ∧ BytesSame s t)))) ∧
  (∀ (x : Args) (s : State), Performs s x → InRotation s →
    let k := curCore s
    let mask := x.imm.toNat % 64
    (mask = 0 → Gives (.qfence x) s .none 0) ∧
    (mask ≠ 0 →
      ∃ t, exec (.qfence x) s = .next t ∧ Resumed s t s.cur .none 0 ∧ (curCore t).copyQ = k.copyQ ∧
        ((∃ q, q < 6 ∧ mask.testBit q = true ∧ ((∃ i ∈ engineIds k q, i ≤ k.mqNext) ∨ ∃ i ∈ openJoins k, i.mask.testBit q = true)) →
          (⟨k.mqNext, mask, taskOf s s.cur.core s.cur.strand⟩ : Join) ∈ (curCore t).joins)) ∧
    (let v := src s x.a
     let f : CqStat := getK {} k.cqStat (bits v 1 0)
     (bit v 2 = false → f.why < 8 → f.count < 4096 → f.addr < 2 ^ 48 →
        ∃ t w, exec (.qst x) s = .next t ∧ Resumed s t s.cur x.a w ∧ bit w 63 = f.fault ∧ bits w 62 60 = f.why ∧
          bits w 59 48 = f.count ∧ bits w 47 0 = f.addr ∧
          (x.mod = 1 → getK {} (curCore t).cqStat (bits v 1 0) = { done := f.done } ∧ ∀ h ∈ (curStrand t).held, h.copy = false) ∧
          (x.mod ≠ 1 → (curCore t).cqStat = k.cqStat ∧ (curStrand t).held = (curStrand s).held)) ∧
     (bit v 2 = true → f.done < 2 ^ 32 → copiesInFlight k < 65536 →
        ∃ w, Gives (.qst x) s x.a w ∧ bits w 63 32 = f.done ∧ bits w 31 16 = copiesInFlight k ∧
          bits w 15 0 = (k.copyQ.filter (fun e => e.q == bits v 1 0)).length + (k.joins.filter (fun j => j.mask.testBit (bits v 1 0))).length))) ∧
  ∀ (s : State) (c : Nat) (e : CopyEnt) (before after : List Join) (j : Join), (getCore s c).joins = before ++ j :: after →
    j.mask.testBit e.q = true → j.id < e.id →
    ((∃ q, q < 6 ∧ j.mask.testBit q = true ∧ ∃ i ∈ engineIds (getCore s c) q, i ≤ j.id) ∨
      ∃ i ∈ before, (∃ q, i.mask.testBit q = true ∧ j.mask.testBit q = true) ∧
        ∃ q, q < 6 ∧ i.mask.testBit q = true ∧ ∃ n ∈ engineIds (getCore s c) q, n ≤ i.id) → e ∉ copyReady s c

namespace Sys2Proof.Claims

/-- A copy's global bytes: `n` bytes at `va` inside one line of an immediate page that the entry has translated (R237), at physical address `pa`. -/
def ImmBlock (s : State) (e : CopyEnt) (va : Word) (n : Nat) (store : Bool) (pa : Nat) : Prop :=
  bits va 63 48 = 0 ∧ va.toNat % 256 + n ≤ 256 ∧
  ∀ i, i < n → ∃ l, e.page (va.toNat + i) = some l ∧ entAttr l.entry = 1 ∧ l.pa (va.toNat + i) = pa + i ∧
    inHbm (pa + i) = true ∧ inAperture (pa + i) = false ∧ inPool s (pa + i) = false ∧ (store = true → entW l.entry = true)

/-- The bytes of a walk from position `i` on hold `bs`; every other byte of every store reads as before. -/
def WalkHoldsAt (s t : State) (p : Word) (i : Nat) (bs : List Byte) : Prop :=
  walkBytes t p i bs.length = bs ∧
  ∀ c a, (∀ j : Nat, j < bs.length → ¬(c = ptrCore (advance p (i + j : Nat)) ∧ a = ptrOff (advance p (i + j : Nat)))) →
    lsRead t c a = lsRead s c a

/-- The entry `e` stands first among core `c`'s copy entries. -/
def Heads (s : State) (c : Nat) (e : CopyEnt) (rest : List CopyEnt) : Prop :=
  (getCore s c).copyQ = e :: rest ∧ ∀ f ∈ rest, f.id ≠ e.id

/-- The entry `e`, which is no `cpyg`, stands first among core `c`'s copy entries, under way, with bytes of its row `e.row` from offset `e.off`
on still to move, at most the rest of one bank word of them already read, and none that cannot be corrected (`bad`) or one. -/
structure Moving (s : State) (c : Nat) (e : CopyEnt) (rest : List CopyEnt) (bad : Option Nat) : Prop where
  queue : Heads s c e rest
  place : e.started = true ∧ e.stopped = none ∧ e.bad = bad ∧ e.row < e.rows ∧ e.off < e.len
  plain : e.gather = false ∧ e.rowSrc = none
  tail : e.tail.length < 16

/-- The bytes of the bank word of a source in which a run has ended at offset `i` of its row, as they stand: they are not read again (R268). -/
def wordRest (s : State) (e : CopyEnt) (src : Word) (i : Nat) : List Byte :=
  if i < e.len then walkBytes s src i (min ((16 - ptrOff (advance src i) % 16) % 16) (e.len - i)) else []

/-- After a run of `n` bytes the entry stands behind them, with what it has read ahead; what its banks have delayed the run comes later. -/
def RanOn (s t : State) (c : Nat) (e : CopyEnt) (rest : List CopyEnt) (n : Nat) (ahead : List Byte) : Prop :=
  ∃ f, (getCore t c).copyQ = f :: rest ∧ f.id = e.id ∧ f.started = true ∧ f.stopped = none ∧
    (if e.off + n < e.len then f.row = e.row ∧ f.off = e.off + n else f.row = e.row + 1 ∧ f.off = 0) ∧
    f.base = e.base + (s.now - (e.base + e.runIndex)) ∧ f.due = e.due + runLate s (e.base + e.runIndex) (copyStretches s e) ∧
    f.tail = ahead ∧ t.pend = s.pend

end Sys2Proof.Claims

/-- R337, R266: an entry that may start is under way, its first run coming within 8 cycles of the cycle in which its bytes can be there; between two
stores it is to complete after exactly its time, and across the fabric after at least 1,400 cycles, unless its banks delay it. The 8 cycles are the
model's choice (log 1). -/
def Sys2Proof.Claims.CopyStart : Prop :=
  ∀ (s : State) (c : Nat) (e : CopyEnt), (copyReady s c).find? (fun f => f.id == e.id) = some e → 0 < e.rows →
    ∃ t f, exec (.copyEntryStart c e.id) s = .next t ∧ BytesSame s t ∧ (∀ d v, getStrand t d v = getStrand s d v) ∧
      (getCore t c).copyQ = (getCore s c).copyQ.map (fun g => if g.id = e.id then f else g) ∧
      f = { e with started := true, base := f.base, due := f.due } ∧ s.now ≤ f.base ∧ f.base ≤ f.due ∧ t.pend = s.pend ∧
      (e.gather = false → e.dir = 0 →
        let h := max (hops (c % 16) (ptrCore e.src % 16)) (hops (c % 16) (ptrCore e.dst % 16))
        f.due = s.now + 8 + (e.rows * e.len + 63) / 64 + 2 * h + e.rows - 1 ∧ f.base ≤ s.now + h + 8) ∧
      (e.gather = false → e.dir = 1 → bit e.src 63 = false → ∀ l, walk s e.src.toNat = some l → 2 ≤ entAttr l.entry →
        s.now + 1400 + (e.rows * e.len + 255) / 256 + 8 + e.rows - 1 ≤ f.due)

/-- R237, R336, R386: before a run, the entry keeps the translation of a page that it has reached, from a buffer or by a walk, and asks S for a line
that its task's locks do not cover; meanwhile nothing moves. -/
def Sys2Proof.Claims.CopyAsks : Prop :=
  ∀ (s : State) (c : Nat) (e : CopyEnt) (rest : List CopyEnt), Heads s c e rest →
    let t := askForRun s c e
    let lines := sourceLines s e ++ destLines e
    BytesSame s t ∧
    (∀ va, copyUntranslated e lines = some va →
      (∀ l, buffered s c va = some (l, 0) → walk s va = some l →
        (getCore t c).copyQ = { e with pages := e.pages ++ [l] } :: rest ∧ t.pend = s.pend) ∧
      (buffered s c va = none → walkRoom s (dieOf c) va = true →
        (getCore t c).copyQ = { e with asking := true } :: rest ∧ ∃ d, 1 ≤ d ∧ d ≤ 6 + walkLevels s va * (200 + testDelay s) ∧
          t.pend = s.pend ++ [(s.now + d, .translationWalkComplete ⟨c, va, .copy e.id⟩)])) ∧
    ∀ r o, copyUntranslated e lines = none → e.task = some r → copyUnlocked s e = some o →
      (getCore t c).copyQ = { e with asking := true } :: rest ∧
      ∃ d q, 1 ≤ d ∧ d ≤ 24 ∧ t.pend = s.pend ++ [(s.now + d, .lockRequestArrival q)] ∧ q.task = some r ∧ q.cx = e.cx ∧
        q.todo = chainFor o .s ∧ q.cont = .copy c e.id

/-- R335, R336, R338, R268: what the runs of an entry do: 64 bytes between two stores, 256 with a global side, in ascending order, from store to store,
from an immediate page to a store and from a store to an immediate page, with nothing else changed; what the run before has read of a bank word is
not read again; a run whose page does not translate stops the entry at its byte with WHY 1. -/
def Sys2Proof.Claims.CopyRuns : Prop :=
  ∀ (s : State) (c : Nat) (e : CopyEnt) (rest : List CopyEnt), Moving s c e rest none →
    let t := afterCopyRun s c e
    let lsrc := advance e.src (e.row * e.sstr)
    let ldst := advance e.dst (e.row * e.dstr)
    let gsrc := e.src + BitVec.ofInt 64 (e.row * e.sstr) + BitVec.ofNat 64 e.off
    let gdst := e.dst + BitVec.ofInt 64 (e.row * e.dstr) + BitVec.ofNat 64 e.off
    let n := min (if e.dir = 0 then 64 else 256) (e.len - e.off)
    let old := e.tail.take n
    let bytes := old ++ walkBytes s lsrc (e.off + old.length) (n - old.length)
    (e.dir = 0 → WalkHoldsAt s t ldst e.off bytes ∧ t.mem = s.mem ∧ RanOn s t c e rest n (wordRest t e lsrc (e.off + n))) ∧
    (e.dir = 1 → ∀ pa, ImmBlock s e gsrc n false pa →
      WalkHoldsAt s t ldst e.off (s.mem.readN pa n) ∧ t.mem = s.mem ∧ RanOn s t c e rest n []) ∧
    (e.dir = 2 → ∀ pa, ImmBlock s e gdst n true pa →
      t.mem.readN pa n = bytes ∧ (∀ a, ¬(pa ≤ a ∧ a < pa + n) → t.mem.read a = s.mem.read a) ∧
      (∀ d a, lsRead t d a = lsRead s d a) ∧ RanOn s t c e rest n (wordRest s e lsrc (e.off + n))) ∧
    (e.dir = 1 → bits gsrc 63 48 = 0 → e.page gsrc.toNat = none →
      BytesSame s t ∧ t.pend = s.pend ∧ ∃ f, (getCore t c).copyQ = f :: rest ∧ f.id = e.id ∧ f.stopped = some (1, gsrc) ∧ f.row = e.row ∧
        f.off = e.off)

/-- R338, R408: a run in which byte `b` cannot be corrected moves the bytes before it and stops the entry there with WHY 4, at the byte's address on
the global side. -/
def Sys2Proof.Claims.CopyStops : Prop :=
  ∀ (s : State) (c : Nat) (e : CopyEnt) (rest : List CopyEnt) (b : Nat), Moving s c e rest (some b) →
    let t := afterCopyRun s c e
    let lsrc := advance e.src (e.row * e.sstr)
    let ldst := advance e.dst (e.row * e.dstr)
    let gdst := e.dst + BitVec.ofInt 64 (e.row * e.dstr) + BitVec.ofNat 64 e.off
    let n := min (if e.dir = 0 then 64 else 256) (e.len - e.off)
    let m := b % n
    let old := e.tail.take m
    let bytes := old ++ walkBytes s lsrc (e.off + old.length) (m - old.length)
    let stops := fun (a : Word → Prop) => ∃ f v, (getCore t c).copyQ = f :: rest ∧ f.id = e.id ∧ f.row = e.row ∧ f.stopped = some (4, v) ∧ a v
    (e.dir = 0 → WalkHoldsAt s t ldst e.off bytes ∧ t.mem = s.mem ∧ stops (fun _ => True)) ∧
    (e.dir = 2 → ∀ pa, ImmBlock s e gdst n true pa →
      t.mem.readN pa m = bytes ∧ (∀ a, ¬(pa ≤ a ∧ a < pa + m) → t.mem.read a = s.mem.read a) ∧
      (∀ d a, lsRead t d a = lsRead s d a) ∧ stops (fun v => v = gdst + wd m))

/-- R335, R338, R343, R266: at completion the word is written by CMODE, the entry leaves its queue and DONE counts it; a fault is recorded in the
queue's status, with the completion write made all the same, and held for the strand of a task; an old word that cannot be corrected is one, with
WHY 4 (log 45); behind an earlier entry of its queue the entry waits. -/
def Sys2Proof.Claims.CopyEnds : Prop :=
  ∀ (s : State) (c : Nat) (e : CopyEnt),
    (∀ before rest, (getCore s c).copyQ = before ++ e :: rest → (∀ f ∈ before, f.id ≠ e.id) → (∃ f ∈ before, f.q = e.q) →
      exec (.copyEntryComplete c e.id) s = .next s) ∧
    ∀ rest, (getCore s c).copyQ = e :: rest → (∀ f ∈ rest, f.id ≠ e.id) →
      let old : Word := wd (ofBytes (walkBytes s e.cptr 0 8))
      let q : CqStat := getK {} (getCore s c).cqStat e.q
      ∃ t, exec (.copyEntryComplete c e.id) s = .next t ∧ t.mem = s.mem ∧
        (e.cmode = 0 → BytesSame s t) ∧
        (e.wordBad = false → ∀ m v, (m, v) ∈ [(1, e.cval), (2, old + e.cval), (3, old ||| e.cval)] → e.cmode = m → WalkHolds s t e.cptr (toBytes 8 v.toNat)) ∧
        (getCore t c).copyQ.map (·.id) = rest.map (·.id) ∧
        (∀ f ∈ rest, f.q ≠ e.q ∨ f.running = false → f ∈ (getCore t c).copyQ) ∧
        (∀ j, j ≠ e.q → getK {} (getCore t c).cqStat j = getK {} (getCore s c).cqStat j) ∧
        (e.stopped = none → e.wordBad = false → getK {} (getCore t c).cqStat e.q = { q with done := (q.done + 1) % 2 ^ 32 }) ∧
        (∀ why a, e.stopped = some (why, a) → q.count < 4095 →
          getK {} (getCore t c).cqStat e.q =
            { fault := true, why := if q.fault = true then q.why else why, count := q.count + 1,
              addr := if q.fault = true then q.addr else a.toNat % 2 ^ 48, done := (q.done + 1) % 2 ^ 32 }) ∧
        (e.bad ≠ none → e.stopped = none → 2 ≤ e.cmode → q.count < 4095 →
          ∃ a, getK {} (getCore t c).cqStat e.q =
            { fault := true, why := if q.fault = true then q.why else 4, count := q.count + 1,
              addr := if q.fault = true then q.addr else a, done := (q.done + 1) % 2 ^ 32 }) ∧
        (∀ why a r, e.stopped = some (why, a) → e.task = some r → strandGone s r e.cx = false → e.cx.core = c →
          (getStrand t c e.cx.strand).held = (getStrand s c e.cx.strand).held ++ [⟨if why = 1 then 0x06 else 0x07, a, e.cx.word, true⟩]) ∧
        ∀ why a r, e.stopped = some (why, a) → e.task = some r → strandGone s r e.cx = true →
          (s.now, .taskFault r c (if why = 1 then 0x06 else 0x07)) ∈ t.pend

/-- R237, R266, R268, R335 to R338, R343: the course of a copy entry. Where uncorrectable data is met is log 45. That an answer, a walk or a lock request takes at least one cycle is the model's
reading of a bound (log 1). -/
def Obligations.CopyHappenings : Prop :=
  Sys2Proof.Claims.CopyStart ∧ Sys2Proof.Claims.CopyAsks ∧ Sys2Proof.Claims.CopyRuns ∧ Sys2Proof.Claims.CopyStops ∧
  Sys2Proof.Claims.CopyEnds

namespace Sys2Proof.Claims

/-- The fields of a record that `patch` writes (Table 16.5): doubleword, lowest bit and width. -/
def patchFields (item : Nat) : List (Nat × Nat × Nat) :=
  if item = 0 then [(0, 0, 48)] else if item = 1 then [(0, 48, 3)] else if item = 2 then [(0, 52, 2)]
  else if item = 3 then [(2, 0, 48)] else if item = 4 then [(3, 0, 16), (3, 16, 16)] else if item = 5 then [(4, 0, 64)]
  else if item = 6 then [(8, 0, 48)] else if item = 7 then [(7, 0, 16)]
  else if item < 13 then [(5, 12 * (item - 8), 12)] else if item < 16 then [(6, 12 * (item - 13), 12)]
  else if item = 16 then [(3, 32, 4)] else if item = 17 then [(1, 0, 64)]
  else if 32 ≤ item ∧ item < 48 then [(item - 16, 0, 64)] else []

/-- The values that an item accepts (Table 16.5). -/
def PatchValue (item : Nat) (v : Word) : Prop :=
  let n := v.toNat
  (item = 0 ∧ n < 2 ^ 48) ∨ (item = 1 ∧ n ≤ 7) ∨ (item = 2 ∧ n ≤ 3) ∨ (item = 3 ∧ n % 2 = 0 ∧ n ≠ 0 ∧ n < 2 ^ 48) ∨
  (item = 4 ∧ 1 ≤ n ∧ n ≤ 65535) ∨ (item = 5 ∧ n % 16 = 0) ∨ (item = 6 ∧ n < 2 ^ 48) ∨ (item = 7 ∧ n < 2 ^ 16) ∨
  (8 ≤ item ∧ item < 16 ∧ n < 4096) ∨ (item = 16 ∧ n ≤ 8) ∨ (item = 17 ∧ bits v 7 4 ≠ 0 ∧ n < 2 ^ 31) ∨
  (32 ≤ item ∧ item < 48 ∧ (item % 2 = 0 ∨ bits v 61 59 ≠ 7))

/-- Between two states of the machine, in record `r` of the pool the given fields hold `v` and every other bit is as before; no other byte
of any memory differs. -/
def RecordBecomes (s t : State) (b r : Nat) (fields : List (Nat × Nat × Nat)) (v : Nat) : Prop :=
  (∀ f ∈ fields, ∀ j, j < f.2.2 → bit (recWord t r f.1) (f.2.1 + j) = v.testBit j) ∧
  (∀ i j, i < 32 → j < 64 → (∀ f ∈ fields, ¬(i = f.1 ∧ f.2.1 ≤ j ∧ j < f.2.1 + f.2.2)) →
    bit (recWord t r i) j = bit (recWord s r i) j) ∧
  (∀ a, ¬(b + 256 * r ≤ a ∧ a < b + 256 * r + 256) → t.mem.read a = s.mem.read a) ∧ ∀ c a, lsRead t c a = lsRead s c a

/-- The status of `arm` (R358): 1 for a record that is not Idle, 2 for one that cannot be run. -/
def ArmBad (s : State) (r : Nat) : Prop :=
  recEntry s r = 0 ∨ (∃ e ∈ recExtents s r, e.mode = 7) ∨ recNstr s r = 0 ∨ recLsz s r < unitsNeeded s r

/-- The instruction is answered within 40 cycles with status `v`. -/
def Answers (i : Instr) (s : State) (dst : Opnd) (v : Word) (p : State → Prop) : Prop :=
  ∃ t d, exec i s = .next t ∧ 1 ≤ d ∧ d ≤ 40 ∧ Leaves s t .waiting .flight false ∧
    t.pend = s.pend ++ [(s.now + d, .controlPlaneReply s.cur (.value v) dst)] ∧ p t

end Sys2Proof.Claims

/-- R357, R358, R349: `patch` and `arm` answer within 40 cycles, status 1 for a record that is not Idle, 2 and 3 as their tables say; a
good `patch` outside tasks writes its fields and nothing else, a good `arm` counts CNT down and at the last queues the record at the
core's die under the next sequence number; in a task both are logged and change nothing. -/
def Sys2Proof.Claims.PatchAndArmAnswers : Prop :=
  ∀ (x : Args) (s : State) (b : Nat), s.mgmt.poolBase = some b → Performs s x →
    let c := s.cur.core
    let task := taskOf s c s.cur.strand
    (∀ r v item, r = bits (src s x.b) 11 0 → v = src s x.c → item = x.imm.toNat → task = none →
      ((getTask s r).st ≠ .idle → Answers (.patch x) s x.a 1 (BytesSame s)) ∧
      ((getTask s r).st = .idle →
        (patchFields item = [] → Answers (.patch x) s x.a 2 (BytesSame s)) ∧
        (patchFields item ≠ [] → ¬ PatchValue item v → Answers (.patch x) s x.a 3 (BytesSame s)) ∧
        (PatchValue item v → Answers (.patch x) s x.a 0 (fun t =>
          if item = 4 then RecordBecomes s t b r [(3, 0, 32)] (v.toNat * 65537)
          else RecordBecomes s t b r (patchFields item) v.toNat)))) ∧
    (∀ r, r = bits (src s x.a) 11 0 → task = none →
      ((getTask s r).st ≠ .idle → Answers (.arm x) s x.a 1 (BytesSame s)) ∧
      ((getTask s r).st = .idle → ArmBad s r → Answers (.arm x) s x.a 2 (BytesSame s)) ∧
      ((getTask s r).st = .idle → ¬ ArmBad s r →
        (1 < recCnt s r → Answers (.arm x) s x.a 0 (fun t =>
          RecordBecomes s t b r [(3, 0, 16)] (recCnt s r - 1) ∧ t.tasks = s.tasks ∧ t.dies = s.dies)) ∧
        (recCnt s r ≤ 1 → Answers (.arm x) s x.a 0 (fun t =>
          (getTask t r).st = .queued ∧ (getTask t r).seq = s.seqCount ∧ (getTask t r).stamp = recStamp s r ∧
          t.seqCount = (s.seqCount + 1) % 2 ^ 32 ∧ bits (recWord t r 3) 43 40 = 2 ∧ recCnt t r = 0 ∧
          (∃ e ∈ (getDie t (dieOf c)).queue, e.rec_ = r) ∧
          (getDie t (dieOf c)).queue.length = (getDie s (dieOf c)).queue.length + 1)))) ∧
    ∀ q, task = some q → (getLog s c q).length < 4096 → (∀ d ∈ (getTask s q).members, getLog s d q = []) →
      (∀ r v item, r = bits (src s x.b) 11 0 → v = src s x.c → item = x.imm.toNat → (getTask s r).st = .idle → PatchValue item v →
        Answers (.patch x) s x.a 0 (fun t => BytesSame s t ∧ getLog t c q = getLog s c q ++ [.patch r item v s.cur.at_])) ∧
      ∀ r, r = bits (src s x.a) 11 0 → (getTask s r).st = .idle → ¬ ArmBad s r →
        Answers (.arm x) s x.a 0 (fun t => BytesSame s t ∧ getLog t c q = getLog s c q ++ [.arm r s.cur.at_])

/-- R357: the patches and armings that the members of a gang have logged take effect in the order of their issue. -/
def Sys2Proof.Claims.RecordOrder : Prop :=
  ∀ (logs : List LogRec),
    (recordOps logs).Perm (logs.filter (fun e => (recOpAt e).isSome)) ∧
    (recordOps logs).Pairwise (fun e f => (recOpAt e).getD 0 ≤ (recOpAt f).getD 0)

/-- R349, R357, R358: `patch` and `arm`, and the order of what a task has logged. That those of one cycle take effect in ascending MEMBER order is
the model's choice (log 72). -/
def Obligations.PatchAndArm : Prop := Sys2Proof.Claims.PatchAndArmAnswers ∧ Sys2Proof.Claims.RecordOrder

namespace Sys2Proof.Claims

/-- The conditions of `waita` by its modifier (R342). -/
def waitConditions : List (Word → Word → Bool) := [
  fun w v => v.ule w, fun w v => w == v, fun w v => w != v, fun w v => w.ult v, fun w v => (w &&& v) != 0]

/-- The ready queue's entries at a level, oldest first. -/
def levelOf (k : Core) (lv : Nat) : List Word := (k.readyQ.filter (fun e => e.1 == lv)).map (·.2)

/-- No strand of a core waits in `rqt.wait`. -/
def NoReadyWaiter (s : State) (c : Nat) : Prop := ∀ u w, (getStrand s c u).wait = some w → w.why ≠ .ready

/-- The task of record `r` runs on core `c` alone, with no matrix work or repetition there, no lock anywhere and no barrier of its own. -/
structure Alone (s : State) (r c : Nat) : Prop where
  members : (getTask s r).members = [c]
  queue : (getCore s c).mq = [] ∧ (getCore s c).mqWait = [] ∧ (getCore s c).rep = none
  locks : s.locks.entries = [] ∧ s.locks.noRoom = []
  units : ∀ n, (getBarrier s (loomOf c) n).owner ≠ .task r

/-- The states in which a task can fault or be wounded (R26). -/
def mayFault (st : TaskState) : Prop := st ∈ [TaskState.locking, .running, .retired]

/-- The record stands in some die or loom queue. -/
def Enqueued (s : State) (r : Nat) : Prop :=
  (∃ l, ∃ e ∈ (getLoom s l).queue, e.rec_ = r) ∨ ∃ d, ∃ e ∈ (getDie s d).queue, e.rec_ = r

/-- What a fault of the task of record `r`, which runs on core `c` alone, leaves (R25, R131, R355): its strands are free and its log gone, FCAUSE
and FCORE say who failed and why, a message of cause 0x0B tells the core, and the record is Queued again with RETRY one less and its age, or
Failed, which the error log records. -/
structure FaultEnds (s t : State) (r c core : Nat) (cause : Byte) : Prop where
  report : recFcause t r = cause.toNat ∧ bits (recWord t r 7) 33 24 = core
  log : getLog t c r = []
  members : (getTask t r).members = []
  strands : ∀ u, (c, u) ∈ taskStrands s r → (getStrand t c u).st = .free
  message : taskStrands s r ≠ [] → ∃ m ∈ (getCore t c).trapQ, m.cause = 0x0B ∧ (c, m.strand) ∈ taskStrands s r
  fails : recRetry s r = 0 → (getTask t r).st = .failed ∧ t.mgmt.log = s.mgmt.log ++ [.failed r (recGraph s r)]
  again : 0 < recRetry s r → (getTask t r).st = .queued ∧ recRetry t r = recRetry s r - 1 ∧ Enqueued t r ∧
    (getTask t r).stamp = (getTask s r).stamp ∧ (getTask t r).seq = (getTask s r).seq

/-- `tq`'s report of a record (R360). -/
structure TaskReport (s : State) (r : Nat) (v : Word) : Prop where
  entry : bits v 47 0 = recEntry s r
  strands : bits v 51 48 = recNstr s r
  regs : bits v 55 52 = recRegs s r
  tiles : bits v 63 56 = recAccm s r

end Sys2Proof.Claims

/-- R342, R407, R356, R359 to R362: `waita` completes when its condition holds and else is Blocked, and waits uncounted while its word's bank is under
test; `tq` hands strand 0 the head of the core queue;
`tdone` ends a strand's part, the last one Waiting while copy entries of the task are left; `tfail` faults the task of its strand, or the one of the
strand that strand 0 names, and gives 1 for a strand that runs no task; `rqp` and `rqt` push and take 63-bit values.
That `tq` gives 0 for a head whose task is not Running is read from the rules (log 33). -/
def Obligations.TaskInstructions : Prop :=
  ∀ (x : Args) (s : State), Performs s x →
    let c := s.cur.core
    let k := curCore s
    (∀ f, waitConditions[x.mod.toNat]? = some f →
      let p := ptrVal s s.cur x.b
      checkAccess s s.cur p 8 = none → checkAlign p 8 = none → watchWalk s s.cur true false p 8 = none →
      let w := wd (ofBytes (lsBytes s (ptrCore p) (ptrOff p) 8))
      let tested := bankTested s (ptrCore p) (bankMask (ptrOff p) 8)
      (tested = true → ∃ t why, exec (.waita x) s = .next t ∧ Leaves s t .waiting why false ∧ OutsideSame s t ∧ BytesSame s t) ∧
      (tested = false → f w (src s x.a) = true → InRotation s →
        ∃ t, exec (.waita x) s = .next t ∧ DoneRegisters s t ⟨s.cur, x.a, some w, incList s s.cur x.b 8 x.imm⟩ ∧ BytesSame s t) ∧
      (tested = false → f w (src s x.a) = false →
        ∃ t why, exec (.waita x) s = .next t ∧ Leaves s t .blocked why true ∧ OutsideSame s t ∧ BytesSame s t)) ∧
    (s.cur.strand = 0 → InRotation s →
      ((k.coreQ = [] ∨ k.auto = true ∨ ∃ r rest, k.coreQ = r :: rest ∧ (getTask s r).st ≠ .running) → Gives (.tq x) s x.a 0) ∧
      ∀ r rest, k.coreQ = r :: rest → (∀ q ∈ rest, q ≠ r) → (getTask s r).st = .running → k.auto = false →
        ∃ t v, exec (.tq x) s = .next t ∧ TaskReport s r v ∧ Resumed s t s.cur x.a v ∧ (curCore t).coreQ = rest ∧
          getK 0 (curCore t).perf 11 = getK 0 k.perf 11 + 1 ∧
          bits ((curCore t).sharedLast 39) 31 0 = (getTask s r).seq % 2 ^ 32 ∧
          (r < 4096 → (getTask s r).members.length ≤ 16 → bits ((curCore t).sharedLast 39) 43 32 = r) ∧
          (curCore t).sharedLast 41 = getK 0 (getTask s r).regions c) ∧
    (s.cur.strand ≠ 0 →
      ((curStrand s).held = [] → taskOf s c s.cur.strand = none →
        ∃ t, exec (.tdone x) s = .next t ∧ (curStrand t).st = .done ∧ (curStrand t).pc = nextPc s.cur ∧ BytesSame s t ∧
          OutsideSame s t ∧ OthersSame s t c s.cur.strand ∧ ∀ o, rd t s.cur o = rd s s.cur o) ∧
      (∀ f rest, (curStrand s).held = f :: rest →
        ∃ t s', exec (.tdone x) s = .next t ∧ (curStrand t).held = rest ∧
          s' = modStrand s c s.cur.strand (fun y => { y with held := rest }) ∧
          TrapEffect s' t c s.cur.strand f.cause f.info (if f.copy then s.cur.word else f.word) s.cur.addr s.cur.addr)) ∧
    (s.cur.strand ≠ 0 → (curStrand s).held = [] → ∀ r, taskOf s c s.cur.strand = some r →
      (allDone s r [(c, s.cur.strand)] = true → taskCopies s r = true →
        ∃ t, exec (.tdone x) s = .next t ∧ Leaves s t .waiting (.tdone r) false ∧ OutsideSame s t ∧ BytesSame s t) ∧
      (allDone s r [(c, s.cur.strand)] = false ∨ taskCopies s r = false →
        ∃ t, exec (.tdone x) s = .next t ∧ (curStrand t).st = .done ∧ (curStrand t).pc = nextPc s.cur ∧ BytesSame s t ∧
          OthersSame s t c s.cur.strand ∧
          (allDone s r [(c, s.cur.strand)] = true → (s.now, .taskRetire r) ∈ t.pend))) ∧
    (s.cur.strand = 0 → InRotation s →
      let u := bits (src s x.a) 11 8
      (taskOf s c u = none ∨ (getStrand s c u).st = .free → Gives (.tfail x) s x.a 1) ∧
      ∀ r b, taskOf s c u = some r → (getStrand s c u).st ≠ .free → s.mgmt.poolBase = some b → r < 4096 → c < 1024 → Alone s r c →
        recReport s r = 0 →
        ∃ t, exec (.tfail x) s = .next t ∧ rd t s.cur x.a = readsAs x.a 0 ∧ GoesOn t s.cur (nextPc s.cur) ∧
          FaultEnds s t r c c (if bits (src s x.a) 7 0 = 0 then 0x17 else (src s x.a).setWidth 8)) ∧
    (∀ r b, taskOf s c s.cur.strand = some r → s.mgmt.poolBase = some b → r < 4096 → c < 1024 → Alone s r c → recReport s r = 0 →
      ∃ t, exec (.tfail x) s = .next t ∧ FaultEnds s t r c c (if bits (src s x.a) 7 0 = 0 then 0x17 else (src s x.a).setWidth 8)) ∧
    (taskOf s c s.cur.strand = none → InRotation s →
      let lv := x.mod.toNat
      let v := src s x.a &&& 0x7FFFFFFFFFFFFFFF
      (NoReadyWaiter s c → (levelOf k lv).length < 16 →
        ∃ t, exec (.rqp x) s = .next t ∧ Resumed s t s.cur x.a v ∧ levelOf (curCore t) lv = levelOf k lv ++ [v] ∧
          ∀ j, j ≠ lv → levelOf (curCore t) j = levelOf k j) ∧
      (NoReadyWaiter s c → 16 ≤ (levelOf k lv).length → Gives (.rqp x) s x.a (v ||| 0x8000000000000000)) ∧
      (∀ j w ws, j < 4 → (∀ i, i < j → levelOf k i = []) → levelOf k j = w :: ws →
        ∃ t, exec (.rqt x) s = .next t ∧ Resumed s t s.cur x.a w ∧ levelOf (curCore t) j = ws ∧
          ∀ i, i ≠ j → levelOf (curCore t) i = levelOf k i) ∧
      ((∀ i, i < 4 → levelOf k i = []) →
        (x.mod = 0 → Gives (.rqt x) s x.a 0x8000000000000000) ∧
        (x.mod ≠ 0 → ∃ t, exec (.rqt x) s = .next t ∧ Leaves s t .blocked .ready true ∧ OutsideSame s t ∧ BytesSame s t)))

/-- R355, R131: a running task whose strands are all done retires, its strands free and its log kept; a fault ends its strands and its
log, records FCAUSE and FCORE, and queues it again with RETRY one less and its age, or makes it Failed, which the error log records. -/
def Obligations.TaskEnds : Prop :=
  ∀ (s : State) (r c b : Nat), s.mgmt.poolBase = some b → r < 4096 → Alone s r c →
    ((getTask s r).st = .running → allDone s r [] = true → taskCopies s r = false →
      ∃ t, exec (.taskRetire r) s = .next t ∧ (getTask t r).st = .retired ∧ bits (recWord t r 3) 43 40 = 5 ∧
        getLog t c r = getLog s c r ∧ (getTask t r).regions = [] ∧ (∀ u, (c, u) ∈ taskStrands s r → (getStrand t c u).st = .free) ∧
        (∀ u, (c, u) ∉ taskStrands s r → (getStrand t c u).st = (getStrand s c u).st)) ∧
    ∀ core cause, core < 1024 → mayFault (getTask s r).st → recReport s r = 0 →
      ∃ t, exec (.taskFault r core cause) s = .next t ∧ FaultEnds s t r c core cause

/-- R350 to R354, R23: an entry moves from a die's queue to a loom that takes it, where it can be chosen within 16 cycles (Table 1.8), or back from a
loom without an open core; the first
entry with a fitting gang leaves its loom's queue for Locking with regions of LSZ units; a run of a fetch puts the bytes of its line into the region;
a fetch with nothing left to load puts the record into the
core's queue, and the last one makes it Running; automatic dispatch starts a strand as `start` would, the first of a task with its ACCM.
That a start also clears HLDP, a pending hold and a timer's expiry is the model's reading (log 30, DEDUCED). -/
def Obligations.TaskMovement : Prop :=
  ∀ (s : State) (l : Nat),
    let d := l / 16
    (∀ e, (getDie s d).queue = [e] → e.from_ ≤ s.now → (getTask s e.rec_).avoid = none → (getLoom s l).queue.length ≤ 248 → loomOpen s l = true →
      ∃ t, exec (.dieToLoomMove l) s = .next t ∧ (getDie t d).queue = [] ∧
        (∃ f ∈ (getLoom t l).queue, f = { e with from_ := f.from_ } ∧ s.now ≤ f.from_ ∧ f.from_ ≤ s.now + 15) ∧
        (getLoom t l).queue.length = (getLoom s l).queue.length + 1 ∧ ∀ f ∈ (getLoom s l).queue, f ∈ (getLoom t l).queue) ∧
    (loomOpen s l = false →
      ∃ t, exec (.loomToDieReturn l) s = .next t ∧ (getLoom t l).queue = (getLoom s l).queue.drop 8 ∧
        (∀ e, e ∈ (getDie t d).queue ↔ e ∈ (getDie s d).queue ∨ e ∈ (getLoom s l).queue.take 8) ∧
        (getDie t d).queue.length = (getDie s d).queue.length + min 8 (getLoom s l).queue.length) ∧
    (∀ e rest g b, s.mgmt.poolBase = some b → (getLoom s l).queue = e :: rest → e.from_ ≤ s.now → (∀ f ∈ e :: rest, f.passed < 256) →
      gangFor s l e.rec_ = some g →
      ∃ t, exec (.loomChoose l) s = .next t ∧ (getTask t e.rec_).st = .locking ∧ (getTask t e.rec_).members = g ∧
        g.length = recCores s e.rec_ ∧ (getTask t e.rec_).loom = l ∧ (∀ f ∈ (getLoom t l).queue, f.rec_ ≠ e.rec_) ∧
        (∀ c ∈ g, recLsz s e.rec_ + bits (getK 0 (getTask t e.rec_).regions c) 10 0 = bits (getK 0 (getTask t e.rec_).regions c) 26 16) ∧
        (recExtents s e.rec_ = [] → (getTask t e.rec_).fetch = g)) ∧
    (∀ r c b, s.mgmt.poolBase = some b → (getTask s r).st = .locking → (getTask s r).fetch.contains c = true →
      (∀ j ∈ (getCore s c).fetches, j.ent.task = some r → j.pieces = []) →
      ∃ t, exec (.footprintFetchComplete r c) s = .next t ∧ r ∈ (getCore t c).coreQ ∧ (∀ q ∈ (getCore s c).coreQ, q ∈ (getCore t c).coreQ) ∧
        ((∀ e ∈ (getTask s r).fetch, e = c) → (getTask t r).st = .running) ∧
        ((∃ e ∈ (getTask s r).fetch, e ≠ c) → (getTask t r).st = .locking)) ∧
    (∀ r c j a off n ps pa, (getCore s c).fetches = [j] → j.ent.task = some r → j.pieces = (a, off, n) :: ps → 0 < n →
      ImmBlock s j.ent a n false pa →
      let t := afterFetchRun s c r j
      lsBytes t c off n = s.mem.readN pa n ∧ t.mem = s.mem ∧
        (∀ e i, ¬(e = c ∧ off ≤ i ∧ i < off + n) → lsRead t e i = lsRead s e i) ∧
        (∃ k, (getCore t c).fetches = [k] ∧ k.pieces = ps ∧ k.ent.task = some r ∧ k.ent.off = j.ent.off + 1) ∧
        (ps ≠ [] → t.pend = s.pend) ∧ (ps = [] → ∃ due, s.now ≤ due ∧ t.pend = s.pend ++ [(due, .footprintFetchComplete r c)])) ∧
    ∀ c r u base accm, autoStart s c = some (r, u, base, accm) →
      ∃ t, exec (.autoDispatchStart c) s = .next t ∧ u ≠ 0 ∧ (getCore s c).dispFrom < u ∧
        accm = (if getK 0 (getTask s r).left c = recNstr s r then recAccm s r else 0) ∧ (getStrand s c u).st = .free ∧
        Started (getStrand t c u) base (base + recWindow s r) accm (wd (recEntry s r)) ((getStrand s c 0).get 6) (taskWord s r c)
          (wd ((getTask s r).stamp % 2 ^ 48)) (getK 0 (getTask s r).regions c) false ∧
        (∀ v, v ≠ u → getStrand t c v = getStrand s c v) ∧ BytesSame s t

namespace Sys2Proof.Claims

/-- The committing task of record `r` on core `c` is the next to be released; nothing waits for it. -/
structure NextRelease (s : State) (r c b : Nat) : Prop where
  pool : s.mgmt.poolBase = some b
  record : r < 4096
  state : (getTask s r).st = .committing
  members : (getTask s r).members = [c]
  first : ∀ e ∈ s.tasks, e.1 ≠ r → e.2.st ≠ .committing
  quiet : s.locks.entries = [] ∧ s.locks.noRoom = [] ∧ s.readWaits = [] ∧ s.seqs = []
  nosucc : recNsucc s r = 0

/-- `n` bytes at `a` lie outside the record pool. -/
def OffPool (b a n : Nat) : Prop := a + n ≤ b ∨ b + 0x100000 ≤ a

end Sys2Proof.Claims

/-- R28, R260, R261, R262, R245, R280, R348: a retired task within the horizon with no store open starts its commit under the next index; its
release makes a logged store or sum visible, of flat memory or of a lineage line, drops the log, and makes the record Free, or Idle with CNT
reloaded from INIT.
A release's time within its bound is free (log 1); that a commit starts a cycle after the retirement at the earliest is the model's choice
(log 63). -/
def Obligations.Commit : Prop :=
  (∀ (s : State) (r : Nat), (getTask s r).st = .retired → (getTask s r).retAt < s.now →
    (∀ e ∈ s.tasks, e.2.st ∈ [TaskState.queued, .locking, .running, .retired, .committing, .aborted, .faulted] →
      (getTask s r).stamp ≤ e.2.stamp) →
    (∀ e ∈ s.cores, ∀ p ∈ e.2.posted, p.task ≠ some r) →
    ∃ t n, exec (.commitStart r) s = .next t ∧ (getTask t r).st = .committing ∧ (getTask t r).commitIx = some s.commitNext ∧
      t.commitNext = s.commitNext + 1 ∧ 1 ≤ n ∧ n ≤ 100 + 162 * (commitLines s r).length + nodeTime s r + windowTime s r ∧
      t.pend = s.pend ++ [(s.now + n, .commitRelease r)]) ∧
  ∀ (s : State) (r c b : Nat), NextRelease s r c b →
    ∃ t, exec (.commitRelease r) s = .next t ∧ getLog t c r = [] ∧
      (recInit s r = 0 → (∀ e ∈ getLog s c r, ∃ a bs, e = .store (.phys a) bs ∧ OffPool b a bs.length) → (getTask t r).st = .free) ∧
      (0 < recInit s r → getLog s c r = [] → (getTask t r).st = .idle ∧ recCnt t r = recInit s r) ∧
      (∀ a bs, getLog s c r = [.store (.phys a) bs] → OffPool b a bs.length →
        t.mem.readN a bs.length = bs ∧
        ∀ i, ¬(a ≤ i ∧ i < a + bs.length) → ¬(b ≤ i ∧ i < b + 0x100000) → t.mem.read i = s.mem.read i) ∧
      (∀ a v, getLog s c r = [.red (.phys a) 0 v] → OffPool b a 8 → wd (t.mem.num a 8) = wd (s.mem.num a 8) + v) ∧
      ∀ n off bs, getLog s c r = [.store (.lin n off) bs] → off % 256 + bs.length ≤ 256 → (getNode s n).depth < 16 →
        (resolveLine s n (off / 256)).length = 256 →
        resolveLine t n (off / 256) = patchBytes (resolveLine s n (off / 256)) (off % 256) bs

namespace Sys2Proof.Claims

/-- Nothing is locked and nothing waits for a lock. -/
def NoLocks (s : State) : Prop := s.locks.entries = [] ∧ s.locks.noRoom = []

/-- A node is live for a strand outside tasks: node 0, or valid, no ghost and not reserved (R279). -/
def LiveNode (s : State) (n : Nat) : Prop :=
  n = 0 ∨ ((getNode s n).valid = true ∧ (getNode s n).ghost = false ∧ (getNode s n).resv = none)

/-- The instruction completes with a refusal of the reason (R282, R307). -/
def Refuses (i : Instr) (s : State) (o : Opnd) (reason : Nat) : Prop :=
  ∃ t, exec i s = .next t ∧ Resumed s t s.cur o (BitVec.ofNat 64 (2 ^ 63 + reason))

/-- The strand waits for locks, asked for within half an L2 hit (the model's reading of R385, log 1), and its operation follows the grant. -/
def AsksFor (i : Instr) (s : State) (todo : List (LObj × Mode)) (cont : LCont) : Prop :=
  ∃ t d q, exec i s = .next t ∧ Leaves s t .waiting .lock false ∧ BytesSame s t ∧ 1 ≤ d ∧ d ≤ 24 ∧
    t.pend = s.pend ++ [(s.now + d, .lockRequestArrival q)] ∧ q.cx = s.cur ∧ q.task = taskOf s s.cur.core s.cur.strand ∧
    q.todo = todo ∧ q.cont = cont

/-- The instruction of a task's strand traps as a lineage operation, which counter `i` of R291 counts. -/
def CountedTrap (i : Instr) (s : State) (cause : Byte) (counter : Nat) : Prop :=
  ∃ t, exec i s = .next t ∧ TrapEffect (linAdd s counter 1) t s.cur.core s.cur.strand cause 0 s.cur.word s.cur.addr s.cur.addr

/-- The instruction of a strand of task `r` puts a record into its core's log and waits for locks (R281, R303), asked for within half an L2 hit
(log 1). -/
def Records (i : Instr) (s : State) (r : Nat) (e : LogRec) (todo : List (LObj × Mode)) (cont : LCont) : Prop :=
  ∃ t d q, exec i s = .next t ∧ Leaves s t .waiting .lock false ∧ BytesSame s t ∧ 1 ≤ d ∧ d ≤ 24 ∧
    t.pend = s.pend ++ [(s.now + d, .lockRequestArrival q)] ∧ q.cx = s.cur ∧ q.task = some r ∧ q.todo = todo ∧ q.cont = cont ∧
    getLog t s.cur.core r = getLog s s.cur.core r ++ [e]

/-- The grant of the last lock of an operation outside tasks. -/
def lastGrant (cx : Ctx) (o : LObj) (m : Mode) (cont : LCont) : LReq := { cx, task := none, todo := [(o, m)], cont }

/-- A list of numbers in rising order, each below `b`. -/
def Rising (l : List Nat) (b : Nat) : Prop := l.Pairwise (· < ·) ∧ ∀ n ∈ l, n < b

/-- The content of a node is the same in two states. -/
def ContentSame (s t : State) (n : Nat) : Prop := ∀ line, resolveLine t n line = resolveLine s n line

/-- Every resolved line is 256 bytes long. -/
def WholeLines (s : State) : Prop := ∀ n line, (resolveLine s n line).length = 256

end Sys2Proof.Claims

/-- R281, R282, R292 to R294, Table 12.10: outside tasks a node operation is refused by reason or asks for its locks; with the lock granted `fork` gives
a Free id its parent, depth and size and freezes the parent, `drop` frees a node without children and makes another a Ghost, `flat` and
`rebase` set parent and depth and leave the content as it is; `lnq` answers within 64 cycles. In a task reason 1 is the trap 0x0A and reason 2 the trap
0x09, both counted, and an operation that can be performed stands in the core's log from its issue on.
Liveness is checked at issue and again at the grant (log 36); that a request sets out for 1 to 24 cycles is the model's reading of a bound (log 1). -/
def Obligations.NodeOperations : Prop :=
  (∀ (x : Args) (s : State), Performs s x → cxTask s s.cur = none →
    let n := bits (src s x.b) 22 0
    let p := bits (src s x.c) 22 0
    let nt := bits (src s x.b) 57 32
    (InRotation s →
      (¬ LiveNode s n → ∀ i ∈ [Instr.fork x, .flat x, .drop x], Refuses i s x.a 1) ∧
      (n = 0 ∨ p = 0 → Refuses (.rebase x) s x.a 5) ∧
      (n ≠ 0 → p ≠ 0 → ¬ LiveNode s n ∨ ¬ LiveNode s p → Refuses (.rebase x) s x.a 1) ∧
      (n = 0 → nt = 0 → Refuses (.fork x) s x.a 5) ∧
      (n ≠ 0 → LiveNode s n → 15 ≤ (getNode s n).depth → Refuses (.fork x) s x.a 2) ∧
      (n = 0 → ∀ i ∈ [Instr.flat x, .drop x], Refuses i s x.a 5) ∧
      (LiveNode s n → LiveNode s p → (n = 0 ∨ p = 0 ∨ n = p ∨ (getNode s n).ntiles ≠ (getNode s p).ntiles) → Refuses (.rebase x) s x.a 5) ∧
      (LiveNode s n → LiveNode s p → n ≠ 0 → p ≠ 0 → n ≠ p → (getNode s n).ntiles = (getNode s p).ntiles →
        ((getNode s n).children ≠ 0 → Refuses (.rebase x) s x.a 4) ∧
        ((getNode s n).children = 0 → 15 ≤ (getNode s p).depth → Refuses (.rebase x) s x.a 2))) ∧
    (LiveNode s n → (n = 0 → nt ≠ 0) → (n ≠ 0 → (getNode s n).depth < 15) → (usedIds s).length < 8388607 →
      AsksFor (.fork x) s [(⟨3, n⟩, .s)] (.node (.fork n nt 0) x.a)) ∧
    (LiveNode s n → n ≠ 0 → AsksFor (.drop x) s [(⟨3, n⟩, .x)] (.node (.drop n) x.a)) ∧
    (LiveNode s n → n ≠ 0 → ((getNode s n).parent = 0 ∨ storageFits s none n 0 = true) →
      AsksFor (.flat x) s [(⟨3, n⟩, .s)] (.node (.flat n) x.a)) ∧
    (LiveNode s n → n ≠ 0 → (getNode s n).parent ≠ 0 → storageFits s none n 0 = false → InRotation s → Refuses (.flat x) s x.a 3) ∧
    (LiveNode s n → LiveNode s p → n ≠ 0 → p ≠ 0 → n ≠ p → (getNode s n).ntiles = (getNode s p).ntiles →
      (getNode s n).children = 0 → (getNode s p).depth < 15 → storageFits s none n p = true →
      AsksFor (.rebase x) s [(⟨3, n⟩, .s), (⟨3, p⟩, .s)] (.node (.rebase n p) x.a)) ∧
    ∃ t d, exec (.lnq x) s = .next t ∧ 1 ≤ d ∧ d ≤ 64 ∧
      LeavesUntil s t (s.now + d) (.controlPlaneReply s.cur (.lnq n x.imm.toNat) x.a)) ∧
  (∀ (x : Args) (s : State) (r : Nat), Performs s x → cxTask s s.cur = some r →
    let n := bits (src s x.b) 22 0
    let p := bits (src s x.c) 22 0
    let nt := bits (src s x.b) 57 32
    ∀ y ∈ [(Instr.fork x, NodeOp.fork n nt 0), (.rebase x, .rebase n p), (.flat x, .flat n), (.drop x, .drop n)],
      let reason := nodeRefusal s (some r) y.2
      (reason = 1 → CountedTrap y.1 s 0x0A 4) ∧ (reason = 2 → CountedTrap y.1 s 0x09 3) ∧
      (3 ≤ reason → InRotation s → Refuses y.1 s x.a reason) ∧
      (reason = 0 → logFull s s.cur.core r = true → TrapsWith y.1 s 0x07 0 s.cur.addr) ∧
      (reason = 0 → logFull s s.cur.core r = false →
        (y.2 ≠ .fork n nt 0 → Records y.1 s r (.node y.2 s.cur) (nodeLocks y.2) (.node y.2 x.a)) ∧
        (y.2 = .fork n nt 0 → Rising (usedIds s) 8388608 →
          ∃ ch, ch ≠ 0 ∧ ch ≤ 8388607 ∧ (getNode s ch).valid = false ∧
            Records y.1 s r (.node (.fork n nt ch) s.cur) [(⟨3, n⟩, .s)] (.node (.fork n nt ch) x.a)))) ∧
  ∀ (s : State) (cx : Ctx) (dst : Opnd), NoLocks s → stillWaits s cx = true →
    let done := fun (t : State) (v : Word) (d : Nat) => t.pend = s.pend ++ [(s.now + d, .nodeOperationComplete { cx, dst, val := some v })]
    (∀ n nt, LiveNode s n → (n = 0 → nt ≠ 0) → (n ≠ 0 → (getNode s n).depth < 15) → (usedIds s).length < 8388607 →
      Rising (usedIds s) 8388608 →
      ∃ t ch, exec (.lockGrant (lastGrant cx ⟨3, n⟩ .s (.node (.fork n nt 0) dst))) s = .next t ∧ done t (wd ch) 60 ∧
        ch ≠ 0 ∧ ch ≤ 8388607 ∧ (getNode s ch).valid = false ∧ (getNode t ch).valid = true ∧ (getNode t ch).parent = n ∧
        (getNode t ch).ghost = false ∧ (getNode t ch).resv = none ∧
        (n = 0 → (getNode t ch).depth = 0 ∧ (getNode t ch).ntiles = nt) ∧
        (n ≠ 0 → (getNode t ch).depth = (getNode s n).depth + 1 ∧ (getNode t ch).ntiles = (getNode s n).ntiles ∧
          (getNode t n).frozen = true ∧ (getNode t n).children = (getNode s n).children + 1) ∧
        ∀ m, m ≠ ch → m ≠ n → getNode t m = getNode s m) ∧
    (∀ n, LiveNode s n → n ≠ 0 →
      let par := (getNode s n).parent
      (0 < (getNode s n).children →
        ∃ t, exec (.lockGrant (lastGrant cx ⟨3, n⟩ .x (.node (.drop n) dst))) s = .next t ∧ done t 0 60 ∧
          (getNode t n).ghost = true ∧ ContentSame s t n ∧ ∀ m, m ≠ n → getNode t m = getNode s m) ∧
      ((getNode s n).children = 0 → par = 0 ∨ (par ≠ n ∧ (getNode s par).ghost = false) →
        ∃ t, exec (.lockGrant (lastGrant cx ⟨3, n⟩ .x (.node (.drop n) dst))) s = .next t ∧ done t 0 80 ∧
          (getNode t n).valid = false ∧ (par ≠ 0 → (getNode t par).children = (getNode s par).children - 1) ∧
          ∀ m, m ≠ n → m ≠ par → getNode t m = getNode s m) ∧
      (WholeLines s → par ≠ 0 → par ≠ n → (getNode s par).ghost = false → storageFits s none n 0 = true →
        ∃ t, exec (.lockGrant (lastGrant cx ⟨3, n⟩ .s (.node (.flat n) dst))) s = .next t ∧ (getNode t n).parent = 0 ∧
          (getNode t n).depth = 0 ∧ ContentSame s t n ∧ (getNode t par).children = (getNode s par).children - 1)) ∧
    (∀ n p, WholeLines s → LiveNode s n → LiveNode s p → n ≠ 0 → p ≠ 0 → n ≠ p → (getNode s n).ntiles = (getNode s p).ntiles →
      (getNode s n).children = 0 → (getNode s p).depth < 15 → storageFits s none n p = true → (getNode s n).parent = 0 →
      n ∉ chainOf s chainFuel p → (chainOf s chainFuel p).length ≤ 16 →
      ∃ t, exec (.lockGrant (lastGrant cx ⟨3, p⟩ .s (.node (.rebase n p) dst))) s = .next t ∧ (getNode t n).parent = p ∧
        (getNode t n).depth = (getNode s p).depth + 1 ∧ ContentSame s t n ∧ ContentSame s t p ∧ (getNode t p).frozen = true) ∧
    ∀ n item, Awaits s cx →
      ∃ t v, exec (.controlPlaneReply cx (.lnq n item) dst) s = .next t ∧ Resumed s t cx dst v ∧
        ((getNode s n).valid = false → v = 0) ∧
        ((getNode s n).valid = true → item = 0 → bit v 63 = true ∧ bit v 62 = (getNode s n).ghost ∧ bit v 61 = (getNode s n).frozen ∧
          bit v 60 = (getNode s n).resv.isSome ∧ bits v 59 56 = (getNode s n).depth % 16 ∧ bits v 55 33 = (getNode s n).parent % 2 ^ 23 ∧
          bits v 32 10 = (getNode s n).children % 2 ^ 23) ∧
        ((getNode s n).valid = true → item = 1 → v = wd (getNode s n).ntiles)

/-- R295, R288, R277, R275, R261: `lres` and `ldel` check and enter the lineage queue; an entry that may start is under way, its first line coming a
cycle on at the earliest and the rest 64 cycles later or more; its bytes are formed, for `lres` the 64 lines of a tile and for `ldel` of a tile without
differences a count of 0, and both wait while a line of theirs is pending; its runs write 256 bytes each, in order, and behind the last one it completes;
a resolved line is held and a written line that leaves for HBM keeps its content.
When a line is written back is the model's free choice (log 48); that the first line takes a cycle at least, and a run 256 bytes, is log 1. -/
def Obligations.LineageQueue : Prop :=
  (∀ (x : Args) (s : State), Performs s x →
    let p := ptrVal s s.cur x.a
    let ga := src s x.b
    (checkPtr s s.cur p = none → bit ga 63 = false →
      TrapsWith (.lres x) s 0x05 ga s.cur.addr ∧ (ptrWin p ≠ 0 → ptrWin p ≠ 3 → TrapsWith (.ldel x) s 0x05 ga s.cur.addr)) ∧
    (checkPtr s s.cur p = none → (ptrWin p = 0 ∨ ptrWin p = 3) → TrapsWith (.ldel x) s 0x0E 0 s.cur.addr) ∧
    (checkPtr s s.cur p = none → bit ga 63 = true → bits ga 39 0 % 16384 = 0 → checkLineage s (cxTask s s.cur) ga false = none →
      ∀ i diff, (i = Instr.lres x ∧ diff = false) ∨ (i = .ldel x ∧ diff = true ∧ ptrWin p ≠ 0 ∧ ptrWin p ≠ 3) →
      ∃ t e, exec i s = .next t ∧ Leaves s t .waiting .flight false ∧ OutsideSame s t ∧ BytesSame s t ∧
        (curCore t).linQ = (curCore s).linQ ++ [e] ∧ e.cx = s.cur ∧ e.diff = diff ∧ e.p = p ∧ e.ga = ga ∧ e.started = false)) ∧
  ∀ (s : State) (c : Nat) (e : LinEnt) (rest : List LinEnt), (getCore s c).linQ = e :: rest → cxTask s e.cx = none →
    (e.started = false → joinOk (getCore s c) 5 e.id = true →
      ∃ t f tail, exec (.lineageEntryStart c) s = .next t ∧ BytesSame s t ∧ t.pend = s.pend ∧ (getCore t c).linQ = f :: tail ∧
        f = { e with started := true, base := f.base, due := f.due } ∧ s.now < f.base ∧ f.base + 64 ≤ f.due ∧
        (e.diff = false → f.due = f.base + 64)) ∧
    (e.started = true → stillWaits s e.cx = true → e.bytes = none → (∃ l ∈ lineageLines s e, linePending s (.lin l.1 (256 * l.2)) = true) →
      lineageDue s e = false ∧
      ∃ t, exec (.lineageEntryComplete c) s = .next t ∧ t.cores = s.cores ∧ t.mem = s.mem ∧
        t.pend = s.pend ++ [(s.now + 1, .lineageEntryComplete c)]) ∧
    ((∀ f ∈ rest, f.id ≠ e.id) → stillWaits s e.cx = true → WholeLines s →
      let n := bits e.ga 62 40
      let first := bits e.ga 39 0 / 256
      let t := afterLineage s c e
      let formed := fun (bs : List Byte) =>
        BytesSame s t ∧ t.pend = s.pend ∧ (getCore t c).linQ = { e with bytes := some bs, base := s.now } :: rest
      (e.bytes = none → (n = 0 ∨ ((getNode s n).valid = true ∧ (getNode s n).ghost = false ∧ (getNode s n).resv = none)) →
        (e.diff = false → checkAccess s e.cx e.p 16384 = none → checkAlign e.p 16 = none →
          formed ((List.range 64).flatMap (fun j => resolveLine s n (first + j)))) ∧
        (e.diff = true → (getNode s n).delta = [] → (getNode s n).dirty = [] → checkAccess s e.cx e.p 8 = none → checkAlign e.p 8 = none →
          formed (toBytes 8 0))) ∧
      ∀ bs, e.bytes = some bs → e.moved < bs.length →
        let at_ := e.base + e.moved / 256
        let late := runLate s at_ e.stretches
        WalkHoldsAt s t e.p e.moved ((bs.drop e.moved).take 256) ∧ t.mem = s.mem ∧
          (getCore t c).linQ = { e with moved := e.moved + 256, base := e.base + (s.now - at_), due := e.due + late, done := [] } :: rest ∧
          t.pend = s.pend ++ (if bs.length ≤ e.moved + 256 then [(max (e.due + late) s.now, .lineageEntryComplete c)] else [])) ∧
    (e.started = true → Awaits s e.cx → e.inc = .none → ∀ bs, e.bytes = some bs → bs.length ≤ e.moved →
      ∃ t, exec (.lineageEntryComplete c) s = .next t ∧ (getCore t c).linQ = rest ∧ GoesOn t e.cx (nextPc e.cx) ∧ BytesSame s t) ∧
    (∀ n line, ∃ t, exec (.lineResolve n line) s = .next t ∧ lineHeld t n line = true ∧ t.nodes = s.nodes ∧ t.cores = s.cores) ∧
    ∀ n line new, WholeLines s → (getNode s n).dirty.find? (fun y => y.1 == line) = some (line, new) → new.length = 256 →
      (getNode s n).parent ≠ n → n ∉ chainOf s chainFuel (getNode s n).parent → (chainOf s chainFuel (getNode s n).parent).length ≤ 16 →
      ∃ t, exec (.lineWriteback n line) s = .next t ∧ resolveLine t n line = resolveLine s n line ∧
        (getNode t n).dirty.any (fun y => y.1 == line) = false ∧ ∀ m, m ≠ n → getNode t m = getNode s m

namespace Sys2Proof.Claims

/-- A handle that a strand outside tasks may use (R297): an Open sequence under its GEN. -/
def Handle (s : State) (h : Word) (q : Nat) : Prop :=
  q = bits h 11 0 ∧ bits h 63 28 = 0 ∧ (getSeq s q).st = .open_ ∧ (getSeq s q).gen = bits h 27 12

/-- What every window satisfies: a record is a line of 256 bytes, and no two records have one position and line. -/
def WindowForm (y : Seq) : Prop :=
  (∀ r ∈ y.recs, r.data.length = 256) ∧ y.recs.Pairwise (fun a b => ¬(a.pos = b.pos ∧ a.state = b.state ∧ a.line = b.line))

/-- The first byte and the length of everything that a keep of `n` positions writes. -/
def keepAreas (y : Seq) (n : Nat) (pl st : List (Nat × Nat)) : List (Nat × Nat) :=
  (y.recs.filter (fun r => !r.state && decide (r.pos < n))).map (fun r => (r.target, 256)) ++ st.map (fun x => (x.2, 256)) ++
    pl.map (fun x => (x.2, 4))

/-- They lie apart from each other, in the HBM. -/
def KeepFits (y : Seq) (n : Nat) (pl st : List (Nat × Nat)) : Prop :=
  (keepAreas y n pl st).Pairwise (fun a b => a.1 + a.2 ≤ b.1 ∨ b.1 + b.2 ≤ a.1) ∧ ∀ a ∈ keepAreas y n pl st, a.1 + a.2 ≤ hbmTop

/-- The keep of `n` positions (R304): the lines of KV records, each state line from its highest position, the page-list entries, and the pages
beyond the last index returned; nothing else. -/
structure Kept (s t : State) (cx : Ctx) (y : Seq) (n : Nat) (pl st : List (Nat × Nat)) : Prop where
  kv : ∀ r ∈ y.recs, r.state = false → r.pos < n → t.mem.readN r.target 256 = r.data
  lines : ∀ r ∈ y.recs, r.state = true → r.pos < n → r.line < y.sl →
    (∀ z ∈ y.recs, z.state = true → z.line = r.line → z.pos < n → z.pos ≤ r.pos) →
    ∃ pa, immTarget s cx (y.saddr + 256 * r.line) = some pa ∧ t.mem.readN pa 256 = r.data
  list : ∀ e ∈ y.pages, e.1 ≤ (y.cnt + n - 1) / y.tpp →
    ∃ pa, immTarget s cx (y.plist + 4 * e.1) = some pa ∧ t.mem.readN pa 4 = toBytes 4 e.2
  others : ∀ a, (∀ z ∈ keepAreas y n pl st, ¬(z.1 ≤ a ∧ a < z.1 + z.2)) → t.mem.read a = s.mem.read a
  stores : ∀ c a, lsRead t c a = lsRead s c a
  returned : ∀ e ∈ y.pages, (y.cnt + n - 1) / y.tpp < e.1 → e.2 ∉ t.pagesOut
  kept : ∀ p, (∀ e ∈ y.pages, (y.cnt + n - 1) / y.tpp < e.1 → e.2 ≠ p) → (p ∈ t.pagesOut ↔ p ∈ s.pagesOut)

/-- The eight doublewords of an image in the core's store. -/
def imageAt (s : State) (c off : Nat) : List Word := (List.range 8).map (fun i => wd (ofBytes (lsBytes s c (off + 8 * i) 8)))

end Sys2Proof.Claims

/-- R297, R307, R311 to R315: outside tasks the window instructions refuse a foreign handle (or trap, for `kvw`), refuse by the reasons of their
table, or ask for the sequence's lock; binding and unbinding take 80 cycles and `pgfr` 40, each with its effect at issue; `kvq` answers within 64. -/
def Sys2Proof.Claims.WindowInstructions : Prop :=
  ∀ (x : Args) (s : State), Performs s x → cxTask s s.cur = none →
    let c := s.cur.core
    let vb := src s x.b
    let off := bits vb 50 32
    (bits vb 63 62 = 0 →
      (checkArea s s.cur (wd off) 64 64 ≠ none → InRotation s → Refuses (.kvo x) s x.a 5) ∧
      (checkArea s s.cur (wd off) 64 64 = none → imageGood (imageAt s c off) = true → (seqsUsed s).length < 4096 →
        Rising (seqsUsed s) 4096 →
        ∃ q, (getSeq s q).st = .free ∧ q < 4096 ∧
          AsksFor (.kvo x) s [(⟨6, q⟩, .x)] (.win (.open_ q (imageAt s c off)) { cx := s.cur, dst := x.a, val := some 0 }))) ∧
    (bits vb 63 62 = 1 →
      (∀ q, Handle s (wd (bits vb 27 0)) q →
        ∃ t, exec (.kvo x) s = .next t ∧ (curStrand t).seq = some q ∧ (curStrand t).st = .waiting ∧ BytesSame s t ∧
          t.pend = s.pend ++ [(s.now + 80, .windowOperationComplete { cx := s.cur, dst := x.a, val := some 0 })]) ∧
      ((∀ q, ¬ Handle s (wd (bits vb 27 0)) q) → InRotation s → Refuses (.kvo x) s x.a 1)) ∧
    (bits vb 63 62 = 2 →
      ∃ t, exec (.kvo x) s = .next t ∧ (curStrand t).seq = none ∧ (curStrand t).st = .waiting ∧ BytesSame s t ∧
        t.pend = s.pend ++ [(s.now + 80, .windowOperationComplete { cx := s.cur, dst := x.a, val := some 0 })]) ∧
    (bits vb 63 62 = 3 → ∀ q, Handle s (wd (bits vb 27 0)) q →
      ((getSeq s q).recs ≠ [] ∨ (getSeq s q).pages ≠ [] → InRotation s → Refuses (.kvo x) s x.a 5) ∧
      ((getSeq s q).recs = [] → (getSeq s q).pages = [] → checkArea s s.cur (wd off) 64 64 = none →
        ∃ t d r, exec (.kvo x) s = .next t ∧ t.pend = s.pend ++ [(s.now + d, .lockRequestArrival r)] ∧ r.todo = [(⟨6, q⟩, .x)] ∧
          r.cont = .win (.close q (getSeq s q).gen off) { cx := s.cur, dst := x.a, val := some 0 } ∧
          ∀ i, i < 8 → lsBytes t c (off + 8 * i) 8 = toBytes 8 (nth 0 (cleanImage (getSeq s q).img) i).toNat)) ∧
    (∀ q, Handle s vb q →
      AsksFor (.kvd x) s [(⟨6, q⟩, .x)] (.win (.kvd q (getSeq s q).gen) { cx := s.cur, dst := x.a, val := some 0 }) ∧
      (15 < (src s x.c).toNat → InRotation s → Refuses (.pgal x) s x.a 2) ∧
      ((src s x.c).toNat ≤ 15 → (getSeq s q).pages = [] → (getSeq s q).npg ≤ (getSeq s q).pageIndex (src s x.c).toNat →
        s.pagesOut.length < s.mgmt.npages →
        AsksFor (.pgal x) s [(⟨6, q⟩, .ix)] (.win (.pgal q (getSeq s q).gen (src s x.c).toNat 0) { cx := s.cur, dst := x.a, val := some 0 }))) ∧
    ((∀ q, ¬ Handle s vb q) → InRotation s → Refuses (.kvd x) s x.a 1 ∧ Refuses (.pgal x) s x.a 1) ∧
    (let h := src s x.a
     ((∀ q, ¬ Handle s h q) →
       (InRotation s → Refuses (.kvc x) s x.c 1) ∧
       (checkAccess s s.cur (ptrVal s s.cur x.b) 256 = none → checkAlign (ptrVal s s.cur x.b) 16 = none →
         TrapsWith (.kvw x) s 0x12 0 s.cur.addr)) ∧
     ∀ q, Handle s h q →
       (16 < vb.toNat → InRotation s → Refuses (.kvc x) s x.c 2) ∧
       (vb = 0 → (getSeq s q).cnt < 2 ^ 32 →
         AsksFor (.kvc x) s [(⟨6, q⟩, .x)] (.win (.kvd q (getSeq s q).gen) { cx := s.cur, dst := x.c, val := some 0 })) ∧
       (1 ≤ vb.toNat → vb.toNat ≤ 16 → (getSeq s q).cnt + vb.toNat < 2 ^ 32 → (getSeq s q).pages = [] → (getSeq s q).recs = [] →
         AsksFor (.kvc x) s [(⟨6, q⟩, .x)]
           (.win (.kvc q (getSeq s q).gen vb.toNat [] []) { cx := s.cur, dst := x.c, val := some 0 })) ∧
       (checkAccess s s.cur (ptrVal s s.cur x.b) 256 = none → checkAlign (ptrVal s s.cur x.b) 16 = none → ∀ pa va,
         kvwPlace s s.cur h (bits x.imm 3 0) (bits x.imm 9 4) (bit x.imm 10) = .ok (pa, va) →
         AsksFor (.kvw x) s [(⟨6, q⟩, .ix)]
           (.win (.kvw q (getSeq s q).gen (bits x.imm 3 0) (bits x.imm 9 4) (bit x.imm 10) pa va
             (walkBytes s (ptrVal s s.cur x.b) 0 256)) { cx := s.cur, ptrs := incList s s.cur x.b 256 x.imm }))) ∧
    (∃ t d, exec (.kvq x) s = .next t ∧ 1 ≤ d ∧ d ≤ 64 ∧ LeavesUntil s t (s.now + d) (.controlPlaneReply s.cur (.kvq vb) x.a)) ∧
    let p := vb.toNat
    ((s.mgmt.npages ≤ p ∨ p ∉ s.pagesOut → InRotation s → Refuses (.pgfr x) s x.a 4) ∧
     (p < s.mgmt.npages → p ∈ s.pagesOut → tentative s p = false → (∀ y ∈ s.pagesResv, y.1 ≠ p) →
       ∃ t, exec (.pgfr x) s = .next t ∧ p ∉ t.pagesOut ∧ (∀ y, y ≠ p → (y ∈ t.pagesOut ↔ y ∈ s.pagesOut)) ∧
         Leaves s t .waiting .flight false ∧ BytesSame s t ∧
         t.pend = s.pend ++ [(s.now + 40, .windowOperationComplete { cx := s.cur, dst := x.a, val := some 0 })]))

/-- R244, R303, R313, R315: in a task `kvc`, `kvd` and `pgfr` put their record into the core's log at issue, `kvc` and `kvd` asking for no lock that the task
holds; with a full log they raise 0x07, and so does `kvw`, with the address that it would write. -/
def Sys2Proof.Claims.TaskWindows : Prop :=
  ∀ (x : Args) (s : State) (r : Nat), Performs s x → cxTask s s.cur = some r →
    let c := s.cur.core
    let vb := src s x.b
    let ha := src s x.a
    let asks := fun (q : Nat) => if heldMode s r ⟨6, q⟩ = some .x then [] else [((⟨6, q⟩ : LObj), Mode.x)]
    (foreignHandle s (some r) vb = false →
      let op : WinOp := .kvd (bits vb 11 0) (bits vb 27 12)
      (logFull s c r = true → TrapsWith (.kvd x) s 0x07 0 s.cur.addr) ∧
      (logFull s c r = false →
        Records (.kvd x) s r (.win op s.cur) (asks (bits vb 11 0)) (.win op { cx := s.cur, dst := x.a, val := some 0 }))) ∧
    (foreignHandle s (some r) ha = false → 1 ≤ vb.toNat → winRefusal s (some r) (.kvc (bits ha 11 0) (bits ha 27 12) vb.toNat [] []) = 0 →
      ∀ pl st, keepTargets s s.cur (seqView s (some r) (bits ha 11 0)) vb.toNat = some (pl, st) →
      let op : WinOp := .kvc (bits ha 11 0) (bits ha 27 12) vb.toNat pl st
      (logFull s c r = true → TrapsWith (.kvc x) s 0x07 0 s.cur.addr) ∧
      (logFull s c r = false →
        Records (.kvc x) s r (.win op s.cur) (asks (bits ha 11 0)) (.win op { cx := s.cur, dst := x.c, val := some 0 }))) ∧
    (checkAccess s s.cur (ptrVal s s.cur x.b) 256 = none → checkAlign (ptrVal s s.cur x.b) 16 = none → logFull s c r = true → ∀ pa va,
      kvwPlace s s.cur ha (bits x.imm 3 0) (bits x.imm 9 4) (bit x.imm 10) = .ok (pa, va) →
      TrapsWith (.kvw x) s 0x07 (wd va) s.cur.addr ∧
      (bit x.imm 10 = true → va = (seqView s (some r) (bits ha 11 0)).saddr + 256 * bits x.imm 9 4)) ∧
    (pgfrBad s (some r) vb.toNat = true → InRotation s → Refuses (.pgfr x) s x.a 4) ∧
    (pgfrBad s (some r) vb.toNat = false →
      (logFull s c r = true → TrapsWith (.pgfr x) s 0x07 0 s.cur.addr) ∧
      (logFull s c r = false →
        ∃ t, exec (.pgfr x) s = .next t ∧ Leaves s t .waiting .flight false ∧ BytesSame s t ∧ t.pagesOut = s.pagesOut ∧
          getLog t c r = getLog s c r ++ [.win (.pgfr vb.toNat) s.cur] ∧
          t.pend = s.pend ++ [(s.now + 40, .windowOperationComplete { cx := s.cur, dst := x.a, val := some 0 })]))

/-- R303 to R306, R311 to R315: what a window operation outside tasks does when its lock is granted: `kvo` opens the sequence under the next GEN, a
close frees it and unbinds every strand, `kvw` puts a record into the window, `kvc` keeps positions, `kvd` empties the window and returns its
pages, `pgal` takes a page of the pool. -/
def Sys2Proof.Claims.WindowGrants : Prop :=
  ∀ (s : State) (d : Done) (q : Nat), NoLocks s → stillWaits s d.cx = true → cxTask s d.cx = none → q < 4096 →
    let y := getSeq s q
    let grant := fun (m : Mode) (op : WinOp) => Instr.lockGrant (lastGrant d.cx ⟨6, q⟩ m (.win op d))
    let others := fun (t : State) => ∀ k, k ≠ q → getSeq t k = getSeq s k
    (∀ img, y.st = .free →
      ∃ t, exec (grant .x (.open_ q img)) s = .next t ∧ (getSeq t q).st = .open_ ∧ (getSeq t q).gen = (y.gen + 1) % 65536 ∧
        (getSeq t q).img = cleanImage img ∧ (getSeq t q).recs = [] ∧ (getSeq t q).pages = [] ∧ others t ∧
        t.pend = s.pend ++ [(s.now + 80, .windowOperationComplete { d with val := some (handleOf q ((y.gen + 1) % 65536)) })]) ∧
    (y.st = .open_ → y.gen < 65536 →
      (∀ off, y.recs = [] → y.pages = [] →
        ∃ t, exec (grant .x (.close q y.gen off)) s = .next t ∧ (getSeq t q).st = .free ∧ (getSeq t q).gen = y.gen ∧ others t ∧
          (∀ c u, (getStrand t c u).seq ≠ some q) ∧ t.pend = s.pend ++ [(s.now + 80, .windowOperationComplete d)]) ∧
      (∀ pos line state pa va bs old was, kvwPlace s d.cx (handleOf q y.gen) pos line state = .ok (pa, va) →
        grantHeld s (lastGrant d.cx ⟨6, q⟩ .ix (.win (.kvw q y.gen pos line state old was bs) d)) = false →
        ∃ t n, exec (grant .ix (.kvw q y.gen pos line state old was bs)) s = .next t ∧ ⟨pos, state, line, pa, bs⟩ ∈ (getSeq t q).recs ∧
          (∀ r ∈ y.recs, ¬(r.pos = pos ∧ r.state = state ∧ r.line = line) → r ∈ (getSeq t q).recs) ∧ others t ∧ BytesSame s t ∧
          t.pend = s.pend ++ [(s.now + n, .windowOperationComplete d)]) ∧
      (∀ n pl st, 1 ≤ n → n ≤ 16 → y.cnt + n < 2 ^ 32 → y.posn + n < 2 ^ 32 → y.img.length = 8 → WindowForm y →
        keepTargets s d.cx y n = some (pl, st) → KeepFits y n pl st →
        grantHeld s (lastGrant d.cx ⟨6, q⟩ .x (.win (.kvc q y.gen n pl st) d)) = false →
        ∃ t, exec (grant .x (.kvc q y.gen n pl st)) s = .next t ∧ (getSeq t q).cnt = y.cnt + n ∧ (getSeq t q).posn = y.posn + n ∧
          (getSeq t q).npg = max y.npg ((y.cnt + n - 1) / y.tpp + 1) % 2 ^ 32 ∧ (getSeq t q).recs = [] ∧ (getSeq t q).pages = [] ∧
          Kept s t d.cx y n pl st ∧ others t ∧ t.pend = s.pend ++ [(s.now + 60 + y.keepCost n, .windowOperationComplete d)]) ∧
      (∃ t, exec (grant .x (.kvd q y.gen)) s = .next t ∧ (getSeq t q).recs = [] ∧ (getSeq t q).pages = [] ∧ (getSeq t q).img = y.img ∧
        others t ∧ BytesSame s t ∧ (∀ e ∈ y.pages, e.2 ∉ t.pagesOut) ∧ t.pend = s.pend ++ [(s.now + 60, .windowOperationComplete d)]) ∧
      ∀ pos, pos ≤ 15 → y.pages = [] → y.npg ≤ y.pageIndex pos → Rising s.pagesOut s.mgmt.npages →
        s.pagesOut.length < s.mgmt.npages →
        ∃ t p, exec (grant .ix (.pgal q y.gen pos 0)) s = .next t ∧ p < s.mgmt.npages ∧ p ∉ s.pagesOut ∧ p ∈ t.pagesOut ∧
          (getSeq t q).pages = [(y.pageIndex pos, p)] ∧ others t ∧ BytesSame s t ∧
          t.pend = s.pend ++ [(s.now + 40, .windowOperationComplete { d with val := some (wd p) })])

/-- R314: the answer to `kvq` gives the item of the sequence as the strand sees it. -/
def Sys2Proof.Claims.WindowQueries : Prop :=
  ∀ (s : State) (cx : Ctx) (dst : Opnd) (h : Word), Awaits s cx →
    let y := seqView s (cxTask s cx) (bits h 11 0)
    let item := bits h 35 32
    let mine := foreignHandle s (cxTask s cx) (wd (bits h 27 0)) = false
    ∃ t v, exec (.controlPlaneReply cx (.kvq h) dst) s = .next t ∧ Resumed s t cx dst v ∧
      (item = 9 → v = (getStrand s cx.core cx.strand).seq.elim 0 (fun n => handleOf n (seqView s (cxTask s cx) n).gen)) ∧
      (item ≠ 9 → ¬ mine → v = 0) ∧ (9 < item → v = 0) ∧
      (mine →
        (∀ z ∈ [(0, 0), (1, 3), (5, 5), (6, 6)], item = z.1 → v = nth 0 y.img z.2) ∧
        (item = 4 → v = wd y.posn) ∧ (item = 7 → v = wd y.plist) ∧ (item = 8 → v = wd y.saddr) ∧
        (item = 2 → y.recs.length ≤ 2048 → y.pages.length ≤ 16 →
          bit v 63 = true ∧ (bit v 62 = true ↔ ∃ r, y.st = .reserved r) ∧ bits v 61 48 = 0 ∧ bits v 47 36 = y.recs.length ∧
          bits v 35 31 = y.pages.length ∧ bits v 30 16 = 0 ∧
          ∀ p, p < 16 → (bit v p = true ↔ (∃ r ∈ y.recs, r.pos = p) ∨ ∃ e ∈ y.pages, e.1 = y.pageIndex p)) ∧
        (item = 3 → (y.pages.length ≤ bits h 39 36 → v = 0) ∧
          ∀ j page, y.pages[bits h 39 36]? = some (j, page) → j < 2 ^ 24 → page < 2 ^ 32 →
            bit v 63 = true ∧ bits v 62 56 = 0 ∧ bits v 55 32 = j ∧ bits v 31 0 = page))

/-- R297, R303 to R307, R311 to R315: the instructions on speculative windows, the grants of their locks, and the answers to `kvq`. A window operation
takes effect at its grant (log 36); a request sets out for 1 to 24 cycles (log 1). -/
def Obligations.Windows : Prop :=
  Sys2Proof.Claims.WindowInstructions ∧ Sys2Proof.Claims.TaskWindows ∧ Sys2Proof.Claims.WindowGrants ∧ Sys2Proof.Claims.WindowQueries

namespace Sys2Proof.Claims

/-- The object that `lock`, `lcv` and `lq` name (R398, Table 18.1): a line, tile or top object of an address, or a sequence. -/
def lockObject (level : Nat) (v : Word) : LObj :=
  let n := bits v 62 40
  let off := bits v 39 0
  if level = 3 then ⟨6, bits v 11 0⟩
  else if bit v 63 then
    (if level = 0 then ⟨5, n * 2 ^ 32 + off / 256⟩ else if level = 1 then ⟨4, n * 2 ^ 26 + off / 16384⟩ else ⟨3, n⟩)
  else if level = 0 then ⟨2, bits v 47 8⟩ else if level = 1 then ⟨1, bits v 47 14⟩ else ⟨0, bits v 47 30⟩

/-- The modes by their code (R383). -/
def modes : List Mode := [.is, .ix, .in_, .s, .six, .inc, .x]

/-- Table 18.4, for the matrix that stands at reset: rows and columns in the order of the codes. -/
def compatTable : List (List Bool) := [
  [true, true, true, true, true, false, false], [true, true, true, false, false, false, false],
  [true, true, true, false, false, true, false], [true, false, false, true, false, false, false],
  [true, false, false, false, false, false, false], [false, false, true, false, false, true, false],
  [false, false, false, false, false, false, false]]

/-- A task holds an object in a mode, and nobody waits for it. -/
def HeldAlone (s : State) (o : LObj) (r : Nat) (m : Mode) : Prop :=
  ∃ n id, s.locks.entries = [{ obj := o, holders := [{ task := some r, mode := m, lcnt := n, id := id }], waiters := [] }]

/-- The operand of `lock` and `lcv` passes the checks of R398: a sequence, a flat address, or a lineage address that a load could read. -/
def Addressable (s : State) (level : Nat) (v : Word) : Prop :=
  level = 3 ∨ (bit v 63 = false ∧ bits v 62 48 = 0) ∨ (bit v 63 = true ∧ checkLineage s (cxTask s s.cur) v false = none)

/-- The task of record `r` has no matrix work and no repetition on its cores, and no barrier. -/
structure Idle (s : State) (r : Nat) : Prop where
  queues : ∀ c ∈ (getTask s r).members, (getCore s c).mq = [] ∧ (getCore s c).mqWait = [] ∧ (getCore s c).rep = none
  units : ∀ l n, (getBarrier s l n).owner ≠ .task r
  cores : (getTask s r).members.Nodup

/-- An older task's request for an object that the younger task `y` alone holds has wounded it (R390, R392): the older one holds the object and its grant
is under way, and the younger one holds nothing, has left its cores and their queues, and is Queued again with its age. -/
structure Wounded (s t : State) (cx : Ctx) (r y : Nat) (o : LObj) (m : Mode) : Prop where
  granted : heldMode t r o = some m ∧ ∃ d w, s.now < d ∧ d ≤ s.now + 24 ∧ (d, .lockGrant w) ∈ t.pend ∧ w.cx = cx ∧ w.task = some r
  released : heldMode t y o = none
  queued : (getTask t y).st = .queued ∧ Enqueued t y
  age : (getTask t y).stamp = (getTask s y).stamp ∧ (getTask t y).seq = (getTask s y).seq
  gang : (getTask t y).members = [] ∧ (getTask t y).regions = []
  queues : ∀ c ∈ (getTask s y).members, y ∉ (getCore t c).coreQ

end Sys2Proof.Claims

/-- R395: a line's new lock counts in its tile, and above LIMIT it calls for the conversion of the tile to what the task's line locks there join to; the
grant of the tile releases every line lock of the task in it, sets LCNT to 0 and lets the instruction go on; a conversion leaves the task with the join
of both modes (R384). -/
def Sys2Proof.Claims.Escalation : Prop :=
  ∀ (s : State) (cx : Ctx) (r : Nat) (o tile : LObj) (m : Mode) (rest : List (LObj × Mode)) (cont : LCont) (id : Nat),
    s.locks.noRoom = [] → (∀ e ∈ s.locks.entries, e.waiters = []) →
    (tileOf o = some tile → (∀ e ∈ s.locks.entries, e.obj ≠ o) → hasRoom s o = true → heldMode s r tile ≠ none →
      ∃ t d w, exec (.lockRequestArrival { cx, task := some r, todo := (o, m) :: rest, cont, id }) s = .next t ∧ heldMode t r o = some m ∧
        lcntOf t r tile = lcntOf s r tile + 1 ∧ 1 ≤ d ∧ d ≤ 24 ∧ t.pend = s.pend ++ [(s.now + d, .lockGrant w)] ∧
        w.todo = (o, m) :: rest ∧ w.cont = cont ∧
        (s.locks.limit = 0 ∨ lcntOf s r tile + 1 ≤ s.locks.limit → w.raised = none) ∧
        (s.locks.limit ≠ 0 → s.locks.limit < lcntOf s r tile + 1 → w.raised = some
          (match heldBelow s r tile with
           | [] => m
           | x :: xs => joinMode (xs.foldl (fun k y => joinMode k y.2) x.2) m))) ∧
    (∀ dst k, Awaits s cx → isTile tile = true → heldMode s r tile ≠ none →
      ∃ t, exec (.lockGrant { cx, task := some r, todo := [(tile, m)], cont := .escalated tile (.lock dst), id }) s = .next t ∧
        Resumed s t cx dst 0 ∧ (∀ z, (ancestors z).contains tile = true → heldMode t r z = none) ∧
        (∀ z, (ancestors z).contains tile = false → heldMode t r z = heldMode s r z) ∧ (∀ q z, q ≠ r → heldMode t q z = heldMode s q z) ∧
        (lcntOf s r tile = (heldBelow s r tile).length + k → lcntOf t r tile = k)) ∧
    ∀ h, HeldAlone s o r h →
      ∃ t w d, exec (.lockRequestArrival { cx, task := some r, todo := (o, m) :: rest, cont, id }) s = .next t ∧
        heldMode t r o = some (joinMode h m) ∧ d ≤ 24 ∧ t.pend = s.pend ++ [(s.now + d, .lockGrant w)] ∧ w.todo = (o, m) :: rest ∧ w.cont = cont

/-- R397: a request that finds no room in its slice waits there; one of a task wounds the youngest younger task with a record at the slice and takes the
place that this frees. -/
def Sys2Proof.Claims.RoomWaits : Prop :=
  ∀ (s : State) (cx : Ctx) (task : Option Nat) (o : LObj) (m : Mode) (rest : List (LObj × Mode)) (cont : LCont) (id : Nat),
    s.locks.noRoom = [] → (∀ e ∈ s.locks.entries, e.waiters = [] ∧ e.holders ≠ [] ∧ e.obj ≠ o) → hasRoom s o = false →
    let q : LReq := { cx, task, todo := (o, m) :: rest, cont, id }
    let younger := fun (r k : Nat) => olderTask s r k = true ∧ mayFault (getTask s k).st
    let here := fun (k : Nat) => ∃ e ∈ s.locks.entries, lockSlice e.obj = lockSlice o ∧ ∃ h ∈ e.holders, h.task = some k
    ((∀ r k, task = some r → here k → ¬ younger r k) →
      ∃ t, exec (.lockRequestArrival q) s = .next t ∧ t.locks.noRoom = [q] ∧ t.locks.entries = s.locks.entries ∧ t.tasks = s.tasks ∧
        t.pend = s.pend ∧ t.cores = s.cores) ∧
    ∀ r y z n j, task = some r → younger r y → (∀ k, here k → k = y ∨ ¬ younger r k ∨ olderTask s k y = true) →
      lockSlice z = lockSlice o → { obj := z, holders := [{ task := some y, mode := n, lcnt := 0, id := j }] } ∈ s.locks.entries →
      (∀ e ∈ s.locks.entries, e.obj = z ∨ ∀ h ∈ e.holders, h.task ≠ some y) → (s.locks.entries.map (fun e => e.obj)).Nodup →
      hasRoom { s with locks := { s.locks with entries := s.locks.entries.filter (fun e => e.obj != z) } } o = true →
      ((getTask s y).st = .running → Idle s y) →
      ∃ t, exec (.lockRequestArrival q) s = .next t ∧ Wounded s t cx r y o m ∧ heldMode t y z = none ∧ t.locks.noRoom = []

/-- Table 18.10 (R399): the answer to `lq`. -/
def Sys2Proof.Claims.LockQueries : Prop :=
  ∀ (s : State) (cx : Ctx) (dst : Opnd) (level : Nat) (v : Word), Awaits s cx → level ≤ 3 →
    let o := lockObject level v
    let e := getEntry s o
    let foreign := level = 3 ∧ foreignHandle s (cxTask s cx) v = true
    ∃ t w, exec (.controlPlaneReply cx (.lq level v) dst) s = .next t ∧ Resumed s t cx dst w ∧ (foreign → w = 0) ∧
      (¬ foreign → e.holders.length < 2 ^ 15 → e.waiters.length < 2 ^ 15 →
        bits w 63 49 = e.holders.length ∧ bits w 48 34 = e.waiters.length ∧ bit w 21 = false ∧ bits w 14 1 = 0 ∧
        (bit w 0 = true ↔ ∃ f ∈ s.locks.entries, f.obj = o) ∧
        (cxTask s cx = none → bits w 33 22 = 0 ∧ bits w 17 15 = 7) ∧
        (∀ r, cxTask s cx = some r →
          bits w 33 22 = (if level = 1 then lcntOf s r o % 4096 else 0) ∧ bits w 17 15 = (heldMode s r o).elim 7 modeCode) ∧
        (e.holders = [] → bits w 20 18 = 7) ∧
        ∀ h hs, e.holders = h :: hs → bits w 20 18 = modeCode (hs.foldl (fun k x => joinMode k x.mode) h.mode))

/-- R382 to R400: `lock` and `lcv` refuse by the reasons of Table 18.9 or ask from the top of the chain down; `lq` answers within 64 cycles; `lmld` refuses a
matrix that is not symmetric or a LIMIT above 4,095, and else loads both; an arriving request is granted when no holder conflicts, waits behind
an older or equal one, and wounds a younger holder, whether it is Locking, Running (its strands are reaped, its logs discarded and its cores told) or
Retired; the last grant completes `lock`, and `lcv` with the covered locks below released; an earlier one asks for the next object, and a line's grant that
has raised LCNT above LIMIT for its tile, in the mode formed at that grant (R395). That a request and a grant take 1 to 24 cycles each is the model's
reading of a bound (log 1). -/
def Sys2Proof.Claims.LockRequests : Prop :=
  (∀ (x : Args) (s : State), Performs s x →
    let level := bits (src s x.a) 1 0
    let v := src s x.b
    let o := lockObject level v
    let m := modeOf x.mod.toNat
    (Addressable s level v → InRotation s → cxTask s s.cur = none → Refuses (.lock x) s x.a 1 ∧ Refuses (.lcv x) s x.a 1) ∧
    (level ≠ 3 → bit v 63 = false → bits v 62 48 ≠ 0 → TrapsWith (.lock x) s 0x06 v s.cur.addr ∧ TrapsWith (.lcv x) s 0x06 v s.cur.addr) ∧
    (∀ r, cxTask s s.cur = some r → Addressable s level v →
      (level = 3 → foreignHandle s (some r) v = true → InRotation s → Refuses (.lock x) s x.a 2 ∧ Refuses (.lcv x) s x.a 2) ∧
      ((level = 3 → foreignHandle s (some r) v = false) →
        let bad := (level = 3 ∧ m ∉ [Mode.ix, .x]) ∨ (level = 0 ∧ m ∈ [Mode.is, .ix, .in_])
        (bad → InRotation s → Refuses (.lock x) s x.a 3) ∧
        (¬ bad →
          (modeCovered s r o m = true → InRotation s → Gives (.lock x) s x.a 0) ∧
          (modeCovered s r o m = false → AsksFor (.lock x) s (chainFor o m) (.lock x.a))) ∧
        ((level = 0 ∨ level = 3 ∨ m ∉ [Mode.s, .six, .inc, .x]) → InRotation s → Refuses (.lcv x) s x.a 3) ∧
        (level ≠ 0 → level ≠ 3 → m ∈ [Mode.s, .six, .inc, .x] →
          (heldMode s r o = none → InRotation s → Refuses (.lcv x) s x.a 4) ∧
          (heldMode s r o ≠ none → AsksFor (.lcv x) s (chainFor o m) (.lcv x.a o m))))) ∧
    (∃ t d, exec (.lq x) s = .next t ∧ 1 ≤ d ∧ d ≤ 64 ∧ LeavesUntil s t (s.now + d) (.controlPlaneReply s.cur (.lq level v) x.a)) ∧
    (s.cur.strand = 0 → checkArea s s.cur (src s x.a) 16 16 = none →
      let rows := lsBytes s s.cur.core (src s x.a).toNat 7
      let lim := ofBytes (lsBytes s s.cur.core ((src s x.a).toNat + 8) 2)
      (matrixBad rows = true → InRotation s → Refuses (.lmld x) s x.a 1) ∧
      (matrixBad rows = false → 4096 ≤ lim → InRotation s → Refuses (.lmld x) s x.a 2) ∧
      (matrixBad rows = false → lim < 4096 →
        ∃ t d, exec (.lmld x) s = .next t ∧ 1 ≤ d ∧ d ≤ 200 ∧ LeavesUntil s t (s.now + d) (.lmldApply s.cur rows lim x.a)))) ∧
  (∀ (s : State) (r h : Mode) (i j : Nat), s.locks.matrix = none → modes[i]? = some r → modes[j]? = some h →
    compatible s r h = ((compatTable.getD i []).getD j false)) ∧
  ∀ (s : State),
    (∀ cx rows limit dst, NoLocks s → Awaits s cx →
      ∃ t, exec (.lmldApply cx rows limit dst) s = .next t ∧ Resumed s t cx dst 0 ∧ t.locks.limit = limit ∧
        ∀ (r h : Mode) (i j : Nat) (row : Byte), modes[i]? = some r → modes[j]? = some h → rows[i]? = some row → compatible t r h = row.getLsbD j) ∧
    (∀ cx r o m rest cont id, NoLocks s →
      ∃ t d w, exec (.lockRequestArrival { cx, task := some r, todo := (o, m) :: rest, cont, id }) s = .next t ∧ heldMode t r o = some m ∧
        1 ≤ d ∧ d ≤ 24 ∧ t.pend = s.pend ++ [(s.now + d, .lockGrant w)] ∧ w.todo = (o, m) :: rest ∧ w.cx = cx ∧ w.cont = cont) ∧
    (∀ cx r y o m h rest cont id, HeldAlone s o y h → s.locks.noRoom = [] → r ≠ y → compatible s m h = false →
      (olderTask s r y = false →
        ∃ t, exec (.lockRequestArrival { cx, task := some r, todo := (o, m) :: rest, cont, id }) s = .next t ∧ heldMode t y o = some h ∧
          heldMode t r o = none ∧ t.tasks = s.tasks ∧ t.pend = s.pend ∧ ∃ w ∈ (getEntry t o).waiters, w.req.task = some r ∧ w.mode = m) ∧
      (olderTask s r y = true → mayFault (getTask s y).st →
        ((getTask s y).st = .running → Idle s y) →
        ∃ t, exec (.lockRequestArrival { cx, task := some r, todo := (o, m) :: rest, cont, id }) s = .next t ∧ Wounded s t cx r y o m ∧
          ((getTask s y).st = .running →
            (∀ c ∈ (getTask s y).members, getLog t c y = [] ∧ getK 0 (getCore t c).perf 12 = getK 0 (getCore s c).perf 12 + 1) ∧
            (∀ z ∈ taskStrands s y, (getStrand t z.1 z.2).st = .free ∧
              ∃ n ∈ (getCore t z.1).trapQ, n.cause = 0x0B ∧ (z.1, n.strand) ∈ taskStrands s y)) ∧
          ((getTask s y).st = .retired → ∀ c ∈ (getTask s y).members, getLog t c y = []))) ∧
    (∀ cx r o m dst id, Awaits s cx →
      ∃ t, exec (.lockGrant { cx, task := some r, todo := [(o, m)], cont := .lock dst, id }) s = .next t ∧ Resumed s t cx dst 0 ∧
        t.locks = s.locks) ∧
    (∀ cx r o m dst id n, Awaits s cx → s.locks.noRoom = [] → (∀ e ∈ s.locks.entries, e.waiters = []) → heldMode s r o = some n →
      ∃ t, exec (.lockGrant { cx, task := some r, todo := [(o, m)], cont := .lcv dst o m, id }) s = .next t ∧ Resumed s t cx dst 0 ∧
        (∀ z k, (ancestors z).contains o = true → heldMode s r z = some k → coversBelow n k = true → heldMode t r z = none) ∧
        (∀ z, (ancestors z).contains o = false → heldMode t r z = heldMode s r z) ∧
        ∀ q z, q ≠ r → heldMode t q z = heldMode s q z) ∧
    (∀ cx r o m rest cont id tile k, (∀ a b, cont ≠ .escalated a b) → tileOf o = some tile →
      ∃ t d w, exec (.lockGrant { cx, task := some r, todo := (o, m) :: rest, cont, id, raised := some k }) s = .next t ∧ 1 ≤ d ∧ d ≤ 24 ∧
        t.pend = s.pend ++ [(s.now + d, .lockRequestArrival w)] ∧ w.todo = (tile, k) :: rest ∧ w.task = some r ∧
        w.cont = .escalated tile cont) ∧
    ∀ cx r o m n rest cont id, (∀ a k, cont ≠ .escalated a k) →
      ∃ t d w, exec (.lockGrant { cx, task := some r, todo := (o, m) :: n :: rest, cont, id }) s = .next t ∧ 1 ≤ d ∧ d ≤ 24 ∧
        t.pend = s.pend ++ [(s.now + d, .lockRequestArrival w)] ∧ w.todo = n :: rest ∧ w.task = some r ∧ w.cont = cont

/-- R382 to R400: the lock instructions, what an arriving request, a wound and a grant do, the escalation of a tile (R395), the wait for room (R397) and the
answer to `lq` (R399). That a request and a grant take 1 to 24 cycles each is the model's reading of a bound (log 1); the order of those that wait for
room is log 62. -/
def Obligations.LockManager : Prop :=
  Sys2Proof.Claims.LockRequests ∧ Sys2Proof.Claims.Escalation ∧ Sys2Proof.Claims.RoomWaits ∧ Sys2Proof.Claims.LockQueries

namespace Sys2Proof.Claims

/-- Nothing of the machine differs but what the outside has been answered: one answer more. -/
def OnlyReplies (s t : State) (id : Nat) (ws : List Word) : Prop :=
  t.replies = s.replies ++ [(id, ws)] ∧ { t with replies := [] } = { s with replies := [] }

/-- A happening that only answers. -/
def RepliesWith (i : Instr) (s : State) (id : Nat) (ws : List Word) : Prop := ∃ t, exec i s = .next t ∧ OnlyReplies s t id ws

/-- A port that the device has and that is not dead: two of its lanes are there (R8, R403). -/
def LivePort (s : State) (port : Nat) : Prop :=
  port < 18 ∧ ∃ l k, l < k ∧ k < 4 ∧ (port, l) ∉ s.mgmt.lanesOff ∧ (port, k) ∉ s.mgmt.lanesOff

/-- Powers under which the device is out of reset, its firmware verified (R409), and those under which it works on, with no alarm (R411). -/
def OutOfReset (p : Power) : Prop := p ∈ [Power.verified, .running, .alarm true]
def AtWork (p : Power) : Prop := p ∈ [Power.verified, .running]

/-- A request of Table 19.1 at a live port: 1 to 256 bytes inside an aligned block of 256, in the HBM, of a device that is out of reset, its
firmware verified, and under no alarm (R401, R409, R411). -/
def InBlock (s : State) (q : FabReq) : Prop :=
  AtWork s.mgmt.power ∧ LivePort s q.port ∧ 1 ≤ q.n ∧ q.addr % 256 + q.n ≤ 256 ∧ q.addr < 0x6000000000

/-- Other nodes may write there (R401): outside the record pool, and no leaf of attribute task maps it. -/
def OthersMayWrite (s : State) (q : FabReq) : Prop :=
  (∀ b, s.mgmt.poolBase = some b → q.addr + q.n ≤ b ∨ b + 0x100000 ≤ q.addr) ∧ taskMapped s q.addr = false

/-- The request is completed with status 0 and data. -/
def Completed (s t : State) (q : FabReq) (data : List Byte) : Prop :=
  t.replies = s.replies ++ [(replyFabric, wd q.tag :: 0 :: packWords data)]

end Sys2Proof.Claims

/-- R401, R402, R403, R269, R158: fabric reads, writes, atomics and the vendor atomics of a peer are performed on global memory and answered, or
refused without effect, and at a dead port, or one that does not exist, nothing comes in; a launch message is refused, lost at such a port,
answered with status 3, or held at its port for at most 12 cycles and behind its node's earlier writes; released, it is answered with its
status, and arms its record, which counts down or is queued and then moves the stamp clock.
The words of an answer and their order are the model's (log 49); that a request that crosses a block is refused, and a write of the record pool, is read
from the rules (log 43). -/
def Obligations.FabricAndLaunch : Prop :=
  (∀ (s : State) (q : FabReq),
    (InBlock s q → RepliesWith (.fabricRead q) s replyFabric (wd q.tag :: 0 :: packWords (s.mem.readN q.addr q.n))) ∧
    (¬ LivePort s q.port → ∀ op k v cmp,
      ∀ i ∈ [Instr.fabricRead q, .fabricWrite q, .fabricAtomic q op v cmp, .fabricVendorAtomic q k v cmp, .fabricOtherRequest q],
        exec i s = .next s) ∧
    (LivePort s q.port → (¬ AtWork s.mgmt.power ∨ q.n = 0 ∨ 256 < q.addr % 256 + q.n) →
      RepliesWith (.fabricRead q) s replyFabric [wd q.tag, 1] ∧ RepliesWith (.fabricWrite q) s replyFabric [wd q.tag, 1]) ∧
    (LivePort s q.port → RepliesWith (.fabricOtherRequest q) s replyFabric [wd q.tag, 1]) ∧
    (InBlock s q → q.data.length = q.n →
      (OthersMayWrite s q → ∃ t, exec (.fabricWrite q) s = .next t ∧ t.mem.readN q.addr q.n = q.data ∧
        (∀ a, ¬(q.addr ≤ a ∧ a < q.addr + q.n) → t.mem.read a = s.mem.read a) ∧ (∀ c a, lsRead t c a = lsRead s c a) ∧
        Completed s t q []) ∧
      ((taskMapped s q.addr = true ∨ ∃ b, s.mgmt.poolBase = some b ∧ b ≤ q.addr ∧ q.addr < b + 0x100000) →
        RepliesWith (.fabricWrite q) s replyFabric [wd q.tag, 1])) ∧
    (∀ (v cmp : Word), InBlock s q → OthersMayWrite s q →
      let old : Word := wd (s.mem.num q.addr 8)
      (q.n = 8 → q.addr % 8 = 0 → ∀ op new,
        (op, new) ∈ [(FabAtomic.add, old + v), (.swap, v), (.cas, if old = cmp then v else old)] →
        ∃ t, exec (.fabricAtomic q op v cmp) s = .next t ∧ MemHolds s t q.addr 8 (some new.toNat) ∧ Completed s t q (toBytes 8 old.toNat)) ∧
      (∀ k, q.peer = false → RepliesWith (.fabricVendorAtomic q k v cmp) s replyFabric [wd q.tag, 1]) ∧
      (∀ op : BitVec 3, 5 ≤ op.toNat → RepliesWith (.fabricVendorAtomic q (.red op) v cmp) s replyFabric [wd q.tag, 1]) ∧
      ∀ op : BitVec 3, q.peer = true → op ≠ 7 → q.n = 8 → q.addr % 8 = 0 → ∀ f, atomics[op.toNat]? = some f →
        ∃ t, exec (.fabricVendorAtomic q (.amo op) v cmp) s = .next t ∧ MemHolds s t q.addr 8 (some (f old v).toNat) ∧
          Completed s t q (toBytes 8 old.toNat))) ∧
  (∀ (s : State) (port node : Nat) (m : BitVec 128),
    let tag : Word := (m >>> 64).setWidth 64
    (¬ LivePort s port → exec (.launchMessage port node m) s = .next s) ∧
    (LivePort s port →
      (s.mgmt.power ≠ .running → RepliesWith (.launchMessage port node m) s replyRefused [tag]) ∧
      (s.mgmt.power = .running →
        (m.toNat % 2 ^ 64 / 2 ^ 14 ≠ 0 → RepliesWith (.launchMessage port node m) s replyLaunch [tag, 3]) ∧
        (m.toNat % 2 ^ 64 / 2 ^ 14 = 0 →
          ∃ t h, exec (.launchMessage port node m) s = .next t ∧ t.mgmt.held = s.mgmt.held ++ [h] ∧ h.m = m ∧ h.port = port ∧
            h.node = node ∧ s.now ≤ h.due ∧ h.due ≤ s.now + 12 ∧
            (∀ e, e ∈ h.behind ↔ e ∈ s.env.take s.envAt ∧ writesBy node e.ev = true) ∧ t.replies = s.replies ∧ t.tasks = s.tasks)))) ∧
  ∀ (s : State) (h : HeldMsg) (b : Nat), s.mgmt.poolBase = some b → s.mgmt.held.find? (fun y => y.id == h.id) = some h →
    let tag : Word := (h.m >>> 64).setWidth 64
    let r := h.m.toNat % 4096
    let die := h.m.toNat / 4096 % 4
    ∃ t, exec (.launchMessageRelease h.id) s = .next t ∧ (∀ y ∈ t.mgmt.held, y.id ≠ h.id) ∧
      ((getTask s r).st ≠ .idle → t.replies = s.replies ++ [(replyLaunch, [tag, 1])] ∧ t.tasks = s.tasks ∧ t.mem = s.mem) ∧
      ((getTask s r).st = .idle → ArmBad s r →
        t.replies = s.replies ++ [(replyLaunch, [tag, 2])] ∧ t.tasks = s.tasks ∧ t.mem = s.mem) ∧
      ((getTask s r).st = .idle → ¬ ArmBad s r → t.replies = s.replies ++ [(replyLaunch, [tag, 0])] ∧
        (recCnt s r ≤ 1 → (getTask t r).st = .queued ∧ (getTask t r).seq = s.seqCount ∧ (∃ e ∈ (getDie t die).queue, e.rec_ = r) ∧
          t.stampClock = (if s.stampClock ≤ recStamp s r then min (recStamp s r + 1) (2 ^ 48 - 1) else s.stampClock)) ∧
        (1 < recCnt s r → (getTask t r).st = .idle ∧ recCnt t r = recCnt s r - 1 ∧ t.stampClock = s.stampClock))

/-- R146, R154, R404, R409, Table 6.10: under the debug lock every request is refused with 2; else the port reads an
item, writes one of a stopped strand, holds a strand setting DPORT (one that waits when its instruction completes), steps a Held one, and
resumes one that is Held or Halted but no Trapped one, with the statuses of R154.
The model's own are the words of an answer (log 49), that every request is refused with 1 while the device is in reset, that a hold is answered when it is
sent, and that a write of a g register that the strand does not have is ignored (log 40, DESIGN CHOICE). -/
def Obligations.DebugPort : Prop :=
  ∀ (s : State) (c u i : Nat) (v : Word) (gang : Bool) (tab : DebugTable),
    let y := getStrand s c u
    (s.mgmt.debugLock = true →
      ∀ e ∈ [Instr.debugRead c u i, .debugWrite c u i v, .debugHold c u gang, .debugStep c u gang, .debugResume c u gang, .debugTableRead tab i],
        RepliesWith e s replyDebug [2]) ∧
    (s.mgmt.debugLock = false → ¬ OutOfReset s.mgmt.power →
      ∀ e ∈ [Instr.debugRead c u i, .debugWrite c u i v, .debugHold c u gang, .debugStep c u gang, .debugResume c u gang, .debugTableRead tab i],
        RepliesWith e s replyDebug [1]) ∧
    (s.mgmt.debugLock = false → OutOfReset s.mgmt.power →
      (∃ w, RepliesWith (.debugRead c u i) s replyDebug [0, w] ∧ ItemHolds s c u i w) ∧
      (∃ ws, RepliesWith (.debugTableRead tab i) s replyDebug (0 :: ws) ∧
        (tab = .node0 → (getNode s i).valid = true → (getNode s i).parent < 2 ^ 23 → ∃ w, ws = [w] ∧ bit w 63 = true ∧ bits w 55 33 = (getNode s i).parent)) ∧
      (y.st ∉ [StrandState.held, .trapped, .halted, .done] → i < 192 → RepliesWith (.debugWrite c u i v) s replyDebug [1]) ∧
      (y.st ∈ [StrandState.held, .trapped, .halted, .done] →
        (y.size ≤ i → i < 128 → RepliesWith (.debugWrite c u i v) s replyDebug [0]) ∧
        (128 ≤ i → i < 136 →
          ∃ t, exec (.debugWrite c u i v) s = .next t ∧ (getStrand t c u).ptr (i - 128) = v ∧ BytesSame s t ∧ OthersSame s t c u ∧
            t.replies = s.replies ++ [(replyDebug, [0])]) ∧
        (i < y.size → i < 128 →
          ∃ t, exec (.debugWrite c u i v) s = .next t ∧ getK 0 (getCore t c).rf (y.base + i) = v ∧ BytesSame s t ∧
            (∀ j, j ≠ y.base + i → getK 0 (getCore t c).rf j = getK 0 (getCore s c).rf j) ∧
            t.replies = s.replies ++ [(replyDebug, [0])])) ∧
      (y.st = .free → ∀ e ∈ [Instr.debugHold c u gang, .debugStep c u gang, .debugResume c u gang], RepliesWith e s replyDebug [1]) ∧
      (y.st = .ready → (getCore s c).dbgn = false →
        ∃ t, exec (.debugHold c u false) s = .next t ∧ (getStrand t c u).st = .held ∧ (getStrand t c u).dbg 2 = true ∧
          (getStrand t c u).pc = y.pc ∧ BytesSame s t ∧ OthersSame s t c u ∧ t.replies = s.replies ++ [(replyDebug, [0])]) ∧
      (y.st = .waiting →
        ∃ t, exec (.debugHold c u false) s = .next t ∧ (getStrand t c u).st = .waiting ∧ (getStrand t c u).holdReq = true ∧
          (getStrand t c u).holdPort = true ∧ BytesSame s t ∧ OthersSame s t c u ∧ t.replies = s.replies ++ [(replyDebug, [0])]) ∧
      (y.st ≠ .free → y.st ≠ .held ∨ gang = true → RepliesWith (.debugStep c u gang) s replyDebug [2]) ∧
      (y.st = .held →
        (∃ t, exec (.debugStep c u false) s = .next t ∧ (getStrand t c u).st = .ready ∧ (getStrand t c u).dbg 1 = true ∧
          (getStrand t c u).pc = y.pc ∧ OthersSame s t c u) ∧
        ∃ t, exec (.debugResume c u false) s = .next t ∧ (getStrand t c u).st = .ready ∧ (getStrand t c u).dbg 2 = false ∧
          (getStrand t c u).pc = y.pc ∧ OthersSame s t c u) ∧
      (y.st = .halted →
        ∃ t, exec (.debugResume c u false) s = .next t ∧ (getStrand t c u).st = .ready ∧
          (getStrand t c u).pc = (if y.dfault then y.get 2 else y.pc) ∧ OthersSame s t c u ∧ t.replies = s.replies ++ [(replyDebug, [0])]) ∧
      (y.st = .trapped → RepliesWith (.debugResume c u false) s replyDebug [2]))

/-- The device answers a management request that is done with 0. -/
def Sys2Proof.Claims.MgmtDone (s t : State) : Prop := t.replies = s.replies ++ [(replyMgmt, [0])]

/-- R409, R412, R233, R299, R405: firmware is verified by both signatures or the boot stops; while it runs, the items of bring-up are set in the order of
their steps, inside what fits into the HBM; strand 0 of every core starts once every item has been set.
Which items are taken when is read from R412 and R233 (log 41); the areas that count are the model's (log 64). -/
def Sys2Proof.Claims.BringUpCourse : Prop :=
  (∀ (s : State) (image rsa slh : List Byte), s.mgmt.power = .reset →
    let good := Config.verifyRsa (sha384 image) rsa && Config.verifySlh (sha384 image) slh
    (good = true → ∃ t, exec (.firmwareVerify image rsa slh) s = .next t ∧ t.mgmt.power = .verified ∧
      t.mgmt.digest = sha384 image ∧ t.replies = s.replies) ∧
    (good = false → ∃ t, exec (.firmwareVerify image rsa slh) s = .next t ∧ t.mgmt.power = .refused ∧
      t.replies = s.replies ++ [(replyBoot, [0x0B1])])) ∧
  (∀ (s : State), s.mgmt.power = .verified → areasFit s.mgmt = true →
    (∀ pa, stepReached s.mgmt 40 = true → pa < 0x6000000000 →
      ∃ t, exec (.bringUpSetting (.root pa)) s = .next t ∧ t.mgmt.root = pa ∧ t.mgmt.walkRoot = pa ∧ 40 ∈ t.mgmt.items ∧ MgmtDone s t) ∧
    (∀ va, stepReached s.mgmt 41 = true → va % 16384 = 0 → va < 2 ^ 48 →
      ∃ t, exec (.bringUpSetting (.kvBase va)) s = .next t ∧ t.mgmt.kvBase = va ∧ 41 ∈ t.mgmt.items ∧ MgmtDone s t) ∧
    (∀ n, stepReached s.mgmt 42 = true → n ≤ 2 ^ 24 →
      ∃ t, exec (.bringUpSetting (.npages n)) s = .next t ∧ t.mgmt.npages = n ∧ 42 ∈ t.mgmt.items ∧ MgmtDone s t) ∧
    (∀ n, stepReached s.mgmt 20 = true → 2 ^ 24 ≤ 16400 * n → areasFit { s.mgmt with linUnits := n } = true →
      ∃ t, exec (.bringUpSetting (.lineageUnits n)) s = .next t ∧ t.mgmt.linUnits = n ∧ 20 ∈ t.mgmt.items ∧ MgmtDone s t) ∧
    (∀ n, stepReached s.mgmt 21 = true → 2048 ≤ n → n ≤ 1048576 → areasFit { s.mgmt with winRoom := n } = true →
      ∃ t, exec (.bringUpSetting (.windowRecords n)) s = .next t ∧ t.mgmt.winRoom = n ∧ 21 ∈ t.mgmt.items ∧ MgmtDone s t) ∧
    (∀ pa, stepReached s.mgmt 22 = true → pa + 0x100000 ≤ 0x6000000000 →
      ∃ t, exec (.bringUpSetting (.poolBase pa)) s = .next t ∧ t.mgmt.poolBase = some pa ∧ 22 ∈ t.mgmt.items ∧ MgmtDone s t) ∧
    (∀ pa bs, stepReached s.mgmt 54 = true → pa + bs.length ≤ 0x6000000000 →
      ∃ t, exec (.bringUpSetting (.text pa bs)) s = .next t ∧ t.mem.readN pa bs.length = bs ∧
        (∀ a, ¬(pa ≤ a ∧ a < pa + bs.length) → t.mem.read a = s.mem.read a) ∧ MgmtDone s t)) ∧
  (∀ (s : State) (b : BringUp),
    (¬ AtWork s.mgmt.power ∨ (s.mgmt.power = .verified ∧ stepReached s.mgmt (itemCode b) = false) →
      RepliesWith (.bringUpSetting b) s replyMgmt [1]) ∧
    (s.mgmt.power = .running → settingEarly b = true → RepliesWith (.bringUpSetting b) s replyMgmt [1])) ∧
  ∀ (s : State) (entry : Word),
    (s.mgmt.power = .verified → (∀ i ∈ [10, 20, 21, 22, 40, 41, 42, 50, 51, 52, 53, 54], i ∈ s.mgmt.items) →
      ∃ t, exec (.bringUpComplete entry) s = .next t ∧ t.mgmt.power = .running ∧ BytesSame s t ∧
        ∀ c, c < 1024 → (getCore t c).started = true ∧ (getStrand t c 0).pc = entry ∧
          ∀ u, u ≠ 0 → getStrand t c u = getStrand s c u) ∧
    (s.mgmt.power ≠ .verified ∨ (∃ i ∈ [10, 20, 21, 22, 40, 41, 42, 50, 51, 52, 53, 54], i ∉ s.mgmt.items) →
      RepliesWith (.bringUpComplete entry) s replyMgmt [1])

/-- R404, R405, R409, R410, R412, R344, R348: the course of bring-up; record images, counters, the error log and the ceilings are served while
the device is out of reset, and refused before; an attestation is given or refused; reset leaves the reset values, the bytes of memory and what
is lastingly faulty.
The words of an answer are the model's (log 49); which images are taken when is read from R25 and R348, and that requests in reset and an attestation
with erased keys are refused from R409 and R411 (log 41); what a reset keeps is log 11. -/
def Obligations.Management : Prop :=
  Sys2Proof.Claims.BringUpCourse ∧
  (∀ (s : State), ¬ OutOfReset s.mgmt.power → ∀ r dws x i d ceil,
    ∀ e ∈ [Instr.recordImageWrite r dws, .counterRead x, .counterClear x, .errorLogRead i, .ceilSet d ceil],
      RepliesWith e s replyMgmt [1]) ∧
  (∀ (s : State), OutOfReset s.mgmt.power →
    (∀ r dws b, s.mgmt.poolBase = some b → r < 4096 → dws.length = 32 →
      ((getTask s r).st ∈ [TaskState.free, .idle, .failed] →
        ∃ t, exec (.recordImageWrite r dws) s = .next t ∧ (getTask t r).st = .idle ∧ Sys2Proof.Claims.MgmtDone s t ∧
          (∀ i, i < 32 → i ≠ 3 → recWord t r i = nth 0 dws i) ∧ bits (recWord t r 3) 43 40 = 1 ∧ recCnt t r = bits (nth 0 dws 3) 15 0 ∧
          ∀ a, ¬(b + 256 * r ≤ a ∧ a < b + 256 * r + 256) → t.mem.read a = s.mem.read a) ∧
      ((getTask s r).st ∉ [TaskState.free, .idle, .failed] → RepliesWith (.recordImageWrite r dws) s replyMgmt [1])) ∧
    (∀ c i, i < 13 →
      let n := getK 0 (getCore s c).perf i
      RepliesWith (.counterRead (.core c i)) s replyMgmt [0, if i = 1 then wd s.now - n else n] ∧
      ∃ t, exec (.counterClear (.core c i)) s = .next t ∧ (getCore t c).perfRead i t.now = 0 ∧
        (∀ j, j ≠ i → getK 0 (getCore t c).perf j = getK 0 (getCore s c).perf j) ∧ Sys2Proof.Claims.MgmtDone s t) ∧
    (∀ i, 2 ≤ i → RepliesWith (.counterRead (.lineage i)) s replyMgmt [0, getK 0 s.linCnt i] ∧
      ∃ t, exec (.counterClear (.lineage i)) s = .next t ∧ getK 0 t.linCnt i = 0) ∧
    (∀ i, (s.mgmt.log[i]? = none → RepliesWith (.errorLogRead i) s replyMgmt [1]) ∧
      ∀ r g, s.mgmt.log[i]? = some (.failed r g) → RepliesWith (.errorLogRead i) s replyMgmt [0, 3, wd r, wd g]) ∧
    (∀ d ceil, d < 4 → 1024 ≤ ceil → ceil < 2 ^ 32 → (getDie s d).waiting = [] →
      (∃ t, exec (.ceilSet d ceil) s = .next t ∧ (getDie t d).ceil = ceil ∧ (getDie t d).total = (getDie s d).total ∧
        Sys2Proof.Claims.MgmtDone s t) ∧
      ∃ t, exec (.thermalCeilAdjust d ceil) s = .next t ∧ (getDie t d).ceil = ceil ∧ t.replies = s.replies) ∧
    (∀ d ceil, ceil < 1024 → RepliesWith (.ceilSet d ceil) s replyMgmt [1]) ∧
    ∀ nonce, nonce.length = 32 → s.mgmt.keysErased = false →
      let text := toBytes 32 Config.deviceId.toNat ++ toBytes 48 s.mgmt.digest.toNat ++ toBytes 8 Config.fuseVersion.toNat ++ nonce
      RepliesWith (.attestationRequest nonce) s replyAttest
        ((text ++ Config.signRsa text ++ Config.signSlh text).map (fun y => y.setWidth 64))) ∧
  ∀ (s : State),
    (∀ nonce, s.mgmt.keysErased = true ∨ ¬ OutOfReset s.mgmt.power →
      RepliesWith (.attestationRequest nonce) s replyMgmt [1]) ∧
    ∃ t, exec .deviceReset s = .next t ∧ BytesSame s t ∧ t.now = 0 ∧ t.pend = [] ∧ t.tasks = [] ∧ t.nodes = [] ∧
      t.locks = {} ∧ t.seqs = [] ∧ (∀ c u, getStrand t c u = Strand.init u) ∧
      (∀ c, { getCore t c with ls := [], spares := 0, barred := false } = {} ∧ (getCore t c).spares = (getCore s c).spares ∧
        (getCore t c).barred = (getCore s c).barred) ∧
      t.mgmt = { keysErased := s.mgmt.keysErased, lanesOff := s.mgmt.lanesOff, waysOff := s.mgmt.waysOff } ∧
      t.env = s.env ∧ t.replies = s.replies

/-- R406, R407, R403: a detected error is counted and logged and its element tested within 2,000 cycles; one of an element that is under test starts no
second test, which is the model's reading (log 45, DEDUCED); a lasting fault of a store bank uses a spare or
bars the core, one of a lane drops that lane, and with fewer than two lanes the port is dead: its held messages are lost, and its posted accesses fail
with WHY 1; one of an L2 way disables the way. -/
def Sys2Proof.Claims.ErrorsDetected : Prop :=
  ∀ (s : State) (e : Element),
    (∃ t, exec (.errorDetected e) s = .next t ∧ t.mgmt.log = s.mgmt.log ++ [.error e] ∧
      errCount t e = errCount s e + 1 ∧ (∀ f, f ≠ e → errCount t f = errCount s f) ∧ t.cores = s.cores ∧ t.mem = s.mem ∧
      (e ∈ s.mgmt.testing → t.mgmt.testing = s.mgmt.testing ∧ t.pend = s.pend) ∧
      (e ∉ s.mgmt.testing → t.mgmt.testing = s.mgmt.testing ++ [e] ∧
        ∃ d lasting, 1 ≤ d ∧ d ≤ 2000 ∧ t.pend = s.pend ++ [(s.now + d, .selfTestComplete e lasting)])) ∧
    (∃ t, exec (.selfTestComplete e false) s = .next t ∧ t.mgmt.log = s.mgmt.log ++ [.outcome e false] ∧
      t.mgmt.testing = s.mgmt.testing.erase e ∧ t.cores = s.cores ∧ t.mgmt.lanesOff = s.mgmt.lanesOff) ∧
    ∃ t, exec (.selfTestComplete e true) s = .next t ∧ t.mgmt.log = s.mgmt.log ++ [.outcome e true] ∧
      t.mgmt.testing = s.mgmt.testing.erase e ∧
      (∀ c k, e = .lsBank c k →
        ((getCore s c).spares < 2 → (getCore t c).spares = (getCore s c).spares + 1 ∧ (getCore t c).barred = (getCore s c).barred) ∧
        (2 ≤ (getCore s c).spares → (getCore t c).barred = true)) ∧
      (∀ sl w, e = .l2Way sl w → t.mgmt.waysOff = s.mgmt.waysOff ++ [(sl, w)]) ∧
      ∀ p l, e = .lane p l → p < 18 →
        (∀ x, x ∈ t.mgmt.lanesOff ↔ x ∈ s.mgmt.lanesOff ∨ x = (p, l)) ∧
        (¬ LivePort t p → (∀ h ∈ t.mgmt.held, h.port ≠ p) ∧
          ∀ c q, (s.cores.map (fun x => x.1)).Nodup → (∀ k ∈ s.cores, k.1 ≠ c → k.2.posted = []) → (getCore s c).posted = [q] →
            q.g.cx.core = c → isRemote q.loc = true → q.port = p → gReturns q.g.kind = false →
            (getStrand s c q.g.cx.strand).fail = none → postedWaiter s c = none →
            (getCore t c).posted = [] ∧ (getStrand t c q.g.cx.strand).fail = some ⟨1, locNode q.loc, p, 1⟩)

/-- R403, R406 to R408, R411, R338: what errors do; uncorrectable data, which is noted as any other error, traps a strand outside tasks that waits for
the access or is about to issue the instruction that reads, is held for one whose reissued matrix entry reads it, is kept for the next issue of one whose
posted reduction reads it, which is not performed, marks the byte at which the copy's run ends, and makes a task Faulted; an
alarm stops the device: no commit is released, no engine completes, and no instruction issues any more.
The words of an answer are the model's (log 49); what still comes about after an alarm is log 44; the FCAUSE of such a task, the strand that is about to
issue, the held fault, the posted reduction, and that an element under test starts no second test are log 45 (DEDUCED). -/
def Obligations.ErrorsAndAlarms : Prop :=
  Sys2Proof.Claims.ErrorsDetected ∧
  (∀ (s : State) (el : Element), ∃ n, exec (.errorDetected el) s = .next n ∧
    (∀ cx addr, cxTask s cx = none →
      stillWaits s cx = true ∨
        (postedRed s cx = none ∧ (getStrand s cx.core cx.strand).st = .ready ∧ (getStrand s cx.core cx.strand).pc = cx.addr) →
      ∃ t, exec (.uncorrectableRead ⟨el, .strand cx addr⟩) s = .next t ∧
        TrapEffect n t cx.core cx.strand 0x07 addr cx.word cx.addr cx.addr) ∧
    (∀ cx addr p, cxTask s cx = none → stillWaits s cx = false → postedRed s cx = some p → postedWaiter s cx.core = none →
      ∃ t, exec (.uncorrectableRead ⟨el, .strand cx addr⟩) s = .next t ∧ BytesSame s t ∧ findPosted t cx.core p.id = none ∧
        (getStrand t cx.core cx.strand).badOld = some (addr, cx.word)) ∧
    (∀ cx addr, cxTask s cx = none → stillWaits s cx = false → postedRed s cx = none → (getStrand s cx.core cx.strand).st ≠ .ready →
      (∃ e ∈ (getCore s cx.core).mq, e.direct = false ∧ e.cx = cx) →
      ∃ t, exec (.uncorrectableRead ⟨el, .strand cx addr⟩) s = .next t ∧ BytesSame s t ∧
        (getStrand t cx.core cx.strand).held = (getStrand s cx.core cx.strand).held ++ [⟨0x07, addr, cx.word, false⟩]) ∧
    (∀ c e rest byte, Heads s c e rest →
      (e.task = none →
        ∃ t, exec (.uncorrectableRead ⟨el, .copy c e.id byte⟩) s = .next t ∧ BytesSame s t ∧
          (getCore t c).copyQ = { e with bad := some byte } :: rest ∧ t.pend = n.pend) ∧
      ∀ r, e.task = some r → exec (.uncorrectableRead ⟨el, .copy c e.id byte⟩) s = exec (.taskFault r c 0x07) n) ∧
    ∀ r core, exec (.uncorrectableRead ⟨el, .task r core⟩) s = exec (.taskFault r core 0x07) n) ∧
  (∀ (s : State),
    ∀ i keys thermal id, (i, keys, thermal, id) ∈ [(Instr.tamperAlarm, s.mgmt.keysErased || s.mgmt.eraseOnTamper, s.mgmt.thermal, (0 : Word)),
        (.thermalAlarm, s.mgmt.keysErased, true, 1)] →
      ∃ t, exec i s = .next t ∧ (∃ up, t.mgmt.power = .alarm up ∧ (up = true ↔ OutOfReset s.mgmt.power)) ∧ t.mgmt.keysErased = keys ∧ t.mgmt.thermal = thermal ∧
        (replyAlarm, [id]) ∈ t.replies ∧ t.mem = s.mem ∧
        ∀ e ∈ t.pend, ∀ r c d, e.2 ∉ [Instr.commitRelease r, .lineageEntryComplete r, .vectorComplete d, .selectionComplete d,
          .matrixEntryComplete c r, .copyEntryComplete c r, .footprintFetchComplete r c]) ∧
  ∀ (s : State) (up : Bool), s.mgmt.power = .alarm up → (∀ e ∈ s.env, s.now < e.due) → (∀ e ∈ s.pend, s.now < e.1 ∧ locAccOf e.2 = none) →
    ∃ t, step s = .next t ∧ t.now = s.now + 1 ∧ t.cores = s.cores ∧ t.mem = s.mem ∧ t.mgmt = s.mgmt

/-- R40, R41, R46 to R56: for every instruction that has an encoding, with every operand, guard, modifier and immediate that its row admits, the
decoder reads its words back as that instruction, whatever words follow, in 1 to 5 words. -/
def Obligations.DecodeOfEncode : Prop :=
  ∀ (i : Instr) (code : Nat) (rest : List IWord), codeOf i = some code → i.wf = true →
    (encode i).length ≤ 5 ∧ ∃ w, (encode i).getLast? = some w ∧ decode (encode i ++ rest) = .ok i (2 * (encode i).length) w

/-- R46 to R48, R51 to R57: what decodes is an instruction of the map with an encoding, is 2 to 10 bytes long and ends at its base word, the
one word that is no prefix; more words change nothing; what is refused reports a word of the chain, and that stands whatever follows. -/
def Obligations.DecodedIsWellFormed : Prop :=
  ∀ (ws : List IWord),
    (∀ i len w, decode ws = .ok i len w → i.wf = true ∧ (∃ code, codeOf i = some code) ∧ 2 ≤ len ∧ len ≤ 10 ∧ len % 2 = 0 ∧
      ws[len / 2 - 1]? = some w ∧ isPrefix w = false ∧ (∀ j v, j < len / 2 - 1 → ws[j]? = some v → isPrefix v = true) ∧
      ∀ rest, decode (ws ++ rest) = .ok i len w) ∧
    (∀ w, decode ws = .illegal w → (∃ j, j < 5 ∧ ws[j]? = some w ∧ decode (ws.take j) = .more) ∧
      ∀ rest, decode (ws ++ rest) = .illegal w) ∧
    (decode ws = .more → ws.length ≤ 4 ∧ ∀ v ∈ ws, isPrefix v = true)

/-- R46 to R57: the words of Tables 3.14 and 3.15. -/
def Obligations.DecodeWords : Prop :=
  decode [0xE880, 0xE003, 0x5128] = .ok (.shli { a := .g 9, b := .g 40, imm := 3 }) 6 0x5128 ∧
  decode [0xF810, 0xF100, 0xE900, 0x7C46] = .ok (.mov { guard := 1, a := .s 2, b := .g 70 }) 8 0x7C46 ∧
  decode [0xE803, 0x0022] = .ok (.add { a := .g 1, b := .g 2, c := .g 3 }) 4 0x0022 ∧
  decode [0xF929, 0xEA00, 0x0103] =
    .ok (.ld { guard := 2, sense := true, mod := 1, a := .g 40, b := .mem 3 .none }) 6 0x0103 ∧
  decode [0xE6D4, 0x40A6] = .ok (.addi { a := .g 5, b := .g 6, imm := -300 }) 4 0x40A6 ∧
  decode [0xF929, 0xF929, 0x0103] = .illegal 0xF929 ∧
  decode [0xE803, 0xF810, 0x0022] = .illegal 0xF810 ∧
  decode [0xFC00, 0x0000] = .illegal 0xFC00 ∧
  decode [0xF101, 0x7C46] = .illegal 0xF101 ∧
  decode [0x0022] = .illegal 0x0022 ∧
  decode [0xE803, 0xE003, 0x0022] = .illegal 0x0022 ∧
  decode [0xF880, 0xB000] = .illegal 0xB000 ∧
  decode [0xE001, 0xE001, 0xE001, 0xE001, 0xE001, 0x0022] = .illegal 0xE001

namespace Sys2Proof.Claims

/-- A word of text at flat address `va` of a strand of core `c`: a buffer holds the page's leaf (R236), as the table has it (R238), and it lets the word be
fetched from `pa` (R59, R235), its line is in the instruction cache (R60), and memory holds the word there, low byte first. -/
def TextAt (s : State) (c : Nat) (va : Word) (w : IWord) : Prop :=
  bits va 63 48 = 0 ∧ ∃ l pa k, walk s va.toNat = some l ∧ buffered s c va.toNat = some (l, k) ∧
    pa = l.pa va.toNat ∧ entAttr l.entry < 2 ∧ entX l.entry = true ∧ pa < 0x6000000000 ∧
    pa / 256 ∈ (getCore s c).icache ∧ s.mem.num pa 2 = w.toNat

/-- A chain of words at `va`. -/
def ChainAt (s : State) (c : Nat) (va : Word) (ws : List IWord) : Prop :=
  ∀ (j : Nat) (w : IWord), ws[j]? = some w → TextAt s c (va + BitVec.ofNat 64 (2 * j)) w

/-- Strand `u` of core `c` issues next (R18): the device runs, in this cycle core `c` has still to issue and the cores below it that have still to
do so have nothing to issue, the strand is Ready and may issue again, 8 cycles after its last issue, in no state transfer, and no strand
between the last issuer and it is eligible; no automatic start takes strand 0's slot. -/
structure IssuesNext (s : State) (c u : Nat) : Prop where
  running : ∀ up, s.mgmt.power ≠ .alarm up
  turn : s.turn ≤ c + 1 ∧ c < 1024
  inputs : s.turn = 0 → startEvent { s with fresh := s.fresh + 1 } = none
  started : (getCore s c).started = true
  order : (s.cores.map (fun e => e.1)).Pairwise (· < ·)
  below : ∀ e ∈ s.cores, e.1 < c → s.turn - 1 ≤ e.1 → coreSlot { s with fresh := s.fresh + 1 } e.1 = none
  ready : (getStrand s c u).st = .ready
  again : (getStrand s c u).readyFrom ≤ s.now
  spaced : ∀ l, (getStrand s c u).last = some l → l + 8 ≤ s.now
  still : transferring s c u = false
  first : ∃ k, k < 16 ∧ u = ((getCore s c).lastIssuer + 1 + k) % 16 ∧
    ∀ j, j < k → eligible { s with fresh := s.fresh + 1 } c (((getCore s c).lastIssuer + 1 + j) % 16) = none
  dispatch : autoTask s c = none

/-- No timer trap stands in place of the issue (R138). -/
def NoTimer (s : State) (c u : Nat) : Prop := (getStrand s c u).tmrHit = false ∨ (u = 0 ∧ (getStrand s c u).flag 6 = true)

/-- Nothing stands in place of the issue: no timer trap, no trap of a posted reduction (R408, log 45) and no breakpoint (R143). -/
def NothingFirst (s : State) (c u : Nat) : Prop :=
  NoTimer s c u ∧ (getStrand s c u).badOld = none ∧
  ((getStrand s c u).flag 5 = true ∨
    ∀ n, n < 4 → bit ((getStrand s c u).get (13 + n)) 0 = true →
      bits ((getStrand s c u).get (13 + n)) 47 1 * 2 ≠ (getStrand s c u).pc.toNat)

/-- The state in which what stands at the pc of strand `u` of core `c` runs: the slot is used, and the context is the strand's, its pc, length and
base word; the core's buffer holds the page's leaf; for an instruction (`runs`) the issue is counted in ISSUED, is none of the cycles that EMPTY counts, and XB has served. -/
structure Issuing (s t : State) (c u len : Nat) (w : IWord) (runs : Bool) : Prop where
  cur : t.cur =
    { core := c, strand := u, addr := (getStrand s c u).pc, len := len, word := w, xb := (getStrand s c u).flag 5, at_ := s.now }
  strand : getStrand t c u =
    { (if runs then (getStrand s c u).setFlag 5 false else getStrand s c u) with last := some s.now, badText := none, launched := false, pages := [] }
  others : ∀ v, v ≠ u → getStrand t c v = getStrand s c v
  cores : ∀ d, d ≠ c → getCore t d = getCore s d
  issuer : (getCore t c).lastIssuer = u
  counted : getK 0 (getCore t c).perf 0 = getK 0 (getCore s c).perf 0 + (if runs then 1 else 0) ∧
    ((getCore s c).busyAt ≠ some s.now →
      (getCore t c).perfRead 1 (t.now + 1) = (getCore s c).perfRead 1 (s.now + 1) - (if runs then 1 else 0)) ∧
    ∀ j, 2 ≤ j → getK 0 (getCore t c).perf j = getK 0 (getCore s c).perf j
  core : { getCore t c with strands := [], perf := [], busyAt := none, lastIssuer := 0, tlb := [] } =
    { getCore s c with strands := [], perf := [], busyAt := none, lastIssuer := 0, tlb := [] }
  buffer : (∃ l ∈ (getCore s c).tlb, l.covers (getStrand s c u).pc.toNat = true) → (getCore t c).tlb = (getCore s c).tlb
  holds : ∃ l ∈ (getCore t c).tlb, l.covers (getStrand s c u).pc.toNat = true
  outside : { t with cores := [], cur := {}, turn := 0, fresh := 0 } = { s with cores := [], cur := {}, turn := 0, fresh := 0 }
  turn : t.turn = c + 2
  fresh : t.fresh = s.fresh + 1

end Sys2Proof.Claims

/-- R18, R46, R57, R59, R60, R138, R143, R170: when a strand issues next and the text at its pc decodes, a step is exec of that instruction in the state
in which it issues, counted, unless it must wait first for its bytes, for walks or behind a fence, when it leaves the strand Waiting for its turn; words that
are no instruction trap with cause 0x01 and the reported word, resumed at the chain's first word, and no counter counts them; uncorrectable data that a
posted reduction has met traps in place of the issue.
A strand issues next when it is first in the cyclic search; that an automatic start waits for strand 0's turn in it is log 56; that an instruction waits before its
issue is log 67; the trap of the posted reduction is log 45. -/
def Obligations.StepRunsDecoded : Prop :=
  ∀ (s : State) (c u : Nat) (ws : List IWord), IssuesNext s c u → ChainAt s c (getStrand s c u).pc ws →
    (NothingFirst s c u →
      (∀ i len w, decode ws = .ok i len w →
        let held := mustWait (atIssue { s with fresh := s.fresh + 1, turn := c + 2 } c u w len) i
        (held = false → ∃ t, step s = exec i t ∧ Issuing s t c u len w true) ∧
        (held = true → ∃ t x, step s = .next t ∧ (getStrand t c u).st = .waiting ∧ (getStrand t c u).wait = some x ∧ x.why = .turn ∧ x.instr = i ∧
          (getStrand t c u).pc = (getStrand s c u).pc ∧ BytesSame s t)) ∧
      ∀ w, decode ws = .illegal w → ∃ t r, Issuing s r c u 0 w false ∧ step s = .next t ∧
        TrapEffect r t c u 0x01 0 w (getStrand s c u).pc (getStrand s c u).pc) ∧
    ∀ a v, NoTimer s c u → (getStrand s c u).badOld = some (a, v) → decode ws ≠ .more →
      ∃ t, step s = .next t ∧ Recorded (getStrand t c u) 0x07 a (getStrand s c u).pc v ∧ (getStrand t c u).badOld = none ∧ BytesSame s t

/-- R177 (Table 8.1), R130 to R135, log 2: the memories stay canonical: in every state in which the lists of global memory and of every local store rise
strictly and list no zero byte, the machine steps, and they do so after the step.
The form of the memories, and that an unlisted byte reads as 0, are the model's choice (log 2); that every state steps rests on the traps: what an
instruction may not do is an exception that is taken. -/
def Obligations.MemoryStaysCanonical : Prop :=
  ∀ s : State, MemWf s → ∃ t, step s = .next t ∧ MemWf t

/-- What the spec gives for reset: R89, Tables 6.2 to 6.5, R157, R158, R162, R182, R201, R291, R297, R320, R356, R364, R366, R370, R395, Table 15.3;
and the memories in their canonical form.
The form of the memories is the model's (log 2). -/
def Obligations.ResetState : Prop :=
  let s := Machine.State.reset
  MemWf s ∧ s.now = 0 ∧ s.stampClock = 0 ∧ s.locks.limit = 16 ∧
  (∀ i, getK 0 s.linCnt i = 0) ∧
  (∀ l n, (getBarrier s l n).owner = .none ∧ (getBarrier s l n).mask = 0 ∧ (getBarrier s l n).phase = 0 ∧ (getBarrier s l n).leads = []) ∧
  (∀ q, (getSeq s q).st = .free ∧ (getSeq s q).gen = 0) ∧
  (∀ a, adaptEntry s a = 0) ∧ (∀ m, slotEntry s m = 0) ∧ (∀ n, biasState s n = 0) ∧ (∀ n b e, biasAt s n b e = 0) ∧
  ∀ c,
    (∀ j, getK 0 (getCore s c).rf j = 0) ∧ (∀ r, r < 16 → (getCore s c).sharedLast r = 0) ∧
    (∀ r, 32 ≤ r → r ≤ 41 → (getCore s c).sharedLast r = if r = 37 then 0x10 else 0) ∧
    (getCore s c).readyQ = [] ∧
    (getHeap s c).pairs = [] ∧ (getHeap s c).total = 0 ∧ (getHeap s c).evict = false ∧
    (∀ tile m n, getCell (getCore s c) tile m n = 0) ∧ (∀ j, (getLatch s c j).st = .empty) ∧
    (∀ m, (getSlot s c m).val = 0 ∧ (getSlot s c m).present = false ∧ (getSlot s c m).owner = none) ∧
    (∀ q, (getK {} (getCore s c).cqStat q : CqStat).done = 0 ∧ (getK {} (getCore s c).cqStat q : CqStat).fault = false) ∧
    ∀ u,
      (getStrand s c u).st = (if u = 0 then .ready else .free) ∧
      (∀ n, (getStrand s c u).ptr n = 0) ∧ (∀ n, (getStrand s c u).kreg n = 0) ∧
      (∀ n, n ≠ 0 → n < 8 → (getStrand s c u).preds.getLsbD n = false) ∧
      (∀ r, r ≠ 4 → r ≠ 12 → (getStrand s c u).get r = 0) ∧
      (getStrand s c u).get 4 = (if u = 0 then 128 <<< 16 else 0) ∧
      (getStrand s c u).get 12 = (if u = 0 then 1536 <<< 16 else 0)
end

