-- ==== Sys2Proof/Laws/Keyed.lean ====
section
/-! SUPPORT. Laws of the keyed lists and of memories: what is read after a write, and that every write keeps the canonical form. -/

namespace Sys2Proof.Laws

open Sys2Proof.Machine

variable {α : Type}

@[simp] theorem getK_nil (d : α) (k : Nat) : getK d [] k = d := rfl

@[simp] theorem getK_setK_self (d : α) (l : List (Nat × α)) (k : Nat) (v : α) : getK d (setK l k v) k = v := by
  induction l with
  | nil => simp [setK, getK]
  | cons e t ih =>
    obtain ⟨j, u⟩ := e
    by_cases h1 : k < j
    · simp [setK, getK, h1]
    · by_cases h2 : k = j
      · simp [setK, getK, h2]
      · simp [setK, getK, h1, h2, ih]

theorem getK_setK_ne (d : α) (l : List (Nat × α)) {k k' : Nat} (v : α) (h : k' ≠ k) :
    getK d (setK l k v) k' = getK d l k' := by
  induction l with
  | nil => simp [setK, getK, h]
  | cons e t ih =>
    obtain ⟨j, u⟩ := e
    by_cases h1 : k < j
    · simp [setK, getK, h1, h]
    · by_cases h2 : k = j
      · subst h2; simp [setK, getK, h]
      · simp [setK, getK, h1, h2, ih]

theorem getK_setK (d : α) (l : List (Nat × α)) (k k' : Nat) (v : α) :
    getK d (setK l k v) k' = if k' = k then v else getK d l k' := by
  by_cases h : k' = k
  · subst h; simp
  · simp [h, getK_setK_ne]

@[simp] theorem getK_delK_self (d : α) (l : List (Nat × α)) (k : Nat) : getK d (delK l k) k = d := by
  induction l with
  | nil => rfl
  | cons e t ih =>
    obtain ⟨j, u⟩ := e
    by_cases h : j = k
    · subst h; simpa [delK, getK] using ih
    · have : ¬ k = j := fun e => h e.symm
      simpa [delK, getK, h, this] using ih

theorem getK_delK_ne (d : α) (l : List (Nat × α)) {k k' : Nat} (h : k' ≠ k) : getK d (delK l k) k' = getK d l k' := by
  induction l with
  | nil => rfl
  | cons e t ih =>
    obtain ⟨j, u⟩ := e
    by_cases h1 : j = k
    · subst h1; simpa [delK, getK, h] using ih
    · by_cases h2 : k' = j
      · simp [delK, getK, h1, h2]
      · simpa [delK, getK, h1, h2] using ih

/-- What a value kept under a key satisfies, when every listed value and the default do. -/
theorem getK_induct (p : α → Prop) (d : α) (l : List (Nat × α)) (k : Nat) (hd : p d) (hl : ∀ e ∈ l, p e.2) :
    p (getK d l k) := by
  induction l with
  | nil => exact hd
  | cons e t ih =>
    obtain ⟨j, u⟩ := e
    by_cases h : k = j
    · simpa [getK, h] using hl (j, u) (by simp)
    · simpa [getK, h] using ih (fun e he => hl e (by simp [he]))

theorem mem_setK (l : List (Nat × α)) (k : Nat) (v : α) (e : Nat × α) (h : e ∈ setK l k v) : e = (k, v) ∨ e ∈ l := by
  induction l with
  | nil => simpa [setK] using h
  | cons f t ih =>
    obtain ⟨j, u⟩ := f
    by_cases h1 : k < j
    · simpa [setK, h1] using h
    · by_cases h2 : k = j
      · subst h2
        simp only [setK, lt_irrefl, if_true, if_false] at h
        rcases List.mem_cons.mp h with rfl | h
        · left; rfl
        · right; simp [h]
      · simp only [setK, h1, h2, if_false] at h
        rcases List.mem_cons.mp h with rfl | h
        · right; simp
        · rcases ih h with h | h
          · exact .inl h
          · right; simp [h]

/-! Rising keys. -/

theorem risingK_tail {e : Nat × α} {l : List (Nat × α)} (h : risingK (e :: l) = true) : risingK l = true := by
  cases l with
  | nil => rfl
  | cons f t => simp only [risingK, Bool.and_eq_true] at h; exact h.2

/-- Strictly rising lists are pairwise rising. -/
theorem risingK_iff (l : List (Nat × α)) : risingK l = true ↔ l.Pairwise (fun x y => x.1 < y.1) := by
  induction l with
  | nil => simp [risingK]
  | cons e t ih =>
    cases t with
    | nil => simp [risingK]
    | cons f t =>
      simp only [risingK, Bool.and_eq_true, decide_eq_true_eq, ih]
      constructor
      · rintro ⟨h1, h2⟩
        refine List.pairwise_cons.mpr ⟨fun x hx => ?_, h2⟩
        rcases List.mem_cons.mp hx with rfl | hx
        · exact h1
        · exact lt_trans h1 ((List.pairwise_cons.mp h2).1 x hx)
      · intro h
        obtain ⟨h1, h2⟩ := List.pairwise_cons.mp h
        exact ⟨h1 f (by simp), h2⟩

theorem risingK_setK (l : List (Nat × α)) (k : Nat) (v : α) (h : risingK l = true) : risingK (setK l k v) = true := by
  rw [risingK_iff] at h ⊢
  induction l with
  | nil => simp [setK]
  | cons e t ih =>
    obtain ⟨j, u⟩ := e
    obtain ⟨h1, h2⟩ := List.pairwise_cons.mp h
    by_cases hk : k < j
    · simp only [setK, hk, if_true]
      refine List.pairwise_cons.mpr ⟨fun x hx => ?_, h⟩
      rcases List.mem_cons.mp hx with rfl | hx
      · exact hk
      · exact lt_trans hk (h1 x hx)
    · by_cases hj : k = j
      · simp only [setK, hj, lt_irrefl, if_true, if_false]
        exact List.pairwise_cons.mpr ⟨fun x hx => h1 x hx, h2⟩
      · simp only [setK, hk, hj, if_false]
        refine List.pairwise_cons.mpr ⟨fun x hx => ?_, ih h2⟩
        rcases mem_setK _ _ _ _ hx with rfl | hx
        · show j < k; omega
        · exact h1 x hx

theorem risingK_delK (l : List (Nat × α)) (k : Nat) (h : risingK l = true) : risingK (delK l k) = true := by
  rw [risingK_iff] at h ⊢
  exact h.sublist List.filter_sublist

/-! Memories. -/

/-- A byte just written reads as written. -/
@[simp] theorem read_write_self (m : Memory) (a : Nat) (b : Byte) : (m.write a b).read a = b := by
  unfold Memory.write Memory.read
  split
  · next h => simp [h]
  · simp

/-- Every other byte reads as before. -/
theorem read_write_ne (m : Memory) {a a' : Nat} (b : Byte) (h : a' ≠ a) : (m.write a b).read a' = m.read a' := by
  unfold Memory.write Memory.read
  split
  · exact getK_delK_ne _ _ h
  · exact getK_setK_ne _ _ _ h

/-- Writing a byte keeps the canonical form. -/
theorem write_wf (m : Memory) (a : Nat) (b : Byte) (h : m.wf = true) : (m.write a b).wf = true := by
  simp only [Memory.wf, Bool.and_eq_true, List.all_eq_true] at h ⊢
  unfold Memory.write
  split
  · exact ⟨risingK_delK _ _ h.1, fun x hx => h.2 x (List.mem_filter.mp hx).1⟩
  · next hb =>
    refine ⟨risingK_setK _ _ _ h.1, fun x hx => ?_⟩
    rcases mem_setK _ _ _ _ hx with rfl | hx
    · simpa using hb
    · exact h.2 x hx

theorem writeN_wf (bs : List Byte) (m : Memory) (a : Nat) (h : m.wf = true) : (m.writeN a bs).wf = true := by
  induction bs generalizing m a with
  | nil => exact h
  | cons b bs ih => exact ih _ _ (write_wf m a b h)

theorem empty_wf : Memory.wf [] = true := rfl

/-- Bytes outside those written read as before. -/
theorem read_writeN_out (bs : List Byte) (m : Memory) (a a' : Nat) (h : a' < a ∨ a + bs.length ≤ a') :
    (m.writeN a bs).read a' = m.read a' := by
  induction bs generalizing m a with
  | nil => rfl
  | cons b bs ih =>
    simp only [List.length_cons] at h
    rw [Memory.writeN, ih _ _ (by omega), read_write_ne _ _ (by omega)]

/-- The bytes written read as written. -/
theorem readN_writeN (bs : List Byte) (m : Memory) (a : Nat) : (m.writeN a bs).readN a bs.length = bs := by
  induction bs generalizing m a with
  | nil => rfl
  | cons b bs ih =>
    simp only [List.length_cons, Memory.readN, Memory.writeN, ih]
    rw [read_writeN_out _ _ _ _ (by omega), read_write_self]

/-- A range that the written bytes do not touch reads as before. -/
theorem readN_writeN_out (n : Nat) (bs : List Byte) (m : Memory) (a a' : Nat) (h : a' + n ≤ a ∨ a + bs.length ≤ a') :
    (m.writeN a bs).readN a' n = m.readN a' n := by
  induction n generalizing a' with
  | zero => rfl
  | succ n ih =>
    rw [Memory.readN, Memory.readN, read_writeN_out _ _ _ _ (by omega), ih _ (by omega)]

/-- Two canonical memories that read alike are equal. -/
theorem memory_ext (m n : Memory) (hm : m.wf = true) (hn : n.wf = true) (h : ∀ a, m.read a = n.read a) : m = n := by
  simp only [Memory.wf, Bool.and_eq_true, List.all_eq_true, risingK_iff] at hm hn
  have get : ∀ (l : Memory), l.Pairwise (fun x y => x.1 < y.1) → ∀ x ∈ l, l.read x.1 = x.2 := by
    intro l hl x hx
    induction l with
    | nil => simp at hx
    | cons e t ih =>
      obtain ⟨j, u⟩ := e
      obtain ⟨h1, h2⟩ := List.pairwise_cons.mp hl
      rcases List.mem_cons.mp hx with rfl | hx
      · simp [Memory.read, getK]
      · have hlt : j < x.1 := h1 x hx
        have := ih h2 hx
        simpa [Memory.read, getK, Nat.ne_of_gt hlt] using this
  have absent : ∀ (l : Memory) (a : Nat), (∀ x ∈ l, x.1 ≠ a) → l.read a = Memory.blank := by
    intro l a hl
    induction l with
    | nil => rfl
    | cons e t ih =>
      obtain ⟨j, u⟩ := e
      have h1 : a ≠ j := fun e => hl (j, u) (by simp) e.symm
      simpa [Memory.read, getK, h1] using ih (fun x hx => hl x (by simp [hx]))
  have sub : ∀ (l k : Memory), l.Pairwise (fun x y => x.1 < y.1) → (∀ x ∈ l, (x.2 != Memory.blank) = true) →
      k.Pairwise (fun x y => x.1 < y.1) → (∀ a, l.read a = k.read a) → ∀ x ∈ l, x ∈ k := by
    intro l k hl hb hk he x hx
    have hr := get l hl x hx
    rw [he] at hr
    by_contra hn
    have : k.read x.1 = Memory.blank := by
      by_contra hc
      have : ∃ y ∈ k, y.1 = x.1 := by
        by_contra hno
        exact hc (absent k x.1 (fun y hy e => hno ⟨y, hy, e⟩))
      obtain ⟨y, hy, e⟩ := this
      have hy2 := get k hk y hy
      rw [e, hr] at hy2
      exact hn (by rw [show x = y from Prod.ext e.symm hy2]; exact hy)
    have hxb := hb x hx
    rw [← hr, this] at hxb
    simp at hxb
  have hp : m.Perm n := by
    rw [List.perm_ext_iff_of_nodup]
    · exact fun x => ⟨sub m n hm.1 hm.2 hn.1 h x, sub n m hn.1 hn.2 hm.1 (fun a => (h a).symm) x⟩
    · exact hm.1.imp (fun h => by intro e; subst e; exact lt_irrefl _ h)
    · exact hn.1.imp (fun h => by intro e; subst e; exact lt_irrefl _ h)
  exact hp.eq_of_pairwise (fun a b _ _ h1 h2 => absurd h1 (not_lt_of_gt h2)) hm.1 hn.1

end Sys2Proof.Laws
end

