-- ==== Sys2Proof/Laws/State.lean ====
section
/-! SUPPORT. What every update of the state, of a core and of a strand leaves and what it changes, field by field. -/

namespace Sys2Proof.Laws

open Sys2Proof.Machine


/-! `modCore`. -/

@[simp] theorem modCore_now (s : State) (c : Nat) (f : Core → Core) : (modCore s c f).now = s.now := rfl
@[simp] theorem modCore_turn (s : State) (c : Nat) (f : Core → Core) : (modCore s c f).turn = s.turn := rfl
@[simp] theorem modCore_fresh (s : State) (c : Nat) (f : Core → Core) : (modCore s c f).fresh = s.fresh := rfl
@[simp] theorem modCore_cur (s : State) (c : Nat) (f : Core → Core) : (modCore s c f).cur = s.cur := rfl
@[simp] theorem modCore_pend (s : State) (c : Nat) (f : Core → Core) : (modCore s c f).pend = s.pend := rfl
@[simp] theorem modCore_env (s : State) (c : Nat) (f : Core → Core) : (modCore s c f).env = s.env := rfl
@[simp] theorem modCore_replies (s : State) (c : Nat) (f : Core → Core) : (modCore s c f).replies = s.replies := rfl
@[simp] theorem modCore_looms (s : State) (c : Nat) (f : Core → Core) : (modCore s c f).looms = s.looms := rfl
@[simp] theorem modCore_mem (s : State) (c : Nat) (f : Core → Core) : (modCore s c f).mem = s.mem := rfl
@[simp] theorem modCore_tasks (s : State) (c : Nat) (f : Core → Core) : (modCore s c f).tasks = s.tasks := rfl
@[simp] theorem modCore_stampClock (s : State) (c : Nat) (f : Core → Core) : (modCore s c f).stampClock = s.stampClock := rfl
@[simp] theorem modCore_dies (s : State) (c : Nat) (f : Core → Core) : (modCore s c f).dies = s.dies := rfl
@[simp] theorem modCore_envAt (s : State) (c : Nat) (f : Core → Core) : (modCore s c f).envAt = s.envAt := rfl
@[simp] theorem modCore_readWaits (s : State) (c : Nat) (f : Core → Core) : (modCore s c f).readWaits = s.readWaits := rfl
@[simp] theorem modCore_nodes (s : State) (c : Nat) (f : Core → Core) : (modCore s c f).nodes = s.nodes := rfl
@[simp] theorem modCore_linHeld (s : State) (c : Nat) (f : Core → Core) : (modCore s c f).linHeld = s.linHeld := rfl
@[simp] theorem modCore_linCnt (s : State) (c : Nat) (f : Core → Core) : (modCore s c f).linCnt = s.linCnt := rfl
@[simp] theorem modCore_locks (s : State) (c : Nat) (f : Core → Core) : (modCore s c f).locks = s.locks := rfl
@[simp] theorem modCore_seqs (s : State) (c : Nat) (f : Core → Core) : (modCore s c f).seqs = s.seqs := rfl
@[simp] theorem modCore_pagesOut (s : State) (c : Nat) (f : Core → Core) : (modCore s c f).pagesOut = s.pagesOut := rfl
@[simp] theorem modCore_pagesResv (s : State) (c : Nat) (f : Core → Core) : (modCore s c f).pagesResv = s.pagesResv := rfl
@[simp] theorem modCore_tables (s : State) (c : Nat) (f : Core → Core) : (modCore s c f).tables = s.tables := rfl
@[simp] theorem modCore_seqCount (s : State) (c : Nat) (f : Core → Core) : (modCore s c f).seqCount = s.seqCount := rfl
@[simp] theorem modCore_commitNext (s : State) (c : Nat) (f : Core → Core) : (modCore s c f).commitNext = s.commitNext := rfl
@[simp] theorem modCore_mgmt (s : State) (c : Nat) (f : Core → Core) : (modCore s c f).mgmt = s.mgmt := rfl

/-! `modStrand`. -/

@[simp] theorem modStrand_now (s : State) (c t : Nat) (f : Strand → Strand) : (modStrand s c t f).now = s.now := rfl
@[simp] theorem modStrand_turn (s : State) (c t : Nat) (f : Strand → Strand) : (modStrand s c t f).turn = s.turn := rfl
@[simp] theorem modStrand_fresh (s : State) (c t : Nat) (f : Strand → Strand) : (modStrand s c t f).fresh = s.fresh := rfl
@[simp] theorem modStrand_cur (s : State) (c t : Nat) (f : Strand → Strand) : (modStrand s c t f).cur = s.cur := rfl
@[simp] theorem modStrand_pend (s : State) (c t : Nat) (f : Strand → Strand) : (modStrand s c t f).pend = s.pend := rfl
@[simp] theorem modStrand_env (s : State) (c t : Nat) (f : Strand → Strand) : (modStrand s c t f).env = s.env := rfl
@[simp] theorem modStrand_replies (s : State) (c t : Nat) (f : Strand → Strand) : (modStrand s c t f).replies = s.replies := rfl
@[simp] theorem modStrand_looms (s : State) (c t : Nat) (f : Strand → Strand) : (modStrand s c t f).looms = s.looms := rfl
@[simp] theorem modStrand_mem (s : State) (c t : Nat) (f : Strand → Strand) : (modStrand s c t f).mem = s.mem := rfl
@[simp] theorem modStrand_tasks (s : State) (c t : Nat) (f : Strand → Strand) : (modStrand s c t f).tasks = s.tasks := rfl
@[simp] theorem modStrand_stampClock (s : State) (c t : Nat) (f : Strand → Strand) : (modStrand s c t f).stampClock = s.stampClock := rfl
@[simp] theorem modStrand_dies (s : State) (c t : Nat) (f : Strand → Strand) : (modStrand s c t f).dies = s.dies := rfl
@[simp] theorem modStrand_envAt (s : State) (c t : Nat) (f : Strand → Strand) : (modStrand s c t f).envAt = s.envAt := rfl
@[simp] theorem modStrand_readWaits (s : State) (c t : Nat) (f : Strand → Strand) : (modStrand s c t f).readWaits = s.readWaits := rfl
@[simp] theorem modStrand_nodes (s : State) (c t : Nat) (f : Strand → Strand) : (modStrand s c t f).nodes = s.nodes := rfl
@[simp] theorem modStrand_linHeld (s : State) (c t : Nat) (f : Strand → Strand) : (modStrand s c t f).linHeld = s.linHeld := rfl
@[simp] theorem modStrand_linCnt (s : State) (c t : Nat) (f : Strand → Strand) : (modStrand s c t f).linCnt = s.linCnt := rfl
@[simp] theorem modStrand_locks (s : State) (c t : Nat) (f : Strand → Strand) : (modStrand s c t f).locks = s.locks := rfl
@[simp] theorem modStrand_seqs (s : State) (c t : Nat) (f : Strand → Strand) : (modStrand s c t f).seqs = s.seqs := rfl
@[simp] theorem modStrand_pagesOut (s : State) (c t : Nat) (f : Strand → Strand) : (modStrand s c t f).pagesOut = s.pagesOut := rfl
@[simp] theorem modStrand_pagesResv (s : State) (c t : Nat) (f : Strand → Strand) : (modStrand s c t f).pagesResv = s.pagesResv := rfl
@[simp] theorem modStrand_tables (s : State) (c t : Nat) (f : Strand → Strand) : (modStrand s c t f).tables = s.tables := rfl
@[simp] theorem modStrand_seqCount (s : State) (c t : Nat) (f : Strand → Strand) : (modStrand s c t f).seqCount = s.seqCount := rfl
@[simp] theorem modStrand_commitNext (s : State) (c t : Nat) (f : Strand → Strand) : (modStrand s c t f).commitNext = s.commitNext := rfl
@[simp] theorem modStrand_mgmt (s : State) (c t : Nat) (f : Strand → Strand) : (modStrand s c t f).mgmt = s.mgmt := rfl

/-! `perfAdd`. -/

@[simp] theorem perfAdd_now (s : State) (c i n : Nat) : (Machine.perfAdd s c i n).now = s.now := rfl
@[simp] theorem perfAdd_turn (s : State) (c i n : Nat) : (Machine.perfAdd s c i n).turn = s.turn := rfl
@[simp] theorem perfAdd_fresh (s : State) (c i n : Nat) : (Machine.perfAdd s c i n).fresh = s.fresh := rfl
@[simp] theorem perfAdd_cur (s : State) (c i n : Nat) : (Machine.perfAdd s c i n).cur = s.cur := rfl
@[simp] theorem perfAdd_pend (s : State) (c i n : Nat) : (Machine.perfAdd s c i n).pend = s.pend := rfl
@[simp] theorem perfAdd_env (s : State) (c i n : Nat) : (Machine.perfAdd s c i n).env = s.env := rfl
@[simp] theorem perfAdd_replies (s : State) (c i n : Nat) : (Machine.perfAdd s c i n).replies = s.replies := rfl
@[simp] theorem perfAdd_looms (s : State) (c i n : Nat) : (Machine.perfAdd s c i n).looms = s.looms := rfl
@[simp] theorem perfAdd_mem (s : State) (c i n : Nat) : (Machine.perfAdd s c i n).mem = s.mem := rfl
@[simp] theorem perfAdd_tasks (s : State) (c i n : Nat) : (Machine.perfAdd s c i n).tasks = s.tasks := rfl
@[simp] theorem perfAdd_stampClock (s : State) (c i n : Nat) : (Machine.perfAdd s c i n).stampClock = s.stampClock := rfl
@[simp] theorem perfAdd_dies (s : State) (c i n : Nat) : (Machine.perfAdd s c i n).dies = s.dies := rfl
@[simp] theorem perfAdd_envAt (s : State) (c i n : Nat) : (Machine.perfAdd s c i n).envAt = s.envAt := rfl
@[simp] theorem perfAdd_readWaits (s : State) (c i n : Nat) : (Machine.perfAdd s c i n).readWaits = s.readWaits := rfl
@[simp] theorem perfAdd_nodes (s : State) (c i n : Nat) : (Machine.perfAdd s c i n).nodes = s.nodes := rfl
@[simp] theorem perfAdd_linHeld (s : State) (c i n : Nat) : (Machine.perfAdd s c i n).linHeld = s.linHeld := rfl
@[simp] theorem perfAdd_linCnt (s : State) (c i n : Nat) : (Machine.perfAdd s c i n).linCnt = s.linCnt := rfl
@[simp] theorem perfAdd_locks (s : State) (c i n : Nat) : (Machine.perfAdd s c i n).locks = s.locks := rfl
@[simp] theorem perfAdd_seqs (s : State) (c i n : Nat) : (Machine.perfAdd s c i n).seqs = s.seqs := rfl
@[simp] theorem perfAdd_pagesOut (s : State) (c i n : Nat) : (Machine.perfAdd s c i n).pagesOut = s.pagesOut := rfl
@[simp] theorem perfAdd_pagesResv (s : State) (c i n : Nat) : (Machine.perfAdd s c i n).pagesResv = s.pagesResv := rfl
@[simp] theorem perfAdd_tables (s : State) (c i n : Nat) : (Machine.perfAdd s c i n).tables = s.tables := rfl
@[simp] theorem perfAdd_seqCount (s : State) (c i n : Nat) : (Machine.perfAdd s c i n).seqCount = s.seqCount := rfl
@[simp] theorem perfAdd_commitNext (s : State) (c i n : Nat) : (Machine.perfAdd s c i n).commitNext = s.commitNext := rfl
@[simp] theorem perfAdd_mgmt (s : State) (c i n : Nat) : (Machine.perfAdd s c i n).mgmt = s.mgmt := rfl

/-! `lsWrite`. -/

@[simp] theorem lsWrite_now (s : State) (c off : Nat) (bs : List Byte) : (lsWrite s c off bs).now = s.now := rfl
@[simp] theorem lsWrite_turn (s : State) (c off : Nat) (bs : List Byte) : (lsWrite s c off bs).turn = s.turn := rfl
@[simp] theorem lsWrite_fresh (s : State) (c off : Nat) (bs : List Byte) : (lsWrite s c off bs).fresh = s.fresh := rfl
@[simp] theorem lsWrite_cur (s : State) (c off : Nat) (bs : List Byte) : (lsWrite s c off bs).cur = s.cur := rfl
@[simp] theorem lsWrite_pend (s : State) (c off : Nat) (bs : List Byte) : (lsWrite s c off bs).pend = s.pend := rfl
@[simp] theorem lsWrite_env (s : State) (c off : Nat) (bs : List Byte) : (lsWrite s c off bs).env = s.env := rfl
@[simp] theorem lsWrite_replies (s : State) (c off : Nat) (bs : List Byte) : (lsWrite s c off bs).replies = s.replies := rfl
@[simp] theorem lsWrite_looms (s : State) (c off : Nat) (bs : List Byte) : (lsWrite s c off bs).looms = s.looms := rfl
@[simp] theorem lsWrite_mem (s : State) (c off : Nat) (bs : List Byte) : (lsWrite s c off bs).mem = s.mem := rfl
@[simp] theorem lsWrite_tasks (s : State) (c off : Nat) (bs : List Byte) : (lsWrite s c off bs).tasks = s.tasks := rfl
@[simp] theorem lsWrite_stampClock (s : State) (c off : Nat) (bs : List Byte) : (lsWrite s c off bs).stampClock = s.stampClock := rfl
@[simp] theorem lsWrite_dies (s : State) (c off : Nat) (bs : List Byte) : (lsWrite s c off bs).dies = s.dies := rfl
@[simp] theorem lsWrite_envAt (s : State) (c off : Nat) (bs : List Byte) : (lsWrite s c off bs).envAt = s.envAt := rfl
@[simp] theorem lsWrite_readWaits (s : State) (c off : Nat) (bs : List Byte) : (lsWrite s c off bs).readWaits = s.readWaits := rfl
@[simp] theorem lsWrite_nodes (s : State) (c off : Nat) (bs : List Byte) : (lsWrite s c off bs).nodes = s.nodes := rfl
@[simp] theorem lsWrite_linHeld (s : State) (c off : Nat) (bs : List Byte) : (lsWrite s c off bs).linHeld = s.linHeld := rfl
@[simp] theorem lsWrite_linCnt (s : State) (c off : Nat) (bs : List Byte) : (lsWrite s c off bs).linCnt = s.linCnt := rfl
@[simp] theorem lsWrite_locks (s : State) (c off : Nat) (bs : List Byte) : (lsWrite s c off bs).locks = s.locks := rfl
@[simp] theorem lsWrite_seqs (s : State) (c off : Nat) (bs : List Byte) : (lsWrite s c off bs).seqs = s.seqs := rfl
@[simp] theorem lsWrite_pagesOut (s : State) (c off : Nat) (bs : List Byte) : (lsWrite s c off bs).pagesOut = s.pagesOut := rfl
@[simp] theorem lsWrite_pagesResv (s : State) (c off : Nat) (bs : List Byte) : (lsWrite s c off bs).pagesResv = s.pagesResv := rfl
@[simp] theorem lsWrite_tables (s : State) (c off : Nat) (bs : List Byte) : (lsWrite s c off bs).tables = s.tables := rfl
@[simp] theorem lsWrite_seqCount (s : State) (c off : Nat) (bs : List Byte) : (lsWrite s c off bs).seqCount = s.seqCount := rfl
@[simp] theorem lsWrite_commitNext (s : State) (c off : Nat) (bs : List Byte) : (lsWrite s c off bs).commitNext = s.commitNext := rfl
@[simp] theorem lsWrite_mgmt (s : State) (c off : Nat) (bs : List Byte) : (lsWrite s c off bs).mgmt = s.mgmt := rfl

/-! `modLoom`. -/

@[simp] theorem modLoom_now (s : State) (l : Nat) (f : Loom → Loom) : (modLoom s l f).now = s.now := rfl
@[simp] theorem modLoom_turn (s : State) (l : Nat) (f : Loom → Loom) : (modLoom s l f).turn = s.turn := rfl
@[simp] theorem modLoom_fresh (s : State) (l : Nat) (f : Loom → Loom) : (modLoom s l f).fresh = s.fresh := rfl
@[simp] theorem modLoom_cur (s : State) (l : Nat) (f : Loom → Loom) : (modLoom s l f).cur = s.cur := rfl
@[simp] theorem modLoom_pend (s : State) (l : Nat) (f : Loom → Loom) : (modLoom s l f).pend = s.pend := rfl
@[simp] theorem modLoom_env (s : State) (l : Nat) (f : Loom → Loom) : (modLoom s l f).env = s.env := rfl
@[simp] theorem modLoom_replies (s : State) (l : Nat) (f : Loom → Loom) : (modLoom s l f).replies = s.replies := rfl
@[simp] theorem modLoom_cores (s : State) (l : Nat) (f : Loom → Loom) : (modLoom s l f).cores = s.cores := rfl
@[simp] theorem modLoom_mem (s : State) (l : Nat) (f : Loom → Loom) : (modLoom s l f).mem = s.mem := rfl
@[simp] theorem modLoom_tasks (s : State) (l : Nat) (f : Loom → Loom) : (modLoom s l f).tasks = s.tasks := rfl
@[simp] theorem modLoom_stampClock (s : State) (l : Nat) (f : Loom → Loom) : (modLoom s l f).stampClock = s.stampClock := rfl
@[simp] theorem modLoom_dies (s : State) (l : Nat) (f : Loom → Loom) : (modLoom s l f).dies = s.dies := rfl
@[simp] theorem modLoom_envAt (s : State) (l : Nat) (f : Loom → Loom) : (modLoom s l f).envAt = s.envAt := rfl
@[simp] theorem modLoom_readWaits (s : State) (l : Nat) (f : Loom → Loom) : (modLoom s l f).readWaits = s.readWaits := rfl
@[simp] theorem modLoom_nodes (s : State) (l : Nat) (f : Loom → Loom) : (modLoom s l f).nodes = s.nodes := rfl
@[simp] theorem modLoom_linHeld (s : State) (l : Nat) (f : Loom → Loom) : (modLoom s l f).linHeld = s.linHeld := rfl
@[simp] theorem modLoom_linCnt (s : State) (l : Nat) (f : Loom → Loom) : (modLoom s l f).linCnt = s.linCnt := rfl
@[simp] theorem modLoom_locks (s : State) (l : Nat) (f : Loom → Loom) : (modLoom s l f).locks = s.locks := rfl
@[simp] theorem modLoom_seqs (s : State) (l : Nat) (f : Loom → Loom) : (modLoom s l f).seqs = s.seqs := rfl
@[simp] theorem modLoom_pagesOut (s : State) (l : Nat) (f : Loom → Loom) : (modLoom s l f).pagesOut = s.pagesOut := rfl
@[simp] theorem modLoom_pagesResv (s : State) (l : Nat) (f : Loom → Loom) : (modLoom s l f).pagesResv = s.pagesResv := rfl
@[simp] theorem modLoom_tables (s : State) (l : Nat) (f : Loom → Loom) : (modLoom s l f).tables = s.tables := rfl
@[simp] theorem modLoom_seqCount (s : State) (l : Nat) (f : Loom → Loom) : (modLoom s l f).seqCount = s.seqCount := rfl
@[simp] theorem modLoom_commitNext (s : State) (l : Nat) (f : Loom → Loom) : (modLoom s l f).commitNext = s.commitNext := rfl
@[simp] theorem modLoom_mgmt (s : State) (l : Nat) (f : Loom → Loom) : (modLoom s l f).mgmt = s.mgmt := rfl

/-! `modDie`. -/

@[simp] theorem modDie_now (s : State) (d : Nat) (f : Die → Die) : (modDie s d f).now = s.now := rfl
@[simp] theorem modDie_turn (s : State) (d : Nat) (f : Die → Die) : (modDie s d f).turn = s.turn := rfl
@[simp] theorem modDie_fresh (s : State) (d : Nat) (f : Die → Die) : (modDie s d f).fresh = s.fresh := rfl
@[simp] theorem modDie_cur (s : State) (d : Nat) (f : Die → Die) : (modDie s d f).cur = s.cur := rfl
@[simp] theorem modDie_pend (s : State) (d : Nat) (f : Die → Die) : (modDie s d f).pend = s.pend := rfl
@[simp] theorem modDie_env (s : State) (d : Nat) (f : Die → Die) : (modDie s d f).env = s.env := rfl
@[simp] theorem modDie_replies (s : State) (d : Nat) (f : Die → Die) : (modDie s d f).replies = s.replies := rfl
@[simp] theorem modDie_cores (s : State) (d : Nat) (f : Die → Die) : (modDie s d f).cores = s.cores := rfl
@[simp] theorem modDie_looms (s : State) (d : Nat) (f : Die → Die) : (modDie s d f).looms = s.looms := rfl
@[simp] theorem modDie_mem (s : State) (d : Nat) (f : Die → Die) : (modDie s d f).mem = s.mem := rfl
@[simp] theorem modDie_tasks (s : State) (d : Nat) (f : Die → Die) : (modDie s d f).tasks = s.tasks := rfl
@[simp] theorem modDie_stampClock (s : State) (d : Nat) (f : Die → Die) : (modDie s d f).stampClock = s.stampClock := rfl
@[simp] theorem modDie_envAt (s : State) (d : Nat) (f : Die → Die) : (modDie s d f).envAt = s.envAt := rfl
@[simp] theorem modDie_readWaits (s : State) (d : Nat) (f : Die → Die) : (modDie s d f).readWaits = s.readWaits := rfl
@[simp] theorem modDie_nodes (s : State) (d : Nat) (f : Die → Die) : (modDie s d f).nodes = s.nodes := rfl
@[simp] theorem modDie_linHeld (s : State) (d : Nat) (f : Die → Die) : (modDie s d f).linHeld = s.linHeld := rfl
@[simp] theorem modDie_linCnt (s : State) (d : Nat) (f : Die → Die) : (modDie s d f).linCnt = s.linCnt := rfl
@[simp] theorem modDie_locks (s : State) (d : Nat) (f : Die → Die) : (modDie s d f).locks = s.locks := rfl
@[simp] theorem modDie_seqs (s : State) (d : Nat) (f : Die → Die) : (modDie s d f).seqs = s.seqs := rfl
@[simp] theorem modDie_pagesOut (s : State) (d : Nat) (f : Die → Die) : (modDie s d f).pagesOut = s.pagesOut := rfl
@[simp] theorem modDie_pagesResv (s : State) (d : Nat) (f : Die → Die) : (modDie s d f).pagesResv = s.pagesResv := rfl
@[simp] theorem modDie_tables (s : State) (d : Nat) (f : Die → Die) : (modDie s d f).tables = s.tables := rfl
@[simp] theorem modDie_seqCount (s : State) (d : Nat) (f : Die → Die) : (modDie s d f).seqCount = s.seqCount := rfl
@[simp] theorem modDie_commitNext (s : State) (d : Nat) (f : Die → Die) : (modDie s d f).commitNext = s.commitNext := rfl
@[simp] theorem modDie_mgmt (s : State) (d : Nat) (f : Die → Die) : (modDie s d f).mgmt = s.mgmt := rfl

/-! `modTask`. -/

@[simp] theorem modTask_now (s : State) (r : Nat) (f : Task → Task) : (modTask s r f).now = s.now := rfl
@[simp] theorem modTask_turn (s : State) (r : Nat) (f : Task → Task) : (modTask s r f).turn = s.turn := rfl
@[simp] theorem modTask_fresh (s : State) (r : Nat) (f : Task → Task) : (modTask s r f).fresh = s.fresh := rfl
@[simp] theorem modTask_cur (s : State) (r : Nat) (f : Task → Task) : (modTask s r f).cur = s.cur := rfl
@[simp] theorem modTask_pend (s : State) (r : Nat) (f : Task → Task) : (modTask s r f).pend = s.pend := rfl
@[simp] theorem modTask_env (s : State) (r : Nat) (f : Task → Task) : (modTask s r f).env = s.env := rfl
@[simp] theorem modTask_replies (s : State) (r : Nat) (f : Task → Task) : (modTask s r f).replies = s.replies := rfl
@[simp] theorem modTask_cores (s : State) (r : Nat) (f : Task → Task) : (modTask s r f).cores = s.cores := rfl
@[simp] theorem modTask_looms (s : State) (r : Nat) (f : Task → Task) : (modTask s r f).looms = s.looms := rfl
@[simp] theorem modTask_mem (s : State) (r : Nat) (f : Task → Task) : (modTask s r f).mem = s.mem := rfl
@[simp] theorem modTask_stampClock (s : State) (r : Nat) (f : Task → Task) : (modTask s r f).stampClock = s.stampClock := rfl
@[simp] theorem modTask_dies (s : State) (r : Nat) (f : Task → Task) : (modTask s r f).dies = s.dies := rfl
@[simp] theorem modTask_envAt (s : State) (r : Nat) (f : Task → Task) : (modTask s r f).envAt = s.envAt := rfl
@[simp] theorem modTask_readWaits (s : State) (r : Nat) (f : Task → Task) : (modTask s r f).readWaits = s.readWaits := rfl
@[simp] theorem modTask_nodes (s : State) (r : Nat) (f : Task → Task) : (modTask s r f).nodes = s.nodes := rfl
@[simp] theorem modTask_linHeld (s : State) (r : Nat) (f : Task → Task) : (modTask s r f).linHeld = s.linHeld := rfl
@[simp] theorem modTask_linCnt (s : State) (r : Nat) (f : Task → Task) : (modTask s r f).linCnt = s.linCnt := rfl
@[simp] theorem modTask_locks (s : State) (r : Nat) (f : Task → Task) : (modTask s r f).locks = s.locks := rfl
@[simp] theorem modTask_seqs (s : State) (r : Nat) (f : Task → Task) : (modTask s r f).seqs = s.seqs := rfl
@[simp] theorem modTask_pagesOut (s : State) (r : Nat) (f : Task → Task) : (modTask s r f).pagesOut = s.pagesOut := rfl
@[simp] theorem modTask_pagesResv (s : State) (r : Nat) (f : Task → Task) : (modTask s r f).pagesResv = s.pagesResv := rfl
@[simp] theorem modTask_tables (s : State) (r : Nat) (f : Task → Task) : (modTask s r f).tables = s.tables := rfl
@[simp] theorem modTask_seqCount (s : State) (r : Nat) (f : Task → Task) : (modTask s r f).seqCount = s.seqCount := rfl
@[simp] theorem modTask_commitNext (s : State) (r : Nat) (f : Task → Task) : (modTask s r f).commitNext = s.commitNext := rfl
@[simp] theorem modTask_mgmt (s : State) (r : Nat) (f : Task → Task) : (modTask s r f).mgmt = s.mgmt := rfl

/-! `modNode`. -/

@[simp] theorem modNode_now (s : State) (n : Nat) (f : Node → Node) : (modNode s n f).now = s.now := rfl
@[simp] theorem modNode_turn (s : State) (n : Nat) (f : Node → Node) : (modNode s n f).turn = s.turn := rfl
@[simp] theorem modNode_fresh (s : State) (n : Nat) (f : Node → Node) : (modNode s n f).fresh = s.fresh := rfl
@[simp] theorem modNode_cur (s : State) (n : Nat) (f : Node → Node) : (modNode s n f).cur = s.cur := rfl
@[simp] theorem modNode_pend (s : State) (n : Nat) (f : Node → Node) : (modNode s n f).pend = s.pend := rfl
@[simp] theorem modNode_env (s : State) (n : Nat) (f : Node → Node) : (modNode s n f).env = s.env := rfl
@[simp] theorem modNode_replies (s : State) (n : Nat) (f : Node → Node) : (modNode s n f).replies = s.replies := rfl
@[simp] theorem modNode_cores (s : State) (n : Nat) (f : Node → Node) : (modNode s n f).cores = s.cores := rfl
@[simp] theorem modNode_looms (s : State) (n : Nat) (f : Node → Node) : (modNode s n f).looms = s.looms := rfl
@[simp] theorem modNode_mem (s : State) (n : Nat) (f : Node → Node) : (modNode s n f).mem = s.mem := rfl
@[simp] theorem modNode_tasks (s : State) (n : Nat) (f : Node → Node) : (modNode s n f).tasks = s.tasks := rfl
@[simp] theorem modNode_stampClock (s : State) (n : Nat) (f : Node → Node) : (modNode s n f).stampClock = s.stampClock := rfl
@[simp] theorem modNode_dies (s : State) (n : Nat) (f : Node → Node) : (modNode s n f).dies = s.dies := rfl
@[simp] theorem modNode_envAt (s : State) (n : Nat) (f : Node → Node) : (modNode s n f).envAt = s.envAt := rfl
@[simp] theorem modNode_readWaits (s : State) (n : Nat) (f : Node → Node) : (modNode s n f).readWaits = s.readWaits := rfl
@[simp] theorem modNode_linHeld (s : State) (n : Nat) (f : Node → Node) : (modNode s n f).linHeld = s.linHeld := rfl
@[simp] theorem modNode_linCnt (s : State) (n : Nat) (f : Node → Node) : (modNode s n f).linCnt = s.linCnt := rfl
@[simp] theorem modNode_locks (s : State) (n : Nat) (f : Node → Node) : (modNode s n f).locks = s.locks := rfl
@[simp] theorem modNode_seqs (s : State) (n : Nat) (f : Node → Node) : (modNode s n f).seqs = s.seqs := rfl
@[simp] theorem modNode_pagesOut (s : State) (n : Nat) (f : Node → Node) : (modNode s n f).pagesOut = s.pagesOut := rfl
@[simp] theorem modNode_pagesResv (s : State) (n : Nat) (f : Node → Node) : (modNode s n f).pagesResv = s.pagesResv := rfl
@[simp] theorem modNode_tables (s : State) (n : Nat) (f : Node → Node) : (modNode s n f).tables = s.tables := rfl
@[simp] theorem modNode_seqCount (s : State) (n : Nat) (f : Node → Node) : (modNode s n f).seqCount = s.seqCount := rfl
@[simp] theorem modNode_commitNext (s : State) (n : Nat) (f : Node → Node) : (modNode s n f).commitNext = s.commitNext := rfl
@[simp] theorem modNode_mgmt (s : State) (n : Nat) (f : Node → Node) : (modNode s n f).mgmt = s.mgmt := rfl

/-! `sched`. -/

@[simp] theorem sched_now (s : State) (due : Nat) (ev : Instr) : (sched s due ev).now = s.now := rfl
@[simp] theorem sched_turn (s : State) (due : Nat) (ev : Instr) : (sched s due ev).turn = s.turn := rfl
@[simp] theorem sched_fresh (s : State) (due : Nat) (ev : Instr) : (sched s due ev).fresh = s.fresh := rfl
@[simp] theorem sched_cur (s : State) (due : Nat) (ev : Instr) : (sched s due ev).cur = s.cur := rfl
@[simp] theorem sched_env (s : State) (due : Nat) (ev : Instr) : (sched s due ev).env = s.env := rfl
@[simp] theorem sched_replies (s : State) (due : Nat) (ev : Instr) : (sched s due ev).replies = s.replies := rfl
@[simp] theorem sched_cores (s : State) (due : Nat) (ev : Instr) : (sched s due ev).cores = s.cores := rfl
@[simp] theorem sched_looms (s : State) (due : Nat) (ev : Instr) : (sched s due ev).looms = s.looms := rfl
@[simp] theorem sched_mem (s : State) (due : Nat) (ev : Instr) : (sched s due ev).mem = s.mem := rfl
@[simp] theorem sched_tasks (s : State) (due : Nat) (ev : Instr) : (sched s due ev).tasks = s.tasks := rfl
@[simp] theorem sched_stampClock (s : State) (due : Nat) (ev : Instr) : (sched s due ev).stampClock = s.stampClock := rfl
@[simp] theorem sched_dies (s : State) (due : Nat) (ev : Instr) : (sched s due ev).dies = s.dies := rfl
@[simp] theorem sched_envAt (s : State) (due : Nat) (ev : Instr) : (sched s due ev).envAt = s.envAt := rfl
@[simp] theorem sched_readWaits (s : State) (due : Nat) (ev : Instr) : (sched s due ev).readWaits = s.readWaits := rfl
@[simp] theorem sched_nodes (s : State) (due : Nat) (ev : Instr) : (sched s due ev).nodes = s.nodes := rfl
@[simp] theorem sched_linHeld (s : State) (due : Nat) (ev : Instr) : (sched s due ev).linHeld = s.linHeld := rfl
@[simp] theorem sched_linCnt (s : State) (due : Nat) (ev : Instr) : (sched s due ev).linCnt = s.linCnt := rfl
@[simp] theorem sched_locks (s : State) (due : Nat) (ev : Instr) : (sched s due ev).locks = s.locks := rfl
@[simp] theorem sched_seqs (s : State) (due : Nat) (ev : Instr) : (sched s due ev).seqs = s.seqs := rfl
@[simp] theorem sched_pagesOut (s : State) (due : Nat) (ev : Instr) : (sched s due ev).pagesOut = s.pagesOut := rfl
@[simp] theorem sched_pagesResv (s : State) (due : Nat) (ev : Instr) : (sched s due ev).pagesResv = s.pagesResv := rfl
@[simp] theorem sched_tables (s : State) (due : Nat) (ev : Instr) : (sched s due ev).tables = s.tables := rfl
@[simp] theorem sched_seqCount (s : State) (due : Nat) (ev : Instr) : (sched s due ev).seqCount = s.seqCount := rfl
@[simp] theorem sched_commitNext (s : State) (due : Nat) (ev : Instr) : (sched s due ev).commitNext = s.commitNext := rfl
@[simp] theorem sched_mgmt (s : State) (due : Nat) (ev : Instr) : (sched s due ev).mgmt = s.mgmt := rfl

/-! `reply`. -/

@[simp] theorem reply_now (s : State) (id : Nat) (ws : List Word) : (reply s id ws).now = s.now := rfl
@[simp] theorem reply_turn (s : State) (id : Nat) (ws : List Word) : (reply s id ws).turn = s.turn := rfl
@[simp] theorem reply_fresh (s : State) (id : Nat) (ws : List Word) : (reply s id ws).fresh = s.fresh := rfl
@[simp] theorem reply_cur (s : State) (id : Nat) (ws : List Word) : (reply s id ws).cur = s.cur := rfl
@[simp] theorem reply_pend (s : State) (id : Nat) (ws : List Word) : (reply s id ws).pend = s.pend := rfl
@[simp] theorem reply_env (s : State) (id : Nat) (ws : List Word) : (reply s id ws).env = s.env := rfl
@[simp] theorem reply_cores (s : State) (id : Nat) (ws : List Word) : (reply s id ws).cores = s.cores := rfl
@[simp] theorem reply_looms (s : State) (id : Nat) (ws : List Word) : (reply s id ws).looms = s.looms := rfl
@[simp] theorem reply_mem (s : State) (id : Nat) (ws : List Word) : (reply s id ws).mem = s.mem := rfl
@[simp] theorem reply_tasks (s : State) (id : Nat) (ws : List Word) : (reply s id ws).tasks = s.tasks := rfl
@[simp] theorem reply_stampClock (s : State) (id : Nat) (ws : List Word) : (reply s id ws).stampClock = s.stampClock := rfl
@[simp] theorem reply_dies (s : State) (id : Nat) (ws : List Word) : (reply s id ws).dies = s.dies := rfl
@[simp] theorem reply_envAt (s : State) (id : Nat) (ws : List Word) : (reply s id ws).envAt = s.envAt := rfl
@[simp] theorem reply_readWaits (s : State) (id : Nat) (ws : List Word) : (reply s id ws).readWaits = s.readWaits := rfl
@[simp] theorem reply_nodes (s : State) (id : Nat) (ws : List Word) : (reply s id ws).nodes = s.nodes := rfl
@[simp] theorem reply_linHeld (s : State) (id : Nat) (ws : List Word) : (reply s id ws).linHeld = s.linHeld := rfl
@[simp] theorem reply_linCnt (s : State) (id : Nat) (ws : List Word) : (reply s id ws).linCnt = s.linCnt := rfl
@[simp] theorem reply_locks (s : State) (id : Nat) (ws : List Word) : (reply s id ws).locks = s.locks := rfl
@[simp] theorem reply_seqs (s : State) (id : Nat) (ws : List Word) : (reply s id ws).seqs = s.seqs := rfl
@[simp] theorem reply_pagesOut (s : State) (id : Nat) (ws : List Word) : (reply s id ws).pagesOut = s.pagesOut := rfl
@[simp] theorem reply_pagesResv (s : State) (id : Nat) (ws : List Word) : (reply s id ws).pagesResv = s.pagesResv := rfl
@[simp] theorem reply_tables (s : State) (id : Nat) (ws : List Word) : (reply s id ws).tables = s.tables := rfl
@[simp] theorem reply_seqCount (s : State) (id : Nat) (ws : List Word) : (reply s id ws).seqCount = s.seqCount := rfl
@[simp] theorem reply_commitNext (s : State) (id : Nat) (ws : List Word) : (reply s id ws).commitNext = s.commitNext := rfl
@[simp] theorem reply_mgmt (s : State) (id : Nat) (ws : List Word) : (reply s id ws).mgmt = s.mgmt := rfl

/-! `memWrite`. -/

@[simp] theorem memWrite_now (s : State) (pa : Nat) (bs : List Byte) : (memWrite s pa bs).now = s.now := rfl
@[simp] theorem memWrite_turn (s : State) (pa : Nat) (bs : List Byte) : (memWrite s pa bs).turn = s.turn := rfl
@[simp] theorem memWrite_fresh (s : State) (pa : Nat) (bs : List Byte) : (memWrite s pa bs).fresh = s.fresh := rfl
@[simp] theorem memWrite_cur (s : State) (pa : Nat) (bs : List Byte) : (memWrite s pa bs).cur = s.cur := rfl
@[simp] theorem memWrite_pend (s : State) (pa : Nat) (bs : List Byte) : (memWrite s pa bs).pend = s.pend := rfl
@[simp] theorem memWrite_env (s : State) (pa : Nat) (bs : List Byte) : (memWrite s pa bs).env = s.env := rfl
@[simp] theorem memWrite_replies (s : State) (pa : Nat) (bs : List Byte) : (memWrite s pa bs).replies = s.replies := rfl
@[simp] theorem memWrite_looms (s : State) (pa : Nat) (bs : List Byte) : (memWrite s pa bs).looms = s.looms := rfl
@[simp] theorem memWrite_tasks (s : State) (pa : Nat) (bs : List Byte) : (memWrite s pa bs).tasks = s.tasks := rfl
@[simp] theorem memWrite_stampClock (s : State) (pa : Nat) (bs : List Byte) : (memWrite s pa bs).stampClock = s.stampClock := rfl
@[simp] theorem memWrite_dies (s : State) (pa : Nat) (bs : List Byte) : (memWrite s pa bs).dies = s.dies := rfl
@[simp] theorem memWrite_envAt (s : State) (pa : Nat) (bs : List Byte) : (memWrite s pa bs).envAt = s.envAt := rfl
@[simp] theorem memWrite_readWaits (s : State) (pa : Nat) (bs : List Byte) : (memWrite s pa bs).readWaits = s.readWaits := rfl
@[simp] theorem memWrite_nodes (s : State) (pa : Nat) (bs : List Byte) : (memWrite s pa bs).nodes = s.nodes := rfl
@[simp] theorem memWrite_linHeld (s : State) (pa : Nat) (bs : List Byte) : (memWrite s pa bs).linHeld = s.linHeld := rfl
@[simp] theorem memWrite_linCnt (s : State) (pa : Nat) (bs : List Byte) : (memWrite s pa bs).linCnt = s.linCnt := rfl
@[simp] theorem memWrite_locks (s : State) (pa : Nat) (bs : List Byte) : (memWrite s pa bs).locks = s.locks := rfl
@[simp] theorem memWrite_seqs (s : State) (pa : Nat) (bs : List Byte) : (memWrite s pa bs).seqs = s.seqs := rfl
@[simp] theorem memWrite_pagesOut (s : State) (pa : Nat) (bs : List Byte) : (memWrite s pa bs).pagesOut = s.pagesOut := rfl
@[simp] theorem memWrite_pagesResv (s : State) (pa : Nat) (bs : List Byte) : (memWrite s pa bs).pagesResv = s.pagesResv := rfl
@[simp] theorem memWrite_tables (s : State) (pa : Nat) (bs : List Byte) : (memWrite s pa bs).tables = s.tables := rfl
@[simp] theorem memWrite_seqCount (s : State) (pa : Nat) (bs : List Byte) : (memWrite s pa bs).seqCount = s.seqCount := rfl
@[simp] theorem memWrite_commitNext (s : State) (pa : Nat) (bs : List Byte) : (memWrite s pa bs).commitNext = s.commitNext := rfl
@[simp] theorem memWrite_mgmt (s : State) (pa : Nat) (bs : List Byte) : (memWrite s pa bs).mgmt = s.mgmt := rfl

@[simp] theorem sched_pend (s : State) (due : Nat) (ev : Instr) : (sched s due ev).pend = s.pend ++ [(due, ev)] := rfl
@[simp] theorem reply_replies (s : State) (id : Nat) (ws : List Word) : (reply s id ws).replies = s.replies ++ [(id, ws)] := rfl
@[simp] theorem memWrite_mem (s : State) (pa : Nat) (bs : List Byte) : (memWrite s pa bs).mem = s.mem.writeN pa bs := rfl

/-! Finding what was changed. -/

@[simp] theorem getCore_modCore_self (s : State) (c : Nat) (f : Core → Core) : getCore (modCore s c f) c = f (getCore s c) := by
  simp [getCore, modCore]

theorem getCore_modCore_ne (s : State) {c c' : Nat} (f : Core → Core) (h : c' ≠ c) :
    getCore (modCore s c f) c' = getCore s c' := getK_setK_ne _ _ _ h

@[simp] theorem getCore_modStrand_self (s : State) (c t : Nat) (f : Strand → Strand) :
    getCore (modStrand s c t f) c = (getCore s c).modStrand t f := getCore_modCore_self _ _ _

theorem getCore_modStrand_ne (s : State) {c c' : Nat} (t : Nat) (f : Strand → Strand) (h : c' ≠ c) :
    getCore (modStrand s c t f) c' = getCore s c' := getCore_modCore_ne _ _ h

@[simp] theorem strand_modStrand_self (k : Core) (t : Nat) (f : Strand → Strand) :
    (k.modStrand t f).strand t = f (k.strand t) := by
  simp [Core.strand, Core.modStrand]

theorem strand_modStrand_ne (k : Core) {t t' : Nat} (f : Strand → Strand) (h : t' ≠ t) :
    (k.modStrand t f).strand t' = k.strand t' := getK_setK_ne _ _ _ h

@[simp] theorem getStrand_modStrand_self (s : State) (c t : Nat) (f : Strand → Strand) :
    getStrand (modStrand s c t f) c t = f (getStrand s c t) := by
  simp [getStrand]

theorem getStrand_modStrand_ne (s : State) {c c' t t' : Nat} (f : Strand → Strand) (h : ¬(c' = c ∧ t' = t)) :
    getStrand (modStrand s c t f) c' t' = getStrand s c' t' := by
  by_cases hc : c' = c
  · subst hc
    have ht : t' ≠ t := fun e => h ⟨rfl, e⟩
    simp [getStrand, strand_modStrand_ne _ _ ht]
  · simp [getStrand, getCore_modStrand_ne _ _ _ hc]

@[simp] theorem getTask_modTask_self (s : State) (r : Nat) (f : Task → Task) : getTask (modTask s r f) r = f (getTask s r) := by
  simp [getTask, modTask]

@[simp] theorem getLoom_modLoom_self (s : State) (l : Nat) (f : Loom → Loom) : getLoom (modLoom s l f) l = f (getLoom s l) := by
  simp [getLoom, modLoom]

@[simp] theorem getNode_modNode_self (s : State) (n : Nat) (f : Node → Node) : getNode (modNode s n f) n = f (getNode s n) := by
  simp [getNode, modNode]

@[simp] theorem getCore_sched (s : State) (due : Nat) (ev : Instr) (c : Nat) : getCore (sched s due ev) c = getCore s c := rfl
@[simp] theorem getStrand_sched (s : State) (due : Nat) (ev : Instr) (c t : Nat) : getStrand (sched s due ev) c t = getStrand s c t := rfl
@[simp] theorem getCore_reply (s : State) (id : Nat) (ws : List Word) (c : Nat) : getCore (reply s id ws) c = getCore s c := rfl
@[simp] theorem getStrand_reply (s : State) (id : Nat) (ws : List Word) (c t : Nat) : getStrand (reply s id ws) c t = getStrand s c t := rfl
@[simp] theorem getCore_modLoom (s : State) (l : Nat) (f : Loom → Loom) (c : Nat) : getCore (modLoom s l f) c = getCore s c := rfl
@[simp] theorem getStrand_modLoom (s : State) (l : Nat) (f : Loom → Loom) (c t : Nat) : getStrand (modLoom s l f) c t = getStrand s c t := rfl
@[simp] theorem getCore_modTask (s : State) (r : Nat) (f : Task → Task) (c : Nat) : getCore (modTask s r f) c = getCore s c := rfl
@[simp] theorem getStrand_modTask (s : State) (r : Nat) (f : Task → Task) (c t : Nat) : getStrand (modTask s r f) c t = getStrand s c t := rfl
@[simp] theorem getCore_modNode (s : State) (n : Nat) (f : Node → Node) (c : Nat) : getCore (modNode s n f) c = getCore s c := rfl
@[simp] theorem getStrand_modNode (s : State) (n : Nat) (f : Node → Node) (c t : Nat) : getStrand (modNode s n f) c t = getStrand s c t := rfl

/-! `Core.modStrand`. -/

@[simp] theorem core_modStrand_started (k : Core) (t : Nat) (f : Strand → Strand) : (k.modStrand t f).started = k.started := rfl
@[simp] theorem core_modStrand_rf (k : Core) (t : Nat) (f : Strand → Strand) : (k.modStrand t f).rf = k.rf := rfl
@[simp] theorem core_modStrand_shared (k : Core) (t : Nat) (f : Strand → Strand) : (k.modStrand t f).shared = k.shared := rfl
@[simp] theorem core_modStrand_lastIssuer (k : Core) (t : Nat) (f : Strand → Strand) : (k.modStrand t f).lastIssuer = k.lastIssuer := rfl
@[simp] theorem core_modStrand_ls (k : Core) (t : Nat) (f : Strand → Strand) : (k.modStrand t f).ls = k.ls := rfl
@[simp] theorem core_modStrand_trapQ (k : Core) (t : Nat) (f : Strand → Strand) : (k.modStrand t f).trapQ = k.trapQ := rfl
@[simp] theorem core_modStrand_deferred (k : Core) (t : Nat) (f : Strand → Strand) : (k.modStrand t f).deferred = k.deferred := rfl
@[simp] theorem core_modStrand_heldBack (k : Core) (t : Nat) (f : Strand → Strand) : (k.modStrand t f).heldBack = k.heldBack := rfl
@[simp] theorem core_modStrand_reserved (k : Core) (t : Nat) (f : Strand → Strand) : (k.modStrand t f).reserved = k.reserved := rfl
@[simp] theorem core_modStrand_defAt (k : Core) (t : Nat) (f : Strand → Strand) : (k.modStrand t f).defAt = k.defAt := rfl
@[simp] theorem core_modStrand_slots (k : Core) (t : Nat) (f : Strand → Strand) : (k.modStrand t f).slots = k.slots := rfl
@[simp] theorem core_modStrand_links (k : Core) (t : Nat) (f : Strand → Strand) : (k.modStrand t f).links = k.links := rfl
@[simp] theorem core_modStrand_perf (k : Core) (t : Nat) (f : Strand → Strand) : (k.modStrand t f).perf = k.perf := rfl
@[simp] theorem core_modStrand_busyAt (k : Core) (t : Nat) (f : Strand → Strand) : (k.modStrand t f).busyAt = k.busyAt := rfl
@[simp] theorem core_modStrand_icache (k : Core) (t : Nat) (f : Strand → Strand) : (k.modStrand t f).icache = k.icache := rfl
@[simp] theorem core_modStrand_bankUse (k : Core) (t : Nat) (f : Strand → Strand) : (k.modStrand t f).bankUse = k.bankUse := rfl
@[simp] theorem core_modStrand_vuQ (k : Core) (t : Nat) (f : Strand → Strand) : (k.modStrand t f).vuQ = k.vuQ := rfl
@[simp] theorem core_modStrand_suQ (k : Core) (t : Nat) (f : Strand → Strand) : (k.modStrand t f).suQ = k.suQ := rfl
@[simp] theorem core_modStrand_acc (k : Core) (t : Nat) (f : Strand → Strand) : (k.modStrand t f).acc = k.acc := rfl
@[simp] theorem core_modStrand_latch (k : Core) (t : Nat) (f : Strand → Strand) : (k.modStrand t f).latch = k.latch := rfl
@[simp] theorem core_modStrand_mq (k : Core) (t : Nat) (f : Strand → Strand) : (k.modStrand t f).mq = k.mq := rfl
@[simp] theorem core_modStrand_mqWait (k : Core) (t : Nat) (f : Strand → Strand) : (k.modStrand t f).mqWait = k.mqWait := rfl
@[simp] theorem core_modStrand_mqNext (k : Core) (t : Nat) (f : Strand → Strand) : (k.modStrand t f).mqNext = k.mqNext := rfl
@[simp] theorem core_modStrand_macFree (k : Core) (t : Nat) (f : Strand → Strand) : (k.modStrand t f).macFree = k.macFree := rfl
@[simp] theorem core_modStrand_portFree (k : Core) (t : Nat) (f : Strand → Strand) : (k.modStrand t f).portFree = k.portFree := rfl
@[simp] theorem core_modStrand_ringFree (k : Core) (t : Nat) (f : Strand → Strand) : (k.modStrand t f).ringFree = k.ringFree := rfl
@[simp] theorem core_modStrand_rep (k : Core) (t : Nat) (f : Strand → Strand) : (k.modStrand t f).rep = k.rep := rfl
@[simp] theorem core_modStrand_repWaiters (k : Core) (t : Nat) (f : Strand → Strand) : (k.modStrand t f).repWaiters = k.repWaiters := rfl
@[simp] theorem core_modStrand_repNext (k : Core) (t : Nat) (f : Strand → Strand) : (k.modStrand t f).repNext = k.repNext := rfl
@[simp] theorem core_modStrand_tlb (k : Core) (t : Nat) (f : Strand → Strand) : (k.modStrand t f).tlb = k.tlb := rfl
@[simp] theorem core_modStrand_l1 (k : Core) (t : Nat) (f : Strand → Strand) : (k.modStrand t f).l1 = k.l1 := rfl
@[simp] theorem core_modStrand_logs (k : Core) (t : Nat) (f : Strand → Strand) : (k.modStrand t f).logs = k.logs := rfl
@[simp] theorem core_modStrand_posted (k : Core) (t : Nat) (f : Strand → Strand) : (k.modStrand t f).posted = k.posted := rfl
@[simp] theorem core_modStrand_postedNext (k : Core) (t : Nat) (f : Strand → Strand) : (k.modStrand t f).postedNext = k.postedNext := rfl
@[simp] theorem core_modStrand_joins (k : Core) (t : Nat) (f : Strand → Strand) : (k.modStrand t f).joins = k.joins := rfl
@[simp] theorem core_modStrand_linQ (k : Core) (t : Nat) (f : Strand → Strand) : (k.modStrand t f).linQ = k.linQ := rfl
@[simp] theorem core_modStrand_copyQ (k : Core) (t : Nat) (f : Strand → Strand) : (k.modStrand t f).copyQ = k.copyQ := rfl
@[simp] theorem core_modStrand_moves (k : Core) (t : Nat) (f : Strand → Strand) : (k.modStrand t f).moves = k.moves := rfl
@[simp] theorem core_modStrand_fetches (k : Core) (t : Nat) (f : Strand → Strand) : (k.modStrand t f).fetches = k.fetches := rfl
@[simp] theorem core_modStrand_cqStat (k : Core) (t : Nat) (f : Strand → Strand) : (k.modStrand t f).cqStat = k.cqStat := rfl
@[simp] theorem core_modStrand_cc (k : Core) (t : Nat) (f : Strand → Strand) : (k.modStrand t f).cc = k.cc := rfl
@[simp] theorem core_modStrand_heap (k : Core) (t : Nat) (f : Strand → Strand) : (k.modStrand t f).heap = k.heap := rfl
@[simp] theorem core_modStrand_coreQ (k : Core) (t : Nat) (f : Strand → Strand) : (k.modStrand t f).coreQ = k.coreQ := rfl
@[simp] theorem core_modStrand_readyQ (k : Core) (t : Nat) (f : Strand → Strand) : (k.modStrand t f).readyQ = k.readyQ := rfl
@[simp] theorem core_modStrand_disp (k : Core) (t : Nat) (f : Strand → Strand) : (k.modStrand t f).disp = k.disp := rfl
@[simp] theorem core_modStrand_dispFrom (k : Core) (t : Nat) (f : Strand → Strand) : (k.modStrand t f).dispFrom = k.dispFrom := rfl
@[simp] theorem core_modStrand_spares (k : Core) (t : Nat) (f : Strand → Strand) : (k.modStrand t f).spares = k.spares := rfl
@[simp] theorem core_modStrand_barred (k : Core) (t : Nat) (f : Strand → Strand) : (k.modStrand t f).barred = k.barred := rfl

/-! `Strand.set`. -/

@[simp] theorem strand_set_st (x : Strand) (n : Nat) (v : Word) : (x.set n v).st = x.st := rfl
@[simp] theorem strand_set_pc (x : Strand) (n : Nat) (v : Word) : (x.set n v).pc = x.pc := rfl
@[simp] theorem strand_set_ptrs (x : Strand) (n : Nat) (v : Word) : (x.set n v).ptrs = x.ptrs := rfl
@[simp] theorem strand_set_preds (x : Strand) (n : Nat) (v : Word) : (x.set n v).preds = x.preds := rfl
@[simp] theorem strand_set_kidx (x : Strand) (n : Nat) (v : Word) : (x.set n v).kidx = x.kidx := rfl
@[simp] theorem strand_set_last (x : Strand) (n : Nat) (v : Word) : (x.set n v).last = x.last := rfl
@[simp] theorem strand_set_readyFrom (x : Strand) (n : Nat) (v : Word) : (x.set n v).readyFrom = x.readyFrom := rfl
@[simp] theorem strand_set_wait (x : Strand) (n : Nat) (v : Word) : (x.set n v).wait = x.wait := rfl
@[simp] theorem strand_set_holdReq (x : Strand) (n : Nat) (v : Word) : (x.set n v).holdReq = x.holdReq := rfl
@[simp] theorem strand_set_holdPort (x : Strand) (n : Nat) (v : Word) : (x.set n v).holdPort = x.holdPort := rfl
@[simp] theorem strand_set_tmrHit (x : Strand) (n : Nat) (v : Word) : (x.set n v).tmrHit = x.tmrHit := rfl
@[simp] theorem strand_set_tmrSet (x : Strand) (n : Nat) (v : Word) : (x.set n v).tmrSet = x.tmrSet := rfl
@[simp] theorem strand_set_runs (x : Strand) (n : Nat) (v : Word) : (x.set n v).runs = x.runs := rfl
@[simp] theorem strand_set_resumed (x : Strand) (n : Nat) (v : Word) : (x.set n v).resumed = x.resumed := rfl
@[simp] theorem strand_set_dfault (x : Strand) (n : Nat) (v : Word) : (x.set n v).dfault = x.dfault := rfl
@[simp] theorem strand_set_seq (x : Strand) (n : Nat) (v : Word) : (x.set n v).seq = x.seq := rfl
@[simp] theorem strand_set_held (x : Strand) (n : Nat) (v : Word) : (x.set n v).held = x.held := rfl
@[simp] theorem strand_set_fail (x : Strand) (n : Nat) (v : Word) : (x.set n v).fail = x.fail := rfl
@[simp] theorem strand_set_badText (x : Strand) (n : Nat) (v : Word) : (x.set n v).badText = x.badText := rfl
@[simp] theorem strand_set_launched (x : Strand) (n : Nat) (v : Word) : (x.set n v).launched = x.launched := rfl
@[simp] theorem strand_set_badOld (x : Strand) (n : Nat) (v : Word) : (x.set n v).badOld = x.badOld := rfl
@[simp] theorem strand_set_pages (x : Strand) (n : Nat) (v : Word) : (x.set n v).pages = x.pages := rfl

/-! `Strand.setPtr`. -/

@[simp] theorem strand_setPtr_st (x : Strand) (n : Nat) (v : Word) : (x.setPtr n v).st = x.st := rfl
@[simp] theorem strand_setPtr_pc (x : Strand) (n : Nat) (v : Word) : (x.setPtr n v).pc = x.pc := rfl
@[simp] theorem strand_setPtr_cr (x : Strand) (n : Nat) (v : Word) : (x.setPtr n v).cr = x.cr := rfl
@[simp] theorem strand_setPtr_preds (x : Strand) (n : Nat) (v : Word) : (x.setPtr n v).preds = x.preds := rfl
@[simp] theorem strand_setPtr_kidx (x : Strand) (n : Nat) (v : Word) : (x.setPtr n v).kidx = x.kidx := rfl
@[simp] theorem strand_setPtr_last (x : Strand) (n : Nat) (v : Word) : (x.setPtr n v).last = x.last := rfl
@[simp] theorem strand_setPtr_readyFrom (x : Strand) (n : Nat) (v : Word) : (x.setPtr n v).readyFrom = x.readyFrom := rfl
@[simp] theorem strand_setPtr_wait (x : Strand) (n : Nat) (v : Word) : (x.setPtr n v).wait = x.wait := rfl
@[simp] theorem strand_setPtr_holdReq (x : Strand) (n : Nat) (v : Word) : (x.setPtr n v).holdReq = x.holdReq := rfl
@[simp] theorem strand_setPtr_holdPort (x : Strand) (n : Nat) (v : Word) : (x.setPtr n v).holdPort = x.holdPort := rfl
@[simp] theorem strand_setPtr_tmrHit (x : Strand) (n : Nat) (v : Word) : (x.setPtr n v).tmrHit = x.tmrHit := rfl
@[simp] theorem strand_setPtr_tmrSet (x : Strand) (n : Nat) (v : Word) : (x.setPtr n v).tmrSet = x.tmrSet := rfl
@[simp] theorem strand_setPtr_runs (x : Strand) (n : Nat) (v : Word) : (x.setPtr n v).runs = x.runs := rfl
@[simp] theorem strand_setPtr_resumed (x : Strand) (n : Nat) (v : Word) : (x.setPtr n v).resumed = x.resumed := rfl
@[simp] theorem strand_setPtr_dfault (x : Strand) (n : Nat) (v : Word) : (x.setPtr n v).dfault = x.dfault := rfl
@[simp] theorem strand_setPtr_seq (x : Strand) (n : Nat) (v : Word) : (x.setPtr n v).seq = x.seq := rfl
@[simp] theorem strand_setPtr_held (x : Strand) (n : Nat) (v : Word) : (x.setPtr n v).held = x.held := rfl
@[simp] theorem strand_setPtr_fail (x : Strand) (n : Nat) (v : Word) : (x.setPtr n v).fail = x.fail := rfl
@[simp] theorem strand_setPtr_badText (x : Strand) (n : Nat) (v : Word) : (x.setPtr n v).badText = x.badText := rfl
@[simp] theorem strand_setPtr_launched (x : Strand) (n : Nat) (v : Word) : (x.setPtr n v).launched = x.launched := rfl
@[simp] theorem strand_setPtr_badOld (x : Strand) (n : Nat) (v : Word) : (x.setPtr n v).badOld = x.badOld := rfl
@[simp] theorem strand_setPtr_pages (x : Strand) (n : Nat) (v : Word) : (x.setPtr n v).pages = x.pages := rfl

/-! `Strand.setK`. -/

@[simp] theorem strand_setK_st (x : Strand) (n : Nat) (v : BitVec 32) : (x.setK n v).st = x.st := rfl
@[simp] theorem strand_setK_pc (x : Strand) (n : Nat) (v : BitVec 32) : (x.setK n v).pc = x.pc := rfl
@[simp] theorem strand_setK_cr (x : Strand) (n : Nat) (v : BitVec 32) : (x.setK n v).cr = x.cr := rfl
@[simp] theorem strand_setK_ptrs (x : Strand) (n : Nat) (v : BitVec 32) : (x.setK n v).ptrs = x.ptrs := rfl
@[simp] theorem strand_setK_preds (x : Strand) (n : Nat) (v : BitVec 32) : (x.setK n v).preds = x.preds := rfl
@[simp] theorem strand_setK_last (x : Strand) (n : Nat) (v : BitVec 32) : (x.setK n v).last = x.last := rfl
@[simp] theorem strand_setK_readyFrom (x : Strand) (n : Nat) (v : BitVec 32) : (x.setK n v).readyFrom = x.readyFrom := rfl
@[simp] theorem strand_setK_wait (x : Strand) (n : Nat) (v : BitVec 32) : (x.setK n v).wait = x.wait := rfl
@[simp] theorem strand_setK_holdReq (x : Strand) (n : Nat) (v : BitVec 32) : (x.setK n v).holdReq = x.holdReq := rfl
@[simp] theorem strand_setK_holdPort (x : Strand) (n : Nat) (v : BitVec 32) : (x.setK n v).holdPort = x.holdPort := rfl
@[simp] theorem strand_setK_tmrHit (x : Strand) (n : Nat) (v : BitVec 32) : (x.setK n v).tmrHit = x.tmrHit := rfl
@[simp] theorem strand_setK_tmrSet (x : Strand) (n : Nat) (v : BitVec 32) : (x.setK n v).tmrSet = x.tmrSet := rfl
@[simp] theorem strand_setK_runs (x : Strand) (n : Nat) (v : BitVec 32) : (x.setK n v).runs = x.runs := rfl
@[simp] theorem strand_setK_resumed (x : Strand) (n : Nat) (v : BitVec 32) : (x.setK n v).resumed = x.resumed := rfl
@[simp] theorem strand_setK_dfault (x : Strand) (n : Nat) (v : BitVec 32) : (x.setK n v).dfault = x.dfault := rfl
@[simp] theorem strand_setK_seq (x : Strand) (n : Nat) (v : BitVec 32) : (x.setK n v).seq = x.seq := rfl
@[simp] theorem strand_setK_held (x : Strand) (n : Nat) (v : BitVec 32) : (x.setK n v).held = x.held := rfl
@[simp] theorem strand_setK_fail (x : Strand) (n : Nat) (v : BitVec 32) : (x.setK n v).fail = x.fail := rfl
@[simp] theorem strand_setK_badText (x : Strand) (n : Nat) (v : BitVec 32) : (x.setK n v).badText = x.badText := rfl
@[simp] theorem strand_setK_launched (x : Strand) (n : Nat) (v : BitVec 32) : (x.setK n v).launched = x.launched := rfl
@[simp] theorem strand_setK_badOld (x : Strand) (n : Nat) (v : BitVec 32) : (x.setK n v).badOld = x.badOld := rfl
@[simp] theorem strand_setK_pages (x : Strand) (n : Nat) (v : BitVec 32) : (x.setK n v).pages = x.pages := rfl

/-! `Strand.setFlag`. -/

@[simp] theorem strand_setFlag_st (x : Strand) (i : Nat) (b : Bool) : (x.setFlag i b).st = x.st := rfl
@[simp] theorem strand_setFlag_pc (x : Strand) (i : Nat) (b : Bool) : (x.setFlag i b).pc = x.pc := rfl
@[simp] theorem strand_setFlag_ptrs (x : Strand) (i : Nat) (b : Bool) : (x.setFlag i b).ptrs = x.ptrs := rfl
@[simp] theorem strand_setFlag_preds (x : Strand) (i : Nat) (b : Bool) : (x.setFlag i b).preds = x.preds := rfl
@[simp] theorem strand_setFlag_kidx (x : Strand) (i : Nat) (b : Bool) : (x.setFlag i b).kidx = x.kidx := rfl
@[simp] theorem strand_setFlag_last (x : Strand) (i : Nat) (b : Bool) : (x.setFlag i b).last = x.last := rfl
@[simp] theorem strand_setFlag_readyFrom (x : Strand) (i : Nat) (b : Bool) : (x.setFlag i b).readyFrom = x.readyFrom := rfl
@[simp] theorem strand_setFlag_wait (x : Strand) (i : Nat) (b : Bool) : (x.setFlag i b).wait = x.wait := rfl
@[simp] theorem strand_setFlag_holdReq (x : Strand) (i : Nat) (b : Bool) : (x.setFlag i b).holdReq = x.holdReq := rfl
@[simp] theorem strand_setFlag_holdPort (x : Strand) (i : Nat) (b : Bool) : (x.setFlag i b).holdPort = x.holdPort := rfl
@[simp] theorem strand_setFlag_tmrHit (x : Strand) (i : Nat) (b : Bool) : (x.setFlag i b).tmrHit = x.tmrHit := rfl
@[simp] theorem strand_setFlag_tmrSet (x : Strand) (i : Nat) (b : Bool) : (x.setFlag i b).tmrSet = x.tmrSet := rfl
@[simp] theorem strand_setFlag_runs (x : Strand) (i : Nat) (b : Bool) : (x.setFlag i b).runs = x.runs := rfl
@[simp] theorem strand_setFlag_resumed (x : Strand) (i : Nat) (b : Bool) : (x.setFlag i b).resumed = x.resumed := rfl
@[simp] theorem strand_setFlag_dfault (x : Strand) (i : Nat) (b : Bool) : (x.setFlag i b).dfault = x.dfault := rfl
@[simp] theorem strand_setFlag_seq (x : Strand) (i : Nat) (b : Bool) : (x.setFlag i b).seq = x.seq := rfl
@[simp] theorem strand_setFlag_held (x : Strand) (i : Nat) (b : Bool) : (x.setFlag i b).held = x.held := rfl
@[simp] theorem strand_setFlag_fail (x : Strand) (i : Nat) (b : Bool) : (x.setFlag i b).fail = x.fail := rfl
@[simp] theorem strand_setFlag_badText (x : Strand) (i : Nat) (b : Bool) : (x.setFlag i b).badText = x.badText := rfl
@[simp] theorem strand_setFlag_launched (x : Strand) (i : Nat) (b : Bool) : (x.setFlag i b).launched = x.launched := rfl
@[simp] theorem strand_setFlag_badOld (x : Strand) (i : Nat) (b : Bool) : (x.setFlag i b).badOld = x.badOld := rfl
@[simp] theorem strand_setFlag_pages (x : Strand) (i : Nat) (b : Bool) : (x.setFlag i b).pages = x.pages := rfl

/-! `Strand.setDbg`. -/

@[simp] theorem strand_setDbg_st (x : Strand) (i : Nat) (b : Bool) : (x.setDbg i b).st = x.st := rfl
@[simp] theorem strand_setDbg_pc (x : Strand) (i : Nat) (b : Bool) : (x.setDbg i b).pc = x.pc := rfl
@[simp] theorem strand_setDbg_ptrs (x : Strand) (i : Nat) (b : Bool) : (x.setDbg i b).ptrs = x.ptrs := rfl
@[simp] theorem strand_setDbg_preds (x : Strand) (i : Nat) (b : Bool) : (x.setDbg i b).preds = x.preds := rfl
@[simp] theorem strand_setDbg_kidx (x : Strand) (i : Nat) (b : Bool) : (x.setDbg i b).kidx = x.kidx := rfl
@[simp] theorem strand_setDbg_last (x : Strand) (i : Nat) (b : Bool) : (x.setDbg i b).last = x.last := rfl
@[simp] theorem strand_setDbg_readyFrom (x : Strand) (i : Nat) (b : Bool) : (x.setDbg i b).readyFrom = x.readyFrom := rfl
@[simp] theorem strand_setDbg_wait (x : Strand) (i : Nat) (b : Bool) : (x.setDbg i b).wait = x.wait := rfl
@[simp] theorem strand_setDbg_holdReq (x : Strand) (i : Nat) (b : Bool) : (x.setDbg i b).holdReq = x.holdReq := rfl
@[simp] theorem strand_setDbg_holdPort (x : Strand) (i : Nat) (b : Bool) : (x.setDbg i b).holdPort = x.holdPort := rfl
@[simp] theorem strand_setDbg_tmrHit (x : Strand) (i : Nat) (b : Bool) : (x.setDbg i b).tmrHit = x.tmrHit := rfl
@[simp] theorem strand_setDbg_tmrSet (x : Strand) (i : Nat) (b : Bool) : (x.setDbg i b).tmrSet = x.tmrSet := rfl
@[simp] theorem strand_setDbg_runs (x : Strand) (i : Nat) (b : Bool) : (x.setDbg i b).runs = x.runs := rfl
@[simp] theorem strand_setDbg_resumed (x : Strand) (i : Nat) (b : Bool) : (x.setDbg i b).resumed = x.resumed := rfl
@[simp] theorem strand_setDbg_dfault (x : Strand) (i : Nat) (b : Bool) : (x.setDbg i b).dfault = x.dfault := rfl
@[simp] theorem strand_setDbg_seq (x : Strand) (i : Nat) (b : Bool) : (x.setDbg i b).seq = x.seq := rfl
@[simp] theorem strand_setDbg_held (x : Strand) (i : Nat) (b : Bool) : (x.setDbg i b).held = x.held := rfl
@[simp] theorem strand_setDbg_fail (x : Strand) (i : Nat) (b : Bool) : (x.setDbg i b).fail = x.fail := rfl
@[simp] theorem strand_setDbg_badText (x : Strand) (i : Nat) (b : Bool) : (x.setDbg i b).badText = x.badText := rfl
@[simp] theorem strand_setDbg_launched (x : Strand) (i : Nat) (b : Bool) : (x.setDbg i b).launched = x.launched := rfl
@[simp] theorem strand_setDbg_badOld (x : Strand) (i : Nat) (b : Bool) : (x.setDbg i b).badOld = x.badOld := rfl
@[simp] theorem strand_setDbg_pages (x : Strand) (i : Nat) (b : Bool) : (x.setDbg i b).pages = x.pages := rfl

/-! `Strand.record`. -/

@[simp] theorem strand_record_st (x : Strand) (cause : Byte) (info epc : Word) (word : IWord) : (x.record cause info epc word).st = x.st := rfl
@[simp] theorem strand_record_pc (x : Strand) (cause : Byte) (info epc : Word) (word : IWord) : (x.record cause info epc word).pc = x.pc := rfl
@[simp] theorem strand_record_ptrs (x : Strand) (cause : Byte) (info epc : Word) (word : IWord) : (x.record cause info epc word).ptrs = x.ptrs := rfl
@[simp] theorem strand_record_preds (x : Strand) (cause : Byte) (info epc : Word) (word : IWord) : (x.record cause info epc word).preds = x.preds := rfl
@[simp] theorem strand_record_kidx (x : Strand) (cause : Byte) (info epc : Word) (word : IWord) : (x.record cause info epc word).kidx = x.kidx := rfl
@[simp] theorem strand_record_last (x : Strand) (cause : Byte) (info epc : Word) (word : IWord) : (x.record cause info epc word).last = x.last := rfl
@[simp] theorem strand_record_readyFrom (x : Strand) (cause : Byte) (info epc : Word) (word : IWord) : (x.record cause info epc word).readyFrom = x.readyFrom := rfl
@[simp] theorem strand_record_wait (x : Strand) (cause : Byte) (info epc : Word) (word : IWord) : (x.record cause info epc word).wait = x.wait := rfl
@[simp] theorem strand_record_holdReq (x : Strand) (cause : Byte) (info epc : Word) (word : IWord) : (x.record cause info epc word).holdReq = x.holdReq := rfl
@[simp] theorem strand_record_holdPort (x : Strand) (cause : Byte) (info epc : Word) (word : IWord) : (x.record cause info epc word).holdPort = x.holdPort := rfl
@[simp] theorem strand_record_tmrHit (x : Strand) (cause : Byte) (info epc : Word) (word : IWord) : (x.record cause info epc word).tmrHit = x.tmrHit := rfl
@[simp] theorem strand_record_tmrSet (x : Strand) (cause : Byte) (info epc : Word) (word : IWord) : (x.record cause info epc word).tmrSet = x.tmrSet := rfl
@[simp] theorem strand_record_runs (x : Strand) (cause : Byte) (info epc : Word) (word : IWord) : (x.record cause info epc word).runs = x.runs := rfl
@[simp] theorem strand_record_resumed (x : Strand) (cause : Byte) (info epc : Word) (word : IWord) : (x.record cause info epc word).resumed = x.resumed := rfl
@[simp] theorem strand_record_dfault (x : Strand) (cause : Byte) (info epc : Word) (word : IWord) : (x.record cause info epc word).dfault = x.dfault := rfl
@[simp] theorem strand_record_seq (x : Strand) (cause : Byte) (info epc : Word) (word : IWord) : (x.record cause info epc word).seq = x.seq := rfl
@[simp] theorem strand_record_held (x : Strand) (cause : Byte) (info epc : Word) (word : IWord) : (x.record cause info epc word).held = x.held := rfl
@[simp] theorem strand_record_fail (x : Strand) (cause : Byte) (info epc : Word) (word : IWord) : (x.record cause info epc word).fail = x.fail := rfl
@[simp] theorem strand_record_badText (x : Strand) (cause : Byte) (info epc : Word) (word : IWord) : (x.record cause info epc word).badText = x.badText := rfl
@[simp] theorem strand_record_launched (x : Strand) (cause : Byte) (info epc : Word) (word : IWord) : (x.record cause info epc word).launched = x.launched := rfl
@[simp] theorem strand_record_badOld (x : Strand) (cause : Byte) (info epc : Word) (word : IWord) : (x.record cause info epc word).badOld = x.badOld := rfl
@[simp] theorem strand_record_pages (x : Strand) (cause : Byte) (info epc : Word) (word : IWord) : (x.record cause info epc word).pages = x.pages := rfl

@[simp] theorem get_set_self (x : Strand) (n : Nat) (v : Word) : (x.set n v).get n = v := by simp [Strand.set, Strand.get]
theorem get_set_ne (x : Strand) {n m : Nat} (v : Word) (h : m ≠ n) : (x.set n v).get m = x.get m := getK_setK_ne _ _ _ h
theorem get_set (x : Strand) (n m : Nat) (v : Word) : (x.set n v).get m = if m = n then v else x.get m := getK_setK _ _ _ _ _
@[simp] theorem ptr_setPtr_self (x : Strand) (n : Nat) (v : Word) : (x.setPtr n v).ptr n = v := by simp [Strand.setPtr, Strand.ptr]
theorem ptr_setPtr_ne (x : Strand) {n m : Nat} (v : Word) (h : m ≠ n) : (x.setPtr n v).ptr m = x.ptr m := getK_setK_ne _ _ _ h
@[simp] theorem kreg_setK_self (x : Strand) (n : Nat) (v : BitVec 32) : (x.setK n v).kreg n = v := by
  simp [Strand.setK, Strand.kreg]
theorem kreg_setK_ne (x : Strand) {n m : Nat} (v : BitVec 32) (h : m ≠ n) : (x.setK n v).kreg m = x.kreg m :=
  getK_setK_ne _ _ _ h
@[simp] theorem record_get_cause (x : Strand) (cause : Byte) (info epc : Word) (word : IWord) :
    (x.record cause info epc word).get 1 = causeWord cause info := by simp [Strand.record, get_set]
@[simp] theorem record_get_epc (x : Strand) (cause : Byte) (info epc : Word) (word : IWord) :
    (x.record cause info epc word).get 2 = low48 epc := by simp [Strand.record, get_set]
@[simp] theorem record_get_einst (x : Strand) (cause : Byte) (info epc : Word) (word : IWord) :
    (x.record cause info epc word).get 3 = wd word.toNat := by simp [Strand.record]
theorem record_get_ne (x : Strand) (cause : Byte) (info epc : Word) (word : IWord) {m : Nat} (h1 : m ≠ 1) (h2 : m ≠ 2)
    (h3 : m ≠ 3) : (x.record cause info epc word).get m = x.get m := by simp [Strand.record, get_set, h1, h2, h3]
theorem setFlag_get_ne (x : Strand) (i : Nat) (b : Bool) {m : Nat} (h : m ≠ 0) : (x.setFlag i b).get m = x.get m :=
  get_set_ne _ _ h
theorem setDbg_get_ne (x : Strand) (i : Nat) (b : Bool) {m : Nat} (h : m ≠ 19) : (x.setDbg i b).get m = x.get m :=
  get_set_ne _ _ h

/-! Predicates. -/

@[simp] theorem strand_setPred_cr (x : Strand) (n : Nat) (b : Bool) : (x.setPred n b).cr = x.cr := by
  unfold Strand.setPred; split <;> rfl
@[simp] theorem strand_setPred_ptrs (x : Strand) (n : Nat) (b : Bool) : (x.setPred n b).ptrs = x.ptrs := by
  unfold Strand.setPred; split <;> rfl
@[simp] theorem strand_setPred_kidx (x : Strand) (n : Nat) (b : Bool) : (x.setPred n b).kidx = x.kidx := by
  unfold Strand.setPred; split <;> rfl
@[simp] theorem strand_setPred_st (x : Strand) (n : Nat) (b : Bool) : (x.setPred n b).st = x.st := by
  unfold Strand.setPred; split <;> rfl
@[simp] theorem strand_setPred_pc (x : Strand) (n : Nat) (b : Bool) : (x.setPred n b).pc = x.pc := by
  unfold Strand.setPred; split <;> rfl
@[simp] theorem strand_setPred_wait (x : Strand) (n : Nat) (b : Bool) : (x.setPred n b).wait = x.wait := by
  unfold Strand.setPred; split <;> rfl
@[simp] theorem strand_setPred_holdReq (x : Strand) (n : Nat) (b : Bool) : (x.setPred n b).holdReq = x.holdReq := by
  unfold Strand.setPred; split <;> rfl

end Sys2Proof.Laws
end

