-- ==== Sys2Proof/Laws/Engines.lean ====
section
/-! SUPPORT. What the shared operations of the engines do: a message in the trap queue, the banks and the runs at them, and what starts a
commit. -/

namespace Sys2Proof.Laws

open Sys2Proof Sys2Proof.Machine

/-! The trap queue (R130). -/

theorem mem_insertMsg (m x : TrapMsg) : ∀ q, x ∈ insertMsg m q ↔ x = m ∨ x ∈ q
  | [] => by simp [insertMsg]
  | y :: ys => by
    unfold insertMsg
    split
    · simp
    · simp [mem_insertMsg m x ys, or_left_comm]

@[simp] theorem length_insertMsg (m : TrapMsg) : ∀ q, (insertMsg m q).length = q.length + 1
  | [] => rfl
  | y :: ys => by
    unfold insertMsg
    split
    · rfl
    · simp [length_insertMsg m ys]

theorem mem_message (k : Core) (m x : TrapMsg) : x ∈ (k.message m).trapQ ↔ x = m ∨ (x ∈ k.trapQ ∧ x.strand ≠ m.strand) := by
  simp [Core.message, mem_insertMsg, withoutMsg]

/-- A new message is the only one of its strand. -/
theorem message_unique (k : Core) (m x : TrapMsg) (h : x ∈ (k.message m).trapQ) (hs : x.strand = m.strand) : x = m :=
  ((mem_message k m x).mp h).elim id (fun y => absurd hs y.2)

/-! Banks (R179, R407). -/

@[simp] theorem useBanks_mem (s : State) (c b : Nat) : (useBanks s c b).mem = s.mem := rfl
@[simp] theorem useBanks_pend (s : State) (c b : Nat) : (useBanks s c b).pend = s.pend := rfl
@[simp] theorem useBanks_now (s : State) (c b : Nat) : (useBanks s c b).now = s.now := rfl
@[simp] theorem useBanks_tasks (s : State) (c b : Nat) : (useBanks s c b).tasks = s.tasks := rfl

/-- A request whose bank is under test is not served. -/
theorem servedNow_underTest (s : State) (all : List BReq) (q : BReq) (h : underTest s q = true) : servedNow s all q = false := by
  simp [servedNow, h]

/-- A request that is served has waited 10 cycles, or its banks are free and no request of them comes before it. -/
theorem servedNow_cases (s : State) (all : List BReq) (q : BReq) (h : servedNow s all q = true) :
    underTest s q = false ∧ (q.reach + 10 ≤ s.now ∨ (banksFree s q.core q.banks = true ∧
      ∀ b ∈ all, b.core = q.core → b.banks &&& q.banks ≠ 0 → b.beats s.now q = false)) := by
  simp only [servedNow, Bool.and_eq_true, Bool.or_eq_true, Bool.not_eq_true', decide_eq_true_eq, List.all_eq_true, bne_iff_ne,
    beq_iff_eq] at h
  obtain ⟨h1, h2 | ⟨h2, h3⟩⟩ := h
  · exact ⟨h1, .inl h2⟩
  · refine ⟨h1, .inr ⟨h2, fun b hb hc hn => ?_⟩⟩
    rcases h3 b hb with (h | h) | h
    · exact absurd hc h
    · exact absurd h hn
    · exact h

/-- All that a run's turn can do: a run that its banks have served is made, or a bank serves one of its words. -/
theorem runEvent_cases {s t : State} (h : runEvent s = some t) :
    (∃ r ∈ allRuns s, r.heads = [] ∧ t = makeRun s r.who) ∨
    ∃ r ∈ allRuns s, ∃ w ∈ r.heads,
      servedNow s ((allRuns s).flatMap RunAt.reqs ++ (s.cores.map (fun x => x.1)).flatMap (scalarReqs s)) (r.req w) = true ∧
      t = noteServed (useBanks s (r.req w).core (r.req w).banks) w r.who := by
  obtain ⟨r, hr, h⟩ := List.exists_of_findSome?_eq_some h
  split at h
  · rename_i e
    exact .inl ⟨r, hr, e, (Option.some.inj h).symm⟩
  · obtain ⟨q, hq, h⟩ := Option.map_eq_some_iff.mp h
    have hs := List.find?_some hq
    exact .inr ⟨r, hr, q, List.mem_of_find?_eq_some hq, hs, h.symm⟩

/-! Commit (R28, R262). -/

/-- What must hold for a task to enter Committing. -/
theorem mayCommit_iff (s : State) (r : Nat) : mayCommit s r = true ↔
    (getTask s r).st = .retired ∧ (getTask s r).retAt < s.now ∧ withinHorizon s (getTask s r).stamp = true ∧ storesOpen s r = false := by
  simp [mayCommit, and_assoc]

end Sys2Proof.Laws
end

