-- ==== Sys2Proof/Laws/Ops.lean ====
section
/-! SUPPORT. What the shared operations do: writing an operand, completing, leaving, taking a trap. -/

namespace Sys2Proof.Laws

open Sys2Proof.Machine

variable {α : Type}

@[simp] theorem setK_setK_self (l : List (Nat × α)) (k : Nat) (u v : α) : setK (setK l k u) k v = setK l k v := by
  induction l with
  | nil => simp [setK]
  | cons e t ih =>
    obtain ⟨j, w⟩ := e
    by_cases h1 : k < j
    · simp [setK, h1]
    · by_cases h2 : k = j
      · subst h2; simp [setK]
      · simp [setK, h1, h2, ih]

/-- Two changes of one strand are one. -/
@[simp] theorem modStrand_modStrand_self (s : State) (c t : Nat) (f g : Strand → Strand) :
    modStrand (modStrand s c t f) c t g = modStrand s c t (fun x => g (f x)) := by
  simp only [modStrand, modCore, Core.modStrand, getCore, getK_setK_self, setK_setK_self, Core.strand]

/-! Reading and writing operands. -/

theorem visibleWrite_prune (t now : Nat) (v : Word) (ws : List SWrite) :
    visibleWrite t now (pruneWrites now (⟨v, now, t⟩ :: ws)) = some v := by
  simp only [pruneWrites]
  split <;> simp [visibleWrite]

/-- A strand reads a shared register as it last wrote it (R99). -/
theorem sharedRead_sharedWrite_self (k : Core) (r t now : Nat) (v : Word) :
    (k.sharedWrite r t now v).sharedRead r t now = v := by
  simp [Core.sharedRead, Core.sharedWrite, visibleWrite_prune]

theorem sharedRead_sharedWrite_ne (k : Core) {r r' : Nat} (t now : Nat) (v : Word) (h : r' ≠ r) :
    (k.sharedWrite r t now v).sharedRead r' t now = k.sharedRead r' t now := by
  simp [Core.sharedRead, Core.sharedWrite, getK_setK_ne _ _ _ h]

theorem testBit_set (p n b : Nat) (hb : b < 2) (m : Nat) :
    (p - p / 2 ^ n % 2 * 2 ^ n + b * 2 ^ n).testBit m = if m = n then decide (b = 1) else p.testBit m := by
  have e : p - p / 2 ^ n % 2 * 2 ^ n + b * 2 ^ n = 2 ^ (n + 1) * (p / 2 ^ (n + 1)) + (p % 2 ^ n + b * 2 ^ n) := by
    have h1 := Nat.div_add_mod p (2 ^ (n + 1))
    have h2 : p % 2 ^ (n + 1) = p % 2 ^ n + 2 ^ n * (p / 2 ^ n % 2) := by
      rw [pow_succ]; exact Nat.mod_mul
    have h3 : p / 2 ^ n % 2 * 2 ^ n = 2 ^ n * (p / 2 ^ n % 2) := Nat.mul_comm _ _
    omega
  have hlow : p % 2 ^ n < 2 ^ n := Nat.mod_lt _ (Nat.two_pow_pos n)
  have hlt : p % 2 ^ n + b * 2 ^ n < 2 ^ (n + 1) := by
    rw [pow_succ]
    have : b * 2 ^ n ≤ 1 * 2 ^ n := Nat.mul_le_mul_right _ (by omega)
    omega
  rw [e, Nat.testBit_two_pow_mul_add _ hlt]
  by_cases hm : m < n + 1
  · simp only [hm, if_true]
    rw [show p % 2 ^ n + b * 2 ^ n = 2 ^ n * b + p % 2 ^ n by rw [Nat.mul_comm b]; omega, Nat.testBit_two_pow_mul_add _ hlow]
    by_cases hn : m = n
    · subst hn
      have : b = 0 ∨ b = 1 := by omega
      rcases this with rfl | rfl <;> simp
    · have : m < n := by omega
      simp [this, hn, Nat.testBit_mod_two_pow]
  · have hn : ¬ m = n := by omega
    simp only [hm, if_false, hn]
    rw [Nat.testBit_div_two_pow]
    congr 1; omega

theorem preds_setPred (x : Strand) (n : Nat) (hn : n < 8) (b : Bool) (m : Nat) (hm : m < 8) :
    (x.setPred n b).pred m = if m = n ∧ n ≠ 0 then b else x.pred m := by
  unfold Strand.setPred Strand.pred
  by_cases h0 : n = 0
  · simp [h0]
  · simp only [h0, if_false]
    by_cases hm0 : m = 0
    · subst hm0; simp [Ne.symm h0]
    · have : (m == 0) = false := by simpa using hm0
      simp only [this, Bool.false_or]
      rw [BitVec.getLsbD, BitVec.toNat_ofNat, Nat.testBit_mod_two_pow, testBit_set _ _ _ (by cases b <;> simp)]
      by_cases e : m = n
      · cases b <;> simp [e, h0, hn]
      · simp [e, hm, BitVec.getLsbD]

theorem getCore_wr_strand (s : State) (c t : Nat) (f : Strand → Strand) :
    (getCore (modStrand s c t f) c).strand t = f ((getCore s c).strand t) := by simp

/-- What a written operand reads as (R52). -/
theorem rd_wr_self (s : State) (cx : Ctx) (o : Opnd) (v : Word) : rd (wr s cx o v) cx o = readsAs o v := by
  cases o with
  | p n => simp [rd, wr, readsAs]
  | k n => simp [rd, wr, readsAs]
  | q n =>
    have hn := n.isLt
    simp only [rd, wr, readsAs, getCore_wr_strand, preds_setPred _ _ hn _ _ hn]
    by_cases h : n = 0
    · subst h; simp [Strand.pred, b2w]
    · have : n.toNat ≠ 0 := fun e => h (BitVec.eq_of_toNat_eq (by simpa using e))
      simp [this, show ¬ n = 0#3 from h]
  | _ => simp [rd, wr, readsAs, sharedRead_sharedWrite_self, Core.strand]

/-- Every other operand reads as before. -/
theorem rd_wr_ne (s : State) (cx : Ctx) {o p : Opnd} (v : Word) (h : p ≠ o) : rd (wr s cx o v) cx p = rd s cx p := by
  cases o with
  | g n =>
    cases p with
    | g m =>
      have : m.toNat ≠ n.toNat := fun e => h (by rw [BitVec.eq_of_toNat_eq e])
      simp only [rd, wr, getCore_modCore_self, Core.strand]
      exact getK_setK_ne _ _ _ (by omega)
    | _ => simp [rd, wr, Core.strand, Core.sharedRead]
  | s n =>
    cases p with
    | s m =>
      have : m.toNat ≠ n.toNat := fun e => h (by rw [BitVec.eq_of_toNat_eq e])
      simp [rd, wr, sharedRead_sharedWrite_ne _ _ _ _ this]
    | _ => simp [rd, wr, Core.strand, Core.sharedWrite]
  | p n =>
    cases p with
    | p m =>
      have : m.toNat ≠ n.toNat := fun e => h (by rw [BitVec.eq_of_toNat_eq e])
      simp [rd, wr, ptr_setPtr_ne _ _ this]
    | _ => simp [rd, wr, Core.sharedRead, Strand.base, Strand.get, Strand.kreg, Strand.pred]
  | k n =>
    cases p with
    | k m =>
      have : m.toNat ≠ n.toNat := fun e => h (by rw [BitVec.eq_of_toNat_eq e])
      simp [rd, wr, kreg_setK_ne _ _ this]
    | _ => simp [rd, wr, Core.sharedRead, Strand.base, Strand.get, Strand.ptr, Strand.pred]
  | q n =>
    cases p with
    | q m =>
      have : m.toNat ≠ n.toNat := fun e => h (by rw [BitVec.eq_of_toNat_eq e])
      simp [rd, wr, preds_setPred _ _ n.isLt _ _ m.isLt, this]
    | _ => simp [rd, wr, Core.sharedRead, Strand.base, Strand.get, Strand.ptr, Strand.kreg]
  | _ => rfl

/-- Writing an operand leaves everything else: the machine, the other cores, the core's and the strand's other parts. -/
theorem wr_outside (s : State) (cx : Ctx) (o : Opnd) (v : Word) : OutsideSame s (wr s cx o v) := by
  cases o <;> rfl

theorem getCore_wr_ne (s : State) (cx : Ctx) (o : Opnd) (v : Word) {c : Nat} (h : c ≠ cx.core) :
    getCore (wr s cx o v) c = getCore s c := by
  cases o <;> simp [wr, getCore_modCore_ne, getCore_modStrand_ne, h]

theorem coreBody_wr (s : State) (cx : Ctx) (o : Opnd) (v : Word) (c : Nat) :
    coreBody (getCore (wr s cx o v) c) = coreBody (getCore s c) := by
  by_cases h : c = cx.core
  · subst h
    cases o <;> simp [wr, coreBody, Core.modStrand, Core.sharedWrite]
  · rw [getCore_wr_ne _ _ _ _ h]

theorem getStrand_wr_ne (s : State) (cx : Ctx) (o : Opnd) (v : Word) {c u : Nat} (h : ¬(c = cx.core ∧ u = cx.strand)) :
    getStrand (wr s cx o v) c u = getStrand s c u := by
  by_cases hc : c = cx.core
  · subst hc
    have hu : u ≠ cx.strand := fun e => h ⟨rfl, e⟩
    cases o <;> simp [wr, getStrand, Core.sharedWrite, strand_modStrand_ne, hu] <;> rfl
  · simp only [getStrand, getCore_wr_ne _ _ _ _ hc]

/-- The strand after an operand write: only its registers may differ. -/
theorem getStrand_wr_self (s : State) (cx : Ctx) (o : Opnd) (v : Word) :
    let x := getStrand s cx.core cx.strand
    let y := getStrand (wr s cx o v) cx.core cx.strand
    strandBody y = strandBody x ∧ y.st = x.st ∧ y.pc = x.pc ∧ y.wait = x.wait ∧ y.cr = x.cr ∧ y.holdReq = x.holdReq ∧
      y.tmrHit = x.tmrHit := by
  cases o <;> simp [wr, getStrand, Core.sharedWrite, strandBody, Core.strand, Core.modStrand]
  case q n => simp only [Strand.setPred]; split <;> simp

theorem file_wr (s : State) (cx : Ctx) (o : Opnd) (v : Word) (j : Nat)
    (h : ∀ n, o = .g n → j ≠ (getStrand s cx.core cx.strand).base + n.toNat) :
    getK 0 (getCore (wr s cx o v) cx.core).rf j = getK 0 (getCore s cx.core).rf j := by
  cases o with
  | g n =>
    simp only [wr, getCore_modCore_self]
    exact getK_setK_ne _ _ _ (h n rfl)
  | _ => simp [wr, Core.sharedWrite]

theorem shared_wr (s : State) (cx : Ctx) (o : Opnd) (v : Word) (r : Nat) (h : ∀ n, o = .s n → r ≠ n.toNat) :
    getK [] (getCore (wr s cx o v) cx.core).shared r = getK [] (getCore s cx.core).shared r := by
  cases o with
  | s n =>
    simp only [wr, getCore_modCore_self, Core.sharedWrite]
    exact getK_setK_ne _ _ _ (h n rfl)
  | _ => simp [wr]

theorem lsRead_modStrand (s : State) (c u : Nat) (f : Strand → Strand) (d a : Nat) :
    lsRead (modStrand s c u f) d a = lsRead s d a := by
  unfold lsRead
  by_cases h : d = c
  · subst h; simp
  · rw [getCore_modStrand_ne _ _ _ h]

theorem lsRead_wr (s : State) (cx : Ctx) (o : Opnd) (v : Word) (d a : Nat) : lsRead (wr s cx o v) d a = lsRead s d a := by
  have h := congrArg Core.ls (coreBody_wr s cx o v d)
  exact congrArg (fun m => Memory.read m a) h

/-- Reading an operand looks at the strand's window, pointers, predicates and nest indices, the register file, the shared
registers and the cycle. -/
theorem rd_modStrand (s : State) (cx : Ctx) (f : Strand → Strand) (o : Opnd)
    (h : ∀ x, (f x).cr = x.cr ∧ (f x).ptrs = x.ptrs ∧ (f x).preds = x.preds ∧ (f x).kidx = x.kidx) :
    rd (modStrand s cx.core cx.strand f) cx o = rd s cx o := by
  have h := h ((getCore s cx.core).strand cx.strand)
  cases o <;> simp [rd, Core.sharedRead, Strand.base, Strand.get, Strand.ptr, Strand.kreg, Strand.pred, h]

/-! Completing. -/

/-- A strand that shows Waiting is Waiting (R19). -/
theorem shown_waiting (x : Strand) (now : Nat) (h : x.shown now = .waiting) : x.st = .waiting := by
  unfold Strand.shown at h
  split at h
  · split at h
    · cases h
    · exact h
  · exact h

/-- An undisturbed strand rejoins as Ready, from the next cycle on (R20, R44). -/
theorem rejoin_undisturbed (s : State) (c t : Nat) (h : Undisturbed (getStrand s c t)) :
    rejoin s c t = modStrand s c t (fun x => { x with st := .ready, wait := none, readyFrom := s.now + 1 }) := by
  obtain ⟨h1, h2, h3⟩ := h
  by_cases hw : (getStrand s c t).st = .waiting
  · simp [rejoin, h1, h2, h3 hw]
  · have : (getStrand s c t).shown s.now ≠ .waiting := fun e => hw (shown_waiting _ _ e)
    simp [rejoin, h1, h2, this]

/-- An instruction of an undisturbed strand completes: the strand is Ready at the next address (R120). -/
theorem completeAt_undisturbed (s : State) (cx : Ctx) (pc : Word) (h : Undisturbed (getStrand s cx.core cx.strand)) :
    completeAt s cx pc = modStrand s cx.core cx.strand (fun x => { x with pc := pc, st := .ready, wait := none, readyFrom := s.now + 1 }) := by
  unfold completeAt
  rw [rejoin_undisturbed _ _ _ (by simpa [Undisturbed, Strand.dbg, Strand.get] using h), modStrand_modStrand_self]
  rfl

theorem complete_undisturbed (s : State) (cx : Ctx) (h : Undisturbed (getStrand s cx.core cx.strand)) :
    complete s cx =
      modStrand s cx.core cx.strand (fun x => { x with pc := nextPc cx, st := .ready, wait := none, readyFrom := s.now + 1 }) :=
  completeAt_undisturbed s cx _ h

theorem undisturbed_wr (s : State) (cx : Ctx) (o : Opnd) (v : Word) (h : Undisturbed (getStrand s cx.core cx.strand)) :
    Undisturbed (getStrand (wr s cx o v) cx.core cx.strand) := by
  obtain ⟨_, e1, _, _, e2, e3, e4⟩ := getStrand_wr_self s cx o v
  simpa [Undisturbed, Strand.dbg, Strand.get, e1, e2, e3, e4] using h

/-- Writing a register and completing changes that register, the pc and nothing else. -/
theorem completeAt_wr_frame (s : State) (cx : Ctx) (o : Opnd) (v pc : Word)
    (h : Undisturbed (getStrand s cx.core cx.strand)) :
    RegisterFrame s (completeAt (wr s cx o v) cx pc) cx o ∧ GoesOn (completeAt (wr s cx o v) cx pc) cx pc ∧
      rd (completeAt (wr s cx o v) cx pc) cx o = readsAs o v := by
  rw [completeAt_undisturbed _ _ _ (undisturbed_wr s cx o v h)]
  have hrd : ∀ p, rd (modStrand (wr s cx o v) cx.core cx.strand
      (fun x => { x with pc := pc, st := .ready, wait := none, readyFrom := (wr s cx o v).now + 1 })) cx p
      = rd (wr s cx o v) cx p := fun p => rd_modStrand _ _ _ _ (fun _ => ⟨rfl, rfl, rfl, rfl⟩)
  refine ⟨⟨wr_outside s cx o v, ⟨fun a => ?_, fun c a => ?_⟩, ⟨fun d hd => ?_, fun u hu => ?_⟩, ?_, ?_, ?_⟩, ?_, ?_⟩
  · show (wr s cx o v).mem.read a = _
    cases o <;> rfl
  · rw [lsRead_modStrand, lsRead_wr]
  · rw [getCore_modStrand_ne _ _ _ hd, getCore_wr_ne _ _ _ _ hd]
  · rw [getStrand_modStrand_ne _ _ (fun e => hu e.2), getStrand_wr_ne _ _ _ _ (fun e => hu e.2)]
  · rw [← coreBody_wr s cx o v]; simp [coreBody, Core.modStrand]
  · rw [getStrand_modStrand_self]; exact (getStrand_wr_self s cx o v).1
  · refine ⟨fun p hp => by rw [hrd, rd_wr_ne _ _ _ hp], fun j hj => ?_, fun r hr => ?_⟩
    · rw [← file_wr s cx o v j hj]; simp
    · rw [← shared_wr s cx o v r hr]; simp
  · simp [GoesOn]
  · rw [hrd, rd_wr_self]

/-- `finish` writes its operand, completes at the next address and changes nothing else. -/
theorem finish_frame (s : State) (cx : Ctx) (o : Opnd) (v : Word) (h : Undisturbed (getStrand s cx.core cx.strand)) :
    RegisterFrame s (finish s cx o v) cx o ∧ GoesOn (finish s cx o v) cx (nextPc cx) ∧
      rd (finish s cx o v) cx o = readsAs o v :=
  completeAt_wr_frame s cx o v _ h

/-- Completing alone changes the pc and nothing else. -/
theorem completeAt_frame (s : State) (cx : Ctx) (pc : Word) (h : Undisturbed (getStrand s cx.core cx.strand)) :
    RegisterFrame s (completeAt s cx pc) cx .none ∧ GoesOn (completeAt s cx pc) cx pc :=
  let k := completeAt_wr_frame s cx .none 0 pc h
  ⟨k.1, k.2.1⟩

/-! Issuing. -/

/-- A performed instruction whose registers lie in its window does its own work (R54, R91). -/
theorem issue_performs (x : Args) (s : State) (body : State → State) (h : Performs s x) :
    issue none x s body = .next (body s) := by
  simp [issue, h.1, h.2]

/-- A cause decided before the guard is raised whatever the guard (R58). -/
theorem issue_pre (cause : Byte) (x : Args) (s : State) (body : State → State) :
    issue (some cause) x s body = .next (trapAt s s.cur cause 0) := rfl

/-- An instruction that its guard does not perform only advances (R54). -/
theorem issue_guard (x : Args) (s : State) (body : State → State) (h : performed s x = false) :
    issue none x s body = .next (complete s s.cur) := by
  simp [issue, h]

/-- A general register outside the window raises 0x19 (R91). -/
theorem issue_window (x : Args) (s : State) (body : State → State) (h : performed s x = true)
    (w : argsInWindow s x = false) : issue none x s body = .next (trapAt s s.cur 0x19 0) := by
  simp [issue, h, w]

/-- Issuing answers a next state. -/
theorem issue_next (pre : Option Byte) (x : Args) (s : State) (body : State → State) :
    ∃ t, issue pre x s body = .next t := ⟨_, rfl⟩

/-- A walk passes when each of its bytes passes. -/
theorem checkWalk_none (s : State) (cx : Ctx) (p : Word) (n : Nat) : ∀ i, (∀ j, i ≤ j → j < i + n → checkByte s cx (advance p j) = none) → checkWalk s cx p i n = none := by
  induction n with
  | zero => intro i _; rfl
  | succ n ih =>
    intro i h
    unfold checkWalk
    rw [h i (Nat.le_refl i) (by omega)]
    exact ih (i + 1) (fun j h1 h2 => h j (by omega) (by omega))


end Sys2Proof.Laws
end

