-- ==== Sys2Proof/Laws/Memory.lean ====
section
/-! SUPPORT. Every operation that writes a memory keeps the canonical form of all of them (log 2), and so do the shared operations
that write none; what a local store reads as after a store; leaving the rotation. -/

namespace Sys2Proof.Laws

open Sys2Proof.Machine

/-! The canonical form. -/

/-- The form depends on global memory and the cores alone. -/
theorem memWf_congr {s t : State} (h : MemWf s) (hm : t.mem = s.mem) (hc : t.cores = s.cores) : MemWf t := by
  unfold MemWf; rw [hm, hc]; exact h

theorem memWf_reset : MemWf State.reset := ⟨rfl, by intro e h; cases h⟩

/-- Every core's store is canonical, the ones that are not listed too. -/
theorem memWf_core {s : State} (h : MemWf s) (c : Nat) : (getCore s c).ls.wf = true :=
  getK_induct (fun k : Core => k.ls.wf = true) _ _ _ rfl h.2

theorem memWf_modCore {s : State} (h : MemWf s) (c : Nat) (f : Core → Core)
    (hf : ∀ k : Core, k.ls.wf = true → (f k).ls.wf = true) : MemWf (modCore s c f) := by
  refine ⟨h.1, fun e he => ?_⟩
  rcases mem_setK _ _ _ e he with rfl | he
  · exact hf _ (memWf_core h c)
  · exact h.2 e he

/-- Changing a core without its store. -/
theorem memWf_modCore_ls {s : State} (h : MemWf s) (c : Nat) (f : Core → Core) (hf : ∀ k : Core, (f k).ls = k.ls) :
    MemWf (modCore s c f) :=
  memWf_modCore h c f (fun k hk => by rw [hf]; exact hk)

theorem memWf_modStrand {s : State} (h : MemWf s) (c t : Nat) (f : Strand → Strand) : MemWf (modStrand s c t f) :=
  memWf_modCore_ls h c _ (fun _ => rfl)

theorem memWf_perfAdd {s : State} (h : MemWf s) (c i n : Nat) : MemWf (perfAdd s c i n) :=
  memWf_modCore_ls h c _ (fun _ => rfl)

theorem memWf_modLoom {s : State} (h : MemWf s) (l : Nat) (f : Loom → Loom) : MemWf (modLoom s l f) := memWf_congr h rfl rfl

theorem memWf_modTask {s : State} (h : MemWf s) (r : Nat) (f : Task → Task) : MemWf (modTask s r f) := memWf_congr h rfl rfl

theorem memWf_sched {s : State} (h : MemWf s) (due : Nat) (ev : Instr) : MemWf (sched s due ev) := memWf_congr h rfl rfl

theorem memWf_reply {s : State} (h : MemWf s) (id : Nat) (ws : List Word) : MemWf (reply s id ws) := memWf_congr h rfl rfl

/-! The operations that write bytes. -/

theorem memWf_lsWrite {s : State} (h : MemWf s) (c off : Nat) (bs : List Byte) : MemWf (lsWrite s c off bs) :=
  memWf_modCore h c _ (fun k hk => writeN_wf bs k.ls off hk)

theorem memWf_walkWrite (bs : List Byte) : ∀ {s : State} (_ : MemWf s) (p : Word) (i : Nat), MemWf (walkWrite s p i bs) := by
  induction bs with
  | nil => intro s h p i; exact h
  | cons b bs ih => intro s h p i; exact ih (memWf_lsWrite h _ _ _) p (i + 1)

theorem memWf_memWrite {s : State} (h : MemWf s) (pa : Nat) (bs : List Byte) : MemWf (memWrite s pa bs) := by
  refine ⟨writeN_wf bs s.mem pa h.1, fun e he => ?_⟩
  obtain ⟨k, hk, rfl⟩ := List.mem_map.1 he
  exact h.2 k hk

theorem memWf_setRecWord {s : State} (h : MemWf s) (r i : Nat) (v : Word) : MemWf (setRecWord s r i v) := by
  unfold setRecWord
  split
  · exact ⟨writeN_wf _ _ _ h.1, h.2⟩
  · exact h

theorem memWf_setRecBits {s : State} (h : MemWf s) (r i hi lo v : Nat) : MemWf (setRecBits s r i hi lo v) :=
  memWf_setRecWord h r i _

/-! The shared operations that write none. -/

theorem memWf_wr {s : State} (h : MemWf s) (cx : Ctx) (o : Opnd) (v : Word) : MemWf (wr s cx o v) := by
  cases o <;> first | exact memWf_modCore_ls h _ _ (fun _ => rfl) | exact memWf_modStrand h _ _ _ | exact h

theorem memWf_enterHandler {s : State} (h : MemWf s) (c : Nat) (epc : Word) : MemWf (enterHandler s c epc) :=
  memWf_modStrand h _ _ _

theorem memWf_takeTrap {s : State} (h : MemWf s) (c t : Nat) (cause : Byte) (info : Word) (word : IWord) (addr epc : Word) :
    MemWf (takeTrap s c t cause info word addr epc) := by
  have h1 : MemWf (if cause = 0x0C then perfAdd s c 7 1 else if cause = 0x1B then perfAdd s c 10 1 else s) := by
    split
    · exact memWf_perfAdd h _ _ _
    · split
      · exact memWf_perfAdd h _ _ _
      · exact h
  unfold takeTrap
  dsimp only
  generalize (if cause = 0x0C then perfAdd s c 7 1 else if cause = 0x1B then perfAdd s c 10 1 else s) = s1 at h1
  have h2 := memWf_modStrand h1 c t (fun x => { (x.record cause info epc word).setDbg 1 false with wait := none })
  generalize modStrand s1 c t _ = s2 at h2
  have h3 : MemWf (if cause = 0x16 then modStrand s2 c t (fun x => { x with tmrHit := false }) else s2) := by
    split
    · exact memWf_modStrand h2 _ _ _
    · exact h2
  generalize (if cause = 0x16 then modStrand s2 c t (fun x => { x with tmrHit := false }) else s2) = s3 at h3
  split
  · split
    · exact memWf_reply (memWf_modStrand h3 _ _ _) _ _
    · refine memWf_enterHandler ?_ _ _
      exact memWf_modCore_ls h3 c _ (fun _ => rfl)
  · exact memWf_modCore_ls h3 _ _ (fun _ => rfl)

theorem memWf_trapAt {s : State} (h : MemWf s) (cx : Ctx) (cause : Byte) (info : Word) : MemWf (trapAt s cx cause info) :=
  memWf_takeTrap h _ _ _ _ _ _ _

theorem memWf_becomeHeld {s : State} (h : MemWf s) (c t : Nat) (cause : Byte) (tell : Bool) :
    MemWf (becomeHeld s c t cause tell) := by
  unfold becomeHeld
  dsimp only
  split
  · exact memWf_modCore_ls (memWf_modStrand h _ _ _) _ _ (fun _ => rfl)
  · exact memWf_modStrand h _ _ _

theorem memWf_rejoin {s : State} (h : MemWf s) (c t : Nat) : MemWf (rejoin s c t) := by
  unfold rejoin
  dsimp only
  split
  · exact memWf_becomeHeld (memWf_modStrand (memWf_modStrand h _ _ _) _ _ _) _ _ _ _
  · split
    · exact memWf_becomeHeld (memWf_modStrand h _ _ _) _ _ _ _
    · split
      · exact memWf_takeTrap (memWf_modStrand h _ _ _) _ _ _ _ _ _ _
      · exact memWf_modStrand h _ _ _

theorem memWf_completeAt {s : State} (h : MemWf s) (cx : Ctx) (pc : Word) : MemWf (completeAt s cx pc) :=
  memWf_rejoin (memWf_modStrand h _ _ _) _ _

theorem memWf_complete {s : State} (h : MemWf s) (cx : Ctx) : MemWf (complete s cx) := memWf_completeAt h _ _

theorem memWf_finish {s : State} (h : MemWf s) (cx : Ctx) (o : Opnd) (v : Word) : MemWf (finish s cx o v) :=
  memWf_complete (memWf_wr h _ _ _) _

theorem memWf_leave {s : State} (h : MemWf s) (st : StrandState) (why : Why) (b : Bool) (i : Instr) (cx : Ctx) (o : Opnd) :
    MemWf (leave s st why b i cx o) := memWf_modStrand h _ _ _

theorem memWf_leaveFlight {s : State} (h : MemWf s) (i : Instr) (cx : Ctx) : MemWf (leaveFlight s i cx) := memWf_leave h _ _ _ _ _ _

theorem memWf_applyIncs (l : List (BitVec 3 × Word)) {s : State} (h : MemWf s) (cx : Ctx) : MemWf (applyIncs s cx l) := by
  unfold applyIncs
  split
  · exact h
  · exact memWf_modStrand h _ _ _

theorem memWf_finishDone {s : State} (h : MemWf s) (d : Done) : MemWf (finishDone s d) := by
  obtain ⟨cx, o, v, l⟩ := d
  have h1 := memWf_applyIncs l h cx
  cases v with
  | none => exact memWf_complete h1 _
  | some v => exact memWf_complete (memWf_wr h1 _ _ _) _

/-- Issuing keeps the form when what the instruction does keeps it. -/
theorem memWf_issue {pre : Option Byte} {x : Args} {s t : State} {body : State → State} (h : MemWf s)
    (hb : MemWf (body s)) (k : issue pre x s body = .next t) : MemWf t := by
  unfold issue at k
  split at k
  · cases k; exact memWf_trapAt h _ _ _
  · repeat' split at k
    all_goals cases k
    all_goals first | exact memWf_complete h _ | exact memWf_trapAt h _ _ _ | exact hb

/-! What a local store reads as. -/

theorem lsRead_lsWrite_ne (s : State) {c d : Nat} (off a : Nat) (bs : List Byte) (h : d ≠ c) :
    lsRead (lsWrite s c off bs) d a = lsRead s d a := by
  simp [lsRead, lsWrite, getCore_modCore_ne _ _ h]

theorem lsRead_lsWrite_out (s : State) (c off a : Nat) (bs : List Byte) (h : a < off ∨ off + bs.length ≤ a) :
    lsRead (lsWrite s c off bs) c a = lsRead s c a := by
  simp [lsRead, lsWrite, read_writeN_out bs _ off a h]

/-! Leaving the rotation. -/

/-- `leave` puts the strand into its state with its wait and touches no register. -/
theorem leave_leaves (s : State) (st : StrandState) (why : Why) (b : Bool) (i : Instr) (o : Opnd) :
    Leaves s (leave s st why b i s.cur o) st why b := by
  refine ⟨?_, ⟨{ why, instr := i, cx := s.cur, counted := b, since := s.now, dst := o }, ?_, rfl, rfl, rfl, rfl⟩, ?_, ?_, ?_⟩
  · simp [leave, curStrand]
  · simp [leave, curStrand]
  · simp [leave, curStrand]
  · simp [leave, curStrand, strandBody]
  · exact fun p => rd_modStrand s s.cur _ p (fun _ => ⟨rfl, rfl, rfl, rfl⟩)

/-- Leaving until a happening comes about changes the strand's state and wait and the pending list, and nothing else. -/
theorem leaveFlight_until (s : State) (i : Instr) (due : Nat) (ev : Instr) :
    LeavesUntil s (sched (leaveFlight s i s.cur) due ev) due ev := by
  have h := leave_leaves s .waiting .flight false i .none
  refine ⟨⟨h.state, h.wait, h.pc, h.strand, h.registers⟩, rfl, rfl, ⟨fun _ => rfl, fun c a => ?_⟩, ⟨fun d hd => ?_, fun u hu => ?_⟩, ?_⟩
  · exact lsRead_modStrand s _ _ _ c a
  · exact getCore_modStrand_ne s _ _ hd
  · exact getStrand_modStrand_ne s _ (fun e => hu e.2)
  · have e := getCore_modCore_self s s.cur.core (fun k => k.modStrand s.cur.strand (fun x =>
      { x with st := .waiting, wait := some { why := .flight, instr := i, cx := s.cur, counted := false, since := s.now } }))
    exact congrArg (fun k : Core => { k with strands := [] }) e

end Sys2Proof.Laws
end

