-- ==== Sys2Proof/Laws/PerInstr.lean ====
section
/-! SUPPORT. The family RoundTrip: for every constructor, the row that stands at its code builds that instruction from its operands. It is
what the agreement of decoder and encoder needs of the opcode map. -/

/-- The row at an instruction's code has that code, and its constructor applied to the instruction's operands is the instruction. -/
def Sys2Proof.Laws.RoundTrip.Statement (i : Sys2Proof.Instr) : Prop :=
  ∀ code, Sys2Proof.Machine.codeOf i = some code →
    ∃ r, Sys2Proof.Machine.rowOf code = some r ∧ r.code = code ∧ r.ctor (Sys2Proof.Machine.argsOf i) = i

namespace Sys2Proof.Laws

open Sys2Proof.Machine

theorem RoundTrip.add (x : Args) : RoundTrip.Statement (.add x) := fun _ h => by cases h; exact ⟨_, rfl, rfl, rfl⟩
theorem RoundTrip.sub (x : Args) : RoundTrip.Statement (.sub x) := fun _ h => by cases h; exact ⟨_, rfl, rfl, rfl⟩
theorem RoundTrip.mul (x : Args) : RoundTrip.Statement (.mul x) := fun _ h => by cases h; exact ⟨_, rfl, rfl, rfl⟩
theorem RoundTrip.mulh (x : Args) : RoundTrip.Statement (.mulh x) := fun _ h => by cases h; exact ⟨_, rfl, rfl, rfl⟩
theorem RoundTrip.div (x : Args) : RoundTrip.Statement (.div x) := fun _ h => by cases h; exact ⟨_, rfl, rfl, rfl⟩
theorem RoundTrip.rem (x : Args) : RoundTrip.Statement (.rem x) := fun _ h => by cases h; exact ⟨_, rfl, rfl, rfl⟩
theorem RoundTrip.and (x : Args) : RoundTrip.Statement (.and x) := fun _ h => by cases h; exact ⟨_, rfl, rfl, rfl⟩
theorem RoundTrip.or (x : Args) : RoundTrip.Statement (.or x) := fun _ h => by cases h; exact ⟨_, rfl, rfl, rfl⟩
theorem RoundTrip.xor (x : Args) : RoundTrip.Statement (.xor x) := fun _ h => by cases h; exact ⟨_, rfl, rfl, rfl⟩
theorem RoundTrip.andn (x : Args) : RoundTrip.Statement (.andn x) := fun _ h => by cases h; exact ⟨_, rfl, rfl, rfl⟩
theorem RoundTrip.shl (x : Args) : RoundTrip.Statement (.shl x) := fun _ h => by cases h; exact ⟨_, rfl, rfl, rfl⟩
theorem RoundTrip.shr (x : Args) : RoundTrip.Statement (.shr x) := fun _ h => by cases h; exact ⟨_, rfl, rfl, rfl⟩
theorem RoundTrip.sar (x : Args) : RoundTrip.Statement (.sar x) := fun _ h => by cases h; exact ⟨_, rfl, rfl, rfl⟩
theorem RoundTrip.rol (x : Args) : RoundTrip.Statement (.rol x) := fun _ h => by cases h; exact ⟨_, rfl, rfl, rfl⟩
theorem RoundTrip.min (x : Args) : RoundTrip.Statement (.min x) := fun _ h => by cases h; exact ⟨_, rfl, rfl, rfl⟩
theorem RoundTrip.max (x : Args) : RoundTrip.Statement (.max x) := fun _ h => by cases h; exact ⟨_, rfl, rfl, rfl⟩
theorem RoundTrip.addi (x : Args) : RoundTrip.Statement (.addi x) := fun _ h => by cases h; exact ⟨_, rfl, rfl, rfl⟩
theorem RoundTrip.andi (x : Args) : RoundTrip.Statement (.andi x) := fun _ h => by cases h; exact ⟨_, rfl, rfl, rfl⟩
theorem RoundTrip.ori (x : Args) : RoundTrip.Statement (.ori x) := fun _ h => by cases h; exact ⟨_, rfl, rfl, rfl⟩
theorem RoundTrip.xori (x : Args) : RoundTrip.Statement (.xori x) := fun _ h => by cases h; exact ⟨_, rfl, rfl, rfl⟩
theorem RoundTrip.shli (x : Args) : RoundTrip.Statement (.shli x) := fun _ h => by cases h; exact ⟨_, rfl, rfl, rfl⟩
theorem RoundTrip.shri (x : Args) : RoundTrip.Statement (.shri x) := fun _ h => by cases h; exact ⟨_, rfl, rfl, rfl⟩
theorem RoundTrip.sari (x : Args) : RoundTrip.Statement (.sari x) := fun _ h => by cases h; exact ⟨_, rfl, rfl, rfl⟩
theorem RoundTrip.roli (x : Args) : RoundTrip.Statement (.roli x) := fun _ h => by cases h; exact ⟨_, rfl, rfl, rfl⟩
theorem RoundTrip.clz (x : Args) : RoundTrip.Statement (.clz x) := fun _ h => by cases h; exact ⟨_, rfl, rfl, rfl⟩
theorem RoundTrip.ctz (x : Args) : RoundTrip.Statement (.ctz x) := fun _ h => by cases h; exact ⟨_, rfl, rfl, rfl⟩
theorem RoundTrip.popc (x : Args) : RoundTrip.Statement (.popc x) := fun _ h => by cases h; exact ⟨_, rfl, rfl, rfl⟩
theorem RoundTrip.abs (x : Args) : RoundTrip.Statement (.abs x) := fun _ h => by cases h; exact ⟨_, rfl, rfl, rfl⟩
theorem RoundTrip.neg (x : Args) : RoundTrip.Statement (.neg x) := fun _ h => by cases h; exact ⟨_, rfl, rfl, rfl⟩
theorem RoundTrip.sext (x : Args) : RoundTrip.Statement (.sext x) := fun _ h => by cases h; exact ⟨_, rfl, rfl, rfl⟩
theorem RoundTrip.zext (x : Args) : RoundTrip.Statement (.zext x) := fun _ h => by cases h; exact ⟨_, rfl, rfl, rfl⟩
theorem RoundTrip.mov (x : Args) : RoundTrip.Statement (.mov x) := fun _ h => by cases h; exact ⟨_, rfl, rfl, rfl⟩
theorem RoundTrip.movi (x : Args) : RoundTrip.Statement (.movi x) := fun _ h => by cases h; exact ⟨_, rfl, rfl, rfl⟩
theorem RoundTrip.bfx (x : Args) : RoundTrip.Statement (.bfx x) := fun _ h => by cases h; exact ⟨_, rfl, rfl, rfl⟩
theorem RoundTrip.bfi (x : Args) : RoundTrip.Statement (.bfi x) := fun _ h => by cases h; exact ⟨_, rfl, rfl, rfl⟩
theorem RoundTrip.sel (x : Args) : RoundTrip.Statement (.sel x) := fun _ h => by cases h; exact ⟨_, rfl, rfl, rfl⟩
theorem RoundTrip.cmpEq (x : Args) : RoundTrip.Statement (.cmpEq x) := fun _ h => by cases h; exact ⟨_, rfl, rfl, rfl⟩
theorem RoundTrip.cmpNe (x : Args) : RoundTrip.Statement (.cmpNe x) := fun _ h => by cases h; exact ⟨_, rfl, rfl, rfl⟩
theorem RoundTrip.cmpLt (x : Args) : RoundTrip.Statement (.cmpLt x) := fun _ h => by cases h; exact ⟨_, rfl, rfl, rfl⟩
theorem RoundTrip.cmpLe (x : Args) : RoundTrip.Statement (.cmpLe x) := fun _ h => by cases h; exact ⟨_, rfl, rfl, rfl⟩
theorem RoundTrip.cmpiEq (x : Args) : RoundTrip.Statement (.cmpiEq x) := fun _ h => by cases h; exact ⟨_, rfl, rfl, rfl⟩
theorem RoundTrip.cmpiNe (x : Args) : RoundTrip.Statement (.cmpiNe x) := fun _ h => by cases h; exact ⟨_, rfl, rfl, rfl⟩
theorem RoundTrip.cmpiLt (x : Args) : RoundTrip.Statement (.cmpiLt x) := fun _ h => by cases h; exact ⟨_, rfl, rfl, rfl⟩
theorem RoundTrip.cmpiLe (x : Args) : RoundTrip.Statement (.cmpiLe x) := fun _ h => by cases h; exact ⟨_, rfl, rfl, rfl⟩
theorem RoundTrip.tst (x : Args) : RoundTrip.Statement (.tst x) := fun _ h => by cases h; exact ⟨_, rfl, rfl, rfl⟩
theorem RoundTrip.fadd (x : Args) : RoundTrip.Statement (.fadd x) := fun _ h => by cases h; exact ⟨_, rfl, rfl, rfl⟩
theorem RoundTrip.fsub (x : Args) : RoundTrip.Statement (.fsub x) := fun _ h => by cases h; exact ⟨_, rfl, rfl, rfl⟩
theorem RoundTrip.fmul (x : Args) : RoundTrip.Statement (.fmul x) := fun _ h => by cases h; exact ⟨_, rfl, rfl, rfl⟩
theorem RoundTrip.fmin (x : Args) : RoundTrip.Statement (.fmin x) := fun _ h => by cases h; exact ⟨_, rfl, rfl, rfl⟩
theorem RoundTrip.fmax (x : Args) : RoundTrip.Statement (.fmax x) := fun _ h => by cases h; exact ⟨_, rfl, rfl, rfl⟩
theorem RoundTrip.ffma (x : Args) : RoundTrip.Statement (.ffma x) := fun _ h => by cases h; exact ⟨_, rfl, rfl, rfl⟩
theorem RoundTrip.fabs (x : Args) : RoundTrip.Statement (.fabs x) := fun _ h => by cases h; exact ⟨_, rfl, rfl, rfl⟩
theorem RoundTrip.fneg (x : Args) : RoundTrip.Statement (.fneg x) := fun _ h => by cases h; exact ⟨_, rfl, rfl, rfl⟩
theorem RoundTrip.fexp2 (x : Args) : RoundTrip.Statement (.fexp2 x) := fun _ h => by cases h; exact ⟨_, rfl, rfl, rfl⟩
theorem RoundTrip.frcp (x : Args) : RoundTrip.Statement (.frcp x) := fun _ h => by cases h; exact ⟨_, rfl, rfl, rfl⟩
theorem RoundTrip.fcvt (x : Args) : RoundTrip.Statement (.fcvt x) := fun _ h => by cases h; exact ⟨_, rfl, rfl, rfl⟩
theorem RoundTrip.fcmpEq (x : Args) : RoundTrip.Statement (.fcmpEq x) := fun _ h => by cases h; exact ⟨_, rfl, rfl, rfl⟩
theorem RoundTrip.fcmpLt (x : Args) : RoundTrip.Statement (.fcmpLt x) := fun _ h => by cases h; exact ⟨_, rfl, rfl, rfl⟩
theorem RoundTrip.fcmpLe (x : Args) : RoundTrip.Statement (.fcmpLe x) := fun _ h => by cases h; exact ⟨_, rfl, rfl, rfl⟩
theorem RoundTrip.fcmpUn (x : Args) : RoundTrip.Statement (.fcmpUn x) := fun _ h => by cases h; exact ⟨_, rfl, rfl, rfl⟩
theorem RoundTrip.padd (x : Args) : RoundTrip.Statement (.padd x) := fun _ h => by cases h; exact ⟨_, rfl, rfl, rfl⟩
theorem RoundTrip.pmk (x : Args) : RoundTrip.Statement (.pmk x) := fun _ h => by cases h; exact ⟨_, rfl, rfl, rfl⟩
theorem RoundTrip.pget (x : Args) : RoundTrip.Statement (.pget x) := fun _ h => by cases h; exact ⟨_, rfl, rfl, rfl⟩
theorem RoundTrip.pmov (x : Args) : RoundTrip.Statement (.pmov x) := fun _ h => by cases h; exact ⟨_, rfl, rfl, rfl⟩
theorem RoundTrip.qand (x : Args) : RoundTrip.Statement (.qand x) := fun _ h => by cases h; exact ⟨_, rfl, rfl, rfl⟩
theorem RoundTrip.qor (x : Args) : RoundTrip.Statement (.qor x) := fun _ h => by cases h; exact ⟨_, rfl, rfl, rfl⟩
theorem RoundTrip.qxor (x : Args) : RoundTrip.Statement (.qxor x) := fun _ h => by cases h; exact ⟨_, rfl, rfl, rfl⟩
theorem RoundTrip.qnot (x : Args) : RoundTrip.Statement (.qnot x) := fun _ h => by cases h; exact ⟨_, rfl, rfl, rfl⟩
theorem RoundTrip.qmov (x : Args) : RoundTrip.Statement (.qmov x) := fun _ h => by cases h; exact ⟨_, rfl, rfl, rfl⟩
theorem RoundTrip.br (x : Args) : RoundTrip.Statement (.br x) := fun _ h => by cases h; exact ⟨_, rfl, rfl, rfl⟩
theorem RoundTrip.jmp (x : Args) : RoundTrip.Statement (.jmp x) := fun _ h => by cases h; exact ⟨_, rfl, rfl, rfl⟩
theorem RoundTrip.call (x : Args) : RoundTrip.Statement (.call x) := fun _ h => by cases h; exact ⟨_, rfl, rfl, rfl⟩
theorem RoundTrip.ret (x : Args) : RoundTrip.Statement (.ret x) := fun _ h => by cases h; exact ⟨_, rfl, rfl, rfl⟩
theorem RoundTrip.nop (x : Args) : RoundTrip.Statement (.nop x) := fun _ h => by cases h; exact ⟨_, rfl, rfl, rfl⟩
theorem RoundTrip.halt (x : Args) : RoundTrip.Statement (.halt x) := fun _ h => by cases h; exact ⟨_, rfl, rfl, rfl⟩
theorem RoundTrip.sleep (x : Args) : RoundTrip.Statement (.sleep x) := fun _ h => by cases h; exact ⟨_, rfl, rfl, rfl⟩
theorem RoundTrip.ld (x : Args) : RoundTrip.Statement (.ld x) := fun _ h => by cases h; exact ⟨_, rfl, rfl, rfl⟩
theorem RoundTrip.st (x : Args) : RoundTrip.Statement (.st x) := fun _ h => by cases h; exact ⟨_, rfl, rfl, rfl⟩
theorem RoundTrip.ldx (x : Args) : RoundTrip.Statement (.ldx x) := fun _ h => by cases h; exact ⟨_, rfl, rfl, rfl⟩
theorem RoundTrip.stx (x : Args) : RoundTrip.Statement (.stx x) := fun _ h => by cases h; exact ⟨_, rfl, rfl, rfl⟩
theorem RoundTrip.lswap (x : Args) : RoundTrip.Statement (.lswap x) := fun _ h => by cases h; exact ⟨_, rfl, rfl, rfl⟩
theorem RoundTrip.lcas (x : Args) : RoundTrip.Statement (.lcas x) := fun _ h => by cases h; exact ⟨_, rfl, rfl, rfl⟩
theorem RoundTrip.ladd (x : Args) : RoundTrip.Statement (.ladd x) := fun _ h => by cases h; exact ⟨_, rfl, rfl, rfl⟩
theorem RoundTrip.vadd (x : Args) : RoundTrip.Statement (.vadd x) := fun _ h => by cases h; exact ⟨_, rfl, rfl, rfl⟩
theorem RoundTrip.vsub (x : Args) : RoundTrip.Statement (.vsub x) := fun _ h => by cases h; exact ⟨_, rfl, rfl, rfl⟩
theorem RoundTrip.vmul (x : Args) : RoundTrip.Statement (.vmul x) := fun _ h => by cases h; exact ⟨_, rfl, rfl, rfl⟩
theorem RoundTrip.vfma (x : Args) : RoundTrip.Statement (.vfma x) := fun _ h => by cases h; exact ⟨_, rfl, rfl, rfl⟩
theorem RoundTrip.vmin (x : Args) : RoundTrip.Statement (.vmin x) := fun _ h => by cases h; exact ⟨_, rfl, rfl, rfl⟩
theorem RoundTrip.vmax (x : Args) : RoundTrip.Statement (.vmax x) := fun _ h => by cases h; exact ⟨_, rfl, rfl, rfl⟩
theorem RoundTrip.vabs (x : Args) : RoundTrip.Statement (.vabs x) := fun _ h => by cases h; exact ⟨_, rfl, rfl, rfl⟩
theorem RoundTrip.vneg (x : Args) : RoundTrip.Statement (.vneg x) := fun _ h => by cases h; exact ⟨_, rfl, rfl, rfl⟩
theorem RoundTrip.vexp (x : Args) : RoundTrip.Statement (.vexp x) := fun _ h => by cases h; exact ⟨_, rfl, rfl, rfl⟩
theorem RoundTrip.vrcp (x : Args) : RoundTrip.Statement (.vrcp x) := fun _ h => by cases h; exact ⟨_, rfl, rfl, rfl⟩
theorem RoundTrip.vrsq (x : Args) : RoundTrip.Statement (.vrsq x) := fun _ h => by cases h; exact ⟨_, rfl, rfl, rfl⟩
theorem RoundTrip.vcvt (x : Args) : RoundTrip.Statement (.vcvt x) := fun _ h => by cases h; exact ⟨_, rfl, rfl, rfl⟩
theorem RoundTrip.vcpy (x : Args) : RoundTrip.Statement (.vcpy x) := fun _ h => by cases h; exact ⟨_, rfl, rfl, rfl⟩
theorem RoundTrip.vsum (x : Args) : RoundTrip.Statement (.vsum x) := fun _ h => by cases h; exact ⟨_, rfl, rfl, rfl⟩
theorem RoundTrip.vrmax (x : Args) : RoundTrip.Statement (.vrmax x) := fun _ h => by cases h; exact ⟨_, rfl, rfl, rfl⟩
theorem RoundTrip.vrmin (x : Args) : RoundTrip.Statement (.vrmin x) := fun _ h => by cases h; exact ⟨_, rfl, rfl, rfl⟩
theorem RoundTrip.vdot (x : Args) : RoundTrip.Statement (.vdot x) := fun _ h => by cases h; exact ⟨_, rfl, rfl, rfl⟩
theorem RoundTrip.vscal (x : Args) : RoundTrip.Statement (.vscal x) := fun _ h => by cases h; exact ⟨_, rfl, rfl, rfl⟩
theorem RoundTrip.vfill (x : Args) : RoundTrip.Statement (.vfill x) := fun _ h => by cases h; exact ⟨_, rfl, rfl, rfl⟩
theorem RoundTrip.vclamp (x : Args) : RoundTrip.Statement (.vclamp x) := fun _ h => by cases h; exact ⟨_, rfl, rfl, rfl⟩
theorem RoundTrip.vcmp (x : Args) : RoundTrip.Statement (.vcmp x) := fun _ h => by cases h; exact ⟨_, rfl, rfl, rfl⟩
theorem RoundTrip.vsel (x : Args) : RoundTrip.Statement (.vsel x) := fun _ h => by cases h; exact ⟨_, rfl, rfl, rfl⟩
theorem RoundTrip.vgath (x : Args) : RoundTrip.Statement (.vgath x) := fun _ h => by cases h; exact ⟨_, rfl, rfl, rfl⟩
theorem RoundTrip.vscat (x : Args) : RoundTrip.Statement (.vscat x) := fun _ h => by cases h; exact ⟨_, rfl, rfl, rfl⟩
theorem RoundTrip.vtrans (x : Args) : RoundTrip.Statement (.vtrans x) := fun _ h => by cases h; exact ⟨_, rfl, rfl, rfl⟩
theorem RoundTrip.mma (x : Args) : RoundTrip.Statement (.mma x) := fun _ h => by cases h; exact ⟨_, rfl, rfl, rfl⟩
theorem RoundTrip.mmas (x : Args) : RoundTrip.Statement (.mmas x) := fun _ h => by cases h; exact ⟨_, rfl, rfl, rfl⟩
theorem RoundTrip.mldb (x : Args) : RoundTrip.Statement (.mldb x) := fun _ h => by cases h; exact ⟨_, rfl, rfl, rfl⟩
theorem RoundTrip.mrot (x : Args) : RoundTrip.Statement (.mrot x) := fun _ h => by cases h; exact ⟨_, rfl, rfl, rfl⟩
theorem RoundTrip.mdrop (x : Args) : RoundTrip.Statement (.mdrop x) := fun _ h => by cases h; exact ⟨_, rfl, rfl, rfl⟩
theorem RoundTrip.mza (x : Args) : RoundTrip.Statement (.mza x) := fun _ h => by cases h; exact ⟨_, rfl, rfl, rfl⟩
theorem RoundTrip.mst (x : Args) : RoundTrip.Statement (.mst x) := fun _ h => by cases h; exact ⟨_, rfl, rfl, rfl⟩
theorem RoundTrip.mlda (x : Args) : RoundTrip.Statement (.mlda x) := fun _ h => by cases h; exact ⟨_, rfl, rfl, rfl⟩
theorem RoundTrip.macc (x : Args) : RoundTrip.Statement (.macc x) := fun _ h => by cases h; exact ⟨_, rfl, rfl, rfl⟩
theorem RoundTrip.rep (x : Args) : RoundTrip.Statement (.rep x) := fun _ h => by cases h; exact ⟨_, rfl, rfl, rfl⟩
theorem RoundTrip.repw (x : Args) : RoundTrip.Statement (.repw x) := fun _ h => by cases h; exact ⟨_, rfl, rfl, rfl⟩
theorem RoundTrip.mcorr (x : Args) : RoundTrip.Statement (.mcorr x) := fun _ h => by cases h; exact ⟨_, rfl, rfl, rfl⟩
theorem RoundTrip.ldg (x : Args) : RoundTrip.Statement (.ldg x) := fun _ h => by cases h; exact ⟨_, rfl, rfl, rfl⟩
theorem RoundTrip.stg (x : Args) : RoundTrip.Statement (.stg x) := fun _ h => by cases h; exact ⟨_, rfl, rfl, rfl⟩
theorem RoundTrip.amo (x : Args) : RoundTrip.Statement (.amo x) := fun _ h => by cases h; exact ⟨_, rfl, rfl, rfl⟩
theorem RoundTrip.amoc (x : Args) : RoundTrip.Statement (.amoc x) := fun _ h => by cases h; exact ⟨_, rfl, rfl, rfl⟩
theorem RoundTrip.red (x : Args) : RoundTrip.Statement (.red x) := fun _ h => by cases h; exact ⟨_, rfl, rfl, rfl⟩
theorem RoundTrip.fence (x : Args) : RoundTrip.Statement (.fence x) := fun _ h => by cases h; exact ⟨_, rfl, rfl, rfl⟩
theorem RoundTrip.pfg (x : Args) : RoundTrip.Statement (.pfg x) := fun _ h => by cases h; exact ⟨_, rfl, rfl, rfl⟩
theorem RoundTrip.cpy (x : Args) : RoundTrip.Statement (.cpy x) := fun _ h => by cases h; exact ⟨_, rfl, rfl, rfl⟩
theorem RoundTrip.cpy2 (x : Args) : RoundTrip.Statement (.cpy2 x) := fun _ h => by cases h; exact ⟨_, rfl, rfl, rfl⟩
theorem RoundTrip.cpyg (x : Args) : RoundTrip.Statement (.cpyg x) := fun _ h => by cases h; exact ⟨_, rfl, rfl, rfl⟩
theorem RoundTrip.qfence (x : Args) : RoundTrip.Statement (.qfence x) := fun _ h => by cases h; exact ⟨_, rfl, rfl, rfl⟩
theorem RoundTrip.qst (x : Args) : RoundTrip.Statement (.qst x) := fun _ h => by cases h; exact ⟨_, rfl, rfl, rfl⟩
theorem RoundTrip.send (x : Args) : RoundTrip.Statement (.send x) := fun _ h => by cases h; exact ⟨_, rfl, rfl, rfl⟩
theorem RoundTrip.sendl (x : Args) : RoundTrip.Statement (.sendl x) := fun _ h => by cases h; exact ⟨_, rfl, rfl, rfl⟩
theorem RoundTrip.mpk (x : Args) : RoundTrip.Statement (.mpk x) := fun _ h => by cases h; exact ⟨_, rfl, rfl, rfl⟩
theorem RoundTrip.mclr (x : Args) : RoundTrip.Statement (.mclr x) := fun _ h => by cases h; exact ⟨_, rfl, rfl, rfl⟩
theorem RoundTrip.mbind (x : Args) : RoundTrip.Statement (.mbind x) := fun _ h => by cases h; exact ⟨_, rfl, rfl, rfl⟩
theorem RoundTrip.lnks (x : Args) : RoundTrip.Statement (.lnks x) := fun _ h => by cases h; exact ⟨_, rfl, rfl, rfl⟩
theorem RoundTrip.bari (x : Args) : RoundTrip.Statement (.bari x) := fun _ h => by cases h; exact ⟨_, rfl, rfl, rfl⟩
theorem RoundTrip.bara (x : Args) : RoundTrip.Statement (.bara x) := fun _ h => by cases h; exact ⟨_, rfl, rfl, rfl⟩
theorem RoundTrip.barw (x : Args) : RoundTrip.Statement (.barw x) := fun _ h => by cases h; exact ⟨_, rfl, rfl, rfl⟩
theorem RoundTrip.barq (x : Args) : RoundTrip.Statement (.barq x) := fun _ h => by cases h; exact ⟨_, rfl, rfl, rfl⟩
theorem RoundTrip.nesti (x : Args) : RoundTrip.Statement (.nesti x) := fun _ h => by cases h; exact ⟨_, rfl, rfl, rfl⟩
theorem RoundTrip.nestn (x : Args) : RoundTrip.Statement (.nestn x) := fun _ h => by cases h; exact ⟨_, rfl, rfl, rfl⟩
theorem RoundTrip.nestq (x : Args) : RoundTrip.Statement (.nestq x) := fun _ h => by cases h; exact ⟨_, rfl, rfl, rfl⟩
theorem RoundTrip.waita (x : Args) : RoundTrip.Statement (.waita x) := fun _ h => by cases h; exact ⟨_, rfl, rfl, rfl⟩
theorem RoundTrip.stamp (x : Args) : RoundTrip.Statement (.stamp x) := fun _ h => by cases h; exact ⟨_, rfl, rfl, rfl⟩
theorem RoundTrip.patch (x : Args) : RoundTrip.Statement (.patch x) := fun _ h => by cases h; exact ⟨_, rfl, rfl, rfl⟩
theorem RoundTrip.arm (x : Args) : RoundTrip.Statement (.arm x) := fun _ h => by cases h; exact ⟨_, rfl, rfl, rfl⟩
theorem RoundTrip.tdone (x : Args) : RoundTrip.Statement (.tdone x) := fun _ h => by cases h; exact ⟨_, rfl, rfl, rfl⟩
theorem RoundTrip.tq (x : Args) : RoundTrip.Statement (.tq x) := fun _ h => by cases h; exact ⟨_, rfl, rfl, rfl⟩
theorem RoundTrip.tfail (x : Args) : RoundTrip.Statement (.tfail x) := fun _ h => by cases h; exact ⟨_, rfl, rfl, rfl⟩
theorem RoundTrip.rqp (x : Args) : RoundTrip.Statement (.rqp x) := fun _ h => by cases h; exact ⟨_, rfl, rfl, rfl⟩
theorem RoundTrip.rqt (x : Args) : RoundTrip.Statement (.rqt x) := fun _ h => by cases h; exact ⟨_, rfl, rfl, rfl⟩
theorem RoundTrip.fork (x : Args) : RoundTrip.Statement (.fork x) := fun _ h => by cases h; exact ⟨_, rfl, rfl, rfl⟩
theorem RoundTrip.rebase (x : Args) : RoundTrip.Statement (.rebase x) := fun _ h => by cases h; exact ⟨_, rfl, rfl, rfl⟩
theorem RoundTrip.flat (x : Args) : RoundTrip.Statement (.flat x) := fun _ h => by cases h; exact ⟨_, rfl, rfl, rfl⟩
theorem RoundTrip.drop (x : Args) : RoundTrip.Statement (.drop x) := fun _ h => by cases h; exact ⟨_, rfl, rfl, rfl⟩
theorem RoundTrip.lnq (x : Args) : RoundTrip.Statement (.lnq x) := fun _ h => by cases h; exact ⟨_, rfl, rfl, rfl⟩
theorem RoundTrip.ldel (x : Args) : RoundTrip.Statement (.ldel x) := fun _ h => by cases h; exact ⟨_, rfl, rfl, rfl⟩
theorem RoundTrip.lres (x : Args) : RoundTrip.Statement (.lres x) := fun _ h => by cases h; exact ⟨_, rfl, rfl, rfl⟩
theorem RoundTrip.kvo (x : Args) : RoundTrip.Statement (.kvo x) := fun _ h => by cases h; exact ⟨_, rfl, rfl, rfl⟩
theorem RoundTrip.kvw (x : Args) : RoundTrip.Statement (.kvw x) := fun _ h => by cases h; exact ⟨_, rfl, rfl, rfl⟩
theorem RoundTrip.kvc (x : Args) : RoundTrip.Statement (.kvc x) := fun _ h => by cases h; exact ⟨_, rfl, rfl, rfl⟩
theorem RoundTrip.kvd (x : Args) : RoundTrip.Statement (.kvd x) := fun _ h => by cases h; exact ⟨_, rfl, rfl, rfl⟩
theorem RoundTrip.kvq (x : Args) : RoundTrip.Statement (.kvq x) := fun _ h => by cases h; exact ⟨_, rfl, rfl, rfl⟩
theorem RoundTrip.pgal (x : Args) : RoundTrip.Statement (.pgal x) := fun _ h => by cases h; exact ⟨_, rfl, rfl, rfl⟩
theorem RoundTrip.pgfr (x : Args) : RoundTrip.Statement (.pgfr x) := fun _ h => by cases h; exact ⟨_, rfl, rfl, rfl⟩
theorem RoundTrip.lock (x : Args) : RoundTrip.Statement (.lock x) := fun _ h => by cases h; exact ⟨_, rfl, rfl, rfl⟩
theorem RoundTrip.lcv (x : Args) : RoundTrip.Statement (.lcv x) := fun _ h => by cases h; exact ⟨_, rfl, rfl, rfl⟩
theorem RoundTrip.lq (x : Args) : RoundTrip.Statement (.lq x) := fun _ h => by cases h; exact ⟨_, rfl, rfl, rfl⟩
theorem RoundTrip.lmld (x : Args) : RoundTrip.Statement (.lmld x) := fun _ h => by cases h; exact ⟨_, rfl, rfl, rfl⟩
theorem RoundTrip.selk (x : Args) : RoundTrip.Statement (.selk x) := fun _ h => by cases h; exact ⟨_, rfl, rfl, rfl⟩
theorem RoundTrip.softk (x : Args) : RoundTrip.Statement (.softk x) := fun _ h => by cases h; exact ⟨_, rfl, rfl, rfl⟩
theorem RoundTrip.hpush (x : Args) : RoundTrip.Statement (.hpush x) := fun _ h => by cases h; exact ⟨_, rfl, rfl, rfl⟩
theorem RoundTrip.hpop (x : Args) : RoundTrip.Statement (.hpop x) := fun _ h => by cases h; exact ⟨_, rfl, rfl, rfl⟩
theorem RoundTrip.hclr (x : Args) : RoundTrip.Statement (.hclr x) := fun _ h => by cases h; exact ⟨_, rfl, rfl, rfl⟩
theorem RoundTrip.htopp (x : Args) : RoundTrip.Statement (.htopp x) := fun _ h => by cases h; exact ⟨_, rfl, rfl, rfl⟩
theorem RoundTrip.rand (x : Args) : RoundTrip.Statement (.rand x) := fun _ h => by cases h; exact ⟨_, rfl, rfl, rfl⟩
theorem RoundTrip.biasu (x : Args) : RoundTrip.Statement (.biasu x) := fun _ h => by cases h; exact ⟨_, rfl, rfl, rfl⟩
theorem RoundTrip.biasf (x : Args) : RoundTrip.Statement (.biasf x) := fun _ h => by cases h; exact ⟨_, rfl, rfl, rfl⟩
theorem RoundTrip.adpl (x : Args) : RoundTrip.Statement (.adpl x) := fun _ h => by cases h; exact ⟨_, rfl, rfl, rfl⟩
theorem RoundTrip.mfc (x : Args) : RoundTrip.Statement (.mfc x) := fun _ h => by cases h; exact ⟨_, rfl, rfl, rfl⟩
theorem RoundTrip.mtc (x : Args) : RoundTrip.Statement (.mtc x) := fun _ h => by cases h; exact ⟨_, rfl, rfl, rfl⟩
theorem RoundTrip.start (x : Args) : RoundTrip.Statement (.start x) := fun _ h => by cases h; exact ⟨_, rfl, rfl, rfl⟩
theorem RoundTrip.reap (x : Args) : RoundTrip.Statement (.reap x) := fun _ h => by cases h; exact ⟨_, rfl, rfl, rfl⟩
theorem RoundTrip.swap (x : Args) : RoundTrip.Statement (.swap x) := fun _ h => by cases h; exact ⟨_, rfl, rfl, rfl⟩
theorem RoundTrip.wmf (x : Args) : RoundTrip.Statement (.wmf x) := fun _ h => by cases h; exact ⟨_, rfl, rfl, rfl⟩
theorem RoundTrip.wmt (x : Args) : RoundTrip.Statement (.wmt x) := fun _ h => by cases h; exact ⟨_, rfl, rfl, rfl⟩
theorem RoundTrip.trap (x : Args) : RoundTrip.Statement (.trap x) := fun _ h => by cases h; exact ⟨_, rfl, rfl, rfl⟩
theorem RoundTrip.rft (x : Args) : RoundTrip.Statement (.rft x) := fun _ h => by cases h; exact ⟨_, rfl, rfl, rfl⟩
theorem RoundTrip.brk (x : Args) : RoundTrip.Statement (.brk x) := fun _ h => by cases h; exact ⟨_, rfl, rfl, rfl⟩
theorem RoundTrip.step (x : Args) : RoundTrip.Statement (.step x) := fun _ h => by cases h; exact ⟨_, rfl, rfl, rfl⟩
theorem RoundTrip.hold (x : Args) : RoundTrip.Statement (.hold x) := fun _ h => by cases h; exact ⟨_, rfl, rfl, rfl⟩
theorem RoundTrip.resume (x : Args) : RoundTrip.Statement (.resume x) := fun _ h => by cases h; exact ⟨_, rfl, rfl, rfl⟩
theorem RoundTrip.tlbi (x : Args) : RoundTrip.Statement (.tlbi x) := fun _ h => by cases h; exact ⟨_, rfl, rfl, rfl⟩
theorem RoundTrip.ccf (x : Args) : RoundTrip.Statement (.ccf x) := fun _ h => by cases h; exact ⟨_, rfl, rfl, rfl⟩
theorem RoundTrip.illegalInstruction : RoundTrip.Statement .illegalInstruction := fun _ h => nomatch h
theorem RoundTrip.fetchFault : ∀ a b, RoundTrip.Statement (.fetchFault a b) := fun _ _ _ h => nomatch h
theorem RoundTrip.breakpointMatch : ∀ x, RoundTrip.Statement (.breakpointMatch x) := fun _ _ h => nomatch h
theorem RoundTrip.icacheFill : ∀ a b c, RoundTrip.Statement (.icacheFill a b c) := fun _ _ _ _ h => nomatch h
theorem RoundTrip.crTmsgPop : ∀ x, RoundTrip.Statement (.crTmsgPop x) := fun _ _ h => nomatch h
theorem RoundTrip.crL1splitWrite : ∀ a b, RoundTrip.Statement (.crL1splitWrite a b) := fun _ _ _ h => nomatch h
theorem RoundTrip.l1splitTakeEffect : ∀ a b, RoundTrip.Statement (.l1splitTakeEffect a b) := fun _ _ _ h => nomatch h
theorem RoundTrip.crTmrWrite : ∀ a b c, RoundTrip.Statement (.crTmrWrite a b c) := fun _ _ _ _ h => nomatch h
theorem RoundTrip.crWlimWrite : ∀ a b c, RoundTrip.Statement (.crWlimWrite a b c) := fun _ _ _ _ h => nomatch h
theorem RoundTrip.crStatW1c : ∀ a b c, RoundTrip.Statement (.crStatW1c a b c) := fun _ _ _ _ h => nomatch h
theorem RoundTrip.crAccmWrite : ∀ a b, RoundTrip.Statement (.crAccmWrite a b) := fun _ _ _ h => nomatch h
theorem RoundTrip.timerExpiry : ∀ a b, RoundTrip.Statement (.timerExpiry a b) := fun _ _ _ h => nomatch h
theorem RoundTrip.timerTrap : ∀ a b, RoundTrip.Statement (.timerTrap a b) := fun _ _ _ h => nomatch h
theorem RoundTrip.waitLimitExpiry : ∀ a b, RoundTrip.Statement (.waitLimitExpiry a b) := fun _ _ _ h => nomatch h
theorem RoundTrip.handlerEntry : ∀ x, RoundTrip.Statement (.handlerEntry x) := fun _ _ h => nomatch h
theorem RoundTrip.localAccessComplete : ∀ x, RoundTrip.Statement (.localAccessComplete x) := fun _ _ h => nomatch h
theorem RoundTrip.meshAccessComplete : ∀ x, RoundTrip.Statement (.meshAccessComplete x) := fun _ _ h => nomatch h
theorem RoundTrip.vectorComplete : ∀ x, RoundTrip.Statement (.vectorComplete x) := fun _ _ h => nomatch h
theorem RoundTrip.selectionComplete : ∀ x, RoundTrip.Statement (.selectionComplete x) := fun _ _ h => nomatch h
theorem RoundTrip.deposit : ∀ x, RoundTrip.Statement (.deposit x) := fun _ _ h => nomatch h
theorem RoundTrip.sendAnswer : ∀ a b, RoundTrip.Statement (.sendAnswer a b) := fun _ _ _ h => nomatch h
theorem RoundTrip.sendlStage : ∀ a b, RoundTrip.Statement (.sendlStage a b) := fun _ _ _ h => nomatch h
theorem RoundTrip.deferredDepositApply : ∀ a b, RoundTrip.Statement (.deferredDepositApply a b) := fun _ _ _ h => nomatch h
theorem RoundTrip.deferredBufferEntry : ∀ x, RoundTrip.Statement (.deferredBufferEntry x) := fun _ _ h => nomatch h
theorem RoundTrip.linkPushEntry : ∀ x, RoundTrip.Statement (.linkPushEntry x) := fun _ _ h => nomatch h
theorem RoundTrip.linkPopWake : ∀ a b, RoundTrip.Statement (.linkPopWake a b) := fun _ _ _ h => nomatch h
theorem RoundTrip.linkBlockedPushEntry : ∀ a b, RoundTrip.Statement (.linkBlockedPushEntry a b) := fun _ _ _ h => nomatch h
theorem RoundTrip.barrierArriveEffect : ∀ a b, RoundTrip.Statement (.barrierArriveEffect a b) := fun _ _ _ h => nomatch h
theorem RoundTrip.barrierBindEffect : ∀ a b c d, RoundTrip.Statement (.barrierBindEffect a b c d) := fun _ _ _ _ _ h => nomatch h
theorem RoundTrip.nestLoadEffect : ∀ a b c d, RoundTrip.Statement (.nestLoadEffect a b c d) := fun _ _ _ _ _ h => nomatch h
theorem RoundTrip.stampReturn : ∀ a b, RoundTrip.Statement (.stampReturn a b) := fun _ _ _ h => nomatch h
theorem RoundTrip.matrixEntryStart : ∀ a b, RoundTrip.Statement (.matrixEntryStart a b) := fun _ _ _ h => nomatch h
theorem RoundTrip.matrixEntryComplete : ∀ a b, RoundTrip.Statement (.matrixEntryComplete a b) := fun _ _ _ h => nomatch h
theorem RoundTrip.repReissue : ∀ x, RoundTrip.Statement (.repReissue x) := fun _ _ h => nomatch h
theorem RoundTrip.governorRequest : ∀ a b, RoundTrip.Statement (.governorRequest a b) := fun _ _ _ h => nomatch h
theorem RoundTrip.powerGrant : ∀ x, RoundTrip.Statement (.powerGrant x) := fun _ _ h => nomatch h
theorem RoundTrip.translationWalkComplete : ∀ x, RoundTrip.Statement (.translationWalkComplete x) := fun _ _ h => nomatch h
theorem RoundTrip.globalAccessComplete : ∀ a b, RoundTrip.Statement (.globalAccessComplete a b) := fun _ _ _ h => nomatch h
theorem RoundTrip.postedAck : ∀ a b, RoundTrip.Statement (.postedAck a b) := fun _ _ _ h => nomatch h
theorem RoundTrip.peerReply : ∀ a b c d, RoundTrip.Statement (.peerReply a b c d) := fun _ _ _ _ _ h => nomatch h
theorem RoundTrip.peerTimeout : ∀ a b, RoundTrip.Statement (.peerTimeout a b) := fun _ _ _ h => nomatch h
theorem RoundTrip.postedFailure : ∀ a b c d, RoundTrip.Statement (.postedFailure a b c d) := fun _ _ _ _ _ h => nomatch h
theorem RoundTrip.fenceComplete : ∀ a b, RoundTrip.Statement (.fenceComplete a b) := fun _ _ _ h => nomatch h
theorem RoundTrip.lineResolve : ∀ a b, RoundTrip.Statement (.lineResolve a b) := fun _ _ _ h => nomatch h
theorem RoundTrip.lineWriteback : ∀ a b, RoundTrip.Statement (.lineWriteback a b) := fun _ _ _ h => nomatch h
theorem RoundTrip.lineageEntryStart : ∀ x, RoundTrip.Statement (.lineageEntryStart x) := fun _ _ h => nomatch h
theorem RoundTrip.lineageEntryComplete : ∀ x, RoundTrip.Statement (.lineageEntryComplete x) := fun _ _ h => nomatch h
theorem RoundTrip.copyEntryStart : ∀ a b, RoundTrip.Statement (.copyEntryStart a b) := fun _ _ _ h => nomatch h
theorem RoundTrip.copyEntryComplete : ∀ a b, RoundTrip.Statement (.copyEntryComplete a b) := fun _ _ _ h => nomatch h
theorem RoundTrip.lockRequestArrival : ∀ x, RoundTrip.Statement (.lockRequestArrival x) := fun _ _ h => nomatch h
theorem RoundTrip.lockGrant : ∀ x, RoundTrip.Statement (.lockGrant x) := fun _ _ h => nomatch h
theorem RoundTrip.commitStart : ∀ x, RoundTrip.Statement (.commitStart x) := fun _ _ h => nomatch h
theorem RoundTrip.commitRelease : ∀ x, RoundTrip.Statement (.commitRelease x) := fun _ _ h => nomatch h
theorem RoundTrip.dieToLoomMove : ∀ x, RoundTrip.Statement (.dieToLoomMove x) := fun _ _ h => nomatch h
theorem RoundTrip.loomToDieReturn : ∀ x, RoundTrip.Statement (.loomToDieReturn x) := fun _ _ h => nomatch h
theorem RoundTrip.loomChoose : ∀ x, RoundTrip.Statement (.loomChoose x) := fun _ _ h => nomatch h
theorem RoundTrip.footprintFetchComplete : ∀ a b, RoundTrip.Statement (.footprintFetchComplete a b) := fun _ _ _ h => nomatch h
theorem RoundTrip.autoDispatchStart : ∀ x, RoundTrip.Statement (.autoDispatchStart x) := fun _ _ h => nomatch h
theorem RoundTrip.taskRetire : ∀ x, RoundTrip.Statement (.taskRetire x) := fun _ _ h => nomatch h
theorem RoundTrip.taskFault : ∀ a b c, RoundTrip.Statement (.taskFault a b c) := fun _ _ _ _ h => nomatch h
theorem RoundTrip.uncorrectableRead : ∀ a, RoundTrip.Statement (.uncorrectableRead a) := fun _ _ h => nomatch h
theorem RoundTrip.errorDetected : ∀ x, RoundTrip.Statement (.errorDetected x) := fun _ _ h => nomatch h
theorem RoundTrip.selfTestComplete : ∀ a b, RoundTrip.Statement (.selfTestComplete a b) := fun _ _ _ h => nomatch h
theorem RoundTrip.swapComplete : ∀ x, RoundTrip.Statement (.swapComplete x) := fun _ _ h => nomatch h
theorem RoundTrip.ccfComplete : ∀ a b c, RoundTrip.Statement (.ccfComplete a b c) := fun _ _ _ _ h => nomatch h
theorem RoundTrip.tlbiAck : ∀ a b c, RoundTrip.Statement (.tlbiAck a b c) := fun _ _ _ _ h => nomatch h
theorem RoundTrip.gangHoldArrival : ∀ a b c, RoundTrip.Statement (.gangHoldArrival a b c) := fun _ _ _ _ h => nomatch h
theorem RoundTrip.biasuComplete : ∀ a b c d e, RoundTrip.Statement (.biasuComplete a b c d e) := fun _ _ _ _ _ _ h => nomatch h
theorem RoundTrip.adplApply : ∀ a b c d, RoundTrip.Statement (.adplApply a b c d) := fun _ _ _ _ _ h => nomatch h
theorem RoundTrip.lmldApply : ∀ a b c d, RoundTrip.Statement (.lmldApply a b c d) := fun _ _ _ _ _ h => nomatch h
theorem RoundTrip.launchMessage : ∀ a b c, RoundTrip.Statement (.launchMessage a b c) := fun _ _ _ _ h => nomatch h
theorem RoundTrip.launchMessageRelease : ∀ x, RoundTrip.Statement (.launchMessageRelease x) := fun _ _ h => nomatch h
theorem RoundTrip.fabricRead : ∀ x, RoundTrip.Statement (.fabricRead x) := fun _ _ h => nomatch h
theorem RoundTrip.fabricWrite : ∀ x, RoundTrip.Statement (.fabricWrite x) := fun _ _ h => nomatch h
theorem RoundTrip.fabricAtomic : ∀ a b c d, RoundTrip.Statement (.fabricAtomic a b c d) := fun _ _ _ _ _ h => nomatch h
theorem RoundTrip.fabricVendorAtomic : ∀ a b c d, RoundTrip.Statement (.fabricVendorAtomic a b c d) := fun _ _ _ _ _ h => nomatch h
theorem RoundTrip.fabricOtherRequest : ∀ x, RoundTrip.Statement (.fabricOtherRequest x) := fun _ _ h => nomatch h
theorem RoundTrip.counterRead : ∀ x, RoundTrip.Statement (.counterRead x) := fun _ _ h => nomatch h
theorem RoundTrip.counterClear : ∀ x, RoundTrip.Statement (.counterClear x) := fun _ _ h => nomatch h
theorem RoundTrip.errorLogRead : ∀ x, RoundTrip.Statement (.errorLogRead x) := fun _ _ h => nomatch h
theorem RoundTrip.bringUpSetting : ∀ x, RoundTrip.Statement (.bringUpSetting x) := fun _ _ h => nomatch h
theorem RoundTrip.recordImageWrite : ∀ a b, RoundTrip.Statement (.recordImageWrite a b) := fun _ _ _ h => nomatch h
theorem RoundTrip.ceilSet : ∀ a b, RoundTrip.Statement (.ceilSet a b) := fun _ _ _ h => nomatch h
theorem RoundTrip.thermalCeilAdjust : ∀ a b, RoundTrip.Statement (.thermalCeilAdjust a b) := fun _ _ _ h => nomatch h
theorem RoundTrip.debugRead : ∀ a b c, RoundTrip.Statement (.debugRead a b c) := fun _ _ _ _ h => nomatch h
theorem RoundTrip.debugWrite : ∀ a b c d, RoundTrip.Statement (.debugWrite a b c d) := fun _ _ _ _ _ h => nomatch h
theorem RoundTrip.debugHold : ∀ a b c, RoundTrip.Statement (.debugHold a b c) := fun _ _ _ _ h => nomatch h
theorem RoundTrip.debugStep : ∀ a b c, RoundTrip.Statement (.debugStep a b c) := fun _ _ _ _ h => nomatch h
theorem RoundTrip.debugResume : ∀ a b c, RoundTrip.Statement (.debugResume a b c) := fun _ _ _ _ h => nomatch h
theorem RoundTrip.debugTableRead : ∀ a b, RoundTrip.Statement (.debugTableRead a b) := fun _ _ _ h => nomatch h
theorem RoundTrip.attestationRequest : ∀ x, RoundTrip.Statement (.attestationRequest x) := fun _ _ h => nomatch h
theorem RoundTrip.tamperAlarm : RoundTrip.Statement .tamperAlarm := fun _ h => nomatch h
theorem RoundTrip.thermalAlarm : RoundTrip.Statement .thermalAlarm := fun _ h => nomatch h
theorem RoundTrip.deviceReset : RoundTrip.Statement .deviceReset := fun _ h => nomatch h
theorem RoundTrip.firmwareVerify : ∀ a b c, RoundTrip.Statement (.firmwareVerify a b c) := fun _ _ _ _ h => nomatch h
theorem RoundTrip.bringUpComplete : ∀ x, RoundTrip.Statement (.bringUpComplete x) := fun _ _ h => nomatch h
theorem RoundTrip.stateTransferComplete : ∀ a b, RoundTrip.Statement (.stateTransferComplete a b) := fun _ _ _ h => nomatch h
theorem RoundTrip.nodeOperationComplete : ∀ x, RoundTrip.Statement (.nodeOperationComplete x) := fun _ _ h => nomatch h
theorem RoundTrip.windowOperationComplete : ∀ x, RoundTrip.Statement (.windowOperationComplete x) := fun _ _ h => nomatch h
theorem RoundTrip.controlPlaneReply : ∀ a b c, RoundTrip.Statement (.controlPlaneReply a b c) := fun _ _ _ _ h => nomatch h
theorem RoundTrip.biasBankFlip : ∀ a b c d, RoundTrip.Statement (.biasBankFlip a b c d) := fun _ _ _ _ _ h => nomatch h

end Sys2Proof.Laws
end

