-- ==== Sys2Proof/Tests/Slice0.lean ====
section
/-! SUPPORT. The author's own tests: what the checks of WellFormed refuse, the spec's worked encodings and one word for every
mnemonic of Tables 3.5 to 3.12, small steps with results from the spec's rules and examples, and witnesses for the statements' hypotheses. -/

namespace Sys2Proof.Tests

open Machine Claims

/-- The decoder reads exactly these words as this instruction. -/
def readsAsInstr (ws : List IWord) (i : Instr) : Bool := decide (decode ws = .ok i (2 * ws.length) (ws.getLastD 0))

/-- Table 3.5, page 0. -/
theorem test_decode_page0_a : ∀ e ∈ ([
  ([0xF86D, 0xE8E6, 0x00A9], .add { guard := 6, sense := true, mod := 5, a := .g 5, b := .g 41, c := .g 102 }),
  ([0xF805, 0xE8E6, 0x04A9], .sub { mod := 5, a := .g 5, b := .g 41, c := .g 102 }),
  ([0xF805, 0xE8E6, 0x08A9], .mul { mod := 5, a := .g 5, b := .g 41, c := .g 102 }),
  ([0xF86D, 0xE8E6, 0x0CA9], .mulh { guard := 6, sense := true, mod := 5, a := .g 5, b := .g 41, c := .g 102 }),
  ([0xF805, 0xE8E6, 0x10A9], .div { mod := 5, a := .g 5, b := .g 41, c := .g 102 }),
  ([0xF805, 0xE8E6, 0x14A9], .rem { mod := 5, a := .g 5, b := .g 41, c := .g 102 }),
  ([0xF86D, 0xE8E6, 0x18A9], .and { guard := 6, sense := true, mod := 5, a := .g 5, b := .g 41, c := .g 102 }),
  ([0xF805, 0xE8E6, 0x1CA9], .or { mod := 5, a := .g 5, b := .g 41, c := .g 102 }),
  ([0xF805, 0xE8E6, 0x20A9], .xor { mod := 5, a := .g 5, b := .g 41, c := .g 102 }),
  ([0xF86D, 0xE8E6, 0x24A9], .andn { guard := 6, sense := true, mod := 5, a := .g 5, b := .g 41, c := .g 102 }),
  ([0xF805, 0xE8E6, 0x28A9], .shl { mod := 5, a := .g 5, b := .g 41, c := .g 102 }),
  ([0xF805, 0xE8E6, 0x2CA9], .shr { mod := 5, a := .g 5, b := .g 41, c := .g 102 }),
  ([0xF86D, 0xE8E6, 0x30A9], .sar { guard := 6, sense := true, mod := 5, a := .g 5, b := .g 41, c := .g 102 }),
  ([0xF805, 0xE8E6, 0x34A9], .rol { mod := 5, a := .g 5, b := .g 41, c := .g 102 })] : List (List IWord × Instr)), readsAsInstr e.1 e.2 = true := by decide

/-- Table 3.5, page 0, continued. -/
theorem test_decode_page0_b : ∀ e ∈ ([
  ([0xF805, 0xE8E6, 0x38A9], .min { mod := 5, a := .g 5, b := .g 41, c := .g 102 }),
  ([0xF86D, 0xE8E6, 0x3CA9], .max { guard := 6, sense := true, mod := 5, a := .g 5, b := .g 41, c := .g 102 }),
  ([0xF805, 0xE880, 0xE003, 0x40A9], .addi { mod := 5, a := .g 5, b := .g 41, imm := 3 }),
  ([0xF805, 0xE880, 0xE003, 0x44A9], .andi { mod := 5, a := .g 5, b := .g 41, imm := 3 }),
  ([0xF86D, 0xE880, 0xE003, 0x48A9], .ori { guard := 6, sense := true, mod := 5, a := .g 5, b := .g 41, imm := 3 }),
  ([0xF805, 0xE880, 0xE003, 0x4CA9], .xori { mod := 5, a := .g 5, b := .g 41, imm := 3 }),
  ([0xF805, 0xE880, 0xE003, 0x50A9], .shli { mod := 5, a := .g 5, b := .g 41, imm := 3 }),
  ([0xF86D, 0xE880, 0xE003, 0x54A9], .shri { guard := 6, sense := true, mod := 5, a := .g 5, b := .g 41, imm := 3 }),
  ([0xF805, 0xE880, 0xE003, 0x58A9], .sari { mod := 5, a := .g 5, b := .g 41, imm := 3 }),
  ([0xF805, 0xE880, 0xE003, 0x5CA9], .roli { mod := 5, a := .g 5, b := .g 41, imm := 3 }),
  ([0xF86D, 0xE880, 0x60A9], .clz { guard := 6, sense := true, mod := 5, a := .g 5, b := .g 41 }),
  ([0xF805, 0xE880, 0x64A9], .ctz { mod := 5, a := .g 5, b := .g 41 }),
  ([0xF805, 0xE880, 0x68A9], .popc { mod := 5, a := .g 5, b := .g 41 }),
  ([0xF86D, 0xE880, 0x6CA9], .abs { guard := 6, sense := true, mod := 5, a := .g 5, b := .g 41 })] : List (List IWord × Instr)), readsAsInstr e.1 e.2 = true := by decide

/-- Table 3.5, page 0, continued. -/
theorem test_decode_page0_c : ∀ e ∈ ([
  ([0xF805, 0xE880, 0x70A9], .neg { mod := 5, a := .g 5, b := .g 41 }),
  ([0xF805, 0xE880, 0x74A9], .sext { mod := 5, a := .g 5, b := .g 41 }),
  ([0xF86D, 0xE880, 0x78A9], .zext { guard := 6, sense := true, mod := 5, a := .g 5, b := .g 41 }),
  ([0xE880, 0x7CA9], .mov { a := .g 5, b := .g 41 }),
  ([0xE003, 0x80A0], .movi { a := .g 5, imm := 3 }),
  ([0xF86D, 0xE880, 0xE003, 0x84A9], .bfx { guard := 6, sense := true, mod := 5, a := .g 5, b := .g 41, imm := 3 }),
  ([0xF805, 0xE880, 0xE003, 0x88A9], .bfi { mod := 5, a := .g 5, b := .g 41, imm := 3 }),
  ([0xE8E6, 0x8CA9], .sel { a := .g 5, b := .g 41, c := .g 102 }),
  ([0xF86D, 0xE8E6, 0x9049], .cmpEq { guard := 6, sense := true, mod := 5, a := .q 2, b := .g 41, c := .g 102 }),
  ([0xF805, 0xE8E6, 0x9449], .cmpNe { mod := 5, a := .q 2, b := .g 41, c := .g 102 }),
  ([0xF805, 0xE8E6, 0x9849], .cmpLt { mod := 5, a := .q 2, b := .g 41, c := .g 102 }),
  ([0xF86D, 0xE8E6, 0x9C49], .cmpLe { guard := 6, sense := true, mod := 5, a := .q 2, b := .g 41, c := .g 102 }),
  ([0xF805, 0xE880, 0xE003, 0xA049], .cmpiEq { mod := 5, a := .q 2, b := .g 41, imm := 3 }),
  ([0xF805, 0xE880, 0xE003, 0xA449], .cmpiNe { mod := 5, a := .q 2, b := .g 41, imm := 3 })] : List (List IWord × Instr)), readsAsInstr e.1 e.2 = true := by decide

/-- Table 3.5, page 0, continued. -/
theorem test_decode_page0_d : ∀ e ∈ ([
  ([0xF86D, 0xE880, 0xE003, 0xA849], .cmpiLt { guard := 6, sense := true, mod := 5, a := .q 2, b := .g 41, imm := 3 }),
  ([0xF805, 0xE880, 0xE003, 0xAC49], .cmpiLe { mod := 5, a := .q 2, b := .g 41, imm := 3 }),
  ([0xF805, 0xE8E6, 0xB049], .tst { mod := 5, a := .q 2, b := .g 41, c := .g 102 })] : List (List IWord × Instr)), readsAsInstr e.1 e.2 = true := by decide

/-- Table 3.6, page 1. -/
theorem test_decode_page1_a : ∀ e ∈ ([
  ([0xF8E8, 0xE8E6, 0x00A9], .fadd { guard := 6, sense := true, a := .g 5, b := .g 41, c := .g 102 }),
  ([0xF880, 0xE8E6, 0x04A9], .fsub { a := .g 5, b := .g 41, c := .g 102 }),
  ([0xF880, 0xE8E6, 0x08A9], .fmul { a := .g 5, b := .g 41, c := .g 102 }),
  ([0xF8E8, 0xE8E6, 0x0CA9], .fmin { guard := 6, sense := true, a := .g 5, b := .g 41, c := .g 102 }),
  ([0xF880, 0xE8E6, 0x10A9], .fmax { a := .g 5, b := .g 41, c := .g 102 }),
  ([0xF880, 0xE8E6, 0x14A9], .ffma { a := .g 5, b := .g 41, c := .g 102 }),
  ([0xF8E8, 0xE880, 0x18A9], .fabs { guard := 6, sense := true, a := .g 5, b := .g 41 }),
  ([0xF880, 0xE880, 0x1CA9], .fneg { a := .g 5, b := .g 41 }),
  ([0xF880, 0xE880, 0x20A9], .fexp2 { a := .g 5, b := .g 41 }),
  ([0xF8E8, 0xE880, 0x24A9], .frcp { guard := 6, sense := true, a := .g 5, b := .g 41 }),
  ([0xF880, 0xE880, 0x28A9], .fcvt { a := .g 5, b := .g 41 }),
  ([0xF880, 0xE8E6, 0x2C49], .fcmpEq { a := .q 2, b := .g 41, c := .g 102 }),
  ([0xF8E8, 0xE8E6, 0x3049], .fcmpLt { guard := 6, sense := true, a := .q 2, b := .g 41, c := .g 102 }),
  ([0xF880, 0xE8E6, 0x3449], .fcmpLe { a := .q 2, b := .g 41, c := .g 102 })] : List (List IWord × Instr)), readsAsInstr e.1 e.2 = true := by decide

/-- Table 3.6, page 1, continued. -/
theorem test_decode_page1_b : ∀ e ∈ ([
  ([0xF880, 0xE8E6, 0x3849], .fcmpUn { a := .q 2, b := .g 41, c := .g 102 }),
  ([0xF8E8, 0xE866, 0x3C66], .padd { guard := 6, sense := true, a := .p 3, b := .p 6, c := .g 102 }),
  ([0xF880, 0xE8E6, 0x4069], .pmk { a := .p 3, b := .g 41, c := .g 102 }),
  ([0xF880, 0xE003, 0x44A6], .pget { a := .g 5, b := .p 6, imm := 3 }),
  ([0xF8E8, 0x4866], .pmov { guard := 6, sense := true, a := .p 3, b := .p 6 }),
  ([0xF880, 0xE804, 0x4C47], .qand { a := .q 2, b := .q 7, c := .q 4 }),
  ([0xF880, 0xE804, 0x5047], .qor { a := .q 2, b := .q 7, c := .q 4 }),
  ([0xF8E8, 0xE804, 0x5447], .qxor { guard := 6, sense := true, a := .q 2, b := .q 7, c := .q 4 }),
  ([0xF880, 0x5847], .qnot { a := .q 2, b := .q 7 }),
  ([0xF880, 0x5C47], .qmov { a := .q 2, b := .q 7 }),
  ([0xF8E8, 0xE003, 0x6000], .br { guard := 6, sense := true, imm := 3 }),
  ([0xF880, 0xE003, 0x64A0], .jmp { a := .g 5, imm := 3 }),
  ([0xF880, 0xE003, 0x68A0], .call { a := .g 5, imm := 3 }),
  ([0xF8E8, 0x6CA0], .ret { guard := 6, sense := true, a := .g 5 })] : List (List IWord × Instr)), readsAsInstr e.1 e.2 = true := by decide

/-- Table 3.6, page 1, continued. -/
theorem test_decode_page1_c : ∀ e ∈ ([
  ([0xF880, 0x7000], .nop {  }),
  ([0xF880, 0x7400], .halt {  }),
  ([0xF8E8, 0x7800], .sleep { guard := 6, sense := true })] : List (List IWord × Instr)), readsAsInstr e.1 e.2 = true := by decide

/-- Table 3.7, page 2. -/
theorem test_decode_page2_a : ∀ e ∈ ([
  ([0xF96D, 0x00A2], .ld { guard := 6, sense := true, mod := 5, a := .g 5, b := .mem 2 .none }),
  ([0xF905, 0x04A2], .st { mod := 5, a := .g 5, b := .mem 2 .none }),
  ([0xF905, 0xE866, 0x08A2], .ldx { mod := 5, a := .g 5, b := .mem 2 .none, c := .g 102 }),
  ([0xF96D, 0xE866, 0x0CA2], .stx { guard := 6, sense := true, mod := 5, a := .g 5, b := .mem 2 .none, c := .g 102 }),
  ([0xF905, 0xE866, 0x10A2], .lswap { mod := 5, a := .g 5, b := .mem 2 .none, c := .g 102 }),
  ([0xF905, 0xE866, 0x14A2], .lcas { mod := 5, a := .g 5, b := .mem 2 .none, c := .g 102 }),
  ([0xF96D, 0xE866, 0x18A2], .ladd { guard := 6, sense := true, mod := 5, a := .g 5, b := .mem 2 .none, c := .g 102 }),
  ([0xF900, 0xE801, 0x1C66], .vadd { a := .p 3, b := .p 6, c := .p 1 }),
  ([0xF900, 0xE801, 0x2066], .vsub { a := .p 3, b := .p 6, c := .p 1 }),
  ([0xF968, 0xE801, 0x2466], .vmul { guard := 6, sense := true, a := .p 3, b := .p 6, c := .p 1 }),
  ([0xF900, 0xE801, 0x2866], .vfma { a := .p 3, b := .p 6, c := .p 1 }),
  ([0xF900, 0xE801, 0x2C66], .vmin { a := .p 3, b := .p 6, c := .p 1 }),
  ([0xF968, 0xE801, 0x3066], .vmax { guard := 6, sense := true, a := .p 3, b := .p 6, c := .p 1 }),
  ([0xF900, 0x3466], .vabs { a := .p 3, b := .p 6 })] : List (List IWord × Instr)), readsAsInstr e.1 e.2 = true := by decide

/-- Table 3.7, page 2, continued. -/
theorem test_decode_page2_b : ∀ e ∈ ([
  ([0xF900, 0x3866], .vneg { a := .p 3, b := .p 6 }),
  ([0xF968, 0x3C66], .vexp { guard := 6, sense := true, a := .p 3, b := .p 6 }),
  ([0xF900, 0x4066], .vrcp { a := .p 3, b := .p 6 }),
  ([0xF900, 0x4466], .vrsq { a := .p 3, b := .p 6 }),
  ([0xF968, 0x4866], .vcvt { guard := 6, sense := true, a := .p 3, b := .p 6 }),
  ([0xF900, 0x4C66], .vcpy { a := .p 3, b := .p 6 }),
  ([0xF900, 0x5066], .vsum { a := .p 3, b := .p 6 }),
  ([0xF968, 0x5466], .vrmax { guard := 6, sense := true, a := .p 3, b := .p 6 }),
  ([0xF900, 0x5866], .vrmin { a := .p 3, b := .p 6 }),
  ([0xF900, 0xE801, 0x5C66], .vdot { a := .p 3, b := .p 6, c := .p 1 }),
  ([0xF968, 0xE866, 0x6066], .vscal { guard := 6, sense := true, a := .p 3, b := .p 6, c := .g 102 }),
  ([0xF900, 0xE801, 0x6466], .vcmp { a := .p 3, b := .p 6, c := .p 1 }),
  ([0xF900, 0xE801, 0x6866], .vsel { a := .p 3, b := .p 6, c := .p 1 }),
  ([0xF968, 0xE880, 0x6C69], .vfill { guard := 6, sense := true, a := .p 3, b := .g 41 })] : List (List IWord × Instr)), readsAsInstr e.1 e.2 = true := by decide

/-- Table 3.7, page 2, continued. -/
theorem test_decode_page2_c : ∀ e ∈ ([
  ([0xF900, 0xE801, 0x7066], .vgath { a := .p 3, b := .p 6, c := .p 1 }),
  ([0xF900, 0xE801, 0x7466], .vscat { a := .p 3, b := .p 6, c := .p 1 }),
  ([0xF968, 0xE003, 0x7866], .vtrans { guard := 6, sense := true, a := .p 3, b := .p 6, imm := 3 }),
  ([0xF900, 0xE866, 0x7C66], .vclamp { a := .p 3, b := .p 6, c := .g 102 })] : List (List IWord × Instr)), readsAsInstr e.1 e.2 = true := by decide

/-- Table 3.8, page 3. -/
theorem test_decode_page3_a : ∀ e ∈ ([
  ([0xF9E8, 0xE003, 0x00C2], .mma { guard := 6, sense := true, a := .acc 6, b := .mem 2 .none, imm := 3 }),
  ([0xF980, 0xE801, 0xE003, 0x04C2], .mmas { a := .acc 6, b := .mem 2 .none, c := .p 1, imm := 3 }),
  ([0xF980, 0xE003, 0x0822], .mldb { a := .slot 1, b := .mem 2 .none, imm := 3 }),
  ([0xF9E8, 0x0C20], .mrot { guard := 6, sense := true, a := .slot 1 }),
  ([0xF980, 0x1020], .mdrop { a := .slot 1 }),
  ([0xF980, 0x14C0], .mza { a := .acc 6 }),
  ([0xF9E8, 0xE866, 0xE003, 0x18C2], .mst { guard := 6, sense := true, a := .acc 6, b := .mem 2 .none, c := .g 102, imm := 3 }),
  ([0xF980, 0xE003, 0x1CC2], .mlda { a := .acc 6, b := .mem 2 .none, imm := 3 }),
  ([0xF980, 0x20C1], .macc { a := .acc 6, b := .acc 1 }),
  ([0xF9E8, 0xE003, 0x24A0], .rep { guard := 6, sense := true, a := .g 5, imm := 3 }),
  ([0xF980, 0x2800], .repw {  }),
  ([0xF980, 0xE003, 0x2CC2], .mcorr { a := .acc 6, b := .mem 2 .none, imm := 3 })] : List (List IWord × Instr)), readsAsInstr e.1 e.2 = true := by decide

/-- Table 3.9, page 4. -/
theorem test_decode_page4_a : ∀ e ∈ ([
  ([0xFA68, 0xE880, 0xE003, 0x00A9], .ldg { guard := 6, sense := true, a := .g 5, b := .g 41, imm := 3 }),
  ([0xFA00, 0xE880, 0xE003, 0x04A9], .stg { a := .g 5, b := .g 41, imm := 3 }),
  ([0xFA00, 0xE8E6, 0x08A9], .amo { a := .g 5, b := .g 41, c := .g 102 }),
  ([0xFA68, 0xE8E6, 0x0CA9], .amoc { guard := 6, sense := true, a := .g 5, b := .g 41, c := .g 102 }),
  ([0xFA00, 0xE880, 0x10A9], .red { a := .g 5, b := .g 41 }),
  ([0xFA00, 0xE001, 0x14A0], .fence { a := .g 5, imm := 1 }),
  ([0xFA68, 0xE003, 0x18A0], .pfg { guard := 6, sense := true, a := .g 5, imm := 3 }),
  ([0xFA00, 0x1CA0], .cpy { a := .g 5 }),
  ([0xFA00, 0x20A0], .cpy2 { a := .g 5 }),
  ([0xFA68, 0x24A0], .cpyg { guard := 6, sense := true, a := .g 5 }),
  ([0xFA00, 0xE003, 0x2800], .qfence { imm := 3 }),
  ([0xFA00, 0x2CA0], .qst { a := .g 5 })] : List (List IWord × Instr)), readsAsInstr e.1 e.2 = true := by decide

/-- Table 3.10, page 5. -/
theorem test_decode_page5_a : ∀ e ∈ ([
  ([0xFAE8, 0xE8E6, 0x02A9], .send { guard := 6, sense := true, a := .num 21, b := .g 41, c := .g 102 }),
  ([0xFA80, 0xE8E6, 0x06A9], .sendl { a := .num 21, b := .g 41, c := .g 102 }),
  ([0xFA80, 0x08B1], .mpk { a := .g 5, b := .m 17 }),
  ([0xFAE8, 0x0D20], .mclr { guard := 6, sense := true, a := .m 9 }),
  ([0xFA80, 0xE880, 0x1129], .mbind { a := .m 9, b := .g 41 }),
  ([0xFA80, 0x14A0], .lnks { a := .g 5 }),
  ([0xFAE8, 0xE880, 0x1869], .bari { guard := 6, sense := true, a := .num 3, b := .g 41 }),
  ([0xFA80, 0x1C60], .bara { a := .num 3 }),
  ([0xFA80, 0x2060], .barw { a := .num 3 }),
  ([0xFAE8, 0x24A3], .barq { guard := 6, sense := true, a := .g 5, b := .num 3 }),
  ([0xFA80, 0xE880, 0x2849], .nesti { a := .num 2, b := .g 41 }),
  ([0xFA80, 0x2C42], .nestn { a := .q 2, b := .num 2 }),
  ([0xFAE8, 0x30A2], .nestq { guard := 6, sense := true, a := .g 5, b := .num 2 }),
  ([0xFA80, 0x34A2], .waita { a := .g 5, b := .mem 2 .none })] : List (List IWord × Instr)), readsAsInstr e.1 e.2 = true := by decide

/-- Table 3.10, page 5, continued. -/
theorem test_decode_page5_b : ∀ e ∈ ([
  ([0xFA80, 0x38A0], .stamp { a := .g 5 }),
  ([0xFAE8, 0xE8E6, 0xE003, 0x3CA9], .patch { guard := 6, sense := true, a := .g 5, b := .g 41, c := .g 102, imm := 3 }),
  ([0xFA80, 0x40A0], .arm { a := .g 5 }),
  ([0xFA80, 0x4400], .tdone {  }),
  ([0xFAE8, 0x48A0], .tq { guard := 6, sense := true, a := .g 5 }),
  ([0xFA80, 0x4CA0], .tfail { a := .g 5 }),
  ([0xFA80, 0x50A0], .rqp { a := .g 5 }),
  ([0xFAE8, 0x54A0], .rqt { guard := 6, sense := true, a := .g 5 })] : List (List IWord × Instr)), readsAsInstr e.1 e.2 = true := by decide

/-- Table 3.11, page 6. -/
theorem test_decode_page6_a : ∀ e ∈ ([
  ([0xFB68, 0xE880, 0x00A9], .fork { guard := 6, sense := true, a := .g 5, b := .g 41 }),
  ([0xFB00, 0xE8E6, 0x04A9], .rebase { a := .g 5, b := .g 41, c := .g 102 }),
  ([0xFB00, 0xE880, 0x08A9], .flat { a := .g 5, b := .g 41 }),
  ([0xFB68, 0xE880, 0x0CA9], .drop { guard := 6, sense := true, a := .g 5, b := .g 41 }),
  ([0xFB00, 0xE880, 0xE003, 0x10A9], .lnq { a := .g 5, b := .g 41, imm := 3 }),
  ([0xFB00, 0xE880, 0x1489], .ldel { a := .mem 4 .none, b := .g 41 }),
  ([0xFB68, 0xE880, 0x1889], .lres { guard := 6, sense := true, a := .mem 4 .none, b := .g 41 }),
  ([0xFB00, 0xE880, 0x1CA9], .kvo { a := .g 5, b := .g 41 }),
  ([0xFB00, 0xE003, 0x20A2], .kvw { a := .g 5, b := .mem 2 .none, imm := 3 }),
  ([0xFB68, 0xE8E6, 0x24A9], .kvc { guard := 6, sense := true, a := .g 5, b := .g 41, c := .g 102 }),
  ([0xFB00, 0xE880, 0x28A9], .kvd { a := .g 5, b := .g 41 }),
  ([0xFB00, 0xE880, 0x2CA9], .kvq { a := .g 5, b := .g 41 }),
  ([0xFB68, 0xE8E6, 0x30A9], .pgal { guard := 6, sense := true, a := .g 5, b := .g 41, c := .g 102 }),
  ([0xFB00, 0xE880, 0x34A9], .pgfr { a := .g 5, b := .g 41 })] : List (List IWord × Instr)), readsAsInstr e.1 e.2 = true := by decide

/-- Table 3.11, page 6, continued. -/
theorem test_decode_page6_b : ∀ e ∈ ([
  ([0xFB00, 0xE880, 0x38A9], .lock { a := .g 5, b := .g 41 }),
  ([0xFB68, 0xE880, 0x3CA9], .lcv { guard := 6, sense := true, a := .g 5, b := .g 41 }),
  ([0xFB00, 0xE880, 0x40A9], .lq { a := .g 5, b := .g 41 }),
  ([0xFB00, 0x44A0], .lmld { a := .g 5 }),
  ([0xFB68, 0xE866, 0xE003, 0x4882], .selk { guard := 6, sense := true, a := .mem 4 .none, b := .mem 2 .none, c := .g 102, imm := 3 }),
  ([0xFB00, 0x4C82], .softk { a := .mem 4 .none, b := .mem 2 .none }),
  ([0xFB00, 0xE880, 0x5089], .hpush { a := .mem 4 .none, b := .g 41 }),
  ([0xFB68, 0xE880, 0x54A9], .hpop { guard := 6, sense := true, a := .g 5, b := .g 41 }),
  ([0xFB00, 0x5800], .hclr {  }),
  ([0xFB00, 0xE880, 0x5CA9], .htopp { a := .g 5, b := .g 41 }),
  ([0xFB68, 0xE8E6, 0x60A9], .rand { guard := 6, sense := true, a := .g 5, b := .g 41, c := .g 102 }),
  ([0xFB00, 0xE8E6, 0x64A9], .biasu { a := .g 5, b := .g 41, c := .g 102 }),
  ([0xFB00, 0x68A0], .biasf { a := .g 5 }),
  ([0xFB68, 0xE8E6, 0x6CA9], .adpl { guard := 6, sense := true, a := .g 5, b := .g 41, c := .g 102 })] : List (List IWord × Instr)), readsAsInstr e.1 e.2 = true := by decide

/-- Table 3.12, page 7. -/
theorem test_decode_page7_a : ∀ e ∈ ([
  ([0xFBE8, 0xE880, 0x00A5], .mfc { guard := 6, sense := true, a := .g 5, b := .cr 37 }),
  ([0xFB80, 0xEA80, 0x04A9], .mtc { a := .cr 37, b := .g 41 }),
  ([0xFB80, 0xE880, 0x08A9], .start { a := .g 5, b := .g 41 }),
  ([0xFBE8, 0x0CA0], .reap { guard := 6, sense := true, a := .g 5 }),
  ([0xFB80, 0xE880, 0x10A9], .swap { a := .g 5, b := .g 41 }),
  ([0xFB80, 0xE89F, 0x14A9], .wmf { a := .g 5, b := .g 41, c := .num 31 }),
  ([0xFBE8, 0xE89F, 0x18A9], .wmt { guard := 6, sense := true, a := .g 5, b := .g 41, c := .num 31 }),
  ([0xFB80, 0xE003, 0x1C00], .trap { imm := 3 }),
  ([0xFB80, 0x2000], .rft {  }),
  ([0xFBE8, 0xE003, 0x2400], .brk { guard := 6, sense := true, imm := 3 }),
  ([0xFB80, 0x28A0], .step { a := .g 5 }),
  ([0xFB80, 0x2CA0], .hold { a := .g 5 }),
  ([0xFBE8, 0x30A0], .resume { guard := 6, sense := true, a := .g 5 }),
  ([0xFB80, 0x34A0], .tlbi { a := .g 5 })] : List (List IWord × Instr)), readsAsInstr e.1 e.2 = true := by decide

/-- Table 3.12, page 7, continued. -/
theorem test_decode_page7_b : ∀ e ∈ ([
  ([0xFB80, 0x38A0], .ccf { a := .g 5 })] : List (List IWord × Instr)), readsAsInstr e.1 e.2 = true := by decide

/-! What has no encoding: one term for each check of WellFormed. -/

/-- R51, R52: `add` takes g, s and k registers, no pointer and no mailbox. -/
theorem test_wf_class : (Instr.add { a := .p 1, b := .g 2, c := .g 3 }).wf = false ∧
    (Instr.add { a := .g 1, b := .m 2, c := .g 3 }).wf = false ∧ (Instr.add { a := .g 1, b := .g 2 }).wf = false := by decide

/-- R51: the control register number of `mfc` must be assigned, a barrier number at most 7. -/
theorem test_wf_number : (Instr.mfc { a := .g 1, b := .cr 50 }).wf = false ∧ (Instr.bara { a := .num 8 }).wf = false := by decide

/-- R53: increment by the immediate only where the map says "inc"; by a register only where fc is free. -/
theorem test_wf_increment : (Instr.waita { a := .g 7, b := .mem 3 .imm }).wf = false ∧
    (Instr.ldx { a := .g 1, b := .mem 4 (.reg 9), c := .g 2 }).wf = false := by decide

/-- R53: two memory operands share the one field fc. -/
theorem test_wf_increment_register : (Instr.softk { a := .mem 2 (.reg 9), b := .mem 4 (.reg 8) }).wf = false := by decide

/-- R55, R56: a modifier of a row marked 0; a code that no entry lists. -/
theorem test_wf_modifier : (Instr.mov { mod := 1, a := .g 1, b := .g 2 }).wf = false ∧ (Instr.cpy { mod := 4, a := .g 1 }).wf = false := by
  decide

/-- R41, R56: an immediate that the row's PX.I words cannot carry, and one on a row without. -/
theorem test_wf_immediate : (Instr.shli { a := .g 1, b := .g 2, imm := 2048 }).wf = false ∧
    (Instr.add { a := .g 1, b := .g 2, c := .g 3, imm := 1 }).wf = false := by decide

/-- Table 3.13: immediates that their entries make illegal. -/
theorem test_wf_limit : (Instr.fence { a := .g 1, imm := 2 }).wf = false ∧ (Instr.pget { a := .g 1, b := .p 2, imm := 8 }).wf = false ∧
    (Instr.lnq { a := .g 1, b := .g 2, imm := 4 }).wf = false := by decide

/-- R49, R53: an increment immediate that no operand uses. -/
theorem test_wf_unused_increment : (Instr.ld { a := .g 1, b := .mem 3 .size, imm := 8 }).wf = false := by decide

/-- R48: no chain has more than four prefixes. -/
theorem test_wf_prefixes : (Instr.addi { guard := 1, mod := 1, a := .s 1, b := .g 70, imm := 0x10000 }).wf = false ∧
    (Instr.addi { mod := 1, a := .g 1, b := .g 70, imm := 1000 }).wf = true := by decide

/-- An event has no encoding and no check. -/
theorem test_wf_event : (Instr.lineResolve 1 2).wf = true ∧ encode (.lineResolve 1 2) = [] := by decide

/-! The spec's worked encodings (Table 3.15), and chains that are none (Table 3.14). -/

theorem test_worked_encodings :
    readsAsInstr [0xE880, 0xE003, 0x5128] (.shli { a := .g 9, b := .g 40, imm := 3 }) = true ∧
    readsAsInstr [0xF810, 0xF100, 0xE900, 0x7C46] (.mov { guard := 1, a := .s 2, b := .g 70 }) = true ∧
    readsAsInstr [0xF929, 0xEA00, 0x0103] (.ld { guard := 2, sense := true, mod := 1, a := .g 40, b := .mem 3 .none }) = true ∧
    readsAsInstr [0xE6D4, 0x40A6] (.addi { a := .g 5, b := .g 6, imm := -300 }) = true := by decide

/-- Tables 5, 8, 10, 15 and 17's worked lines that use modifiers and increments. -/
theorem test_worked_operands :
    readsAsInstr [0xF804, 0xE028, 0xA86C] (.cmpiLt { mod := 4, a := .q 3, b := .g 12, imm := 40 }) = true ∧
    readsAsInstr [0xF901, 0xE008, 0x04F2] (.st { mod := 1, a := .g 7, b := .mem 2 .imm, imm := 8 }) = true ∧
    readsAsInstr [0xF880, 0xE7FA, 0x6000] (.br { imm := -6 }) = true ∧
    readsAsInstr [0xFA81, 0x342B] (.waita { mod := 1, a := .g 1, b := .mem 3 .size }) = true ∧
    readsAsInstr [0xFB00, 0xE803, 0xE007, 0x492A] (.selk { a := .mem 1 .size, b := .mem 2 .size, c := .g 3, imm := 7 }) = true := by decide

theorem test_not_instructions :
    decode [0xF929, 0xF929, 0x0103] = .illegal 0xF929 ∧ decode [0xE803, 0xF810, 0x0022] = .illegal 0xF810 ∧
    decode [0xF101, 0x7C46] = .illegal 0xF101 ∧ decode [0x0022] = .illegal 0x0022 ∧ decode [0xF880, 0xB000] = .illegal 0xB000 := by decide

/-- The shortest chain (R40, R41) of the worked lines is the spec's. -/
theorem test_encode : encode (.shli { a := .g 9, b := .g 40, imm := 3 }) = [0xE880, 0xE003, 0x5128] ∧
    encode (.mov { guard := 1, a := .s 2, b := .g 70 }) = [0xF810, 0xF100, 0xE900, 0x7C46] ∧
    encode (.addi { a := .g 5, b := .g 6, imm := -300 }) = [0xE6D4, 0x40A6] ∧
    encode (.ld { guard := 2, sense := true, mod := 1, a := .g 40, b := .mem 3 .none }) = [0xF929, 0xEA00, 0x0103] := by decide

/-! Small states. -/

/-- Strand 0 of core 0 issues a two-word instruction at 0x1000. -/
def sys : State := { State.reset with cur := { core := 0, strand := 0, addr := 0x1000, len := 4, word := 0x22 } }

/-- Registers g of strand 0. -/
def withG (vals : List (Nat × Word)) (s : State) : State := modCore s 0 (fun k => { k with rf := vals })

/-- A change of a strand of core 0. -/
def onStrand (u : Nat) (f : Strand → Strand) (s : State) : State := modStrand s 0 u f

/-- A strand with a window of 64 registers from 128 on and the whole store as its region. -/
def ready : Strand := { st := .ready, cr := [(4, 0xC00080), (12, 0x6000000)] }

/-- Strand 1 of core 0 issues, outside tasks. -/
def usr : State := { onStrand 1 (fun _ => ready) sys with cur := { sys.cur with strand := 1 } }

/-- The strand of a state's `cur` waits for `why`. -/
def waitsFor (why : Why) (s : State) : State :=
  modStrand s s.cur.core s.cur.strand (fun x => { x with st := .waiting, wait := some { why := why, instr := .nop {}, cx := s.cur, dst := .g 1 } })

/-- Strand 0 waits for the completion of its instruction. -/
def waiting : State := waitsFor .flight sys

/-- Strand 1 of core 0 runs the task of record 5, whose only member is core 0; the record pool stands at 4 MiB. -/
def tsk : State :=
  { onStrand 1 (fun _ => { ready with cr := [(4, 0xC00080), (9, 0x0000000500000001), (12, 0x6000000)] }) sys with
    cur := { sys.cur with strand := 1 }
    tasks := [(5, { st := .running, seq := 1, members := [0] })]
    mgmt := { power := .running, poolBase := some 0x400000 } }

abbrev x3 : Args := { a := .g 1, b := .g 2, c := .g 3 }

/-- A page of attribute immediate from physical 0, writable, that the core's buffer and the table hold. -/
def immLeaf : TLeaf := { base := 0, size := 2 ^ 30, entry := 0x72 }

/-- The same page for task accesses. -/
def taskLeafAt : TLeaf := { base := 0, size := 2 ^ 30, entry := 0x32 }

/-- The leaf stands in the first level-1 entry of a table at 0x10_0000 and in the buffer of core 0. -/
def mapped (l : TLeaf) (s : State) : State :=
  let s := { s with mem := s.mem.writeN 0x100000 (toBytes 8 l.entry.toNat), mgmt := { s.mgmt with root := 0x100000, walkRoot := 0x100000 } }
  modCore s 0 (fun k => { k with tlb := [l] })

/-! Steps with results from the spec. -/

/-- The state after an instruction. -/
def after (i : Instr) (s : State) : State :=
  match exec i s with
  | .next t => t
  | _ => s

/-- The value of g1 after an instruction of strand 0 on g2 and g3. -/
def resultOf (i : Instr) (v w : Word) : Word := rd (after i (withG [(2, v), (3, w)] sys)) sys.cur (.g 1)

/-- Table 5.7 and the corner cases of R102: 255 + 1 at width b, unsigned, wraps; -1 when dividing by 0; the most negative number over -1 is itself. -/
theorem test_integer : resultOf (.add { x3 with mod := 7 }) 255 1 = 0 ∧ resultOf (.div x3) 7 0 = -1 ∧
    resultOf (.div x3) 0x8000000000000000 (-1) = 0x8000000000000000 ∧ resultOf (.rem x3) (-7) 2 = -1 ∧
    resultOf (.mulh { x3 with mod := 5 }) 0xFFFFFFFF 0xFFFFFFFF = 0xFFFFFFFE ∧ resultOf (.shl { x3 with mod := 1 }) 1 33 = 2 := by decide

/-- R103: `addi.b g1, g1, 300` adds 44. -/
theorem test_addi_wraps : resultOf (.addi { a := .g 1, b := .g 2, mod := 3, imm := 300 }) 1 0 = 45 := by decide

/-- R104: leading zeros of 32 bits; |-128| at width b is -128. -/
theorem test_one_source : resultOf (.clz { x3 with mod := 1 }) 1 0 = 31 ∧ resultOf (.ctz x3) 0 0 = 64 ∧
    resultOf (.popc x3) 0xF0F 0 = 8 ∧ resultOf (.abs { x3 with mod := 3 }) 0x80 0 = 0xFFFFFFFFFFFFFF80 := by decide

/-- R107: `bfx` of 8 bits from bit 60 fills from bit 63; `bfi` drops what lies beyond it. -/
theorem test_fields : resultOf (.bfx { a := .g 1, b := .g 2, imm := 7 * 64 + 60 }) 0x8000000000000000 0 = 0xFFFFFFFFFFFFFFF8 ∧
    resultOf (.bfi { a := .g 1, b := .g 2, imm := 7 * 64 + 60 }) 0xFF 0 = 0xF000000000000000 := by decide

/-- R110: 1 + 1; `fmax` of a NaN and 1.0 is 1.0; inf x 0 + x is the canonical NaN. R111: 2^128 is infinity; 1 / -0 is -infinity. -/
theorem test_float : resultOf (.fadd x3) 0x3F800000 0x3F800000 = 0x40000000 ∧ resultOf (.fmax x3) 0x7FC00001 0x3F800000 = 0x3F800000 ∧
    resultOf (.fmul x3) 0x7F800000 0 = 0x7FC00000 ∧ resultOf (.fexp2 x3) 0x43000000 0 = 0x7F800000 ∧
    resultOf (.frcp x3) 0x80000000 0 = 0xFF800000 := by decide

/-- Table 5.8: 2.5 to the nearest even integer; 2^63 clamped; a NaN gives 0. -/
theorem test_convert : resultOf (.fcvt { x3 with mod := 1 }) 0x40200000 0 = 2 ∧ resultOf (.fcvt x3) 0x5F000000 0 = 0x7FFFFFFFFFFFFFFF ∧
    resultOf (.fcvt x3) 0x7FC00000 0 = 0 ∧ resultOf (.fcvt { x3 with mod := 3 }) 3 0 = 0x40400000 := by decide

/-- R109, R97: a comparison into q2; q0 discards. -/
theorem test_compare :
    rd (after (.cmpLt { a := .q 2, b := .g 2, c := .g 3 }) (withG [(2, -1), (3, 0)] sys)) sys.cur (.q 2) = 1 ∧
    rd (after (.cmpLt { a := .q 2, b := .g 2, c := .g 3, mod := 4 }) (withG [(2, -1), (3, 0)] sys)) sys.cur (.q 2) = 0 ∧
    rd (after (.cmpEq { a := .q 0, b := .g 2, c := .g 3 }) (withG [(2, 1), (3, 0)] sys)) sys.cur (.q 0) = 1 := by decide

/-- R94, R114: span 256, position 0xFF of core 15: one byte on is the first byte of the span on core 16, row 1 and column 0. A global pointer
keeps bit 36 and moves its 48-bit address. -/
theorem test_pointer_advance :
    rd (after (.padd { a := .p 1, b := .p 2, c := .g 3 }) (onStrand 0 (fun x => x.setPtr 2 0x7805FF) (withG [(3, 1)] sys))) sys.cur (.p 1) =
      0x800500 ∧
    rd (after (.padd { a := .p 1, b := .p 2, c := .g 3 }) (onStrand 0 (fun x => x.setPtr 2 0x1FFFFFFFFF) (withG [(3, 1)] sys))) sys.cur (.p 1) =
      0x3000000000 := by decide

/-- R119: a branch back by 12 bytes; `jmp` to an odd address traps with its target as INFO, and the pc stays. -/
theorem test_branch : (getStrand (after (.br { imm := -6 }) sys) 0 0).pc = 0xFF4 ∧
    (getStrand (after (.jmp { a := .g 2 }) (withG [(130, 0x2001)] usr)) 0 1).get 1 = 0x20010003 ∧
    (getStrand (after (.jmp { a := .g 2 }) (withG [(130, 0x2001)] usr)) 0 1).st = .trapped := by decide

/-- R130, R134, R152: `trap` 0x1234 of strand 1: cause 0x17, the code as INFO, resumed behind it, and its message in the queue; of strand 0: handler
mode at cr.tvec, which is 0 after reset; in handler mode: a double fault. -/
theorem test_trap :
    ((getStrand (after (.trap { imm := 0x1234 }) usr) 0 1).get 1 = 0x12340017 ∧ (getStrand (after (.trap { imm := 0x1234 }) usr) 0 1).get 2 = 0x1004 ∧
      ((getCore (after (.trap { imm := 0x1234 }) usr) 0).trapQ.map (·.strand)) = [1]) ∧
    ((getStrand (after (.trap {}) sys) 0 0).pc = 0 ∧ (getStrand (after (.trap {}) sys) 0 0).flag 6 = true) ∧
    (getStrand (after (.trap {}) (after (.trap {}) sys)) 0 0).st = .halted := by decide

/-- R58: `tlbi` by strand 1 raises cause 0x02, `tdone` by strand 0 too. -/
theorem test_privilege : ((getStrand (after (.tlbi { guard := 1 }) usr) 0 1).get 1).toNat % 256 = 2 ∧
    ((getStrand (after (.tdone {}) sys) 0 0).get 1).toNat % 256 = 2 := by decide

/-- R125: `mtc` keeps the 17 bits of cr.vl; `mfc` reads them back. -/
theorem test_control : rd (after (.mfc { a := .g 1, b := .cr 5 }) (after (.mtc { a := .cr 5, b := .g 2 }) (withG [(2, 0x2FFFF)] sys))) sys.cur (.g 1) =
    0xFFFF := by decide

/-- The store of core 0 holds 0x80 at 0x100 and p3 points there. -/
def stored80 : State := onStrand 0 (fun x => x.setPtr 3 0x100) (lsWrite (withG [(2, 0x11223344AABBCCDD), (3, 0x81)] sys) 0 0x100 [0x80])

/-- What the last of the pending list brings. -/
def landed (s : State) : State :=
  match s.pend.getLast? with
  | some x => after x.2 { s with pend := s.pend.dropLast }
  | none => s

/-- The state after a scalar access: the bank serves it, and it completes. -/
def access (i : Instr) (s : State) : State := landed (landed (after i s))

/-- R101, R191: `ld.b` extends the sign, `ld.b.u` does not, and the pointer advances by the size (R53); `st.w` stores four bytes, lowest first. -/
theorem test_load_store :
    rd (access (.ld { a := .g 1, b := .mem 3 .size, mod := 3 }) stored80) sys.cur (.g 1) = 0xFFFFFFFFFFFFFF80 ∧
    rd (access (.ld { a := .g 1, b := .mem 3 .size, mod := 3 }) stored80) sys.cur (.p 3) = 0x101 ∧
    rd (access (.ld { a := .g 1, b := .mem 3 .none, mod := 7 }) stored80) sys.cur (.g 1) = 0x80 ∧
    lsBytes (access (.st { a := .g 2, b := .mem 3 .none, mod := 1 }) stored80) 0 0x100 5 = [0xDD, 0xCC, 0xBB, 0xAA, 0] := by decide

/-- R192: `ladd.b` returns the old byte and wraps. -/
theorem test_ladd : rd (access (.ladd { a := .g 1, b := .mem 3 .none, c := .g 3, mod := 7 }) stored80) sys.cur (.g 1) = 0x80 ∧
    lsRead (access (.ladd { a := .g 1, b := .mem 3 .none, c := .g 3, mod := 7 }) stored80) 0 0x100 = 1 := by decide

/-- A request of strand 0 of core `c` for the store of core 0 that reaches its bank in cycle `reach`. -/
def request (c off reach : Nat) : LocAcc :=
  { cx := { core := c }, op := .st, n := 8, u := false, core := 0, off, data := 0, cmp := 0, dst := .none, ptrs := [], reach }

/-- R179, Table 8.2: in cycle 10 the own request overtakes a mesh request that has waited 3 cycles, and not one that has waited 4; at
another bank both are served; an own request waits for the one before it. -/
theorem test_banks :
    let s := fun (x y : LocAcc) => { modCore sys 0 id with now := 10, pend := [(99, locEvent x), (99, locEvent y)] }
    scalarServed (s (request 1 0x40 7) (request 0 0x48 10)) = some 1 ∧ scalarServed (s (request 1 0x40 6) (request 0 0x48 10)) = some 0 ∧
    (Machine.servedNow (s (request 1 0x40 7) (request 0 0x50 10)) (waitingReqs (s (request 1 0x40 7) (request 0 0x50 10)))
        (locReq (request 1 0x40 7)) = true ∧
      Machine.servedNow (s (request 1 0x40 7) (request 0 0x50 10)) (waitingReqs (s (request 1 0x40 7) (request 0 0x50 10)))
        (locReq (request 0 0x50 10)) = true) ∧
    scalarServed (s (request 0 0x50 10) (request 0 0x40 9)) = some 1 := by decide

/-- R178: the example, offset 0x2_3456 lies in bank 21. -/
theorem test_bank : bankOf 0x23456 = 21 := by decide

/-- The state after the runs of the vector instruction that core 0 holds. -/
def ran (s : State) : State :=
  match (getCore s 0).vuQ with
  | j :: _ => runsMade s j
  | [] => s

/-- R193: 1.0 + 2.0 through window 0, by the one run of the unit. -/
theorem test_vadd :
    let s := onStrand 0 (fun x => ((x.setPtr 1 0x200).setPtr 2 0x100).set 5 1)
      (lsWrite sys 0 0x100 [0x00, 0x00, 0x80, 0x3F, 0x00, 0x00, 0x00, 0x40])
    lsBytes (ran (after (.vadd { a := .mem 1 .none, b := .mem 2 .none, c := .mem 2 .none }) s)) 0 0x200 4 = [0x00, 0x00, 0x00, 0x40] := by decide

/-- Table 6.12, R89: `start` of strand 3 with window 128 to 192 at 0x4000. -/
theorem test_start :
    let t := after (.start { a := .g 1, b := .g 2 }) (withG [(1, 3 + 128 * 2 ^ 16 + 192 * 2 ^ 32), (2, 0x4000)] sys)
    rd t sys.cur (.g 1) = 0 ∧ (getStrand t 0 3).st = .ready ∧ (getStrand t 0 3).pc = 0x4000 ∧ (getStrand t 0 3).base = 128 := by decide

/-- R375: 2.0 outranks 1.0, and `hpop` gives its index and value. -/
theorem test_heap :
    let h := ((({} : Heap).push 0x3F800000 7).push 0x40000000 9)
    let t := after (.hpop { a := .g 1, b := .g 2 }) (modCore sys 0 (fun k => { k with heap := { h with owner := .core 0 } }))
    rd t sys.cur (.g 1) = 9 ∧ rd t sys.cur (.g 2) = 0x40000000 := by decide

/-- R356: two values of one level leave the ready queue in their order. -/
theorem test_ready_queue :
    let t := after (.rqp { a := .g 2, mod := 1 }) (after (.rqp { a := .g 1, mod := 1 }) (withG [(1, 5), (2, 6)] sys))
    rd (after (.rqt { a := .g 3 }) t) sys.cur (.g 3) = 5 ∧ rd (after (.rqt { a := .g 3 }) (after (.rqt { a := .g 3 }) t)) sys.cur (.g 3) = 6 := by
  decide

/-- Table 18.4: X conflicts with everything, S with S not, IN with INC not. -/
theorem test_compatible : compatible sys .x .is = false ∧ compatible sys .s .s = true ∧ compatible sys .in_ .inc = true ∧
    compatible sys .s .ix = false := by decide

/-- R292: `drop` of a node with a child makes it a Ghost. -/
theorem test_drop :
    let t := after (.lockGrant (lastGrant sys.cur ⟨3, 1⟩ .x (.node (.drop 1) (.g 1))))
      { waitsFor .lock sys with nodes := [(1, { valid := true, children := 1 })] }
    (getNode t 1).valid = true ∧ (getNode t 1).ghost = true := by decide

/-- One instruction from memory: `add g1, g2, g3` (Table 3.15) at 0x1000. -/
theorem test_step :
    let s := (withG [(2, 40), (3, 2)] State.reset).withFetchWord 32 0xE8030022
    (match step s with | .next t => (rd t {} (.g 1), (getStrand t 0 0).pc) | _ => (0, 0)) = (42, 0x1004) := by decide

/-! Witnesses: for every statement with hypotheses, states and operands that meet them together, each clause at a boundary of its range. -/

/-- Registers, comparisons, floating point, pointers and predicates: IntegerResults, OneSourceResults, CompareResults, FloatResults, PointerAdvance,
PointerAndPredicateResults; and NopHaltSleep, TrapInstructions, FenceAndAnswers. -/
theorem witness_registers : Performs sys x3 ∧ InRotation sys := by
  unfold Performs InRotation Undisturbed; decide

/-- FcvtResults, its first and its last conversion. -/
theorem witness_FcvtResults : (Performs sys { x3 with mod := 7 } ∧ Performs sys x3 ∧ InRotation sys) ∧
    (∃ f, conversions[(7 : BitVec 3).toNat]? = some f) ∧ ∃ f, conversions[(0 : BitVec 3).toNat]? = some f :=
  ⟨by unfold Performs InRotation Undisturbed; decide, ⟨_, rfl⟩, ⟨_, rfl⟩⟩

/-- PointerAndPredicateResults: the last item of a local and of a global pointer. -/
theorem witness_pget : Performs (onStrand 0 (fun x => x.setPtr 2 0x1000000000) sys) { a := .g 1, b := .p 2, imm := 7 } ∧
    ptrGlb (src (onStrand 0 (fun x => x.setPtr 2 0x1000000000) sys) (.p 2)) = true ∧
    ptrGlb (src (onStrand 0 (fun x => x.setPtr 2 0xFFFFFFFFF) sys) (.p 2)) = false := by
  unfold Performs; decide

/-- TransferResults: the highest even target, an odd one, the lowest that is out of range; `br` to itself. -/
theorem witness_TransferResults :
    (Performs (withG [(2, 0xFFFFFFFFFFFE)] sys) { a := .g 2 } ∧ InRotation (withG [(2, 0xFFFFFFFFFFFE)] sys)) ∧
    (∃ r ∈ transfers, (r.2.1 (withG [(2, 0xFFFFFFFFFFFE)] sys) { a := .g 2 }).getLsbD 0 = false ∧
      (r.2.1 (withG [(2, 0xFFFFFFFFFFFE)] sys) { a := .g 2 }).toNat < 2 ^ 48) ∧
    (∃ r ∈ transfers, (r.2.1 (withG [(2, 0x3)] sys) { a := .g 2 }).getLsbD 0 = true) ∧
    (∃ r ∈ transfers, (r.2.1 (withG [(2, 0x1000000000000)] sys) { a := .g 2 }).getLsbD 0 = false ∧
      2 ^ 48 ≤ (r.2.1 (withG [(2, 0x1000000000000)] sys) { a := .g 2 }).toNat) ∧
    ∃ r ∈ transfers, (r.2.1 sys {}).getLsbD 0 = false ∧ (r.2.1 sys {}).toNat < 2 ^ 48 := by
  refine ⟨by unfold Performs InRotation Undisturbed; decide, ⟨transfers[3], by simp [transfers], by decide⟩, ⟨transfers[3], by simp [transfers], by decide⟩,
    ⟨transfers[3], by simp [transfers], by decide⟩, ⟨transfers[0], by simp [transfers], by decide⟩⟩

/-- Deposit slots of core 0. -/
def withSlot (m : Nat) (k : Slot) (s : State) : State := modCore s 0 (fun c => { c with slots := setK c.slots m k })

/-- StrandFlow, `sleep`: the last slot bound and present; none bound. -/
theorem witness_sleep :
    (∃ m, 4 ≤ m ∧ m < 32 ∧ (curSlot (withSlot 31 { owner := some 0, present := true } sys) m).owner = some 0 ∧
      (curSlot (withSlot 31 { owner := some 0, present := true } sys) m).present = true) ∧
    InRotation (withSlot 31 { owner := some 0, present := true } sys) ∧
    ∀ m, 4 ≤ m → m < 32 → (curSlot sys m).owner = some sys.cur.strand → (curSlot sys m).present = false :=
  ⟨⟨31, by decide⟩, by unfold InRotation Undisturbed; decide, fun _ _ _ h => nomatch (show (none : Option Nat) = some 0 from h)⟩

/-- PrivilegedTrap: strand 1 outside tasks with registers of strand 0, strand 0 outside handler mode, and a strand that runs a task. -/
theorem witness_PrivilegedTrap : (usr.cur.strand ≠ 0 ∧ taskOf usr 0 1 = none) ∧ systemRead 34 = true ∧ systemRead 41 = true ∧ systemWrite 6 = true ∧
    systemWrite 41 = true ∧ (sys.cur.strand = 0 ∧ (curStrand sys).flag 6 = false) ∧ (taskOf tsk 0 1).isSome = true := by decide

/-- GuardAndWindow: q1 reads 0; g64 lies outside a window of 64 registers. -/
theorem witness_GuardAndWindow : (performed sys { x3 with guard := 1 } = false ∧ InRotation sys) ∧
    performed usr { x3 with a := .g 64 } = true ∧ argsInWindow usr { x3 with a := .g 64 } = false := by
  unfold InRotation Undisturbed; decide

/-- A trap message of strand 3. -/
def msg3 : TrapMsg := ⟨0, 3, 0x03, 0x22, 0x1000⟩

/-- Core 0 with trap messages. -/
def queued (ms : List TrapMsg) (s : State) : State := modCore s 0 (fun k => { k with trapQ := ms })

/-- ReadControl: a register of the strand, cr.tmsg of an empty queue and of one with a message. -/
theorem witness_ReadControl : (Performs sys { a := .g 1, b := .cr 41 } ∧ InRotation sys ∧ sys.cur.strand = 0) ∧ (curCore sys).trapQ = [] ∧
    (Performs (queued [msg3] sys) { a := .g 1, b := .cr 35 } ∧ InRotation (queued [msg3] sys)) ∧ (curCore (queued [msg3] sys)).trapQ = msg3 :: [] ∧
    Performs usr { a := .g 1, b := .cr 0 } ∧ InRotation usr ∧ systemRead 0 = false := by
  unfold Performs InRotation Undisturbed; decide

/-- WritingControl: the first and the last register written as given, a read-only one; cr.wlim and cr.tmr with nonzero and zero values. -/
theorem witness_WritingControl : (Performs sys { a := .cr 5, b := .g 2 } ∧ InRotation sys) ∧ (5, 0x1FFFF) ∈ writable ∧ (41, 0x07FF07FF) ∈ writable ∧
    1 ∈ readOnly ∧ 36 ∈ readOnly ∧ (0x100000000 : Word) &&& 0xFFFFFFFF = 0 ∧ (0x1FFFFFFFF : Word) &&& 0xFFFFFFFF ≠ 0 := by
  unfold Performs InRotation Undisturbed; decide

/-- WritingControl: cr.stat, cr.wlim, cr.tmr and cr.accm; a split that takes effect, one that overlaps a region, one that waits for a load. -/
theorem witness_WritingControl_effects :
    (∀ n ∈ [(0 : BitVec 7), 6, 7, 11, 33], Performs sys { a := .cr n, b := .g 2 } ∧ InRotation sys ∧ sys.cur.strand = 0) ∧
    (splitOverlaps (curCore sys) 3 = false ∧ splitReady sys 0 = true) ∧
    splitOverlaps (curCore (onStrand 1 (fun _ => { ready with cr := [(12, 0x7FF0000)] }) sys)) 3 = true ∧
    (let s := modStrand { tsk with cur := sys.cur } 0 1 (fun x => { x with st := .waiting, wait := some { why := .flight, instr := .ldg {}, cx := tsk.cur } })
     splitReady s 0 = false ∧ splitOverlaps (curCore s) 0 = false ∧ InRotation s) := by
  unfold Performs InRotation Undisturbed; decide

/-- The strand of a state's `cur` is Blocked for `why`. -/
def blockedFor (why : Why) (s : State) : State :=
  modStrand s s.cur.core s.cur.strand (fun x => { x with st := .blocked, wait := some { why := why, instr := .nop {}, cx := s.cur, dst := .g 1 } })

/-- Clockwork: a wait with a limit; handler entry from the rotation, from a `sleep` and from another wait. -/
theorem witness_Clockwork :
    ((getStrand sys 0 0).st ≠ .blocked) ∧
    (∃ w, waitOf (blockedFor (.slot 4 false) sys) 0 0 = some w ∧ plainWait w = true) ∧
    ((getStrand (queued [msg3] sys) 0 0).flag 6 = false ∧ (getCore (queued [msg3] sys) 0).trapQ ≠ [] ∧ (getStrand (queued [msg3] sys) 0 0).st = .ready ∧
      waitOf (queued [msg3] sys) 0 0 = none) ∧
    (∃ w, waitOf (queued [msg3] (blockedFor .sleep sys)) 0 0 = some w ∧ w.why = .sleep ∧ (getStrand (queued [msg3] (blockedFor .sleep sys)) 0 0).st = .blocked) ∧
    ∃ w, waitOf (queued [msg3] (blockedFor (.barw 7) sys)) 0 0 = some w ∧ plainWait w = true ∧ w.why ≠ .sleep :=
  ⟨by decide, ⟨_, rfl, by decide⟩, by decide, ⟨_, rfl, by decide⟩, ⟨_, rfl, by decide⟩⟩

/-- Strand 0 in handler mode, with cr.tsel. -/
def handling (sel : Word) (s : State) : State :=
  modCore (onStrand 0 (fun x => x.setFlag 6 true) s) 0 (fun k => { k with shared := [(37, [⟨sel, 0, 0⟩])] })

/-- StrandFlow, `rft`: with an empty queue and with a message; a Trapped strand selected; none selected; a selected strand that is not Trapped. -/
theorem witness_rft :
    (handling 0x10 sys).cur.strand = 0 ∧ (curStrand (handling 0x10 sys)).flag 6 = true ∧ (Performs (handling 0x10 sys) {} ∧ InRotation (handling 0x10 sys)) ∧
    (curCore (handling 0x10 sys)).trapQ = [] ∧ (curCore (queued [msg3] (handling 0x10 sys))).trapQ ≠ [] ∧ InRotation (queued [msg3] (handling 0x10 sys)) ∧
    (let s := handling 3 (onStrand 3 (fun _ => { ready with st := .trapped }) sys)
     InRotation s ∧ bit ((curCore s).sharedLast 37) 4 = false ∧ bits ((curCore s).sharedLast 37) 3 0 = 3 ∧ (getStrand s 0 3).st = .trapped ∧
      (getStrand s 0 3).dbg 1 = false ∧ (getStrand s 0 3).holdReq = false) ∧
    bit ((curCore (handling 0x1F sys)).sharedLast 37) 4 = true ∧ bits ((curCore (handling 0x1F sys)).sharedLast 37) 3 0 ≠ 0 ∧
    (getStrand (handling 3 sys) 0 3).st ≠ .trapped := by
  unfold Performs InRotation Undisturbed; decide

/-- Completions, and every statement whose happening finds its strand waiting: the strand waits for that instruction. -/
theorem witness_Completions : Awaits waiting waiting.cur := by unfold Awaits Undisturbed; decide

/-- Operands of a scalar access through p3. -/
def accArgs : Args := { a := .g 1, b := .mem 3 .size, c := .g 3 }

/-- p3 of the issuing strand. -/
def p3At (v : Word) (s : State) : State := modStrand s s.cur.core s.cur.strand (fun x => x.setPtr 3 v)

/-- LocalAccessResults: the last eight bytes of the region, for a load and for a store; an access that its bank serves; one that has been
served at once, with a general and a shared register, and one served late. -/
theorem witness_LocalAccessResults :
    Performs (p3At 0x5FFF8 sys) accArgs ∧
    (∃ r ∈ localInstrs, r.2.1 = .ld) ∧ ptrCore (accPtr (p3At 0x5FFF8 sys) accArgs false) = 0 ∧
    locChecks (p3At 0x5FFF8 sys) sys.cur (accPtr (p3At 0x5FFF8 sys) accArgs false) 8 true false = none ∧
    locChecks (p3At 0x5FFF8 sys) sys.cur (accPtr (p3At 0x5FFF8 sys) accArgs false) 8 false true = none ∧
    ((request 0 0x5FFF8 3).cx.core = (request 0 0x5FFF8 3).core ∧ (request 0 0x5FFF8 3).got = none ∧ (request 0 0x5FFF8 3).n = 8) ∧
    Awaits waiting waiting.cur ∧ waiting.cur.core = 0 ∧ getK [] (getCore waiting 0).shared 5 = [] := by
  unfold Performs Awaits Undisturbed; decide

/-- Strand 1 of core 0 runs a task of the gang of cores 0 and 1, whose regions are the whole stores. -/
def gang2 : State := { tsk with tasks := [(5, { st := .running, seq := 1, members := [0, 1], regions := [(0, 0x6000000), (1, 0x6000000)] })] }

/-- MeshAccessResults: the first bytes of another core's store in the gang; a misaligned access; one outside the region; a request
that its bank serves, with another that waits. -/
theorem witness_MeshAccessResults :
    (Performs (p3At 0x80000 gang2) accArgs ∧ ptrCore (accPtr (p3At 0x80000 gang2) accArgs false) ≠ gang2.cur.core ∧
      locChecks (p3At 0x80000 gang2) gang2.cur (accPtr (p3At 0x80000 gang2) accArgs false) 8 true false = none) ∧
    locChecks (p3At 0x80001 gang2) gang2.cur (accPtr (p3At 0x80001 gang2) accArgs false) 8 true false = some (0x03, 0x80001) ∧
    locChecks (p3At 0x60000 sys) sys.cur (accPtr (p3At 0x60000 sys) accArgs false) 8 true false = some (0x04, 0x60000) ∧
    ((request 1 0x40 7).cx.core ≠ (request 1 0x40 7).core ∧ (request 1 0x40 7).got = none ∧ (request 1 0x40 7).n = 8) ∧
    Awaits waiting waiting.cur ∧
    (let s := { modCore sys 0 id with now := 10, pend := [(99, locEvent (request 1 0x40 7)), (99, locEvent (request 0 0x48 10))] }
     scalarServed s = some 1 ∧ Machine.servedNow s (waitingReqs s) (locReq (request 0 0x48 10)) = true ∧ s.now < (locReq (request 0 0x48 10)).reach + 10 ∧
      locReq (request 1 0x40 7) ∈ waitingReqs s ∧ (locReq (request 1 0x40 7)).banks &&& (locReq (request 0 0x48 10)).banks ≠ 0) ∧
    (let s := { sys with now := 13, pend := [(99, locEvent (request 1 0x40 3))] }
     request 1 0x40 3 ∈ accesses s 0 ∧ ownTurn s (request 1 0x40 3) = true ∧ underTest s (locReq (request 1 0x40 3)) = false) := by
  unfold Performs Awaits Undisturbed; decide

/-- An `lcas` of strand 0 of core `c` that stores, and a store watchpoint of that strand over the whole store of core 0. -/
def casReq (c : Nat) : LocAcc := { request c 0x40 3 with op := .cas }
def storeWatch (c : Nat) (s : State) : State := modStrand s c 0 (fun x => x.set 17 0xC4C0000000000000)

/-- LocalAccessResults and MeshAccessResults: an `lcas` that no watchpoint meets, one that a watchpoint stops, and its completion. -/
theorem witness_watched :
    (casWatch sys (casReq 0) = none ∧ casWatch sys (casReq 1) = none) ∧
    (∃ b, casWatch (storeWatch 0 sys) (casReq 0) = some b) ∧ (∃ b, casWatch (storeWatch 1 sys) (casReq 1) = some b) ∧
    Awaits waiting { casReq 0 with cx := sys.cur, got := some (3, none), watched := some 0x40 }.cx := by
  refine ⟨by decide, ⟨(0x14, 0x40), by decide⟩, ⟨(0x14, 0x40), by decide⟩, ?_⟩
  unfold Awaits Undisturbed; decide

/-- Link queue of core 0. -/
def withLink (port : Nat) (k : Link) (s : State) : State := modCore s 0 (fun c => { c with links := setK c.links port k })

/-- A link queue with one word of the system. -/
def oneWord : Link := { words := [7], claim := .system }

/-- Nobody sleeps where every strand is as it is after reset. -/
theorem noSleeper_ready (m : Nat) (k : Slot) : noSleeper (withSlot m k sys) 0 m := by
  intro u _
  have h : getStrand (withSlot m k sys) 0 u = Strand.init u := rfl
  rw [h]; unfold Strand.init; split <;> decide

/-- MailboxInstructions: registers alone; the first and the last slot with and without a word; the last port with and without one; a write to
a slot and to a port. -/
theorem witness_MailboxResults :
    (Performs sys { a := .g 1, b := .g 2 } ∧ InRotation sys) ∧
    (plain (.g 1) = true ∧ mayUse (withSlot 4 { owner := some 0, present := true } sys) (.m 4) false ∧
      (curSlot (withSlot 4 { owner := some 0, present := true } sys) 4).present = true) ∧
    (mayUse (withSlot 31 { owner := some 0, present := true } sys) (.m 31) false ∧
      (curSlot (withSlot 31 { owner := some 0, present := true } sys) 31).present = true) ∧
    (mayUse (withLink 3 oneWord sys) (.m 3) false ∧
      headFor (getLink (withLink 3 oneWord sys) 0 3) (claimOf (withLink 3 oneWord sys) 0 0) = some 7) ∧
    (mayUse sys (.m 0) false ∧ mailWord sys sys.cur 0 = none) ∧
    (mayUse (withSlot 4 { owner := some 0 } sys) (.m 4) false ∧ mailWord (withSlot 4 { owner := some 0 } sys) sys.cur 4 = none) ∧
    mayUse (withSlot 31 { owner := some 0 } sys) (.m 31) true ∧ noSleeper (withSlot 31 { owner := some 0 } sys) 0 31 ∧ mayUse sys (.m 3) true := by
  refine ⟨by unfold Performs InRotation Undisturbed; decide, ?_, ?_, ?_, ?_, ?_, ?_, noSleeper_ready _ _, ?_⟩ <;> unfold mayUse <;> decide

/-- SlotBinding: a port; the first slot, nobody reading; a slot whose old owner is Blocked at it. -/
theorem witness_SlotBinding :
    (sys.cur.strand = 0 ∧ Performs sys { a := .m 3, b := .g 2 } ∧ InRotation sys) ∧
    (∀ u, readsSlot (getStrand sys 0 u) 4 = false) ∧
    (let s := withSlot 4 { owner := some 1 } (onStrand 1 (fun _ => { ready with
        st := .blocked, wait := some { why := .slot 4 false, instr := .nop {}, cx := { strand := 1 } } }) sys)
     (curSlot s 4).owner = some 1 ∧ readsSlot (getStrand s 0 1) 4 = true ∧ (∃ w, waitOf s 0 1 = some w ∧ w.cx.core = 0 ∧ w.cx.strand = 1) ∧
      Performs s { a := .m 4, b := .g 2 } ∧ InRotation s) := by
  refine ⟨by unfold Performs InRotation Undisturbed; decide, ?_, ?_⟩
  · intro u
    have h : getStrand sys 0 u = Strand.init u := rfl
    rw [h]; unfold Strand.init; split <;> rfl
  · exact ⟨by decide, by decide, ⟨_, rfl, by decide⟩, by unfold Performs InRotation Undisturbed; decide⟩

/-- Deposits, the instructions: strand 0 may send anywhere, strand 1 outside tasks only to its core; masks of cores. -/
theorem witness_sends : Performs sys { a := .num 4, b := .g 2, c := .g 3 } ∧ sendAllowed sys sys.cur 1023 = true ∧ sendAllowed usr usr.cur 1 = false ∧
    Performs usr { a := .num 4, b := .g 2, c := .g 3 } ∧ maskCores 0 0x8001 = [0, 15] ∧ maskCores 0 0 = [] ∧ InRotation sys ∧
    (∀ d ∈ maskCores 0 0x8001, sendAllowed sys sys.cur d = true) := by
  unfold Performs InRotation Undisturbed; decide

/-- A deposit of strand 0 into slot 4 of core 0. -/
def dep4 : DepMsg := ⟨{}, 0, 4, 9, none, 12, false⟩

/-- A slot with deferred words. -/
def deferring (n : Nat) : State :=
  modCore (withSlot 4 { owner := some 1 } (onStrand 1 (fun _ => { ready with st := .trapped }) sys)) 0
    (fun k => { k with deferred := List.replicate n ⟨4, 8⟩ })

/-- Deposits, the happenings: refused, applied, deferred into the last place; the answers; a deferred word applied; one held back enters. -/
theorem witness_deposits :
    depositAccepted sys {} none 0 4 = false ∧
    (depositAccepted (withSlot 4 { owner := some 1 } sys) {} none 0 4 = true ∧ mustDefer (withSlot 4 { owner := some 1 } sys) 0 4 = false ∧
      noSleeper (withSlot 4 { owner := some 1 } sys) 0 4) ∧
    (depositAccepted (deferring 15) {} none 0 4 = true ∧ mustDefer (deferring 15) 0 4 = true ∧ bufferUsed (getCore (deferring 15) 0) < 16) ∧
    (stillWaits waiting waiting.cur = true ∧ Undisturbed (getStrand waiting 0 0)) ∧
    (∃ e, (getCore (deferring 1) 0).deferred.find? (fun e => e.slot == 4) = some e) ∧ noSleeper (deferring 1) 0 4 ∧
    (∃ m ms, (getCore (modCore (deferring 15) 0 (fun k => { k with heldBack := [dep4] })) 0).heldBack = m :: ms ∧
      bufferUsed (getCore (modCore (deferring 15) 0 (fun k => { k with heldBack := [dep4] })) 0) < 16) := by
  refine ⟨by decide, ⟨by decide, by decide, noSleeper_ready _ _⟩, by decide, ⟨by decide, by unfold Undisturbed; decide⟩, ⟨_, rfl⟩, ?_, ⟨_, _, rfl, by decide⟩⟩
  intro u h
  have : (1 : Nat) = u := Option.some.inj h
  subst this; decide

/-- A push of the issuing strand into port 1 of core 0. -/
def pushing : Push := ⟨sys.cur, 0, 1, 5, .system, false⟩

/-- Deposits, the links: a push finds the fourth place; a blocked push finds one; a strand that waits at a slot finds its word. -/
theorem witness_links :
    (Awaits waiting pushing.cx ∧ (getLink (withLink 1 { words := [1, 2, 3], claim := .system } waiting) 0 1).words.length < 4 ∧
      claimFits (getLink (withLink 1 { words := [1, 2, 3], claim := .system } waiting) 0 1) .system = true) ∧
    (firstFit { blocked := [pushing] } [pushing] = some (pushing, [])) ∧
    (let s := withSlot 4 { owner := some 0, present := true, val := 3 } (blockedFor (.slot 4 false) sys)
     (∃ w, waitOf s 0 0 = some w ∧ w.cx.core = 0 ∧ w.cx.strand = 0 ∧ w.why = .slot 4 false ∧ plain w.dst = true ∧ mailWord s w.cx 4 = some 3) ∧
      Undisturbed (getStrand s 0 0)) := by
  refine ⟨⟨by unfold Awaits Undisturbed; decide, by decide, by decide⟩, by decide, ⟨_, rfl, by decide⟩, by unfold Undisturbed; decide⟩

/-- Deposits: a buffer that is full, and one before which words are held; a push that finds four words, and one behind a blocked one; `sendl` to
core 0, refused, accepted, placed and completed. -/
theorem witness_sendl :
    let j : SendlJob := { cx := sys.cur, slot := 4, val := 9, task := none, cores := [0], lat := 4, issued := 0, ok := true }
    (16 ≤ bufferUsed (getCore (deferring 16) 0) ∧ mustDefer (deferring 16) 0 4 = true ∧ depositAccepted (deferring 16) {} none 0 4 = true) ∧
    4 ≤ (getLink (withLink 1 { words := [1, 2, 3, 4] } waiting) 0 1).words.length ∧
    (getLink (withLink 1 { blocked := [pushing] } waiting) 0 1).blocked ≠ [] ∧ stillWaits waiting j.cx = true ∧
    depositAccepted waiting j.cx j.task 0 j.slot = false ∧
    (let s := withSlot 4 { owner := some 1 } waiting
     stillWaits s j.cx = true ∧ depositAccepted s j.cx j.task 0 j.slot = true ∧ (getCore s 0).heldBack = [] ∧ bufferUsed (getCore s 0) < 16 ∧
      j.cx ∉ (getCore s 0).reserved ∧ mustDefer s 0 j.slot = false ∧ (getSlot s 0 j.slot).owner = some 1 ∧ (getStrand s 0 1).st ≠ .blocked) ∧
    Awaits waiting j.cx := by
  unfold Awaits Undisturbed; decide

/-- A barrier and a fetcher of loom 0. -/
def withUnits (b : Barrier) (f : Fetcher) (s : State) : State := modLoom s 0 (fun l => { l with barriers := [(7, b)], fetchers := [(7, f)] })

/-- A barrier and a fetcher that core 0 has bound for itself. -/
def ownBarrier (lead : Nat) : Barrier := { owner := .core 0, mask := 1, leads := if lead = 0 then [] else [(0, lead)] }
def ownFetcher (ci cr rem : Nat) : Fetcher := { owner := .core 0, desc := ⟨2, 3, 1, 1, 1, 1⟩, rem := rem, chunks := if cr = 0 then [] else [(0, { ci, cr })] }

/-- CountersAndNests, the instructions: units that serve the core, with lead 0 and 3, and units that do not. -/
theorem witness_CounterInstructions :
    Performs sys { a := .num 7, b := .g 2 } ∧ Performs sys { a := .g 1, b := .num 7 } ∧ InRotation (withUnits (ownBarrier 3) (ownFetcher 1 2 3) sys) ∧
    (let s := withUnits (ownBarrier 3) (ownFetcher 1 2 3) sys
     unitServes s s.cur (curBarrier s 7).owner (curBarrier s 7).mask = true ∧ (curBarrier s 7).lead 0 = 3 ∧
      (curBarrier s 7).owner = ownerOf s 0 0 ∧ (curFetcher s 7).owner = ownerOf s 0 0 ∧ (curFetcher s 7).desc.mask.getLsbD 0 = true) ∧
    (curBarrier (withUnits (ownBarrier 0) {} sys) 7).lead 0 = 0 ∧
    unitServes sys sys.cur (curBarrier sys 0).owner (curBarrier sys 0).mask = false ∧ (curBarrier sys 0).owner ≠ ownerOf sys 0 0 ∧
    (curFetcher sys 0).owner ≠ ownerOf sys 0 0 ∧ checkArea sys sys.cur 0x20 32 32 = none := by
  unfold Performs InRotation Undisturbed; decide

/-- CountersAndNests, `nestn`: a chunk with an iteration left, an empty nest, and a fetcher that does not serve the core. -/
theorem witness_NestNext :
    (Performs sys { a := .g 1, b := .num 7 } ∧ InRotation sys ∧ ∀ k, (Opnd.g 1) ≠ .k k) ∧
    unitServes sys sys.cur (curFetcher sys 7).owner (curFetcher sys 7).desc.mask = false ∧
    (let s := withUnits {} (ownFetcher 5 1 0) sys
     unitServes s s.cur (curFetcher s 7).owner (curFetcher s 7).desc.mask = true ∧ 0 < (getK ({} : Chunk) (curFetcher s 7).chunks 0).cr) ∧
    (let s := withUnits {} (ownFetcher 0 0 0) sys
     unitServes s s.cur (curFetcher s 7).owner (curFetcher s 7).desc.mask = true ∧ (getK ({} : Chunk) (curFetcher s 7).chunks 0).cr = 0 ∧
      (curFetcher s 7).rem = 0) := by
  refine ⟨⟨by unfold Performs; decide, by unfold InRotation Undisturbed; decide, nofun⟩, by decide, by decide, by decide⟩

/-- CountersAndNests, the claims: a spent chunk with iterations left to claim, a claim under way, one that reaches the fetcher, and one that has returned to the
only strand that waits for it. -/
theorem witness_NestClaims :
    (let s := withUnits {} (ownFetcher 0 0 3) sys
     (getK ({} : Chunk) (curFetcher s 7).chunks 0).claim = none ∧ (getK ({} : Chunk) (curFetcher s 7).chunks 0).cr = 0 ∧ 0 < (curFetcher s 7).rem) ∧
    (let s := { withUnits {} { ownFetcher 0 0 3 with chunks := [(0, { claim := some 0 })] } sys with now := 4 }
     (getK ({} : Chunk) (curFetcher s 7).chunks 0).claim ≠ none ∧ (getFetcher s 0 7).desc.mask.getLsbD 0 = true ∧ claimDue s false = some (0, 7)) ∧
    (let s := withUnits {} { ownFetcher 5 1 0 with chunks := [(0, { ci := 5, cr := 1, claim := some 0, reached := true })] } (waitsFor (.nest 7) sys)
     (∃ w, waitOf s 0 0 = some w ∧ w.why = .nest 7 ∧ w.cx.core = 0 ∧ w.cx.strand = 0 ∧ w.dst = .g 1 ∧
        unitServes s w.cx (getFetcher s 0 7).owner (getFetcher s 0 7).desc.mask = true) ∧
      Undisturbed (getStrand s 0 0) ∧ 0 < ((getFetcher s 0 7).chunk 0).cr ∧ ∀ v, v < 16 → v ≠ 0 → waitOf s 0 v = none) :=
  ⟨by decide, by decide, ⟨_, rfl, by decide⟩, by unfold Undisturbed; decide, by decide, by decide⟩

/-- CountersChange, the happenings: a binding of a free unit, descriptors of 1 and of 2^32 iterations, the stamp clock below and at its end, an
arrive at the last lead. -/
theorem witness_CounterHappenings :
    Awaits waiting waiting.cur ∧ bindStatus waiting waiting.cur (getFetcher waiting 0 7).owner 1 false = 0 ∧ (1 : BitVec 16) ≠ 0 ∧
    (1 * 1 * 1 * 1 : Nat) < 2 ^ 32 ∧ (2 : Nat) ^ 32 ≤ 65536 * 65536 * 1 * 1 ∧ waiting.stampClock < 2 ^ 48 - 1 ∧
    2 ^ 48 - 1 ≤ ({ waiting with stampClock := 2 ^ 48 - 1 } : State).stampClock ∧
    (let s : State := { withUnits (ownBarrier 2) {} waiting with pend := [(0, .barrierArriveEffect waiting.cur 7)] }
     unitServes s waiting.cur (getBarrier s 0 7).owner (getBarrier s 0 7).mask = true ∧ (getBarrier s 0 7).lead 0 < 3 ∧ arriveDue s 0 7 = true ∧
      Awaits s waiting.cur) := by
  unfold Awaits Undisturbed; decide

/-- CountersChange, the phase: both members of a mask have arrived. -/
theorem witness_BarrierPhase :
    let b : Barrier := { owner := .core 0, mask := 0x8001, leads := [(0, 1), (15, 3)] }
    b.held = [] ∧ b.mask ≠ 0 ∧ (∀ i, b.mask.getLsbD i = true → 1 ≤ b.lead i) ∧ ∃ i, b.mask.getLsbD i = true ∧ b.lead i = 1 := by
  refine ⟨rfl, by decide, ?_, ⟨0, by decide⟩⟩
  intro i h
  have hi : i < 16 := (BitVec.lt_of_getLsbD h)
  revert h; revert i; decide

/-- VL = n, with p1 at 0x200, p2 at 0x100, p3 at the last word of the region; FP32 windows. -/
def vec (n : Word) : State := onStrand 0 (fun x => (((x.set 5 n).setPtr 1 0x200).setPtr 2 0x100).setPtr 3 0x5FFFC) sys

def vecArgs : Args := { a := .mem 1 .size, b := .mem 2 .size, c := .mem 3 .size }

/-- VectorElements and VectorReductions: with VL = 1, a row that does not read its destination and one that does; a comparison; a reduction of two operands. -/
theorem witness_VectorElements :
    Performs (vec 1) vecArgs ∧
    (∃ r ∈ elementRows, r.2.2.1 = false ∧
      OneElement (vec 1) ((vecArgs.a, r.2.2.1, true) :: (r.2.1 vecArgs).map (fun o => (o, true, false)))) ∧
    (∃ r ∈ elementRows, r.2.2.1 = true ∧
      OneElement (vec 1) ((vecArgs.a, r.2.2.1, true) :: (r.2.1 vecArgs).map (fun o => (o, true, false)))) ∧
    OneElement (vec 1) [(vecArgs.a, false, true), (vecArgs.b, true, false), (vecArgs.c, true, false)] ∧
    ∃ r ∈ reductionRows, OneElement (vec 1) ((vecArgs.a, false, true) :: (r.2.1 vecArgs).map (fun o => (o, true, false))) := by
  refine ⟨by unfold Performs; decide, ⟨elementRows[0], by simp [elementRows], rfl, ?_⟩, ⟨elementRows[3], by simp [elementRows], rfl, ?_⟩, ?_,
    ⟨reductionRows[3], by simp [reductionRows], ?_⟩⟩ <;> unfold OneElement <;> decide

/-- VectorTransfers, the moves: the operands of `vcpy`, `vtrans`, `vgath` and `vscat` pass their checks. -/
theorem witness_VectorMoves :
    let s := vec 1
    let a := vop s s.cur vecArgs.a
    let b := vop s s.cur vecArgs.b
    let ix := vop s s.cur vecArgs.c
    let k := ofBytes (walkBytes s ix.p 0 4)
    (Performs s vecArgs ∧ Performs s { vecArgs with imm := 1 } ∧ vlOf s s.cur = 1) ∧
    (checkAccess s s.cur a.p 1 = none ∧ checkAccess s s.cur b.p 1 = none ∧ watchWalk s s.cur false true a.p 1 = none ∧
      watchWalk s s.cur true false b.p 1 = none) ∧
    OneElement s [(vecArgs.a, false, true), (vecArgs.b, true, false)] ∧
    (b.win ≠ 3 ∧ a.win ≠ 3 ∧ checkVop s s.cur a 1 = none ∧ checkVop s s.cur b 1 = none ∧ checkAccess s s.cur ix.p 4 = none ∧ checkAlign ix.p 4 = none ∧
      checkPtr s s.cur b.p = none ∧ checkElem s s.cur b k = none ∧ checkPtr s s.cur a.p = none ∧ checkElem s s.cur a k = none ∧
      watchWalk s s.cur false true a.p (elemSize a.win) = none ∧ watchWalk s s.cur true false b.p (elemSize b.win) = none ∧
      watchWalk s s.cur true false ix.p 4 = none ∧ watchWalk s s.cur true false (tableAt b k) (elemSize b.win) = none ∧
      watchWalk s s.cur false true (tableAt a k) (elemSize a.win) = none) := by
  unfold Performs OneElement; decide

/-- VectorTransfers, the lengths: 0 with operands that pass the first check, and 65,537. -/
theorem witness_VectorLengths : (Performs (vec 0) vecArgs ∧ vlOf (vec 0) (vec 0).cur = 0) ∧
    (∃ r ∈ elementRows, ∀ o ∈ vecArgs.a :: r.2.1 vecArgs, checkReserved (vop (vec 0) (vec 0).cur o) = none) ∧
    65536 < vlOf (vec 65537) (vec 65537).cur ∧ Performs (vec 65537) vecArgs :=
  ⟨by unfold Performs; decide, ⟨elementRows[0], by simp [elementRows], by decide⟩, by decide, by unfold Performs; decide⟩

/-- Strand 0 owns every tile. -/
def tiled : State := onStrand 0 (fun x => (x.set 11 0xFF).setPtr 2 0x100) sys

/-- `mza` of the last tile. -/
def mzaArgs : Args := { a := .acc 7 }

/-- Its entry. -/
def mzaEntry : MEnt := entryOf tiled .mza mzaArgs

/-- Core 0 with `n` entries in the matrix queue. -/
def withQueue (es : List MEnt) (s : State) : State := modCore s 0 (fun k => { k with mq := es })

/-- MatrixInstructions, the issue: a tile that the strand does not own; a good entry with a free queue, with a full one, and with a locked tile. -/
theorem witness_MatrixIssue :
    (Performs tiled mzaArgs ∧ ∃ r ∈ matrixRows, r.2 = .mza) ∧
    checkMatrix sys (entryOf sys .mza mzaArgs) mzaArgs.imm = some (0x0D, 0) ∧
    (checkMatrix tiled mzaEntry 0 = none ∧ mzaEntry.tiles.any (tileLocked (curCore tiled)) = false ∧ (curCore tiled).mq.length < 16) ∧
    mzaEntry.tiles.any (tileLocked (curCore (withQueue [mzaEntry] tiled))) = true ∧
    (let s := withQueue (List.replicate 16 { mzaEntry with tile := 0 }) tiled
     mzaEntry.tiles.any (tileLocked (curCore s)) = false ∧ 16 ≤ (curCore s).mq.length) := by
  refine ⟨⟨by unfold Performs; decide, ⟨matrixRows[5], by simp [matrixRows], rfl⟩⟩, by decide, by decide, by decide, by decide⟩

/-- MatrixInstructions, the effects: entries of the kinds, with the least and the greatest depth; a list of one correction; a rotation on a ring of one core and to
the next; a load through a window and of blocks. -/
theorem witness_MatrixEffects :
    ({ mzaEntry with kind := .mma, k := 16 }.k ∈ [16, 32, 48, 64] ∧ { mzaEntry with kind := .mmas, k := 64 }.k ∈ [16, 32, 48, 64]) ∧
    (let e := { mzaEntry with kind := .mcorr, count := 1, k := 64, m := 64, n := 64, side := toBytes 8 0x3FFF }
     e.count = 1 ∧ e.side = toBytes 8 (0x3FFF : Word).toNat ∧ bits (0x3FFF : Word) 13 0 < 64 * 256 ∧ e.k = 64) ∧
    ({ mzaEntry with kind := .mrot, succ := 0 }.succ = mzaEntry.cx.core ∧ { mzaEntry with kind := .mrot, succ := 1 }.succ ≠ mzaEntry.cx.core) ∧
    ({ mzaEntry with kind := .mldb, n := 64, p := 3 <<< 33 }.n = 64 ∧ ptrWin (3 <<< 33) = 3 ∧ ptrWin mzaEntry.p ≠ 3) := by decide

/-- MatrixInstructions, the store: a started `mst` whose bytes have not moved, over distinct places. -/
theorem witness_mst :
    let e := { mzaEntry with kind := .mst, started := true, p := 0x100, size := 8, bytes := [1, 2, 3, 4, 5, 6, 7, 8] }
    (e.kind = .mst ∧ e.started = true ∧ e.moved = 0 ∧ e.size = e.bytes.length ∧ e.size ≤ 2 ^ 16) ∧ WalkDistinct e.p e.size := by
  have h : ∀ i : Nat, i < 8 → ∀ j : Nat, j < 8 → ptrOff (advance 0x100 i) = ptrOff (advance 0x100 j) → i = j := by decide
  exact ⟨by decide, fun i j hi hj _ e => h i hi j hj e⟩

/-- The strand waits for its entry, which has started and stands alone. -/
def mzaDone : State := withQueue [{ mzaEntry with started := true }] (waitsFor (.matrix mzaEntry.id) tiled)

/-- MatrixHappenings: an entry that can start; one that completes, with nothing else on the core. -/
theorem witness_MatrixHappenings :
    startable (withQueue [mzaEntry] tiled) 0 = some mzaEntry ∧
    (let e := { mzaEntry with started := true }
     Awaits mzaDone e.cx ∧ e.started = true ∧ e.direct = true ∧ e.inc = .none ∧ (e.kind = .mza ∨ e.kind = .macc) ∧ (getCore mzaDone e.cx.core).mq = [e]) ∧
    QuietCore mzaDone 0 0 := by
  refine ⟨by decide, by unfold Awaits Undisturbed; decide, rfl, rfl, rfl, ?_⟩
  intro v hv
  have h : getStrand mzaDone 0 v = Strand.init v := by
    show getK (Strand.init v) [(0, getStrand mzaDone 0 0)] v = Strand.init v
    simp [getK, hv]
  unfold waitOf
  rw [h]; unfold Strand.init; split <;> rfl

/-- Text at an address of the page that `placeLeaf` maps, in core 0's instruction cache. -/
def withText (a : Nat) (ws : List IWord) (s : State) : State :=
  modCore { s with mem := (s.mem.writeN 0 (toBytes 8 placeLeaf)).writeN a (wordBytes ws) } 0 (fun k => { k with icache := [a / 256] })

/-- `mza acc7` stands behind the instruction that issues; g1 = n. -/
def repState (n : Word) : State := withText 0x1004 [0xF980, 0x14E0] (withG [(1, n)] tiled)

/-- The captured chain. -/
def mzaChain : Chain := ⟨.mza mzaArgs, 0x14E0, 0x1004, 4⟩

/-- A repetition of that chain on core 0. -/
def mzaRep (demand : Nat) : RepBuf := { cx := sys.cur, chains := [mzaChain], count := 2, stride := 0, toggle := false, demand := demand }

/-- Core 0 with a repetition. -/
def withRep (r : RepBuf) (s : State) : State := modCore s 0 (fun k => { k with rep := some r })

/-- CountersChange: an arrive behind a store of its strand that is still in the matrix queue, and behind one of a pass to come. -/
theorem witness_storesLeft :
    let cx : Ctx := { sys.cur with at_ := 9 }
    let s : State := { withRep (mzaRep 0) (withQueue [{ mzaEntry with kind := .mst, direct := false }] (waitsFor .flight { sys with cur := cx })) with
      pend := [(0, .barrierArriveEffect cx 7)] }
    (storesLeft s cx = true ∧ Awaits s cx ∧ arriveDue s 0 7 = true) ∧
    storesLeft (withRep { mzaRep 0 with chains := [{ mzaChain with instr := .mst mzaArgs }] } sys) cx = true := by
  unfold Awaits Undisturbed; decide

/-- A held fault of strand 0. -/
def holdingFault : State := onStrand 0 (fun x => { x with held := [⟨0x05, 0, 0x22, false⟩] }) sys


/-- Repetition, `rep`: one chain, with a count of 1 and of 4,096. -/
theorem witness_rep :
    ((Performs (repState 1) { a := .g 1 } ∧ InRotation (repState 1) ∧ (curStrand (repState 1)).held = [] ∧ (curCore (repState 1)).rep = none) ∧
      passTilesOwned (repState 1) sys.cur (firstPass (repState 1) sys.cur [mzaChain]) 0 1 = true ∧
      passBad (repState 1) [] (firstPass (repState 1) sys.cur [mzaChain]) = false ∧
      seqDemand (repState 1) (firstPass (repState 1) sys.cur [mzaChain]) 1 < 1024) ∧
    passTilesOwned (repState 4096) sys.cur (firstPass (repState 4096) sys.cur [mzaChain]) 0 4096 = true ∧
    seqDemand (repState 4096) (firstPass (repState 4096) sys.cur [mzaChain]) 4096 < 1024 := by
  unfold Performs InRotation Undisturbed; decide

/-- Repetition, `rep` and `repw`: a held fault; a buffer that is free and one with the strand's sequence. -/
theorem witness_repw : (performed holdingFault {} = true ∧ (curStrand holdingFault).held = ⟨0x05, 0, 0x22, false⟩ :: []) ∧
    (Performs sys {} ∧ InRotation sys ∧ (curStrand sys).held = [] ∧ (curCore sys).rep.any (fun r => r.cx.strand == sys.cur.strand) = false) ∧
    (InRotation (withRep (mzaRep 0) sys) ∧ (curCore (withRep (mzaRep 0) sys)).rep.any (fun r => r.cx.strand == sys.cur.strand) = true) := by
  unfold Performs InRotation Undisturbed; decide

/-- Repetition, `rep`: the text behind it reads as that chain. -/
theorem witness_readChains :
    (readChains (repState 1) sys.cur (nextPc sys.cur) 1).toOption.map (fun l => l.map (fun h => (codeOf h.instr, argsOf h.instr, h.word, h.addr, h.len))) =
      some [(codeOf mzaChain.instr, mzaArgs, mzaChain.word, mzaChain.addr, mzaChain.len)] := by decide

/-- Repetition, the reissue: a sequence that may issue its next entry. -/
theorem witness_reissue :
    let s := withRep (mzaRep 0) tiled
    let u := noteIssued s 0
    repReady s 0 = true ∧ (getCore s 0).rep = some (mzaRep 0) ∧ capturable mzaChain.instr = some .mza ∧
    (getStrand u 0 0).pred mzaArgs.guard.toNat ≠ mzaArgs.sense ∧
    checkReissue u (chainCx sys.cur mzaChain) mzaArgs (passEntry u (chainCx sys.cur mzaChain) .mza mzaArgs 0 false 0 (fun p => getK 0 (mzaRep 0).copies p)) =
      none := by decide

/-- Repetition, the governor: a demand at CEIL asked for; one that fills CEIL granted. -/
theorem witness_PowerGovernor :
    ((getCore (withRep (mzaRep 1024) sys) 0).rep.any (fun r => r.demand == 1024 && !r.granted && !r.stopped) = true ∧ alarmed (withRep (mzaRep 1024) sys) = false ∧
      1024 ≤ (getDie (withRep (mzaRep 1024) sys) (dieOf 0)).ceil) ∧
    (let s : State := { sys with dies := [(0, { waiting := [(0, 1000)], total := 24 })] }
     (getDie s 0).waiting = [(0, 1000)] ∧ (getDie s 0).total + 1000 ≤ (getDie s 0).ceil) := by decide

/-- A selection: p1 (or p2) with window 5 at 0x100, p3 at 0x600, g3 with 512 of its own experts, VL = n. -/
def choosing (n : Word) : State :=
  onStrand 0 (fun x => (((x.set 5 n).setPtr 1 0xA00000100).setPtr 2 0x100).setPtr 3 0x600) (withG [(3, 512 * 2 ^ 32)] sys)

def selArgs : Args := { a := .mem 1 .size, b := .mem 3 .size, c := .g 3, imm := 7 }

/-- SelectionResults: VL = 4 with the most winners asked for, VL = 1,025, a wrong window; 0 and 16 values of a softmax. -/
theorem witness_SelectionResults :
    (let s := choosing 4
     Performs s selArgs ∧ vlOf s s.cur ≤ 1024 ∧ ptrWin (ptrVal s s.cur selArgs.a) = 5 ∧ bits selArgs.imm 10 4 = 0 ∧ bits (src s selArgs.c) 41 32 ≤ 512 ∧
      checkAccess s s.cur (ptrVal s s.cur selArgs.a) 8 = none ∧ checkAccess s s.cur (ptrVal s s.cur selArgs.b) 40 = none ∧
      checkAlign (ptrVal s s.cur selArgs.a) 2 = none ∧ checkAlign (ptrVal s s.cur selArgs.b) 8 = none) ∧
    (Performs (choosing 1025) selArgs ∧ 1024 < vlOf (choosing 1025) sys.cur) ∧ ptrWin (ptrVal (choosing 4) sys.cur (.mem 2 .size)) ≠ 5 ∧
    (∀ b ∈ [(0 : Byte), 16],
      let s := lsWrite (choosing 4) 0 0x100 [b]
      let p := ptrVal s s.cur (.mem 2 .none)
      let r := ptrVal s s.cur (.mem 1 .none)
      let n := ofBytes (walkBytes s p 0 1)
      Performs s { a := .mem 2 .none, b := .mem 1 .none } ∧ n = b.toNat ∧ ptrWin r = 5 ∧ n ≤ 16 ∧ checkAccess s s.cur p 8 = none ∧
        checkAccess s s.cur p (8 + 4 * n) = none ∧ checkAccess s s.cur r (n * 2) = none ∧ checkAlign p 8 = none ∧ checkAlign r 2 = none) := by
  unfold Performs; decide

/-- Core 0 with a heap. -/
def withHeap (h : Heap) (s : State) : State := modCore s 0 (fun k => { k with heap := h })

/-- HeapResults: a foreign heap; a heap with a pair, an empty one, one that has evicted; one FP32 element to push. -/
theorem witness_HeapResults :
    ¬ heapOwn (withHeap { owner := .core 1 } sys) ∧ heapOwn sys ∧ Performs sys { a := .g 1, b := .g 2 } ∧ InRotation sys ∧
    (∃ v i ps, (curCore (withHeap { pairs := [(0x3F800000, 7)], owner := .core 0 } sys)).heap.pairs = (v, i) :: ps) ∧
    heapOwn (withHeap { pairs := [(0x3F800000, 7)], owner := .core 0 } sys) ∧
    (∃ n v, toppLoop one [(0x3F800000, 7)] pzero 1 = some (n, v)) ∧
    toppLoop (rne32 ((toppMass one).mul (val32 0x40000000))) [(0x3F800000, 7)] pzero 1 = none ∧
    (Performs (vec 1) { a := .mem 2 .none, b := .g 2 } ∧ heapOwn (vec 1) ∧ ptrWin (ptrVal (vec 1) sys.cur (.mem 2 .none)) = 0 ∧ vlOf (vec 1) sys.cur = 1 ∧
      checkAccess (vec 1) sys.cur (ptrVal (vec 1) sys.cur (.mem 2 .none)) 4 = none ∧ checkAlign (ptrVal (vec 1) sys.cur (.mem 2 .none)) 4 = none) := by
  unfold Performs InRotation Undisturbed heapOwn
  refine ⟨by decide, by decide, by decide, by decide, ⟨_, _, _, rfl⟩, by decide, ⟨_, _, rfl⟩, by decide, by decide⟩

/-- HeapResults: an instruction that finds the unit taken, and one that finds it free. -/
theorem witness_suQ : (curCore sys).suQ = [] ∧ (curCore (modCore sys 0 (fun k => { k with suQ := [{ instr := .hclr {}, cx := {} }] }))).suQ ≠ [] := by
  decide

/-- An Open sequence 3 of generation 1, free storage for windows. -/
def seqOpen (q : Seq) (s : State) : State := { s with seqs := [(3, q)], mgmt := { s.mgmt with winRoom := 64, npages := 8 } }
def open3 : Seq := { st := .open_, gen := 1, img := [0, 0, 0, 0, 0, 0, 0, 0] }

/-- BiasAndAdaptation, the instructions: a handle of an Open sequence and a foreign one; one value and 1,024 values. -/
theorem witness_TableInstructions :
    Performs sys x3 ∧ foreignHandle (withG [(2, 0x1003)] (seqOpen open3 sys)) (cxTask (seqOpen open3 sys) sys.cur) 0x1003 = false ∧
    foreignHandle sys (cxTask sys sys.cur) 0 = true ∧ sys.cur.strand = 0 ∧
    (bits (0x3FF0000 : Word) 25 16 + 1 ≤ 1024 ∧ checkArea sys sys.cur 0x100 4 4 = none) ∧ (0 < 1024 ∧ bits (0 : Word) 25 16 + 1024 ≤ 1024) := by
  unfold Performs; decide

/-- BiasAndAdaptation, the happenings: a bank that nothing holds; a claim, a release and a read of `adpl` that are good, and one that is refused. -/
theorem witness_TableHappenings :
    Awaits waiting waiting.cur ∧ waiting.tables.latched.any (fun y => y.1 == 63 && y.2.1 == 1 - biasActive waiting 63) = false ∧
    (let s := { waiting with nodes := [(1, { valid := true })], tables := { slots := [(511, 0xC000000000004001)] } }
     adplRefusal s 3 1 0 511 0 = 0 ∧ adplRefusal s 0 1 0 0 1 = 0) ∧ adplRefusal waiting 3 0 0 0 0 ≠ 0 := by
  unfold Awaits Undisturbed; decide

/-- Operands of a global access through g2. -/
def gArgs : Args := { a := .g 1, b := .g 2, c := .g 3 }
def gArgsR : Args := { a := .g 2, b := .g 3 }

/-- g2 of strand 0 and of strand 1 is an address. -/
def at2 (v : Word) (s : State) : State := withG [(2, v), (130, v)] s

/-- The immediate page, where it cannot be written, a page of no memory, the task page. -/
def readLeaf : TLeaf := { base := 0, size := 2 ^ 30, entry := 0x52 }
def voidLeaf : TLeaf := { base := 0, size := 2 ^ 30, entry := 0x8000000072 }

/-- GlobalIssue, before translation: misaligned; outside the 48 bits; not buffered; a lineage store outside tasks. The loads and atomics of `gArgs`,
the reductions of `gArgsR`. -/
theorem witness_GlobalIssue_address :
    Performs (at2 0x2004 sys) gArgs ∧ Performs (at2 0x2004 sys) gArgsR ∧
    (∀ r ∈ (globalAccs (at2 0x2004 sys) gArgs).take 4 ++ (globalAccs (at2 0x2004 sys) gArgsR).drop 4, r.2.va.toNat % r.2.n ≠ 0) ∧
    (∀ r ∈ (globalAccs (at2 0x1000000000000 sys) gArgs).take 4 ++ (globalAccs (at2 0x1000000000000 sys) gArgsR).drop 4,
      r.2.va.toNat % r.2.n = 0 ∧ bit r.2.va 63 = false ∧ bits r.2.va 62 48 ≠ 0) ∧
    (∀ r ∈ (globalAccs (at2 0xFFFFFFFFFFF8 sys) gArgs).take 4 ++ (globalAccs (at2 0xFFFFFFFFFFF8 sys) gArgsR).drop 4,
      r.2.va.toNat % r.2.n = 0 ∧ bits r.2.va 63 48 = 0 ∧ buffered (at2 0xFFFFFFFFFFF8 sys) 0 r.2.va.toNat = none) ∧
    (∀ r ∈ (globalAccs (at2 0x8000010000000000 sys) gArgs).take 4 ++ (globalAccs (at2 0x8000010000000000 sys) gArgsR).drop 4,
      bit r.2.va 63 = true ∧ r.2.va.toNat % r.2.n = 0) ∧
    cxTask sys sys.cur = none ∧ stores (.amo 0) = true := by
  unfold Performs; decide

/-- GlobalIssue: the leaf of the page is buffered and in the table, at both ends of the page and with each attribute. -/
theorem witness_Translated : Translated (mapped immLeaf sys) 0 immLeaf ∧ Translated (mapped immLeaf sys) 0x3FFFFFF8 immLeaf ∧
    Translated (mapped readLeaf sys) 0x2000 readLeaf ∧ Translated (mapped voidLeaf sys) 0x2000 voidLeaf ∧
    Translated (mapped taskLeafAt sys) 0x2000 taskLeafAt ∧ Translated (mapped taskLeafAt tsk) 0x2000 taskLeafAt :=
  ⟨⟨by decide, by decide, by decide⟩, ⟨by decide, by decide, by decide⟩, ⟨by decide, by decide, by decide⟩, ⟨by decide, by decide, by decide⟩,
    ⟨by decide, by decide, by decide⟩, ⟨by decide, by decide, by decide⟩⟩

/-- GlobalIssue, the page: no memory there; not writable; a task page outside tasks; an immediate page, for a load and for a posted store. -/
theorem witness_GlobalIssue_page :
    (entAttr voidLeaf.entry < 2 ∧ inHbm (voidLeaf.pa 0x2000) = false ∧ inAperture (voidLeaf.pa 0x2000) = false) ∧
    (entAttr readLeaf.entry < 2 ∧ inHbm (readLeaf.pa 0x2000) = true ∧ entW readLeaf.entry = false) ∧
    (∀ r ∈ (globalAccs (at2 0x2000 (mapped taskLeafAt sys)) gArgs).take 4,
      PageAdmits (at2 0x2000 (mapped taskLeafAt sys)) r.2 taskLeafAt ∧ entAttr taskLeafAt.entry = 0) ∧
    cxTask (at2 0x2000 (mapped taskLeafAt sys)) sys.cur = none ∧ Performs (at2 0x2000 (mapped taskLeafAt sys)) gArgs ∧
    (∀ r ∈ (globalAccs (at2 0x2000 (mapped immLeaf sys)) gArgs).take 4, PageAdmits (at2 0x2000 (mapped immLeaf sys)) r.2 immLeaf ∧ entAttr immLeaf.entry = 1) ∧
    Calm (at2 0x2000 (mapped immLeaf sys)) ∧ postedCount (curCore (at2 0x2000 (mapped immLeaf sys))) < 64 ∧ returns .ld = true ∧ returns .st = false := by
  unfold PageAdmits Calm InRotation Undisturbed Performs; decide

/-- No watchpoint of a state without any matches. -/
theorem unwatched (s : State) (g : GAcc) (h : ∀ i, i < g.n → ∀ load store : Bool, watched s g.cx load store true (g.va.toNat + i) = false) : Unwatched s g := h

theorem witness_Unwatched : ∀ r ∈ (globalAccs (at2 0x2000 (mapped immLeaf sys)) gArgs).take 4,
    ∀ i, i < 8 → ∀ load store : Bool, watched (at2 0x2000 (mapped immLeaf sys)) r.2.cx load store true (r.2.va.toNat + i) = false := by decide

/-- The task of `tsk` with a lock on the line of 0x2000. -/
def locked (m : Mode) : State :=
  { at2 0x2000 (mapped taskLeafAt tsk) with
    locks := { entries := [{ obj := flatObj 0 0x2000, holders := [{ task := some 5, mode := m, lcnt := 1, id := 0 }], waiters := [] }] } }

/-- GlobalIssue, a task on its page: not covered; covered with the line in the L1 and without; a log with room. -/
theorem witness_GlobalIssue_task :
    (Performs (locked .x) gArgs ∧ cxTask (locked .x) tsk.cur = some 5 ∧ (getLog (locked .x) 0 5).length < 4096 ∧ Calm (locked .x)) ∧
    (∀ r ∈ (globalAccs (locked .x) gArgs).take 4, PageAdmits (locked .x) r.2 taskLeafAt ∧ covered (locked .x) 5 (flatObj 0 r.2.va.toNat) (gAsks r.2.kind) = true) ∧
    (∀ r ∈ (globalAccs (at2 0x2000 (mapped taskLeafAt tsk)) gArgs).take 4,
      covered (at2 0x2000 (mapped taskLeafAt tsk)) 5 (flatObj 0 r.2.va.toNat) (gAsks r.2.kind) = false) ∧
    (∀ r ∈ (globalAccs (locked .s) gArgs).take 1, r.2.kind = .ld ∧ covered (locked .s) 5 (flatObj 0 r.2.va.toNat) (gAsks r.2.kind) = true ∧
      l1Serves (locked .s) r.2 (.task 0x2000) = false) ∧
    (∀ r ∈ (globalAccs (locked .s) gArgs).take 1,
      l1Serves (modCore (locked .s) 0 (fun k => { k with l1 := [⟨0, 5, .phys 0x2000⟩] })) r.2 (.task 0x2000) = true) := by
  unfold PageAdmits Calm InRotation Undisturbed Performs; decide

/-- An access of the waiting strand. -/
def acc (kind : GKind) (n : Nat) (va : Word) : GAcc :=
  { cx := sys.cur, kind := kind, n := n, va := va, data := 7, cmp := 0, dst := .g 1, ordered := false }

/-- GlobalHappenings: the widths of the kinds. -/
theorem witness_WidthFits : WidthFits (acc .ld 8 0x2000) ∧ WidthFits (acc (.amo 7) 4 0x2000) ∧ WidthFits (acc .amoc 4 0x2000) ∧
    WidthFits (acc (.red 2) 4 0x2000) ∧ WidthFits (acc .st 1 0x2000) :=
  ⟨show 8 ∈ [1, 2, 4, 8] by decide, show 4 = if (7 : BitVec 3) = 7 then 4 else 8 by decide, show 4 ∈ [4, 8] by decide,
    show 4 = if (2 : BitVec 3) = 1 ∨ (2 : BitVec 3) = 2 then 4 else 8 by decide, show 1 ∈ [1, 2, 4, 8] by decide⟩

/-- GlobalHappenings: a walk that finds nothing and one that finds the page; a returning and a posted access at its place; the aperture; a
task's empty log and one with its store. -/
theorem witness_GlobalHappenings :
    (stillWaits waiting waiting.cur = true ∧ walk waiting 0x2000 = none) ∧
    (stillWaits (mapped immLeaf waiting) sys.cur = true ∧ walk (mapped immLeaf waiting) 0x2000 = some immLeaf ∧ entAttr immLeaf.entry = 1 ∧
      PageAdmits (mapped immLeaf waiting) (acc .ld 8 0x2000) immLeaf) ∧
    (linePending waiting (.phys 0x2000) = false ∧ Awaits waiting sys.cur ∧ mustFollow waiting (acc .ld 8 0x2000) none (.imm 0x2000) = false ∧
      (getStrand waiting 0 0).seq = none ∧ mustFollow waiting (acc .st 8 0x2000) (some 0) (.imm 0x2000) = false) ∧
    ((8 : Nat) % 8 = 0 ∧ 96 % 256 / 8 < 13 ∧ mustFollow waiting (acc .ld 8 0x2000) none (.counter 96) = false ∧
      linePending waiting (.phys (apertureBase + 96)) = false) ∧
    (let s := waitsFor .flight tsk
     Awaits s s.cur ∧ cxTask s s.cur = some 5 ∧ linePending s (.phys 0x2000) = false ∧ (getCore s 0).splitNow = 0 ∧ (getStrand s 0 1).seq = none ∧
      getLog s 0 5 = [] ∧
      getLog (modCore s 0 (fun k => { k with logs := [(5, [.store (.phys 0x2000) [1, 2, 3, 4, 5, 6, 7, 8]])] })) 0 5 =
        [] ++ [.store (.phys 0x2000) [1, 2, 3, 4, 5, 6, 7, 8]]) := by
  unfold PageAdmits Awaits Undisturbed; decide

/-- A posted access of strand 0. -/
def postedOne (kind : GKind) (loc : GLoc) (s : State) : State :=
  modCore s 0 (fun k => { k with posted := [{ id := 4, g := { acc kind 8 0x2000 with id := 4 }, loc := loc }] })

/-- FenceAndAnswers, the instructions: nothing outstanding, with and without a failure; a posted store outstanding; a lineage line that may be read. -/
theorem witness_fence :
    (Performs sys { a := .g 1, imm := 1 } ∧ InRotation sys ∧ fenceReady sys 0 0 true = true ∧ (curStrand sys).fail = none) ∧
    (let s := onStrand 0 (fun x => { x with fail := some ⟨65535, 255, 31, 3⟩ }) sys
     fenceReady s 0 0 true = true ∧ (curStrand s).fail = some ⟨65535, 255, 31, 3⟩ ∧ InRotation s) ∧
    fenceReady (postedOne .st (.imm 0x2000) sys) 0 0 false = false ∧
    (bit (src sys (.g 1)) 63 = false) ∧
    (let s := { at2 0x8000010000003FFF sys with nodes := [(1, { valid := true, ntiles := 1 })] }
     bit (src s (.g 2)) 63 = true ∧ checkLineage s (cxTask s s.cur) (src s (.g 2)) false = none) := by
  unfold Performs InRotation Undisturbed; decide

/-- FenceAndAnswers, the answers: a waiting `fence` that is ready; an access that is answered, returning and posted. -/
theorem witness_answers :
    (let s := waitsFor (.drain true) sys
     (∃ w, (getStrand s 0 0).wait = some w ∧ w.why = .drain true ∧ w.cx.core = 0 ∧ w.cx.strand = 0) ∧ Undisturbed (getStrand s 0 0) ∧
      fenceReady s 0 0 true = true ∧ (getStrand s 0 0).fail = none) ∧
    (let s := postedOne .ld (.remote false 3 0x2000) waiting
     (∃ p, (getCore s 0).posted.find? (fun p => p.id == 4) = some p ∧ p.g.cx.core = 0 ∧ returns p.g.kind = true ∧ p.g.n ∈ [1, 2, 4, 8]) ∧
      Awaits s sys.cur) ∧
    (let s := postedOne .st (.remote false 3 0x2000) sys
     (∃ p, (getCore s 0).posted.find? (fun p => p.id == 4) = some p ∧ returns p.g.kind = false) ∧ (getStrand s 0 0).fail = none) := by
  refine ⟨⟨⟨_, rfl, by decide⟩, by unfold Undisturbed; decide, by decide, by decide⟩, ⟨⟨_, rfl, by decide⟩, by unfold Awaits Undisturbed; decide⟩,
    ⟨⟨_, rfl, by decide⟩, by decide⟩⟩

/-- No strand waits for a place among the posted stores. -/
theorem witness_NoneQueued : NoneQueued (postedOne .st (.remote false 3 0x2000) sys) 0 := by
  intro u w g loc h
  rw [show getStrand (postedOne .st (.remote false 3 0x2000) sys) 0 u = Strand.init u from rfl] at h
  unfold Strand.init at h; split at h <;> cases h

/-- StartAndReap, `start`: strand 0 and a free strand; windows that fit (the shortest, the longest, up to the end of the file) and one that does not; tiles taken;
an odd and a too high entry point. -/
theorem witness_start :
    (sys.cur.strand = 0 ∧ Performs sys x3 ∧ InRotation sys) ∧ ((curCore sys).strand 15).st = .free ∧
    ((0x4001 : Word).getLsbD 0 = true ∧ 2 ^ 48 ≤ (0x1000000000000 : Word).toNat ∧ (0xFFFFFFFFFFFE : Word).getLsbD 0 = false ∧
      (0xFFFFFFFFFFFE : Word).toNat < 2 ^ 48) := by
  unfold Performs InRotation Undisturbed; decide

/-- Windows that fit beside strand 0, and windows that do not. -/
theorem witness_WindowFits : WindowFits (curCore sys) 15 128 136 ∧ WindowFits (curCore sys) 15 1920 2048 ∧ ¬ WindowFits (curCore sys) 15 120 136 ∧
    ¬ WindowFits (curCore sys) 15 128 264 := by
  refine ⟨?_, ?_, ?_, ?_⟩ <;> unfold WindowFits <;> decide

theorem witness_TilesFree : TilesFree (curCore sys) 15 0xFF ∧ ¬ TilesFree (curCore tiled) 15 0x80 := by
  constructor <;> unfold TilesFree <;> decide

/-- Strand 3 of core 0 in a state. -/
def third (st : StrandState) (s : State) : State := onStrand 3 (fun _ => { ready with st := st }) s

/-- StartAndReap, `reap`: a strand that runs, one that has stopped, with matrix work and without. -/
theorem witness_reap :
    (InRotation (third .ready sys) ∧ ((curCore (third .ready sys)).strand 3).st ≠ .halted ∧ ((curCore (third .ready sys)).strand 3).st ≠ .trapped ∧
      ((curCore (third .ready sys)).strand 3).st ≠ .held ∧ ((curCore (third .ready sys)).strand 3).st ≠ .done) ∧
    (((curCore (third .trapped sys)).strand 3).st = .trapped ∧ matrixBusy (curCore (third .trapped sys)) 3 = false ∧
      ((curCore (third .trapped sys)).strand 3).wait = none ∧ InRotation (third .trapped sys) ∧ Performs (third .trapped sys) x3) ∧
    matrixBusy (curCore (withQueue [{ mzaEntry with cx := { strand := 3 } }] (third .trapped sys))) 3 = true := by
  unfold Performs InRotation Undisturbed; decide

theorem witness_reap_barriers : ∀ n, (getBarrier (third .trapped sys) (loomOf 0) n).owner ≠ .core 0 := fun _ => nofun

/-- StateTransfers: all 128 registers of a full window, then pointers; a g item outside a window; a misaligned area. -/
theorem witness_StateTransfers :
    (sys.cur.strand = 0 ∧ Performs sys { a := .g 1, b := .g 2, c := .num 127 }) ∧ checkArea sys sys.cur 0x100 8 1024 = none ∧
    (∀ i, i < 128 → 0 + i < 128 → 0 + i < windowSize (getStrand sys 0 0)) ∧ (∃ i, i < 1 ∧ 127 + i < 128 ∧ windowSize (getStrand (third .held sys) 0 3) ≤ 127 + i) ∧
    (∀ i, i < 8 → 128 + i < 128 → 128 + i < windowSize (getStrand sys 0 0)) ∧ (0x104 : Word).toNat % 8 ≠ 0 := by
  refine ⟨by unfold Performs; decide, by decide +kernel, by decide, ⟨0, by decide⟩, fun i _ h => by omega, by decide⟩

/-- A tagged image of strand state `st` under key 31 with a window of 8, and an entry of the context cache. -/
def image31 (st : Nat) : List Word := List.replicate 159 0 ++ [tagWord 8 st 31]
def cached (e : CcEnt) (s : State) : State := modCore s 0 (fun k => { k with cc := [(e.key % 32, e)] })

/-- Swaps, the instruction: the refusals; a strand moved out over the entry of its key; one moved in, Ready and Held, and images that refuse. -/
theorem witness_Swaps :
    (sys.cur.strand = 0 ∧ Performs sys x3 ∧ InRotation sys) ∧ (getStrand (third .ready sys) 0 3).st ≠ .free ∧ ¬ Movable (third .ready sys) 0 3 ∧
    (Movable (third .held sys) 0 3 ∧ (getStrand (third .held sys) 0 3).wait = none ∧ (getStrand (third .held sys) 0 3).size ≤ 128) ∧
    (getStrand sys 0 3).st = .free ∧
    (bit (tagWord 8 1 31) 63 = true ∧ bits (tagWord 8 1 31) 15 0 = 31 ∧ tagN (tagWord 8 1 31) = 8) ∧
    tagState (tagWord 8 5 31) = 5 ∧ tagState (tagWord 8 6 31) = 6 ∧ ¬(bit (0 : Word) 63 = true ∧ bits (0 : Word) 15 0 = 31) := by
  unfold Performs InRotation Undisturbed Movable; decide

theorem witness_swap_windows : WindowFits (curCore sys) 3 128 (128 + 8) ∧ ¬ WindowFits (curCore sys) 3 0 (0 + 8) := by
  constructor <;> unfold WindowFits <;> decide

theorem witness_cached : getCc (cached ⟨31, false, image31 1⟩ sys) 0 31 = some ⟨31, false, image31 1⟩ ∧ (image31 1).length = 160 ∧
    nth 0 (image31 1) 159 = tagWord 8 1 31 := ⟨rfl, by simp [image31], rfl⟩

/-- Swaps, the completions: a strand whose move is under way; a dirty entry whose backing area can be written. -/
theorem witness_swapComplete :
    (let s := third .swapping waiting
     Awaits s sys.cur ∧ sys.cur.strand = 0 ∧ (getStrand s 0 3).st = .swapping ∧ Undisturbed (getStrand s 0 3)) ∧
    (Awaits (cached ⟨31, true, image31 1⟩ (mapped immLeaf waiting)) sys.cur) ∧
    (writeImage (cached ⟨31, true, image31 1⟩ (mapped immLeaf waiting)) sys.cur 31 (image31 1)).2 = true := by
  refine ⟨by unfold Awaits Undisturbed; decide, by unfold Awaits Undisturbed; decide, by decide⟩

/-- BuffersAndReplies: own buffer and every buffer; a split that overlaps a region, one that waits for a load, one that takes effect; lines that fit. -/
theorem witness_BuffersAndReplies :
    (sys.cur.strand = 0 ∧ Performs sys { a := .g 1 } ∧ InRotation sys) ∧ Awaits waiting waiting.cur ∧
    (splitOverlaps (getCore waiting 0) 3 = false ∧ splitReady waiting 0 = true) ∧ splitOverlaps (getCore (onStrand 1 (fun _ => { ready with cr := [(12, 0x7FF0000)] }) waiting) 0) 3 = true ∧
    (let s := modStrand { tsk with cur := sys.cur } 0 1 (fun x => { x with st := .waiting, wait := some { why := .flight, instr := .ldg {}, cx := tsk.cur } })
     splitReady s 0 = false ∧ splitOverlaps (getCore s 0) 0 = false) ∧ (getCore waiting 0).icache.length + 256 ≤ 256 := by
  unfold Performs InRotation Awaits Undisturbed; decide

/-- HoldStepResume: a target of the own core in each state that a clause names, itself, and strand 1 outside tasks. -/
theorem witness_HoldStepResume :
    (Performs sys { a := .g 1 } ∧ InRotation sys) ∧ (usr.cur.strand ≠ 0 ∧ taskOf usr 0 1 = none ∧ Performs usr { a := .g 1 } ∧ InRotation usr) ∧
    (sys.cur.strand = 0 ∧ (tgtOf (3 : Word)).1 = sys.cur.core ∧ (tgtOf (3 : Word)).2 = 3 ∧ bit (3 : Word) 4 = false ∧ bit (0x13 : Word) 4 = true) ∧
    (getStrand sys 0 3).st = .free ∧ (∀ st ∈ [StrandState.ready, .waiting, .held, .halted, .done, .trapped, .blocked], (getStrand (third st sys) 0 3).st = st ∧
      (curStrand (third st sys)).st = .ready) ∧
    mayName tsk tsk.cur 0 1 = true := by
  unfold Performs InRotation Undisturbed; decide

theorem loose_of_none {x : Strand} (h : x.wait = none) : LooseWait x := fun w k => by rw [h] at k; cases k

/-- Swaps: strands that wait for nothing and for a link word; a Blocked one moves out; images that refuse by the entry's own key and by another's, which is read from
memory. -/
theorem witness_Swaps_more :
    (LooseWait (getStrand (third .held sys) 0 3) ∧ LooseWait { ready with st := .blocked, wait := some { why := .pop 1 false, instr := .nop {}, cx := {} } }) ∧
    Movable (third .blocked sys) 0 3 ∧ peekImage (cached ⟨31, false, image31 1⟩ sys) sys.cur 31 = some (image31 1) ∧
    (peekImage (cached ⟨31, true, image31 1⟩ (mapped immLeaf sys)) sys.cur 63).isSome = true ∧
    (∀ i e, i < 32 → (1#32 <<< 31).getLsbD i = true → getCc (cached ⟨31, false, image31 1⟩ sys) 0 i = some e → e.dirty = false) := by
  refine ⟨⟨loose_of_none (by decide), ?_⟩, by unfold Movable; decide, rfl, by decide +kernel, ?_⟩
  · intro w h; cases h; exact .inr (.inr (.inl ⟨1, false, rfl⟩))
  · intro i e hi hm h
    have k : ∀ i : Nat, i < 32 → (1#32 <<< 31).getLsbD i = true → i = 31 := by decide
    have := k i hi hm
    subst this; cases h; rfl

/-- HoldStepResume: a target that is being swapped and one of another core; the strands of a task, by the gang bit; what a gang hold finds. -/
theorem witness_HoldStepResume_gang :
    ((getStrand (third .swapping sys) 0 3).st = .swapping ∧ LooseWait (getStrand (third .blocked sys) 0 3)) ∧
    (taskOf tsk 0 1 = some 5 ∧ (0, 1) ∈ taskStrands tsk 5 ∧ Performs tsk { a := .g 1 } ∧ InRotation tsk) ∧
    (getStrand (third .ready sys) 0 3).st = .ready ∧ (getStrand (third .waiting sys) 0 3).st = .waiting ∧ (getStrand (third .trapped sys) 0 3).st = .trapped ∧
    (getCore (third .ready sys) 0).dbgn = false := by
  refine ⟨⟨by decide, loose_of_none (by decide)⟩, by unfold Performs InRotation Undisturbed; decide, by decide⟩

/-- The descriptor of one row of 64 bytes from 0x1000 to 0x2000, at 0x100 of the store. -/
def copyState (len : Byte) : State :=
  lsWrite (withG [(1, 0x100)] sys) 0 0x100 (toBytes 8 0x1000 ++ toBytes 8 0x2000 ++ [len])

/-- CopyIssue: an area that can be read; its entry passes the checks; one whose source is outside the region; a misaligned descriptor. -/
theorem witness_CopyIssue :
    (Performs (copyState 64) { a := .g 1 } ∧ InRotation (copyState 64)) ∧ checkArea (copyState 64) sys.cur 0x100 16 48 = none ∧
    checkCopy (copyState 64) (readCopy (copyState 64) sys.cur 0x100 0 false true) = none ∧ copiesInFlight (curCore (copyState 64)) < 1024 ∧
    checkCopy (copyState 0) { readCopy (copyState 0) sys.cur 0x100 0 false true with src := 0x60000, len := 1 } = some (0x04, 0x60000) ∧ (0x108 : Word).toNat % 16 ≠ 0 := by
  unfold Performs InRotation Undisturbed; decide

/-- An entry of queue 0. -/
def entry7 : CopyEnt := { readCopy (copyState 64) sys.cur 0x100 0 false true with id := 7 }

/-- Core 0 with copy entries. -/
def copying (es : List CopyEnt) (s : State) : State := modCore s 0 (fun k => { k with copyQ := es, mqNext := 8 })

theorem witness_copy_full : 1024 ≤ copiesInFlight (curCore (copying (List.replicate 1024 entry7) sys)) := by
  unfold copiesInFlight
  rw [show (curCore (copying (List.replicate 1024 entry7) sys)).copyQ = List.replicate 1024 entry7 from rfl, List.length_replicate]
  exact Nat.le_add_right _ _

/-- CopyIssue, `qfence` and `qst`: an entry in flight of a named queue; a queue's status; a join with an entry before it, and one behind such a join. -/
theorem witness_joins :
    (∃ q, q < 6 ∧ (0x3F : Nat).testBit q = true ∧ ∃ i ∈ engineIds (curCore (copying [entry7] sys)) q, i ≤ (curCore (copying [entry7] sys)).mqNext) ∧
    (∃ i ∈ openJoins (curCore (modCore (copying [entry7] sys) 0 (fun k => { k with joins := [⟨7, 1, none⟩] }))), i.mask.testBit 0 = true) ∧
    (bit (3 : Word) 2 = false ∧ bit (4 : Word) 2 = true ∧ (getK ({} : CqStat) (curCore sys).cqStat 3).why < 8 ∧ copiesInFlight (curCore sys) < 65536) ∧
    (let s := modCore (copying [entry7] sys) 0 (fun k => { k with joins := [⟨7, 1, none⟩, ⟨8, 3, some 5⟩] })
     ((getCore s 0).joins = [] ++ (⟨7, 1, none⟩ : Join) :: [⟨8, 3, some 5⟩] ∧ (1 : Nat).testBit entry7.q = true ∧ 7 < 8 ∧
        ∃ q, q < 6 ∧ (1 : Nat).testBit q = true ∧ ∃ i ∈ engineIds (getCore s 0) q, i ≤ 7) ∧
      (getCore s 0).joins = [(⟨7, 1, none⟩ : Join)] ++ ⟨8, 3, some 5⟩ :: [] ∧ (3 : Nat).testBit 1 = true ∧ 8 < 9 ∧
        (∃ q, (1 : Nat).testBit q = true ∧ (3 : Nat).testBit q = true) ∧
        ∃ q, q < 6 ∧ (1 : Nat).testBit q = true ∧ ∃ n ∈ engineIds (getCore s 0) q, n ≤ 7) :=
  ⟨⟨0, by decide, by decide, 7, by decide⟩, ⟨⟨7, 1, none⟩, by decide⟩, by decide, ⟨rfl, by decide, by decide, ⟨0, by decide, by decide, 7, by decide⟩⟩, rfl,
    by decide, by decide, ⟨0, by decide⟩, ⟨0, by decide, by decide, 7, by decide⟩⟩

/-- A page of a peer. -/
def peerLeaf : TLeaf := { base := 0, size := 2 ^ 30, entry := 0xB2 }

/-- CopyHappenings, the start: an entry that may start, between stores, and one whose source is a peer's page. -/
theorem witness_CopyStart :
    ((copyReady (copying [entry7] sys) 0).find? (fun f => f.id == entry7.id) = some entry7 ∧ entry7.gather = false ∧ entry7.dir = 0 ∧ 0 < entry7.rows) ∧
    (let e := { entry7 with dir := 1, src := 0x2000 }
     let s := copying [e] (mapped peerLeaf sys)
     (copyReady s 0).find? (fun f => f.id == e.id) = some e ∧ e.gather = false ∧ e.dir = 1 ∧ bit e.src 63 = false ∧
      ∃ l, walk s e.src.toNat = some l ∧ 2 ≤ entAttr l.entry) := by
  refine ⟨by decide, by decide, by decide, by decide, by decide, ⟨peerLeaf, by decide⟩⟩

/-- An entry alone on core 0 stands first there. -/
theorem heads_one (e : CopyEnt) (s : State) : Heads (copying [e] s) 0 e [] := ⟨by simp [copying], nofun⟩

/-- Entry 7 from the immediate page, under way. -/
def fromPage : CopyEnt := { entry7 with started := true, dir := 1, src := 0x20C0 }

/-- CopyHappenings, the questions of an entry: a page that a buffer holds, one that no buffer does, and a line that the entry's task has not locked. -/
theorem witness_CopyAsks :
    (Heads (copying [fromPage] (mapped immLeaf sys)) 0 fromPage [] ∧ copyUntranslated fromPage (sourceLines (copying [fromPage] (mapped immLeaf sys)) fromPage ++
        destLines fromPage) = some 0x20C0 ∧ buffered (copying [fromPage] (mapped immLeaf sys)) 0 0x20C0 = some (immLeaf, 0) ∧
      walk (copying [fromPage] (mapped immLeaf sys)) 0x20C0 = some immLeaf) ∧
    (Heads (copying [fromPage] sys) 0 fromPage [] ∧ buffered (copying [fromPage] sys) 0 0x20C0 = none ∧
      walkRoom (copying [fromPage] sys) (dieOf 0) 0x20C0 = true) ∧
    (let e := { fromPage with task := some 5, pages := [taskLeafAt] }
     let s := copying [e] (mapped taskLeafAt tsk)
     Heads s 0 e [] ∧ copyUntranslated e (sourceLines s e ++ destLines e) = none ∧ e.task = some 5 ∧ copyUnlocked s e = some (flatObj 0 0x20C0)) := by
  refine ⟨⟨heads_one _ _, by decide⟩, ⟨heads_one _ _, by decide⟩, heads_one _ _, by decide +kernel, by decide, by decide +kernel⟩

/-- CopyHappenings, the runs: entries of each direction that stand first, under way, at the end of their row, one with bytes read ahead. -/
theorem witness_Moving : ∀ e ∈ [{ entry7 with started := true, tail := [1] }, { fromPage with off := 63, pages := [immLeaf] },
      { entry7 with started := true, dir := 2, dst := 0x20C0, pages := [immLeaf] }], Moving (copying [e] (mapped immLeaf sys)) 0 e [] none := by
  intro e h
  refine ⟨⟨rfl, nofun⟩, ?_, ?_, ?_⟩ <;> (revert h; revert e; decide)

/-- CopyHappenings, the end: an entry behind another of its queue, and one that stands first, with each way of its completion word and with a fault that
the strand of its task takes or can no longer take. -/
theorem witness_CopyEnds :
    (let s := copying [{ entry7 with id := 6 }, entry7] sys
     (getCore s 0).copyQ = [{ entry7 with id := 6 }] ++ entry7 :: [] ∧ (∃ f ∈ [{ entry7 with id := 6 }], f.q = entry7.q) ∧
      ∀ f ∈ [{ entry7 with id := 6 }], f.id ≠ entry7.id) ∧
    (∀ m ∈ [0, 1, 2, 3], (getCore (copying [{ entry7 with cmode := m, cptr := 0x5FFF8 }] sys) 0).copyQ = { entry7 with cmode := m, cptr := 0x5FFF8 } :: []) ∧
    (let e := { entry7 with task := some 5, cx := tsk.cur, stopped := some (4, 0x2000) }
     (getCore (copying [e] tsk) 0).copyQ = e :: [] ∧ e.cx.core = 0 ∧ strandGone (copying [e] tsk) 5 e.cx = false ∧
      strandGone (copying [e] (onStrand 1 (fun x => { x with st := .done }) tsk)) 5 e.cx = true ∧
      (getK {} (getCore tsk 0).cqStat e.q : CqStat).count < 4095) := by
  refine ⟨by decide, fun m _ => rfl, by decide⟩

/-- CopyHappenings, the global sides: a block up to the end of its line on a page that the entry has translated; a page that it has not. -/
theorem witness_ImmBlock : ImmBlock sys { fromPage with pages := [immLeaf] } 0x20C0 64 true 0x20C0 ∧
    (fromPage.dir = 1 ∧ bits (0x20C0 : Word) 63 48 = 0 ∧ fromPage.page 0x20C0 = none ∧ fromPage.src = 0x20C0) := by
  have hp : ∀ i : Nat, i < 64 → immLeaf.covers (0x20C0 + i) = true := by
    intro i hi; unfold TLeaf.covers immLeaf; simp; omega
  have ha : ∀ i : Nat, immLeaf.pa (0x20C0 + i) = 0x20C0 + i := fun i => by unfold TLeaf.pa immLeaf; simp [entAddr, bits]
  have hh : ∀ i : Nat, i < 64 → inHbm (0x20C0 + i) = true ∧ inAperture (0x20C0 + i) = false := by
    intro i hi; unfold inHbm inAperture hbmTop apertureBase; simp; omega
  refine ⟨⟨by decide, by decide, fun i hi => ⟨immLeaf, ?_, by decide, ha i, (hh i hi).1, (hh i hi).2, rfl, fun _ => by decide⟩⟩, by decide⟩
  show List.find? _ [immLeaf] = some immLeaf
  exact List.find?_cons_of_pos (hp i hi)
/-- The record pool at 4 MiB, with record 5: one core, one strand, 8 registers, one unit of store, entry 0x2000, and CNT = n. -/
def pool (n : Nat) (s : State) : State :=
  { s with mgmt := { s.mgmt with poolBase := some 0x400000, power := .running }
           mem := s.mem.writeN 0x400508 (toBytes 8 0x100010 ++ toBytes 8 0x2000 ++ toBytes 8 n) }

/-- Record 5 in a state. -/
def rec5 (k : Task) (s : State) : State := { s with tasks := [(5, k)] }

/-- PatchAndArm, outside tasks: a record that is not Idle, an Idle one that cannot run and one that can, with CNT 2 and 1. -/
theorem witness_PatchAndArm :
    (Performs (pool 1 sys) { x3 with imm := 4 } ∧ (pool 1 sys).mgmt.poolBase = some 0x400000 ∧ taskOf (pool 1 sys) 0 0 = none) ∧
    (getTask (pool 1 sys) 5).st ≠ .idle ∧ (getTask (rec5 { st := .idle } (pool 1 sys)) 5).st = .idle ∧ ArmBad (rec5 { st := .idle } sys) 5 ∧
    ¬ ArmBad (rec5 { st := .idle } (pool 1 sys)) 5 ∧ recCnt (pool 1 sys) 5 ≤ 1 ∧ 1 < recCnt (pool 2 sys) 5 := by
  unfold Performs ArmBad; decide

/-- Values that the first and the last item take and refuse, and an item that there is not. -/
theorem witness_PatchValue : PatchValue 0 0xFFFFFFFFFFFF ∧ PatchValue 47 0 ∧ PatchValue 4 65535 ∧ ¬ PatchValue 4 0 ∧ ¬ PatchValue 3 1 ∧ patchFields 18 = [] ∧
    patchFields 31 = [] ∧ patchFields 32 ≠ [] := by
  refine ⟨?_, ?_, ?_, ?_, ?_, by decide, by decide, by decide⟩ <;> unfold PatchValue <;> decide

/-- PatchAndArm, in a task: record 6 Idle, empty logs. -/
def taskArming : State :=
  { tsk with tasks := [(5, { st := .running, seq := 1, members := [0] }), (6, { st := .idle })]
             mem := tsk.mem.writeN 0x400608 (toBytes 8 0x100010 ++ toBytes 8 0x2000) }

theorem witness_PatchAndArm_task : taskOf taskArming 0 1 = some 5 ∧ Performs taskArming x3 ∧ (getLog taskArming 0 5).length < 4096 ∧
    (∀ d ∈ (getTask taskArming 5).members, getLog taskArming d 5 = []) ∧ (getTask taskArming 6).st = .idle ∧ ¬ ArmBad taskArming 6 := by
  unfold Performs ArmBad; decide

/-- TaskInstructions, `waita`: the last aligned word of the region, with a condition that holds and one that does not, by the first and the last modifier. -/
theorem witness_waita :
    (let s := p3At 0x5FFF8 (withG [(1, 1)] sys)
     let p := ptrVal s s.cur (.mem 3 .size)
     Performs s { a := .g 1, b := .mem 3 .size } ∧ checkAccess s s.cur p 8 = none ∧ checkAlign p 8 = none ∧ watchWalk s s.cur true false p 8 = none ∧ InRotation s) ∧
    (waitConditions[0]?.map (fun f => (f 2 1, f 0 1)) = some (true, false)) ∧ waitConditions[4]?.map (fun f => (f 1 1, f 2 1)) = some (true, false) := by
  unfold Performs InRotation Undisturbed; decide

/-- TaskInstructions, `tq`: an empty core queue, one that automatic dispatch has, one whose head does not run yet, one whose head runs. -/
theorem witness_tq :
    (sys.cur.strand = 0 ∧ Performs sys { a := .g 1 } ∧ InRotation sys) ∧ (curCore sys).coreQ = [] ∧
    (curCore (modCore sys 0 (fun k => { k with shared := [(32, [⟨1, 0, 0⟩])] }))).auto = true ∧
    (let s := modCore (pool 1 sys) 0 (fun k => { k with coreQ := [5] })
     (curCore s).coreQ = 5 :: [] ∧ (getTask s 5).st ≠ .running) ∧
    (let s := modCore (rec5 { st := .running, members := [0], seq := 1 } (pool 1 sys)) 0 (fun k => { k with coreQ := [5] })
     (curCore s).coreQ = 5 :: [] ∧ (getTask s 5).st = .running ∧ (curCore s).auto = false ∧ InRotation s ∧ (getTask s 5).members.length ≤ 16) := by
  unfold Performs InRotation Undisturbed; decide

/-- TaskInstructions, `tdone` and `tfail`: no held fault and no task; a held fault; a strand without a task named by strand 0. -/
theorem witness_tdone :
    (usr.cur.strand ≠ 0 ∧ Performs usr { a := .g 1 } ∧ (curStrand usr).held = [] ∧ taskOf usr 0 1 = none) ∧
    (curStrand (onStrand 1 (fun x => { x with held := [⟨0x05, 0, 0x22, true⟩] }) usr)).held = ⟨0x05, 0, 0x22, true⟩ :: [] ∧
    taskOf sys 0 (bits (0xF00 : Word) 11 8) = none ∧ sys.cur.strand = 0 := by
  unfold Performs; decide

/-- Core 0 with ready-queue entries. -/
def readying (es : List (Nat × Word)) (s : State) : State := modCore s 0 (fun k => { k with readyQ := es })

/-- TaskInstructions, the ready queues: places 15 and 16 of a level; a word at the last level; none. -/
theorem witness_readyQ :
    (taskOf sys 0 0 = none ∧ InRotation sys ∧ Performs sys { a := .g 1, mod := 3 }) ∧
    (levelOf (curCore (readying (List.replicate 15 (3, 1)) sys)) 3).length < 16 ∧ 16 ≤ (levelOf (curCore (readying (List.replicate 16 (3, 1)) sys)) 3).length ∧
    ((∀ i, i < 3 → levelOf (curCore (readying [(3, 9)] sys)) i = []) ∧ levelOf (curCore (readying [(3, 9)] sys)) 3 = 9 :: []) ∧
    ∀ i, i < 4 → levelOf (curCore sys) i = [] := by
  unfold Performs InRotation Undisturbed; decide

theorem witness_NoReadyWaiter (es : List (Nat × Word)) : NoReadyWaiter (readying es sys) 0 := by
  intro u w h
  rw [show getStrand (readying es sys) 0 u = Strand.init u from rfl] at h
  unfold Strand.init at h; split at h <;> cases h

/-- TaskEnds: the task of record 5 runs alone on core 0, its strand done; it may fault with RETRY 0 and with RETRY 7. -/
def ending (st : StrandState) (retry : Nat) : State :=
  { tsk with mem := tsk.mem.writeN 0x400500 (toBytes 8 (retry * 2 ^ 48) ++ toBytes 8 0x100010 ++ toBytes 8 0x2000)
             cores := (onStrand 1 (fun x => { x with st := st }) tsk).cores }

theorem witness_TaskEnds :
    (getTask (ending .done 0) 5).st = .running ∧ allDone (ending .done 0) 5 [] = true ∧ taskCopies (ending .done 0) 5 = false ∧
    mayFault (getTask (ending .ready 0) 5).st ∧ recReport (ending .ready 0) 5 = 0 ∧ recRetry (ending .ready 0) 5 = 0 ∧ 0 < recRetry (ending .ready 7) 5 ∧
    (taskStrands (ending .ready 7) 5 ≠ []) ∧ (ending .ready 7).mgmt.poolBase = some 0x400000 := by
  unfold mayFault; decide

theorem witness_Alone (st : StrandState) (n : Nat) : Alone (ending st n) 5 0 where
  members := rfl
  queue := ⟨rfl, rfl, rfl⟩
  locks := ⟨rfl, rfl⟩
  units := fun _ => nofun

/-- TaskInstructions, `tdone` and `tfail` in a task: the last strand with copy entries left and without, one of several; the strand of a task that strand 0
names, and the strand itself, the task alone on its core. -/
theorem witness_task_strands :
    (Performs tsk {} ∧ tsk.cur.strand ≠ 0 ∧ (curStrand tsk).held = [] ∧ taskOf tsk 0 1 = some 5) ∧
    (allDone tsk 5 [(0, 1)] = true ∧ taskCopies tsk 5 = false ∧ taskCopies (copying [{ entry7 with task := some 5 }] tsk) 5 = true) ∧
    allDone { tsk with tasks := [(5, { st := .running, seq := 1, members := [0], left := [(0, 1)] })] } 5 [(0, 1)] = false ∧
    (let s := { withG [(1, 0x100)] (ending .ready 0) with cur := sys.cur }
     s.cur.strand = 0 ∧ InRotation s ∧ Performs s { a := .g 1 } ∧ bits (src s (.g 1)) 11 8 = 1 ∧ taskOf s 0 1 = some 5 ∧ (getStrand s 0 1).st ≠ .free ∧
      s.mgmt.poolBase = some 0x400000 ∧ recReport s 5 = 0) ∧
    (taskOf (ending .ready 7) 0 1 = some 5 ∧ Performs (ending .ready 7) {} ∧ recReport (ending .ready 7) 5 = 0) := by
  unfold Performs InRotation Undisturbed; decide

theorem witness_Alone_strand0 : Alone { withG [(1, 0x100)] (ending .ready 0) with cur := sys.cur } 5 0 :=
  ⟨rfl, ⟨rfl, rfl, rfl⟩, ⟨rfl, rfl⟩, fun _ => nofun⟩

/-- TaskMovement: an entry at a die with room at the loom, a loom that is closed, one with an entry that fits, a fetch with nothing to load, and a task
that automatic dispatch takes. -/
def closedLoom : State := { sys with cores := (List.range 16).map (fun i => (i, { barred := true })) }

theorem witness_TaskMovement :
    (let s : State := { rec5 { st := .queued } (pool 1 sys) with dies := [(0, { queue := [{ rec_ := 5 }] })] }
     (getDie s 0).queue = [{ rec_ := 5 }] ∧ (getTask s 5).avoid = none ∧ (getLoom s 0).queue.length ≤ 248 ∧ loomOpen s 0 = true) ∧
    loomOpen closedLoom 0 = false ∧
    (let s := rec5 { st := .locking, members := [0], fetch := [0] } (pool 1 sys)
     s.mgmt.poolBase = some 0x400000 ∧ (getTask s 5).st = .locking ∧ (getTask s 5).fetch.contains 0 = true ∧ recLlen s 5 = 0 ∧ recExtents s 5 = [] ∧
      (∀ e ∈ (getTask s 5).fetch, e = 0)) ∧
    (let s := modCore (rec5 { st := .running, members := [0], seq := 1, left := [(0, 1)] } (pool 1 sys)) 0
        (fun k => { k with coreQ := [5], shared := [(32, [⟨1, 0, 0⟩])] })
     autoStart s 0 = some (5, 1, 128, 0)) := by decide

/-- Record 5 at the head of loom 0. -/
def atLoom : State := modLoom (rec5 { st := .queued } (pool 1 sys)) 0 (fun l => { l with queue := [{ rec_ := 5 }] })

theorem witness_loomChoose : (getLoom atLoom 0).queue = { rec_ := 5 } :: [] ∧ (∀ f ∈ (getLoom atLoom 0).queue, f.passed < 256) ∧
    (gangFor atLoom 0 5).isSome = true := by decide +kernel

/-- A committing task of record 5 with a log. -/
def committing (init : Nat) (l : List LogRec) : State :=
  modCore { tsk with tasks := [(5, { st := .committing, seq := 1, members := [0], commitIx := some 0 })]
                     mem := tsk.mem.writeN 0x400508 (toBytes 8 0x100010 ++ toBytes 8 0x2000 ++ toBytes 8 (init * 65536)) } 0
    (fun k => { k with logs := [(5, l)] })

/-- Commit: a Retired task that is the oldest; the next to be released, with INIT 0 and 65,535; places beside the record pool. -/
theorem witness_Commit :
    (let s := rec5 { st := .retired, stamp := 4 } (pool 1 sys)
     (getTask s 5).st = .retired ∧ (∀ e ∈ s.tasks, e.2.st ∈ [TaskState.queued, .locking, .running, .retired, .committing, .aborted, .faulted] →
        (getTask s 5).stamp ≤ e.2.stamp) ∧ ∀ e ∈ s.cores, ∀ p ∈ e.2.posted, p.task ≠ some 5) ∧
    recInit (committing 0 []) 5 = 0 ∧ 0 < recInit (committing 65535 []) 5 ∧ getLog (committing 65535 []) 0 5 = [] ∧
    OffPool 0x400000 0x3FFFF8 8 ∧ OffPool 0x400000 0x500000 8 ∧
    (let s := { committing 0 [.store (.lin 1 0x1F8) [1, 2, 3, 4, 5, 6, 7, 8]] with nodes := [(1, { valid := true, ntiles := 1, depth := 15 })] }
     0x1F8 % 256 + 8 ≤ 256 ∧ (getNode s 1).depth < 16) := by
  unfold OffPool; decide

theorem witness_commitLine : (resolveLine { committing 0 [] with nodes := [(1, { valid := true, ntiles := 1, depth := 15 })] } 1 1).length = 256 := by decide +kernel

theorem witness_NextRelease (n : Nat) (l : List LogRec) (h : recNsucc (committing n l) 5 = 0) : NextRelease (committing n l) 5 0 0x400000 where
  pool := rfl
  record := by decide
  state := rfl
  members := rfl
  first := fun _ h k => absurd (by cases h with | head => rfl | tail _ h => cases h) k
  quiet := ⟨rfl, rfl, rfl, rfl⟩
  nosucc := h

theorem witness_recNsucc : recNsucc (committing 0 []) 5 = 0 ∧ recNsucc (committing 65535 []) 5 = 0 := by decide

/-- Nodes 1 (a root), 2 (a root with the same tiles) and 3 (a child of 1) of a state with room for deltas. -/
def nodes3 (s : State) : State :=
  { s with nodes := [(1, { valid := true, ntiles := 1, children := 1, frozen := true }), (2, { valid := true, ntiles := 1 }),
                     (3, { valid := true, ntiles := 1, depth := 1, parent := 1 })]
           mgmt := { s.mgmt with linUnits := 16 } }

/-- NodeOperations, the instructions: nodes that are live and that are not, node 0, the greatest depth. -/
theorem witness_NodeOperations :
    (Performs (nodes3 sys) x3 ∧ cxTask (nodes3 sys) sys.cur = none ∧ InRotation (nodes3 sys)) ∧
    (LiveNode (nodes3 sys) 1 ∧ LiveNode (nodes3 sys) 0 ∧ ¬ LiveNode (nodes3 sys) 8388607) ∧
    (getNode (nodes3 sys) 1).ntiles = (getNode (nodes3 sys) 2).ntiles ∧ (getNode (nodes3 sys) 1).children ≠ 0 ∧ (getNode (nodes3 sys) 2).children = 0 ∧
    (getNode (nodes3 sys) 2).depth < 15 ∧ (getNode (nodes3 sys) 3).parent ≠ 0 ∧ (getNode (nodes3 sys) 2).parent = 0 ∧
    15 ≤ (getNode { sys with nodes := [(1, { valid := true, depth := 15 })] } 1).depth ∧ (usedIds (nodes3 sys)).length < 8388607 ∧
    bits (0x0000000200000001 : Word) 57 32 = 2 := by
  unfold Performs LiveNode InRotation Undisturbed; decide

theorem witness_storageFits : storageFits (nodes3 sys) none 2 1 = true ∧ storageFits (nodes3 sys) none 3 0 = true := by decide

/-- NodeOperations, the grants: nothing locked; `drop` with a child and without; `flat` of a child; `rebase` of a root under another. -/
theorem witness_nodeGrants :
    (NoLocks (nodes3 (waitsFor .lock sys)) ∧ stillWaits (nodes3 (waitsFor .lock sys)) sys.cur = true) ∧
    Rising (usedIds (nodes3 sys)) 8388608 ∧ 0 < (getNode (nodes3 sys) 1).children ∧ (getNode (nodes3 sys) 3).children = 0 ∧
    ((getNode (nodes3 sys) 3).parent ≠ 3 ∧ (getNode (nodes3 sys) 1).ghost = false) ∧ 2 ∉ chainOf (nodes3 sys) chainFuel 3 ∧ (chainOf (nodes3 sys) chainFuel 3).length ≤ 16 ∧
    Awaits (nodes3 waiting) waiting.cur := by
  unfold NoLocks Rising Awaits Undisturbed; decide

/-- With no node every line is 256 bytes. -/
theorem wholeLines_noNodes (s : State) (hs : s.nodes = []) : WholeLines s := by
  intro n line
  have h : resolveLine s n line = zeroLine := by
    show resolveIn (getNode s) line (65552 + 1) n = zeroLine
    unfold resolveIn
    dsimp only
    rw [show getNode s n = Node.initial n from by unfold getNode; rw [hs]; rfl]
    unfold Node.initial
    split <;> rfl
  rw [h]
  decide +kernel

theorem witness_WholeLines : WholeLines sys := wholeLines_noNodes sys rfl

/-- LineageQueue, the instructions: a pointer outside and inside the rules, a flat address, a line of a tile of a live node. -/
theorem witness_LineageQueue :
    (let s := p3At 0x100 (withG [(2, 0x8000010000000000)] (nodes3 sys))
     Performs s { a := .mem 3 .none, b := .g 2 } ∧ checkPtr s s.cur (ptrVal s s.cur (.mem 3 .none)) = none ∧ ptrWin (ptrVal s s.cur (.mem 3 .none)) = 0 ∧
      bit (src s (.g 2)) 63 = true ∧ bits (src s (.g 2)) 39 0 % 16384 = 0 ∧ checkLineage s (cxTask s s.cur) (src s (.g 2)) false = none) ∧
    (let s := p3At 0xA00000100 (nodes3 sys)
     checkPtr s s.cur (ptrVal s s.cur (.mem 3 .none)) = none ∧ ptrWin (ptrVal s s.cur (.mem 3 .none)) = 5 ∧ bit (src s (.g 2)) 63 = false) := by
  unfold Performs; decide

/-- An entry of the lineage queue. -/
def lin0 (diff started : Bool) (p : Word) : LinEnt := { id := 0, cx := sys.cur, diff := diff, p := p, ga := 0x8000020000000000, inc := .none, incReg := 0, ptr := 3, started := started }
def lining (e : LinEnt) (s : State) : State := modCore s 0 (fun k => { k with linQ := [e] })

/-- LineageQueue, the happenings: an entry that can start; started entries whose places pass, and a dirty line. -/
theorem witness_lineage :
    (let s := lining (lin0 false false 0x100) waiting
     (getCore s 0).linQ = lin0 false false 0x100 :: [] ∧ cxTask s sys.cur = none ∧ joinOk (getCore s 0) 5 0 = true) ∧
    (let s := lining (lin0 true true 0xA00000100) (nodes3 waiting)
     Awaits s sys.cur ∧ (getCore s 0).joins = [] ∧ (getNode s 2).delta = [] ∧ (getNode s 2).dirty = [] ∧ checkAccess s sys.cur 0xA00000100 8 = none ∧
      checkAlign (0xA00000100 : Word) 8 = none) ∧ checkAlign (0x100 : Word) 16 = none := by
  unfold Awaits Undisturbed; decide

/-- Inside a span of 2^14 bytes a pointer at its start only moves its position. -/
theorem advance_span (i : Nat) (h : i < 16384) : advance 0xC0000000 i = BitVec.ofNat 64 (0xC0000000 + i) := by
  unfold advance
  rw [show ptrGlb 0xC0000000 = false from by decide, show ptrSpan 0xC0000000 = 6 from by decide]
  simp only [wrapTo]
  rw [show bits (0xC0000000 : Word) (min (6 + 8) 19 - 1) 0 = 0 from by decide, show bits (0xC0000000 : Word) 26 19 = 0 from by decide]
  have h1 : ((0 : Nat) : Int) + (i : Int) = i := by omega
  rw [h1]
  have h2 : ((i : Int) / ((2 ^ min (6 + 8) 19 : Nat) : Int)) = 0 := by
    have : (2 ^ min (6 + 8) 19 : Nat) = 16384 := by decide
    rw [this]; omega
  rw [h2]
  have h3 : ((i : Int) % ((2 ^ min (6 + 8) 19 : Nat) : Int)).toNat = i := by
    rw [show (2 ^ min (6 + 8) 19 : Nat) = 16384 from by decide]; omega
  rw [h3]
  apply BitVec.eq_of_toNat_eq
  simp [setBits, bits]
  omega

/-- The whole of a tile with span code 6, whose position is the low 14 bits, in the region of strand 0. -/
theorem witness_tile : checkAccess waiting sys.cur 0xC0000000 16384 = none := by
  unfold checkAccess
  rw [show checkPtr waiting sys.cur 0xC0000000 = none from by decide]
  refine Laws.checkWalk_none _ _ _ _ _ (fun j _ hj => ?_)
  rw [advance_span j (by omega)]
  have h1 : ptrCore (BitVec.ofNat 64 (0xC0000000 + j)) = 0 := by simp [ptrCore, bits]; omega
  have h2 : ptrOff (BitVec.ofNat 64 (0xC0000000 + j)) = j := by simp [ptrOff, bits]; omega
  unfold checkByte
  rw [h1, h2]
  dsimp only
  rw [show (gangOf waiting sys.cur.core sys.cur.strand).contains 0 = true from by decide,
    show regionOn waiting sys.cur 0 = 0x6000000 from by decide, show (getCore waiting 0).splitNow = 0 from by decide]
  have h3 : inRegion 0x6000000 0 j = true := by
    unfold inRegion
    rw [show bits (0x6000000 : Word) 10 0 = 0 from by decide, show min (bits (0x6000000 : Word) 26 16) 1536 * 256 = 393216 from by decide,
      show storeTop 0 = 393216 from by decide]
    simp; omega
  rw [h3]; rfl

theorem witness_writeback :
    let s := { sys with nodes := [(1, { valid := true, ntiles := 1, dirty := [(0, List.replicate 256 1)] })] }
    (∃ new, (getNode s 1).dirty.find? (fun y => y.1 == 0) = some (0, new) ∧ new.length = 256) ∧ (getNode s 1).parent ≠ 1 ∧
      1 ∉ chainOf s chainFuel (getNode s 1).parent ∧ (chainOf s chainFuel (getNode s 1).parent).length ≤ 16 :=
  ⟨⟨_, rfl, List.length_replicate ..⟩, by decide, by decide, by decide⟩

/-- Windows: a handle of sequence 3 of generation 1, and no handle where every sequence is Free. -/
theorem witness_Handle : Handle (seqOpen open3 sys) 0x1003 3 ∧ ∀ q, ¬ Handle sys 0x1003 q :=
  ⟨by unfold Handle; decide, fun q h => by
    have k : (getSeq sys q).st = .open_ := h.2.2.1
    exact nomatch (show SeqState.free = .open_ from k)⟩

/-- Windows, `kvo`: the four operations; a good image, and an area that cannot be read. -/
theorem witness_kvo :
    (Performs (seqOpen open3 sys) x3 ∧ cxTask (seqOpen open3 sys) sys.cur = none ∧ InRotation (seqOpen open3 sys)) ∧
    checkArea sys sys.cur (wd 0x40) 64 64 = none ∧ checkArea sys sys.cur (wd 0x44) 64 64 ≠ none ∧ imageGood (imageAt sys 0 0x40) = true ∧ (seqsUsed sys).length < 4096 ∧
    Rising (seqsUsed (seqOpen open3 sys)) 4096 ∧ bits (0x4000000000001003 : Word) 63 62 = 1 ∧ wd (bits (0x4000000000001003 : Word) 27 0) = 0x1003 ∧
    bits (0x8000000000000000 : Word) 63 62 = 2 ∧ bits (0xC000004000001003 : Word) 63 62 = 3 ∧ bits (0xC000004000001003 : Word) 50 32 = 0x40 ∧
    ((getSeq (seqOpen open3 sys) 3).recs = [] ∧ (getSeq (seqOpen open3 sys) 3).pages = []) ∧
    (getSeq (seqOpen { open3 with pages := [(0, 1)] } sys) 3).pages ≠ [] := by
  unfold Performs Rising InRotation Undisturbed; decide

/-- Windows, the others: positions 0, 15 and 16 of `pgal` and `kvc`; a page that is out and one that is not; a window line with its place. -/
theorem witness_windows :
    ((getSeq (seqOpen open3 sys) 3).npg ≤ (getSeq (seqOpen open3 sys) 3).pageIndex 15 ∧ (seqOpen open3 sys).pagesOut.length < (seqOpen open3 sys).mgmt.npages) ∧
    ((getSeq (seqOpen open3 sys) 3).cnt + 16 < 2 ^ 32) ∧
    (let s := { seqOpen open3 sys with pagesOut := [7] }
     7 < s.mgmt.npages ∧ 7 ∈ s.pagesOut ∧ tentative s 7 = false ∧ (∀ y ∈ s.pagesResv, y.1 ≠ 7) ∧ 6 ∉ s.pagesOut ∧ InRotation s) ∧
    (let s := p3At 0x100 (withG [(1, 0x1003)] (seqOpen { open3 with img := [0x1000000000, 0, 0, 0, 0, 0, 0, 0], pages := [(0, 7)] } sys))
     (kvwPlace s s.cur 0x1003 15 0 true).toOption = some 0 ∧ checkAccess s s.cur (ptrVal s s.cur (.mem 3 .none)) 256 = none ∧
      checkAlign (ptrVal s s.cur (.mem 3 .none)) 16 = none ∧ bits (1024 : Word) 3 0 = 0 ∧ bit (1024 : Word) 10 = true) := by
  unfold InRotation Undisturbed; decide

/-- Windows, the grants: a Free and an Open sequence; a window with nothing and one with a page; a place for a line. -/
theorem witness_WindowGrants :
    (let s := seqOpen open3 (waitsFor .lock sys)
     NoLocks s ∧ stillWaits s sys.cur = true ∧ cxTask s sys.cur = none ∧ (getSeq s 4095).st = .free ∧ (getSeq s 3).st = .open_ ∧ (getSeq s 3).gen < 65536 ∧
      (getSeq s 3).recs = [] ∧ (getSeq s 3).pages = [] ∧ (getSeq s 3).cnt + 16 < 2 ^ 32 ∧ (getSeq s 3).posn + 16 < 2 ^ 32 ∧ (getSeq s 3).img.length = 8 ∧
      (getSeq s 3).npg ≤ (getSeq s 3).pageIndex 15 ∧ Rising s.pagesOut s.mgmt.npages ∧ s.pagesOut.length < s.mgmt.npages) ∧
    (kvwPlace (seqOpen { open3 with img := [0x1000000000, 0, 0, 0, 0, 0, 0, 0], pages := [(0, 7)] } (waitsFor .lock sys)) sys.cur (handleOf 3 1) 15 0 true).toOption =
      some 0 := by
  unfold NoLocks Rising; decide

/-- LockManager, the instructions: level 3 and a flat address outside tasks; an address above the 48 bits; a task's line and tile, with modes that a line
admits and does not, covered and not, held and not. -/
theorem witness_LockManager :
    (Performs (at2 0x2000 sys) { x3 with mod := 6 } ∧ InRotation (at2 0x2000 sys) ∧ cxTask (at2 0x2000 sys) sys.cur = none) ∧
    (bit (0xFFFFFFFFFFFF : Word) 63 = false ∧ bits (0xFFFFFFFFFFFF : Word) 62 48 = 0 ∧ bits (0x1000000000000 : Word) 62 48 ≠ 0) ∧
    (cxTask (locked .x) tsk.cur = some 5 ∧ Performs (locked .x) { x3 with mod := 6 } ∧ InRotation (locked .x)) ∧ modeOf 0 ∈ [Mode.is, .ix, .in_] ∧
    ¬((0 : Nat) = 0 ∧ modeOf 6 ∈ [Mode.is, .ix, .in_]) ∧ modeCovered (locked .x) 5 (lockObject 0 0x2000) .x = true ∧
    modeCovered (locked .s) 5 (lockObject 0 0x2000) .x = false ∧ heldMode (locked .x) 5 (lockObject 1 0x2000) = none ∧
    (let s := { locked .x with locks := { entries := [{ obj := lockObject 1 0x2000, holders := [{ task := some 5, mode := .x, lcnt := 1, id := 0 }] }] } }
     heldMode s 5 (lockObject 1 0x2000) ≠ none) := by
  unfold Performs InRotation Undisturbed; decide

/-- LockManager, `lmld`: an area; the symmetric rows of Table 18.4, rows that are not symmetric, and the bounds of LIMIT. -/
theorem witness_lmld : (sys.cur.strand = 0 ∧ checkArea sys sys.cur 0x100 16 16 = none) ∧
    matrixBad [0x1F, 0x07, 0x27, 0x09, 0x01, 0x24, 0x00] = false ∧ matrixBad [0x02, 0x00, 0, 0, 0, 0, 0] = true ∧ (4095 : Nat) < 4096 ∧ (4096 : Nat) ≤ 4096 := by decide

/-- Tasks 5 and 6, 5 the older, and a lock that task `r` holds alone on node 1. -/
def twoTasks (r : Nat) (m : Mode) : State :=
  { sys with tasks := [(5, { st := .running, seq := 1, stamp := 1 }), (6, { st := .running, seq := 2, stamp := 2 })]
             locks := { entries := [{ obj := ⟨3, 1⟩, holders := [{ task := some r, mode := m, lcnt := 1, id := 0 }] }] } }

/-- LockManager, the requests: nothing locked; a conflict with an older and with a younger holder; a matrix with LIMIT 0. -/
theorem witness_requests : NoLocks sys ∧ HeldAlone (twoTasks 5 .x) ⟨3, 1⟩ 5 .x ∧ (twoTasks 5 .x).locks.noRoom = [] ∧ compatible (twoTasks 5 .x) .is .x = false ∧
    olderTask (twoTasks 5 .x) 6 5 = false ∧ HeldAlone (twoTasks 6 .x) ⟨3, 1⟩ 6 .x ∧ olderTask (twoTasks 6 .x) 5 6 = true ∧ (getTask (twoTasks 6 .x) 6).st = .running ∧
    (getTask (twoTasks 6 .x) 6).members = [] ∧ Awaits { waiting with locks := { limit := 0 } } sys.cur ∧ ({ waiting with locks := { limit := 0 } } : State).locks.limit = 0 :=
  ⟨⟨rfl, rfl⟩, ⟨1, 0, rfl⟩, rfl, by decide, by decide, ⟨1, 0, rfl⟩, by decide, by decide, by decide, by unfold Awaits Undisturbed; decide, rfl⟩

theorem witness_modes : sys.locks.matrix = none ∧ modes[0]? = some Mode.is ∧ modes[6]? = some Mode.x := by decide

/-- A fabric request of `n` bytes. -/
def freq (a n : Nat) : FabReq := { node := 3, port := 0, tag := 9, addr := a, n := n, data := List.replicate n 1, peer := true }

/-- FabricAndLaunch, the requests: a whole block at the end of the HBM, sizes that are refused, a request into the record pool, one on a task page. -/
theorem witness_fabric :
    InBlock (pool 1 sys) (freq 0x5FFFFFFF00 256) ∧ OthersMayWrite (pool 1 sys) (freq 0x3FFF00 256) ∧ (freq 0x2000 0).n = 0 ∧ 256 < (freq 0x20FF 2).addr % 256 + (freq 0x20FF 2).n ∧
    (∃ b, (pool 1 sys).mgmt.poolBase = some b ∧ b ≤ (freq 0x4FFF00 256).addr ∧ (freq 0x4FFF00 256).addr < b + 0x100000) ∧ InBlock (pool 1 sys) (freq 0x4FFF00 256) ∧
    InBlock (pool 1 sys) (freq 0x2008 8) ∧ OthersMayWrite (pool 1 sys) (freq 0x2008 8) ∧ (freq 0x2008 8).addr % 8 = 0 ∧ (freq 0x2008 8).peer = true := by
  have h : LivePort (pool 1 sys) 0 := ⟨by decide, 0, 1, by decide⟩
  have w : AtWork (pool 1 sys).mgmt.power := by unfold AtWork; decide
  refine ⟨⟨w, h, by decide, by decide, by decide⟩, ⟨?_, by decide +kernel⟩, by decide, by decide, ⟨0x400000, by decide, by decide, by decide⟩,
    ⟨w, h, by decide, by decide, by decide⟩, ⟨w, h, by decide, by decide, by decide⟩, ⟨?_, by decide +kernel⟩, by decide, by decide⟩ <;>
  · intro b h
    cases h
    decide

/-- FabricAndLaunch, the launches: a device that does not run; a dead port and a live one; codes; an earlier write of the node; records in each state. -/
theorem witness_launch :
    (sys.mgmt.power ≠ .running) ∧ (pool 1 sys).mgmt.power = .running ∧
    (let s := { pool 1 sys with mgmt := { (pool 1 sys).mgmt with lanesOff := [(0, 0), (0, 2), (0, 3)] } }
     ¬ LivePort s 0 ∧ LivePort s 17 ∧ ¬ LivePort s 18) ∧ (16384 : BitVec 128).toNat % 2 ^ 64 / 2 ^ 14 ≠ 0 ∧ (5 : BitVec 128).toNat % 2 ^ 64 / 2 ^ 14 = 0 ∧
    (let s := { pool 1 sys with env := [{ due := 0, ev := .fabricWrite (freq 0x2000 8) }], envAt := 1 }
     (∃ e ∈ s.env.take s.envAt, writesBy 3 e.ev = true) ∧ ∀ e ∈ s.env.take s.envAt, writesBy 4 e.ev = false) ∧
    ((getTask (pool 1 sys) 5).st ≠ .idle ∧ (getTask (rec5 { st := .idle } (pool 1 sys)) 5).st = .idle ∧ recCnt (rec5 { st := .idle } (pool 1 sys)) 5 ≤ 1 ∧
      1 < recCnt (rec5 { st := .idle } (pool 2 sys)) 5) ∧
    (let s := { pool 1 sys with mgmt := { (pool 1 sys).mgmt with held := [⟨0, 0, 0, 3, 5, []⟩] } }
     s.mgmt.held.find? (fun y => y.id == 0) = some ⟨0, 0, 0, 3, 5, []⟩ ∧ s.mgmt.poolBase = some 0x400000) ∧
    ArmBad (rec5 { st := .idle } sys) 5 ∧ ¬ ArmBad (rec5 { st := .idle } (pool 1 sys)) 5 := by
  refine ⟨by decide, by decide, ⟨fun h => ?_, ⟨by decide, 2, 3, by decide⟩, fun h => absurd h.1 (by decide)⟩, by decide, by decide, ⟨⟨_, List.mem_singleton.mpr rfl, by decide⟩, by decide⟩, by decide, by decide, ?_⟩
  · obtain ⟨-, l, k, hlk, hk, hl, hk'⟩ := h
    have m : ∀ k l : Fin 4, l < k → (0, l.val) ∈ [(0, 0), (0, 2), (0, 3)] ∨ (0, k.val) ∈ [(0, 0), (0, 2), (0, 3)] := by decide
    exact (m ⟨k, hk⟩ ⟨l, by omega⟩ hlk).elim hl hk'
  unfold ArmBad; decide

/-- DebugPort: under the lock and without; strands in each state that a clause names. -/
theorem witness_DebugPort : ({ sys with mgmt := { debugLock := true } } : State).mgmt.debugLock = true ∧ sys.mgmt.debugLock = false ∧
    ((getNode (nodes3 sys) 3).valid = true ∧ (getNode (nodes3 sys) 3).parent < 2 ^ 23) ∧ (getStrand sys 0 3).st = .free ∧ (getCore sys 0).dbgn = false ∧
    (∀ st ∈ [StrandState.ready, .waiting, .held, .trapped, .halted, .done], (getStrand (third st sys) 0 3).st = st) ∧
    (0 < (getStrand (third .held sys) 0 3).size ∧ (getStrand (third .held sys) 0 3).size ≤ 127) ∧
    ¬ OutOfReset sys.mgmt.power ∧ OutOfReset (pool 1 sys).mgmt.power ∧ (pool 1 sys).mgmt.debugLock = false := by unfold OutOfReset; decide

/-- The management controller during bring-up, with the items before `code` and with all. -/
def booting (below : Nat) : Mgmt := { power := .verified, linUnits := 1048576, winRoom := 2048, items := bringUpItems.filter (fun i => decide (i < below)) }

/-- Areas that leave half the HBM free fit, whatever a log record takes. -/
theorem areasFit_small (g : Mgmt) (h : 16400 * g.linUnits + 256 * g.winRoom ≤ 2 ^ 37) : areasFit g = true := by
  have : Config.freeSize % 281 < 281 := Nat.mod_lt _ (by decide)
  unfold areasFit overflowBytes hbmTop Config.logRecordBytes
  simp only [decide_eq_true_eq]
  omega

/-- Management, bring-up: each power state; each item at its step, at an end of its range; an item before its step; the end, with every item set and without. -/
theorem witness_BringUp :
    (sys.mgmt.power = .reset ∧ ¬ AtWork sys.mgmt.power) ∧ ((booting 0).power = .verified ∧ areasFit (booting 0) = true) ∧
    (stepReached (booting 20) 20 = true ∧ stepReached (booting 20) 21 = true ∧ stepReached (booting 20) 22 = true ∧ stepReached (booting 40) 40 = true ∧
      stepReached (booting 40) 41 = true ∧ stepReached (booting 40) 42 = true ∧ stepReached (booting 50) 54 = true) ∧
    (2 ^ 24 ≤ 16400 * 1024 ∧ areasFit { booting 20 with linUnits := 1024 } = true ∧ areasFit { booting 20 with winRoom := 1048576 } = true) ∧
    (0x5FFFFFFFFF < 0x6000000000 ∧ 0x5FFFF00000 + 0x100000 ≤ 0x6000000000 ∧ 0xFFFFFFFFC000 % 16384 = 0 ∧ 0xFFFFFFFFC000 < 2 ^ 48) ∧
    stepReached (booting 0) (itemCode (.text 0 [])) = false ∧ settingEarly (.poolBase 0) = true ∧
    (∀ i ∈ [10, 20, 21, 22, 40, 41, 42, 50, 51, 52, 53, 54], i ∈ (booting 99).items) ∧ 54 ∉ (booting 50).items := by
  refine ⟨⟨by decide, by unfold AtWork; decide⟩, ⟨by decide, areasFit_small _ (by decide)⟩, by decide,
    ⟨by decide, areasFit_small _ (by decide), areasFit_small _ (by decide)⟩, by decide⟩

/-- Management: an image for a Free record and not for a Queued one; counters, lines of the log, and a governor. -/
theorem witness_Management :
    ((pool 1 sys).mgmt.poolBase = some 0x400000 ∧ (List.replicate 32 (0 : Word)).length = 32) ∧ (getTask (pool 1 sys) 4095).st ∈ [TaskState.free, .idle, .failed] ∧
    (getTask (rec5 { st := .queued } (pool 1 sys)) 5).st ∉ [TaskState.free, .idle, .failed] ∧
    ((sys.mgmt.log[0]? = none) ∧ ({ sys with mgmt := { log := [.failed 5 1] } } : State).mgmt.log[0]? = some (.failed 5 1)) ∧ (getDie sys 3).waiting = [] ∧
    ((pool 1 sys).mgmt.keysErased = false ∧ OutOfReset (pool 1 sys).mgmt.power ∧ OutOfReset (.alarm true) ∧ ¬ OutOfReset (.alarm false)) := by
  unfold OutOfReset; decide

/-- A port of two lanes by which one posted store has left. -/
def leaving : State :=
  let s := modCore sys 0 (fun k => { k with posted := [{ id := 4, g := { acc .st 8 0x2000 with id := 4 }, loc := .remote false 3 0x2000, port := 2 }] })
  { s with mgmt := { s.mgmt with lanesOff := [(2, 0), (2, 1), (2, 2)] } }

/-- ErrorsDetected: an element under test and one that is not; a core with one spare bank and with two used; a port that is dead, with a posted store. -/
theorem witness_ErrorsDetected :
    (Element.lane 2 0 ∈ ({ sys with mgmt := { testing := [.lane 2 0] } } : State).mgmt.testing ∧ Element.lane 2 0 ∉ sys.mgmt.testing) ∧
    ((getCore sys 0).spares < 2 ∧ 2 ≤ (getCore (modCore sys 0 (fun k => { k with spares := 2 })) 0).spares) ∧
    (¬ LivePort leaving 2 ∧ (leaving.cores.map (fun x => x.1)).Nodup ∧ (∀ k ∈ leaving.cores, k.1 ≠ 0 → k.2.posted = []) ∧
      (∃ q, (getCore leaving 0).posted = [q] ∧ q.g.cx.core = 0 ∧ isRemote q.loc = true ∧ q.port = 2 ∧ gReturns q.g.kind = false ∧
        (getStrand leaving 0 q.g.cx.strand).fail = none ∧ postedWaiter leaving 0 = none)) := by
  refine ⟨by decide, by decide, fun h => ?_, by decide, by decide, ⟨_, rfl, by decide⟩⟩
  obtain ⟨-, l, k, hlk, hk, hl, hk'⟩ := h
  have m : ∀ k l : Fin 4, l < k → (2, l.val) ∈ leaving.mgmt.lanesOff ∨ (2, k.val) ∈ leaving.mgmt.lanesOff := by decide
  exact (m ⟨k, hk⟩ ⟨l, by omega⟩ hlk).elim hl hk'

/-- ErrorsAndAlarms: a strand outside tasks that waits, one about to issue, and one whose reissued entry reads on; a copy under way, of a task too (for its
bytes see `witness_ImmBlock`); an alarm with nothing under way. -/
theorem witness_ErrorsAndAlarms :
    (cxTask waiting sys.cur = none ∧ stillWaits waiting sys.cur = true) ∧
    (let s := onStrand 0 (fun x => { x with pc := 0x1000 }) sys
     cxTask s sys.cur = none ∧ postedRed s sys.cur = none ∧ (getStrand s 0 0).st = .ready ∧ (getStrand s 0 0).pc = sys.cur.addr) ∧
    (let s := withQueue [{ mzaEntry with direct := false }] (waitsFor .sleep { tiled with cur := { sys.cur with word := 1 } })
     cxTask s mzaEntry.cx = none ∧ stillWaits s mzaEntry.cx = false ∧ postedRed s mzaEntry.cx = none ∧ (getStrand s 0 0).st ≠ .ready ∧
      ∃ e ∈ (getCore s 0).mq, e.direct = false ∧ e.cx = mzaEntry.cx) ∧
    (let e := { fromPage with pages := [immLeaf], task := some 5 }
     Heads (copying [e] tsk) 0 e [] ∧ e.task = some 5) ∧
    (let s := { sys with mgmt := { power := .alarm true } }
     s.mgmt.power = .alarm true ∧ (∀ e ∈ s.env, s.now < e.due) ∧ ∀ e ∈ s.pend, s.now < e.1 ∧ locAccOf e.2 = none) := by
  refine ⟨by decide, by decide, ⟨by decide, by decide, by decide, by decide, ⟨_, List.mem_singleton.mpr rfl, by decide⟩⟩,
    ⟨⟨rfl, nofun⟩, rfl⟩, by decide⟩

/-- DecodeOfEncode: an instruction with the longest chain, with each part of it at an end of its range. -/
theorem witness_DecodeOfEncode : (Instr.ld { guard := 7, sense := true, mod := 7, a := .s 15, b := .mem 7 (.reg 127) }).wf = true ∧
    codeOf (.ld { guard := 7, sense := true, mod := 7, a := .s 15, b := .mem 7 (.reg 127) }) = some 128 := by decide

/-- The machine with one instruction placed. -/
def placed : State := State.reset.withFetchWord 32 0xE8030022

/-- StepRunsDecoded: strand 0 of core 0 issues next, the two words of `add g1, g2, g3` at its pc. -/
theorem witness_StepRunsDecoded : IssuesNext placed 0 0 ∧ ChainAt placed 0 (getStrand placed 0 0).pc [0xE803, 0x0022] ∧ NothingFirst placed 0 0 := by
  refine ⟨⟨nofun, by decide, by decide, by decide, by decide, by decide, by decide, by decide, by decide, by decide, ⟨0, by decide, by decide, ?_⟩, by decide⟩, ?_, ?_⟩
  · intro j h; exact absurd h (Nat.not_lt_zero j)
  · intro j w h
    match j, h with
    | 0, h => cases h; exact ⟨by decide, immLeaf, 0x1000, 0, by decide⟩
    | 1, h => cases h; exact ⟨by decide, immLeaf, 0x1002, 0, by decide⟩
    | j + 2, h => cases h
  · exact ⟨.inl (by decide), rfl, .inr (by decide)⟩

/-- MemoryStaysCanonical: the machine after reset, and one with bytes in both memories. -/
theorem witness_MemoryStaysCanonical : MemWf State.reset ∧ MemWf (lsWrite (mapped immLeaf sys) 0 0x100 [1, 0, 2]) := by
  unfold MemWf; decide


/-- Commit: a task that retired in an earlier cycle. -/
theorem witness_retAt : (getTask ({ rec5 { st := .retired, stamp := 4, retAt := 8 } (pool 1 sys) with now := 9 } : State) 5).retAt < 9 := by decide

/-- TaskMovement: an entry that may move from the first cycle on; the first start of a task, and a later one that searches from strand 1 on. -/
theorem witness_TaskMovement_more :
    (getDie ({ rec5 { st := .queued } (pool 1 sys) with dies := [(0, { queue := [{ rec_ := 5 }] })] } : State) 0).queue = [{ rec_ := 5, from_ := 0 }] ∧
    (let s := modCore (rec5 { st := .running, members := [0], seq := 1, left := [(0, 1)] } (pool 1 sys)) 0
        (fun k => { k with coreQ := [5], shared := [(32, [⟨1, 0, 0⟩])], dispFrom := 1 })
     autoStart s 0 = some (5, 2, 128, 0)) := by decide

/-- Strand 1 of the task of record 5 with the nodes, a deepest one among them. -/
def nodesTask : State :=
  { nodes3 tsk with nodes := (nodes3 tsk).nodes ++ [(4, { valid := true, ntiles := 1, depth := 15 })] }

/-- NodeOperations, in a task: reasons 1, 2 and 5 and none, a log with room, ids in order. -/
theorem witness_nodesTask :
    (Performs nodesTask x3 ∧ cxTask nodesTask nodesTask.cur = some 5 ∧ InRotation nodesTask) ∧
    nodeRefusal nodesTask (some 5) (.drop 9) = 1 ∧ nodeRefusal nodesTask (some 5) (.fork 4 0 0) = 2 ∧ 3 ≤ nodeRefusal nodesTask (some 5) (.flat 0) ∧
    3 ≤ nodeRefusal nodesTask (some 5) (.rebase 0 9) ∧ nodeRefusal nodesTask (some 5) (.fork 1 0 0) = 0 ∧ nodeRefusal nodesTask (some 5) (.drop 2) = 0 ∧
    nodeRefusal nodesTask (some 5) (.rebase 2 1) = 0 ∧ logFull nodesTask 0 5 = false ∧ Rising (usedIds nodesTask) 8388608 := by
  unfold Performs InRotation Undisturbed Rising; decide

/-- The log of the task of record 5 on core 0. -/
def logging (l : List LogRec) (s : State) : State := modCore s 0 (fun k => { k with logs := [(5, l)] })

/-- NodeOperations and TaskWindows: a log of 4,096 records is full, one of 4,095 is not. -/
theorem witness_logFull : logFull (logging (List.replicate 4096 (.arm 0 0)) tsk) 0 5 = true ∧ logFull (logging (List.replicate 4095 (.arm 0 0)) tsk) 0 5 = false := by
  constructor <;> (unfold logFull; rw [show ∀ l, getLog (logging l tsk) 0 5 = l from fun _ => rfl, List.length_replicate]; rfl)

/-- NodeOperations, the orders of `rebase`: node 0 beside a node that is not live, and two nodes of which one is not. -/
theorem witness_rebaseOrder : (2 ≠ 0 ∧ 9 ≠ 0 ∧ ¬ LiveNode (nodes3 sys) 9) ∧ ((0 : Nat) = 0 ∧ ¬ LiveNode (nodes3 sys) 9) := by unfold LiveNode; decide

/-- A committing task of record 5 with a lineage store, beside an entry of the lineage queue of core 0 that reads its line. -/
def pendingLine (off : Nat) : State :=
  logging [.store (.lin 2 off) [1]]
    { lining (lin0 false true 0xC0000000) (nodes3 waiting) with tasks := [(5, { st := .committing, members := [0], commitIx := some 0 })] }

/-- LineageQueue: an entry that waits for a line, and one with no line pending. -/
theorem witness_linePending :
    (∃ l ∈ lineageLines (pendingLine 0x3F00) (lin0 false true 0xC0000000), linePending (pendingLine 0x3F00) (.lin l.1 (256 * l.2)) = true) ∧
    (∀ l ∈ lineageLines (lining (lin0 true true 0xA00000100) (nodes3 waiting)) (lin0 true true 0xA00000100),
      linePending (lining (lin0 true true 0xA00000100) (nodes3 waiting)) (.lin l.1 (256 * l.2)) = false) ∧
    (lin0 true true 0xA00000100).inc = .none ∧ stillWaits (pendingLine 0x3F00) sys.cur = true := by
  refine ⟨⟨(2, 63), ?_, ?_⟩, ?_, rfl, ?_⟩ <;> decide +kernel

/-- TaskWindows: a handle in a task, foreign and not; a keep of one position that is not refused and has its targets; pages that are the task's to free and not. -/
theorem witness_TaskWindows :
    (let s := seqOpen open3 tsk
     cxTask s s.cur = some 5 ∧ Performs s x3 ∧ foreignHandle s (some 5) 0x1003 = false ∧ winRefusal s (some 5) (.kvc 3 1 1 [] []) = 0 ∧
      keepTargets s s.cur (seqView s (some 5) 3) 1 = some ([], []) ∧ bits (0x1003 : Word) 11 0 = 3 ∧ bits (0x1003 : Word) 27 12 = 1) ∧
    (let s := { seqOpen open3 tsk with pagesOut := [7] }
     pgfrBad s (some 5) 7 = false ∧ pgfrBad s (some 5) 6 = true ∧ pgfrBad s (some 5) 8 = true) ∧
    (let s := p3At 0x100 (withG [(1, 0x1003)] (seqOpen { open3 with img := [0x1000000000, 0, 0, 0, 0, 0, 0, 0], pages := [(0, 7)] } tsk))
     (kvwPlace s s.cur 0x1003 15 0 true).toOption = some (0, 0) ∧ checkAccess s s.cur (ptrVal s s.cur (.mem 3 .none)) 256 = none ∧
      checkAlign (ptrVal s s.cur (.mem 3 .none)) 16 = none) := by
  unfold Performs; decide

/-- LockManager, the addresses: a sequence, the last flat address, a lineage address of a live node and one of none. -/
theorem witness_Addressable :
    Addressable sys 3 0xFFFFFFFFFFFFFFFF ∧ Addressable sys 0 0xFFFFFFFFFFFF ∧ Addressable (nodes3 sys) 1 0x8000010000000000 ∧ ¬ Addressable (nodes3 sys) 1 0x8000090000000000 := by
  unfold Addressable; decide

/-- LockManager, the modes in a task: a sequence with a foreign handle, X and IX there, IX held; S on a tile that is held. -/
theorem witness_lockModes :
    (foreignHandle tsk (some 5) 0x1003 = true ∧ foreignHandle (seqOpen open3 tsk) (some 5) 0x1003 = false) ∧
    (modeOf 0 ∉ [Mode.ix, .x] ∧ modeOf 1 ∈ [Mode.ix, .x] ∧ modeOf 6 ∈ [Mode.ix, .x]) ∧
    (let s := { seqOpen open3 tsk with locks := { entries := [{ obj := lockObject 3 0x1003, holders := [{ task := some 5, mode := .ix, lcnt := 1, id := 0 }] }] } }
     modeCovered s 5 (lockObject 3 0x1003) .ix = true ∧ modeCovered s 5 (lockObject 3 0x1003) .x = false) ∧
    modeOf 3 ∈ [Mode.s, .six, .inc, .x] ∧ modeOf 0 ∉ [Mode.s, .six, .inc, .x] := by decide

/-- Tasks 5 and 6 of which 6 stands in a state, strand 1 of core 0 running it; its lock on node 1. -/
def wounding (st : TaskState) : State :=
  { pool 1 (onStrand 1 (fun _ => { ready with cr := [(4, 0xC00080), (9, 0x0000000600000002), (12, 0x6000000)] }) sys) with
    tasks := [(5, { st := .running, seq := 1, stamp := 1 }), (6, { st := st, seq := 2, stamp := 2, members := [0] })]
    locks := { entries := [{ obj := ⟨3, 1⟩, holders := [{ task := some 6, mode := .x, lcnt := 1, id := 0 }] }] } }

/-- LockManager, the wounds of a Running, a Locking and a Retired task. -/
theorem witness_wounds : (∀ st ∈ [TaskState.running, .locking, .retired],
      HeldAlone (wounding st) ⟨3, 1⟩ 6 .x ∧ (wounding st).locks.noRoom = [] ∧ olderTask (wounding st) 5 6 = true ∧ mayFault (getTask (wounding st) 6).st) ∧
    compatible (wounding .running) .s .x = false ∧ (0, 1) ∈ taskStrands (wounding .running) 6 := by
  refine ⟨?_, by decide, by decide⟩
  have k : ∀ st ∈ [TaskState.running, .locking, .retired], olderTask (wounding st) 5 6 = true ∧ mayFault (getTask (wounding st) 6).st := by
    unfold mayFault; decide
  exact fun st h => ⟨⟨1, 0, rfl⟩, rfl, (k st h).1, (k st h).2⟩

theorem witness_Idle (st : TaskState) : Idle (wounding st) 6 where
  queues := fun c h => by rw [show c = 0 from List.mem_singleton.mp h]; exact ⟨rfl, rfl, rfl⟩
  units := fun _ _ => nofun
  cores := List.nodup_singleton 0

/-- A task that holds a line of node 1 in S and its tile in S. -/
def converting : State :=
  { waitsFor .lock tsk with
    locks := { entries := [{ obj := ⟨4, 2 ^ 26⟩, holders := [{ task := some 5, mode := .s, lcnt := 1, id := 0 }] },
                           { obj := ⟨5, 2 ^ 32⟩, holders := [{ task := some 5, mode := .s, lcnt := 1, id := 1 }] }] } }

/-- LockManager, the grants: `lcv` of a held tile with a line below and nobody waiting; a line's grant that calls for its tile. -/
theorem witness_grants :
    Awaits converting converting.cur ∧ converting.locks.noRoom = [] ∧ (∀ e ∈ converting.locks.entries, e.waiters = []) ∧
    heldMode converting 5 ⟨4, 2 ^ 26⟩ = some .s ∧ (ancestors ⟨5, 2 ^ 32⟩).contains ⟨4, 2 ^ 26⟩ = true ∧ heldMode converting 5 ⟨5, 2 ^ 32⟩ = some .s ∧
    coversBelow .s .s = true ∧ (ancestors ⟨3, 1⟩).contains ⟨4, 2 ^ 26⟩ = false ∧
    (({ cx := converting.cur, task := some 5, todo := [(⟨5, 2 ^ 32⟩, .s)], cont := .lock (.g 1), raised := some .s } : LReq).raised = some .s ∧
      tileOf ⟨5, 2 ^ 32⟩ = some ⟨4, 2 ^ 26⟩) := by
  unfold Awaits Undisturbed; decide

/-- Clockwork and Deposits: a sleeper whose timer runs out and whose slot takes a deposit. -/
theorem witness_sleepers :
    let s := withSlot 4 { owner := some 0 } (blockedFor .sleep sys)
    (∃ w, waitOf s 0 0 = some w ∧ w.why = .sleep ∧ w.cx.core = 0 ∧ w.cx.strand = 0) ∧ (getStrand s 0 0).st = .blocked ∧ Undisturbed (getStrand s 0 0) ∧
      depositAccepted s {} none 0 4 = true ∧ mustDefer s 0 4 = false ∧ (getSlot s 0 4).owner = some 0 := by
  refine ⟨⟨_, rfl, by decide⟩, by decide, by unfold Undisturbed; decide, by decide⟩

/-- Strand 0 of core 0 waits for its arrive; strand 2 there holds one, and strand 1 of core 1 waits in `barw`. -/
def arriving (b : Barrier) : State :=
  let wait := fun (c u : Nat) (why : Why) (s : State) =>
    modStrand s c u (fun _ => { ready with st := .blocked, wait := some { why := why, instr := .nop {}, cx := { core := c, strand := u } } })
  wait 1 1 (.barw 7) (wait 0 2 (.bara 7) (withUnits b {} waiting))

theorem init_waits (u : Nat) : (Strand.init u).wait = none := by unfold Strand.init; split <;> rfl

/-- Who waits in that state. -/
theorem arriving_waits (b : Barrier) (c u : Nat) (w : Wait) (h : waitOf (arriving b) c u = some w) :
    (c = 0 ∧ u = 0 ∧ w.why = .flight) ∨ (c = 0 ∧ u = 2 ∧ w.why = .bara 7) ∨ (c = 1 ∧ u = 1 ∧ w.why = .barw 7 ∧ w.cx.core = 1 ∧ w.cx.strand = 1) := by
  match c with
  | 0 =>
    match u with
    | 0 => cases h; exact .inl ⟨rfl, rfl, rfl⟩
    | 2 => cases h; exact .inr (.inl ⟨rfl, rfl, rfl⟩)
    | 1 => exact absurd h (by rw [show waitOf (arriving b) 0 1 = (Strand.init 1).wait from rfl, init_waits]; nofun)
    | n + 3 => exact absurd h (by rw [show waitOf (arriving b) 0 (n + 3) = (Strand.init (n + 3)).wait from rfl, init_waits]; nofun)
  | 1 =>
    match u with
    | 1 => cases h; exact .inr (.inr ⟨rfl, rfl, rfl, rfl, rfl⟩)
    | 0 => exact absurd h (by rw [show waitOf (arriving b) 1 0 = (Strand.init 0).wait from rfl, init_waits]; nofun)
    | n + 2 => exact absurd h (by rw [show waitOf (arriving b) 1 (n + 2) = (Strand.init (n + 2)).wait from rfl, init_waits]; nofun)
  | n + 2 => exact absurd h (by rw [show waitOf (arriving b) (n + 2) u = (Strand.init u).wait from rfl, init_waits]; nofun)

/-- CountersChange, the last arrive of a cycle: it completes a phase, with a held arrive of a member whose lead was 3 and a `barw` at lead 0. -/
theorem witness_ArriveCompletes :
    let b : Barrier := { owner := .core 0, mask := 3, leads := [(0, 2), (1, 1)], held := [{ core := 0, strand := 2 }] }
    let s := arriving b
    let b1 := b.arrive 0
    Awaits s sys.cur ∧ getBarrier s 0 7 = b ∧ arriveDue s 0 7 = false ∧ storesLeft s sys.cur = false ∧ unitServes s sys.cur b.owner b.mask = true ∧ b.lead 0 < 3 ∧
    (∀ c u w, WaitsAt s 0 7 c u w → w.cx.core = c ∧ w.cx.strand = u) ∧ b.held.length ≤ 1 ∧
    (∀ h ∈ b.held, b.mask.getLsbD (colOf h.core) = true ∧ b1.lead (colOf h.core) = 3 ∧ (h.core ≠ sys.cur.core ∨ h.strand ≠ sys.cur.strand) ∧
      Undisturbed (getStrand s h.core h.strand) ∧ ∃ w, waitOf s h.core h.strand = some w ∧ w.why = .bara 7) ∧
    (∀ i : Fin 16, b.mask.getLsbD i = true → 1 ≤ b1.lead i) ∧ (∃ i, b.mask.getLsbD i = true ∧ b1.lead i = 1) ∧
    ((∃ w, WaitsAt s 0 7 1 1 w) ∧ (getStrand s 1 1).st = .blocked ∧ Undisturbed (getStrand s 1 1)) := by
  refine ⟨by unfold Awaits Undisturbed; decide, rfl, by decide, by decide, by decide, by decide, ?_, by decide, ?_, by decide, ⟨1, by decide⟩,
    ⟨_, 1, by decide, by decide, rfl, rfl, rfl⟩, by decide, by unfold Undisturbed; decide⟩
  · rintro c u w ⟨_, -, -, -, h, hw⟩
    rcases arriving_waits _ c u w h with ⟨-, -, k⟩ | ⟨-, -, k⟩ | ⟨rfl, rfl, -, a, b⟩
    · rw [hw] at k; cases k
    · rw [hw] at k; cases k
    · exact ⟨a, b⟩
  · intro h hh
    rw [List.mem_singleton.mp hh]
    exact ⟨by decide, by decide, by decide, by unfold Undisturbed; decide, _, rfl, rfl⟩

/-- CountersChange: an arrive that leaves a member at lead 0, nobody waiting; one that is held; one at a barrier that does not serve the core. -/
theorem witness_arrives :
    (let b : Barrier := { owner := .core 0, mask := 3 }
     let s := withUnits b {} waiting
     Awaits s sys.cur ∧ arriveDue s 0 7 = false ∧ storesLeft s sys.cur = false ∧ unitServes s sys.cur b.owner b.mask = true ∧
      (∃ i, b.mask.getLsbD i = true ∧ (b.arrive 0).lead i = 0)) ∧
    (let s : State := { withUnits (ownBarrier 3) {} waiting with pend := [(0, .barrierArriveEffect waiting.cur 7)] }
     arriveDue s 0 7 = true ∧ storesLeft s sys.cur = false ∧ unitServes s sys.cur (getBarrier s 0 7).owner (getBarrier s 0 7).mask = true ∧
      3 ≤ (getBarrier s 0 7).lead 0 ∧ (waitOf s 0 0).isSome = true) ∧
    unitServes waiting waiting.cur (getBarrier waiting 0 7).owner (getBarrier waiting 0 7).mask = false := by
  refine ⟨⟨by unfold Awaits Undisturbed; decide, by decide, by decide, by decide, ⟨1, by decide⟩⟩, by decide, by decide⟩

theorem witness_nobody (c u : Nat) (w : Wait) : ¬ WaitsAt (withUnits { owner := .core 0, mask := 3 } {} waiting) 0 7 c u w := by
  rintro ⟨_, -, -, -, h, hw⟩
  match c, u with
  | 0, 0 => cases h; cases hw
  | 0, n + 1 => rw [show waitOf _ 0 (n + 1) = (Strand.init (n + 1)).wait from rfl, init_waits] at h; cases h
  | n + 1, u => rw [show waitOf _ (n + 1) u = (Strand.init u).wait from rfl, init_waits] at h; cases h

/-- CountersAndNests, `nestq`: a fetcher whose mask leaves the core out. -/
theorem witness_nestq :
    let s := withUnits {} { owner := .core 0, desc := ⟨2, 3, 1, 1, 1, 2⟩, rem := 4 } sys
    (curFetcher s 7).owner = ownerOf s s.cur.core s.cur.strand ∧ (curFetcher s 7).desc.mask.getLsbD (colOf s.cur.core) = false := by decide

/-- VL = n with three windows `w` at 0x200, 0x2000 and 0x4000. -/
def vecs (w : Word) (n : Word) : State :=
  onStrand 0 (fun x => (((x.set 5 n).setPtr 1 (w <<< 33 ||| 0x200)).setPtr 2 (w <<< 33 ||| 0x2000)).setPtr 3 (w <<< 33 ||| 0x4000)) sys

/-- VectorElements: 33 elements, and a block of window 3. -/
theorem witness_ManyElements : ∀ y ∈ [((0 : Word), (33 : Word)), (3, 64)],
    Performs (vecs y.1 y.2) vecArgs ∧ ManyElements (vecs y.1 y.2) [(vecArgs.a, true, true), (vecArgs.b, true, false), (vecArgs.c, true, false)] := by
  intro y h
  rcases List.mem_pair.mp h with rfl | rfl <;> (unfold Performs ManyElements; decide +kernel)

/-- VectorElements, the blocks: the second block of 65 elements, and the only one of 64 through window 3. -/
theorem witness_ElementBlocks :
    (∃ r ∈ elementRows, (∃ j : UJob, j.instr = r.1 vecArgs ∧ j.vl = 65 ∧ 3 ∉ jobWins j (1 + (r.2.1 vecArgs).length) ∧
      blockOf (jobWins j (1 + (r.2.1 vecArgs).length)) j.vl 2 = (64, 1))) ∧
    (∃ r ∈ elementRows, (∃ j : UJob, j.instr = r.1 vecArgs ∧ j.vl = 64 ∧ 3 ∈ jobWins j (1 + (r.2.1 vecArgs).length) ∧
      (blockOf (jobWins j (1 + (r.2.1 vecArgs).length)) j.vl 0).2 = 64)) :=
  ⟨⟨elementRows[0], by simp [elementRows], { instr := .vadd vecArgs, cx := {}, vl := 65, ps := [0, 0, 0] }, by decide⟩,
    ⟨elementRows[0], by simp [elementRows], { instr := .vadd vecArgs, cx := {}, vl := 64, ps := [3 <<< 33, 3 <<< 33, 0] }, by decide⟩⟩

/-- VectorReductions: no element, 33 elements, and a block of window 3. -/
theorem witness_ReductionTree : ∀ y ∈ [((0 : Word), (0 : Word)), (0, 33), (3, 64)],
    let s := onStrand 0 (fun x => x.setPtr 1 0x200) (vecs y.1 y.2)
    let vl := vlOf s s.cur
    let d := vop s s.cur vecArgs.a
    Performs s vecArgs ∧ vl ≤ 65536 ∧ d.win ≠ 3 ∧ checkVop s s.cur d 1 = none ∧ watchWalk s s.cur false true d.p (elemSize d.win) = none ∧
    ∀ o ∈ [vecArgs.b, vecArgs.c], ((vop s s.cur o).win = 3 → vl % 64 = 0) ∧ checkVop s s.cur (vop s s.cur o) vl = none ∧
      watchWalk s s.cur true false (vop s s.cur o).p (walkLen (vop s s.cur o) vl) = none := by
  intro y h
  rcases List.mem_cons.mp h with rfl | h
  · unfold Performs; decide +kernel
  · rcases List.mem_pair.mp h with rfl | rfl <;> (unfold Performs; decide +kernel)

/-- VectorTransfers, the index pass: an index that leads outside the region, and a block of good ones before the last. -/
theorem witness_IndexPass :
    let j : UJob := { instr := .vgath vecArgs, cx := sys.cur, vl := 33, ps := [0x200, 0x100, 0x400] }
    let s := lsWrite sys 0 0x400 [0xFF, 0xFF, 0xFF, 0x0F]
    32 * 1 < j.vl ∧ (firstBad [checkElem s j.cx j.table (ofBytes (walkBytes s 0x400 0 4))]).isSome = true ∧ 32 * (0 + 1) < j.vl ∧
    firstBad ((List.range 32).map (fun e => checkElem sys j.cx j.table (ofBytes (walkBytes sys 0x400 (4 * e) 4)))) = none := by decide +kernel

/-- MatrixHappenings: an entry of the port that has runs to make; a rotation to an idle core. -/
theorem witness_matrixEnds :
    (let e := { mzaEntry with kind := .mst, started := true, size := 8, moved := 0 }
     let s := withQueue [e] tiled
     (getCore s 0).mq.find? (fun f => f.id == e.id && f.started) = some e ∧ e.onPort = true ∧ e.running = true) ∧
    (let e := { mzaEntry with kind := .mrot, started := true, succ := 1 }
     e.running = false ∧ e.direct = true ∧ e.succ ≠ e.cx.core) ∧ IdleQueue (getCore mzaDone 1) ∧
    (∀ k ∈ [MKind.mma, .mmas, .mlda, .mcorr, .mdrop, .mza, .macc], ({ mzaEntry with kind := k, started := true, size := 0 } : MEnt).running = false) := by
  refine ⟨by decide, by decide, ⟨rfl, rfl, rfl, rfl⟩, by decide⟩

/-- HeapResults: pushes and `hclr` at a foreign heap; `hclr` there by strand 0; an empty heap; a heap that has dropped nothing and does not reach the mass. -/
theorem witness_HeapEnds :
    (let s := withHeap { owner := .core 1 } (vec 1)
     (curCore s).suQ = [] ∧ ¬ heapOwn s ∧ ptrWin (ptrVal s s.cur (.mem 2 .none)) = 0 ∧ vlOf s s.cur ≤ 65536 ∧
      checkAccess s s.cur (ptrVal s s.cur (.mem 2 .none)) (vlOf s s.cur * 4) = none ∧ checkAlign (ptrVal s s.cur (.mem 2 .none)) 4 = none ∧ s.cur.strand = 0 ∧
      InRotation s) ∧
    (let s := withHeap { owner := .core 1 } usr
     (curCore s).suQ = [] ∧ ¬ heapOwn s ∧ s.cur.strand ≠ 0 ∧ Performs s {}) ∧
    ((curCore sys).heap.pairs = [] ∧ heapOwn sys) ∧
    (let s := withHeap { pairs := [(0x3F800000, 7)], total := 0x40000000, owner := .core 0 } (withG [(2, 0x3F800000)] sys)
     let h := (curCore s).heap
     heapOwn s ∧ h.pairs = [] ++ [(0x3F800000, 7)] ∧
      toppLoop (rne32 ((toppMass (fsrc s (.g 2))).mul (val32 h.total))) h.pairs pzero 1 = none ∧ h.evict = false) := by
  unfold Performs InRotation Undisturbed heapOwn; decide

/-- A page of the host. -/
def hostLeaf : TLeaf := { base := 0, size := 2 ^ 30, entry := 0xF2 }

/-- GlobalIssue: pages of a peer and of the host, operations native there and not; a walker without a place. -/
theorem witness_GlobalIssue_far :
    Translated (mapped peerLeaf sys) 0x2000 peerLeaf ∧ entAttr peerLeaf.entry = 2 ∧ entW peerLeaf.entry = true ∧
    Translated (mapped hostLeaf sys) 0x2000 hostLeaf ∧ entAttr hostLeaf.entry = 3 ∧ entW hostLeaf.entry = true ∧
    gNative .ld 8 = true ∧ gNative (.amo 2) 8 = false ∧
    walkRoom sys (dieOf 0) 0x2000 = true ∧
    walkRoom { sys with pend := (List.range 32).map (fun i => (9, .translationWalkComplete ⟨0, 0x1000000 * (i + 1), .access (acc .ld 8 0)⟩)) } (dieOf 0) 0x2000 = false := by
  refine ⟨⟨by decide, by decide, by decide⟩, by decide, by decide, ⟨by decide, by decide, by decide⟩, by decide, by decide, by decide, by decide, by decide,
    by decide +kernel⟩

/-- GlobalHappenings: no other walk is under way, and none waits. -/
theorem witness_oneWalk : walking (mapped immLeaf waiting) (dieOf 0) = [] ∧ (getDie (mapped immLeaf waiting) (dieOf 0)).walks = [] ∧ walking waiting (dieOf 0) = [] := by
  decide

/-- StateTransfers, the runs: of five items, the first four and the last, each way. -/
theorem witness_TransfersRun : ∀ put ∈ [false, true],
    let m : ItemMove := { cx := sys.cur, put := put, target := 3, first := 124, count := 5, off := 0x100, vals := [1, 2, 3, 4, 5] }
    (m.moved < m.count ∧ m.vals.length = m.count ∧ m.put = put ∧ m.moved + 4 < m.count) ∧
    ({ m with moved := 4 } : ItemMove).count ≤ ({ m with moved := 4 } : ItemMove).moved + 4 := by decide

/-- TaskInstructions, `waita`: a word whose bank is under test, and one whose bank is not. -/
theorem witness_waitaTested :
    let s : State := { p3At 0x100 sys with mgmt := { testing := [.lsBank 0 (bankOf 0x100)] } }
    bankTested s 0 (bankMask 0x100 8) = true ∧ bankTested sys 0 (bankMask 0x100 8) = false := by decide

/-- TaskMovement, the runs of a fetch: one with another behind it, and the last. -/
theorem witness_fetchRun : ∀ ps ∈ [[((0x2100 : Word), 0x140, 256)], []],
    let j : FetchJob := { ent := { fromPage with task := some 5, pages := [immLeaf] }, pieces := (0x20C0, 0x100, 64) :: ps }
    let s := modCore sys 0 (fun k => { k with fetches := [j] })
    (getCore s 0).fetches = [j] ∧ j.ent.task = some 5 ∧ j.pieces = (0x20C0, 0x100, 64) :: ps ∧ bits (0x20C0 : Word) 63 48 = 0 ∧
      (0x20C0 : Word).toNat % 256 + 64 ≤ 256 ∧ s.mgmt.poolBase = none := by
  intro ps _
  exact ⟨rfl, rfl, rfl, by decide, by decide, rfl⟩

/-- NodeOperations: `flat` of a child for whose delta there is no room, and for which there is. -/
theorem witness_flatRoom :
    let s := fun (room : Nat) =>
      { sys with nodes := [(1, { valid := true, ntiles := 1, children := 1, frozen := true, tiles := [0], delta := [(0, ⟨true, List.replicate 256 1⟩)] }),
                           (3, { valid := true, ntiles := 1, depth := 1, parent := 1 })]
                 mgmt := { sys.mgmt with linUnits := room } }
    LiveNode (s 1) 3 ∧ (getNode (s 1) 3).parent ≠ 0 ∧ storageFits (s 1) none 3 0 = false ∧ storageFits (s 2) none 3 0 = true := by
  unfold LiveNode; decide +kernel

/-- LineageQueue, the runs: bytes formed of which two runs remain, of which one remains, and all written. -/
theorem witness_lineageRuns (bs : List Byte) (h : bs.length = 512) : ∀ m ∈ [0, 256, 512],
    let e : LinEnt := { lin0 false true 0xC0000000 with bytes := some bs, moved := m }
    e.bytes = some bs ∧ (e.moved < bs.length ↔ m < 512) ∧ (bs.length ≤ e.moved + 256 ↔ 256 ≤ m) ∧ (getCore (lining e waiting) 0).linQ = e :: [] ∧
      stillWaits (lining e waiting) e.cx = true ∧ e.inc = .none ∧ cxTask (lining e waiting) e.cx = none := by
  intro m _
  refine ⟨rfl, ?_, ?_, rfl, rfl, rfl, rfl⟩
  · show m < bs.length ↔ m < 512
    omega
  · show bs.length ≤ m + 256 ↔ 256 ≤ m
    omega

theorem witness_lineageWhole (e : LinEnt) : WholeLines (lining e waiting) := fun n line =>
  wholeLines_noNodes (lining e waiting) rfl n line


/-- MailboxInstructions: no older pop of strand 0's own port. -/
theorem witness_popsBefore : popsBefore (withLink 1 oneWord sys) sys.cur 1 = 0 ∧
    headFor (getLink (withLink 1 oneWord sys) 0 1) (claimOf (withLink 1 oneWord sys) 0 0) = some 7 := by decide

/-- MatrixHappenings, the runs: an `mst` and an `mma` that stand alone in the queue with a run to make; the walk of the store. -/
theorem witness_MatrixRuns :
    (let e := { mzaEntry with kind := .mst, started := true, p := 0x108, size := 8, chunk := 256, bytes := [1, 2, 3, 4, 5, 6, 7, 8] }
     e.running = true ∧ (getCore (withQueue [e] tiled) 0).mq = [e] ∧ (e.runSize (withQueue [e] tiled)).1 = 8) ∧
    (let e := { mzaEntry with kind := .mma, started := true, p := 0x108, size := 330, chunk := 55 }
     e.running = true ∧ (getCore (withQueue [e] tiled) 0).mq = [e] ∧ (e.runSize (withQueue [e] tiled)).1 = 56) := by decide

/-- SelectionResults, the first run of `softk`: K of 16, which may go on, and of 17, which traps. -/
theorem witness_softkJudge :
    let j : UJob := { instr := .softk {}, cx := sys.cur, started := true, ps := [0x100, 0xA00000200] }
    let s := fun (b : Byte) => lsWrite waiting 0 0x100 [b]
    let bad := fun (b : Byte) =>
      let n := ofBytes (walkBytes (s b) 0x100 0 1)
      firstBad [if 16 < n then some ((0x10 : Byte), (0 : Word)) else none, checkAccess (s b) sys.cur 0x100 (8 + 4 * n), checkAccess (s b) sys.cur 0xA00000200 (n * 2),
        checkAlign 0x100 8, checkAlign 0xA00000200 2]
    j.blk = 0 ∧ stillWaits (s 16) j.cx = true ∧ bad 16 = none ∧ bad 17 = some (0x10, 0) := by decide

/-- A store of the strand of `cur` to a peer, outstanding, with a `fence` of scope 0 behind it. -/
def fenced (s : State) : State :=
  modCore s s.cur.core (fun k => { k with
    posted := [{ id := 4, g := { acc .st 8 0x2000 with cx := s.cur, id := 4 }, loc := .remote false 3 0x2000, fenced := true }] })

/-- GlobalIssue and GlobalHappenings: a fence behind which a task's access waits, and none; a line of the L1 whose bank is under test, and one whose is not. -/
theorem witness_behindFence :
    (behindFence (fenced (locked .x)) 0 1 = true ∧ behindFence (locked .x) 0 1 = false ∧ stillWaits (fenced waiting) sys.cur = true ∧
      behindFence (fenced waiting) 0 0 = true) ∧
    (let s : State := modCore (locked .s) 0 (fun k => { k with l1 := [⟨0, 5, .phys 0x2000⟩] })
     ∀ r ∈ (globalAccs s gArgs).take 1, l1Tested s r.2 (.task 0x2000) = false ∧
      l1Tested { s with mgmt := { s.mgmt with testing := [.lsBank 0 (bankOf (storeTop 0))] } } r.2 (.task 0x2000) = true) := by decide

/-- A task of record 5 that commits a store to the entry that a walk of the page reads. -/
def committingEntry (s : State) : State :=
  logging [.store (.phys 0x100000) (toBytes 8 0x72)]
    { mapped immLeaf s with tasks := [(5, { st := .committing, members := [0], commitIx := some 0 })] }

/-- GlobalHappenings: a walk whose entry's line is pending, and one whose is not; a posted store that is there. -/
theorem witness_walkPending : walkPending (committingEntry waiting) 0x2000 = true ∧ walkPending (mapped immLeaf waiting) 0x2000 = false ∧
    (getCore (postedOne .st (.imm 0x2000) waiting) 0).posted.any (fun p => p.id == ({ acc .st 8 0x2000 with id := 4 } : GAcc).id) = true ∧
    mustFollow (postedOne .st (.imm 0x2000) waiting) { acc .st 8 0x2000 with id := 4 } (some 4) (.imm 0x2000) = false := by decide +kernel

/-- StateTransfers: an instruction in flight of strand 3, no pointer of it noted, and one of strand 0 whose p3 a `wmt` has written. -/
theorem witness_was :
    (let s := modStrand sys 0 3 (fun _ => { ready with st := .waiting, wait := some { why := .flight, instr := .ld {}, cx := { core := 0, strand := 3 } } })
     ∃ w, waitOf s 0 3 = some w ∧ w.was = []) ∧
    (let s := modStrand waiting 0 0 (fun x => { x with wait := x.wait.map (fun w => { w with was := [(3, 0x100)] }) })
     Awaits s sys.cur ∧ ∃ w, waitOf s 0 0 = some w ∧ w.was = [((3 : BitVec 3).toNat, 0x100)]) :=
  ⟨⟨_, rfl, rfl⟩, by unfold Awaits Undisturbed; decide, _, rfl, rfl⟩

/-- Swaps: a `ccf` of an image whose backing area no buffer maps, and of one whose page it holds; the images that it writes. -/
theorem witness_ccfWalks :
    (let s := cached ⟨31, true, image31 1⟩ waiting
     Awaits s sys.cur ∧ walksOf s sys.cur (ccfAddresses s 0 (1#32 <<< 31)) ≠ []) ∧
    (let s := cached ⟨31, true, image31 1⟩ (mapped immLeaf waiting)
     Awaits s sys.cur ∧ walksOf s sys.cur (ccfAddresses s 0 (1#32 <<< 31)) = [] ∧ (ccfEntries s 0 (1#32 <<< 31)).length = 1 ∧
      ∀ e ∈ ccfEntries s 0 (1#32 <<< 31), (writeImage s sys.cur e.key e.img).2 = true) := by
  unfold Awaits Undisturbed; decide +kernel

/-- BuffersAndReplies: lines of text of which one is pending, and of which none is. -/
theorem witness_icachePending :
    (∃ l ∈ [0x1000, 0x1001], linePending (committingEntry waiting) (.phys (256 * l)) = true) ∧
    (∀ l ∈ [0x1001, 0x1002], linePending (committingEntry waiting) (.phys (256 * l)) = false) ∧ (getCore (committingEntry waiting) 0).icache.length + 2 ≤ 256 := by
  decide

/-- CopyHappenings, the runs that stop: entries between two stores and to a page, with a byte that cannot be corrected at an end of the run. -/
theorem witness_CopyStops : ∀ b ∈ [0, 63], ∀ e ∈ [{ entry7 with started := true, bad := some b },
      { entry7 with started := true, dir := 2, dst := 0x20C0, pages := [immLeaf], bad := some b }], Moving (copying [e] (mapped immLeaf sys)) 0 e [] (some b) := by
  intro b hb e h
  refine ⟨⟨rfl, nofun⟩, ?_, ?_, ?_⟩ <;> (revert h; revert e; revert hb; revert b; decide)

/-- CopyHappenings, the end: an old word that cannot be corrected, and one that can. -/
theorem witness_wordBad :
    (let e := { entry7 with cmode := 2, bad := some 0 }
     e.wordBad = true ∧ e.bad ≠ none ∧ e.stopped = none ∧ 2 ≤ e.cmode ∧ (getCore (copying [e] sys) 0).copyQ = e :: []) ∧ entry7.wordBad = false := by decide

/-- A window of handle 0x1003 with a KV record, state records of two positions in one line, and a tentative page of the next index, all to be kept. -/
def keeping : Seq :=
  { open3 with img := [0x1000000000, 0x10000, 0x20000, 0, 0, 0, 0, 0]
               recs := [⟨0, false, 0, 0x40000, List.replicate 256 1⟩, ⟨0, true, 0, 0x20000, List.replicate 256 2⟩, ⟨1, true, 0, 0x20000, List.replicate 256 3⟩]
               pages := [(0, 7), (1, 6)] }

/-- Windows, the keep: the targets of a list entry and of a state line, which lie apart; pages kept and returned; nothing held at the grant. -/
theorem witness_keep :
    let s := mapped immLeaf (seqOpen keeping waiting)
    let y := getSeq s 3
    y = keeping ∧ keepTargets s sys.cur y 2 = some ([(0, 0x10000)], [(0, 0x20000)]) ∧ KeepFits y 2 [(0, 0x10000)] [(0, 0x20000)] ∧
    y.cnt + 2 < 2 ^ 32 ∧ y.posn + 2 < 2 ^ 32 ∧ y.img.length = 8 ∧ y.st = .open_ ∧ (y.cnt + 2 - 1) / y.tpp = 0 ∧ y.sl = 1 ∧
    grantHeld s (lastGrant sys.cur ⟨6, 3⟩ .x (.win (.kvc 3 1 2 [(0, 0x10000)] [(0, 0x20000)]) { cx := sys.cur })) = false := by
  refine ⟨rfl, by decide +kernel, ?_, by decide +kernel⟩
  unfold KeepFits; decide +kernel

theorem witness_WindowForm : WindowForm keeping := by
  constructor
  · intro r h
    rcases List.mem_cons.mp h with rfl | h
    · exact List.length_replicate
    · rcases List.mem_pair.mp h with rfl | rfl <;> exact List.length_replicate
  · decide

/-- Windows, `kvw`: a line of state that has its place, with nothing to wait for at the grant. -/
theorem witness_kvwGrant :
    let s := mapped immLeaf (seqOpen keeping waiting)
    (kvwPlace s sys.cur (handleOf 3 1) 15 0 true).toOption = some (0x20000, 0x20000) ∧
    grantHeld s (lastGrant sys.cur ⟨6, 3⟩ .ix (.win (.kvw 3 1 15 0 true 0 0 []) { cx := sys.cur })) = false := by decide +kernel

/-- Windows, `kvq`: a handle of the strand's and a foreign one; the numbers of records and pages; slots with a page and without. -/
theorem witness_kvq :
    let s := seqOpen keeping waiting
    (Awaits s sys.cur ∧ foreignHandle s (cxTask s sys.cur) (wd (bits (0x1F200001003 : Word) 27 0)) = false ∧
      foreignHandle s (cxTask s sys.cur) (wd (bits (0x200002003 : Word) 27 0)) = true) ∧
    (∀ i, i < 16 → bits (wd (i * 2 ^ 32 + 0x1003)) 35 32 = i) ∧ (getSeq s 3).recs.length ≤ 2048 ∧ (getSeq s 3).pages.length ≤ 16 ∧
    (getSeq s 3).pages[bits (0x1300001003 : Word) 39 36]? = some (1, 6) ∧ (getSeq s 3).pages.length ≤ bits (0x2300001003 : Word) 39 36 := by
  refine ⟨⟨by unfold Awaits Undisturbed; decide, by decide, by decide⟩, by decide, by decide, by decide, by decide, by decide⟩

/-- LockManager, the escalation: a task with two lines of a tile, at LIMIT and below it, asks for a third; the grant of the tile; a conversion. -/
def escalating (limit lcnt : Nat) : State :=
  { waitsFor .lock tsk with
    locks := { limit, entries := [{ obj := ⟨4, 2 ^ 26⟩, holders := [{ task := some 5, mode := .ix, lcnt, id := 0 }] },
      { obj := ⟨5, 2 ^ 32⟩, holders := [{ task := some 5, mode := .s, lcnt := 0, id := 1 }] },
      { obj := ⟨5, 2 ^ 32 + 1⟩, holders := [{ task := some 5, mode := .x, lcnt := 0, id := 2 }] }] } }

theorem witness_Escalation : ∀ z ∈ [(16, 2), (2, 2), (0, 2)],
    let s := escalating z.1 z.2
    s.locks.noRoom = [] ∧ (∀ e ∈ s.locks.entries, e.waiters = []) ∧ tileOf ⟨5, 2 ^ 32 + 2⟩ = some ⟨4, 2 ^ 26⟩ ∧
      (∀ e ∈ s.locks.entries, e.obj ≠ ⟨5, 2 ^ 32 + 2⟩) ∧ hasRoom s ⟨5, 2 ^ 32 + 2⟩ = true ∧ heldMode s 5 ⟨4, 2 ^ 26⟩ ≠ none ∧
      heldBelow s 5 ⟨4, 2 ^ 26⟩ = [(⟨5, 2 ^ 32⟩, .s), (⟨5, 2 ^ 32 + 1⟩, .x)] ∧ lcntOf s 5 ⟨4, 2 ^ 26⟩ = z.2 ∧
      Awaits s s.cur ∧ isTile ⟨4, 2 ^ 26⟩ = true := by
  unfold Awaits Undisturbed; decide

theorem witness_conversion : HeldAlone (twoTasks 5 .s) ⟨3, 1⟩ 5 .s ∧ (twoTasks 5 .s).locks.noRoom = [] ∧ joinMode .s .is = .s ∧ joinMode .s .x = .x :=
  ⟨⟨1, 0, rfl⟩, rfl, rfl, rfl⟩

/-- LockManager, the room: the slice of node 1 holds `n` records of task 7, beside task 5 and the younger task 6. -/
def full (n : Nat) (rest : List LockEnt) : State :=
  { sys with tasks := [(5, { st := .running, seq := 1, stamp := 2 }), (6, { st := .locking, seq := 2, stamp := 3 }), (7, { st := .running, stamp := 1 })]
             locks := { entries := { obj := ⟨3, 2⟩, holders := List.replicate n { task := some 7, mode := .s, lcnt := 0, id := 0 } } :: rest } }

/-- A record of task 6 there. -/
def young : LockEnt := { obj := ⟨3, 3⟩, holders := [{ task := some 6, mode := .s, lcnt := 0, id := 1 }] }

theorem witness_noRoom : hasRoom (full 16384 []) ⟨3, 1⟩ = false ∧ hasRoom (full 16383 [young]) ⟨3, 1⟩ = false ∧ hasRoom (full 16383 []) ⟨3, 1⟩ = true := by
  have h2 : lockSlice ⟨3, 2⟩ = lockSlice ⟨3, 1⟩ := by decide
  have h3 : lockSlice ⟨3, 3⟩ = lockSlice ⟨3, 1⟩ := by decide
  simp [hasRoom, full, young, h2, h3, LockEnt.records, -List.reduceReplicate]

theorem witness_RoomWaits :
    (∀ e ∈ (full 16383 [young]).locks.entries, e.waiters = [] ∧ e.holders ≠ [] ∧ e.obj ≠ ⟨3, 1⟩) ∧ (full 16383 [young]).locks.noRoom = [] ∧
    (olderTask (full 16383 [young]) 5 6 = true ∧ mayFault (getTask (full 16383 [young]) 6).st) ∧
    (∀ k, (∃ e ∈ (full 16383 [young]).locks.entries, lockSlice e.obj = lockSlice ⟨3, 1⟩ ∧ ∃ h ∈ e.holders, h.task = some k) →
      k = 6 ∨ ¬(olderTask (full 16383 [young]) 5 k = true ∧ mayFault (getTask (full 16383 [young]) k).st)) ∧
    (lockSlice ⟨3, 3⟩ = lockSlice ⟨3, 1⟩ ∧ young ∈ (full 16383 [young]).locks.entries) ∧
    (∀ e ∈ (full 16383 [young]).locks.entries, e.obj = ⟨3, 3⟩ ∨ ∀ h ∈ e.holders, h.task ≠ some 6) ∧
    ((full 16383 [young]).locks.entries.map (fun e => e.obj)).Nodup ∧
    (full 16383 [young]).locks.entries.filter (fun e => e.obj != ⟨3, 3⟩) = (full 16383 []).locks.entries := by
  refine ⟨?_, rfl, ⟨by decide, by unfold mayFault; decide⟩, ?_, ⟨by decide, List.mem_cons_of_mem _ (List.mem_singleton.mpr rfl)⟩, ?_, ?_, ?_⟩
  · simp [full, young, -List.reduceReplicate]
  · rintro k ⟨e, he, -, h, hh, hk⟩
    rcases List.mem_pair.mp he with rfl | rfl
    · rw [List.eq_of_mem_replicate hh] at hk; cases hk; exact .inr (fun z => absurd z.1 (by decide))
    · rw [List.mem_singleton.mp hh] at hk; cases hk; exact .inl rfl
  · intro e he
    rcases List.mem_pair.mp he with rfl | rfl
    · exact .inr (fun h hh => by rw [List.eq_of_mem_replicate hh]; decide)
    · exact .inl rfl
  · decide
  · rfl

/-- LockManager, `lq`: a tile that the task holds beside another, a handle that is foreign, an address with nothing locked. -/
theorem witness_lq :
    (let s := { waitsFor .flight tsk with locks := { entries := [{ obj := lockObject 1 0x8000010000000000, holders := [{ task := some 5, mode := .s, lcnt := 3, id := 0 },
        { task := some 6, mode := .is, lcnt := 0, id := 1 }] }] } }
     Awaits s s.cur ∧ cxTask s s.cur = some 5 ∧ (getEntry s (lockObject 1 0x8000010000000000)).holders.length = 2 ∧
      heldMode s 5 (lockObject 1 0x8000010000000000) = some .s ∧ (getEntry s (lockObject 0 0xFFFF000000000100)).holders = []) ∧
    foreignHandle sys (cxTask sys sys.cur) 0x1003 = true ∧ cxTask waiting sys.cur = none := by
  unfold Awaits Undisturbed; decide

/-- ErrorsAndAlarms: a posted reduction of strand 0 on its own die, and nobody waiting for a place. -/
theorem witness_postedRed :
    let s := postedOne (.red 0) (.imm 0x2000) sys
    cxTask s sys.cur = none ∧ stillWaits s sys.cur = false ∧ (postedRed s sys.cur).isSome = true ∧ postedWaiter s 0 = none := by decide

/-- The machine with the instruction of `placed` on core 1, and core 0 started but within the 8 cycles of its last issue. -/
def placedOn1 : State :=
  let s := State.reset.withFetchWord 32 0xE8030022
  modCore (modCore s 1 (fun _ => getCore s 0)) 0 (fun k => k.modStrand 0 (fun x => { x with last := some 0 }))

/-- StepRunsDecoded: core 1 issues, after core 0, which is started and has nothing to issue. -/
theorem witness_twoCores : (getCore placedOn1 0).started = true ∧ IssuesNext placedOn1 1 0 ∧ NothingFirst placedOn1 1 0 := by
  refine ⟨by decide, ⟨nofun, by decide, nofun, by decide, by decide, by decide, by decide, by decide, by decide, by decide,
    ⟨0, by decide, by decide, fun j h => absurd h (Nat.not_lt_zero j)⟩, by decide⟩, .inl (by decide), rfl, .inr (by decide)⟩

/-- StepRunsDecoded: an instruction that does not wait, one that waits behind a fence, and a trap of a posted reduction that is due. -/
theorem witness_held :
    mustWait (atIssue { placed with fresh := 1, turn := 2 } 0 0 0x0022 4) (.add x3) = false ∧
    mustWait (atIssue { fenced sys with fresh := 1, turn := 2 } 0 0 0x0103 2) (.ld { a := .g 1, b := .mem 3 .none }) = true ∧
    (let s := modStrand placed 0 0 (fun x => { x with badOld := some (0x2000, 0x22) })
     NoTimer s 0 0 ∧ (getStrand s 0 0).badOld = some (0x2000, 0x22) ∧ decode [0xE803, 0x0022] ≠ .more) := by
  unfold NoTimer; decide
end Sys2Proof.Tests
end

section
namespace Sys2Proof.Proofs

open Sys2Proof.Machine Sys2Proof.Laws Sys2Proof.Claims

/-! Bit fields: a field just set reads as set, and every other bit as before. -/

theorem testBit_replace (p v lo n m : Nat) :
    (p - p / 2 ^ lo % 2 ^ n * 2 ^ lo + v % 2 ^ n * 2 ^ lo).testBit m =
      if lo ≤ m ∧ m < lo + n then v.testBit (m - lo) else p.testBit m := by
  have hsplit : p - p / 2 ^ lo % 2 ^ n * 2 ^ lo + v % 2 ^ n * 2 ^ lo =
      2 ^ (lo + n) * (p / 2 ^ (lo + n)) + (2 ^ lo * (v % 2 ^ n) + p % 2 ^ lo) := by
    have h1 := Nat.div_add_mod p (2 ^ (lo + n))
    have h2 : p % 2 ^ (lo + n) = p % 2 ^ lo + 2 ^ lo * (p / 2 ^ lo % 2 ^ n) := by rw [pow_add]; exact Nat.mod_mul
    rw [Nat.mul_comm (p / 2 ^ lo % 2 ^ n), Nat.mul_comm (v % 2 ^ n)]
    omega
  have hlow : p % 2 ^ lo < 2 ^ lo := Nat.mod_lt _ (Nat.two_pow_pos lo)
  have hfield : v % 2 ^ n < 2 ^ n := Nat.mod_lt _ (Nat.two_pow_pos n)
  have hboth : 2 ^ lo * (v % 2 ^ n) + p % 2 ^ lo < 2 ^ (lo + n) := by
    have : 2 ^ lo * (v % 2 ^ n) + 2 ^ lo ≤ 2 ^ lo * 2 ^ n := by
      rw [← Nat.mul_succ]; exact Nat.mul_le_mul_left _ hfield
    rw [pow_add]; omega
  rw [hsplit, Nat.testBit_two_pow_mul_add _ hboth, Nat.testBit_two_pow_mul_add _ hlow]
  by_cases h1 : m < lo
  · simp [h1, show m < lo + n by omega, Nat.not_le.mpr h1, Nat.testBit_mod_two_pow]
  · by_cases h2 : m < lo + n
    · simp [h1, h2, Nat.le_of_not_lt h1, Nat.testBit_mod_two_pow, show m - lo < n by omega]
    · simp only [h2, if_false, and_false, Nat.testBit_div_two_pow]
      congr 1; omega

theorem bit_setBits (w : Word) (hi lo v m : Nat) (hm : m < 64) :
    bit (setBits w hi lo v) m = if lo ≤ m ∧ m < lo + (hi + 1 - lo) then v.testBit (m - lo) else bit w m := by
  unfold bit setBits bits
  rw [BitVec.toNat_ofNat, Nat.testBit_mod_two_pow, testBit_replace]
  simp [hm]

theorem testBit_bits (w : Word) (hi lo m : Nat) :
    (bits w hi lo).testBit m = (decide (m < hi + 1 - lo) && bit w (m + lo)) := by
  simp [bits, bit, Nat.testBit_mod_two_pow, Nat.testBit_div_two_pow]

/-- A field apart from the one that is set reads as before. -/
theorem bits_setBits_apart (w : Word) (hi lo v hi' lo' : Nat) (hw : hi' < 64) (h : hi' < lo ∨ hi < lo') :
    bits (setBits w hi lo v) hi' lo' = bits w hi' lo' := by
  refine Nat.eq_of_testBit_eq (fun m => ?_)
  rw [testBit_bits, testBit_bits]
  by_cases hm : m < hi' + 1 - lo'
  · rw [bit_setBits _ _ _ _ _ (by omega), if_neg (by omega)]
  · simp [hm]

/-- A field that is set reads as set. -/
theorem bits_setBits_self (w : Word) (hi lo v : Nat) (hw : hi < 64) :
    bits (setBits w hi lo v) hi lo = v % 2 ^ (hi + 1 - lo) := by
  refine Nat.eq_of_testBit_eq (fun m => ?_)
  rw [testBit_bits, Nat.testBit_mod_two_pow]
  by_cases hm : m < hi + 1 - lo
  · rw [bit_setBits _ _ _ _ _ (by omega), if_pos (by omega), Nat.add_sub_cancel]
  · simp [hm]

theorem flag_setFlag (x : Strand) (i j : Nat) (b : Bool) (hj : j < 64) :
    (x.setFlag i b).flag j = if j = i then b else x.flag j := by
  unfold Strand.flag Strand.setFlag
  rw [get_set_self, bit_setBits _ _ _ _ _ hj]
  by_cases h : j = i
  · subst h; cases b <;> simp
  · rw [if_neg (by omega), if_neg h]

end Sys2Proof.Proofs
end

section
namespace Sys2Proof.Proofs

open Sys2Proof.Machine Sys2Proof.Laws Sys2Proof.Claims

/-! Taking a trap (R130, R134, R135). -/

/-- Two changes of one core are one. -/
@[simp] theorem modCore_modCore_self (s : State) (c : Nat) (f g : Core → Core) :
    modCore (modCore s c f) c g = modCore s c (fun k => g (f k)) := by
  simp [modCore, getCore]

/-- Two changes of one strand of a core are one. -/
@[simp] theorem core_modStrand_modStrand_self (k : Core) (t : Nat) (f g : Strand → Strand) :
    (k.modStrand t f).modStrand t g = k.modStrand t (fun x => g (f x)) := by
  simp [Core.modStrand, Core.strand]

theorem modStrand_eq_modCore (s : State) (c t : Nat) (f : Strand → Strand) :
    modStrand s c t f = modCore s c (fun k => k.modStrand t f) := rfl

/-- The strand with its trap recorded, before it is known where it goes. -/
def trapSaved (x : Strand) (cause : Byte) (info epc : Word) (word : IWord) : Strand :=
  { (x.record cause info epc word).setDbg 1 false with wait := none, tmrHit := if cause = 0x16 then false else x.tmrHit }

/-- The strand after its trap: Halted by a double fault, in handler mode at `vec`, or Trapped. -/
def trapStrand (x : Strand) (t now : Nat) (vec : Word) (cause : Byte) (info epc : Word) (word : IWord) : Strand :=
  let y := trapSaved x cause info epc word
  if t = 0 then
    if x.flag 6 then { y.setFlag 7 true with st := .halted, dfault := true }
    else { (y.set 2 (low48 epc)).setFlag 6 true with st := .ready, pc := vec, wait := none, readyFrom := now + 1 }
  else { (if x.holdReq then y.setFlag 8 true else y) with st := .trapped, holdReq := false, holdPort := false }

/-- The trap queue after the trap with message `m` of strand `t`. -/
def trapQueue (k : Core) (t : Nat) (m : TrapMsg) : List TrapMsg :=
  if t = 0 then (if (k.strand 0).flag 6 then k.trapQ else m :: withoutMsg 0 k.trapQ) else insertMsg m (withoutMsg t k.trapQ)

/-- Whether a trap of strand `t` is a double fault (R135). -/
def doubleFault (k : Core) (t : Nat) : Bool := decide (t = 0) && (k.strand 0).flag 6

/-- The core with a trap counted (Table 7.6). -/
def trapCounted (k : Core) (cause : Byte) : Core :=
  if cause = 0x0C then k.perfAdd 7 1 else if cause = 0x1B then k.perfAdd 10 1 else k

/-- The core after a trap of strand `t` in cycle `now`. -/
def trapCore (k : Core) (now t : Nat) (cause : Byte) (info : Word) (word : IWord) (addr epc : Word) : Core :=
  { (trapCounted k cause).modStrand t (fun x => trapStrand x t now (k.sharedLast 34) cause info epc word) with
    trapQ := trapQueue k t ⟨now, t, cause, word, low48 addr⟩ }

theorem trapCounted_body (k : Core) (cause : Byte) : { trapCounted k cause with perf := [] } = { k with perf := [] } := by
  unfold trapCounted; split
  · rfl
  · split <;> rfl

@[simp] theorem trapCounted_strand (k : Core) (cause : Byte) (t : Nat) : (trapCounted k cause).strand t = k.strand t := by
  unfold trapCounted; split
  · rfl
  · split <;> rfl

@[simp] theorem trapCounted_trapQ (k : Core) (cause : Byte) : (trapCounted k cause).trapQ = k.trapQ := by
  unfold trapCounted; split
  · rfl
  · split <;> rfl

@[simp] theorem trapCounted_shared (k : Core) (cause : Byte) : (trapCounted k cause).shared = k.shared := by
  unfold trapCounted; split
  · rfl
  · split <;> rfl

theorem modCore_congr (s : State) (c : Nat) {f g : Core → Core} (h : f (getCore s c) = g (getCore s c)) :
    modCore s c f = modCore s c g := by
  unfold modCore; rw [h]

/-- Counting a trap goes before a change of the core. -/
theorem modCore_counted (s : State) (c : Nat) (cause : Byte) (f : Core → Core) :
    modCore (if cause = 0x0C then perfAdd s c 7 1 else if cause = 0x1B then perfAdd s c 10 1 else s) c f =
      modCore s c (fun k => f (trapCounted k cause)) := by
  unfold trapCounted perfAdd
  split
  · exact modCore_modCore_self _ _ _ _
  · split
    · exact modCore_modCore_self _ _ _ _
    · rfl

/-- A trap records its cause and, when it is the timer's, takes the timer's hit (R137). -/
theorem modStrand_saved (s : State) (c t : Nat) (cause : Byte) (info epc : Word) (word : IWord) :
    (if cause = 0x16 then
        modStrand (modStrand s c t (fun x => { (x.record cause info epc word).setDbg 1 false with wait := none })) c t
          (fun x => { x with tmrHit := false })
      else modStrand s c t (fun x => { (x.record cause info epc word).setDbg 1 false with wait := none })) =
      modStrand s c t (fun x => trapSaved x cause info epc word) := by
  unfold trapSaved
  split
  · rw [modStrand_modStrand_self]
  · rfl

/-- Changing the trap queue and changing a strand come to the same in either order. -/
theorem core_modStrand_withQueue (k : Core) (q : List TrapMsg) (t : Nat) (f : Strand → Strand) :
    Core.modStrand { k with trapQ := q } t f = { k.modStrand t f with trapQ := q } := rfl

theorem core_modStrand_withQueue_congr {k : Core} {t : Nat} {f g : Strand → Strand} {p q : List TrapMsg}
    (hf : f (k.strand t) = g (k.strand t)) (hq : p = q) :
    ({ k.modStrand t f with trapQ := p } : Core) = { k.modStrand t g with trapQ := q } := by
  subst hq; unfold Core.modStrand; rw [hf]

theorem core_modStrand_eq_withQueue {k : Core} {t : Nat} {f g : Strand → Strand} {q : List TrapMsg}
    (hf : f (k.strand t) = g (k.strand t)) (hq : k.trapQ = q) :
    k.modStrand t f = { k.modStrand t g with trapQ := q } := by
  subst hq; unfold Core.modStrand; rw [hf]

/-- Taking a trap is a change of its core alone, but that a double fault is reported. -/
theorem takeTrap_eq (s : State) (c t : Nat) (cause : Byte) (info : Word) (word : IWord) (addr epc : Word) :
    takeTrap s c t cause info word addr epc =
      (let u := modCore s c (fun k => trapCore k s.now t cause info word addr epc)
      if doubleFault (getCore s c) t then reply u replyHalt [wd c] else u) := by
  unfold takeTrap
  dsimp only
  rw [modStrand_saved]
  simp only [modStrand_eq_modCore, modCore_counted, enterHandler]
  by_cases h0 : t = 0
  · subst h0
    rw [if_pos rfl]
    cases hf : ((getCore s c).strand 0).flag 6
    · have hd : doubleFault (getCore s c) 0 = false := by simp [doubleFault, hf]
      rw [getStrand, hf, hd, if_neg Bool.false_ne_true, if_neg Bool.false_ne_true]
      simp only [modCore_modCore_self, core_modStrand_withQueue, core_modStrand_modStrand_self]
      refine modCore_congr _ _ ?_
      refine core_modStrand_withQueue_congr ?_ (by simp [trapQueue, hf])
      simp [trapStrand, hf, Core.sharedLast]
    · have hd : doubleFault (getCore s c) 0 = true := by simp [doubleFault, hf]
      rw [getStrand, hf, hd, if_pos rfl, if_pos rfl, modCore_modCore_self]
      refine congrArg (fun u => reply u replyHalt [wd c]) (modCore_congr _ _ ?_)
      rw [core_modStrand_modStrand_self]
      refine core_modStrand_eq_withQueue ?_ ?_
      · simp [trapStrand, hf]
      · simp [trapQueue, hf]
  · have hd : doubleFault (getCore s c) t = false := by simp [doubleFault, h0]
    rw [if_neg h0, hd, if_neg Bool.false_ne_true]
    simp only [modCore_modCore_self, Core.message, core_modStrand_withQueue, core_modStrand_modStrand_self]
    refine modCore_congr _ _ ?_
    refine core_modStrand_withQueue_congr ?_ (by simp [trapQueue, h0])
    simp [trapStrand, h0, trapSaved]

/-! What a trap does to the strand. -/

theorem trapCore_strand_self (k : Core) (now t : Nat) (cause : Byte) (info : Word) (word : IWord) (addr epc : Word) :
    (trapCore k now t cause info word addr epc).strand t =
      trapStrand (k.strand t) t now (k.sharedLast 34) cause info epc word := by
  rw [← trapCounted_strand k cause t]
  exact strand_modStrand_self (trapCounted k cause) t (fun x => trapStrand x t now (k.sharedLast 34) cause info epc word)

theorem trapCore_strand_ne (k : Core) (now : Nat) {t u : Nat} (cause : Byte) (info : Word) (word : IWord) (addr epc : Word)
    (h : u ≠ t) : (trapCore k now t cause info word addr epc).strand u = k.strand u := by
  rw [← trapCounted_strand k cause u]
  exact strand_modStrand_ne (trapCounted k cause) (fun x => trapStrand x t now (k.sharedLast 34) cause info epc word) h

theorem getCore_takeTrap_self (s : State) (c t : Nat) (cause : Byte) (info : Word) (word : IWord) (addr epc : Word) :
    getCore (takeTrap s c t cause info word addr epc) c = trapCore (getCore s c) s.now t cause info word addr epc := by
  rw [takeTrap_eq]; dsimp only; split <;> simp

theorem getCore_takeTrap_ne (s : State) {c d : Nat} (t : Nat) (cause : Byte) (info : Word) (word : IWord) (addr epc : Word)
    (h : d ≠ c) : getCore (takeTrap s c t cause info word addr epc) d = getCore s d := by
  rw [takeTrap_eq]; dsimp only; split <;> simp [getCore_modCore_ne _ _ h]

theorem getStrand_takeTrap_self (s : State) (c t : Nat) (cause : Byte) (info : Word) (word : IWord) (addr epc : Word) :
    getStrand (takeTrap s c t cause info word addr epc) c t =
      trapStrand (getStrand s c t) t s.now ((getCore s c).sharedLast 34) cause info epc word := by
  rw [getStrand, getCore_takeTrap_self, trapCore_strand_self]; rfl

theorem getStrand_takeTrap_ne (s : State) (c : Nat) {t u : Nat} (cause : Byte) (info : Word) (word : IWord) (addr epc : Word)
    (h : u ≠ t) : getStrand (takeTrap s c t cause info word addr epc) c u = getStrand s c u := by
  rw [getStrand, getCore_takeTrap_self, trapCore_strand_ne _ _ _ _ _ _ _ h]; rfl

theorem takeTrap_outside (s : State) (c t : Nat) (cause : Byte) (info : Word) (word : IWord) (addr epc : Word) :
    { takeTrap s c t cause info word addr epc with cores := [], replies := [] } = { s with cores := [], replies := [] } := by
  rw [takeTrap_eq]; dsimp only; split <;> rfl

theorem takeTrap_mem (s : State) (c t : Nat) (cause : Byte) (info : Word) (word : IWord) (addr epc : Word) :
    (takeTrap s c t cause info word addr epc).mem = s.mem :=
  (congrArg State.mem (takeTrap_outside s c t cause info word addr epc) :)

theorem trapCore_body (k : Core) (now t : Nat) (cause : Byte) (info : Word) (word : IWord) (addr epc : Word) :
    { trapCore k now t cause info word addr epc with strands := [], trapQ := [], perf := [] } =
      { k with strands := [], trapQ := [], perf := [] } :=
  congrArg (fun k : Core => { k with strands := [], trapQ := [] }) (trapCounted_body k cause)

theorem takeTrap_bytes (s : State) (c t : Nat) (cause : Byte) (info : Word) (word : IWord) (addr epc : Word) :
    BytesSame s (takeTrap s c t cause info word addr epc) := by
  refine ⟨fun a => by rw [takeTrap_mem], fun d a => ?_⟩
  unfold lsRead
  by_cases h : d = c
  · subst h
    rw [getCore_takeTrap_self]
    exact (congrArg (fun k : Core => k.ls.read a) (trapCore_body (getCore s d) s.now t cause info word addr epc) :)
  · rw [getCore_takeTrap_ne _ _ _ _ _ _ _ h]

/-- The control registers that a trap may write: cr.stat, cr.cause, cr.epc, cr.einst and cr.dbg. -/
theorem trapStrand_get (x : Strand) (t now : Nat) (vec : Word) (cause : Byte) (info epc : Word) (word : IWord) {n : Nat}
    (h : n ∉ [0, 1, 2, 3, 19]) : (trapStrand x t now vec cause info epc word).get n = x.get n := by
  simp only [List.mem_cons, List.not_mem_nil, or_false, not_or] at h
  obtain ⟨h0, h1, h2, h3, h19⟩ := h
  have hy : (trapSaved x cause info epc word).get n = x.get n :=
    (setDbg_get_ne _ _ _ h19).trans (record_get_ne _ _ _ _ _ h1 h2 h3)
  unfold trapStrand
  split
  · split
    · exact (setFlag_get_ne _ _ _ h0).trans hy
    · exact ((setFlag_get_ne _ _ _ h0).trans (get_set_ne _ _ h2)).trans hy
  · split
    · exact (setFlag_get_ne _ _ _ h0).trans hy
    · exact hy

theorem trapSaved_get {x : Strand} {cause : Byte} {info epc : Word} {word : IWord} :
    (trapSaved x cause info epc word).get 1 = causeWord cause info ∧ (trapSaved x cause info epc word).get 2 = low48 epc ∧
      (trapSaved x cause info epc word).get 3 = wd word.toNat ∧ (trapSaved x cause info epc word).get 0 = x.get 0 :=
  ⟨(setDbg_get_ne _ _ _ (by decide)).trans (record_get_cause ..), (setDbg_get_ne _ _ _ (by decide)).trans (record_get_epc ..),
    (setDbg_get_ne _ _ _ (by decide)).trans (record_get_einst ..),
    (setDbg_get_ne _ _ _ (by decide)).trans (record_get_ne _ _ _ _ _ (by decide) (by decide) (by decide))⟩

/-- cr.cause, cr.epc and cr.einst after a trap. -/
theorem trapStrand_record (x : Strand) (t now : Nat) (vec : Word) (cause : Byte) (info epc : Word) (word : IWord) :
    let y := trapStrand x t now vec cause info epc word
    y.get 1 = causeWord cause info ∧ y.get 2 = low48 epc ∧ y.get 3 = wd word.toNat := by
  obtain ⟨h1, h2, h3, -⟩ := @trapSaved_get x cause info epc word
  dsimp only
  unfold trapStrand
  split
  · split
    · exact ⟨(setFlag_get_ne _ _ _ (by decide)).trans h1, (setFlag_get_ne _ _ _ (by decide)).trans h2,
        (setFlag_get_ne _ _ _ (by decide)).trans h3⟩
    · exact ⟨((setFlag_get_ne _ _ _ (by decide)).trans (get_set_ne _ _ (by decide))).trans h1,
        (setFlag_get_ne _ _ _ (by decide)).trans (get_set_self _ _ _),
        ((setFlag_get_ne _ _ _ (by decide)).trans (get_set_ne _ _ (by decide))).trans h3⟩
  · split
    · exact ⟨(setFlag_get_ne _ _ _ (by decide)).trans h1, (setFlag_get_ne _ _ _ (by decide)).trans h2,
        (setFlag_get_ne _ _ _ (by decide)).trans h3⟩
    · exact ⟨h1, h2, h3⟩

theorem recorded_of_get {y : Strand} {cause : Byte} {info epc : Word} {word : IWord}
    (h : y.get 1 = causeWord cause info ∧ y.get 2 = low48 epc ∧ y.get 3 = wd word.toNat) : Recorded y cause info epc word := by
  obtain ⟨h1, h2, h3⟩ := h
  have hc := cause.isLt
  have hi := Nat.mod_lt info.toNat (show 0 < 2 ^ 48 by decide)
  have he := Nat.mod_lt epc.toNat (show 0 < 2 ^ 48 by decide)
  have hw := word.isLt
  unfold Recorded
  rw [h1, h2, h3]
  simp only [causeWord, low48, wd, bits, BitVec.toNat_ofNat]
  refine ⟨?_, ?_, ?_, ?_⟩ <;> omega

theorem trapStrand_recorded (x : Strand) (t now : Nat) (vec : Word) (cause : Byte) (info epc : Word) (word : IWord) :
    Recorded (trapStrand x t now vec cause info epc word) cause info epc word := recorded_of_get (trapStrand_record ..)

/-- A trap leaves pointers, predicates, nest indices and the data of posted reductions, and ends the wait. -/
theorem trapStrand_body (x : Strand) (t now : Nat) (vec : Word) (cause : Byte) (info epc : Word) (word : IWord) :
    let y := trapStrand x t now vec cause info epc word
    y.ptrs = x.ptrs ∧ y.preds = x.preds ∧ y.kidx = x.kidx ∧ y.badOld = x.badOld ∧ y.wait = none := by
  dsimp only
  unfold trapStrand
  split
  · split <;> exact ⟨rfl, rfl, rfl, rfl, rfl⟩
  · split <;> exact ⟨rfl, rfl, rfl, rfl, rfl⟩

/-- A trap touches no register. -/
theorem rd_takeTrap (s : State) (cx : Ctx) (cause : Byte) (info : Word) (word : IWord) (addr epc : Word) (o : Opnd) :
    rd (takeTrap s cx.core cx.strand cause info word addr epc) cx o = rd s cx o := by
  have hnow : (takeTrap s cx.core cx.strand cause info word addr epc).now = s.now :=
    (congrArg State.now (takeTrap_outside s cx.core cx.strand cause info word addr epc) :)
  have hbody := trapCore_body (getCore s cx.core) s.now cx.strand cause info word addr epc
  rw [← getCore_takeTrap_self] at hbody
  have hrf : (getCore (takeTrap s cx.core cx.strand cause info word addr epc) cx.core).rf = (getCore s cx.core).rf :=
    (congrArg Core.rf hbody :)
  have hsh : (getCore (takeTrap s cx.core cx.strand cause info word addr epc) cx.core).shared = (getCore s cx.core).shared :=
    (congrArg Core.shared hbody :)
  have hx := getStrand_takeTrap_self s cx.core cx.strand cause info word addr epc
  obtain ⟨hp, hq, hk, -, -⟩ := trapStrand_body (getStrand s cx.core cx.strand) cx.strand s.now ((getCore s cx.core).sharedLast 34) cause info epc word
  have hb := trapStrand_get (getStrand s cx.core cx.strand) cx.strand s.now ((getCore s cx.core).sharedLast 34) cause info epc word (n := 4) (by decide)
  rw [← hx] at hp hq hk hb
  unfold getStrand at hp hq hk hb
  cases o <;> simp [rd, hrf, hsh, hnow, Core.sharedRead, Strand.base, Strand.ptr, Strand.kreg, Strand.pred, hp, hq, hk, hb]

theorem takeTrap_untouched (s : State) (c u : Nat) (cause : Byte) (info : Word) (word : IWord) (addr epc : Word) :
    Untouched s (takeTrap s c u cause info word addr epc) c u where
  bytes := takeTrap_bytes ..
  others := ⟨fun _ hd => getCore_takeTrap_ne _ _ _ _ _ _ _ hd, fun _ hv => getStrand_takeTrap_ne _ _ _ _ _ _ _ hv⟩
  registers := by rintro cx rfl rfl o; exact rd_takeTrap ..
  core := by
    rw [getCore_takeTrap_self]
    exact (congrArg untrapped (trapCore_body (getCore s c) s.now u cause info word addr epc) :)
  outside := takeTrap_outside ..

/-- A message takes its place behind those that it does not precede (R130). -/
theorem insertMsg_splits (m : TrapMsg) (q : List TrapMsg) : ∃ before after, q = before ++ after ∧
    insertMsg m q = before ++ m :: after ∧ (∀ y ∈ before, ¬ earlier m y) ∧ ∀ y ∈ after.head?, earlier m y := by
  induction q with
  | nil => exact ⟨[], [], rfl, rfl, nofun, nofun⟩
  | cons x xs ih =>
    by_cases h : earlier m x
    · exact ⟨[], x :: xs, rfl, if_pos h, nofun, fun y hy => by cases hy; exact h⟩
    · obtain ⟨before, after, hq, hi, hb, ha⟩ := ih
      refine ⟨x :: before, after, by rw [hq]; rfl, ?_, fun y hy => ?_, ha⟩
      · exact (if_neg h).trans (congrArg (x :: ·) hi)
      · rcases List.mem_cons.mp hy with rfl | hy
        · exact h
        · exact hb y hy

/-- R130, R134, R135: what taking a trap does to the strand, to the queue and to nothing else. -/
theorem takeTrap_effect (s : State) (c u : Nat) (cause : Byte) (info : Word) (word : IWord) (addr epc : Word) :
    TrapEffect s (takeTrap s c u cause info word addr epc) c u cause info word addr epc where
  recorded := by rw [getStrand_takeTrap_self]; exact trapStrand_recorded ..
  untouched := takeTrap_untouched ..
  waits := by rw [getStrand_takeTrap_self]; exact (trapStrand_body ..).2.2.2.2
  other := by
    intro hu
    obtain ⟨before, after, hq, hi, hb, ha⟩ := insertMsg_splits ⟨s.now, u, cause, word, low48 addr⟩ (withoutMsg u (getCore s c).trapQ)
    rw [getStrand_takeTrap_self, getCore_takeTrap_self]
    refine ⟨by simp [trapStrand, hu], ?_, before, after, hq, ?_, hb, ha⟩
    · simp only [trapStrand, hu, if_false]; split <;> rfl
    · simp [trapCore, trapQueue, hu, hi]
  zero := by
    rintro rfl hf
    rw [getStrand_takeTrap_self, getCore_takeTrap_self]
    have hk : ((getCore s c).strand 0).flag 6 = false := hf
    rw [trapCore, trapQueue, trapStrand, if_pos rfl, if_pos rfl, hf, hk]
    exact ⟨rfl, (flag_setFlag _ 6 6 true (by decide)).trans (if_pos rfl), rfl, rfl⟩
  double := by
    rintro rfl hf
    rw [getStrand_takeTrap_self, getCore_takeTrap_self]
    have hk : ((getCore s c).strand 0).flag 6 = true := hf
    have hsaved : (trapSaved (getStrand s c 0) cause info epc word).flag 6 = true := by
      rw [Strand.flag, trapSaved_get.2.2.2]; exact hf
    refine ⟨?_, ?_, ?_, ?_, ?_⟩
    · simp [trapStrand, hf]
    · simp only [trapStrand, hf, if_true]
      exact (flag_setFlag _ 7 7 true (by decide)).trans (if_pos rfl)
    · simp only [trapStrand, hf, if_true]
      exact (flag_setFlag _ 7 6 true (by decide)).trans hsaved
    · simp [trapCore, trapQueue, hk]
    · rw [takeTrap_eq]; simp [doubleFault, hk]

end Sys2Proof.Proofs
end

section
namespace Sys2Proof.Proofs

open Sys2Proof.Machine Sys2Proof.Laws Sys2Proof.Claims

/-! The fetch of a chain that is there (R46, R59, R60). -/

theorem leafOf_barred {e : Word} {va size : Nat} {l : TLeaf} (h : leafOf e va size = some l) : l.barred = [] := by
  unfold leafOf at h
  split at h
  · cases h; rfl
  · cases h

/-- A leaf that a walk gives bars no core. -/
theorem walk_barred {s : State} {va : Nat} {l : TLeaf} (h : walk s va = some l) : l.barred = [] := by
  unfold walk at h
  dsimp only at h
  repeat' split at h
  all_goals first | exact leafOf_barred h | cases h

/-- A leaf that stands as the table has it translates as it stands (R238). -/
theorem freshLeaf_of_walk {s : State} {va : Nat} {l : TLeaf} (h : walk s va = some l) : freshLeaf s l va = some l := by
  have hl : { l with barred := [] } = l := by rw [← walk_barred h]
  unfold freshLeaf
  rw [hl, if_pos h]

theorem not_inAperture {pa : Nat} (h : pa < 0x6000000000) : inAperture pa = false := by
  have hbase : ¬ apertureBase ≤ pa := by unfold apertureBase; omega
  simp [inAperture, hbase]

theorem leafText_of_hbm {l : TLeaf} {a : Word} (hattr : entAttr l.entry < 2) (hx : entX l.entry = true)
    (hpa : l.pa a.toNat < 0x6000000000) : leafText (some l) a = .ok (l.pa a.toNat) := by
  have hin : inHbm (l.pa a.toNat) = true := decide_eq_true hpa
  simp [leafText, Nat.not_le.mpr hattr, hin, not_inAperture hpa, hx]

/-- The fetch reads a word of text that is there, from a line of the instruction cache. -/
theorem fetchText_of_textAt {s : State} {c : Nat} {va : Word} {w : IWord} (bad : Option Nat) (h : TextAt s c va w) :
    ∃ pa, fetchText s c bad va = some (.ok pa) ∧ textWord s pa = w ∧ pa / 256 ∈ (getCore s c).icache := by
  obtain ⟨hva, l, pa, k, hwalk, hbuf, rfl, hattr, hx, hpa, hline, hw⟩ := h
  refine ⟨l.pa va.toNat, ?_, ?_, hline⟩
  · simp [fetchText, hva, hbuf, freshLeaf_of_walk hwalk, leafText_of_hbm hattr hx hpa]
  · unfold textWord memRead
    rw [not_inAperture hpa, if_neg Bool.false_ne_true]
    change BitVec.ofNat 16 (s.mem.num (l.pa va.toNat) 2) = w
    rw [hw]; simp

/-- One word decides a chain, or it is one more extension word of at most four. -/
theorem decodeFrom_cons_cases (q : Prefixes) (w : IWord) :
    (∃ d, d ≠ .more ∧ ∀ ws, decodeFrom q (w :: ws) = d) ∨
    (q.count < 4 ∧ ∀ ws, decodeFrom q (w :: ws) = decodeFrom (q.add w) ws) := by
  simp only [decodeFrom]
  by_cases hp : isPrefix w = true
  · simp only [hp, if_true]
    by_cases h4 : 4 ≤ q.count
    · exact .inl ⟨.illegal w, nofun, fun _ => if_pos h4⟩
    · simp only [h4, if_false]
      by_cases hr : (prefixRank w < q.rank || (prefixRank w == q.rank && q.rank != 4)) = true
      · exact .inl ⟨.illegal w, nofun, fun _ => if_pos hr⟩
      · simp only [hr]
        by_cases hb : prefixBad w = true
        · exact .inl ⟨.illegal w, nofun, fun _ => if_pos hb⟩
        · exact .inr ⟨by omega, fun _ => if_neg hb⟩
  · simp only [hp]
    cases hd : decodeBase q w with
    | some i => exact .inl ⟨.ok i (2 * q.count + 2) w, nofun, fun _ => rfl⟩
    | none => exact .inl ⟨.illegal w, nofun, fun _ => rfl⟩

theorem add_count (q : Prefixes) (w : IWord) : (q.add w).count = q.count + 1 := by
  unfold Prefixes.add; dsimp only; split <;> rfl

/-- A fetch ends when the chain is whole. -/
theorem fetchFrom_done (s : State) (c : Nat) (bad : Option Nat) (a : Word) {ws : List IWord} (n : Nat)
    (hne : ws ≠ []) (hd : decode ws ≠ .more) : fetchFrom s c bad chainOpen a ws [] n = .words ws := by
  cases n with
  | zero => rfl
  | succ n =>
    have hopen : chainOpen ws = false := by
      unfold chainOpen; split
      · exact absurd ‹_› hd
      · rfl
    have hmore : needsMore chainOpen ws = false := by
      rw [needsMore, hopen, Bool.or_false]; exact List.isEmpty_eq_false_iff.mpr hne
    simp [fetchFrom, hmore]

/-- A fetch takes a word of text that is there while the chain is not whole. -/
theorem fetchFrom_step {s : State} {c : Nat} (bad : Option Nat) {a : Word} {ws : List IWord} {w : IWord} (n : Nat)
    (hd : decode ws = .more) (h : TextAt s c a w) :
    fetchFrom s c bad chainOpen a ws [] (n + 1) = fetchFrom s c bad chainOpen (a + 2) (ws ++ [w]) [] n := by
  obtain ⟨pa, hf, hw, hline⟩ := fetchText_of_textAt bad h
  have hmore : needsMore chainOpen ws = true := by simp [needsMore, chainOpen, hd]
  simp [fetchFrom, hmore, hf, hw, hline]

/-- From the words `pre` on, which are prefixes, the fetch reads on as far as the chain `pre ++ rest` goes. -/
theorem fetchFrom_chain {s : State} {c : Nat} (bad : Option Nat) (rest : List IWord) :
    ∀ (pre : List IWord) (q : Prefixes) (a : Word), (∀ ws, decode (pre ++ ws) = decodeFrom q ws) → q.count ≤ 4 →
      (∀ (j : Nat) (w : IWord), rest[j]? = some w → TextAt s c (a + BitVec.ofNat 64 (2 * j)) w) → decodeFrom q rest ≠ .more →
      ∃ ws, fetchFrom s c bad chainOpen a pre [] (5 - q.count) = .words ws ∧ decode ws = decodeFrom q rest := by
  induction rest with
  | nil => exact fun _ _ _ _ _ _ hne => absurd rfl hne
  | cons w rest ih =>
    intro pre q a hpre hcount htext hne
    have hw : TextAt s c a w := by simpa using htext 0 w rfl
    have hopen : decode pre = .more := by simpa [decodeFrom] using hpre []
    rw [show 5 - q.count = (4 - q.count) + 1 by omega, fetchFrom_step bad _ hopen hw]
    rcases decodeFrom_cons_cases q w with ⟨d, hd, hall⟩ | ⟨h4, hadd⟩
    · have hwhole : decode (pre ++ [w]) = d := (hpre [w]).trans (hall [])
      exact ⟨pre ++ [w], fetchFrom_done s c bad _ _ (by simp) (by rw [hwhole]; exact hd), by rw [hwhole, hall]⟩
    · have hfuel : 4 - q.count = 5 - (q.add w).count := by rw [add_count]; omega
      rw [hfuel, hadd]
      rw [hadd] at hne
      refine ih (pre ++ [w]) (q.add w) (a + 2) (fun ws => ?_) (by rw [add_count]; omega) (fun j v hj => ?_) hne
      · rw [List.append_assoc, hpre]; exact hadd ws
      · have h := htext (j + 1) v hj
        have he : a + BitVec.ofNat 64 (2 * (j + 1)) = a + 2 + BitVec.ofNat 64 (2 * j) := by
          apply BitVec.eq_of_toNat_eq; simp [BitVec.toNat_add]; omega
        rwa [he] at h

/-- The fetch of a chain that is there gives its words (R59). -/
theorem fetchChain_of_chainAt {s : State} {c : Nat} {x : Strand} {ws : List IWord} (h : ChainAt s c x.pc ws)
    (hd : decode ws ≠ .more) : ∃ ws', fetchChain s c x = .words ws' ∧ decode ws' = decode ws :=
  fetchFrom_chain x.badText ws [] {} x.pc (fun _ => rfl) (by decide) h hd

end Sys2Proof.Proofs
end

section
namespace Sys2Proof.Proofs

open Sys2Proof.Machine Sys2Proof.Laws Sys2Proof.Claims

/-! The rotation (R18): the strand that issues next is the one that takes its core's slot. -/

/-- The search finds the first eligible strand when no automatic start stands in its way. -/
theorem search_finds {s : State} {c : Nat} {f : Fetched} (hdisp : dispatchDue s c = false) :
    ∀ (k n t : Nat), k < n → t < 16 → (∀ j, j < k → eligible s c ((t + j) % 16) = none) → eligible s c ((t + k) % 16) = some f →
      search s c n t = some (.strand ((t + k) % 16) f) := by
  intro k
  induction k with
  | zero =>
    intro n t hn ht _ hk
    obtain ⟨m, rfl⟩ : ∃ m, n = m + 1 := ⟨n - 1, by omega⟩
    simp only [Nat.add_zero, Nat.mod_eq_of_lt ht] at hk ⊢
    simp [search, hdisp, hk]
  | succ k ih =>
    intro n t hn ht hbefore hk
    obtain ⟨m, rfl⟩ : ∃ m, n = m + 1 := ⟨n - 1, by omega⟩
    have hshift : ∀ j, ((t + 1) % 16 + j) % 16 = (t + (j + 1)) % 16 := fun j => by omega
    have hfirst : eligible s c t = none := by
      have h := hbefore 0 (by omega)
      rwa [Nat.add_zero, Nat.mod_eq_of_lt ht] at h
    have hrest := ih m ((t + 1) % 16) (by omega) (Nat.mod_lt _ (by decide))
      (fun j hj => by rw [hshift]; exact hbefore (j + 1) (by omega)) (by rw [hshift]; exact hk)
    rw [hshift] at hrest
    simp [search, hdisp, hfirst, hrest]

/-- A core that has been started is listed. -/
theorem mem_cores_of_started {s : State} {c : Nat} (h : (getCore s c).started = true) : ∃ k, (c, k) ∈ s.cores := by
  by_contra hno
  have habsent : ∀ l : List (Nat × Core), (∀ k, (c, k) ∉ l) → getK ({} : Core) l c = {} := by
    intro l
    induction l with
    | nil => exact fun _ => rfl
    | cons e t ih =>
      intro hl
      have hne : ¬ c = e.1 := fun he => hl e.2 (by rw [he]; exact List.mem_cons_self)
      simpa [getK, hne] using ih (fun k hk => hl k (List.mem_cons_of_mem _ hk))
  have hcore : getCore s c = {} := habsent s.cores (fun k hk => hno ⟨k, hk⟩)
  rw [hcore] at h
  exact Bool.false_ne_true h

/-- The next issue is that of the first core whose turn it is and that has something to issue. -/
theorem nextIssue_finds {s : State} {c from_ : Nat} {x : Slotted} (hlisted : ∃ k, (c, k) ∈ s.cores)
    (horder : (s.cores.map (fun e => e.1)).Pairwise (· < ·)) (hfrom : from_ ≤ c)
    (hbelow : ∀ e ∈ s.cores, e.1 < c → from_ ≤ e.1 → coreSlot s e.1 = none) (hslot : coreSlot s c = some x) :
    nextIssue s from_ = some (c, x) := by
  obtain ⟨k, hk⟩ := hlisted
  obtain ⟨before, after, hl⟩ := List.append_of_mem hk
  rw [nextIssue, List.findSome?_eq_some_iff]
  refine ⟨before, (c, k), after, hl, by simp [hfrom, hslot], fun e he => ?_⟩
  have hlt : e.1 < c := by
    rw [hl, List.map_append, List.pairwise_append] at horder
    exact horder.2.2 e.1 (List.mem_map_of_mem he) c (by simp)
  dsimp only
  split
  · rw [hbelow e (by rw [hl]; exact List.mem_append_left _ he) hlt ‹_›]; rfl
  · rfl

theorem eligible_of_fetched {s : State} {c u : Nat} {ws : List IWord} (hready : (getStrand s c u).st = .ready)
    (hspaced : ∀ l, (getStrand s c u).last = some l → l + 8 ≤ s.now) (hagain : (getStrand s c u).readyFrom ≤ s.now)
    (hstill : transferring s c u = false) (hf : fetchChain s c (getStrand s c u) = .words ws) :
    eligible s c u = some (.words ws) := by
  have hsp : spaced (getStrand s c u) s.now = true := by
    unfold spaced; split
    · exact decide_eq_true (hspaced _ ‹_›)
    · rfl
  simp [eligible, hready, hsp, hagain, hstill, hf]

/-- A step with the strand that issues next lets it use its slot, with a chain that decodes as the text at its pc does. -/
theorem step_of_issuesNext {s : State} {c u : Nat} {ws : List IWord} (h : IssuesNext s c u)
    (htext : ChainAt s c (getStrand s c u).pc ws) (hd : decode ws ≠ .more) :
    ∃ ws', decode ws' = decode ws ∧ step s = runSlot { s with fresh := s.fresh + 1, turn := c + 2 } c u (.words ws') := by
  obtain ⟨hrun, ⟨hturn, hc⟩, hin, hstarted, horder, hbelow, hready, hagain, hspaced, hstill, ⟨k, hk, hu, hfirst⟩, hdisp⟩ := h
  let n : State := { s with fresh := s.fresh + 1 }
  obtain ⟨ws', hf, hws⟩ : ∃ ws', fetchChain n c (getStrand n c u) = .words ws' ∧ decode ws' = decode ws :=
    fetchChain_of_chainAt (s := n) htext hd
  have hel : eligible n c u = some (.words ws') := eligible_of_fetched hready hspaced hagain hstill hf
  have hauto : dispatchDue n c = false := by
    have : autoTask n c = none := hdisp
    simp [dispatchDue, autoStart, this]
  have hshift : ∀ j, (((getCore n c).lastIssuer + 1) % 16 + j) % 16 = ((getCore s c).lastIssuer + 1 + j) % 16 :=
    fun j => Nat.mod_add_mod _ 16 j
  have hslot : coreSlot n c = some (.strand u (.words ws')) := by
    have hst : (getCore n c).started = true := hstarted
    have hs := search_finds hauto k 16 (((getCore n c).lastIssuer + 1) % 16) hk (Nat.mod_lt _ (by decide))
      (fun j hj => by rw [hshift]; exact hfirst j hj) (f := .words ws') (by rw [hshift, ← hu]; exact hel)
    rw [hshift, ← hu] at hs
    simp [coreSlot, hst, hs]
  have hnext : nextIssue n (s.turn - 1) = some (c, .strand u (.words ws')) :=
    nextIssue_finds (mem_cores_of_started hstarted) horder (by omega) hbelow hslot
  have hissue : issueStep n = runSlot { s with fresh := s.fresh + 1, turn := c + 2 } c u (.words ws') := by
    have ht : n.turn = s.turn := rfl
    simp only [issueStep, ht, hnext, issueOn]; rfl
  have halarm : alarmed n = false := by
    unfold alarmed; split
    · exact absurd ‹_› (hrun _)
    · rfl
  refine ⟨ws', hws, ?_⟩
  rw [← hissue]
  show stepOnce n = _
  by_cases h0 : s.turn = 0
  · have hstart : startEvent n = none := hin h0
    have ht : n.turn = 0 := h0
    simp [stepOnce, halarm, ht, hstart]
  · have ht : n.turn = s.turn := rfl
    simp [stepOnce, halarm, ht, h0, show s.turn ≤ 1024 by omega]

/-! The state of an issue. -/

/-- The core's buffer once the text at an address has been translated (R236). -/
def textBuffer (s : State) (c : Nat) (pc : Word) : List TLeaf :=
  match buffered s c pc.toNat with
  | some (l, t) => if t = 0 then (getCore s c).tlb else fillLeaf 64 (pickN s 6 0 63) l (getCore s c).tlb
  | none => (getCore s c).tlb

/-- The strand once it has its core's slot. -/
def slotStrand (x : Strand) (now : Nat) : Strand := { x with last := some now, badText := none, launched := false, pages := [] }

/-- The core once strand `u` has its slot in cycle `now`. -/
def slotCore (k : Core) (u now : Nat) (buffer : List TLeaf) : Core :=
  { k.modStrand u (fun x => slotStrand x now) with lastIssuer := u, tlb := buffer }

theorem takeSlot_useText (s : State) (c u : Nat) (pc : Word) :
    takeSlot (useText s c pc) c u = modCore s c (fun k => slotCore k u s.now (textBuffer s c pc)) := by
  unfold takeSlot
  cases hb : buffered s c pc.toNat with
  | none =>
    simp only [useText, textBuffer, hb]
    exact modCore_congr _ _ rfl
  | some lt =>
    obtain ⟨l, t⟩ := lt
    by_cases ht : t = 0
    · simp only [useText, textBuffer, hb, useLeaf, ht, if_true]
      exact modCore_congr _ _ rfl
    · simp only [useText, textBuffer, hb, useLeaf, ht, if_false, fillCore, modCore_modCore_self]
      exact modCore_congr _ _ rfl

/-- The context of an issue. -/
def issueCtx (s : State) (c u : Nat) (w : IWord) (len : Nat) : Ctx :=
  { core := c, strand := u, addr := (getStrand s c u).pc, len, word := w, xb := (getStrand s c u).flag 5, at_ := s.now }

theorem atIssue_eq (s : State) (c u : Nat) (w : IWord) (len : Nat) :
    atIssue s c u w len =
      { modCore s c (fun k => slotCore k u s.now (textBuffer s c (getStrand s c u).pc)) with cur := issueCtx s c u w len } := by
  unfold atIssue; dsimp only; rw [takeSlot_useText]
  rfl

/-- The core of an issue, the instruction counted. -/
def issuedCore (k : Core) (u now : Nat) : Core := ((k.noteIssue now).perfAdd 0 1).modStrand u (fun x => x.setFlag 5 false)

theorem issued_atIssue_eq (s : State) (c u : Nat) (w : IWord) (len : Nat) :
    issued (atIssue s c u w len) =
      { modCore s c (fun k => issuedCore (slotCore k u s.now (textBuffer s c (getStrand s c u).pc)) u s.now) with
        cur := issueCtx s c u w len } := by
  rw [atIssue_eq]
  have h := modCore_modCore_self s c (fun k => slotCore k u s.now (textBuffer s c (getStrand s c u).pc)) (fun k => issuedCore k u s.now)
  rw [← h]
  unfold issued noteIssued
  rw [modStrand_eq_modCore, modCore_modCore_self]
  rfl

theorem slotCore_strand_self (k : Core) (u now : Nat) (b : List TLeaf) :
    (slotCore k u now b).strand u = slotStrand (k.strand u) now := strand_modStrand_self k u (fun x => slotStrand x now)

theorem slotCore_strand_ne (k : Core) {u v : Nat} (now : Nat) (b : List TLeaf) (h : v ≠ u) :
    (slotCore k u now b).strand v = k.strand v := strand_modStrand_ne k (fun x => slotStrand x now) h

theorem noteIssue_strands (k : Core) (now : Nat) : (k.noteIssue now).strands = k.strands := by
  unfold Core.noteIssue; split <;> rfl

theorem noteIssue_body (k : Core) (now : Nat) : { k.noteIssue now with perf := [], busyAt := none } = { k with perf := [], busyAt := none } := by
  unfold Core.noteIssue; split <;> rfl

theorem issuedCore_strand_self (k : Core) (u now : Nat) : (issuedCore k u now).strand u = (k.strand u).setFlag 5 false := by
  rw [issuedCore, strand_modStrand_self]
  exact congrArg (fun l => (getK (Strand.init u) l u).setFlag 5 false) (noteIssue_strands k now)

theorem issuedCore_strand_ne (k : Core) {u v : Nat} (now : Nat) (h : v ≠ u) : (issuedCore k u now).strand v = k.strand v := by
  rw [issuedCore, strand_modStrand_ne _ _ h]
  exact congrArg (fun l => getK (Strand.init v) l v) (noteIssue_strands k now)

theorem noteIssue_perf_ne (k : Core) (now : Nat) {j : Nat} (h : j ≠ 1) : getK 0 (k.noteIssue now).perf j = getK 0 k.perf j := by
  unfold Core.noteIssue; split
  · rfl
  · exact getK_setK_ne _ _ _ h

/-- ISSUED counts an instruction, EMPTY does not count its cycle, and no other counter changes (Table 7.6). -/
theorem issuedCore_counts (k : Core) (u now : Nat) :
    getK 0 (issuedCore k u now).perf 0 = getK 0 k.perf 0 + 1 ∧
    (k.busyAt ≠ some now → getK 0 (issuedCore k u now).perf 1 = getK 0 k.perf 1 + 1) ∧
    ∀ j, 2 ≤ j → getK 0 (issuedCore k u now).perf j = getK 0 k.perf j := by
  refine ⟨?_, fun hb => ?_, fun j hj => ?_⟩
  · show getK 0 (setK (k.noteIssue now).perf 0 _) 0 = _
    rw [getK_setK_self, noteIssue_perf_ne _ _ (by decide)]; rfl
  · show getK 0 (setK (k.noteIssue now).perf 0 _) 1 = _
    rw [getK_setK_ne _ _ _ (by decide), Core.noteIssue, if_neg hb]
    exact getK_setK_self _ _ _ _
  · show getK 0 (setK (k.noteIssue now).perf 0 _) j = _
    rw [getK_setK_ne _ _ _ (by omega), noteIssue_perf_ne _ _ (by omega)]

theorem mem_fillLeaf (cap out : Nat) (l : TLeaf) (b : List TLeaf) : l ∈ fillLeaf cap out l b := by
  unfold fillLeaf; dsimp only; split <;> simp

/-- A leaf of the core's own buffer is used before the loom's, and the buffer stays. -/
theorem textBuffer_of_covered {s : State} {c : Nat} {pc : Word} (h : ∃ l ∈ (getCore s c).tlb, l.covers pc.toNat = true) :
    textBuffer s c pc = (getCore s c).tlb := by
  obtain ⟨l, hl, hc⟩ := h
  cases hf : (getCore s c).tlb.find? (fun l => l.covers pc.toNat) with
  | none => exact absurd hc (by simpa using List.find?_eq_none.mp hf l hl)
  | some m => simp [textBuffer, buffered, hf]

/-- Text that some buffer translates is held by the core's buffer once it is used (R236). -/
theorem textBuffer_covers {s : State} {c k : Nat} {pc : Word} {l : TLeaf} (h : buffered s c pc.toNat = some (l, k)) :
    ∃ m ∈ textBuffer s c pc, m.covers pc.toNat = true := by
  unfold textBuffer
  rw [h]
  unfold buffered at h
  split at h
  · cases h
    exact ⟨l, List.mem_of_find?_eq_some ‹_›, List.find?_some (p := fun l : TLeaf => l.covers pc.toNat) ‹_›⟩
  · split at h
    · cases h
      have hm := List.find?_some ‹_›
      simp only [Bool.and_eq_true] at hm
      exact ⟨_, mem_fillLeaf _ _ _ _, hm.1⟩
    · cases h

theorem issuedCore_body (k : Core) (u now : Nat) :
    { issuedCore k u now with strands := [], perf := [], busyAt := none } = { k with strands := [], perf := [], busyAt := none } :=
  (congrArg (fun k : Core => { k with strands := [] }) (noteIssue_body k now) :)

theorem getCore_atIssue_self (s : State) (c u : Nat) (w : IWord) (len : Nat) :
    getCore (atIssue s c u w len) c = slotCore (getCore s c) u s.now (textBuffer s c (getStrand s c u).pc) := by
  rw [atIssue_eq]; exact getCore_modCore_self s c (fun k => slotCore k u s.now (textBuffer s c (getStrand s c u).pc))

theorem getCore_atIssue_ne (s : State) {c d : Nat} (u : Nat) (w : IWord) (len : Nat) (h : d ≠ c) :
    getCore (atIssue s c u w len) d = getCore s d := by
  rw [atIssue_eq]; exact getCore_modCore_ne s (fun k => slotCore k u s.now (textBuffer s c (getStrand s c u).pc)) h

/-- A strand has its core's slot: nothing is counted yet. -/
theorem atIssue_issuing {s : State} {c u k : Nat} {l : TLeaf} (w : IWord) (len : Nat)
    (h : buffered s c (getStrand s c u).pc.toNat = some (l, k)) :
    Issuing s (atIssue { s with fresh := s.fresh + 1, turn := c + 2 } c u w len) c u len w false := by
  let n : State := { s with fresh := s.fresh + 1, turn := c + 2 }
  have hself : getCore (atIssue n c u w len) c = slotCore (getCore s c) u s.now (textBuffer n c (getStrand s c u).pc) :=
    getCore_atIssue_self n c u w len
  exact {
    cur := by rw [atIssue_eq]; rfl
    strand := by rw [getStrand, hself, slotCore_strand_self]; rfl
    others := fun v hv => by rw [getStrand, hself, slotCore_strand_ne _ _ _ hv]; rfl
    cores := fun d hd => getCore_atIssue_ne n u w len hd
    issuer := by rw [hself]; rfl
    counted := by
      rw [hself, show (atIssue n c u w len).now = s.now by rw [atIssue_eq]; rfl]
      exact ⟨(BitVec.add_zero _).symm, fun _ => (BitVec.sub_zero _).symm, fun _ _ => rfl⟩
    core := by rw [hself]; rfl
    buffer := fun hc => by rw [hself]; exact textBuffer_of_covered (s := n) hc
    holds := by rw [hself]; exact textBuffer_covers (s := n) h
    outside := by rw [atIssue_eq]; rfl
    turn := by rw [atIssue_eq]; rfl
    fresh := by rw [atIssue_eq]; rfl }

/-- The instruction of a slot issues: it is counted, and XB has served. -/
theorem issued_issuing {s t : State} {c u len : Nat} {w : IWord} (h : Issuing s t c u len w false)
    (hbusy : (getCore t c).busyAt = (getCore s c).busyAt) : Issuing s (issued t) c u len w true := by
  have hcore : t.cur.core = c := by rw [h.cur]
  have hstr : t.cur.strand = u := by rw [h.cur]
  have hnow : t.now = s.now := (congrArg State.now h.outside :)
  have heq : issued t = modCore t c (fun k => issuedCore k u s.now) := by
    unfold issued noteIssued
    rw [modStrand_eq_modCore, hcore, hstr, modCore_modCore_self, hnow]; rfl
  have hself : getCore (issued t) c = issuedCore (getCore t c) u s.now := by rw [heq]; exact getCore_modCore_self t c _
  have hbody := issuedCore_body (getCore t c) u s.now
  obtain ⟨hc0, hc1, hcj⟩ := issuedCore_counts (getCore t c) u s.now
  obtain ⟨h0, h1, hj⟩ := h.counted
  exact {
    cur := by rw [heq]; exact h.cur
    strand := by
      rw [getStrand, hself, issuedCore_strand_self]
      exact congrArg (fun x : Strand => x.setFlag 5 false) h.strand
    others := fun v hv => by
      rw [getStrand, hself, issuedCore_strand_ne _ _ hv]; exact h.others v hv
    cores := fun d hd => by rw [heq, getCore_modCore_ne _ _ hd]; exact h.cores d hd
    issuer := by rw [hself]; exact (congrArg Core.lastIssuer hbody :).trans h.issuer
    counted := by
      rw [hself]
      refine ⟨by rw [hc0, h0]; simp, fun hb => ?_, fun j hj2 => (hcj j hj2).trans (hj j hj2)⟩
      have hp1 := h1 hb
      rw [← hbusy] at hb
      have ht : (issued t).now = t.now := by rw [heq]; rfl
      simp only [Core.perfRead, if_pos, ht] at hp1 ⊢
      rw [hc1 hb, sub_add_eq_sub_sub, hp1]; simp
    core := by
      rw [hself, ← h.core]
      exact (congrArg (fun k : Core => { k with lastIssuer := 0, tlb := [] }) hbody :)
    buffer := fun hc => by rw [hself]; exact (congrArg Core.tlb hbody :).trans (h.buffer hc)
    holds := by rw [hself, (congrArg Core.tlb hbody :)]; exact h.holds
    outside := by rw [heq]; exact h.outside
    turn := by rw [heq]; exact h.turn
    fresh := by rw [heq]; exact h.fresh }

/-- The memories stand through an issue. -/
theorem issuing_bytes {s t : State} {c u len : Nat} {w : IWord} {runs : Bool} (h : Issuing s t c u len w runs) : BytesSame s t := by
  refine ⟨fun a => by rw [(congrArg State.mem h.outside :)], fun d a => ?_⟩
  unfold lsRead
  by_cases hd : d = c
  · rw [hd, (congrArg Core.ls h.core :)]
  · rw [h.cores d hd]

theorem bytesSame_trans {s t u : State} (h : BytesSame s t) (k : BytesSame t u) : BytesSame s u :=
  ⟨fun a => (k.1 a).trans (h.1 a), fun c a => (k.2 c a).trans (h.2 c a)⟩

theorem bytesSame_of_eq {s t : State} (hm : t.mem = s.mem) (hc : t.cores = s.cores) : BytesSame s t :=
  ⟨fun a => by rw [hm], fun c a => by rw [lsRead, getCore, hc]; rfl⟩

theorem bytesSame_modStrand (s : State) (c u : Nat) (f : Strand → Strand) : BytesSame s (modStrand s c u f) :=
  ⟨fun _ => rfl, fun d a => lsRead_modStrand s c u f d a⟩

/-! An instruction that must wait before its issue. -/

/-- Asking for a walk changes no core and no byte. -/
theorem askWalk_keeps (s : State) (w : WalkReq) : (askWalk s w).cores = s.cores ∧ (askWalk s w).mem = s.mem := by
  unfold askWalk; dsimp only; split <;> exact ⟨rfl, rfl⟩

theorem askWalks_keeps (cx : Ctx) (vas : List Nat) : ∀ s : State, (askWalks s cx vas).cores = s.cores ∧ (askWalks s cx vas).mem = s.mem := by
  induction vas with
  | nil => exact fun _ => ⟨rfl, rfl⟩
  | cons va vas ih =>
    intro s
    have h := ih (if needsWalk s cx va && !walkAsked s cx va then askWalk s ⟨cx.core, va, .strand cx⟩ else s)
    have hstep : ∀ b : Bool, (if b then askWalk s ⟨cx.core, va, .strand cx⟩ else s).cores = s.cores ∧
        (if b then askWalk s ⟨cx.core, va, .strand cx⟩ else s).mem = s.mem := by
      intro b; cases b
      · exact ⟨rfl, rfl⟩
      · exact askWalk_keeps s _
    exact ⟨h.1.trans (hstep _).1, h.2.trans (hstep _).2⟩

/-- A held instruction leaves its strand Waiting for its turn, and its walks are asked for. -/
theorem holdIssue_waits (s : State) (i : Instr) :
    getStrand (holdIssue s i) s.cur.core s.cur.strand =
      { getStrand s s.cur.core s.cur.strand with
        st := .waiting, wait := some { why := .turn, instr := i, cx := s.cur, counted := false, since := s.now, dst := .none } } ∧
    BytesSame s (holdIssue s i) := by
  have h := askWalks_keeps s.cur (walksLacking s i) (leave s .waiting .turn false i s.cur .none)
  refine ⟨?_, bytesSame_trans (bytesSame_modStrand s _ _ _) (bytesSame_of_eq h.2 h.1)⟩
  rw [getStrand, getCore, holdIssue, h.1]
  exact getStrand_modStrand_self s _ _ _

/-! A step of the strand that issues next. -/

theorem breakAt_none {x : Strand} (h : x.flag 5 = true ∨ ∀ n, n < 4 → bit (x.get (13 + n)) 0 = true → bits (x.get (13 + n)) 47 1 * 2 ≠ x.pc.toNat) :
    breakAt x x.pc = none := by
  unfold breakAt
  split
  · rfl
  · rename_i hxb
    have hno := h.resolve_left hxb
    have hfind : (List.range 4).find? (fun i => bit (x.get (13 + i)) 0 && bits (x.get (13 + i)) 47 1 * 2 == x.pc.toNat) = none := by
      rw [List.find?_eq_none]
      intro n hn
      simpa using hno n (List.mem_range.mp hn)
    simp only [hfind]

theorem noTimer_iff {s : State} {c u : Nat} (h : NoTimer s c u) :
    ((getStrand s c u).tmrHit && !(u == 0 && (getStrand s c u).flag 6)) = false := by
  rcases h with h | ⟨rfl, h⟩
  · rw [h]; rfl
  · rw [h]; simp

/-- A slot with an instruction runs it, or holds it (log 67). -/
theorem runSlot_ok {s : State} {c u len : Nat} {ws : List IWord} {i : Instr} {w : IWord} (hfirst : NothingFirst s c u)
    (hd : decode ws = .ok i len w) :
    runSlot s c u (.words ws) =
      if mustWait (atIssue s c u w len) i then .next (holdIssue (atIssue s c u w len) i) else exec i (issued (atIssue s c u w len)) := by
  obtain ⟨htimer, hbad, hbreak⟩ := hfirst
  simp only [runSlot, chainWord, hd, noTimer_iff htimer, hbad, breakAt_none hbreak]
  rfl

/-- A slot with words that are no instruction traps (R57). -/
theorem runSlot_illegal {s : State} {c u : Nat} {ws : List IWord} {w : IWord} (hfirst : NothingFirst s c u)
    (hd : decode ws = .illegal w) : runSlot s c u (.words ws) = execIllegalInstruction (atIssue s c u w 0) := by
  obtain ⟨htimer, hbad, hbreak⟩ := hfirst
  simp only [runSlot, chainWord, hd, noTimer_iff htimer, hbad, breakAt_none hbreak]
  rfl

/-- The trap of a posted reduction stands in place of what the slot holds (R408, log 45). -/
theorem runSlot_badOld {s : State} {c u : Nat} {ws : List IWord} {a : Word} {v : IWord} (htimer : NoTimer s c u)
    (hbad : (getStrand s c u).badOld = some (a, v)) :
    ∃ w len, runSlot s c u (.words ws) = .next (takeTrap (modStrand (atIssue s c u w len) c u (fun y => { y with badOld := none })) c u 0x07 a v
      (getStrand s c u).pc (getStrand s c u).pc) := by
  refine ⟨(chainWord (.words ws)).1, (chainWord (.words ws)).2, ?_⟩
  simp only [runSlot, noTimer_iff htimer, hbad]
  rfl

/-- The text at the pc of the strand that issues is translated by a buffer. -/
theorem buffered_of_chainAt {s : State} {c : Nat} {pc : Word} {ws : List IWord} (h : ChainAt s c pc ws) (hd : decode ws ≠ .more) :
    ∃ l k, buffered s c pc.toNat = some (l, k) := by
  cases ws with
  | nil => exact absurd rfl hd
  | cons w ws =>
    obtain ⟨-, l, pa, k, -, hb, -⟩ := h 0 w rfl
    exact ⟨l, k, by simpa using hb⟩

section
variable {s : State} {c u : Nat} {ws : List IWord}

/-- An instruction that need not wait runs in the state of its issue, counted (R57). -/
theorem step_runs {i : Instr} {len : Nat} {w : IWord} (h : IssuesNext s c u) (htext : ChainAt s c (getStrand s c u).pc ws)
    (hfirst : NothingFirst s c u) (hd : decode ws = .ok i len w)
    (hheld : mustWait (atIssue { s with fresh := s.fresh + 1, turn := c + 2 } c u w len) i = false) :
    ∃ t, step s = exec i t ∧ Issuing s t c u len w true := by
  obtain ⟨ws', hws, hstep⟩ := step_of_issuesNext h htext (by rw [hd]; nofun)
  obtain ⟨l, k, hb⟩ := buffered_of_chainAt htext (by rw [hd]; nofun)
  have hrun := runSlot_ok (s := { s with fresh := s.fresh + 1, turn := c + 2 }) hfirst (hws.trans hd)
  rw [hheld, if_neg Bool.false_ne_true] at hrun
  exact ⟨_, hstep.trans hrun, issued_issuing (atIssue_issuing w len hb) (by rw [getCore_atIssue_self]; rfl)⟩

/-- An instruction that must wait leaves its strand Waiting for its turn (log 67). -/
theorem step_holds {i : Instr} {len : Nat} {w : IWord} (h : IssuesNext s c u) (htext : ChainAt s c (getStrand s c u).pc ws)
    (hfirst : NothingFirst s c u) (hd : decode ws = .ok i len w)
    (hheld : mustWait (atIssue { s with fresh := s.fresh + 1, turn := c + 2 } c u w len) i = true) :
    ∃ t x, step s = .next t ∧ (getStrand t c u).st = .waiting ∧ (getStrand t c u).wait = some x ∧ x.why = .turn ∧ x.instr = i ∧
      (getStrand t c u).pc = (getStrand s c u).pc ∧ BytesSame s t := by
  obtain ⟨ws', hws, hstep⟩ := step_of_issuesNext h htext (by rw [hd]; nofun)
  obtain ⟨l, k, hb⟩ := buffered_of_chainAt htext (by rw [hd]; nofun)
  have hissue := atIssue_issuing w len hb
  have hrun := runSlot_ok (s := { s with fresh := s.fresh + 1, turn := c + 2 }) hfirst (hws.trans hd)
  rw [hheld, if_pos rfl] at hrun
  obtain ⟨hwait, hbytes⟩ := holdIssue_waits (atIssue { s with fresh := s.fresh + 1, turn := c + 2 } c u w len) i
  rw [show (atIssue { s with fresh := s.fresh + 1, turn := c + 2 } c u w len).cur.core = c by rw [hissue.cur],
    show (atIssue { s with fresh := s.fresh + 1, turn := c + 2 } c u w len).cur.strand = u by rw [hissue.cur]] at hwait
  refine ⟨_, _, hstep.trans hrun, by rw [hwait], by rw [hwait], rfl, rfl, ?_, bytesSame_trans (issuing_bytes hissue) hbytes⟩
  rw [hwait, hissue.strand]; rfl

/-- Words that are no instruction trap, resumed at the chain's first word (R57). -/
theorem step_illegal {w : IWord} (h : IssuesNext s c u) (htext : ChainAt s c (getStrand s c u).pc ws) (hfirst : NothingFirst s c u)
    (hd : decode ws = .illegal w) :
    ∃ t r, Issuing s r c u 0 w false ∧ step s = .next t ∧ TrapEffect r t c u 0x01 0 w (getStrand s c u).pc (getStrand s c u).pc := by
  obtain ⟨ws', hws, hstep⟩ := step_of_issuesNext h htext (by rw [hd]; nofun)
  obtain ⟨l, k, hb⟩ := buffered_of_chainAt htext (by rw [hd]; nofun)
  have hissue := atIssue_issuing w 0 hb
  refine ⟨_, _, hissue, (hstep.trans (runSlot_illegal (s := { s with fresh := s.fresh + 1, turn := c + 2 }) hfirst (hws.trans hd))), ?_⟩
  rw [trapAt, hissue.cur]
  exact takeTrap_effect ..

/-- What a posted reduction has met traps in place of the issue (R408, log 45). -/
theorem step_badOld {a : Word} {v : IWord} (h : IssuesNext s c u) (htext : ChainAt s c (getStrand s c u).pc ws) (htimer : NoTimer s c u)
    (hbad : (getStrand s c u).badOld = some (a, v)) (hd : decode ws ≠ .more) :
    ∃ t, step s = .next t ∧ Recorded (getStrand t c u) 0x07 a (getStrand s c u).pc v ∧ (getStrand t c u).badOld = none ∧ BytesSame s t := by
  obtain ⟨ws', -, hstep⟩ := step_of_issuesNext h htext hd
  obtain ⟨l, k, hb⟩ := buffered_of_chainAt htext hd
  obtain ⟨w, len, hrun⟩ := runSlot_badOld (s := { s with fresh := s.fresh + 1, turn := c + 2 }) (ws := ws') htimer hbad
  have hissue := atIssue_issuing w len hb
  refine ⟨_, hstep.trans hrun, ?_, ?_, ?_⟩
  · rw [getStrand_takeTrap_self]; exact trapStrand_recorded ..
  · rw [getStrand_takeTrap_self, (trapStrand_body ..).2.2.2.1, getStrand_modStrand_self]
  · exact bytesSame_trans (issuing_bytes hissue) (bytesSame_trans (bytesSame_modStrand _ _ _ _) (takeTrap_bytes ..))

end

end Sys2Proof.Proofs

/-- Settles O58: the strand that issues next takes its core's slot, the fetch gives the chain at its pc, and what the slot does with
it is read off the four cases of `runSlot`. -/
theorem stepRunsDecoded : Obligations.StepRunsDecoded := by
  intro s c u ws h htext
  refine ⟨fun hfirst => ⟨fun i len w hd => ⟨?_, ?_⟩, fun w hd => ?_⟩, fun a v htimer hbad hd => ?_⟩
  · exact Sys2Proof.Proofs.step_runs h htext hfirst hd
  · exact Sys2Proof.Proofs.step_holds h htext hfirst hd
  · exact Sys2Proof.Proofs.step_illegal h htext hfirst hd
  · exact Sys2Proof.Proofs.step_badOld h htext htimer hbad hd
end

section
namespace Sys2Proof.Proofs

open Sys2Proof.Machine Sys2Proof.Laws Sys2Proof.Claims

/-! Numbers in memory. -/

theorem ofBytes_toBytes (n v : Nat) : ofBytes (toBytes n v) = v % 256 ^ n := by
  induction n generalizing v with
  | zero => simp [toBytes, ofBytes, Nat.mod_one]
  | succ n ih =>
    have hsplit : v % 256 ^ (n + 1) = v % 256 + 256 * (v / 256 % 256 ^ n) := by rw [Nat.pow_succ']; exact Nat.mod_mul
    rw [toBytes, ofBytes, ih, BitVec.toNat_ofNat, hsplit]
    omega

@[simp] theorem length_toBytes (n v : Nat) : (toBytes n v).length = n := by
  induction n generalizing v with
  | zero => rfl
  | succ n ih => simp [toBytes, ih]

/-- A number just stored reads as stored. -/
theorem num_writeN_toBytes (m : Memory) (a n v : Nat) : (m.writeN a (toBytes n v)).num a n = v % 256 ^ n := by
  have h := readN_writeN (toBytes n v) m a
  rw [length_toBytes] at h
  rw [Memory.num, h, ofBytes_toBytes]

theorem readN_congr {m k : Memory} (n : Nat) : ∀ a, (∀ i, a ≤ i → i < a + n → m.read i = k.read i) → m.readN a n = k.readN a n := by
  induction n with
  | zero => exact fun _ _ => rfl
  | succ n ih =>
    intro a h
    rw [Memory.readN, Memory.readN, h a (by omega) (by omega), ih (a + 1) (fun i h1 h2 => h i (by omega) (by omega))]

/-! Launch records (R345). -/

/-- A byte of the record pool at `b` (R344). -/
def InPoolAt (b i : Nat) : Prop := b ≤ i ∧ i < b + 0x100000

/-- Writing a record changes memory alone. -/
theorem setRecWord_outside (s : State) (r i : Nat) (v : Word) : { setRecWord s r i v with mem := [] } = { s with mem := [] } := by
  unfold setRecWord; split <;> rfl

theorem setRecBits_outside (s : State) (r i hi lo v : Nat) : { setRecBits s r i hi lo v with mem := [] } = { s with mem := [] } :=
  setRecWord_outside s r i _

theorem setTaskState_outside (s : State) (r : Nat) (st : TaskState) :
    { setTaskState s r st with mem := [], tasks := [] } = { s with mem := [], tasks := [] } :=
  (congrArg (fun s : State => { s with tasks := [] }) (setRecBits_outside (modTask s r (fun k => { k with st := st })) r 3 43 40 (taskCode st)) :)

/-- A record's task in its new state. -/
theorem getTask_setTaskState_self (s : State) (r : Nat) (st : TaskState) :
    getTask (setTaskState s r st) r = { getTask s r with st := st } := by
  have h : (setTaskState s r st).tasks = (modTask s r (fun k => { k with st := st })).tasks :=
    (congrArg State.tasks (setRecBits_outside (modTask s r (fun k => { k with st := st })) r 3 43 40 (taskCode st)) :)
  rw [getTask, h]
  exact getTask_modTask_self s r (fun k => { k with st := st })

section
variable {s : State} {r b : Nat}

theorem recWord_setRecWord (i : Nat) (v : Word) (hb : s.mgmt.poolBase = some b) : recWord (setRecWord s r i v) r i = v := by
  have hset : setRecWord s r i v = { s with mem := s.mem.writeN (b + 256 * r + 8 * i) (toBytes 8 v.toNat) } := by
    unfold setRecWord; rw [hb]
  have hv := v.isLt
  rw [hset, recWord, hb]
  dsimp only
  rw [num_writeN_toBytes, Nat.mod_eq_of_lt (by norm_num at hv ⊢; omega)]
  simp [wd]

/-- Writing a record changes no byte outside the pool. -/
theorem read_setRecWord_off (i j : Nat) (v : Word) (hb : s.mgmt.poolBase = some b) (hr : r < 4096) (hi : i < 32)
    (hj : ¬ InPoolAt b j) : (setRecWord s r i v).mem.read j = s.mem.read j := by
  unfold setRecWord
  rw [hb]
  refine read_writeN_out _ _ _ _ ?_
  rw [length_toBytes]
  unfold InPoolAt at hj
  omega

/-- A record reads the same in two states whose pools hold the same bytes. -/
theorem recWord_congr {t : State} {i : Nat} (hb : s.mgmt.poolBase = some b) (hm : t.mgmt = s.mgmt) (hr : r < 4096) (hi : i < 32)
    (h : ∀ j, InPoolAt b j → t.mem.read j = s.mem.read j) : recWord t r i = recWord s r i := by
  unfold recWord
  rw [hm, hb]
  dsimp only
  rw [Memory.num, Memory.num, readN_congr 8 _ (fun j h1 h2 => h j (by unfold InPoolAt; omega))]

theorem bits_recWord_setRecBits_apart (i hi lo v hi' lo' : Nat) (hb : s.mgmt.poolBase = some b) (hw : hi' < 64)
    (h : hi' < lo ∨ hi < lo') : bits (recWord (setRecBits s r i hi lo v) r i) hi' lo' = bits (recWord s r i) hi' lo' := by
  rw [setRecBits, recWord_setRecWord _ _ hb, bits_setBits_apart _ _ _ _ _ _ hw h]

/-- A record's STATE field alone follows its task's state. -/
theorem bits_recWord_setTaskState (st : TaskState) (hi lo : Nat) (hb : s.mgmt.poolBase = some b) (hw : hi < 40) :
    bits (recWord (setTaskState s r st) r 3) hi lo = bits (recWord s r 3) hi lo :=
  bits_recWord_setRecBits_apart (s := modTask s r (fun k => { k with st := st })) 3 43 40 _ hi lo hb (by omega) (.inl hw)

theorem read_setTaskState_off (st : TaskState) (j : Nat) (hb : s.mgmt.poolBase = some b) (hr : r < 4096) (hj : ¬ InPoolAt b j) :
    (setTaskState s r st).mem.read j = s.mem.read j :=
  read_setRecWord_off (s := modTask s r (fun k => { k with st := st })) 3 j _ hb hr (by decide) hj

end

/-! The node table: what applying node operations does depends on it and on the lines held alone. -/

/-- Two states with the same node table and the same lines held. -/
structure NodesAgree (s t : State) : Prop where
  nodes : t.nodes = s.nodes
  held : t.linHeld = s.linHeld

section
variable {s t : State} (h : NodesAgree s t)
include h

theorem NodesAgree.getNode : getNode t = getNode s := by
  funext n; rw [Machine.getNode, h.nodes]; rfl

theorem NodesAgree.resolveLine : resolveLine t = resolveLine s := by
  funext n line; rw [Machine.resolveLine, h.getNode]; rfl

theorem NodesAgree.modNode (n : Nat) (f : Node → Node) : NodesAgree (modNode s n f) (modNode t n f) where
  nodes := by rw [Machine.modNode, h.nodes, h.getNode]; rfl
  held := h.held

theorem NodesAgree.freeNode (n : Nat) : NodesAgree (freeNode s n) (freeNode t n) where
  nodes := congrArg (delK · n) h.nodes
  held := congrArg (List.filter (fun x : Nat × Nat => x.1 != n)) h.held

theorem NodesAgree.hasAncestor (a fuel n : Nat) : hasAncestor t a fuel n = hasAncestor s a fuel n := by
  induction fuel generalizing n with
  | zero => rfl
  | succ fuel ih => simp [Machine.hasAncestor, h.getNode, ih]

theorem NodesAgree.chainOf (fuel n : Nat) : chainOf t fuel n = chainOf s fuel n := by
  induction fuel generalizing n with
  | zero => rfl
  | succ fuel ih => simp [Machine.chainOf, h.getNode, ih]

theorem NodesAgree.linesOfChains (ns : List Nat) : linesOfChains t ns = linesOfChains s ns := by
  rw [Machine.linesOfChains, h.getNode]; rfl

theorem NodesAgree.newDelta (n p : Nat) : newDelta t n p = newDelta s n p := by
  unfold Machine.newDelta
  rw [h.linesOfChains, h.chainOf, h.chainOf, h.resolveLine]

theorem NodesAgree.moveContent (n p : Nat) : NodesAgree (moveContent s n p) (moveContent t n p) := by
  unfold Machine.moveContent
  dsimp only
  rw [h.newDelta, h.getNode, h.held]
  refine NodesAgree.modNode ?_ n _
  exact ⟨h.nodes, rfl⟩

theorem NodesAgree.moveTiles (op : NodeOp) : moveTiles t op = moveTiles s op := by
  cases op <;> simp [Machine.moveTiles, h.linesOfChains, h.chainOf]

end

theorem NodesAgree.loseChild (fuel : Nat) : ∀ {s t : State} (_ : NodesAgree s t) (p : Nat),
    NodesAgree (loseChild fuel s p).1 (loseChild fuel t p).1 ∧ (loseChild fuel t p).2 = (loseChild fuel s p).2 := by
  induction fuel with
  | zero => exact fun h _ => ⟨h, rfl⟩
  | succ fuel ih =>
    intro s t h p
    by_cases hp : p = 0
    · simp only [Machine.loseChild, hp, if_true]; exact ⟨h, trivial⟩
    · simp only [Machine.loseChild, hp, if_false, h.getNode]
      have hm := h.modNode p (fun k => { k with children := k.children - 1 })
      split
      · obtain ⟨h1, h2⟩ := ih (hm.freeNode p) (Machine.getNode s p).parent
        exact ⟨h1, by rw [h2]⟩
      · exact ⟨hm, rfl⟩

theorem NodesAgree.applyStruct {s t : State} (h : NodesAgree s t) (op : NodeOp) :
    NodesAgree (applyStruct s op).1 (applyStruct t op).1 ∧ (applyStruct t op).2 = (applyStruct s op).2 := by
  cases op with
  | fork p nt ch =>
    refine ⟨?_, rfl⟩
    simp only [Machine.applyStruct, h.getNode]
    split
    · exact h.modNode _ _
    · exact (h.modNode _ _).modNode _ _
  | rebase n p =>
    simp only [Machine.applyStruct, h.getNode]
    exact NodesAgree.loseChild _ ((h.modNode _ _).modNode _ _) _
  | flat n =>
    simp only [Machine.applyStruct, h.getNode]
    split
    · exact ⟨h, rfl⟩
    · refine NodesAgree.loseChild _ (NodesAgree.modNode ?_ n _) _
      exact ⟨by simp only [h.nodes, h.hasAncestor], h.held⟩
  | drop n =>
    simp only [Machine.applyStruct, h.getNode]
    split
    · obtain ⟨h1, h2⟩ := NodesAgree.loseChild chainFuel (h.freeNode n) (Machine.getNode s n).parent
      exact ⟨h1, by rw [h2]⟩
    · exact ⟨h.modNode n (fun k => { k with ghost := true }), rfl⟩

theorem NodesAgree.applyNodeOp {s t : State} (h : NodesAgree s t) (op : NodeOp) :
    NodesAgree (applyNodeOp s op).1 (applyNodeOp t op).1 ∧ (applyNodeOp t op).2 = (applyNodeOp s op).2 := by
  cases op with
  | rebase n p => exact (h.moveContent n p).applyStruct _
  | flat n =>
    simp only [Machine.applyNodeOp, h.getNode]
    split
    · exact ⟨h, rfl⟩
    · exact (h.moveContent n 0).applyStruct _
  | fork p nt ch => exact h.applyStruct _
  | drop n => exact h.applyStruct _

/-! The start of a commit (R28, R260). -/

/-- A free choice lies in its range (R414). -/
theorem pickN_bounds (s : State) (site : Nat) {lo hi : Nat} (h : lo ≤ hi) : lo ≤ pickN s site lo hi ∧ pickN s site lo hi ≤ hi := by
  unfold pickN Config.pick
  have := Nat.mod_lt (Config.free s.fresh (site + 64 * s.pend.length)) (show 0 < hi - lo + 1 by omega)
  omega

/-- The time of a commit's node operations, one further operation taken in. -/
def nodeTimeStep (y : State × Nat) (op : NodeOp) : State × Nat :=
  ((applyNodeOp y.1 op).1,
    y.2 + 40 * moveTiles y.1 op + (match op with | .drop _ => 20 * (applyNodeOp y.1 op).2 | _ => 0))

theorem nodeTime_eq (s : State) (r : Nat) : nodeTime s r = ((taskNodeOps s r).foldl nodeTimeStep (s, 0)).2 := rfl

theorem foldl_nodeTimeStep_congr (ops : List NodeOp) : ∀ {s t : State} (n : Nat), NodesAgree s t →
    (ops.foldl nodeTimeStep (t, n)).2 = (ops.foldl nodeTimeStep (s, n)).2 := by
  induction ops with
  | nil => exact fun _ _ => rfl
  | cons op ops ih =>
    intro s t n h
    obtain ⟨hstep, hfreed⟩ := h.applyNodeOp op
    simp only [List.foldl_cons, nodeTimeStep, h.moveTiles, hfreed]
    exact ih _ hstep

section
variable {s t : State} {r : Nat} (hmem : (getTask t r).members = (getTask s r).members) (hcores : t.cores = s.cores)
include hmem hcores

theorem taskLogs_congr : taskLogs t r = taskLogs s r := by
  unfold taskLogs getLog getCore; rw [hmem, hcores]

theorem taskNodeOps_congr : taskNodeOps t r = taskNodeOps s r := by
  unfold taskNodeOps getLog getCore; rw [hmem, hcores]

theorem taskWinOps_congr : taskWinOps t r = taskWinOps s r := by
  unfold taskWinOps getLog getCore; rw [hmem, hcores]

theorem winSteps_congr (hseqs : t.seqs = s.seqs) : winSteps t r = winSteps s r := by
  unfold winSteps getSeq; rw [taskWinOps_congr hmem hcores, hseqs]

/-- The lines that a commit writes depend on the task's members, the logs and the sequences. -/
theorem commitLines_congr (hseqs : t.seqs = s.seqs) : commitLines t r = commitLines s r := by
  unfold commitLines winLines; rw [taskLogs_congr hmem hcores, winSteps_congr hmem hcores hseqs]

theorem windowTime_congr (hseqs : t.seqs = s.seqs) : windowTime t r = windowTime s r := by
  unfold windowTime; rw [winSteps_congr hmem hcores hseqs]

/-- The time of a commit's node operations depends on the task's members, the logs and the node table. -/
theorem nodeTime_congr (h : NodesAgree s t) : nodeTime t r = nodeTime s r := by
  rw [nodeTime_eq, nodeTime_eq, taskNodeOps_congr hmem hcores, foldl_nodeTimeStep_congr _ 0 h]

end

/-- What a retired task has in the cycle in which it may commit, from the conditions of R28 and R262. -/
theorem mayCommit_of_oldest {s : State} {r : Nat} (hst : (getTask s r).st = .retired) (hret : (getTask s r).retAt < s.now)
    (hold : ∀ e ∈ s.tasks, e.2.st ∈ [TaskState.queued, .locking, .running, .retired, .committing, .aborted, .faulted] →
      (getTask s r).stamp ≤ e.2.stamp)
    (hstores : ∀ e ∈ s.cores, ∀ p ∈ e.2.posted, p.task ≠ some r) : mayCommit s r = true := by
  refine (mayCommit_iff s r).mpr ⟨hst, hret, ?_, ?_⟩
  · rw [withinHorizon, List.all_eq_true]
    intro e he
    show (!inHorizon e.2.st || decide ((getTask s r).stamp ≤ e.2.stamp)) = true
    cases hin : inHorizon e.2.st
    · rfl
    · have hmem : e.2.st ∈ [TaskState.queued, .locking, .running, .retired, .committing, .aborted, .faulted] := by
        revert hin; cases e.2.st <;> decide
      exact decide_eq_true (hold e he hmem)
  · rw [storesOpen, List.any_eq_false]
    intro e he hany
    obtain ⟨p, hp, hopen⟩ := List.any_eq_true.mp hany
    simp only [Bool.and_eq_true, beq_iff_eq] at hopen
    exact hstores e he p hp hopen.1.1

/-- The state in which a task's logs begin to drain. -/
def commitBegun (s : State) (r : Nat) : State :=
  modTask (setTaskState { s with commitNext := s.commitNext + 1 } r .committing) r (fun k => { k with commitIx := some s.commitNext })

theorem commitBegun_outside (s : State) (r : Nat) :
    { commitBegun s r with mem := [], tasks := [], commitNext := 0 } = { s with mem := [], tasks := [], commitNext := 0 } :=
  (congrArg (fun s : State => { s with commitNext := 0 }) (setTaskState_outside { s with commitNext := s.commitNext + 1 } r .committing) :)

theorem getTask_commitBegun (s : State) (r : Nat) :
    getTask (commitBegun s r) r = { getTask s r with st := .committing, commitIx := some s.commitNext } := by
  rw [commitBegun, getTask_modTask_self, getTask_setTaskState_self]; rfl

/-- The longest that a release may take after its commit's start is the same before and after that start. -/
theorem commitBegun_bounds (s : State) (r : Nat) : commitLines (commitBegun s r) r = commitLines s r ∧
    nodeTime (commitBegun s r) r = nodeTime s r ∧ windowTime (commitBegun s r) r = windowTime s r := by
  have hout := commitBegun_outside s r
  have hmem : (getTask (commitBegun s r) r).members = (getTask s r).members := by rw [getTask_commitBegun]
  have hcores : (commitBegun s r).cores = s.cores := (congrArg State.cores hout :)
  have hseqs : (commitBegun s r).seqs = s.seqs := (congrArg State.seqs hout :)
  exact ⟨commitLines_congr hmem hcores hseqs,
    nodeTime_congr hmem hcores ⟨(congrArg State.nodes hout :), (congrArg State.linHeld hout :)⟩, windowTime_congr hmem hcores hseqs⟩

/-- A retired task that may commit starts its commit under the next index (R28, R260). -/
theorem commitStart_starts {s : State} {r : Nat} (h : mayCommit s r = true) :
    ∃ t n, exec (.commitStart r) s = .next t ∧ (getTask t r).st = .committing ∧ (getTask t r).commitIx = some s.commitNext ∧
      t.commitNext = s.commitNext + 1 ∧ 1 ≤ n ∧ n ≤ 100 + 162 * (commitLines s r).length + nodeTime s r + windowTime s r ∧
      t.pend = s.pend ++ [(s.now + n, .commitRelease r)] := by
  let u := commitBegun s r
  obtain ⟨hlines, hnode, hwin⟩ := commitBegun_bounds s r
  let m := 100 + 162 * (commitLines u r).length + nodeTime u r + windowTime u r
  have hpick : 1 ≤ pickN u 29 1 m ∧ pickN u 29 1 m ≤ m := pickN_bounds u 29 (by omega)
  have hout := commitBegun_outside s r
  have hnow : u.now = s.now := (congrArg State.now hout :)
  have hpend : u.pend = s.pend := (congrArg State.pend hout :)
  have hnext : u.commitNext = s.commitNext + 1 :=
    (congrArg State.commitNext (setTaskState_outside { s with commitNext := s.commitNext + 1 } r .committing) :)
  refine ⟨sched u (u.now + pickN u 29 1 m) (.commitRelease r), pickN u 29 1 m, ?_, ?_, ?_, ?_, hpick.1, ?_, ?_⟩
  · exact congrArg Host.Outcome.next (if_neg (by rw [h]; decide))
  · exact congrArg Task.st (getTask_commitBegun s r)
  · exact congrArg Task.commitIx (getTask_commitBegun s r)
  · exact hnext
  · rw [← hlines, ← hnode, ← hwin]; exact hpick.2
  · rw [← hnow, ← hpend]; rfl

end Sys2Proof.Proofs
end

section
namespace Sys2Proof.Proofs

open Sys2Proof.Machine Sys2Proof.Laws Sys2Proof.Claims

/-! What the release of a commit applies leaves the lock table and the settings of the device (R245, R283, R303). -/

theorem foldl_keeps {σ β γ : Type} (g : σ → γ) {f : σ → β → σ} (h : ∀ s x, g (f s x) = g s) (l : List β) :
    ∀ s, g (l.foldl f s) = g s := by
  induction l with
  | nil => exact fun _ => rfl
  | cons x l ih => exact fun s => (ih (f s x)).trans (h s x)

/-- The lock table and what the management plane holds. -/
def settings (s : State) : LockTab × Mgmt := (s.locks, s.mgmt)

theorem settings_ite {p : Prop} [Decidable p] {s a b : State} (ha : settings a = settings s) (hb : settings b = settings s) :
    settings (if p then a else b) = settings s := by
  split
  · exact ha
  · exact hb

theorem settings_setRecBits (s : State) (r i hi lo v : Nat) : settings (setRecBits s r i hi lo v) = settings s :=
  (congrArg settings (setRecBits_outside s r i hi lo v) :)

theorem settings_setRecWord (s : State) (r i : Nat) (v : Word) : settings (setRecWord s r i v) = settings s :=
  (congrArg settings (setRecWord_outside s r i v) :)

theorem settings_setTaskState (s : State) (r : Nat) (st : TaskState) : settings (setTaskState s r st) = settings s :=
  (congrArg settings (setTaskState_outside s r st) :)

theorem settings_loseChild (fuel : Nat) : ∀ (s : State) (p : Nat), settings (loseChild fuel s p).1 = settings s := by
  induction fuel with
  | zero => exact fun _ _ => rfl
  | succ fuel ih =>
    intro s p
    simp only [loseChild]
    split
    · rfl
    · split
      · exact ih _ _
      · rfl

theorem settings_applyStruct (s : State) (op : NodeOp) : settings (applyStruct s op).1 = settings s := by
  cases op with
  | fork p nt ch => simp only [applyStruct]; split <;> rfl
  | rebase n p => exact settings_loseChild _ _ _
  | flat n =>
    simp only [applyStruct]
    split
    · rfl
    · exact settings_loseChild _ _ _
  | drop n =>
    simp only [applyStruct]
    split
    · exact settings_loseChild _ _ _
    · rfl

theorem settings_applyNodeOp (s : State) (op : NodeOp) : settings (applyNodeOp s op).1 = settings s := by
  cases op with
  | flat n =>
    simp only [applyNodeOp]
    split
    · rfl
    · exact settings_applyStruct _ _
  | fork p nt ch => exact settings_applyStruct _ _
  | rebase n p => exact settings_applyStruct _ _
  | drop n => exact settings_applyStruct _ _

theorem settings_applyFlatStore (s : State) (e : LogRec) : settings (applyFlatStore s e) = settings s := by
  unfold applyFlatStore; split <;> rfl

theorem settings_applyFlatRed (s : State) (e : LogRec) : settings (applyFlatRed s e) = settings s := by
  unfold applyFlatRed; split <;> rfl

theorem settings_applyData (s : State) (log : List LogRec) : settings (applyData s log) = settings s :=
  (foldl_keeps settings (f := applyLinLine log) (fun _ _ => rfl) _ _).trans
    ((foldl_keeps settings settings_applyFlatRed _ _).trans (foldl_keeps settings settings_applyFlatStore _ _))

theorem settings_returnPages (s : State) (q : Seq) (p : Nat → Bool) : settings (returnPages s q p) = settings s :=
  foldl_keeps settings (fun s x => by dsimp only; split <;> rfl) _ _

theorem settings_keepStore (s : State) (pa : Nat) (bs : List Byte) : settings (keepStore s pa bs) = settings s := by
  unfold keepStore; split <;> rfl

theorem settings_keepWrites (s : State) (q : Seq) (n : Nat) (plist state : List (Nat × Nat)) :
    settings (keepWrites s q n plist state) = settings s := by
  refine (foldl_keeps settings (fun s x => ?_) _ _).trans ((foldl_keeps settings (fun s x => ?_) _ _).trans
    (foldl_keeps settings (fun s x => settings_keepStore _ _ _) _ _))
  · dsimp only; split
    · exact settings_keepStore _ _ _
    · rfl
  · dsimp only; split
    · exact settings_keepStore _ _ _
    · rfl

theorem settings_applyWin (s : State) (op : WinOp) : settings (applyWin s op) = settings s := by
  cases op with
  | kvc q gen n plist state => exact (settings_returnPages _ _ _).trans (settings_keepWrites _ _ _ _ _)
  | kvd q gen => exact settings_returnPages _ _ _
  | _ => rfl

theorem settings_commitWin (x : State × List Nat) (op : WinOp) : settings (commitWin x op).1 = settings x.1 := by
  obtain ⟨s, bad⟩ := x
  cases op with
  | pgal q gen idx page =>
    simp only [commitWin]
    split
    · rfl
    · exact settings_applyWin _ _
  | kvw =>
    simp only [commitWin]
    split
    · rfl
    · exact settings_applyWin _ _
  | pgfr page =>
    simp only [commitWin]
    split
    · rfl
    · exact settings_applyWin _ _
  | _ => exact settings_applyWin _ _

theorem settings_commitWins (s : State) (ops : List WinOp) : settings (commitWins s ops) = settings s :=
  foldl_keeps (fun x : State × List Nat => settings x.1) settings_commitWin ops _

theorem settings_patchWrite (s : State) (r item : Nat) (v : Word) : settings (patchWrite s r item v) = settings s := by
  have hbits := fun i hi lo => settings_setRecBits s r i hi lo v.toNat
  have hword := fun i => settings_setRecWord s r i v
  exact settings_ite (hbits 0 47 0) <| settings_ite (hbits 0 50 48) <| settings_ite (hbits 0 53 52) <|
    settings_ite (hbits 2 47 0) <| settings_ite ((settings_setRecBits _ r 3 15 0 _).trans (hbits 3 31 16)) <|
    settings_ite (hword 4) <| settings_ite (hbits 8 47 0) <| settings_ite (hbits 7 15 0) <|
    settings_ite (hbits 5 _ _) <| settings_ite (hbits 6 _ _) <| settings_ite (hbits 3 35 32) <| settings_ite (hword 1) (hword _)

theorem settings_firstQueued (s : State) (r die : Nat) : settings (firstQueued s r die) = settings s :=
  settings_setTaskState _ _ _

theorem settings_armRecord (s : State) (r die : Nat) : settings (armRecord s r die) = settings s := by
  have hcnt : settings (if recCnt s r = 0 then s else setRecBits s r 3 15 0 (recCnt s r - 1)) = settings s :=
    settings_ite rfl (settings_setRecBits _ _ _ _ _ _)
  unfold armRecord
  exact settings_ite rfl (settings_ite ((settings_firstQueued _ _ _).trans hcnt) hcnt)

theorem settings_applyRecOp (die : Nat) (s : State) (e : LogRec) : settings (applyRecOp die s e) = settings s := by
  unfold applyRecOp
  split
  · split
    · exact settings_patchWrite _ _ _ _
    · rfl
  · exact settings_armRecord _ _ _
  · rfl

theorem settings_applyOps (s : State) (r : Nat) (logs : List (Nat × List LogRec)) : settings (applyOps s r logs) = settings s := by
  refine (foldl_keeps settings (settings_applyRecOp _) _ _).trans ((settings_commitWins _ _).trans ?_)
  exact foldl_keeps settings (fun s e => by
    split
    · exact settings_applyNodeOp _ _
    · rfl) _ s

/-! What follows the application of a commit's logs (R261, R348, R349). -/

theorem serveWait_outside (s : State) (g : GAcc) (loc : GLoc) : { serveWait s g loc with pend := [] } = { s with pend := [] } := by
  unfold serveWait; split <;> rfl

/-- Serving the reads that have waited only lets happenings come about. -/
theorem serveWaits_outside (s : State) : { serveWaits s with pend := [], readWaits := [] } = { s with pend := [], readWaits := [] } :=
  foldl_keeps (fun s : State => { s with pend := [], readWaits := [] }) (f := fun s (x : GAcc × GLoc) => serveWait s x.1 x.2)
    (fun s x => (congrArg (fun s : State => { s with readWaits := [] }) (serveWait_outside s x.1 x.2) :)) _ _

theorem applyWounds_of_empty {s : State} (he : s.locks.entries = []) (hn : s.locks.noRoom = []) (n : Nat) : applyWounds n s = s := by
  cases n with
  | zero => rfl
  | succ n => simp [applyWounds, nextWound, enterRoom, roomWound, he, hn]

/-- With nothing locked, the release of a task's locks withdraws its requests and does nothing else. -/
theorem freeLocks_of_empty {s : State} (r : Nat) (he : s.locks.entries = []) (hn : s.locks.noRoom = []) :
    { freeLocks s r with pend := [] } = { s with pend := [] } := by
  have hlocks : ({ s.locks with entries := [], noRoom := [] } : LockTab) = s.locks := by rw [← he, ← hn]
  have hrel : { releaseTask s r with pend := [] } = { s with pend := [] } := by
    unfold releaseTask settleAll
    simp only [he, hn, List.map_nil, List.filter_nil, List.foldl_nil, hlocks]
  have hre : (releaseTask s r).locks = s.locks := (congrArg State.locks hrel :)
  have hsettle : settleAll (releaseTask s r) = releaseTask s r := by unfold settleAll; rw [hre, he]; rfl
  rw [freeLocks, settleLocks, hsettle, applyWounds_of_empty (by rw [hre, he]) (by rw [hre, hn]), hrel]

theorem armRecord_cores (s : State) (r die : Nat) : (armRecord s r die).cores = s.cores := by
  have hcnt : (if recCnt s r = 0 then s else setRecBits s r 3 15 0 (recCnt s r - 1)).cores = s.cores := by
    split
    · rfl
    · exact (congrArg State.cores (setRecBits_outside s r 3 15 0 (recCnt s r - 1)) :)
  have hqueue : ∀ t : State, (firstQueued t r die).cores = t.cores := fun t => (congrArg State.cores (setTaskState_outside
    (modTask { t with seqCount := (t.seqCount + 1) % 2 ^ 32 } r
      (fun k => { k with drawn := true, seq := t.seqCount, stamp := recStamp { t with seqCount := (t.seqCount + 1) % 2 ^ 32 } r, avoid := none }))
    r .queued) :)
  unfold armRecord
  generalize (if recCnt s r = 0 then s else setRecBits s r 3 15 0 (recCnt s r - 1)) = t at hcnt ⊢
  dsimp only
  split
  · rfl
  · split
    · exact (hqueue t).trans hcnt
    · exact hcnt

/-- Arming successors changes no core. -/
theorem armSuccessors_cores (s : State) (r die : Nat) : (armSuccessors s r die).cores = s.cores :=
  foldl_keeps State.cores (fun t i => armRecord_cores t (recSucc t r i) die) _ s

/-- A record without successors arms none. -/
theorem armSuccessors_of_none {s : State} {r : Nat} (die : Nat) (h : recNsucc s r = 0) : armSuccessors s r die = s := by
  rw [armSuccessors, h]; rfl

/-- A core without what it held of record `r`'s gang: a place in its queue, fetches, a dispatch under way. -/
def gangCleared (r : Nat) (k : Core) : Core :=
  { k with
    coreQ := k.coreQ.filter (fun x => x != r)
    fetches := k.fetches.filter (fun j => j.ent.task != some r)
    disp := if k.disp = some r then none else k.disp
    dispFrom := if k.disp = some r then 0 else k.dispFrom }

theorem clearGang_outside (s : State) (r : Nat) :
    { clearGang s r with pend := [], cores := [], tasks := [] } = { s with pend := [], cores := [], tasks := [] } :=
  foldl_keeps (fun s : State => { s with pend := [], cores := [], tasks := [] }) (f := fun s c => modCore s c (gangCleared r))
    (fun _ _ => rfl) (getTask s r).members _

/-- Clearing a gang leaves the logs. -/
theorem getLog_clearGang (s : State) (r c q : Nat) : getLog (clearGang s r) c q = getLog s c q := by
  refine foldl_keeps (fun s : State => getLog s c q) (f := fun s d => modCore s d (gangCleared r)) (fun t d => ?_)
    (getTask s r).members _
  unfold getLog
  by_cases h : c = d
  · rw [h, getCore_modCore_self]; rfl
  · rw [getCore_modCore_ne _ _ h]

/-- The record of a committed task goes to its next state (R348). -/
def recycle (s : State) (r : Nat) : State :=
  if recInit s r = 0 then setTaskState s r .free else setTaskState (setRecBits s r 3 15 0 (recInit s r)) r .idle

/-- The last part of a release, once the task's locks are released: its successors are armed, its gang is cleared, and its record goes on. -/
def releaseLast (s : State) (r c : Nat) : State :=
  recycle (modTask (clearGang (armSuccessors s r (dieOf c)) r) r (fun k => { k with commitIx := none, drawn := false })) r

/-- What a release does once everything logged has been applied and the logs have been dropped: the task has committed on core `c`. -/
def releaseEnd (s : State) (r c : Nat) : State :=
  releaseLast (freeLocks (serveWaits (setTaskState s r .committed)) r) r c

theorem recycle_outside (s : State) (r : Nat) : { recycle s r with mem := [], tasks := [] } = { s with mem := [], tasks := [] } := by
  unfold recycle
  split
  · exact setTaskState_outside _ _ _
  · exact (setTaskState_outside _ _ _).trans
      (congrArg (fun s : State => { s with tasks := [] }) (setRecBits_outside s r 3 15 0 (recInit s r)) :)

section
variable {s : State} {r c b : Nat} (he : s.locks.entries = []) (hn : s.locks.noRoom = [])
include he hn

/-- The state when a committed task's locks are released, but for what is pending. -/
theorem freed_outside : { freeLocks (serveWaits (setTaskState s r .committed)) r with pend := [], readWaits := [] } =
    { setTaskState s r .committed with pend := [], readWaits := [] } := by
  have hset : (setTaskState s r .committed).locks = s.locks := (congrArg State.locks (setTaskState_outside s r .committed) :)
  generalize setTaskState s r .committed = u at hset ⊢
  have hserve := serveWaits_outside u
  generalize serveWaits u = w at hserve ⊢
  have hlocks : w.locks = s.locks := (congrArg State.locks hserve :).trans hset
  have hfree := freeLocks_of_empty (s := w) r (by rw [hlocks, he]) (by rw [hlocks, hn])
  generalize freeLocks w r = f at hfree ⊢
  exact (congrArg (fun s : State => { s with readWaits := [] }) hfree :).trans hserve

end

theorem getLog_releaseLast (s : State) (r c d q : Nat) : getLog (releaseLast s r c) d q = getLog s d q := by
  let g := clearGang (armSuccessors s r (dieOf c)) r
  have hend : (releaseLast s r c).cores = g.cores :=
    (congrArg State.cores (recycle_outside (modTask g r (fun k => { k with commitIx := none, drawn := false })) r) :)
  calc getLog (releaseLast s r c) d q = getLog g d q := by unfold getLog getCore; rw [hend]
    _ = getLog (armSuccessors s r (dieOf c)) d q := getLog_clearGang _ _ _ _
    _ = getLog s d q := by unfold getLog getCore; rw [armSuccessors_cores]

/-- The end of a release leaves the logs as they stand. -/
theorem getLog_releaseEnd {s : State} (r c d q : Nat) (he : s.locks.entries = []) (hn : s.locks.noRoom = []) :
    getLog (releaseEnd s r c) d q = getLog s d q := by
  have hcores := (congrArg State.cores (freed_outside (r := r) he hn) :).trans
    (congrArg State.cores (setTaskState_outside s r .committed) :)
  rw [releaseEnd, getLog_releaseLast]
  unfold getLog getCore
  rw [hcores]

/-- What the end of a release does to a record without successors: nodes and the memory outside the pool stand, and the record is Free,
or Idle with CNT reloaded from INIT (R348). -/
structure Recycled (s t : State) (r b : Nat) : Prop where
  nodes : t.nodes = s.nodes
  bytes : ∀ i, ¬ InPoolAt b i → t.mem.read i = s.mem.read i
  free : recInit s r = 0 → (getTask t r).st = .free
  idle : 0 < recInit s r → (getTask t r).st = .idle ∧ recCnt t r = recInit s r

theorem recycle_recycled {s : State} {r b : Nat} (hb : s.mgmt.poolBase = some b) (hr : r < 4096) : Recycled s (recycle s r) r b := by
  have hb' : (setRecBits s r 3 15 0 (recInit s r)).mgmt.poolBase = some b := by
    rw [(congrArg State.mgmt (setRecBits_outside s r 3 15 0 (recInit s r)) :)]; exact hb
  refine ⟨(congrArg State.nodes (recycle_outside s r) :), fun i hi => ?_, fun h => ?_, fun h => ?_⟩
  · unfold recycle
    split
    · exact read_setTaskState_off _ _ hb hr hi
    · exact (read_setTaskState_off _ _ hb' hr hi).trans (read_setRecWord_off 3 i _ hb hr (by decide) hi)
  · rw [recycle, if_pos h, getTask_setTaskState_self]
  · rw [recycle, if_neg (by omega)]
    refine ⟨by rw [getTask_setTaskState_self], ?_⟩
    have hlt : recInit s r < 2 ^ 16 := Nat.mod_lt _ (by decide)
    rw [recCnt, bits_recWord_setTaskState _ _ _ hb' (by decide), setRecBits, recWord_setRecWord _ _ hb,
      bits_setBits_self _ _ _ _ (by decide), Nat.mod_eq_of_lt hlt]

theorem Recycled.of_same {s t u : State} {r b : Nat} (h : Recycled t u r b) (hnodes : t.nodes = s.nodes)
    (hbytes : ∀ i, ¬ InPoolAt b i → t.mem.read i = s.mem.read i) (hinit : recInit t r = recInit s r) : Recycled s u r b where
  nodes := h.nodes.trans hnodes
  bytes := fun i hi => (h.bytes i hi).trans (hbytes i hi)
  free := fun h0 => h.free (hinit.trans h0)
  idle := fun h0 => by rw [← hinit] at h0 ⊢; exact h.idle h0

theorem releaseLast_recycled {s : State} {r b : Nat} (c : Nat) (hb : s.mgmt.poolBase = some b) (hr : r < 4096)
    (hsucc : recNsucc s r = 0) : Recycled s (releaseLast s r c) r b := by
  let e := modTask (clearGang s r) r (fun k => { k with commitIx := none, drawn := false })
  have hclear : { e with pend := [], cores := [], tasks := [] } = { s with pend := [], cores := [], tasks := [] } := clearGang_outside s r
  have hb' : e.mgmt.poolBase = some b := by rw [(congrArg State.mgmt hclear :)]; exact hb
  rw [releaseLast, armSuccessors_of_none _ hsucc]
  exact (recycle_recycled (s := e) hb' hr).of_same (congrArg State.nodes hclear :)
    (fun i _ => (congrArg (fun s : State => s.mem.read i) hclear :)) (congrArg (fun s : State => recInit s r) hclear :)

theorem releaseEnd_recycled {s : State} {r b : Nat} (c : Nat) (he : s.locks.entries = []) (hn : s.locks.noRoom = [])
    (hb : s.mgmt.poolBase = some b) (hr : r < 4096) (hsucc : recNsucc s r = 0) : Recycled s (releaseEnd s r c) r b := by
  have hfreed := freed_outside (r := r) he hn
  have hset := setTaskState_outside s r .committed
  unfold releaseEnd
  generalize freeLocks (serveWaits (setTaskState s r .committed)) r = f at hfreed ⊢
  have hmgmt : f.mgmt = s.mgmt := (congrArg State.mgmt hfreed :).trans (congrArg State.mgmt hset :)
  have hword : ∀ hi lo, hi < 40 → bits (recWord f r 3) hi lo = bits (recWord s r 3) hi lo := fun hi lo hw =>
    (congrArg (fun s : State => bits (recWord s r 3) hi lo) hfreed :).trans (bits_recWord_setTaskState _ _ _ hb hw)
  exact (releaseLast_recycled c (by rw [hmgmt]; exact hb) hr ((hword 35 32 (by decide)).trans hsucc)).of_same
    ((congrArg State.nodes hfreed :).trans (congrArg State.nodes hset :))
    (fun i hi => (congrArg (fun s : State => s.mem.read i) hfreed :).trans (read_setTaskState_off _ _ hb hr hi))
    (hword 31 16 (by decide))

end Sys2Proof.Proofs
end

section
namespace Sys2Proof.Proofs

open Sys2Proof.Machine Sys2Proof.Laws Sys2Proof.Claims

/-! The release of a commit (R245, R261, R280). -/

/-- The state in which everything that a task has logged on core `c` has been applied, and the log dropped. -/
def logsApplied (s : State) (r c : Nat) : State :=
  modCore (applyOps (applyData s (getLog s c r)) r [(c, getLog s c r)]) c (fun k => { k with logs := delK k.logs r })

/-- The state after the release of record `r`'s commit on core `c`. -/
def released (s : State) (r c : Nat) : State := releaseEnd (logsApplied s r c) r c

/-- The next commit to be released is released at once: its log is applied and dropped, then the task ends. -/
theorem commitRelease_eq {s : State} {r c b : Nat} (h : NextRelease s r c b) :
    exec (.commitRelease r) s = .next (released s r c) := by
  have hfirst : earlierCommit s r = false := by
    unfold earlierCommit
    rw [List.any_eq_false]
    rintro ⟨q, k⟩ hq hany
    simp only [Bool.and_eq_true, bne_iff_ne, beq_iff_eq] at hany
    exact h.first (q, k) hq hany.1.1 hany.1.2
  have hlogs : taskLogs s r = [(c, getLog s c r)] := by rw [taskLogs, h.members]; rfl
  have hrel : exec (.commitRelease r) s = execCommitRelease r s := rfl
  rw [hrel, execCommitRelease, h.state, hfirst]
  simp only [bne_self_eq_false, Bool.false_eq_true, if_false, hlogs, h.members]
  simp only [List.flatMap_cons, List.flatMap_nil, List.append_nil]
  rfl

theorem settings_logsApplied (s : State) (r c : Nat) : settings (logsApplied s r c) = settings s :=
  (settings_applyOps _ _ _).trans (settings_applyData _ _)

theorem getLog_logsApplied (s : State) (r c : Nat) : getLog (logsApplied s r c) c r = [] := by
  rw [getLog, logsApplied, getCore_modCore_self]
  exact getK_delK_self _ _ _

theorem mgmt_logsApplied (s : State) (r c : Nat) : (logsApplied s r c).mgmt = s.mgmt := congrArg Prod.snd (settings_logsApplied s r c)

section
variable {s : State} {r c b : Nat} (h : NextRelease s r c b)
include h

theorem nextRelease_locks : (logsApplied s r c).locks.entries = [] ∧ (logsApplied s r c).locks.noRoom = [] := by
  have hlocks : (logsApplied s r c).locks = s.locks := congrArg Prod.fst (settings_logsApplied s r c)
  obtain ⟨he, hn, -, -⟩ := h.quiet
  rw [hlocks]; exact ⟨he, hn⟩

/-- A release drops the task's log. -/
theorem nextRelease_drops_log : getLog (released s r c) c r = [] := by
  obtain ⟨he, hn⟩ := nextRelease_locks h
  rw [released, getLog_releaseEnd _ _ _ _ he hn, getLog_logsApplied]

/-- A release that applies nothing to the record pool recycles the record, and what it has applied stands. -/
theorem nextRelease_recycled (hpool : ∀ i, InPoolAt b i → (logsApplied s r c).mem.read i = s.mem.read i) :
    Recycled (logsApplied s r c) (released s r c) r b ∧
      recInit (logsApplied s r c) r = recInit s r := by
  obtain ⟨he, hn⟩ := nextRelease_locks h
  have hmgmt := mgmt_logsApplied s r c
  have hword : recWord (logsApplied s r c) r 3 = recWord s r 3 := recWord_congr h.pool hmgmt h.record (by decide) hpool
  have hsucc : recNsucc (logsApplied s r c) r = 0 := by rw [recNsucc, hword]; exact h.nosucc
  exact ⟨releaseEnd_recycled c he hn (by rw [hmgmt]; exact h.pool) h.record hsucc, by rw [recInit, hword]; rfl⟩

end

/-! Logs of stores and reductions alone. -/

/-- A record of a store or of a reduction. -/
def IsData (e : LogRec) : Prop := (∃ a bs, e = .store a bs) ∨ ∃ a op v, e = .red a op v

theorem foldl_id_of {σ β : Type} {f : σ → β → σ} {l : List β} (h : ∀ x ∈ l, ∀ s, f s x = s) (s : σ) : l.foldl f s = s :=
  List.foldlRecOn (motive := fun t => t = s) l f rfl (fun t ht x hx => by rw [h x hx, ht])

/-- A record's node operation, applied; and its window operation. -/
def applyNodeRec (s : State) (e : LogRec) : State :=
  match e with
  | .node op _ => (applyNodeOp s op).1
  | _ => s

def winOf (e : LogRec) : Option WinOp :=
  match e with
  | .win op _ => some op
  | _ => none

theorem applyOps_single (s : State) (r c : Nat) (log : List LogRec) :
    applyOps s r [(c, log)] = (recordOps log).foldl (applyRecOp (dieOf c))
      (commitWins (openReserved (log.foldl applyNodeRec s) r) (log.filterMap winOf)) := by
  unfold applyOps
  simp only [List.flatMap_cons, List.flatMap_nil, List.append_nil]
  rfl

/-- Stores and reductions are no operations: applying them opens the sequences that the task has reserved, and nothing else. -/
theorem applyOps_of_data {log : List LogRec} (h : ∀ e ∈ log, IsData e) (s : State) (r c : Nat) :
    applyOps s r [(c, log)] = openReserved s r := by
  have hrec : recordOps log = [] := foldl_id_of (fun e he l => by
    obtain ⟨a, bs, rfl⟩ | ⟨a, op, v, rfl⟩ := h e he <;> rfl) []
  have hwin : log.filterMap winOf = [] := List.filterMap_eq_nil_iff.mpr (fun e he => by
    obtain ⟨a, bs, rfl⟩ | ⟨a, op, v, rfl⟩ := h e he <;> rfl)
  have hnode : log.foldl applyNodeRec s = s := foldl_id_of (fun e he s => by
    obtain ⟨a, bs, rfl⟩ | ⟨a, op, v, rfl⟩ := h e he <;> rfl) s
  rw [applyOps_single, hrec, hwin, hnode]; rfl

/-- The bytes and nodes after a log of stores and reductions are those that its data leave. -/
theorem logsApplied_of_data {s : State} {r c : Nat} (h : ∀ e ∈ getLog s c r, IsData e) :
    (logsApplied s r c).mem = (applyData s (getLog s c r)).mem ∧ (logsApplied s r c).nodes = (applyData s (getLog s c r)).nodes := by
  rw [logsApplied, applyOps_of_data h]
  generalize applyData s (getLog s c r) = d
  exact ⟨rfl, rfl⟩

/-- A line of a node that a record writes. -/
def lineOfRec (e : LogRec) : Option (Nat × Nat) :=
  match e with
  | .store (.lin n off) _ => some (n, off / 256)
  | .red (.lin n off) _ _ => some (n, off / 256)
  | _ => none

/-- A log that writes no lineage line leaves the node table. -/
theorem linLines_nil {log : List LogRec} (h : ∀ e ∈ log, lineOfRec e = none) : linLines log = [] := by
  have hlines : log.filterMap lineOfRec = [] := List.filterMap_eq_nil_iff.mpr h
  have hnil : (log.filterMap lineOfRec).eraseDups = [] := by rw [hlines]; rfl
  refine List.flatMap_eq_nil_iff.mpr (fun d _ => ?_)
  exact (congrArg (List.filter _) hnil).trans rfl

/-- The stores of a log of stores to physical addresses are its data. -/
theorem applyData_of_stores {log : List LogRec} (h : ∀ e ∈ log, ∃ a bs, e = .store (.phys a) bs) (s : State) :
    applyData s log = log.foldl applyFlatStore s := by
  have hlin : linLines log = [] := linLines_nil (fun e he => by obtain ⟨a, bs, rfl⟩ := h e he; rfl)
  have hred : (log.foldl applyFlatStore s) = log.foldl applyFlatRed (log.foldl applyFlatStore s) :=
    (foldl_id_of (fun e he s => by obtain ⟨a, bs, rfl⟩ := h e he; rfl) _).symm
  have hdata : applyData s log = (linLines log).foldl (applyLinLine log) (log.foldl applyFlatRed (log.foldl applyFlatStore s)) := rfl
  rw [hdata, hlin, ← hred]; rfl

/-- Stores beside the pool leave its bytes. -/
theorem read_stores_pool {log : List LogRec} {b : Nat}
    (h : ∀ e ∈ log, ∃ a bs, e = .store (.phys a) bs ∧ OffPool b a bs.length) (s : State) {i : Nat} (hi : InPoolAt b i) :
    (log.foldl applyFlatStore s).mem.read i = s.mem.read i := by
  refine List.foldlRecOn (motive := fun t : State => t.mem.read i = s.mem.read i) log applyFlatStore rfl (fun t ht e he => ?_)
  obtain ⟨a, bs, rfl, hoff⟩ := h e he
  unfold OffPool at hoff
  unfold InPoolAt at hi
  exact (read_writeN_out bs t.mem a i (by omega)).trans ht

theorem setK_find (l : List (Nat × List Byte)) (k : Nat) (v : List Byte) : (setK l k v).find? (fun x => x.1 == k) = some (k, v) := by
  induction l with
  | nil => simp [setK]
  | cons e t ih =>
    obtain ⟨j, u⟩ := e
    by_cases h1 : k < j
    · simp [setK, h1]
    · by_cases h2 : k = j
      · simp [setK, h2]
      · have hne : (j == k) = false := by simpa using Ne.symm h2
        simp [setK, h1, h2, hne, ih]

/-- A line that its home slice holds resolves to what it holds there (R277). -/
theorem resolveLine_setDirty (s : State) (n line : Nat) (bs : List Byte) :
    resolveLine (modNode s n (fun k => { k with dirty := setK k.dirty line bs })) n line = bs := by
  rw [resolveLine, show chainFuel = 65552 + 1 from rfl, resolveIn]
  simp [ownLine, getNode_modNode_self, setK_find]

/-- The byte that a logged store of a lineage line leaves at a place of its node. -/
theorem loggedByte_lineStore (n off a : Nat) (bs : List Byte) (old : Byte) :
    loggedByte [.store (.lin n off) bs] (.lin n a) old = if off ≤ a ∧ a < off + bs.length then nth 0 bs (a - off) else old := by
  have hat : ∀ i, gplus (.lin n off) i = .lin n a ↔ off + i = a := fun i => by simp [gplus]
  have hbyte : loggedByte [.store (.lin n off) bs] (.lin n a) old =
      (((List.range bs.length).find? (fun i => gplus (.lin n off) i == .lin n a)).map (nth 0 bs)).getD old := by
    simp only [loggedByte, List.foldl_cons, List.foldl_nil]
    split <;> simp [*]
  rw [hbyte]
  split
  case isTrue hin =>
    have hfind : (List.range bs.length).find? (fun i => gplus (.lin n off) i == .lin n a) = some (a - off) := by
      refine List.find?_range_eq_some.mpr ⟨by rw [beq_iff_eq, hat]; omega, List.mem_range.mpr (by omega), fun j hj => ?_⟩
      rw [Bool.not_eq_true', beq_eq_false_iff_ne, ne_eq, hat]; omega
    rw [hfind]; rfl
  case isFalse hout =>
    have hfind : (List.range bs.length).find? (fun i => gplus (.lin n off) i == .lin n a) = none := by
      simp only [List.find?_eq_none, beq_iff_eq, hat, List.mem_range]
      omega
    rw [hfind]; rfl

/-- A byte of a patched list. -/
theorem nth_patchBytes (l bs : List Byte) (i k : Nat) (hfit : i + bs.length ≤ l.length) :
    nth 0 (patchBytes l i bs) k = if i ≤ k ∧ k < i + bs.length then nth 0 bs (k - i) else nth 0 l k := by
  have htake : (l.take i).length = i := by rw [List.length_take]; omega
  unfold nth patchBytes
  simp only [List.getD_eq_getElem?_getD]
  by_cases hlt : k < i
  · rw [List.append_assoc, List.getElem?_append_left (by omega), List.getElem?_take_of_lt hlt, if_neg (by omega)]
  · by_cases hin : k < i + bs.length
    · rw [List.getElem?_append_left (by rw [List.length_append]; omega), List.getElem?_append_right (by omega), htake,
        if_pos ⟨by omega, hin⟩]
    · rw [List.getElem?_append_right (by rw [List.length_append]; omega), List.length_append, htake, List.getElem?_drop,
        if_neg (by omega), show i + bs.length + (k - (i + bs.length)) = k by omega]

theorem length_patchBytes (l bs : List Byte) (i : Nat) (hfit : i + bs.length ≤ l.length) : (patchBytes l i bs).length = l.length := by
  simp only [patchBytes, List.length_append, List.length_take, List.length_drop]
  omega

/-- A list is the list of its bytes by place. -/
theorem map_nth_range {l : List Byte} {m : Nat} (hlen : l.length = m) : (List.range m).map (nth 0 l) = l := by
  subst hlen
  refine List.ext_getElem (by simp) (fun k h1 h2 => ?_)
  simp [nth, h2]

/-- A line after one logged store is the line with its bytes (R280). -/
theorem lineAfter_store (n off : Nat) (bs base : List Byte) (hbase : base.length = 256) (hfit : off % 256 + bs.length ≤ 256) :
    lineAfter [.store (.lin n off) bs] n (off / 256) base = patchBytes base (off % 256) bs := by
  have hfit' : off % 256 + bs.length ≤ base.length := by omega
  have hlen : (patchBytes base (off % 256) bs).length = 256 := (length_patchBytes base bs _ hfit').trans hbase
  have hbyte : ∀ k ∈ List.range 256, loggedByte [.store (.lin n off) bs] (.lin n (off / 256 * 256 + k)) (nth 0 base k) =
      nth 0 (patchBytes base (off % 256) bs) k := by
    intro k _
    have hplace : off / 256 * 256 + k - off = k - off % 256 := by omega
    have hin : (off ≤ off / 256 * 256 + k ∧ off / 256 * 256 + k < off + bs.length) ↔
        (off % 256 ≤ k ∧ k < off % 256 + bs.length) := by omega
    simp only [loggedByte_lineStore, nth_patchBytes _ _ _ _ hfit', hplace, hin]
  calc lineAfter [.store (.lin n off) bs] n (off / 256) base
      = (List.range 256).map (fun k => loggedByte [.store (.lin n off) bs] (.lin n (off / 256 * 256 + k)) (nth 0 base k)) := rfl
    _ = (List.range 256).map (nth 0 (patchBytes base (off % 256) bs)) := List.map_congr_left hbyte
    _ = patchBytes base (off % 256) bs := map_nth_range hlen

/-! What a release makes visible, by what the log holds (R245, R280, R348). -/

/-- Every record of a log is a store of flat memory beside the record pool. -/
def StoresOffPool (b : Nat) (log : List LogRec) : Prop := ∀ e ∈ log, ∃ a bs, e = .store (.phys a) bs ∧ OffPool b a bs.length

theorem wd_toNat_add (m : Nat) (v : Word) : wd ((m + v.toNat % 256 ^ 8) % 2 ^ 64 % 256 ^ 8) = wd m + v := by
  have hv := v.isLt
  refine BitVec.eq_of_toNat_eq ?_
  simp only [wd, BitVec.toNat_add, BitVec.toNat_ofNat]
  omega

/-- The bytes after one logged sum of eight bytes. -/
theorem applyData_sum (s : State) (a : Nat) (v : Word) : (applyData s [.red (.phys a) 0 v]).mem =
    s.mem.writeN a (toBytes 8 ((s.mem.num a 8 + v.toNat % 256 ^ 8) % 2 ^ 64)) := by
  have hlin : linLines [.red (.phys a) 0 v] = [] := linLines_nil (fun e he => by rw [List.mem_singleton.mp he]; rfl)
  have hdata : applyData s [.red (.phys a) 0 v] =
      (linLines [.red (.phys a) 0 v]).foldl (applyLinLine [.red (.phys a) 0 v]) (applyFlatRed s (.red (.phys a) 0 v)) := rfl
  rw [hdata, hlin]; rfl

/-- One logged store of a lineage line leaves it to the line's home slice. -/
theorem applyData_lineStore (s : State) (n off : Nat) (bs : List Byte) :
    applyData s [.store (.lin n off) bs] = applyLinLine [.store (.lin n off) bs] s (n, off / 256) := rfl

section
variable {s : State} {r c b : Nat} (h : NextRelease s r c b)
include h

theorem released_of_stores (hlog : StoresOffPool b (getLog s c r)) :
    (logsApplied s r c).mem = ((getLog s c r).foldl applyFlatStore s).mem ∧
      Recycled (logsApplied s r c) (released s r c) r b ∧ recInit (logsApplied s r c) r = recInit s r := by
  have hmem : (logsApplied s r c).mem = ((getLog s c r).foldl applyFlatStore s).mem := by
    rw [(logsApplied_of_data (fun e he => by obtain ⟨a, bs, rfl, -⟩ := hlog e he; exact .inl ⟨_, _, rfl⟩)).1,
      applyData_of_stores (fun e he => by obtain ⟨a, bs, rfl, -⟩ := hlog e he; exact ⟨_, _, rfl⟩)]
  refine ⟨hmem, nextRelease_recycled h (fun i hi => ?_)⟩
  rw [hmem]
  exact read_stores_pool hlog s hi

/-- The record of a task with INIT 0 becomes Free. -/
theorem released_free (hinit : recInit s r = 0) (hlog : StoresOffPool b (getLog s c r)) : (getTask (released s r c) r).st = .free := by
  obtain ⟨-, hrec, hsame⟩ := released_of_stores h hlog
  exact hrec.free (hsame.trans hinit)

/-- The record of a task with an INIT becomes Idle, CNT reloaded. -/
theorem released_idle (hinit : 0 < recInit s r) (hlog : getLog s c r = []) :
    (getTask (released s r c) r).st = .idle ∧ recCnt (released s r c) r = recInit s r := by
  obtain ⟨-, hrec, hsame⟩ := released_of_stores h (by rw [hlog]; exact fun _ he => absurd he List.not_mem_nil)
  have hidle := hrec.idle
  rw [hsame] at hidle
  exact hidle hinit

/-- A logged store is visible after the release, and no byte beside it and the pool changes. -/
theorem released_store {a : Nat} {bs : List Byte} (hlog : getLog s c r = [.store (.phys a) bs]) (hoff : OffPool b a bs.length) :
    (released s r c).mem.readN a bs.length = bs ∧
      ∀ i, ¬(a ≤ i ∧ i < a + bs.length) → ¬ InPoolAt b i → (released s r c).mem.read i = s.mem.read i := by
  obtain ⟨hmem, hrec, -⟩ := released_of_stores h (by
    rw [hlog]; exact fun e he => ⟨a, bs, List.mem_singleton.mp he, hoff⟩)
  replace hmem : (logsApplied s r c).mem = s.mem.writeN a bs := by rw [hmem, hlog]; rfl
  refine ⟨?_, fun i hi hpool => ?_⟩
  · rw [readN_congr bs.length a (fun i h1 h2 => hrec.bytes i (by unfold OffPool at hoff; unfold InPoolAt; omega)), hmem]
    exact readN_writeN bs s.mem a
  · rw [hrec.bytes i hpool, hmem]
    exact read_writeN_out bs s.mem a i (by omega)

/-- A logged sum is visible after the release. -/
theorem released_sum {a : Nat} {v : Word} (hlog : getLog s c r = [.red (.phys a) 0 v]) (hoff : OffPool b a 8) :
    wd ((released s r c).mem.num a 8) = wd (s.mem.num a 8) + v := by
  unfold OffPool at hoff
  have hdata : ∀ e ∈ getLog s c r, IsData e := by
    rw [hlog]; exact fun e he => .inr ⟨_, _, _, List.mem_singleton.mp he⟩
  have hmem := (logsApplied_of_data hdata).1
  rw [hlog, applyData_sum] at hmem
  obtain ⟨hrec, -⟩ := nextRelease_recycled h (fun i hi => by
    rw [hmem]
    exact read_writeN_out _ s.mem a i (by rw [length_toBytes]; unfold InPoolAt at hi; omega))
  have hread : (released s r c).mem.num a 8 = (logsApplied s r c).mem.num a 8 :=
    congrArg ofBytes (readN_congr 8 a (fun i h1 h2 => hrec.bytes i (by unfold InPoolAt; omega)))
  rw [hread, hmem, num_writeN_toBytes, wd_toNat_add]

/-- A logged store of a lineage line is in the line after the release. -/
theorem released_lineStore {n off : Nat} {bs : List Byte} (hlog : getLog s c r = [.store (.lin n off) bs])
    (hfit : off % 256 + bs.length ≤ 256) (hline : (resolveLine s n (off / 256)).length = 256) :
    resolveLine (released s r c) n (off / 256) = patchBytes (resolveLine s n (off / 256)) (off % 256) bs := by
  have hdata : ∀ e ∈ getLog s c r, IsData e := by
    rw [hlog]; exact fun e he => .inl ⟨_, _, List.mem_singleton.mp he⟩
  obtain ⟨hmem, hnodes⟩ := logsApplied_of_data hdata
  rw [hlog, applyData_lineStore] at hmem hnodes
  obtain ⟨hrec, -⟩ := nextRelease_recycled h (fun i _ => by rw [hmem]; rfl)
  have hsame : getNode (released s r c) = getNode (applyLinLine [.store (.lin n off) bs] s (n, off / 256)) := by
    funext m; rw [getNode, hrec.nodes, hnodes]; rfl
  calc resolveLine (released s r c) n (off / 256)
      = resolveLine (applyLinLine [.store (.lin n off) bs] s (n, off / 256)) n (off / 256) := by rw [resolveLine, hsame]; rfl
    _ = lineAfter [.store (.lin n off) bs] n (off / 256) (resolveLine s n (off / 256)) := resolveLine_setDirty _ _ _ _
    _ = patchBytes (resolveLine s n (off / 256)) (off % 256) bs := lineAfter_store _ _ _ _ hline hfit

end

end Sys2Proof.Proofs

/-- Settles O46: the start is `commitStart_starts`; the release applies the log (`logsApplied`), which no operation, lock or successor follows
here, and recycles the record (`releaseEnd_recycled`). -/
theorem commit : Obligations.Commit := by
  refine ⟨fun s r hretired hhorizon holdest hstores => ?_, fun s r c b h => ?_⟩
  · exact Sys2Proof.Proofs.commitStart_starts (Sys2Proof.Proofs.mayCommit_of_oldest hretired hhorizon holdest hstores)
  · refine ⟨Sys2Proof.Proofs.released s r c, Sys2Proof.Proofs.commitRelease_eq h, Sys2Proof.Proofs.nextRelease_drops_log h,
      Sys2Proof.Proofs.released_free h, Sys2Proof.Proofs.released_idle h, fun a bs hlog hoff => ?_, fun a v hlog hoff => ?_,
      fun n off bs hlog hfit _ hline => ?_⟩
    · exact Sys2Proof.Proofs.released_store h hlog hoff
    · exact Sys2Proof.Proofs.released_sum h hlog hoff
    · exact Sys2Proof.Proofs.released_lineStore h hlog hfit hline
end

section
namespace Sys2Proof.Proofs

open Sys2Proof.Machine Sys2Proof.Laws

/-! PX words and their payloads (Table 3.2), and the immediate in its groups of 11 bits (R41, R49). -/

/-- A word with `t` in its five high bits: 31 for PX.P, 30 for PX.C, 29 for PX.R, 28 for PX.I. -/
def tagged (t n : Nat) : IWord := BitVec.ofNat 16 (t * 2048 + n)

theorem wbits_payload (w : IWord) {hi lo : Nat} (hlo : lo ≤ 11) (hhi : hi < 11) :
    wbits w hi lo = w.toNat % 2048 / 2 ^ lo % 2 ^ (hi + 1 - lo) := by
  rw [show 2048 = 2 ^ lo * 2 ^ (11 - lo) by rw [← Nat.pow_add, Nat.add_sub_cancel' hlo], Nat.mod_mul_right_div_self,
    Nat.mod_mod_of_dvd _ (Nat.pow_dvd_pow 2 (by omega))]
  rfl

section
variable {t n : Nat} (hn : n < 2048)
include hn

/-- A field within the payload reads the same whatever the tag. -/
theorem wbits_tagged {hi lo : Nat} (hlo : lo ≤ 11) (hhi : hi < 11) : wbits (tagged t n) hi lo = n / 2 ^ lo % 2 ^ (hi + 1 - lo) := by
  rw [wbits_payload _ hlo hhi, tagged, BitVec.toNat_ofNat]
  congr 2; omega

/-- A PX word that is left out because its payload is 0 reads as that payload. -/
theorem wbits_tagged_getD {b : Bool} (hb : b = false → n = 0) {hi lo : Nat} (hlo : lo ≤ 11) (hhi : hi < 11) :
    wbits ((if b then some (tagged t n) else none).getD 0) hi lo = n / 2 ^ lo % 2 ^ (hi + 1 - lo) := by
  cases b with
  | true => exact wbits_tagged hn hlo hhi
  | false => simp [wbits, hb rfl]

/-- The tags from 28 up are the prefixes' (R47). -/
theorem isPrefix_tagged (ht : t < 32) : isPrefix (tagged t n) = decide (28 ≤ t) := by
  have htop : (t * 2048 + n) % 65536 / 8192 % 8 = t / 4 := by omega
  simp only [isPrefix, wbits, tagged, BitVec.toNat_ofNat, Nat.reducePow, Nat.reduceAdd, Nat.reduceSub, htop]
  by_cases h : 28 ≤ t
  · simp [h, show t / 4 = 7 by omega]
  · simp [h, show t / 4 ≠ 7 by omega]

theorem prefixRank_tagged (ht : t < 32) (hp : 28 ≤ t) : prefixRank (tagged t n) = 32 - t := by
  have hkind : wbits (tagged t n) 12 11 = t - 28 := by
    simp only [wbits, tagged, BitVec.toNat_ofNat, Nat.reducePow, Nat.reduceAdd, Nat.reduceSub]; omega
  unfold prefixRank
  rw [hkind]
  obtain rfl | rfl | rfl | rfl : t = 28 ∨ t = 29 ∨ t = 30 ∨ t = 31 := by omega
  all_goals rfl

end

/-- What the decoder makes of its immediate groups, lowest first. -/
theorem foldr_encodeImm (j v : Nat) :
    ((encodeImm j v).map (wbits · 10 0)).foldr (fun v acc => v + 2048 * acc) 0 = v % 2048 ^ j := by
  induction j generalizing v with
  | zero => simp [encodeImm, Nat.mod_one]
  | succ j ih =>
    have hlow : wbits (BitVec.ofNat 16 (0xE000 + v % 2048)) 10 0 = v % 2048 := by
      have h := wbits_tagged (t := 28) (Nat.mod_lt v (by decide : 2048 > 0)) (lo := 0) (hi := 10) (by decide) (by decide)
      simpa [tagged] using h
    simp only [encodeImm, List.map_cons, List.foldr_cons, hlow, ih]
    rw [Nat.pow_succ', Nat.mod_mul]

@[simp] theorem length_encodeImm (j v : Nat) : (encodeImm j v).length = j := by
  induction j generalizing v with
  | zero => rfl
  | succ j ih => simp [encodeImm, ih]

/-- The signed reading is the balanced remainder. -/
theorem signed_eq_bmod (w n : Nat) : signed w n = (n : Int).bmod (2 ^ w) := by
  have hmod : (n : Int) % (2 ^ w : Nat) = (n % 2 ^ w : Nat) := rfl
  have hcond : 2 * (n % 2 ^ w) < 2 ^ w ↔ ((n % 2 ^ w : Nat) : Int) < ((2 ^ w : Nat) + 1) / 2 := by omega
  simp only [signed, Int.bmod_def, hmod, hcond]

/-- A value that fits `j` groups by sign is the signed reading of its low `11 * j` bits. -/
theorem signed_of_fitsS {j : Nat} (hj : j ≤ 5) {x : Word} (h : fitsS j x = true) : signed (11 * j) x.toNat = x.toInt := by
  have hdvd : 2 ^ (11 * j) ∣ 2 ^ 64 := Nat.pow_dvd_pow 2 (by omega)
  have hx : signed 64 x.toNat = x.toInt := by rw [signed_eq_bmod, BitVec.toInt_eq_toNat_bmod]
  rw [signed_eq_bmod, ← Int.bmod_bmod_of_dvd hdvd, ← BitVec.toInt_eq_toNat_bmod]
  unfold fitsS at h
  dsimp only at h
  rw [hx] at h
  split at h
  · subst j; rw [beq_iff_eq.mp h]; rfl
  · simp only [Bool.and_eq_true, decide_eq_true_eq] at h
    apply Int.bmod_eq_of_le <;> omega

/-- The groups of an immediate that fits them read back as that immediate. -/
theorem decodeImm_encodeImm {k : ImmKind} {mod : BitVec 3} {j : Nat} {x : Word} (hj : j ≤ 5) (h : immFits k mod j x = true) :
    decodeImm k mod ((encodeImm j x.toNat).map (wbits · 10 0)) = x := by
  have hpow : 2048 ^ j = 2 ^ (11 * j) := by rw [Nat.pow_mul]
  unfold immFits at h
  simp only [decodeImm, foldr_encodeImm, List.length_map, length_encodeImm, hpow]
  split at h
  · have hsigned : signed (11 * j) (x.toNat % 2 ^ (11 * j)) = signed (11 * j) x.toNat := by simp [signed]
    rw [if_pos ‹_›, hsigned, signed_of_fitsS hj h, BitVec.ofInt_toInt]
  · rw [if_neg ‹_›, Nat.mod_eq_of_lt (of_decide_eq_true h), BitVec.ofNat_toNat, BitVec.setWidth_eq]

theorem immCount_le (k : ImmKind) (mod : BitVec 3) (x : Word) : immCount k mod x ≤ k.words := by
  unfold immCount
  cases h : (List.range k.words).find? (fun j => immFits k mod j x) with
  | none => exact Nat.le_refl _
  | some j => exact Nat.le_of_lt (List.mem_range.mp (List.mem_of_find?_eq_some h))

/-- The fewest groups carry an immediate that the row can carry. -/
theorem immFits_immCount {k : ImmKind} {mod : BitVec 3} {x : Word} (h : immFits k mod k.words x = true) :
    immFits k mod (immCount k mod x) x = true := by
  unfold immCount
  cases hfind : (List.range k.words).find? (fun j => immFits k mod j x) with
  | none => exact h
  | some j => simpa using List.find?_some hfind

/-- An immediate 0 takes no group. -/
theorem immCount_zero (k : ImmKind) (mod : BitVec 3) : immCount k mod 0 = 0 := by
  have hfits : immFits k mod 0 0 = true := by unfold immFits; split <;> rfl
  unfold immCount
  cases k.words with
  | zero => rfl
  | succ n => simp only [List.range_succ_eq_map, List.find?_cons, hfits]; rfl

end Sys2Proof.Proofs
end

section
namespace Sys2Proof.Proofs

open Sys2Proof.Machine Sys2Proof.Laws

/-! An operand that its field permits reads back from its class and number (R51 to R53), and a row of the opcode map by its code (R55). -/

theorem numOf_lt (o : Opnd) : numOf o < 128 := by
  cases o with
  | mem p inc => have hp := p.isLt; cases inc <;> simp only [numOf] <;> omega
  | none => decide
  | _ n => have hn := n.isLt; simp only [numOf]; omega

theorem clsOf_lt (o : Opnd) : clsOf o < 6 := by
  cases o <;> simp [clsOf]

theorem opndOk_none {mark : PxcMark} {o : Opnd} (h : opndOk mark .none o = true) : o = .none := by
  cases o <;> simp_all [opndOk]

/-- Without PX.C an operand is of its field's native class. -/
theorem opndOk_native {k : FKind} {o : Opnd} (h : opndOk .no k o = true) : clsOf o = nativeCls k := by
  unfold opndOk at h
  split at h <;> simp_all [clsOf, nativeCls]

/-- Only a memory field holds an increment register. -/
theorem kind_of_incReg {mark : PxcMark} {k : FKind} {o : Opnd} (h : opndOk mark k o = true) (hr : (incReg o).isSome = true) : k = .mem := by
  cases o with
  | mem p inc => cases k <;> simp_all [opndOk]
  | _ => simp [incReg] at hr

/-- The number of a memory operand is its pointer and its increment kind (R53). -/
theorem decodeOpnd_mem {mark : PxcMark} {p : BitVec 3} {inc : Inc} {fc : BitVec 7} (hfc : ∀ n, inc = .reg n → fc = n) :
    decodeOpnd mark .mem 0 (numOf (.mem p inc)) fc = some (.mem p inc) := by
  have hp : p.toNat < 8 := p.isLt
  have hptr {m : Nat} (hm : m % 8 = p.toNat) : BitVec.ofNat 3 (m % 8) = p := by rw [hm]; exact BitVec.ofNat_toNat ..
  cases inc with
  | none => simp [decodeOpnd, numOf, opndOk, hptr (Nat.mod_eq_of_lt hp), Nat.div_eq_of_lt hp, show p.toNat < 32 by omega]
  | size =>
    simp [decodeOpnd, numOf, opndOk, hptr (Nat.mod_eq_of_lt hp), show (p.toNat + 8) / 8 = 1 by omega, show p.toNat + 8 < 32 by omega]
  | imm =>
    simp [decodeOpnd, numOf, opndOk, hptr (m := p.toNat + 16) (by omega), show (p.toNat + 16) / 8 = 2 by omega, show p.toNat + 16 < 32 by omega]
  | reg n =>
    simp [decodeOpnd, numOf, opndOk, hptr (m := p.toNat + 24) (by omega), show (p.toNat + 24) / 8 = 3 by omega, show p.toNat + 24 < 32 by omega,
      hfc n rfl]

/-- An operand that its field permits reads back from its class code and number, given its increment register in field fc. -/
theorem decodeOpnd_encode {mark : PxcMark} {k : FKind} {o : Opnd} {fc : BitVec 7} (h : opndOk mark k o = true)
    (hfc : ∀ n, incReg o = some n → fc = n) : decodeOpnd mark k (clsOf o) (numOf o) fc = some o := by
  cases o with
  | mem p inc =>
    obtain rfl : k = .mem := by cases k <;> simp_all [opndOk]
    exact decodeOpnd_mem (fun n hn => hfc n (by rw [hn]; rfl))
  | none =>
    obtain rfl : k = .none := by cases k <;> simp_all [opndOk]
    rfl
  | _ n =>
    have hn := n.isLt
    cases k <;> simp_all [decodeOpnd, opndOk, clsOf, numOf, Option.filter]

/-- A row's code is a page below 8 and an op6 whose word is none of the prefixes; field fc holds no memory operand. -/
def regularRow (r : Row) : Bool := decide (r.code < 512) && decide (r.code % 64 < 56) && r.fc != .mem

theorem rows_all_regular : rows.all regularRow = true := by
  simp only [rows, List.all_append, Bool.and_eq_true]
  exact ⟨⟨⟨⟨⟨⟨⟨rfl, rfl⟩, rfl⟩, rfl⟩, rfl⟩, rfl⟩, rfl⟩, rfl⟩

/-- The row that stands at a code is regular and has that code. -/
theorem rowOf_regular {code : Nat} {r : Row} (h : rowOf code = some r) : r.code = code ∧ r.code < 512 ∧ r.code % 64 < 56 ∧ r.fc ≠ .mem := by
  have hreg := List.all_eq_true.mp rows_all_regular r (List.mem_of_find?_eq_some h)
  simp only [regularRow, Bool.and_eq_true, decide_eq_true_eq, bne_iff_ne] at hreg
  obtain ⟨⟨hcode, hop⟩, hfc⟩ := hreg
  exact ⟨beq_iff_eq.mp (List.find?_some h :), hcode, hop, hfc⟩

/-- The family `RoundTrip` over every instruction; an event has no code. -/
theorem roundTrip (i : Instr) : RoundTrip.Statement i := by
  cases i with
  | add x => exact RoundTrip.add x | sub x => exact RoundTrip.sub x | mul x => exact RoundTrip.mul x | mulh x => exact RoundTrip.mulh x
  | div x => exact RoundTrip.div x | rem x => exact RoundTrip.rem x | and x => exact RoundTrip.and x | or x => exact RoundTrip.or x
  | xor x => exact RoundTrip.xor x | andn x => exact RoundTrip.andn x | shl x => exact RoundTrip.shl x | shr x => exact RoundTrip.shr x
  | sar x => exact RoundTrip.sar x | rol x => exact RoundTrip.rol x | min x => exact RoundTrip.min x | max x => exact RoundTrip.max x
  | addi x => exact RoundTrip.addi x | andi x => exact RoundTrip.andi x | ori x => exact RoundTrip.ori x | xori x => exact RoundTrip.xori x
  | shli x => exact RoundTrip.shli x | shri x => exact RoundTrip.shri x | sari x => exact RoundTrip.sari x | roli x => exact RoundTrip.roli x
  | clz x => exact RoundTrip.clz x | ctz x => exact RoundTrip.ctz x | popc x => exact RoundTrip.popc x | abs x => exact RoundTrip.abs x
  | neg x => exact RoundTrip.neg x | sext x => exact RoundTrip.sext x | zext x => exact RoundTrip.zext x | mov x => exact RoundTrip.mov x
  | movi x => exact RoundTrip.movi x | bfx x => exact RoundTrip.bfx x | bfi x => exact RoundTrip.bfi x | sel x => exact RoundTrip.sel x
  | cmpEq x => exact RoundTrip.cmpEq x | cmpNe x => exact RoundTrip.cmpNe x | cmpLt x => exact RoundTrip.cmpLt x
  | cmpLe x => exact RoundTrip.cmpLe x | cmpiEq x => exact RoundTrip.cmpiEq x | cmpiNe x => exact RoundTrip.cmpiNe x
  | cmpiLt x => exact RoundTrip.cmpiLt x | cmpiLe x => exact RoundTrip.cmpiLe x | tst x => exact RoundTrip.tst x | fadd x => exact RoundTrip.fadd x
  | fsub x => exact RoundTrip.fsub x | fmul x => exact RoundTrip.fmul x | fmin x => exact RoundTrip.fmin x | fmax x => exact RoundTrip.fmax x
  | ffma x => exact RoundTrip.ffma x | fabs x => exact RoundTrip.fabs x | fneg x => exact RoundTrip.fneg x | fexp2 x => exact RoundTrip.fexp2 x
  | frcp x => exact RoundTrip.frcp x | fcvt x => exact RoundTrip.fcvt x | fcmpEq x => exact RoundTrip.fcmpEq x
  | fcmpLt x => exact RoundTrip.fcmpLt x | fcmpLe x => exact RoundTrip.fcmpLe x | fcmpUn x => exact RoundTrip.fcmpUn x
  | padd x => exact RoundTrip.padd x | pmk x => exact RoundTrip.pmk x | pget x => exact RoundTrip.pget x | pmov x => exact RoundTrip.pmov x
  | qand x => exact RoundTrip.qand x | qor x => exact RoundTrip.qor x | qxor x => exact RoundTrip.qxor x | qnot x => exact RoundTrip.qnot x
  | qmov x => exact RoundTrip.qmov x | br x => exact RoundTrip.br x | jmp x => exact RoundTrip.jmp x | call x => exact RoundTrip.call x
  | ret x => exact RoundTrip.ret x | nop x => exact RoundTrip.nop x | halt x => exact RoundTrip.halt x | sleep x => exact RoundTrip.sleep x
  | ld x => exact RoundTrip.ld x | st x => exact RoundTrip.st x | ldx x => exact RoundTrip.ldx x | stx x => exact RoundTrip.stx x
  | lswap x => exact RoundTrip.lswap x | lcas x => exact RoundTrip.lcas x | ladd x => exact RoundTrip.ladd x | vadd x => exact RoundTrip.vadd x
  | vsub x => exact RoundTrip.vsub x | vmul x => exact RoundTrip.vmul x | vfma x => exact RoundTrip.vfma x | vmin x => exact RoundTrip.vmin x
  | vmax x => exact RoundTrip.vmax x | vabs x => exact RoundTrip.vabs x | vneg x => exact RoundTrip.vneg x | vexp x => exact RoundTrip.vexp x
  | vrcp x => exact RoundTrip.vrcp x | vrsq x => exact RoundTrip.vrsq x | vcvt x => exact RoundTrip.vcvt x | vcpy x => exact RoundTrip.vcpy x
  | vsum x => exact RoundTrip.vsum x | vrmax x => exact RoundTrip.vrmax x | vrmin x => exact RoundTrip.vrmin x | vdot x => exact RoundTrip.vdot x
  | vscal x => exact RoundTrip.vscal x | vfill x => exact RoundTrip.vfill x | vclamp x => exact RoundTrip.vclamp x
  | vcmp x => exact RoundTrip.vcmp x | vsel x => exact RoundTrip.vsel x | vgath x => exact RoundTrip.vgath x | vscat x => exact RoundTrip.vscat x
  | vtrans x => exact RoundTrip.vtrans x | mma x => exact RoundTrip.mma x | mmas x => exact RoundTrip.mmas x | mldb x => exact RoundTrip.mldb x
  | mrot x => exact RoundTrip.mrot x | mdrop x => exact RoundTrip.mdrop x | mza x => exact RoundTrip.mza x | mst x => exact RoundTrip.mst x
  | mlda x => exact RoundTrip.mlda x | macc x => exact RoundTrip.macc x | rep x => exact RoundTrip.rep x | repw x => exact RoundTrip.repw x
  | mcorr x => exact RoundTrip.mcorr x | ldg x => exact RoundTrip.ldg x | stg x => exact RoundTrip.stg x | amo x => exact RoundTrip.amo x
  | amoc x => exact RoundTrip.amoc x | red x => exact RoundTrip.red x | fence x => exact RoundTrip.fence x | pfg x => exact RoundTrip.pfg x
  | cpy x => exact RoundTrip.cpy x | cpy2 x => exact RoundTrip.cpy2 x | cpyg x => exact RoundTrip.cpyg x | qfence x => exact RoundTrip.qfence x
  | qst x => exact RoundTrip.qst x | send x => exact RoundTrip.send x | sendl x => exact RoundTrip.sendl x | mpk x => exact RoundTrip.mpk x
  | mclr x => exact RoundTrip.mclr x | mbind x => exact RoundTrip.mbind x | lnks x => exact RoundTrip.lnks x | bari x => exact RoundTrip.bari x
  | bara x => exact RoundTrip.bara x | barw x => exact RoundTrip.barw x | barq x => exact RoundTrip.barq x | nesti x => exact RoundTrip.nesti x
  | nestn x => exact RoundTrip.nestn x | nestq x => exact RoundTrip.nestq x | waita x => exact RoundTrip.waita x
  | stamp x => exact RoundTrip.stamp x | patch x => exact RoundTrip.patch x | arm x => exact RoundTrip.arm x | tdone x => exact RoundTrip.tdone x
  | tq x => exact RoundTrip.tq x | tfail x => exact RoundTrip.tfail x | rqp x => exact RoundTrip.rqp x | rqt x => exact RoundTrip.rqt x
  | fork x => exact RoundTrip.fork x | rebase x => exact RoundTrip.rebase x | flat x => exact RoundTrip.flat x | drop x => exact RoundTrip.drop x
  | lnq x => exact RoundTrip.lnq x | ldel x => exact RoundTrip.ldel x | lres x => exact RoundTrip.lres x | kvo x => exact RoundTrip.kvo x
  | kvw x => exact RoundTrip.kvw x | kvc x => exact RoundTrip.kvc x | kvd x => exact RoundTrip.kvd x | kvq x => exact RoundTrip.kvq x
  | pgal x => exact RoundTrip.pgal x | pgfr x => exact RoundTrip.pgfr x | lock x => exact RoundTrip.lock x | lcv x => exact RoundTrip.lcv x
  | lq x => exact RoundTrip.lq x | lmld x => exact RoundTrip.lmld x | selk x => exact RoundTrip.selk x | softk x => exact RoundTrip.softk x
  | hpush x => exact RoundTrip.hpush x | hpop x => exact RoundTrip.hpop x | hclr x => exact RoundTrip.hclr x | htopp x => exact RoundTrip.htopp x
  | rand x => exact RoundTrip.rand x | biasu x => exact RoundTrip.biasu x | biasf x => exact RoundTrip.biasf x | adpl x => exact RoundTrip.adpl x
  | mfc x => exact RoundTrip.mfc x | mtc x => exact RoundTrip.mtc x | start x => exact RoundTrip.start x | reap x => exact RoundTrip.reap x
  | swap x => exact RoundTrip.swap x | wmf x => exact RoundTrip.wmf x | wmt x => exact RoundTrip.wmt x | trap x => exact RoundTrip.trap x
  | rft x => exact RoundTrip.rft x | brk x => exact RoundTrip.brk x | step x => exact RoundTrip.step x | hold x => exact RoundTrip.hold x
  | resume x => exact RoundTrip.resume x | tlbi x => exact RoundTrip.tlbi x | ccf x => exact RoundTrip.ccf x
  | _ => exact fun _ h => nomatch h

end Sys2Proof.Proofs
end

section
namespace Sys2Proof.Proofs

open Sys2Proof.Machine Sys2Proof.Laws

/-! Reading the prefixes of a chain (R48): each in its rank, at most four, none of them bad. -/

/-- One of the prefixes, of rank `k`, that may stand in a chain. -/
structure PrefixOf (k : Nat) (w : IWord) : Prop where
  isPrefix : isPrefix w = true
  rank : prefixRank w = k
  good : prefixBad w = false

theorem add_rank (q : Prefixes) (w : IWord) : (q.add w).rank = prefixRank w := by
  unfold Prefixes.add; dsimp only; split <;> simp_all

/-- A PX word in its place is taken into account. -/
theorem decodeFrom_prefix {q : Prefixes} {k : Nat} {w : IWord} (hw : PrefixOf k w) (hrank : q.rank < k ∨ (q.rank = k ∧ k = 4))
    (hcount : q.count < 4) (ws : List IWord) : decodeFrom q (w :: ws) = decodeFrom (q.add w) ws := by
  have hplace : (prefixRank w < q.rank || (prefixRank w == q.rank && q.rank != 4)) = false := by
    rw [hw.rank]
    rcases hrank with h | ⟨hq, rfl⟩
    · simp [Nat.le_of_lt h, Nat.ne_of_gt h]
    · simp [hq]
  simp [decodeFrom, hw.isPrefix, hw.good, hplace, Nat.not_le.mpr hcount]

/-- The prefixes read once an optional PX word has been passed. -/
def addIf (q : Prefixes) (b : Bool) (w : IWord) : Prefixes := if b then q.add w else q

theorem addIf_count (q : Prefixes) (b : Bool) (w : IWord) : (addIf q b w).count = q.count + b.toNat := by
  cases b with
  | true => exact add_count q w
  | false => rfl

theorem addIf_rank_le {q : Prefixes} {b : Bool} {k : Nat} {w : IWord} (hw : PrefixOf k w) (h : q.rank ≤ k) : (addIf q b w).rank ≤ k := by
  cases b with
  | true => exact Nat.le_of_eq ((add_rank q w).trans hw.rank)
  | false => exact h

theorem decodeFrom_optional {q : Prefixes} {b : Bool} {k : Nat} {w : IWord} (hw : PrefixOf k w) (hrank : q.rank < k)
    (hcount : q.count + b.toNat ≤ 4) (ws : List IWord) :
    decodeFrom q ((if b then [w] else []) ++ ws) = decodeFrom (addIf q b w) ws := by
  cases b with
  | true => exact decodeFrom_prefix hw (.inl hrank) hcount ws
  | false => rfl

/-! What an optional PX word of each rank changes. -/

section
variable {w : IWord} (q : Prefixes) (b : Bool)

theorem addIf_pxP (hw : PrefixOf 1 w) :
    addIf q b w = { q with count := q.count + b.toNat, rank := if b then 1 else q.rank, p := if b then some w else q.p } := by
  cases b <;> simp [addIf, Prefixes.add, hw.rank]

theorem addIf_pxC (hw : PrefixOf 2 w) :
    addIf q b w = { q with count := q.count + b.toNat, rank := if b then 2 else q.rank, c := if b then some w else q.c } := by
  cases b <;> simp [addIf, Prefixes.add, hw.rank]

theorem addIf_pxR (hw : PrefixOf 3 w) :
    addIf q b w = { q with count := q.count + b.toNat, rank := if b then 3 else q.rank, r := if b then some w else q.r } := by
  cases b <;> simp [addIf, Prefixes.add, hw.rank]

end

/-! The words of the encoder are prefixes of their ranks. -/

/-- The payload of an instruction's PX.P. -/
def payloadP (r : Row) (x : Args) : Nat := r.code / 64 * 128 + x.guard.toNat * 16 + x.sense.toNat * 8 + x.mod.toNat

/-- The payload of its PX.C. -/
def payloadC (x : Args) : Nat := clsOf x.a * 256 + clsOf x.b * 32 + clsOf x.c * 4

/-- The payload of its PX.R. -/
def payloadR (x : Args) : Nat := numOf x.a / 32 * 512 + numOf x.b / 32 * 128 + fcNum x

theorem encodeP_eq (r : Row) (x : Args) : encodeP r x = tagged 31 (payloadP r x) := by
  unfold encodeP tagged payloadP; congr 1; omega

theorem encodeC_eq (x : Args) : encodeC x = tagged 30 (payloadC x) := by
  unfold encodeC tagged payloadC; congr 1; omega

theorem encodeR_eq (x : Args) : encodeR x = tagged 29 (payloadR x) := by
  unfold encodeR tagged payloadR; congr 1; omega

theorem payloadP_lt {r : Row} (x : Args) (hcode : r.code < 512) : payloadP r x < 1024 := by
  have hguard := x.guard.isLt
  have hsense := Bool.toNat_le x.sense
  have hmod := x.mod.isLt
  unfold payloadP; omega

theorem payloadC_lt (x : Args) : payloadC x < 2048 := by
  have ha := clsOf_lt x.a
  have hb := clsOf_lt x.b
  have hc := clsOf_lt x.c
  unfold payloadC; omega

theorem fcNum_lt (x : Args) : fcNum x < 128 := by
  unfold fcNum
  split
  · exact BitVec.isLt _
  · exact BitVec.isLt _
  · exact numOf_lt x.c

theorem payloadR_lt (x : Args) : payloadR x < 2048 := by
  have ha := numOf_lt x.a
  have hb := numOf_lt x.b
  have hc := fcNum_lt x
  unfold payloadR; omega

/-- A page below 8 is no reason to refuse a PX.P. -/
theorem prefixOf_encodeP {r : Row} (x : Args) (hcode : r.code < 512) : PrefixOf 1 (encodeP r x) := by
  have hlt := payloadP_lt x hcode
  have hn : payloadP r x < 2048 := by omega
  have hrank := prefixRank_tagged (t := 31) hn (by decide) (by decide)
  rw [encodeP_eq]
  refine ⟨isPrefix_tagged hn (by decide), hrank, ?_⟩
  have hpage : payloadP r x / 128 % 16 < 8 := by omega
  simpa [prefixBad, hrank, wbits_tagged hn] using hpage

/-- A PX.C of the encoder has no spare bit and class codes below 6. -/
theorem prefixOf_encodeC (x : Args) : PrefixOf 2 (encodeC x) := by
  have hn := payloadC_lt x
  have hrank := prefixRank_tagged (t := 30) hn (by decide) (by decide)
  rw [encodeC_eq]
  refine ⟨isPrefix_tagged hn (by decide), hrank, ?_⟩
  have ha := clsOf_lt x.a
  have hb := clsOf_lt x.b
  have hc := clsOf_lt x.c
  have hfields : payloadC x % 4 = 0 ∧ payloadC x / 256 % 8 < 6 ∧ payloadC x / 32 % 8 < 6 ∧ payloadC x / 4 % 8 < 6 := by
    unfold payloadC; omega
  simpa [prefixBad, hrank, wbits_tagged hn, and_assoc] using hfields

theorem prefixOf_encodeR (x : Args) : PrefixOf 3 (encodeR x) := by
  have hn := payloadR_lt x
  have hrank := prefixRank_tagged (t := 29) hn (by decide) (by decide)
  rw [encodeR_eq]
  exact ⟨isPrefix_tagged hn (by decide), hrank, by simp [prefixBad, hrank]⟩

theorem prefixOf_immGroup (v : Nat) : PrefixOf 4 (BitVec.ofNat 16 (0xE000 + v % 2048)) := by
  have hn : v % 2048 < 2048 := Nat.mod_lt _ (by decide)
  have hrank : prefixRank (BitVec.ofNat 16 (0xE000 + v % 2048)) = 4 := prefixRank_tagged (t := 28) hn (by decide) (by decide)
  exact ⟨isPrefix_tagged (t := 28) hn (by decide), hrank, by simp [prefixBad, hrank]⟩

/-- The groups of an immediate are read one after another, lowest first. -/
theorem decodeFrom_encodeImm (j v : Nat) (ws : List IWord) : ∀ {q : Prefixes}, q.rank ≤ 4 → q.count + j ≤ 4 →
    ∃ k, decodeFrom q (encodeImm j v ++ ws) =
      decodeFrom { q with count := q.count + j, rank := k, imms := q.imms ++ (encodeImm j v).map (wbits · 10 0) } ws := by
  induction j generalizing v with
  | zero => exact fun {q} _ _ => ⟨q.rank, by simp [encodeImm]⟩
  | succ j ih =>
    intro q hrank hcount
    have hw := prefixOf_immGroup v
    obtain ⟨k, hk⟩ := ih (v / 2048) (q := q.add _) (Nat.le_of_eq ((add_rank q _).trans hw.rank)) (by rw [add_count]; omega)
    refine ⟨k, ?_⟩
    rw [encodeImm, List.cons_append, decodeFrom_prefix hw (by omega) (by omega), hk]
    simp [Prefixes.add, hw.rank, Nat.add_assoc, Nat.add_comm 1]

/-- What the decoder has read of an encoded chain at its base word, the last PX word being of rank `k`. -/
def chainPrefixes (r : Row) (x : Args) (k : Nat) : Prefixes where
  count := prefixCount r x
  rank := k
  p := if needsP r x then some (encodeP r x) else none
  c := if needsC r x then some (encodeC x) else none
  r := if needsR r x then some (encodeR x) else none
  imms := (encodeImm (immCount r.imm x.mod x.imm) x.imm.toNat).map (wbits · 10 0)

theorem decode_encodeRow {r : Row} {x : Args} (hcode : r.code < 512) (hcount : prefixCount r x ≤ 4) (rest : List IWord) :
    ∃ k, decode (encodeRow r x ++ rest) = decodeFrom (chainPrefixes r x k) (encodeBase r x :: rest) := by
  have hP := prefixOf_encodeP x hcode
  have hC := prefixOf_encodeC x
  have hR := prefixOf_encodeR x
  unfold prefixCount at hcount
  have hrankP : (addIf {} (needsP r x) (encodeP r x)).rank ≤ 1 := addIf_rank_le hP (Nat.zero_le _)
  have hrankC := addIf_rank_le (b := needsC r x) hC (Nat.le_succ_of_le hrankP)
  have hrankR := addIf_rank_le (b := needsR r x) hR (Nat.le_succ_of_le hrankC)
  obtain ⟨k, hk⟩ := decodeFrom_encodeImm (immCount r.imm x.mod x.imm) x.imm.toNat (encodeBase r x :: rest) (Nat.le_succ_of_le hrankR)
    (by simp only [addIf_count]; omega)
  refine ⟨k, ?_⟩
  simp only [decode, encodeRow, List.append_assoc, List.singleton_append]
  rw [decodeFrom_optional hP (Nat.zero_lt_one) (by simp; omega),
    decodeFrom_optional hC (Nat.lt_succ_of_le hrankP) (by simp [addIf_count]; omega),
    decodeFrom_optional hR (Nat.lt_succ_of_le hrankC) (by simp only [addIf_count]; omega), hk]
  simp [addIf_pxP _ _ hP, addIf_pxC _ _ hC, addIf_pxR _ _ hR, chainPrefixes, prefixCount]

end Sys2Proof.Proofs
end

section
namespace Sys2Proof.Proofs

open Sys2Proof.Machine Sys2Proof.Laws

/-! The base word under the prefixes of its own chain (R50 to R56). -/

/-- The checks of `rowArgsOk` that say which operands and immediates a row admits. -/
structure Admits (r : Row) (x : Args) : Prop where
  opndA : opndOk r.pxc r.fa x.a = true
  opndB : opndOk r.pxc r.fb x.b = true
  opndC : opndOk r.pxc r.fc x.c = true
  incA : incOk r x.a = true
  incB : incOk r x.b = true
  incRegs : incRegsAgree x.a x.b = true
  mod : x.mod.toNat < r.mods
  imm : immFits r.imm x.mod r.imm.words x.imm = true
  lim : r.lim.all (fun l => decide (x.imm.toNat < l)) = true
  immUsed : (!r.imm.isInc || x.imm == 0 || usesIncImm x.a x.b) = true
  count : prefixCount r x ≤ 4

theorem admits_of_rowArgsOk {r : Row} {x : Args} (h : rowArgsOk r x = true) : Admits r x := by
  simp only [rowArgsOk, Bool.and_eq_true, decide_eq_true_eq] at h
  obtain ⟨⟨⟨⟨⟨⟨⟨⟨⟨⟨hA, hB⟩, hC⟩, hincA⟩, hincB⟩, hregs⟩, hmod⟩, himm⟩, hlim⟩, hused⟩, hcount⟩ := h
  exact ⟨hA, hB, hC, hincA, hincB, hregs, hmod, himm, hlim, hused, hcount⟩

/-- What the fields of a base word and its prefixes `q` must hold to be read as row `r` with operands `x`. -/
structure Reads (q : Prefixes) (w : IWord) (r : Row) (x : Args) : Prop where
  code : wbits (q.p.getD 0) 10 7 * 64 + wbits w 15 10 = r.code
  guard : BitVec.ofNat 3 (wbits (q.p.getD 0) 6 4) = x.guard
  sense : (wbits (q.p.getD 0) 3 3 == 1) = x.sense
  mod : BitVec.ofNat 3 (wbits (q.p.getD 0) 2 0) = x.mod
  classes : (q.c = none ∧ nativeCls r.fa = clsOf x.a ∧ nativeCls r.fb = clsOf x.b ∧ nativeCls r.fc = clsOf x.c) ∨
    ∃ c, q.c = some c ∧ wbits c 10 8 = clsOf x.a ∧ wbits c 7 5 = clsOf x.b ∧ wbits c 4 2 = clsOf x.c
  pxC : (q.c.isNone || r.pxc != .no) = true
  numA : wbits (q.r.getD 0) 10 9 * 32 + wbits w 9 5 = numOf x.a
  numB : wbits (q.r.getD 0) 8 7 * 32 + wbits w 4 0 = numOf x.b
  fc : wbits (q.r.getD 0) 6 0 = fcNum x
  imm : decodeImm r.imm x.mod q.imms = x.imm
  immWords : q.imms.length ≤ r.imm.words
  immUsed : (!r.imm.isInc || q.imms.isEmpty || usesIncImm x.a x.b) = true
  pxR : q.r.isSome = needsR r x

/-- An increment register stands in field fc only on a row that has no third operand (R53). -/
theorem fc_of_incReg {r : Row} {o : Opnd} (ho : incOk r o = true) (hreg : (incReg o).isSome = true) : r.fc = .none := by
  cases o with
  | mem p inc => cases inc <;> simp_all [incOk, incReg]
  | _ => simp [incReg] at hreg

/-- Field fc holds the increment register of the first memory operand. -/
theorem fcNum_incReg_a {x : Args} {n : BitVec 7} (hn : incReg x.a = some n) : BitVec.ofNat 7 (fcNum x) = n := by
  simp [fcNum, hn]

section
variable {r : Row} {x : Args} (h : Admits r x)
include h

/-- Field fc holds the third operand of a row that has one. -/
theorem fcNum_of_operand (hfc : r.fc ≠ .none) : fcNum x = numOf x.c := by
  have ha : incReg x.a = none := by
    by_contra hne; exact hfc (fc_of_incReg h.incA (Option.isSome_iff_ne_none.mpr hne))
  have hb : incReg x.b = none := by
    by_contra hne; exact hfc (fc_of_incReg h.incB (Option.isSome_iff_ne_none.mpr hne))
  simp [fcNum, ha, hb]

/-- Field fc is 0 where nothing uses it (R53). -/
theorem fcNum_unused (hfc : r.fc = .none) (ha : (incReg x.a).isSome = false) (hb : (incReg x.b).isSome = false) : fcNum x = 0 := by
  have hc : x.c = .none := opndOk_none (hfc ▸ h.opndC)
  rw [Option.isSome_eq_false_iff, Option.isNone_iff_eq_none] at ha hb
  simp [fcNum, ha, hb, hc, numOf]

/-- Field fc holds the increment register of the second memory operand, since the two agree. -/
theorem fcNum_incReg_b {n : BitVec 7} (hn : incReg x.b = some n) : BitVec.ofNat 7 (fcNum x) = n := by
  have hagree := h.incRegs
  cases ha : incReg x.a with
  | none => simp [fcNum, ha, hn]
  | some m => simp_all [fcNum, incRegsAgree]

/-- A PX.R stands only where a field is used (R55). -/
theorem used_of_needsR (hR : needsR r x = true) : (r.fa == .none && r.fb == .none && r.fc == .none) = false := by
  by_contra hnone
  simp only [Bool.not_eq_false, Bool.and_eq_true, beq_iff_eq] at hnone
  obtain ⟨⟨hfa, hfb⟩, hfc⟩ := hnone
  have ha : x.a = .none := opndOk_none (hfa ▸ h.opndA)
  have hb : x.b = .none := opndOk_none (hfb ▸ h.opndB)
  simp [needsR, hfc, ha, hb, incReg, numOf] at hR

/-- A PX.C stands only where the row permits it (R52). -/
theorem pxc_of_needsC (hC : needsC r x = true) : r.pxc ≠ .no := by
  intro hno
  have ha := opndOk_native (hno ▸ h.opndA)
  have hb := opndOk_native (hno ▸ h.opndB)
  have hc := opndOk_native (hno ▸ h.opndC)
  simp [needsC, ha, hb, hc] at hC

/-- The third operand reads back from field fc. -/
theorem decodeOpnd_fc (hmem : r.fc ≠ .mem) :
    decodeOpnd r.pxc r.fc (clsOf x.c) (if r.fc = .none then 0 else fcNum x) (BitVec.ofNat 7 (fcNum x)) = some x.c := by
  have hnum : (if r.fc = .none then 0 else fcNum x) = numOf x.c := by
    by_cases hfc : r.fc = .none
    · have hc : x.c = .none := opndOk_none (hfc ▸ h.opndC)
      rw [if_pos hfc, hc]; rfl
    · rw [if_neg hfc, fcNum_of_operand h hfc]
  rw [hnum]
  exact decodeOpnd_encode h.opndC (fun n hn => absurd (kind_of_incReg h.opndC (Option.isSome_iff_exists.mpr ⟨n, hn⟩)) hmem)

/-- A base word whose fields hold a row's operands decodes as that row's instruction. -/
theorem decodeBase_of_reads {q : Prefixes} {w : IWord} (hrow : rowOf r.code = some r) (hmem : r.fc ≠ .mem) (hq : Reads q w r x) :
    decodeBase q w = some (r.ctor x) := by
  have ha := decodeOpnd_encode h.opndA (fun n hn => fcNum_incReg_a hn)
  have hb := decodeOpnd_encode h.opndB (fun n hn => fcNum_incReg_b h hn)
  have hc := decodeOpnd_fc h hmem
  have hpxR : (q.r.isNone || !(r.fa == .none && r.fb == .none && r.fc == .none)) = true := by
    cases hR : needsR r x with
    | true => rw [used_of_needsR h hR]; simp
    | false => rw [← Option.not_isSome, hq.pxR, hR]; rfl
  have hneed : (q.r.isSome || !(r.fc != .none || ((incReg x.a).isSome || (incReg x.b).isSome))) = true := by
    rw [hq.pxR]
    cases hR : needsR r x with
    | true => rfl
    | false => simp_all [needsR]
  have hfc : (r.fc != .none || ((incReg x.a).isSome || (incReg x.b).isSome) || fcNum x == 0) = true := by
    by_contra hunused
    simp only [Bool.not_eq_true, Bool.or_eq_false_iff, bne_eq_false_iff_eq, beq_eq_false_iff_ne] at hunused
    obtain ⟨⟨hnone, hra, hrb⟩, hne⟩ := hunused
    exact hne (fcNum_unused h hnone hra hrb)
  have hmod : decide (x.mod.toNat < r.mods) = true := decide_eq_true h.mod
  have hwords : decide (q.imms.length ≤ r.imm.words) = true := decide_eq_true hq.immWords
  have hpxC := hq.pxC
  rcases hq.classes with ⟨hqc, hca, hcb, hcc⟩ | ⟨c, hqc, hca, hcb, hcc⟩
  all_goals
    rw [hqc] at hpxC
    simp only [decodeBase, hq.code, hrow, hq.guard, hq.sense, hq.mod, hqc, hca, hcb, hcc, hq.numA, hq.numB, hq.fc, hq.imm, ha, hb, hc,
      hpxC, hpxR, hneed, hfc, hmod, hwords, h.incA, h.incB, h.lim, hq.immUsed]
    rfl

end

end Sys2Proof.Proofs
end

section
namespace Sys2Proof.Proofs

open Sys2Proof.Machine Sys2Proof.Laws

/-! The encoder's chain holds in its fields what the decoder reads there. -/

theorem payloadP_of_not_needsP {r : Row} {x : Args} (h : needsP r x = false) : payloadP r x = 0 := by
  simp only [needsP, Bool.or_eq_false_iff, bne_eq_false_iff_eq] at h
  obtain ⟨⟨⟨hpage, hguard⟩, hsense⟩, hmod⟩ := h
  simp [payloadP, hpage, hguard, hsense, hmod]

theorem payloadR_of_not_needsR {r : Row} {x : Args} (hx : Admits r x) (h : needsR r x = false) : payloadR x = 0 := by
  simp only [needsR, Bool.or_eq_false_iff, bne_eq_false_iff_eq, decide_eq_false_iff_not, Nat.not_le] at h
  obtain ⟨⟨⟨⟨hfc, hra⟩, hrb⟩, ha⟩, hb⟩ := h
  simp [payloadR, fcNum_unused hx hfc hra hrb, Nat.div_eq_of_lt ha, Nat.div_eq_of_lt hb]

/-- The fields of a PX.P (Table 3.2). -/
theorem payloadP_fields {r : Row} (x : Args) (hcode : r.code < 512) : payloadP r x / 2 ^ 7 % 2 ^ 4 = r.code / 64 ∧
    payloadP r x / 2 ^ 4 % 2 ^ 3 = x.guard.toNat ∧ payloadP r x / 2 ^ 3 % 2 ^ 1 = x.sense.toNat ∧ payloadP r x / 2 ^ 0 % 2 ^ 3 = x.mod.toNat := by
  have hguard := x.guard.isLt
  have hsense := Bool.toNat_le x.sense
  have hmod := x.mod.isLt
  unfold payloadP; omega

/-- The fields of a PX.C. -/
theorem payloadC_fields (x : Args) :
    payloadC x / 2 ^ 8 % 2 ^ 3 = clsOf x.a ∧ payloadC x / 2 ^ 5 % 2 ^ 3 = clsOf x.b ∧ payloadC x / 2 ^ 2 % 2 ^ 3 = clsOf x.c := by
  have ha := clsOf_lt x.a
  have hb := clsOf_lt x.b
  have hc := clsOf_lt x.c
  unfold payloadC; omega

/-- The fields of a PX.R. -/
theorem payloadR_fields (x : Args) :
    payloadR x / 2 ^ 9 % 2 ^ 2 = numOf x.a / 32 ∧ payloadR x / 2 ^ 7 % 2 ^ 2 = numOf x.b / 32 ∧ payloadR x / 2 ^ 0 % 2 ^ 7 = fcNum x := by
  have ha := numOf_lt x.a
  have hb := numOf_lt x.b
  have hfc := fcNum_lt x
  unfold payloadR; omega

/-- A field of the base word. -/
theorem wbits_encodeBase (r : Row) (x : Args) (hi lo : Nat) :
    wbits (encodeBase r x) hi lo = (r.code % 64 * 1024 + numOf x.a % 32 * 32 + numOf x.b % 32) / 2 ^ lo % 2 ^ (hi + 1 - lo) := by
  have hlt : r.code % 64 * 1024 + numOf x.a % 32 * 32 + numOf x.b % 32 < 2 ^ 16 := by omega
  rw [wbits, encodeBase, BitVec.toNat_ofNat, Nat.mod_eq_of_lt hlt]

theorem isPrefix_encodeBase {r : Row} (x : Args) (hop : r.code % 64 < 56) : isPrefix (encodeBase r x) = false := by
  have htop : (r.code % 64 * 1024 + numOf x.a % 32 * 32 + numOf x.b % 32) / 8192 % 8 ≠ 7 := by omega
  simpa [isPrefix, wbits_encodeBase] using htop

/-- An encoded chain reads as its row with its operands. -/
theorem reads_encodeRow {r : Row} {x : Args} (hx : Admits r x) (hcode : r.code < 512) (k : Nat) :
    Reads (chainPrefixes r x k) (encodeBase r x) r x := by
  have hcount := hx.count
  have hltP := payloadP_lt x hcode
  have hP {hi lo : Nat} := wbits_tagged_getD (t := 31) (show payloadP r x < 2048 by omega) payloadP_of_not_needsP (hi := hi) (lo := lo)
  have hC {hi lo : Nat} := wbits_tagged (t := 30) (payloadC_lt x) (hi := hi) (lo := lo)
  have hR {hi lo : Nat} := wbits_tagged_getD (t := 29) (payloadR_lt x) (payloadR_of_not_needsR hx) (hi := hi) (lo := lo)
  obtain ⟨hpage, hguard, hsense, hmod⟩ := payloadP_fields x hcode
  obtain ⟨hclsA, hclsB, hclsC⟩ := payloadC_fields x
  obtain ⟨hhighA, hhighB, hfc⟩ := payloadR_fields x
  unfold chainPrefixes
  constructor
  case code => rw [encodeP_eq, hP (by decide) (by decide), hpage, wbits_encodeBase]; omega
  case guard => rw [encodeP_eq, hP (by decide) (by decide), hguard]; exact BitVec.ofNat_toNat ..
  case sense =>
    rw [encodeP_eq, hP (by decide) (by decide), hsense]
    cases x.sense <;> rfl
  case mod => rw [encodeP_eq, hP (by decide) (by decide), hmod]; exact BitVec.ofNat_toNat ..
  case classes =>
    cases hneeds : needsC r x with
    | true =>
      refine .inr ⟨encodeC x, rfl, ?_⟩
      rw [encodeC_eq, hC (by decide) (by decide), hC (by decide) (by decide), hC (by decide) (by decide)]
      exact ⟨hclsA, hclsB, hclsC⟩
    | false =>
      simp only [needsC, Bool.or_eq_false_iff, bne_eq_false_iff_eq] at hneeds
      obtain ⟨⟨ha, hb⟩, hc⟩ := hneeds
      exact .inl ⟨rfl, ha.symm, hb.symm, hc.symm⟩
  case pxC =>
    cases hneeds : needsC r x with
    | true => exact bne_iff_ne.mpr (pxc_of_needsC hx hneeds)
    | false => rfl
  case numA => rw [encodeR_eq, hR (by decide) (by decide), hhighA, wbits_encodeBase]; omega
  case numB => rw [encodeR_eq, hR (by decide) (by decide), hhighB, wbits_encodeBase]; omega
  case fc => rw [encodeR_eq, hR (by decide) (by decide), hfc]
  case imm => exact decodeImm_encodeImm (by unfold prefixCount at hcount; omega) (immFits_immCount hx.imm)
  case immWords => simpa using immCount_le r.imm x.mod x.imm
  case immUsed =>
    have hused := hx.immUsed
    by_cases hzero : x.imm = 0
    · have hgroups : encodeImm (immCount r.imm x.mod x.imm) x.imm.toNat = [] := by rw [hzero, immCount_zero]; rfl
      simp [hgroups]
    · have hne : (x.imm == 0) = false := beq_eq_false_iff_ne.mpr hzero
      simp only [hne, Bool.or_false] at hused
      rw [Bool.or_right_comm, hused, Bool.true_or]
  case pxR => cases needsR r x <;> rfl

/-- A row's chain is as long as its prefixes and the base word. -/
theorem length_encodeRow (r : Row) (x : Args) : (encodeRow r x).length = prefixCount r x + 1 := by
  have hlen (b : Bool) (w : IWord) : (if b then [w] else []).length = b.toNat := by cases b <;> rfl
  simp [encodeRow, prefixCount, hlen, Nat.add_assoc]

/-- The chain of a row's operands decodes as that row's instruction. -/
theorem decode_encodeRow_ok {r : Row} {x : Args} (hrow : rowOf r.code = some r) (hx : Admits r x) (rest : List IWord) :
    decode (encodeRow r x ++ rest) = .ok (r.ctor x) (2 * (encodeRow r x).length) (encodeBase r x) := by
  obtain ⟨-, hcode, hop, hmem⟩ := rowOf_regular hrow
  obtain ⟨k, hk⟩ := decode_encodeRow hcode hx.count rest
  have hbase := decodeBase_of_reads hx hrow hmem (reads_encodeRow hx hcode k)
  have hread : (chainPrefixes r x k).count = prefixCount r x := rfl
  rw [hk, length_encodeRow]
  simp [decodeFrom, isPrefix_encodeBase x hop, hbase, hread, Nat.mul_add]

/-- A well-formed instruction with a code is its row's, applied to operands that the row admits, and encodes as that row's chain. -/
theorem row_of_wf {i : Instr} {code : Nat} (hcode : codeOf i = some code) (hwf : i.wf = true) :
    ∃ r, rowOf r.code = some r ∧ r.ctor (argsOf i) = i ∧ encode i = encodeRow r (argsOf i) ∧ Admits r (argsOf i) := by
  obtain ⟨r, hrow, rfl, hctor⟩ := roundTrip i code hcode
  refine ⟨r, hrow, hctor, by simp [encode, hcode, hrow], admits_of_rowArgsOk ?_⟩
  simpa [Instr.wf, hcode, hrow] using hwf

end Sys2Proof.Proofs

/-- Settles O55: the instruction's chain is its row's (`row_of_wf`), its words are read into the prefixes of `decode_encodeRow`, and the base
word under them gives back each field (`reads_encodeRow`, `decodeBase_of_reads`). -/
theorem decodeOfEncode : Obligations.DecodeOfEncode := by
  intro i code rest hcode hwf
  obtain ⟨r, hrow, hctor, henc, hadmits⟩ := Sys2Proof.Proofs.row_of_wf hcode hwf
  have hlen := Sys2Proof.Proofs.length_encodeRow r (Sys2Proof.Machine.argsOf i)
  rw [henc]
  refine ⟨by rw [hlen]; exact Nat.succ_le_succ hadmits.count, Sys2Proof.encodeBase r (Sys2Proof.Machine.argsOf i), ?_, ?_⟩
  · exact List.getLast?_concat
  · rw [Sys2Proof.Proofs.decode_encodeRow_ok hrow hadmits rest, hctor]
end

section
namespace Sys2Proof.Proofs

open Sys2Proof.Machine Sys2Proof.Laws Sys2Proof.Claims

/-! The causes decided before the guard (R58), the guard (R54) and the window check (R91), over the instructions. -/

/-- An instruction that raises a cause before its guard is read traps at itself, whatever the guard says (R58). -/
theorem trapsWith_of_pre {i : Instr} {x : Args} {s : State} {pre : Option Byte} {body : State → State} {cause : Byte}
    (hexec : exec i s = issue pre x s body) (hpre : pre = some cause) : TrapsWith i s cause 0 s.cur.addr := by
  subst hpre
  exact ⟨_, hexec.trans (issue_pre cause x s body), takeTrap_effect ..⟩

theorem privileged_of_ne {s : State} (h : s.cur.strand ≠ 0) : privileged s = some 0x02 := if_neg h

/-- R22, R58: only strand 0 issues a privileged instruction, `rft` or `tq`. -/
theorem strandZeroInstrs_trap (x : Args) {s : State} (h : s.cur.strand ≠ 0) :
    ∀ i ∈ strandZeroInstrs x, TrapsWith i s 0x02 0 s.cur.addr := by
  have hpriv := privileged_of_ne h
  unfold strandZeroInstrs
  iterate 11 refine List.forall_mem_cons.mpr ⟨trapsWith_of_pre (by unfold exec; rfl) hpriv, ?_⟩
  refine List.forall_mem_cons.mpr ⟨?rft, List.forall_mem_singleton.mpr ?tq⟩
  case rft => exact trapsWith_of_pre (by unfold exec; rfl) (if_pos h)
  case tq => exact trapsWith_of_pre (by unfold exec; rfl) hpriv

/-- The registers that Table 6.1 gives to strand 0's writes are among those that `mtc` refuses to another strand. -/
theorem crWriteSystem_of_systemWrite {n : Nat} (h : systemWrite n = true) : crWriteSystem n = true := by
  simp only [systemWrite, List.contains_eq_mem, List.mem_cons, List.not_mem_nil, or_false, decide_eq_true_eq] at h
  simp only [crWriteSystem, Bool.or_eq_true, beq_iff_eq, decide_eq_true_eq]
  omega

/-- `mfc` of a register that strand 0 alone reads. -/
theorem mfc_trap {x : Args} {s : State} (h : s.cur.strand ≠ 0) {n : BitVec 7} (hb : x.b = .cr n)
    (hn : systemRead n.toNat = true) : TrapsWith (.mfc x) s 0x02 0 s.cur.addr := by
  refine trapsWith_of_pre (by unfold exec; rfl) ?_
  have hsys : crReadSystem n.toNat = true := hn
  simp only [hb, hsys, if_true, privileged_of_ne h]

/-- `mtc` of a register that strand 0 alone writes. -/
theorem mtc_trap {x : Args} {s : State} (h : s.cur.strand ≠ 0) {n : BitVec 7} (ha : x.a = .cr n)
    (hn : systemWrite n.toNat = true) : TrapsWith (.mtc x) s 0x02 0 s.cur.addr := by
  refine trapsWith_of_pre (by unfold exec; rfl) ?_
  simp only [ha, crWriteSystem_of_systemWrite hn, if_true, privileged_of_ne h]

/-- `tfail` outside tasks, by a strand other than strand 0. -/
theorem tfail_trap {x : Args} {s : State} (h : s.cur.strand ≠ 0) (htask : taskOf s s.cur.core s.cur.strand = none) :
    TrapsWith (.tfail x) s 0x02 0 s.cur.addr :=
  have hbare : s.cur.strand ≠ 0 ∧ (cxTask s s.cur).isNone := ⟨h, Option.isNone_iff_eq_none.mpr htask⟩
  trapsWith_of_pre (by unfold exec; rfl) (if_pos hbare)

/-- `rft` by strand 0 outside handler mode. -/
theorem rft_trap {x : Args} {s : State} (h : s.cur.strand = 0) (hflag : (curStrand s).flag 6 = false) :
    TrapsWith (.rft x) s 0x01 0 s.cur.addr := by
  have hstrand : (getStrand s s.cur.core 0).flag 6 = false := h ▸ hflag
  have hcause : (if s.cur.strand ≠ 0 then some 0x02
      else if (getStrand s s.cur.core 0).flag 6 then none else some 0x01 : Option Byte) = some 0x01 := by
    simp [h, hstrand]
  exact trapsWith_of_pre (by unfold exec; rfl) hcause

/-- An instruction that R58 does not name reads its guard first. -/
theorem guarded_issue (x : Args) (s : State) : ∀ i ∈ guarded x, ∃ body, exec i s = issue none x s body := by
  unfold guarded
  repeat refine List.forall_mem_cons.mpr ⟨⟨_, by unfold exec; rfl⟩, ?_⟩
  exact List.forall_mem_nil _

end Sys2Proof.Proofs

open Sys2Proof.Machine Sys2Proof.Laws Sys2Proof.Proofs

/-- Settles O10: each instruction's cause stands before its guard in the common order of issue (`trapsWith_of_pre`). -/
theorem privilegedTrap : Obligations.PrivilegedTrap := by
  intro x s
  refine ⟨fun hne => ⟨strandZeroInstrs_trap x hne, tfail_trap hne, fun _ => mfc_trap hne, fun _ => mtc_trap hne⟩,
    fun hzero => ⟨?tdone, rft_trap hzero⟩, fun htask => ⟨?rqp, ?rqt⟩⟩
  case tdone => exact trapsWith_of_pre (by unfold exec; rfl) (if_pos hzero)
  case rqp => exact trapsWith_of_pre (by unfold exec; rfl) (if_pos htask)
  case rqt => exact trapsWith_of_pre (by unfold exec; rfl) (if_pos htask)

/-- Settles O11: the instructions that R58 does not name share the common order of issue (`guarded_issue`). -/
theorem guardAndWindow : Obligations.GuardAndWindow := by
  intro x s i hi
  obtain ⟨body, hexec⟩ := guarded_issue x s i hi
  refine ⟨fun hguard hrot => ?_, fun hguard hwindow => ?_⟩
  · obtain ⟨hframe, hgoes⟩ := completeAt_frame s s.cur (nextPc s.cur) hrot.2
    exact ⟨_, hexec.trans (issue_guard x s body hguard), rfl, hframe, hgoes⟩
  · exact ⟨_, hexec.trans (issue_window x s body hguard hwindow), takeTrap_effect ..⟩

/-- Settles O57, by running the decoder on the words of Tables 3.14 and 3.15. -/
theorem decodeWords : Obligations.DecodeWords := by
  unfold Obligations.DecodeWords
  decide
end

section
namespace Sys2Proof.Proofs

open Sys2Proof.Machine Sys2Proof.Laws

/-! What an operand, an immediate and a row must be once the decoder has read them (R49 to R55). -/

/-- Every row of the opcode map builds the instruction of its code from the operands given. -/
theorem rows_ctor : ∀ r ∈ rows, ∀ x, codeOf (r.ctor x) = some r.code ∧ argsOf (r.ctor x) = x := by
  simp only [rows, List.forall_mem_append, rowsPage0, rowsPage1, rowsPage2, rowsPage3, rowsPage4, rowsPage5, rowsPage6, rowsPage7]
  refine ⟨⟨⟨⟨⟨⟨⟨?_, ?_⟩, ?_⟩, ?_⟩, ?_⟩, ?_⟩, ?_⟩, ?_⟩
  all_goals
    repeat refine List.forall_mem_cons.mpr ⟨fun _ => ⟨rfl, rfl⟩, ?_⟩
    exact List.forall_mem_nil _

theorem toNat_ofNat_le (w n : Nat) : (BitVec.ofNat w n).toNat ≤ n := by
  rw [BitVec.toNat_ofNat]; exact Nat.mod_le _ _

/-- An operand read from a field of kind `k` that holds the number `n`, `fc` standing in field fc; `native` says that it was read in the
field's native class. -/
structure OpndRead (mark : PxcMark) (k : FKind) (native : Prop) (n : Nat) (fc : BitVec 7) (o : Opnd) : Prop where
  ok : opndOk mark k o = true
  num : numOf o ≤ n
  cls : native → clsOf o = nativeCls k
  reg : ∀ m, incReg o = some m → m = fc

theorem opndRead_of_decodeOpnd {mark : PxcMark} {k : FKind} {native : Prop} {cls n : Nat} {fc : BitVec 7} {o : Opnd}
    (h : decodeOpnd mark k cls n fc = some o) (hnative : native → cls = nativeCls k) : OpndRead mark k native n fc o := by
  obtain ⟨hread, hok⟩ := Option.filter_eq_some_iff.mp h
  suffices hfields : numOf o ≤ n ∧ clsOf o = min cls 5 ∧ ∀ m, incReg o = some m → m = fc by
    obtain ⟨hnum, hcls, hreg⟩ := hfields
    refine ⟨hok, hnum, fun hn => ?_, hreg⟩
    rw [hcls, hnative hn]
    cases k <;> rfl
  clear h hok hnative
  cases k with
  | none =>
    obtain ⟨⟨-, rfl⟩, ⟨⟩⟩ := Option.ite_none_right_eq_some.mp hread
    exact ⟨Nat.zero_le n, rfl, nofun⟩
  | a | l =>
    obtain ⟨⟨rfl, -⟩, ⟨⟩⟩ := Option.ite_none_right_eq_some.mp hread
    exact ⟨toNat_ofNat_le _ n, rfl, nofun⟩
  | c | n =>
    obtain ⟨rfl, ⟨⟩⟩ := Option.ite_none_right_eq_some.mp hread
    exact ⟨toNat_ofNat_le _ _, rfl, nofun⟩
  | mem =>
    obtain ⟨⟨rfl, -⟩, hmem⟩ := Option.ite_none_right_eq_some.mp hread
    have hptr := toNat_ofNat_le 3 (n % 8)
    have hn := Nat.div_add_mod n 8
    generalize n / 8 = d at hmem hn
    match d with
    | 0 | 1 | 2 =>
      cases hmem
      refine ⟨?_, rfl, nofun⟩
      simp only [numOf]; omega
    | d + 3 =>
      cases hmem
      refine ⟨?_, rfl, fun m hm => (Option.some.inj hm).symm⟩
      simp only [numOf]; omega
  | g | m | p | q =>
    dsimp only at hread
    match cls with
    | 0 =>
      cases hread
      exact ⟨toNat_ofNat_le _ n, rfl, nofun⟩
    | 1 | 2 | 3 | 4 =>
      obtain ⟨-, ⟨⟩⟩ := Option.ite_none_right_eq_some.mp hread
      exact ⟨toNat_ofNat_le _ n, rfl, nofun⟩
    | cls + 5 =>
      obtain ⟨-, ⟨⟩⟩ := Option.ite_none_right_eq_some.mp hread
      exact ⟨toNat_ofNat_le _ n, (Nat.min_eq_right (Nat.le_add_left 5 cls)).symm, nofun⟩

/-- The payloads of PX.I words are one number below 2^(11j) (R49). -/
theorem foldr_payloads_lt {imms : List Nat} (h : ∀ v ∈ imms, v < 2048) :
    imms.foldr (fun v acc => v + 2048 * acc) 0 < 2 ^ (11 * imms.length) := by
  induction imms with
  | nil => decide
  | cons v imms ih =>
    obtain ⟨hv, himms⟩ := List.forall_mem_cons.mp h
    have hrest := ih himms
    rw [List.length_cons, Nat.mul_succ, Nat.pow_add]
    simp only [List.foldr_cons]
    omega

/-- An immediate fits `j` groups by sign when it is a signed number of 11*j bits. -/
theorem fitsS_iff (j : Nat) (x : Word) :
    fitsS j x = true ↔ -((2 ^ (11 * j) : Nat) : Int) ≤ 2 * x.toInt ∧ 2 * x.toInt < ((2 ^ (11 * j) : Nat) : Int) := by
  have hx : signed 64 x.toNat = x.toInt := by rw [signed_eq_bmod, BitVec.toInt_eq_toNat_bmod]
  unfold fitsS
  dsimp only
  rw [hx]
  split
  next hj =>
    subst hj
    have hzero : x = 0 ↔ x.toInt = 0 := by rw [← BitVec.toInt_inj]; rfl
    rw [beq_iff_eq, hzero]
    omega
  next => simp

theorem signed_bounds (j n : Nat) : -((2 ^ j : Nat) : Int) ≤ 2 * signed j n ∧ 2 * signed j n < ((2 ^ j : Nat) : Int) := by
  have hlt : n % 2 ^ j < 2 ^ j := Nat.mod_lt _ (Nat.two_pow_pos j)
  unfold signed
  dsimp only
  split <;> omega

/-- An immediate that fits its groups fits more of them. -/
theorem immFits_mono {k : ImmKind} {mod : BitVec 3} {i j : Nat} {x : Word} (hij : i ≤ j) (h : immFits k mod i x = true) :
    immFits k mod j x = true := by
  have hpow : 2 ^ (11 * i) ≤ 2 ^ (11 * j) := Nat.pow_le_pow_right (by decide) (Nat.mul_le_mul_left 11 hij)
  unfold immFits at h ⊢
  split at h
  next hs =>
    rw [fitsS_iff] at h
    rw [if_pos hs, fitsS_iff]
    omega
  next hs =>
    rw [if_neg hs]
    exact decide_eq_true (Nat.lt_of_lt_of_le (of_decide_eq_true h) hpow)

/-- An immediate read from at most four groups fits as many groups (R49). -/
theorem immFits_decodeImm {k : ImmKind} {mod : BitVec 3} {imms : List Nat} (hlen : imms.length ≤ 4) (hlt : ∀ v ∈ imms, v < 2048) :
    immFits k mod imms.length (decodeImm k mod imms) = true := by
  have hraw := foldr_payloads_lt hlt
  have hpow : 2 ^ (11 * imms.length) ≤ 2 ^ 44 := Nat.pow_le_pow_right (by decide) (Nat.mul_le_mul_left 11 hlen)
  unfold immFits decodeImm
  dsimp only
  split
  next =>
    have hbounds := signed_bounds (11 * imms.length) (imms.foldr (fun v acc => v + 2048 * acc) 0)
    rw [fitsS_iff, BitVec.toInt_ofInt, Int.bmod_eq_of_le (by omega) (by omega)]
    exact hbounds
  next =>
    refine decide_eq_true ?_
    rw [BitVec.toNat_ofNat]
    exact Nat.lt_of_le_of_lt (Nat.mod_le _ _) hraw

/-- The fewest groups are no more than some that carry the immediate (R41). -/
theorem immCount_le_of_fits {k : ImmKind} {mod : BitVec 3} {j : Nat} {x : Word} (h : immFits k mod j x = true) :
    immCount k mod x ≤ j := by
  rcases Nat.lt_or_ge j k.words with hj | hj
  · unfold immCount
    cases hfind : (List.range k.words).find? (fun i => immFits k mod i x) with
    | none => exact absurd h (List.find?_eq_none.mp hfind j (List.mem_range.mpr hj))
    | some i =>
      obtain ⟨-, -, hbefore⟩ := List.find?_range_eq_some.mp hfind
      by_contra hlt
      simpa [h] using hbefore j (Nat.lt_of_not_le hlt)
  · exact Nat.le_trans (immCount_le k mod x) hj

end Sys2Proof.Proofs
end

section
namespace Sys2Proof.Proofs

open Sys2Proof.Machine Sys2Proof.Laws

/-! What the prefixes of a chain hold when its base word comes (R48). -/

/-- Prefixes in their ranks: each counted once, at most four, and every PX.I payload of 11 bits. -/
structure Gathered (q : Prefixes) : Prop where
  count : q.count = q.p.isSome.toNat + q.c.isSome.toNat + q.r.isSome.toNat + q.imms.length
  most : q.count ≤ 4
  payloads : ∀ v ∈ q.imms, v < 2048
  rankP : q.rank < 1 → q.p = none
  rankC : q.rank < 2 → q.c = none
  rankR : q.rank < 3 → q.r = none

theorem Gathered.imms_le {q : Prefixes} (hq : Gathered q) : q.imms.length ≤ 4 := by
  have hcount := hq.count
  have hmost := hq.most
  omega

theorem gathered_empty : Gathered {} := ⟨rfl, by decide, nofun, fun _ => rfl, fun _ => rfl, fun _ => rfl⟩

/-- A PX word that the decoder takes: there are fewer than four, and its rank is above the last one's, or both are PX.I. -/
structure Follows (q : Prefixes) (w : IWord) : Prop where
  isPrefix : isPrefix w = true
  count : q.count < 4
  rank : q.rank < prefixRank w ∨ (q.rank = 4 ∧ prefixRank w = 4)

/-- A PX word above the last rank finds its own place and those above it empty, so each stays counted once. -/
theorem gathered_add {q : Prefixes} {w : IWord} (hq : Gathered q) (hw : Follows q w) : Gathered (q.add w) := by
  obtain ⟨hcount, -, hpayloads, hP, hC, hR⟩ := hq
  obtain ⟨-, hlt, hrank⟩ := hw
  have hkind : prefixRank w = 1 ∨ prefixRank w = 2 ∨ prefixRank w = 3 ∨ prefixRank w = 4 := by
    unfold prefixRank; split <;> simp
  rcases hkind with h | h | h | h
  · obtain ⟨hp, hc, hr⟩ : q.p = none ∧ q.c = none ∧ q.r = none := ⟨hP (by omega), hC (by omega), hR (by omega)⟩
    simp only [hp, hc, hr, Option.isSome_none, Bool.toNat_false] at hcount
    simp only [Prefixes.add, h]
    exact ⟨by simp [hcount, hc, hr, Nat.add_comm], hlt, hpayloads, nofun, fun _ => hc, fun _ => hr⟩
  · obtain ⟨hc, hr⟩ : q.c = none ∧ q.r = none := ⟨hC (by omega), hR (by omega)⟩
    simp only [hc, hr, Option.isSome_none, Bool.toNat_false] at hcount
    simp only [Prefixes.add, h]
    exact ⟨by simp [hcount, hr, Nat.add_comm, Nat.add_left_comm], hlt, hpayloads, nofun, nofun, fun _ => hr⟩
  · have hr : q.r = none := hR (by omega)
    simp only [hr, Option.isSome_none, Bool.toNat_false] at hcount
    simp only [Prefixes.add, h]
    exact ⟨by simp [hcount, Nat.add_right_comm], hlt, hpayloads, nofun, nofun, nofun⟩
  · have hpayload : wbits w 10 0 < 2048 := Nat.mod_lt _ (by decide)
    simp only [Prefixes.add, h]
    refine ⟨by simp [hcount, Nat.add_assoc], hlt, ?_, nofun, nofun, nofun⟩
    exact List.forall_mem_append.mpr ⟨hpayloads, List.forall_mem_singleton.mpr hpayload⟩

/-- The number in field fc, 0 without a PX.R (R51). -/
def fieldFc (q : Prefixes) : BitVec 7 := BitVec.ofNat 7 (wbits (q.r.getD 0) 6 0)

/-- What the decoder has read of a base word under its prefixes: a row, and operands, modifier and immediate that pass its checks. -/
structure BaseRead (q : Prefixes) (w : IWord) (r : Row) (x : Args) : Prop where
  row : rowOf (wbits (q.p.getD 0) 10 7 * 64 + wbits w 15 10) = some r
  guard : x.guard = BitVec.ofNat 3 (wbits (q.p.getD 0) 6 4)
  sense : x.sense = (wbits (q.p.getD 0) 3 3 == 1)
  mod : x.mod = BitVec.ofNat 3 (wbits (q.p.getD 0) 2 0)
  imm : x.imm = decodeImm r.imm x.mod q.imms
  opndA : OpndRead r.pxc r.fa (q.c = none) (wbits (q.r.getD 0) 10 9 * 32 + wbits w 9 5) (fieldFc q) x.a
  opndB : OpndRead r.pxc r.fb (q.c = none) (wbits (q.r.getD 0) 8 7 * 32 + wbits w 4 0) (fieldFc q) x.b
  opndC : OpndRead r.pxc r.fc (q.c = none) (if r.fc = .none then 0 else wbits (q.r.getD 0) 6 0) (fieldFc q) x.c
  modOk : x.mod.toNat < r.mods
  immWords : q.imms.length ≤ r.imm.words
  pxR : (q.r.isSome || !(r.fc != .none || ((incReg x.a).isSome || (incReg x.b).isSome))) = true
  incA : incOk r x.a = true
  incB : incOk r x.b = true
  lim : r.lim.all (fun l => decide (x.imm.toNat < l)) = true
  immUsed : (!r.imm.isInc || q.imms.isEmpty || usesIncImm x.a x.b) = true

theorem baseRead_of_decodeBase {q : Prefixes} {w : IWord} {i : Instr} (h : decodeBase q w = some i) :
    ∃ r x, i = r.ctor x ∧ BaseRead q w r x := by
  unfold decodeBase at h
  dsimp only at h
  split at h
  next => cases h
  next r hrow =>
    split at h
    next a b c ha hb hc =>
      obtain ⟨hok, ⟨⟩⟩ := Option.ite_none_right_eq_some.mp h
      simp only [Bool.and_eq_true, decide_eq_true_eq] at hok
      obtain ⟨⟨⟨⟨⟨⟨⟨⟨⟨hmod, -⟩, hwords⟩, -⟩, hneeded⟩, -⟩, hincA⟩, hincB⟩, hlim⟩, himm⟩ := hok
      refine ⟨r, _, rfl, hrow, rfl, rfl, rfl, rfl, opndRead_of_decodeOpnd ha ?_, opndRead_of_decodeOpnd hb ?_,
        opndRead_of_decodeOpnd hc ?_, hmod, hwords, hneeded, hincA, hincB, hlim, himm⟩
      all_goals
        intro hnone
        rw [hnone]
    next => cases h

section
variable {q : Prefixes} {w : IWord} {r : Row} {x : Args} (h : BaseRead q w r x)
include h

/-- Without a PX.P the row is on page 0, and guard, sense and modifier are 0. -/
theorem needsP_le : (needsP r x).toNat ≤ q.p.isSome.toNat := by
  refine Bool.toNat_le_toNat (fun hneeds => ?_)
  by_contra hnone
  rw [Option.not_isSome_iff_eq_none] at hnone
  obtain ⟨hcode, -, -, -⟩ := rowOf_regular h.row
  have hpage : r.code < 64 := by
    rw [hcode, hnone]
    have hop : wbits w 15 10 < 64 := Nat.mod_lt _ (by decide)
    simpa [wbits] using hop
  simp [needsP, h.guard, h.sense, h.mod, hnone, wbits, Nat.div_eq_of_lt hpage] at hneeds

/-- Without a PX.C every operand is of its field's native class. -/
theorem needsC_le : (needsC r x).toNat ≤ q.c.isSome.toNat := by
  refine Bool.toNat_le_toNat (fun hneeds => ?_)
  by_contra hnone
  rw [Option.not_isSome_iff_eq_none] at hnone
  simp [needsC, h.opndA.cls hnone, h.opndB.cls hnone, h.opndC.cls hnone] at hneeds

/-- Without a PX.R no field uses fc, and the numbers of the first two stand in 5 bits. -/
theorem needsR_le : (needsR r x).toNat ≤ q.r.isSome.toNat := by
  refine Bool.toNat_le_toNat (fun hneeds => ?_)
  by_contra hnone
  rw [Option.not_isSome_iff_eq_none] at hnone
  have hnumA : numOf x.a < 32 := by
    have hfield : wbits w 9 5 < 32 := Nat.mod_lt _ (by decide)
    have hnum := h.opndA.num
    rw [hnone, show wbits (Option.none.getD 0) 10 9 = 0 from rfl] at hnum
    omega
  have hnumB : numOf x.b < 32 := by
    have hfield : wbits w 4 0 < 32 := Nat.mod_lt _ (by decide)
    have hnum := h.opndB.num
    rw [hnone, show wbits (Option.none.getD 0) 8 7 = 0 from rfl] at hnum
    omega
  have hunused := h.pxR
  simp only [hnone, Option.isSome_none, Bool.false_or, ← Bool.or_assoc, Bool.not_eq_true'] at hunused
  simp [needsR, hunused, Nat.not_le.mpr hnumA, Nat.not_le.mpr hnumB] at hneeds

/-- The shortest chain has no more prefixes than were read. -/
theorem prefixCount_le (hq : Gathered q) : prefixCount r x ≤ q.count := by
  have hP := needsP_le h
  have hC := needsC_le h
  have hR := needsR_le h
  have himm : immCount r.imm x.mod x.imm ≤ q.imms.length := by
    rw [h.imm]
    exact immCount_le_of_fits (immFits_decodeImm hq.imms_le hq.payloads)
  rw [prefixCount, hq.count]
  omega

/-- Both increment registers stand in the one field fc (R53). -/
theorem incRegsAgree_of_baseRead : incRegsAgree x.a x.b = true := by
  unfold incRegsAgree
  split
  next m n hm hn => rw [h.opndA.reg m hm, h.opndB.reg n hn, beq_self_eq_true]
  next => rfl

/-- The immediate is 0 where no PX.I stands. -/
theorem immUsed_of_baseRead : (!r.imm.isInc || x.imm == 0 || usesIncImm x.a x.b) = true := by
  have hused := h.immUsed
  have hzero : q.imms.isEmpty = true → (x.imm == 0) = true := by
    intro hempty
    rw [h.imm, List.isEmpty_iff.mp hempty]
    simp [decodeImm, signed, Nat.mod_one]
  simp only [Bool.or_eq_true] at hused ⊢
  exact hused.imp_left (Or.imp_right hzero)

/-- What the decoder reads under gathered prefixes fits its row. -/
theorem rowArgsOk_of_baseRead (hq : Gathered q) : rowArgsOk r x = true := by
  have hcount := Nat.le_trans (prefixCount_le h hq) hq.most
  have himm : immFits r.imm x.mod r.imm.words x.imm = true := by
    rw [h.imm]
    exact immFits_mono h.immWords (immFits_decodeImm hq.imms_le hq.payloads)
  simp only [rowArgsOk, Bool.and_eq_true, decide_eq_true_eq]
  exact ⟨⟨⟨⟨⟨⟨⟨⟨⟨⟨h.opndA.ok, h.opndB.ok⟩, h.opndC.ok⟩, h.incA⟩, h.incB⟩, incRegsAgree_of_baseRead h⟩, h.modOk⟩, himm⟩, h.lim⟩,
    immUsed_of_baseRead h⟩, hcount⟩

end

/-- What the decoder makes of a base word under gathered prefixes is a well-formed instruction of the map. -/
theorem wf_of_decodeBase {q : Prefixes} {w : IWord} {i : Instr} (hq : Gathered q) (h : decodeBase q w = some i) :
    i.wf = true ∧ ∃ code, codeOf i = some code := by
  obtain ⟨r, x, rfl, hread⟩ := baseRead_of_decodeBase h
  obtain ⟨hcode, hargs⟩ := rows_ctor r (List.mem_of_find?_eq_some hread.row) x
  have hrow : rowOf r.code = some r := by
    rw [(rowOf_regular hread.row).1]; exact hread.row
  refine ⟨?_, r.code, hcode⟩
  simp only [Instr.wf, hcode, hrow, hargs]
  exact rowArgsOk_of_baseRead hread hq

end Sys2Proof.Proofs
end

section
namespace Sys2Proof.Proofs

open Sys2Proof.Machine Sys2Proof.Laws

/-! A chain is its prefixes and the word that ends it, and the words behind it change nothing (R46 to R48, R57). -/

/-- Word `w` is the base word of the instruction `i` under the prefixes `q`. -/
structure EndsAs (q : Prefixes) (w : IWord) (i : Instr) : Prop where
  base : isPrefix w = false
  instr : decodeBase q w = some i
  decodes : ∀ l, decodeFrom q (w :: l) = .ok i (2 * q.count + 2) w

/-- What one word does to a chain: it is a further PX word, the base word of an instruction, or the word at which the chain is refused. -/
theorem decodeFrom_cons (q : Prefixes) (w : IWord) :
    (Follows q w ∧ ∀ l, decodeFrom q (w :: l) = decodeFrom (q.add w) l) ∨
    (∃ i, EndsAs q w i) ∨ ∀ l, decodeFrom q (w :: l) = .illegal w := by
  cases hprefix : isPrefix w with
  | false =>
    cases hbase : decodeBase q w with
    | some i => exact .inr (.inl ⟨i, hprefix, hbase, fun _ => by simp [decodeFrom, hprefix, hbase]⟩)
    | none => exact .inr (.inr fun _ => by simp [decodeFrom, hprefix, hbase])
  | true =>
    by_cases hfull : 4 ≤ q.count
    · exact .inr (.inr fun _ => by simp [decodeFrom, hprefix, hfull])
    by_cases hrank : (prefixRank w < q.rank || (prefixRank w == q.rank && q.rank != 4)) = true
    · exact .inr (.inr fun _ => by simp [decodeFrom, hprefix, hrank])
    by_cases hbad : prefixBad w = true
    · exact .inr (.inr fun _ => by simp [decodeFrom, hprefix, hbad])
    refine .inl ⟨⟨hprefix, by omega, ?_⟩, fun _ => by simp [decodeFrom, hprefix, hfull, hrank, hbad]⟩
    simp only [Bool.or_eq_true, Bool.and_eq_true, decide_eq_true_eq, beq_iff_eq, bne_iff_ne] at hrank
    omega

/-- The prefixes `pre` lead from the prefixes `q` to `q'`. -/
structure ReadsInto (q : Prefixes) (pre : List IWord) (q' : Prefixes) : Prop where
  gathered : Gathered q'
  isPrefix : ∀ v ∈ pre, isPrefix v = true
  count : q'.count = q.count + pre.length
  reads : ∀ l, decodeFrom q (pre ++ l) = decodeFrom q' l

theorem readsInto_nil {q : Prefixes} (hq : Gathered q) : ReadsInto q [] q := ⟨hq, nofun, rfl, fun _ => rfl⟩

theorem readsInto_cons {q q' : Prefixes} {w : IWord} {pre : List IWord} (hw : Follows q w)
    (hstep : ∀ l, decodeFrom q (w :: l) = decodeFrom (q.add w) l) (h : ReadsInto (q.add w) pre q') : ReadsInto q (w :: pre) q' where
  gathered := h.gathered
  isPrefix := List.forall_mem_cons.mpr ⟨hw.isPrefix, h.isPrefix⟩
  count := by rw [h.count, add_count, List.length_cons, Nat.add_assoc, Nat.add_comm 1]
  reads l := (hstep _).trans (h.reads l)

/-- Words are prefixes only, or prefixes and then a word that ends the chain as an instruction or refused. -/
theorem decodeFrom_splits (ws : List IWord) : ∀ {q : Prefixes}, Gathered q → ∃ pre q', ReadsInto q pre q' ∧
    (ws = pre ∨ ∃ w l, ws = pre ++ w :: l ∧ ((∃ i, EndsAs q' w i) ∨ ∀ l, decodeFrom q' (w :: l) = .illegal w)) := by
  induction ws with
  | nil => exact fun hq => ⟨[], _, readsInto_nil hq, .inl rfl⟩
  | cons w ws ih =>
    intro q hq
    rcases decodeFrom_cons q w with ⟨hw, hstep⟩ | hends
    · obtain ⟨pre, q', hreads, hrest⟩ := ih (gathered_add hq hw)
      refine ⟨w :: pre, q', readsInto_cons hw hstep hreads, ?_⟩
      rcases hrest with rfl | ⟨v, l, rfl, hends⟩
      · exact .inl rfl
      · exact .inr ⟨v, l, rfl, hends⟩
    · exact ⟨[], q, readsInto_nil hq, .inr ⟨w, ws, rfl, hends⟩⟩

section
variable {pre : List IWord} {q : Prefixes} (h : ReadsInto {} pre q)
include h

theorem ReadsInto.length_eq : q.count = pre.length := by simpa using h.count

theorem ReadsInto.length_le : pre.length ≤ 4 := h.length_eq ▸ h.gathered.most

/-- Prefixes alone are no whole chain. -/
theorem ReadsInto.decode_more : decode pre = .more := by
  have hread := h.reads []
  rw [List.append_nil] at hread
  exact hread

/-- A chain that ends as an instruction decodes as it, whatever words follow. -/
theorem ReadsInto.decode_ok {w : IWord} {i : Instr} (hend : EndsAs q w i) (l : List IWord) :
    decode (pre ++ w :: l) = .ok i (2 * pre.length + 2) w := by
  rw [← h.length_eq]
  exact (h.reads _).trans (hend.decodes l)

/-- A chain that is refused at a word is refused whatever words follow. -/
theorem ReadsInto.decode_illegal {w : IWord} (hend : ∀ l, decodeFrom q (w :: l) = .illegal w) (l : List IWord) :
    decode (pre ++ w :: l) = .illegal w := (h.reads _).trans (hend l)

end

/-- What decodes is a well-formed instruction of the map, of 1 to 5 words, the last of which is the only one that is no PX word (R46 to R56). -/
theorem decode_ok_wf {ws : List IWord} {i : Instr} {len : Nat} {w : IWord} (h : decode ws = .ok i len w) :
    i.wf = true ∧ (∃ code, codeOf i = some code) ∧ 2 ≤ len ∧ len ≤ 10 ∧ len % 2 = 0 ∧
      ws[len / 2 - 1]? = some w ∧ isPrefix w = false ∧ (∀ j v, j < len / 2 - 1 → ws[j]? = some v → isPrefix v = true) ∧
      ∀ rest, decode (ws ++ rest) = .ok i len w := by
  obtain ⟨pre, q, hpre, rfl | ⟨w', l, rfl, ⟨i', hend⟩ | hend⟩⟩ := decodeFrom_splits ws gathered_empty
  · rw [hpre.decode_more] at h; cases h
  · rw [hpre.decode_ok hend] at h
    cases h
    obtain ⟨hwf, hcode⟩ := wf_of_decodeBase hpre.gathered hend.instr
    have hlen := hpre.length_le
    have hlast : (2 * pre.length + 2) / 2 - 1 = pre.length := by omega
    rw [hlast]
    refine ⟨hwf, hcode, by omega, by omega, by omega, by simp, hend.base, fun j v hj hv => ?_, fun rest => ?_⟩
    · rw [List.getElem?_append_left hj] at hv
      exact hpre.isPrefix v (List.mem_of_getElem? hv)
    · rw [List.append_assoc, List.cons_append]
      exact hpre.decode_ok hend _
  · rw [hpre.decode_illegal hend] at h; cases h

/-- A refusal reports a word of the chain and stands whatever words follow (R57). -/
theorem decode_illegal_stands {ws : List IWord} {w : IWord} (h : decode ws = .illegal w) :
    (∃ j, j < 5 ∧ ws[j]? = some w ∧ decode (ws.take j) = .more) ∧ ∀ rest, decode (ws ++ rest) = .illegal w := by
  obtain ⟨pre, q, hpre, rfl | ⟨w', l, rfl, ⟨i', hend⟩ | hend⟩⟩ := decodeFrom_splits ws gathered_empty
  · rw [hpre.decode_more] at h; cases h
  · rw [hpre.decode_ok hend] at h; cases h
  · rw [hpre.decode_illegal hend] at h
    cases h
    refine ⟨⟨pre.length, Nat.lt_succ_of_le hpre.length_le, by simp, ?_⟩, fun rest => ?_⟩
    · rw [List.take_left]; exact hpre.decode_more
    · rw [List.append_assoc, List.cons_append]
      exact hpre.decode_illegal hend _

/-- Words that are no whole chain are at most four prefixes (R48). -/
theorem decode_more_prefixes {ws : List IWord} (h : decode ws = .more) : ws.length ≤ 4 ∧ ∀ v ∈ ws, isPrefix v = true := by
  obtain ⟨pre, q, hpre, rfl | ⟨w', l, rfl, ⟨i', hend⟩ | hend⟩⟩ := decodeFrom_splits ws gathered_empty
  · exact ⟨hpre.length_le, hpre.isPrefix⟩
  · rw [hpre.decode_ok hend] at h; cases h
  · rw [hpre.decode_illegal hend] at h; cases h

end Sys2Proof.Proofs

/-- Settles O56: every list of words splits into gathered prefixes and the word that ends them (`decodeFrom_splits`), and a base word under
gathered prefixes gives operands that its row admits (`wf_of_decodeBase`). -/
theorem decodedIsWellFormed : Obligations.DecodedIsWellFormed := fun _ =>
  ⟨fun _ _ _ => Sys2Proof.Proofs.decode_ok_wf, fun _ => Sys2Proof.Proofs.decode_illegal_stands, Sys2Proof.Proofs.decode_more_prefixes⟩
end

section
namespace Sys2Proof.Proofs

open Sys2Proof Sys2Proof.Machine Sys2Proof.Laws Sys2Proof.Claims

/-! Instructions in the common order of issue, and those whose effect is a trap (R152, R57, R59, R143, R138). -/

/-- A performed instruction that no cause keeps from its guard does its own work (R54, R58, R91). -/
theorem exec_of_performs {i : Instr} {x : Args} {s : State} {pre : Option Byte} {body : State → State}
    (hexec : exec i s = issue pre x s body) (hpre : pre = none) (h : Performs s x) : exec i s = .next (body s) := by
  subst hpre
  exact hexec.trans (issue_performs x s body h)

theorem exec_trap (x : Args) (s : State) : exec (.trap x) s = execTrap x s := rfl

theorem exec_brk (x : Args) (s : State) : exec (.brk x) s = execBrk x s := rfl

theorem privileged_of_eq {s : State} (h : s.cur.strand = 0) : privileged s = none := if_pos h

/-- An instruction that is a trap saves what its trap saves. -/
theorem trapsWith_of_exec {i : Instr} {s : State} {cause : Byte} {info epc : Word}
    (h : exec i s = .next (takeTrap s s.cur.core s.cur.strand cause info s.cur.word s.cur.addr epc)) : TrapsWith i s cause info epc :=
  ⟨_, h, takeTrap_effect ..⟩

theorem wd_toNat {n : Nat} (v : BitVec n) : wd v.toNat = v.setWidth 64 := by
  rw [wd, BitVec.ofNat_toNat]

/-- The timer's trap takes the timer's hit (R137). -/
theorem trapStrand_timer (x : Strand) (t now : Nat) (vec info epc : Word) (word : IWord) :
    (trapStrand x t now vec 0x16 info epc word).tmrHit = false := by
  unfold trapStrand
  split
  · split <;> rfl
  · split <;> rfl

/-- A breakpoint's INFO is its number (R143). -/
theorem breakpointMatch_traps (s : State) (n : BitVec 2) : TrapsWith (.breakpointMatch n) s 0x13 (n.setWidth 64) s.cur.addr :=
  trapsWith_of_exec (by rw [← wd_toNat]; rfl)

theorem timerTrap_traps (s : State) (c u : Nat) : ∃ t, exec (.timerTrap c u) s = .next t ∧
    TrapEffect s t c u 0x16 0 0 (getStrand s c u).pc (getStrand s c u).pc ∧ (getStrand t c u).tmrHit = false := by
  refine ⟨_, rfl, takeTrap_effect .., ?_⟩
  rw [getStrand_takeTrap_self]
  exact trapStrand_timer ..

end Sys2Proof.Proofs

open Sys2Proof.Machine Sys2Proof.Laws Sys2Proof.Proofs

/-- Settles O9: `takeTrap_effect` says what every trap does; the instructions differ in cause, INFO and resume address alone. -/
theorem takingTraps : Obligations.TakingTraps := by
  refine ⟨fun s c u cause info word addr epc => takeTrap_effect .., fun x s => ⟨fun h => ⟨?trap, ?brk⟩, ?illegal, fun cause bad => ?fetch,
    breakpointMatch_traps s, timerTrap_traps s⟩⟩
  case trap => exact trapsWith_of_exec (exec_of_performs (exec_trap x s) rfl h)
  case brk => exact trapsWith_of_exec (exec_of_performs (exec_brk x s) rfl h)
  case illegal => exact trapsWith_of_exec rfl
  case fetch => exact trapsWith_of_exec rfl
end

section
namespace Sys2Proof.Proofs

open Sys2Proof Sys2Proof.Machine Sys2Proof.Laws Sys2Proof.Claims

/-! Frames: bytes, other strands, and what an operand reads from. -/

theorem bytesSame_refl (s : State) : BytesSame s s := ⟨fun _ => rfl, fun _ _ => rfl⟩

theorem bytesSame_of_ls {s t : State} (hmem : t.mem = s.mem) (hls : ∀ c, (getCore t c).ls = (getCore s c).ls) : BytesSame s t :=
  ⟨fun a => by rw [hmem], fun c a => congrArg (fun m => Memory.read m a) (hls c)⟩

theorem bytesSame_modCore (s : State) {c : Nat} {f : Core → Core} (h : (f (getCore s c)).ls = (getCore s c).ls) :
    BytesSame s (modCore s c f) := by
  refine bytesSame_of_ls rfl (fun d => ?_)
  by_cases hd : d = c
  · subst hd; rw [getCore_modCore_self, h]
  · rw [getCore_modCore_ne _ _ hd]

theorem othersSame_refl (s : State) (c u : Nat) : OthersSame s s c u := ⟨fun _ _ => rfl, fun _ _ => rfl⟩

theorem othersSame_trans {s t r : State} {c u : Nat} (h : OthersSame s t c u) (k : OthersSame t r c u) : OthersSame s r c u :=
  ⟨fun d hd => (k.1 d hd).trans (h.1 d hd), fun v hv => (k.2 v hv).trans (h.2 v hv)⟩

theorem othersSame_modCore (s : State) (c : Nat) {u : Nat} {f : Core → Core}
    (h : ∀ v, v ≠ u → (f (getCore s c)).strand v = (getCore s c).strand v) : OthersSame s (modCore s c f) c u :=
  ⟨fun _ hd => getCore_modCore_ne _ _ hd, fun v hv => by rw [getStrand, getCore_modCore_self, h v hv]; rfl⟩

theorem othersSame_modStrand (s : State) (c u : Nat) (f : Strand → Strand) : OthersSame s (modStrand s c u f) c u :=
  ⟨fun _ hd => getCore_modStrand_ne _ _ _ hd, fun _ hv => getStrand_modStrand_ne _ _ (fun e => hv e.2)⟩

/-- The strands of two states that differ in one strand at most are the same but for it. -/
theorem othersSame_getStrand {s t : State} {c u : Nat} (h : OthersSame s t c u) {d v : Nat} (hne : ¬(d = c ∧ v = u)) :
    getStrand t d v = getStrand s d v := by
  by_cases hd : d = c
  · subst hd; exact h.2 v (fun e => hne ⟨rfl, e⟩)
  · rw [getStrand, h.1 d hd]; rfl

/-- What an operand reads from: the register file, s0 to s15, the cycle, and the strand's window, pointers, predicates and nest indices (R52). -/
structure ReadsSame (s t : State) (cx : Ctx) : Prop where
  now : t.now = s.now
  file : (getCore t cx.core).rf = (getCore s cx.core).rf
  shared : ∀ r, r < 32 → getK [] (getCore t cx.core).shared r = getK [] (getCore s cx.core).shared r
  window : (getStrand t cx.core cx.strand).get 4 = (getStrand s cx.core cx.strand).get 4
  ptrs : (getStrand t cx.core cx.strand).ptrs = (getStrand s cx.core cx.strand).ptrs
  preds : (getStrand t cx.core cx.strand).preds = (getStrand s cx.core cx.strand).preds
  kidx : (getStrand t cx.core cx.strand).kidx = (getStrand s cx.core cx.strand).kidx

theorem ReadsSame.rd {s t : State} {cx : Ctx} (h : ReadsSame s t cx) (o : Opnd) : rd t cx o = rd s cx o := by
  obtain ⟨hnow, hfile, hshared, hwindow, hptrs, hpreds, hkidx⟩ := h
  unfold getStrand at hwindow hptrs hpreds hkidx
  cases o with
  | g n => simp [Machine.rd, Strand.base, hfile, hwindow]
  | s n => simp [Machine.rd, Core.sharedRead, hnow, hshared n.toNat (Nat.lt_of_lt_of_le n.isLt (by decide))]
  | p n => simp [Machine.rd, Strand.ptr, hptrs]
  | k n => simp [Machine.rd, Strand.kreg, hkidx]
  | q n => simp [Machine.rd, Strand.pred, hpreds]
  | _ => rfl

/-- The frame of a write that only completes says that every operand reads as before. -/
theorem registerFrame_rd_none {s t : State} {cx : Ctx} (h : RegisterFrame s t cx .none) (o : Opnd) : rd t cx o = rd s cx o := by
  by_cases ho : o = .none
  · subst ho; rfl
  · exact h.registers.reads o ho

theorem registerFrame_cr {s t : State} {cx : Ctx} {o : Opnd} (h : RegisterFrame s t cx o) :
    (getStrand t cx.core cx.strand).cr = (getStrand s cx.core cx.strand).cr := (congrArg Strand.cr h.strand :)

theorem registerFrame_get {s t : State} {cx : Ctx} {o : Opnd} (h : RegisterFrame s t cx o) (n : Nat) :
    (getStrand t cx.core cx.strand).get n = (getStrand s cx.core cx.strand).get n := by
  rw [Strand.get, registerFrame_cr h]; rfl

theorem registerFrame_cur {s t : State} {cx : Ctx} {o : Opnd} (h : RegisterFrame s t cx o) : t.cur = s.cur :=
  (congrArg State.cur h.outside :)

theorem registerFrame_now {s t : State} {cx : Ctx} {o : Opnd} (h : RegisterFrame s t cx o) : t.now = s.now :=
  (congrArg State.now h.outside :)

/-- No operand is one of the core control registers (Table 6.1). -/
theorem registerFrame_sharedLast {s t : State} {cx : Ctx} {o : Opnd} (h : RegisterFrame s t cx o) {r : Nat} (hr : 32 ≤ r) :
    (getCore t cx.core).sharedLast r = (getCore s cx.core).sharedLast r := by
  rw [Core.sharedLast, h.registers.shared r (fun n _ e => by have := n.isLt; omega)]; rfl

/-- Completing an instruction of an undisturbed strand, after a change of the state that the strand itself has not felt. -/
theorem gives_of_finish {i : Instr} {s : State} {o : Opnd} {v : Word} (hexec : exec i s = .next (finish s s.cur o v))
    (h : InRotation s) : Gives i s o v := by
  obtain ⟨hframe, hgoes, hrd⟩ := finish_frame s s.cur o v h.2
  exact ⟨_, hexec, hrd, hframe, hgoes⟩

theorem gives_of_complete {i : Instr} {s : State} (hexec : exec i s = .next (complete s s.cur)) (h : InRotation s) :
    Gives i s .none 0 := by
  obtain ⟨hframe, hgoes⟩ := completeAt_frame s s.cur (nextPc s.cur) h.2
  exact ⟨_, hexec, rfl, hframe, hgoes⟩

/-- Reading a table whose entries have all been changed by `f`, which leaves the default alone. -/
theorem getK_map_snd {α : Type} (f : α → α) {d : α} (hd : f d = d) (l : List (Nat × α)) (k : Nat) :
    getK d (l.map (fun (j, v) => (j, f v))) k = f (getK d l k) := by
  induction l with
  | nil => exact hd.symm
  | cons p l ih =>
    obtain ⟨j, v⟩ := p
    simp only [List.map_cons, getK]
    split
    · rfl
    · exact ih

/-! Leaving the rotation (R44). -/

section
variable (s : State) (st : StrandState) (why : Why) (counted : Bool) (i : Instr) (dst : Opnd)

theorem getStrand_leave_self (cx : Ctx) : getStrand (leave s st why counted i cx dst) cx.core cx.strand =
    { getStrand s cx.core cx.strand with st := st, wait := some { why, instr := i, cx, counted, since := s.now, dst } } :=
  getStrand_modStrand_self ..

/-- An instruction that leaves the rotation stands at its address, with its registers, and waits. -/
theorem leave_leaves : Leaves s (leave s st why counted i s.cur dst) st why counted := by
  have hself := getStrand_leave_self s st why counted i dst s.cur
  refine ⟨(congrArg Strand.st hself :), ⟨_, (congrArg Strand.wait hself :), rfl, rfl, rfl, rfl⟩, (congrArg Strand.pc hself :),
    (congrArg strandBody hself :), fun p => ?_⟩
  exact rd_modStrand _ _ _ _ (fun _ => ⟨rfl, rfl, rfl, rfl⟩)

theorem leave_outside (cx : Ctx) : OutsideSame s (leave s st why counted i cx dst) := rfl

theorem leave_bytes (cx : Ctx) : BytesSame s (leave s st why counted i cx dst) := bytesSame_modStrand ..

theorem leave_others (cx : Ctx) : OthersSame s (leave s st why counted i cx dst) cx.core cx.strand := othersSame_modStrand ..

theorem leave_core (cx : Ctx) : { getCore (leave s st why counted i cx dst) cx.core with strands := [] } =
    { getCore s cx.core with strands := [] } := by
  rw [leave, getCore_modStrand_self]; rfl

/-- An instruction in flight until a happening is let come about. -/
theorem leavesUntil_sched (due : Nat) (ev : Instr) : LeavesUntil s (sched (leave s .waiting why false i s.cur dst) due ev) due ev why where
  leaves := by
    obtain ⟨hstate, hwait, hpc, hstrand, hregs⟩ := leave_leaves s .waiting why false i dst
    exact ⟨hstate, hwait, hpc, hstrand, hregs⟩
  pend := rfl
  outside := rfl
  bytes := leave_bytes s .waiting why false i dst s.cur
  others := leave_others s .waiting why false i dst s.cur
  core := leave_core s .waiting why false i dst s.cur

end

/-! Fields of a word as numbers and as masks. -/

theorem bit_eq_getLsbD (w : Word) (i : Nat) : bit w i = w.getLsbD i := rfl

theorem bit_wd {n i : Nat} (hi : i < 64) : bit (wd n) i = n.testBit i := by
  rw [bit, wd, BitVec.toNat_ofNat, Nat.testBit_mod_two_pow]; simp [hi]

theorem bits_lt (w : Word) (hi lo : Nat) : bits w hi lo < 2 ^ (hi + 1 - lo) := Nat.mod_lt _ (Nat.two_pow_pos _)

/-- A field in its place, above a number that lies below it. -/
theorem testBit_field (v : Word) (hi lo : Nat) {r : Nat} (hr : r < 2 ^ lo) (i : Nat) :
    (bits v hi lo * 2 ^ lo + r).testBit i = if i < lo then r.testBit i else (decide (i ≤ hi) && bit v i) := by
  rw [Nat.mul_comm, Nat.testBit_two_pow_mul_add _ hr]
  split
  · rfl
  · rw [testBit_bits, Nat.sub_add_cancel (by omega)]
    congr 1
    rw [decide_eq_decide]
    omega

/-- A word's two fields in their places are the word under the mask of both. -/
theorem wd_fields_eq_and (v mask : Word) {hi lo hi' : Nat} (hlo : hi' < lo)
    (hmask : ∀ i < 64, mask.getLsbD i = (decide (i ≤ hi') || (decide (lo ≤ i) && decide (i ≤ hi)))) :
    wd (bits v hi lo * 2 ^ lo + bits v hi' 0) = v &&& mask := by
  have hlow : bits v hi' 0 < 2 ^ lo := Nat.lt_of_lt_of_le (bits_lt v hi' 0) (Nat.pow_le_pow_right (by decide) (by omega))
  refine BitVec.eq_of_getLsbD_eq (fun i hi64 => ?_)
  rw [BitVec.getLsbD_and, hmask i hi64, ← bit_eq_getLsbD, ← bit_eq_getLsbD, bit_wd hi64, testBit_field v hi lo hlow]
  by_cases h : i < lo
  · rw [if_pos h, testBit_bits]
    simp [show ¬ lo ≤ i by omega, Bool.and_comm]
  · rw [if_neg h]
    simp [show lo ≤ i by omega, show ¬ i ≤ hi' by omega, Bool.and_comm]

/-- A word's field in its place is the word under the field's mask. -/
theorem wd_field_eq_and (v mask : Word) {hi lo : Nat} (hmask : ∀ i < 64, mask.getLsbD i = (decide (lo ≤ i) && decide (i ≤ hi))) :
    wd (bits v hi lo * 2 ^ lo) = v &&& mask := by
  refine BitVec.eq_of_getLsbD_eq (fun i hi64 => ?_)
  have h := testBit_field v hi lo (Nat.two_pow_pos lo) i
  rw [Nat.add_zero] at h
  rw [BitVec.getLsbD_and, hmask i hi64, ← bit_eq_getLsbD, ← bit_eq_getLsbD, bit_wd hi64, h]
  by_cases hlo : i < lo
  · simp [hlo, show ¬ lo ≤ i by omega]
  · simp [hlo, show lo ≤ i by omega, Bool.and_comm]

theorem wd_low_eq_and (v mask : Word) {hi : Nat} (hmask : ∀ i < 64, mask.getLsbD i = decide (i ≤ hi)) : wd (bits v hi 0) = v &&& mask := by
  simpa using wd_field_eq_and v mask (hi := hi) (lo := 0) (by simpa using hmask)

end Sys2Proof.Proofs
end

section
namespace Sys2Proof.Proofs

open Sys2Proof Sys2Proof.Machine Sys2Proof.Laws Sys2Proof.Claims

/-! Reading a control register (R147, R125, R134). -/

theorem exec_mfc (x : Args) (s : State) : exec (.mfc x) s = execMfc x s := rfl

/-- `mfc` of a register that the strand may read finishes with its value; that of cr.tmsg pops the queue first. -/
theorem exec_mfc_cr {x : Args} {s : State} {n : BitVec 7} (hb : x.b = .cr n) (h : Performs s x)
    (hsys : systemRead n.toNat = true → s.cur.strand = 0) :
    exec (.mfc x) s = .next (if n.toNat = 35 then finish (popMessage s s.cur.core).1 s.cur x.a (popMessage s s.cur.core).2
      else finish s s.cur x.a (crValue s s.cur.core s.cur.strand n.toNat)) := by
  have hpre : (if crReadSystem n.toNat then privileged s else none) = none := by
    split
    · exact privileged_of_eq (hsys ‹_›)
    · rfl
  rw [exec_mfc, execMfc, hb]
  dsimp only
  rw [hpre, issue_performs x s _ h]

theorem crValue_eq (s : State) (n : Nat) : crValue s s.cur.core s.cur.strand n = controlValue s n := by
  unfold crValue controlValue
  split
  · rfl
  · rfl
  · rfl
  · next h0 h8 h19 => rw [if_neg h0, if_neg h8, if_neg h19]; rfl

theorem ne_35 {n : BitVec 7} (h : n ≠ 35) : n.toNat ≠ 35 := fun e => h (BitVec.eq_of_toNat_eq e)

/-- A strand reads what the last write of a register has left, whichever strand wrote it (R125). -/
theorem sharedLast_sharedWrite_self (k : Core) (r t now : Nat) (v : Word) : (k.sharedWrite r t now v).sharedLast r = v := by
  unfold Core.sharedLast Core.sharedWrite
  rw [getK_setK_self, pruneWrites, if_neg (show ¬ now + 8 ≤ now by omega)]

theorem sharedLast_sharedWrite_ne (k : Core) {r r' : Nat} (t now : Nat) (v : Word) (h : r' ≠ r) :
    (k.sharedWrite r t now v).sharedLast r' = k.sharedLast r' := by
  unfold Core.sharedLast Core.sharedWrite
  rw [getK_setK_ne _ _ _ h]

/-- The core after its head message has been popped (R134). -/
def popped (k : Core) (now : Nat) (m : TrapMsg) (rest : List TrapMsg) : Core :=
  (({ k with trapQ := rest }).sharedWrite 36 0 now (low48 m.addr)).sharedWrite 37 0 now (wd (m.strand % 16))

theorem popMessage_nil {s : State} {c : Nat} (h : (getCore s c).trapQ = []) : popMessage s c = (s, 0) := by
  unfold popMessage; rw [h]

theorem popMessage_cons {s : State} {c : Nat} {m : TrapMsg} {rest : List TrapMsg} (h : (getCore s c).trapQ = m :: rest) :
    popMessage s c = (modCore s c (fun k => popped k s.now m rest), msgWord m) := by
  unfold popMessage; rw [h]; rfl

theorem popped_sharedLast (k : Core) (now : Nat) (m : TrapMsg) (rest : List TrapMsg) :
    (popped k now m rest).sharedLast 36 = low48 m.addr ∧ (popped k now m rest).sharedLast 37 = wd (m.strand % 16) :=
  ⟨(sharedLast_sharedWrite_ne _ _ _ _ (by decide)).trans (sharedLast_sharedWrite_self ..), sharedLast_sharedWrite_self ..⟩

/-- The fields of a message word (Table 6.5). -/
theorem msgWord_fields (m : TrapMsg) : bit (msgWord m) 63 = true ∧ bits (msgWord m) 51 48 = m.strand % 16 ∧
    bits (msgWord m) 47 40 = m.cause.toNat ∧ bits (msgWord m) 15 0 = m.word.toNat := by
  have hcause := m.cause.isLt
  have hword := m.word.isLt
  simp only [bit, bits, msgWord, wd, BitVec.toNat_ofNat, Nat.testBit_eq_decide_div_mod_eq, decide_eq_true_eq]
  refine ⟨?_, ?_, ?_, ?_⟩ <;> omega

/-- The read of cr.tmsg when the queue holds a message. -/
theorem mfc_pops {x : Args} {s : State} {m : TrapMsg} {rest : List TrapMsg} (hrot : InRotation s)
    (hq : (curCore s).trapQ = m :: rest)
    (hexec : exec (.mfc x) s = .next (finish (popMessage s s.cur.core).1 s.cur x.a (popMessage s s.cur.core).2)) :
    ∃ t, exec (.mfc x) s = .next t ∧ (curCore t).trapQ = rest ∧
      (∃ v, rd t s.cur x.a = readsAs x.a v ∧ bit v 63 = true ∧ bits v 51 48 = m.strand % 16 ∧ bits v 47 40 = m.cause.toNat ∧
        bits v 15 0 = m.word.toNat) ∧
      (curCore t).sharedLast 36 = low48 m.addr ∧ (curCore t).sharedLast 37 = wd (m.strand % 16) ∧ BytesSame s t ∧
      GoesOn t s.cur (nextPc s.cur) := by
  rw [popMessage_cons hq] at hexec
  let u := modCore s s.cur.core (fun k => popped k s.now m rest)
  have hcore : getCore u s.cur.core = popped (curCore s) s.now m rest := getCore_modCore_self ..
  have hstrand : getStrand u s.cur.core s.cur.strand = curStrand s := by rw [getStrand, hcore]; rfl
  obtain ⟨hframe, hgoes, hrd⟩ := finish_frame u s.cur x.a (msgWord m) (hstrand ▸ hrot.2)
  have hcur : (finish u s.cur x.a (msgWord m)).cur = s.cur := (registerFrame_cur hframe).trans rfl
  have hqueue : (getCore (finish u s.cur x.a (msgWord m)) s.cur.core).trapQ = (getCore u s.cur.core).trapQ :=
    (congrArg Core.trapQ hframe.core :)
  obtain ⟨h36, h37⟩ := popped_sharedLast (curCore s) s.now m rest
  refine ⟨_, hexec, ?_, ⟨msgWord m, hrd, msgWord_fields m⟩, ?_, ?_, ?_, hgoes⟩
  · rw [curCore, hcur, hqueue, hcore]; rfl
  · rw [curCore, hcur, registerFrame_sharedLast hframe (by decide), hcore, h36]
  · rw [curCore, hcur, registerFrame_sharedLast hframe (by decide), hcore, h37]
  · exact bytesSame_trans (bytesSame_modCore s rfl) hframe.bytes

end Sys2Proof.Proofs

open Sys2Proof.Machine Sys2Proof.Laws Sys2Proof.Proofs

/-- Settles O12: a register but cr.tmsg is read as it stands (`crValue_eq`), and cr.tmsg pops the head of the queue (`mfc_pops`). -/
theorem readControl : Obligations.ReadControl := by
  intro x s n hb hperf hrot hsys
  have hexec := exec_mfc_cr hb hperf hsys
  refine ⟨fun hn => ?_, fun hn hq => ?_, fun m rest hn hq => ?_⟩
  · rw [if_neg (ne_35 hn), crValue_eq] at hexec
    exact gives_of_finish hexec hrot
  · subst hn
    rw [if_pos (by decide), popMessage_nil hq] at hexec
    exact gives_of_finish hexec hrot
  · subst hn
    rw [if_pos (by decide)] at hexec
    exact mfc_pops hrot hq hexec
end

section
namespace Sys2Proof.Proofs

open Sys2Proof Sys2Proof.Machine Sys2Proof.Laws Sys2Proof.Claims

/-! Writing a control register (R147, R125): the bits that are kept. -/

theorem exec_mtc (x : Args) (s : State) : exec (.mtc x) s = execMtc x s := rfl

/-- What a performed `mtc` `i` of register `n` does with the value `v`. -/
def mtcAct (i : Instr) (s : State) (n : Nat) (v : Word) : State :=
  if crIgnored n then complete s s.cur
  else
    match n with
    | 0 => complete (writeStat s s.cur.core s.cur.strand v) s.cur
    | 6 => complete (writeLimit s s.cur.core s.cur.strand v) s.cur
    | 7 => complete (writeTimer s s.cur.core s.cur.strand v) s.cur
    | 11 => complete (writeAccm s s.cur.core v) s.cur
    | 33 => writeSplit s i s.cur v
    | n =>
      if n < 32 then complete (modStrand s s.cur.core s.cur.strand (fun y => y.set n (strandMask n v))) s.cur
      else complete (modCore s s.cur.core (fun k => k.sharedWrite n s.cur.strand s.now (coreMask n v))) s.cur

theorem systemWrite_of_crWriteSystem {n : Nat} (h : crWriteSystem n = true) (hn : n ≤ 41) : systemWrite n = true := by
  simp only [crWriteSystem, Bool.or_eq_true, beq_iff_eq, decide_eq_true_eq] at h
  simp only [systemWrite, List.contains_eq_mem, List.mem_cons, List.not_mem_nil, or_false, decide_eq_true_eq]
  omega

theorem exec_mtc_cr {x : Args} {s : State} {n : BitVec 7} (ha : x.a = .cr n) (h : Performs s x)
    (hsys : systemWrite n.toNat = true → s.cur.strand = 0) (hn : n.toNat ≤ 41) :
    exec (.mtc x) s = .next (mtcAct (.mtc x) s n.toNat (src s x.b)) := by
  have hpre : (if crWriteSystem n.toNat then privileged s else none) = none := by
    split
    · next hw => exact privileged_of_eq (hsys (systemWrite_of_crWriteSystem hw hn))
    · rfl
  rw [exec_mtc, execMtc, ha]
  dsimp only
  rw [hpre, issue_performs x s _ h]
  rfl

/-- The registers that keep their writable bits and have no further effect, of the strand and of the core (Tables 6.4, 6.5). -/
theorem mtcAct_kept {n : Nat} {mask : Word} (h : (n, mask) ∈ writable) (i : Instr) (s : State) (v : Word) :
    (n < 32 ∧ n ∉ [0, 4, 8, 19] ∧ strandMask n v = v &&& mask ∧
      mtcAct i s n v = complete (modStrand s s.cur.core s.cur.strand (fun y => y.set n (strandMask n v))) s.cur) ∨
    (32 ≤ n ∧ coreMask n v = v &&& mask ∧
      mtcAct i s n v = complete (modCore s s.cur.core (fun k => k.sharedWrite n s.cur.strand s.now (coreMask n v))) s.cur) := by
  have haddr : wd (bits v 47 0) = v &&& 0xFFFFFFFFFFFF := wd_low_eq_and v _ (by decide)
  have hwatch : wd (bits v 63 54 * 2 ^ 54 + bits v 47 0) = v &&& 0xFFC0FFFFFFFFFFFF := wd_fields_eq_and v _ (by decide) (by decide)
  simp only [writable, List.mem_cons, Prod.mk.injEq, List.not_mem_nil, or_false] at h
  rcases h with ⟨rfl, rfl⟩ | ⟨rfl, rfl⟩ | ⟨rfl, rfl⟩ | ⟨rfl, rfl⟩ | ⟨rfl, rfl⟩ | ⟨rfl, rfl⟩ | ⟨rfl, rfl⟩ | ⟨rfl, rfl⟩ | ⟨rfl, rfl⟩ |
    ⟨rfl, rfl⟩ | ⟨rfl, rfl⟩ | ⟨rfl, rfl⟩ | ⟨rfl, rfl⟩ | ⟨rfl, rfl⟩
  · exact .inl ⟨by decide, by decide, wd_low_eq_and v _ (by decide), rfl⟩
  iterate 4 exact .inl ⟨by decide, by decide, haddr, rfl⟩
  iterate 2 exact .inl ⟨by decide, by decide, hwatch, rfl⟩
  · exact .inr ⟨by decide, wd_low_eq_and v _ (by decide), rfl⟩
  · exact .inr ⟨by decide, wd_field_eq_and v _ (hi := 47) (lo := 1) (by decide), rfl⟩
  · exact .inr ⟨by decide, wd_low_eq_and v _ (by decide), rfl⟩
  · exact .inr ⟨by decide, wd_field_eq_and v _ (hi := 47) (lo := 6) (by decide), rfl⟩
  · exact .inr ⟨by decide, wd_fields_eq_and v _ (by decide) (by decide), rfl⟩
  · exact .inr ⟨by decide, haddr, rfl⟩
  · exact .inr ⟨by decide, wd_fields_eq_and v _ (by decide) (by decide), rfl⟩

theorem mtcAct_ignored {n : Nat} (h : n ∈ readOnly) (i : Instr) (s : State) (v : Word) : mtcAct i s n v = complete s s.cur := by
  refine if_pos ?_
  simp only [readOnly, List.mem_cons, List.not_mem_nil, or_false] at h
  simp only [crIgnored, Bool.or_eq_true, beq_iff_eq]
  omega

/-! The frame of a write. -/

/-- A strand that differs in register `n` alone, as far as what its instructions read and what lets it go on. -/
structure KeepsAllBut (n : Nat) (x y : Strand) : Prop where
  st : y.st = x.st
  holdReq : y.holdReq = x.holdReq
  ptrs : y.ptrs = x.ptrs
  preds : y.preds = x.preds
  kidx : y.kidx = x.kidx
  get : ∀ m, m ≠ n → y.get m = x.get m

theorem keepsAllBut_refl (n : Nat) (x : Strand) : KeepsAllBut n x x := ⟨rfl, rfl, rfl, rfl, rfl, fun _ _ => rfl⟩

theorem keepsAllBut_set {n : Nat} {x y : Strand} (h : KeepsAllBut n x y) (v : Word) : KeepsAllBut n x (y.set n v) :=
  ⟨h.st, h.holdReq, h.ptrs, h.preds, h.kidx, fun m hm => (get_set_ne _ _ hm).trans (h.get m hm)⟩

theorem undisturbed_of_keeps {n : Nat} {x y : Strand} (h : KeepsAllBut n x y) (hn : n ≠ 19) (hst : x.st = .ready) (hx : Undisturbed x) :
    Undisturbed y := by
  obtain ⟨hstep, hhold, -⟩ := hx
  refine ⟨?_, h.holdReq.trans hhold, fun hw => ?_⟩
  · rw [Strand.dbg, h.get 19 hn.symm]; exact hstep
  · rw [h.st, hst] at hw; cases hw

/-- A change of register `n` of the issuing strand. -/
theorem controlFrame_modStrand {s : State} {f : Strand → Strand} {n : Nat} (h4 : n ≠ 4)
    (hf : KeepsAllBut n (curStrand s) (f (curStrand s))) : ControlFrame s (modStrand s s.cur.core s.cur.strand f) n where
  outside := rfl
  bytes := bytesSame_modStrand ..
  others := othersSame_modStrand ..
  core := by
    rw [curCore, modStrand_cur, getCore_modStrand_self]; rfl
  controls m _ hm := by
    rw [curStrand, modStrand_cur, getStrand_modStrand_self, hf.get m hm]
  shared m _ := by
    rw [curCore, modStrand_cur, getCore_modStrand_self]; rfl
  registers := by
    refine (ReadsSame.mk rfl ?_ (fun r _ => ?_) ?_ ?_ ?_ ?_ : ReadsSame s (modStrand s s.cur.core s.cur.strand f) s.cur).rd
    · rw [getCore_modStrand_self]; rfl
    · rw [getCore_modStrand_self]; rfl
    · rw [getStrand_modStrand_self, hf.get 4 h4.symm]
    · rw [getStrand_modStrand_self, hf.ptrs]
    · rw [getStrand_modStrand_self, hf.preds]
    · rw [getStrand_modStrand_self, hf.kidx]

/-- A write of a register of the issuing core. -/
theorem controlFrame_sharedWrite (s : State) {n : Nat} (hn : 32 ≤ n) (v : Word) :
    ControlFrame s (modCore s s.cur.core (fun k => k.sharedWrite n s.cur.strand s.now v)) n where
  outside := rfl
  bytes := bytesSame_modCore s rfl
  others := othersSame_modCore s _ (fun _ _ => rfl)
  core := by rw [curCore, modCore_cur, getCore_modCore_self]; rfl
  controls m _ _ := by rw [curStrand, modCore_cur, getStrand, getCore_modCore_self]; rfl
  shared m hm := by
    rw [curCore, modCore_cur, getCore_modCore_self]
    exact getK_setK_ne _ _ _ (by omega)
  registers := by
    refine (ReadsSame.mk rfl ?_ (fun r hr => ?_) ?_ ?_ ?_ ?_ :
      ReadsSame s (modCore s s.cur.core (fun k => k.sharedWrite n s.cur.strand s.now v)) s.cur).rd
    · rw [getCore_modCore_self]; rfl
    · rw [getCore_modCore_self]
      exact getK_setK_ne _ _ _ (by omega)
    all_goals rw [getStrand, getCore_modCore_self]; rfl

/-- An `mtc` that has written completes, and the frame of its write stands. -/
theorem controlWrite_completes {i : Instr} {s u : State} {n : Nat} (hexec : exec i s = .next (complete u s.cur)) (h : ControlFrame s u n)
    (hu : Undisturbed (getStrand u s.cur.core s.cur.strand)) :
    ∃ t, exec i s = .next t ∧ RegisterFrame u t s.cur .none ∧ ControlFrame s t n ∧ GoesOn t s.cur (nextPc s.cur) := by
  obtain ⟨hframe, hgoes⟩ := completeAt_frame u s.cur (nextPc s.cur) hu
  have hucur : u.cur = s.cur := (congrArg State.cur h.outside :)
  have hcur : (complete u s.cur).cur = s.cur := (registerFrame_cur hframe).trans hucur
  obtain ⟨houtside, hbytes, hothers, hcore, hcontrols, hshared, hregisters⟩ := h
  simp only [curCore, curStrand, hucur] at hcore hcontrols hshared
  refine ⟨_, hexec, hframe, ⟨?_, bytesSame_trans hbytes hframe.bytes, othersSame_trans hothers hframe.others, ?_, fun m hm hmn => ?_,
    fun m hm => ?_, fun o => ?_⟩, hgoes⟩
  · exact hframe.outside.trans houtside
  · rw [curCore, hcur]; exact hframe.core.trans hcore
  · rw [curStrand, hcur]; exact (registerFrame_get hframe m).trans (hcontrols m hm hmn)
  · rw [curCore, hcur]; exact (hframe.registers.shared m nofun).trans (hshared m hm)
  · exact (registerFrame_rd_none hframe o).trans (hregisters o)

/-- An `mtc` that changes its strand's register `n` by `f`. -/
theorem strandWrite_completes {i : Instr} {s : State} {f : Strand → Strand} {n : Nat} (hrot : InRotation s) (h4 : n ≠ 4) (h19 : n ≠ 19)
    (hf : KeepsAllBut n (curStrand s) (f (curStrand s)))
    (hexec : exec i s = .next (complete (modStrand s s.cur.core s.cur.strand f) s.cur)) :
    ∃ t, exec i s = .next t ∧ ControlFrame s t n ∧ GoesOn t s.cur (nextPc s.cur) ∧
      curStrand t = { f (curStrand s) with pc := nextPc s.cur, st := .ready, wait := none, readyFrom := s.now + 1 } := by
  have hu : Undisturbed (getStrand (modStrand s s.cur.core s.cur.strand f) s.cur.core s.cur.strand) := by
    rw [getStrand_modStrand_self]
    exact undisturbed_of_keeps hf h19 hrot.1 hrot.2
  obtain ⟨t, ht, hframe, hcontrol, hgoes⟩ := controlWrite_completes hexec (controlFrame_modStrand h4 hf) hu
  have hcur : t.cur = s.cur := (registerFrame_cur hframe).trans rfl
  refine ⟨t, ht, hcontrol, hgoes, ?_⟩
  obtain rfl := Host.Outcome.next.inj (ht.symm.trans hexec)
  rw [curStrand, hcur, complete_undisturbed _ _ hu, getStrand_modStrand_self, getStrand_modStrand_self]
  rfl

/-- R147, R125: the writable bits of a register that only keeps what is written. -/
theorem mtc_keeps {x : Args} {s : State} {n : Nat} {mask : Word} (hrot : InRotation s) (hmem : (n, mask) ∈ writable)
    (hexec : exec (.mtc x) s = .next (mtcAct (.mtc x) s n (src s x.b))) :
    ∃ t, exec (.mtc x) s = .next t ∧ controlValue t n = src s x.b &&& mask ∧ ControlFrame s t n ∧ GoesOn t s.cur (nextPc s.cur) := by
  rcases mtcAct_kept hmem (.mtc x) s (src s x.b) with ⟨hlt, hnot, hmask, hact⟩ | ⟨hge, hmask, hact⟩
  · simp only [List.mem_cons, List.not_mem_nil, or_false, not_or] at hnot
    obtain ⟨h0, h4, h8, h19⟩ := hnot
    obtain ⟨t, ht, hcontrol, hgoes, hstrand⟩ := strandWrite_completes hrot h4 h19 (keepsAllBut_set (keepsAllBut_refl n _) _) (hact ▸ hexec)
    refine ⟨t, ht, ?_, hcontrol, hgoes⟩
    rw [controlValue, if_neg h0, if_neg h8, if_neg h19, if_pos hlt, hstrand, ← hmask]
    exact get_set_self ..
  · let u := modCore s s.cur.core (fun k => k.sharedWrite n s.cur.strand s.now (coreMask n (src s x.b)))
    have hu : Undisturbed (getStrand u s.cur.core s.cur.strand) := by
      rw [getStrand, getCore_modCore_self]; exact hrot.2
    obtain ⟨t, ht, hframe, hcontrol, hgoes⟩ := controlWrite_completes (hact ▸ hexec) (controlFrame_sharedWrite s hge _) hu
    have hcur : t.cur = s.cur := (registerFrame_cur hframe).trans rfl
    have hnow : t.now = s.now := (registerFrame_now hframe).trans rfl
    refine ⟨t, ht, ?_, hcontrol, hgoes⟩
    rw [controlValue, if_neg (by omega), if_neg (by omega), if_neg (by omega), if_neg (by omega), curCore, hcur, hnow, ← hmask,
      Core.sharedRead, hframe.registers.shared n nofun, getCore_modCore_self]
    exact sharedRead_sharedWrite_self ..

end Sys2Proof.Proofs
end

section
namespace Sys2Proof.Proofs

open Sys2Proof Sys2Proof.Machine Sys2Proof.Laws Sys2Proof.Claims

/-! The registers whose write does more than keep bits. -/

/-- A flag of cr.stat is cleared by a 1 (Table 6.2). -/
def clearFlag (v : Word) (x : Strand) (i : Nat) : Strand := if bit v i then x.setFlag i false else x

theorem writeStat_eq (s : State) (c t : Nat) (v : Word) :
    writeStat s c t v = modStrand s c t (fun x => clearFlag v (clearFlag v (clearFlag v x 11) 10) 7) := rfl

theorem flag_clearFlag (v : Word) (x : Strand) (i : Nat) {j : Nat} (hj : j < 64) :
    (clearFlag v x i).flag j = (x.flag j && !(decide (j = i) && bit v i)) := by
  unfold clearFlag
  split
  · next h => rw [flag_setFlag _ _ _ _ hj, h]; split <;> simp_all
  · next h => simp [h]

theorem keepsAllBut_clearFlag {x y : Strand} (h : KeepsAllBut 0 x y) (v : Word) (i : Nat) : KeepsAllBut 0 x (clearFlag v y i) := by
  unfold clearFlag
  split
  · exact keepsAllBut_set h _
  · exact h

theorem statWritten_clearFlag (x : Strand) (v : Word) : StatWritten x (clearFlag v (clearFlag v (clearFlag v x 11) 10) 7) v := by
  constructor
  · intro j hj
    simp only [List.mem_cons, List.not_mem_nil, or_false] at hj
    rcases hj with rfl | rfl | rfl <;> simp [flag_clearFlag]
  · intro j hj
    simp only [List.mem_cons, List.not_mem_nil, or_false] at hj
    rcases hj with rfl | rfl | rfl <;> simp [flag_clearFlag]

theorem keepsAllBut_stat (x : Strand) (v : Word) : KeepsAllBut 0 x (clearFlag v (clearFlag v (clearFlag v x 11) 10) 7) :=
  keepsAllBut_clearFlag (keepsAllBut_clearFlag (keepsAllBut_clearFlag (keepsAllBut_refl 0 x) v 11) v 10) v 7

/-- The strand after a write of cr.tmr (R138). -/
def timerSet (v : Word) (now : Nat) (x : Strand) : Strand :=
  { x.set 7 (wd (bits v 31 0)) with
    tmrSet := if bits v 31 0 = 0 then none else some now
    tmrHit := if bits v 31 0 = 0 then false else x.tmrHit }

theorem writeTimer_eq (s : State) (c t : Nat) (v : Word) : writeTimer s c t v = modStrand s c t (timerSet v s.now) := rfl

theorem keepsAllBut_timerSet (v : Word) (now : Nat) (x : Strand) : KeepsAllBut 7 x (timerSet v now x) :=
  ⟨rfl, rfl, rfl, rfl, rfl, fun _ hm => get_set_ne _ _ hm⟩

theorem wd_low_word (v : Word) : wd (bits v 31 0) = v &&& 0xFFFFFFFF := wd_low_eq_and v _ (by decide)

theorem timerWritten_timerSet (v : Word) (now : Nat) (x : Strand) : TimerWritten (timerSet v now x) v now := by
  have hzero : v &&& 0xFFFFFFFF = 0 ↔ bits v 31 0 = 0 := by
    rw [← wd_low_word]
    refine ⟨fun h => ?_, fun h => by rw [h]; rfl⟩
    have hlt := bits_lt v 31 0
    have hnat := congrArg BitVec.toNat h
    rw [wd, BitVec.toNat_ofNat] at hnat
    exact (Nat.mod_eq_of_lt (by omega)).symm.trans hnat
  refine ⟨(get_set_self x 7 _).trans (wd_low_word v), fun h => ?_, fun h => ?_⟩
  · exact if_pos (hzero.1 h)
  · exact if_neg (fun h0 => h (hzero.2 h0))

/-! The tiles that a write of cr.accm takes (Table 6.4). -/

theorem and_mod_two (a b : Nat) : (a &&& b) % 2 = a % 2 * (b % 2) := by
  have h : (a &&& b) % 2 = 1 ↔ a % 2 = 1 ∧ b % 2 = 1 := by
    simpa only [Nat.testBit_zero, ← Bool.decide_and, decide_eq_decide] using Nat.testBit_and a b 0
  rcases Nat.mod_two_eq_zero_or_one b with hb | hb <;> rw [hb] at h ⊢ <;> omega

/-- Taking out of `a` the bits that it shares with `b`. -/
theorem testBit_sub_and (a b j : Nat) : (a - (a &&& b)).testBit j = (a.testBit j && !b.testBit j) := by
  have hle : a &&& b ≤ a := Nat.and_le_left
  have hlow := and_mod_two a b
  induction j generalizing a b with
  | zero =>
    simp only [Nat.testBit_zero]
    rcases Nat.mod_two_eq_zero_or_one b with hb | hb <;> simp only [hb, Nat.mul_zero, Nat.mul_one] at hlow ⊢ <;> simp <;> omega
  | succ j ih =>
    have hhigh : (a - (a &&& b)) / 2 = a / 2 - (a / 2 &&& b / 2) := by
      rw [← Nat.and_div_two]
      rcases Nat.mod_two_eq_zero_or_one b with hb | hb <;> rw [hb] at hlow <;> omega
    rw [Nat.testBit_succ, Nat.testBit_succ, Nat.testBit_succ, hhigh]
    exact ih _ _ Nat.and_le_left (and_mod_two ..)

theorem testBit_foldl_or {α : Type} (p : α → Prop) [DecidablePred p] (f : α → Nat) (j : Nat) (l : List α) (a : Nat) :
    (l.foldl (fun a u => if p u then a ||| f u else a) a).testBit j = (a.testBit j || l.any fun u => decide (p u) && (f u).testBit j) := by
  induction l generalizing a with
  | nil => simp
  | cons u l ih =>
    rw [List.foldl_cons, ih, List.any_cons]
    by_cases h : p u <;> simp [h, Bool.or_assoc]

theorem testBit_tilesOwned (k : Core) (t : Nat) {j : Nat} (hj : j < 8) :
    (tilesOwned k t).testBit j = (List.range 16).any fun w => w != t && (k.strand w).live && bit ((k.strand w).get 11) j := by
  rw [tilesOwned, testBit_foldl_or (fun u => u ≠ t ∧ (k.strand u).live = true), Nat.zero_testBit, Bool.false_or]
  congr 1
  funext u
  simp [testBit_bits, hj, bne, beq_eq_decide]

/-- The strand after a write of cr.accm. -/
def tilesTaken (k : Core) (v : Word) (x : Strand) : Strand :=
  x.set 11 (wd (bits v 7 0 - (bits v 7 0 &&& tilesOwned k 0)))

theorem writeAccm_eq (s : State) (c : Nat) (v : Word) : writeAccm s c v = modStrand s c 0 (tilesTaken (getCore s c) v) := rfl

theorem accmWritten_tilesTaken (k : Core) (v : Word) (x : Strand) : AccmWritten k (tilesTaken k v x) v := by
  intro j hj
  rw [tilesTaken, get_set_self, bit_wd (by omega), testBit_sub_and, testBit_tilesOwned k 0 hj, testBit_bits]
  simp [hj]

end Sys2Proof.Proofs
end

section
namespace Sys2Proof.Proofs

open Sys2Proof Sys2Proof.Machine Sys2Proof.Laws Sys2Proof.Claims

/-! The L1 split (R185). -/

/-- A cached line after the split has changed. -/
def splitLine (old new : Nat) (x : L1Line) : Option L1Line :=
  let a := old + 256 * x.place
  if a < new then none else some { x with place := (a - new) / 256 }

/-- A core after the split has changed. -/
def splitCore (v : Word) (now : Nat) (k : Core) : Core :=
  ({ k with l1 := k.l1.filterMap (splitLine (storeTop k.splitNow) (storeTop (bits v 1 0))) }).sharedWrite 33 0 now (wd (bits v 1 0))

theorem takeSplit_eq (s : State) (c : Nat) (v : Word) : takeSplit s c v = modCore s c (splitCore v s.now) := rfl

/-- A bank is a whole number of lines. -/
theorem storeTop_mod (n : Nat) : storeTop n % 256 = 0 := by
  unfold storeTop; omega

theorem splitLine_eq_some {old new : Nat} (ho : old % 256 = 0) (hn : new % 256 = 0) (z y : L1Line) :
    splitLine old new z = some y ↔ z.task = y.task ∧ z.line = y.line ∧ new + 256 * y.place = old + 256 * z.place := by
  obtain ⟨place, task, line⟩ := y
  unfold splitLine
  dsimp only
  split
  · next h => simp only [reduceCtorEq, false_iff]; omega
  · next h =>
    simp only [Option.some.injEq, L1Line.mk.injEq]
    constructor
    · rintro ⟨hplace, htask, hline⟩
      exact ⟨htask, hline, by omega⟩
    · rintro ⟨htask, hline, hplace⟩
      exact ⟨by omega, htask, hline⟩

theorem sharedLast_splitCore (v : Word) (now : Nat) (k : Core) : (splitCore v now k).sharedLast 33 = v &&& 3 :=
  (sharedLast_sharedWrite_self ..).trans (wd_low_eq_and v _ (by decide))

theorem splitNow_splitCore (v : Word) (now : Nat) (k : Core) : (splitCore v now k).splitNow = bits v 1 0 := by
  have hlt := bits_lt v 1 0
  rw [Core.splitNow, splitCore, sharedLast_sharedWrite_self, bits, wd, BitVec.toNat_ofNat]
  omega

theorem mem_splitCore (v : Word) (now : Nat) (k : Core) (y : L1Line) : y ∈ (splitCore v now k).l1 ↔
    ∃ z ∈ k.l1, z.task = y.task ∧ z.line = y.line ∧ storeTop (bits v 1 0) + 256 * y.place = storeTop k.splitNow + 256 * z.place := by
  change y ∈ k.l1.filterMap _ ↔ _
  simp only [List.mem_filterMap, splitLine_eq_some (storeTop_mod _) (storeTop_mod _)]

/-- The split is no register of a strand's instructions. -/
theorem takeSplit_reads (s : State) (cx : Ctx) (v : Word) : ReadsSame s (takeSplit s cx.core v) cx where
  now := rfl
  file := by rw [takeSplit_eq, getCore_modCore_self]; rfl
  shared r hr := by rw [takeSplit_eq, getCore_modCore_self]; exact getK_setK_ne _ _ _ (by omega)
  window := by rw [takeSplit_eq, getStrand, getCore_modCore_self]; rfl
  ptrs := by rw [takeSplit_eq, getStrand, getCore_modCore_self]; rfl
  preds := by rw [takeSplit_eq, getStrand, getCore_modCore_self]; rfl
  kidx := by rw [takeSplit_eq, getStrand, getCore_modCore_self]; rfl

theorem takeSplit_getStrand (s : State) (cx : Ctx) (v : Word) :
    getStrand (takeSplit s cx.core v) cx.core cx.strand = getStrand s cx.core cx.strand := by
  rw [takeSplit_eq, getStrand, getCore_modCore_self]; rfl

/-- A line of the cache whose bank stays in it stands where it stood. -/
theorem splitCore_keeps_line {v : Word} {now : Nat} {k : Core} {x : L1Line} (hx : x ∈ k.l1)
    (h : storeTop (bits v 1 0) ≤ l1Offset k x) :
    ∃ y ∈ (splitCore v now k).l1, y.line = x.line ∧ y.task = x.task ∧ l1Offset (splitCore v now k) y = l1Offset k x := by
  have hplace : storeTop (bits v 1 0) + 256 * ((l1Offset k x - storeTop (bits v 1 0)) / 256) = l1Offset k x := by
    have hold := storeTop_mod k.splitNow
    have hnew := storeTop_mod (bits v 1 0)
    unfold l1Offset at *
    omega
  refine ⟨{ x with place := (l1Offset k x - storeTop (bits v 1 0)) / 256 }, (mem_splitCore v now k _).2 ⟨x, hx, rfl, rfl, hplace⟩,
    rfl, rfl, ?_⟩
  rw [l1Offset, splitNow_splitCore]
  exact hplace

/-- The strand of an `mtc` goes on in the new split. -/
theorem takeSplit_written {s : State} (hrot : InRotation s) (v : Word) :
    SplitWritten s (complete (takeSplit s s.cur.core v) s.cur) v ∧ GoesOn (complete (takeSplit s s.cur.core v) s.cur) s.cur (nextPc s.cur) := by
  let u := takeSplit s s.cur.core v
  have hu : getCore u s.cur.core = splitCore v s.now (curCore s) := getCore_modCore_self ..
  obtain ⟨hframe, hgoes⟩ := completeAt_frame u s.cur (nextPc s.cur) (takeSplit_getStrand s s.cur v ▸ hrot.2)
  have hcur : (complete u s.cur).cur = s.cur := (registerFrame_cur hframe).trans rfl
  have hbody : coreBody (getCore (complete u s.cur) s.cur.core) = coreBody (getCore u s.cur.core) := hframe.core
  have hlines : (getCore (complete u s.cur) s.cur.core).l1 = (splitCore v s.now (curCore s)).l1 :=
    (congrArg Core.l1 hbody :).trans (congrArg Core.l1 hu :)
  have hlast : (getCore (complete u s.cur) s.cur.core).sharedLast 33 = (splitCore v s.now (curCore s)).sharedLast 33 :=
    (registerFrame_sharedLast hframe (by decide)).trans (congrArg (Core.sharedLast · 33) hu)
  have hoffset (y : L1Line) : l1Offset (getCore (complete u s.cur) s.cur.core) y = l1Offset (splitCore v s.now (curCore s)) y := by
    rw [l1Offset, l1Offset, Core.splitNow, hlast]; rfl
  refine ⟨?_, hgoes⟩
  refine ⟨?_, fun x hx h => ?_, fun y hy => ?_, hframe.outside, bytesSame_trans (bytesSame_modCore s rfl) hframe.bytes,
    othersSame_trans (othersSame_modCore s _ (fun _ _ => rfl)) hframe.others, ?_, fun m hm => ?_, fun o => ?_⟩
  · rw [curCore, hcur, hlast, sharedLast_splitCore]
  · obtain ⟨y, hy, hline, htask, hplace⟩ := splitCore_keeps_line (now := s.now) hx h
    rw [curCore, hcur, hlines]
    exact ⟨y, hy, hline, htask, (hoffset y).trans hplace⟩
  · rw [curCore, hcur, hlines, mem_splitCore] at hy
    obtain ⟨z, hz, htask, hline, hplace⟩ := hy
    exact ⟨z, hz, hline.symm, htask.symm, by rw [l1Offset, ← hplace]; exact Nat.le_add_right ..⟩
  · rw [curCore, hcur, hbody, hu]; rfl
  · rw [curCore, hcur]
    exact (hframe.registers.shared m nofun).trans (by rw [hu]; exact getK_setK_ne _ _ _ hm)
  · exact (registerFrame_rd_none hframe o).trans ((takeSplit_reads s s.cur v).rd o)

/-! The effects of `mtc`. -/

/-- The registers of a strand whose write does more. -/
theorem mtc_writes_strand {x : Args} {s : State} {n : Nat} {f : Strand → Strand} (hrot : InRotation s) (h4 : n ≠ 4) (h19 : n ≠ 19)
    (hf : KeepsAllBut n (curStrand s) (f (curStrand s)))
    (hexec : exec (.mtc x) s = .next (complete (modStrand s s.cur.core s.cur.strand f) s.cur)) {P : Strand → Prop}
    (hP : P { f (curStrand s) with pc := nextPc s.cur, st := .ready, wait := none, readyFrom := s.now + 1 }) :
    ∃ t, exec (.mtc x) s = .next t ∧ P (curStrand t) ∧ ControlFrame s t n ∧ GoesOn t s.cur (nextPc s.cur) := by
  obtain ⟨t, ht, hcontrol, hgoes, hstrand⟩ := strandWrite_completes hrot h4 h19 hf hexec
  exact ⟨t, ht, hstrand ▸ hP, hcontrol, hgoes⟩

theorem writeControl : WriteControl := by
  intro x s n ha hperf hrot hsys
  refine ⟨fun mask hmem => ?_, fun hmem => ?_⟩
  · have hn : n.toNat ≤ 41 := by
      simp only [writable, List.mem_cons, Prod.mk.injEq, List.not_mem_nil, or_false] at hmem
      omega
    exact mtc_keeps hrot hmem (exec_mtc_cr ha hperf hsys hn)
  · have hn : n.toNat ≤ 41 := by
      simp only [readOnly, List.mem_cons, List.not_mem_nil, or_false] at hmem
      omega
    have hexec := exec_mtc_cr ha hperf hsys hn
    rw [mtcAct_ignored hmem] at hexec
    exact gives_of_complete hexec hrot

theorem writeControlOthers : WriteControlOthers := by
  intro x s n ha hperf hrot hsys
  refine ⟨fun f hmem => ?_, fun hn => ?_⟩
  · simp only [List.mem_cons, Prod.mk.injEq, List.not_mem_nil, or_false] at hmem
    rcases hmem with ⟨hn, rfl⟩ | ⟨hn, rfl⟩ | ⟨hn, rfl⟩ | ⟨hn, rfl⟩ <;>
      (have hexec := exec_mtc_cr ha hperf hsys (by omega); rw [hn] at hexec hsys ⊢)
    case inl =>
      exact mtc_writes_strand (P := fun y => StatWritten (curStrand s) y (src s x.b)) hrot (by decide) (by decide)
        (keepsAllBut_stat _ _) hexec (statWritten_clearFlag (curStrand s) (src s x.b))
    case inr.inl =>
      exact mtc_writes_strand (P := fun y => LimitWritten y (src s x.b)) hrot (by decide) (by decide)
        (keepsAllBut_set (keepsAllBut_refl 6 _) _) hexec ((get_set_self ..).trans (wd_low_word _))
    case inr.inr.inl =>
      exact mtc_writes_strand (P := fun y => TimerWritten y (src s x.b) s.now) hrot (by decide) (by decide)
        (keepsAllBut_timerSet (src s x.b) s.now _) hexec (timerWritten_timerSet (src s x.b) s.now (curStrand s))
    case inr.inr.inr =>
      have hstrand : s.cur.strand = 0 := hsys rfl
      have hact : mtcAct (.mtc x) s 11 (src s x.b) =
          complete (modStrand s s.cur.core s.cur.strand (tilesTaken (curCore s) (src s x.b))) s.cur := by
        rw [hstrand]; rfl
      rw [hact] at hexec
      exact mtc_writes_strand (P := fun y => AccmWritten (curCore s) y (src s x.b)) hrot (by decide) (by decide)
        (keepsAllBut_set (keepsAllBut_refl 11 _) _) hexec (accmWritten_tilesTaken (curCore s) (src s x.b) (curStrand s))
  · subst hn
    have hexec : exec (.mtc x) s = .next (writeSplit s (.mtc x) s.cur (src s x.b)) := exec_mtc_cr ha hperf hsys (by decide)
    unfold writeSplit at hexec
    refine ⟨fun hover => ?_, fun hover hready => ?_, fun hover hready => ?_⟩
    · rw [if_pos hover] at hexec
      exact hexec
    · rw [if_neg (by simp [hover]), if_pos hready] at hexec
      exact ⟨_, hexec, takeSplit_written hrot _⟩
    · rw [if_neg (by simp [hover]), if_neg (by simp [hready])] at hexec
      exact ⟨_, hexec, leave_leaves .., leave_outside .., leave_bytes ..⟩

/-- A write of a register of one strand by a happening. -/
theorem strandWrite_happens {i : Instr} {s : State} {c t n : Nat} {f : Strand → Strand} {P : Strand → Prop}
    (hexec : exec i s = .next (modStrand s c t f)) (hf : KeepsAllBut n (getStrand s c t) (f (getStrand s c t))) (hP : P (f (getStrand s c t))) :
    ∃ u, exec i s = .next u ∧ OthersSame s u c t ∧ BytesSame s u ∧ P (getStrand u c t) ∧
      ∀ m, m ≠ n → (getStrand u c t).get m = (getStrand s c t).get m := by
  refine ⟨_, hexec, othersSame_modStrand .., bytesSame_modStrand .., ?_, fun m hm => ?_⟩
  · rw [getStrand_modStrand_self]; exact hP
  · rw [getStrand_modStrand_self]; exact hf.get m hm

/-- A pop of the trap queue changes no strand. -/
theorem popMessage_frame (s : State) (c : Nat) : (getCore (popMessage s c).1 c).trapQ = (getCore s c).trapQ.drop 1 ∧
    BytesSame s (popMessage s c).1 ∧ (∀ d, d ≠ c → getCore (popMessage s c).1 d = getCore s d) ∧
    ∀ w, getStrand (popMessage s c).1 c w = getStrand s c w := by
  cases hq : (getCore s c).trapQ with
  | nil =>
    rw [popMessage_nil hq]
    exact ⟨hq, bytesSame_refl s, fun _ _ => rfl, fun _ => rfl⟩
  | cons m rest =>
    rw [popMessage_cons hq]
    refine ⟨?_, bytesSame_modCore s rfl, fun _ hd => getCore_modCore_ne _ _ hd, fun w => ?_⟩
    · rw [getCore_modCore_self]; rfl
    · rw [getStrand, getCore_modCore_self]; rfl

theorem writeControlEffects : WriteControlEffects := by
  intro s c t v
  refine ⟨?stat, ?limit, ?timer, ?tiles, ?pop⟩
  case stat => exact strandWrite_happens (P := fun y => StatWritten (getStrand s c t) y v) rfl (keepsAllBut_stat _ v) (statWritten_clearFlag _ v)
  case limit =>
    exact strandWrite_happens (P := fun y => LimitWritten y v) rfl (keepsAllBut_set (keepsAllBut_refl 6 _) _)
      ((get_set_self ..).trans (wd_low_word v))
  case timer =>
    exact strandWrite_happens (P := fun y => TimerWritten y v s.now) rfl (keepsAllBut_timerSet v s.now _) (timerWritten_timerSet v s.now _)
  case tiles =>
    exact strandWrite_happens (P := fun y => AccmWritten (getCore s c) y v) rfl (keepsAllBut_set (keepsAllBut_refl 11 _) _)
      (accmWritten_tilesTaken _ v _)
  case pop =>
    exact ⟨_, rfl, popMessage_frame s c⟩

end Sys2Proof.Proofs

open Sys2Proof.Machine Sys2Proof.Laws Sys2Proof.Proofs

/-- Settles O13: the bits that `mtc` keeps (`writeControl`), the registers whose write does more (`writeControlOthers`), and the same writes as
happenings (`writeControlEffects`). -/
theorem writingControl : Obligations.WritingControl := ⟨writeControl, writeControlOthers, writeControlEffects⟩
end

section
namespace Sys2Proof.Proofs

open Sys2Proof Sys2Proof.Machine Sys2Proof.Laws Sys2Proof.Claims

/-! The counterexample to what the statement says of `reap` and the other strands (R149, R169). -/

theorem exec_reap (x : Args) (s : State) : exec (.reap x) s = execReap x s := rfl

/-- Strand 2 waits for a chunk of the fetcher that strand 1, which runs no task, has bound. -/
def chunkWait : Wait := { why := .nest 0, instr := .nestn {}, cx := { strand := 2 } }

/-- Strand 0 runs with 1 in p0, strand 1 is Halted, and strand 2 waits for a chunk of strand 1's fetcher. -/
def reapNest : State where
  cores := [(0, { strands := [(0, { st := .ready, ptrs := [(0, 1)] }), (1, { st := .halted }), (2, { st := .waiting, wait := some chunkWait })] })]
  looms := [(0, { fetchers := [(0, { owner := .core 0, by_ := 1 })] })]

/-- Reaping the strand that p0 names. -/
def reapP0 : Args := { a := .p 0 }

/-- The fetcher of the reaped strand is freed, and the strand that waits for a chunk of it traps (R169). -/
theorem reapNest_traps : (getStrand (finish (reapOne reapNest 0 1) reapNest.cur (.p 0) 0) 0 2).st = .trapped := by decide +kernel

theorem reapNest_performs : Performs reapNest reapP0 := by unfold Performs; decide

theorem reapNest_inRotation : InRotation reapNest := by unfold InRotation Undisturbed; decide

/-- No unit of the looms but the fetcher is bound. -/
theorem reapNest_barriers (n : Nat) : (getBarrier reapNest 0 n).owner ≠ .core 0 := by
  have h : getBarrier reapNest 0 n = {} := rfl
  rw [h]; decide

/-- A halted strand without matrix work is reaped at once (R149). -/
theorem exec_reap_halted {x : Args} {s : State} {u : Nat} (h0 : s.cur.strand = 0) (h : Performs s x) (hu : bits (src s x.a) 3 0 = u)
    (hne : u ≠ 0) (hst : ((curCore s).strand u).st = .halted) (hbusy : matrixBusy (curCore s) u = false) :
    exec (.reap x) s = .next (finish (reapOne s s.cur.core u) s.cur x.a 0) := by
  rw [exec_of_performs (exec_reap x s) (privileged_of_eq h0) h]
  dsimp only
  rw [hu, hst, hbusy, if_neg (by simp [hne]), if_neg (by decide)]

end Sys2Proof.Proofs

open Sys2Proof.Machine Sys2Proof.Laws Sys2Proof.Proofs

/-- Refutes O35: `reap` frees the fetchers that the reaped strand has bound too, and a strand that waits for a chunk of one traps with cause 0x05
(R169), where the statement excludes bound barriers alone. In `reapNest` that is strand 2. -/
theorem not_startAndReap : ¬ Obligations.StartAndReap := by
  intro h
  obtain ⟨-, -, -, hreap⟩ := h reapP0 reapNest rfl reapNest_performs reapNest_inRotation
  obtain ⟨-, hfree⟩ := hreap (by decide) (.inl rfl)
  obtain ⟨t, hexec, -, -, -, -, -, -, -, -, hothers, -⟩ := hfree (by decide) rfl reapNest_barriers
  obtain rfl := Host.Outcome.next.inj ((exec_reap_halted rfl reapNest_performs rfl (by decide) rfl rfl).symm.trans hexec)
  have hstays : getStrand (finish (reapOne reapNest 0 1) reapNest.cur (.p 0) 0) 0 2 = getStrand reapNest 0 2 := hothers 2 (by decide) (by decide)
  have hstate := reapNest_traps
  rw [hstays] at hstate
  exact absurd hstate (by decide)
end

section
namespace Sys2Proof.Proofs

open Sys2Proof Sys2Proof.Machine Sys2Proof.Laws Sys2Proof.Claims

/-! The items of a strand (Table 6.7). -/

/-- The predicates as an item: q0 reads 1. -/
theorem getLsbD_predItem (p : BitVec 8) {j : Nat} (h1 : 1 ≤ j) (h8 : j < 8) : (wd (p.toNat / 2 * 2 + 1)).getLsbD j = p.getLsbD j := by
  obtain ⟨k, rfl⟩ : ∃ k, j = k + 1 := ⟨j - 1, by omega⟩
  rw [← bit_eq_getLsbD, bit_wd (by omega), Nat.testBit_succ, show (p.toNat / 2 * 2 + 1) / 2 = p.toNat / 2 by omega, ← Nat.testBit_succ]
  rfl

/-- Two nest indices side by side are the one below the other. -/
theorem kPair_eq_or (x : Strand) (i : Nat) : kPair x i = (x.kreg i).setWidth 64 ||| ((x.kreg (i + 1)).setWidth 64 <<< 32) := by
  have hlow := (x.kreg i).isLt
  have hhigh := (x.kreg (i + 1)).isLt
  refine BitVec.eq_of_toNat_eq ?_
  rw [kPair, wd, BitVec.toNat_ofNat, BitVec.toNat_or, BitVec.toNat_shiftLeft, BitVec.toNat_setWidth, BitVec.toNat_setWidth,
    Nat.mod_eq_of_lt (a := (x.kreg i).toNat) (by omega), Nat.mod_eq_of_lt (a := (x.kreg (i + 1)).toNat) (by omega), Nat.shiftLeft_eq,
    Nat.mod_eq_of_lt (by omega), Nat.mod_eq_of_lt (by omega), Nat.or_comm, Nat.mul_comm, Nat.add_comm]
  exact Nat.two_pow_add_eq_or_of_lt hlow _

theorem windowSize_of_live {x : Strand} (h : x.st ≠ .free) : windowSize x = x.size := by
  unfold windowSize Strand.live
  exact if_pos (by simpa using h)

/-- The model reads Table 6.7's items. -/
theorem stateItem_holds (s : State) (c u i : Nat) : ItemHolds s c u i (stateItem s c u i) := by
  refine ⟨fun h hlive hi => ?_, fun h h' => ?_, fun h j h1 h8 => ?_, ?_, ?_, ?_, ?_, ?_, ?_, ?_, ?_, ?_⟩
  · unfold stateItem
    dsimp only
    rw [if_pos h, if_pos (by rw [← windowSize_of_live hlive] at hi; exact hi)]
    rfl
  · unfold stateItem
    dsimp only
    rw [if_neg (by omega), if_pos h']
    rfl
  · subst h; exact getLsbD_predItem _ h1 h8
  · rintro rfl; exact kPair_eq_or ..
  · rintro rfl; exact kPair_eq_or ..
  all_goals rintro rfl; rfl

theorem setStateItem_ptr (s : State) (c u : Nat) {i : Nat} (v : Word) (port : Bool) (h : 128 ≤ i) (h' : i < 136) :
    setStateItem s c u i v port = modStrand s c u (fun x => (x.noteWas (i - 128)).setPtr (i - 128) v) := by
  unfold setStateItem
  dsimp only
  rw [if_neg (by omega), if_pos h']

theorem setStateItem_window {s : State} {c u i : Nat} (v : Word) (port : Bool) (h : i < windowSize (getStrand s c u)) (h' : i < 128) :
    setStateItem s c u i v port = modCore s c (fun k => { k with rf := setK k.rf ((getStrand s c u).base + i) v }) := by
  unfold setStateItem
  dsimp only
  rw [if_pos h', if_pos h]

theorem setStateItem_outside {s : State} {c u i : Nat} (v : Word) (port : Bool) (h : windowSize (getStrand s c u) ≤ i) (h' : i < 128) :
    setStateItem s c u i v port = s := by
  unfold setStateItem
  dsimp only
  rw [if_pos h', if_neg (by omega)]

end Sys2Proof.Proofs
end

section
namespace Sys2Proof.Proofs

open Sys2Proof Sys2Proof.Machine Sys2Proof.Laws Sys2Proof.Claims

/-! Holds, by the state of the strand that one reaches (Table 6.10). -/

/-- A strand in one state is in no other. -/
theorem st_ne {x : Strand} {a b : StrandState} (h : x.st = a) (hab : a ≠ b := by decide) : x.st ≠ b := fun e => hab (h.symm.trans e)

theorem dbg_setDbg (x : Strand) (i j : Nat) (b : Bool) (hj : j < 64) : (x.setDbg i b).dbg j = if j = i then b else x.dbg j := by
  unfold Strand.dbg Strand.setDbg
  rw [get_set_self, bit_setBits _ _ _ _ _ hj]
  by_cases h : j = i
  · subst h; cases b <;> simp
  · rw [if_neg (by omega), if_neg h]

theorem dbg_setFlag (x : Strand) (i j : Nat) (b : Bool) : (x.setFlag i b).dbg j = x.dbg j := by
  rw [Strand.dbg, setFlag_get_ne _ _ _ (by decide)]; rfl

theorem flag_setDbg (x : Strand) (i j : Nat) (b : Bool) : (x.setDbg i b).flag j = x.flag j := by
  rw [Strand.flag, setDbg_get_ne _ _ _ (by decide)]; rfl

/-- A strand with the bits of cr.dbg that say who holds it. -/
def marked (gang port : Bool) (x : Strand) : Strand :=
  let x := if gang then x.setDbg 3 true else x
  if port then x.setDbg 2 true else x

theorem marked_dbg_gang (port : Bool) (x : Strand) : (marked true port x).dbg 3 = true := by
  cases port <;> simp [marked, dbg_setDbg]

theorem marked_dbg_port (gang : Bool) (x : Strand) : (marked gang true x).dbg 2 = true := by
  simp [marked, dbg_setDbg]

/-- The marks are debug bits alone. -/
theorem marked_eq (gang port : Bool) (x : Strand) : marked gang port x = { x with cr := (marked gang port x).cr } := by
  cases gang <;> cases port <;> rfl

/-- A strand that a hold has reached in the rotation. -/
def heldNow (x : Strand) : Strand := { x with st := .held, wait := none, holdReq := false, holdPort := false }

theorem stopped_heldNow (x : Strand) : stopped (heldNow x) = true := rfl

theorem not_stopped_of_waiting {x : Strand} (h : x.st = .waiting ∨ x.st = .swapping) : ¬ stopped x = true := by
  unfold stopped
  rcases h with h | h <;> rw [h] <;> exact nofun

theorem stopped_of_mem {x : Strand} (h : x.st ∈ [StrandState.held, .halted, .done]) : stopped x = true := by
  unfold stopped
  simp only [List.mem_cons, List.not_mem_nil, or_false] at h
  rcases h with h | h | h <;> rw [h]

/-- A strand that a hold waits for. -/
def holdNoted (port : Bool) (x : Strand) : Strand := { x with holdReq := true, holdPort := port }

/-- No message is sent of a hold that DBGN does not ask for (R144). -/
theorem becomeHeld_quiet {s : State} {c t : Nat} {tell : Bool} (cause : Byte) (h : (tell && (getCore s c).dbgn) = false) :
    becomeHeld s c t cause tell = modStrand s c t heldNow := by
  have h' : (tell && (getCore (modStrand s c t heldNow) c).dbgn) = false := by
    rw [getCore_modStrand_self]; exact h
  exact if_neg (Bool.not_eq_true _ ▸ h')

section
variable {gang port : Bool} {s : State} {y : Target}

theorem holdOne_ready (hst : (getStrand s y.1 y.2).st = .ready) (hquiet : (port && (getCore s y.1).dbgn) = false) :
    holdOne gang port s y = modStrand s y.1 y.2 (fun x => heldNow (marked gang port x)) := by
  have hquiet' : (port && (getCore (markHeld gang port s y.1 y.2) y.1).dbgn) = false := by
    rw [markHeld, getCore_modStrand_self]; exact hquiet
  rw [holdOne, hst]
  exact (becomeHeld_quiet 0x18 hquiet').trans (modStrand_modStrand_self ..)

theorem holdOne_waiting (hst : (getStrand s y.1 y.2).st = .waiting ∨ (getStrand s y.1 y.2).st = .swapping) :
    holdOne gang port s y = modStrand s y.1 y.2 (fun x => holdNoted port (marked gang port x)) := by
  rcases hst with hst | hst <;>
  · rw [holdOne, hst]
    exact modStrand_modStrand_self ..

theorem holdOne_trapped (hst : (getStrand s y.1 y.2).st = .trapped) :
    holdOne gang port s y = modStrand s y.1 y.2 (fun x => (marked gang port x).setFlag 8 true) := by
  rw [holdOne, hst]
  exact modStrand_modStrand_self ..

theorem holdOne_blocked (hst : (getStrand s y.1 y.2).st = .blocked) :
    holdOne gang port s y = becomeHeld (modStrand (abandonWait (markHeld gang port s y.1 y.2) y.1 y.2) y.1 y.2
      (fun x => { x with pc := abandonPc (getStrand s y.1 y.2) })) y.1 y.2 0x18 port := by
  rw [holdOne, hst]

theorem holdOne_stopped (hst : (getStrand s y.1 y.2).st ∈ [StrandState.held, .halted, .done, .free]) : holdOne gang port s y = s := by
  simp only [List.mem_cons, List.not_mem_nil, or_false] at hst
  rcases hst with hst | hst | hst | hst <;> rw [holdOne, hst]

end

theorem holdLater_eq (gang port : Bool) (s : State) (c t : Nat) :
    holdLater gang port s c t = modStrand s c t (fun x => holdNoted port (marked gang port x)) := modStrand_modStrand_self ..

theorem marked_dbg_step (gang : Bool) (x : Strand) : (marked gang false x).dbg 1 = x.dbg 1 := by
  cases gang <;> simp [marked, dbg_setDbg]

theorem targetsOf_one (s : State) (c t : Nat) : targetsOf s c t false = [(c, t)] := rfl

/-- A hold of one strand reaches it at once. -/
theorem sendHold_one (s : State) (home c t : Nat) (port : Bool) : sendHold s home false port [(c, t)] = holdOne false port s (c, t) := rfl

/-! Steps and resumes. -/

/-- A strand that `resume` has set going. -/
def resumed (now : Nat) (x : Strand) : Strand :=
  { ((x.setDbg 3 false).setDbg 2 false).setFlag 5 true with st := .ready, readyFrom := now + 1 }

theorem resumeOne_held {s : State} {y : Target} (hst : (getStrand s y.1 y.2).st = .held) :
    resumeOne s y = modStrand s y.1 y.2 (resumed s.now) := if_pos hst

theorem resumeOne_other {s : State} {y : Target} (hst : (getStrand s y.1 y.2).st ≠ .held) : resumeOne s y = s := if_neg hst

theorem resumed_marks (now : Nat) (x : Strand) :
    (resumed now x).dbg 3 = false ∧ (resumed now x).dbg 2 = false ∧ (resumed now x).flag 5 = true := by
  refine ⟨?_, ?_, ?_⟩
  · change ((((x.setDbg 3 false).setDbg 2 false).setFlag 5 true).dbg 3) = false
    simp [dbg_setFlag, dbg_setDbg]
  · change ((((x.setDbg 3 false).setDbg 2 false).setFlag 5 true).dbg 2) = false
    simp [dbg_setFlag, dbg_setDbg]
  · change ((((x.setDbg 3 false).setDbg 2 false).setFlag 5 true).flag 5) = true
    simp [flag_setFlag]

/-- A strand set going for one instruction. -/
def stepped (now : Nat) (x : Strand) : Strand := { (x.setDbg 1 true).setFlag 5 true with st := .ready, readyFrom := now + 1 }

theorem stepOne_eq (s : State) (c t : Nat) : stepOne s c t = modStrand s c t (stepped s.now) := rfl

theorem stepped_marks (now : Nat) (x : Strand) : (stepped now x).dbg 1 = true ∧ (stepped now x).flag 5 = true := by
  constructor
  · change (((x.setDbg 1 true).setFlag 5 true).dbg 1) = true
    simp [dbg_setFlag, dbg_setDbg]
  · change (((x.setDbg 1 true).setFlag 5 true).flag 5) = true
    simp [flag_setFlag]

end Sys2Proof.Proofs
end

section
namespace Sys2Proof.Proofs

open Sys2Proof Sys2Proof.Machine Sys2Proof.Laws Sys2Proof.Claims

/-! Requests of the debug port (R146, R404). -/

theorem exec_debugRead (c u i : Nat) (s : State) : exec (.debugRead c u i) s = execDebugRead c u i s := rfl
theorem exec_debugWrite (c u i : Nat) (v : Word) (s : State) : exec (.debugWrite c u i v) s = execDebugWrite c u i v s := rfl
theorem exec_debugHold (c u : Nat) (gang : Bool) (s : State) : exec (.debugHold c u gang) s = execDebugHold c u gang s := rfl
theorem exec_debugStep (c u : Nat) (gang : Bool) (s : State) : exec (.debugStep c u gang) s = execDebugStep c u gang s := rfl
theorem exec_debugResume (c u : Nat) (gang : Bool) (s : State) : exec (.debugResume c u gang) s = execDebugResume c u gang s := rfl
theorem exec_debugTableRead (tab : DebugTable) (i : Nat) (s : State) : exec (.debugTableRead tab i) s = execDebugTableRead tab i s := rfl

theorem deviceUp_iff (s : State) : deviceUp s = true ↔ OutOfReset s.mgmt.power := by
  unfold deviceUp OutOfReset
  cases s.mgmt.power with
  | alarm up => cases up <;> decide
  | _ => decide

theorem debugged_locked {s : State} (h : s.mgmt.debugLock = true) (k : State → State) : debugged s k = .next (debugReply s 2 []) := by
  rw [debugged, if_pos h]

theorem debugged_down {s : State} (hlock : s.mgmt.debugLock = false) (hdown : ¬ OutOfReset s.mgmt.power) (k : State → State) :
    debugged s k = .next (debugReply s 1 []) := by
  rw [debugged, if_neg (by simp [hlock]), if_neg (fun h => hdown ((deviceUp_iff s).1 h))]

/-- The debug port takes requests. -/
def PortOpen (s : State) : Prop := s.mgmt.debugLock = false ∧ OutOfReset s.mgmt.power

theorem debugged_open {s : State} (h : PortOpen s) (k : State → State) : debugged s k = .next (k s) := by
  rw [debugged, if_neg (by simp [h.1]), if_pos ((deviceUp_iff s).2 h.2)]

theorem repliesWith_of_exec {i : Instr} {s : State} {n : Nat} {ws : List Word} (h : exec i s = .next (debugReply s n ws)) :
    RepliesWith i s replyDebug (wd n :: ws) := ⟨_, h, rfl, rfl⟩

section
variable (c u i : Nat) (v : Word) (gang : Bool) (tab : DebugTable) (s : State)

/-- Every request is refused in one way under the lock, and in one way in reset. -/
theorem exec_debug {e : Instr} (he : e ∈ [Instr.debugRead c u i, .debugWrite c u i v, .debugHold c u gang, .debugStep c u gang,
    .debugResume c u gang, .debugTableRead tab i]) : ∃ k, exec e s = debugged s k := by
  simp only [List.mem_cons, List.not_mem_nil, or_false] at he
  rcases he with rfl | rfl | rfl | rfl | rfl | rfl
  exacts [⟨_, exec_debugRead ..⟩, ⟨_, exec_debugWrite ..⟩, ⟨_, exec_debugHold ..⟩, ⟨_, exec_debugStep ..⟩, ⟨_, exec_debugResume ..⟩,
    ⟨_, exec_debugTableRead ..⟩]

variable {s} (hopen : PortOpen s)
include hopen

theorem debugRead_answers : exec (.debugRead c u i) s = .next (debugReply s 0 [stateItem s c u i]) :=
  (exec_debugRead ..).trans (debugged_open hopen _)

theorem debugTableRead_answers : exec (.debugTableRead tab i) s = .next (debugReply s 0 (tableWordsOf s tab i)) :=
  (exec_debugTableRead ..).trans (debugged_open hopen _)

/-- A strand item is written of a stopped strand (R146). -/
theorem debugWrite_strand (hi : i < 192) : exec (.debugWrite c u i v) s =
    .next (if debugStopped (getStrand s c u).st then debugReply (setStateItem s c u i v true) 0 [] else debugReply s 1 []) := by
  have hitem : coreItem i = false := by simp [coreItem]; omega
  rw [exec_debugWrite, execDebugWrite, debugged_open hopen]
  dsimp only
  rw [hitem]
  rfl

theorem debugHold_sends (hlive : (getStrand s c u).st ≠ .free) :
    exec (.debugHold c u gang) s = .next (debugReply (sendHold s c gang true (targetsOf s c u gang)) 0 []) := by
  rw [exec_debugHold, execDebugHold, debugged_open hopen, if_neg hlive]

theorem debugStep_steps (hlive : (getStrand s c u).st ≠ .free) : exec (.debugStep c u gang) s =
    .next (if gang || (getStrand s c u).st != .held then debugReply s 2 [] else debugReply (stepOne s c u) 0 []) := by
  rw [exec_debugStep, execDebugStep, debugged_open hopen]
  dsimp only
  rw [if_neg hlive]

/-- A resume of one strand. -/
theorem debugResume_resumes (hlive : (getStrand s c u).st ≠ .free) : exec (.debugResume c u false) s =
    .next (debugReply (debugResumeOne s (c, u)) (if (getStrand s c u).st == .trapped then 2 else 0) []) := by
  rw [exec_debugResume, execDebugResume, debugged_open hopen, if_neg hlive]
  simp [targetsOf_one]

/-- A free strand is held, stepped and resumed with status 1. -/
theorem debug_free (hfree : (getStrand s c u).st = .free) {e : Instr}
    (he : e ∈ [Instr.debugHold c u gang, .debugStep c u gang, .debugResume c u gang]) : exec e s = .next (debugReply s 1 []) := by
  simp only [List.mem_cons, List.not_mem_nil, or_false] at he
  rcases he with rfl | rfl | rfl
  · rw [exec_debugHold, execDebugHold, debugged_open hopen, if_pos hfree]
  · rw [exec_debugStep, execDebugStep, debugged_open hopen]
    exact congrArg _ (if_pos hfree)
  · rw [exec_debugResume, execDebugResume, debugged_open hopen, if_pos hfree]

end

/-- Word 0 of a node table entry: VALID and PARENT (Table 12.1). -/
theorem nodeWord0_fields {k : Node} (hvalid : k.valid = true) (hparent : k.parent < 2 ^ 23) :
    bit (nodeWord0 k) 63 = true ∧ bits (nodeWord0 k) 55 33 = k.parent := by
  have hghost := Bool.toNat_lt k.ghost
  have hfrozen := Bool.toNat_lt k.frozen
  have hresv := Bool.toNat_lt k.resv.isSome
  simp only [bit, bits, nodeWord0, wd, BitVec.toNat_ofNat, Nat.testBit_eq_decide_div_mod_eq, decide_eq_true_eq, hvalid, Bool.toNat_true]
  constructor <;> omega

/-! Changes that the port makes. -/

theorem debugStopped_iff (st : StrandState) : debugStopped st = true ↔ st ∈ [StrandState.held, .trapped, .halted, .done] := by
  cases st <;> decide

/-- A change of one strand that the port answers with status `n`. -/
theorem port_changes {e : Instr} {s : State} {c u n : Nat} {f : Strand → Strand} {P : Strand → Prop}
    (hexec : exec e s = .next (debugReply (modStrand s c u f) n [])) (hP : P (f (getStrand s c u))) :
    ∃ t, exec e s = .next t ∧ P (getStrand t c u) ∧ BytesSame s t ∧ OthersSame s t c u ∧ t.replies = s.replies ++ [(replyDebug, [wd n])] := by
  have hbytes : BytesSame s (modStrand s c u f) := bytesSame_modStrand ..
  refine ⟨_, hexec, ?_, hbytes, othersSame_modStrand .., rfl⟩
  change P (getStrand (modStrand s c u f) c u)
  rw [getStrand_modStrand_self]
  exact hP

/-- A write of a register of the strand's window. -/
theorem port_writes_window {e : Instr} {s : State} {c j : Nat} {v : Word}
    (hexec : exec e s = .next (debugReply (modCore s c (fun k => { k with rf := setK k.rf j v })) 0 [])) :
    ∃ t, exec e s = .next t ∧ getK 0 (getCore t c).rf j = v ∧ BytesSame s t ∧
      (∀ j', j' ≠ j → getK 0 (getCore t c).rf j' = getK 0 (getCore s c).rf j') ∧ t.replies = s.replies ++ [(replyDebug, [0])] := by
  have hfile : (getCore (modCore s c (fun k => { k with rf := setK k.rf j v })) c).rf = setK (getCore s c).rf j v := by
    rw [getCore_modCore_self]
  have hbytes : BytesSame s (modCore s c (fun k => { k with rf := setK k.rf j v })) := bytesSame_modCore s rfl
  refine ⟨_, hexec, ?_, hbytes, fun j' hj' => ?_, rfl⟩
  · exact (congrArg (getK 0 · j) hfile).trans (getK_setK_self ..)
  · exact (congrArg (getK 0 · j') hfile).trans (getK_setK_ne _ _ _ hj')

/-- Where a Halted strand goes on after a resume by the port (R122, R135). -/
theorem debugResumeOne_halted {s : State} {y : Target} (h : (getStrand s y.1 y.2).st = .halted) : debugResumeOne s y =
    modStrand s y.1 y.2 (fun x => { x.setFlag 5 true with
      st := .ready, pc := if x.dfault then x.get 2 else x.pc, dfault := false, readyFrom := s.now + 1 }) := if_pos h

theorem debugResumeOne_other {s : State} {y : Target} (h : (getStrand s y.1 y.2).st ≠ .halted) : debugResumeOne s y = resumeOne s y := if_neg h

end Sys2Proof.Proofs

open Sys2Proof.Machine Sys2Proof.Laws Sys2Proof.Proofs

/-- Settles O52: under the lock and in reset every request is refused in one way (`exec_debug`); else each request's case by the state of its
strand. -/
theorem debugPort : Obligations.DebugPort := by
  intro s c u i v gang tab y
  refine ⟨fun hlock e he => ?_, fun hlock hdown e he => ?_, fun hlock hup => ?_⟩
  · obtain ⟨k, hk⟩ := exec_debug c u i v gang tab s he
    exact repliesWith_of_exec (hk.trans (debugged_locked hlock k))
  · obtain ⟨k, hk⟩ := exec_debug c u i v gang tab s he
    exact repliesWith_of_exec (hk.trans (debugged_down hlock hdown k))
  have hopen : PortOpen s := ⟨hlock, hup⟩
  refine ⟨⟨_, repliesWith_of_exec (debugRead_answers c u i hopen), stateItem_holds s c u i⟩, ⟨_, repliesWith_of_exec (debugTableRead_answers i tab hopen), ?node⟩,
    fun hst hi => ?refused, fun hst => ⟨fun hout hi => ?outside, fun hlo hhi => ?pointer, fun hin hi => ?window⟩,
    fun hfree e he => repliesWith_of_exec (debug_free c u gang hopen hfree he), fun hst hquiet => ?holdReady, fun hst => ?holdWaiting,
    fun hlive hst => ?stepRefused, fun hst => ⟨?step, ?resume⟩, fun hst => ?resumeHalted, fun hst => ?resumeTrapped⟩
  case node =>
    rintro rfl hvalid hparent
    exact ⟨_, rfl, nodeWord0_fields hvalid hparent⟩
  case refused =>
    have hexec := debugWrite_strand c u i v hopen hi
    rw [if_neg (fun h => hst ((debugStopped_iff _).1 h))] at hexec
    exact repliesWith_of_exec hexec
  case outside =>
    have hexec := debugWrite_strand c u i v hopen (by omega)
    have hsize : windowSize (getStrand s c u) ≤ i := by unfold windowSize; split <;> omega
    rw [if_pos ((debugStopped_iff _).2 hst), setStateItem_outside v true hsize hi] at hexec
    exact repliesWith_of_exec hexec
  case pointer =>
    have hexec := debugWrite_strand c u i v hopen (by omega)
    rw [if_pos ((debugStopped_iff _).2 hst), setStateItem_ptr s c u v true hlo hhi] at hexec
    exact port_changes (P := fun x => x.ptr (i - 128) = v) hexec (ptr_setPtr_self ..)
  case window =>
    have hexec := debugWrite_strand c u i v hopen (by omega)
    have hlive : y.st ≠ .free := fun h => by simp [h] at hst
    rw [if_pos ((debugStopped_iff _).2 hst), setStateItem_window v true (by rw [windowSize_of_live hlive]; exact hin) hi] at hexec
    exact port_writes_window hexec
  case holdReady =>
    have hexec := debugHold_sends c u false hopen (st_ne hst)
    rw [targetsOf_one, sendHold_one, holdOne_ready hst (by simp [hquiet])] at hexec
    obtain ⟨t, ht, ⟨hheld, hport, hpc⟩, hrest⟩ :=
      port_changes (P := fun x => x.st = .held ∧ x.dbg 2 = true ∧ x.pc = y.pc) hexec ⟨rfl, marked_dbg_port false y, rfl⟩
    exact ⟨t, ht, hheld, hport, hpc, hrest⟩
  case holdWaiting =>
    have hexec := debugHold_sends c u false hopen (st_ne hst)
    rw [targetsOf_one, sendHold_one, holdOne_waiting (.inl hst)] at hexec
    obtain ⟨t, ht, ⟨hwaits, hreq, hport⟩, hrest⟩ :=
      port_changes (P := fun x => x.st = .waiting ∧ x.holdReq = true ∧ x.holdPort = true) hexec ⟨hst, rfl, rfl⟩
    exact ⟨t, ht, hwaits, hreq, hport, hrest⟩
  case stepRefused =>
    have hexec := debugStep_steps c u gang hopen hlive
    rw [if_pos (by simpa [or_comm] using hst)] at hexec
    exact repliesWith_of_exec hexec
  case step =>
    have hexec := debugStep_steps c u false hopen (st_ne hst)
    rw [if_neg (by simpa using hst), stepOne_eq] at hexec
    obtain ⟨t, ht, ⟨hready, hstep, hpc⟩, -, hothers, -⟩ :=
      port_changes (P := fun x => x.st = .ready ∧ x.dbg 1 = true ∧ x.pc = y.pc) hexec ⟨rfl, (stepped_marks s.now y).1, rfl⟩
    exact ⟨t, ht, hready, hstep, hpc, hothers⟩
  case resume =>
    have hexec := debugResume_resumes c u hopen (st_ne hst)
    rw [debugResumeOne_other (st_ne hst), resumeOne_held hst] at hexec
    obtain ⟨t, ht, ⟨hready, hport, hpc⟩, -, hothers, -⟩ :=
      port_changes (P := fun x => x.st = .ready ∧ x.dbg 2 = false ∧ x.pc = y.pc) hexec ⟨rfl, (resumed_marks s.now y).2.1, rfl⟩
    exact ⟨t, ht, hready, hport, hpc, hothers⟩
  case resumeHalted =>
    have hexec := debugResume_resumes c u hopen (st_ne hst)
    rw [debugResumeOne_halted hst, if_neg (by simp [show (getStrand s c u).st = _ from hst])] at hexec
    obtain ⟨t, ht, ⟨hready, hpc⟩, -, hothers, hreply⟩ :=
      port_changes (P := fun x => x.st = .ready ∧ x.pc = if y.dfault then y.get 2 else y.pc) hexec ⟨rfl, rfl⟩
    exact ⟨t, ht, hready, hpc, hothers, hreply⟩
  case resumeTrapped =>
    have hexec := debugResume_resumes c u hopen (st_ne hst)
    have hother : debugResumeOne s (c, u) = s :=
      (debugResumeOne_other (st_ne hst)).trans
        (resumeOne_other (st_ne hst))
    rw [hother, if_pos (by simp [show (getStrand s c u).st = _ from hst])] at hexec
    exact repliesWith_of_exec hexec
end

section
namespace Sys2Proof.Proofs

open Sys2Proof Sys2Proof.Machine Sys2Proof.Laws Sys2Proof.Claims

/-! Completions after a change of the state that the strand has not felt. -/

/-- An instruction completes with a value, in a state `u` whose strands and bytes are those of `s`. -/
theorem resumed_of_finish {s u : State} {cx : Ctx} {o : Opnd} (v : Word) (hu : Undisturbed (getStrand u cx.core cx.strand))
    (hreads : ∀ p, rd u cx p = rd s cx p) (hbytes : BytesSame s u)
    (hstrands : ∀ d w, ¬(d = cx.core ∧ w = cx.strand) → getStrand u d w = getStrand s d w) : Resumed s (finish u cx o v) cx o v := by
  obtain ⟨hframe, hgoes, hrd⟩ := finish_frame u cx o v hu
  exact ⟨hrd, hgoes, bytesSame_trans hbytes hframe.bytes, fun p hp => (hframe.registers.reads p hp).trans (hreads p),
    fun d w hne => (othersSame_getStrand hframe.others hne).trans (hstrands d w hne)⟩

theorem resumed_of_complete {s u : State} {cx : Ctx} (hu : Undisturbed (getStrand u cx.core cx.strand))
    (hreads : ∀ p, rd u cx p = rd s cx p) (hbytes : BytesSame s u)
    (hstrands : ∀ d w, ¬(d = cx.core ∧ w = cx.strand) → getStrand u d w = getStrand s d w) : Resumed s (complete u cx) cx .none 0 := by
  obtain ⟨hframe, hgoes⟩ := completeAt_frame u cx (nextPc cx) hu
  exact ⟨rfl, hgoes, bytesSame_trans hbytes hframe.bytes, fun p _ => (registerFrame_rd_none hframe p).trans (hreads p),
    fun d w hne => (othersSame_getStrand hframe.others hne).trans (hstrands d w hne)⟩

/-! The split (R185). -/

theorem exec_l1splitTakeEffect (cx : Ctx) (v : Word) (s : State) : exec (.l1splitTakeEffect cx v) s = execL1splitTakeEffect cx v s := rfl

theorem exec_crL1splitWrite (cx : Ctx) (v : Word) (s : State) : exec (.crL1splitWrite cx v) s = execCrL1splitWrite cx v s := rfl

theorem takeSplit_getStrand_all (s : State) (c : Nat) (v : Word) (d w : Nat) : getStrand (takeSplit s c v) d w = getStrand s d w := by
  rw [takeSplit_eq]
  by_cases hd : d = c
  · subst hd; rw [getStrand, getCore_modCore_self]; rfl
  · rw [getStrand, getCore_modCore_ne _ _ hd]; rfl

/-- A waiting write of cr.l1split completes in the new split. -/
theorem takeSplit_resumes {s : State} {cx : Ctx} (hu : Undisturbed (getStrand s cx.core cx.strand)) (v : Word) :
    Resumed s (complete (takeSplit s cx.core v) cx) cx .none 0 ∧ SplitTaken s (complete (takeSplit s cx.core v) cx) cx.core (bits v 1 0) := by
  have hstrand := takeSplit_getStrand_all s cx.core v
  have hu' : Undisturbed (getStrand (takeSplit s cx.core v) cx.core cx.strand) := by rw [hstrand]; exact hu
  have hcore : getCore (takeSplit s cx.core v) cx.core = splitCore v s.now (getCore s cx.core) := getCore_modCore_self ..
  refine ⟨resumed_of_complete hu' (takeSplit_reads s cx v).rd (bytesSame_modCore s rfl) (fun d w _ => hstrand d w), ?_⟩
  rw [complete_undisturbed _ _ hu', SplitTaken, getCore_modStrand_self, hcore]
  exact ⟨splitNow_splitCore .., mem_splitCore v s.now (getCore s cx.core)⟩

/-! Translations that a `tlbi` takes away (R155). -/

/-- An address's page. -/
theorem covers_iff (l : TLeaf) (va : Nat) : l.covers va = true ↔ l.base ≤ va ∧ va < l.base + l.size := by
  simp [TLeaf.covers]

theorem invalidated_withoutPage (all : Bool) (va : Nat) (b : List TLeaf) : Invalidated b (withoutPage all va b) all va := by
  intro l
  unfold withoutPage
  cases all <;> simp [← covers_iff]

/-- A leaf of a loom's buffer after a `tlbi` of core `c`. -/
def barLeaf (c : Nat) (all : Bool) (va : Nat) (l : TLeaf) : TLeaf :=
  if all || l.covers va then { l with barred := c :: l.barred.filter (fun d => d != c) } else l

theorem barLeaf_leaf (c : Nat) (all : Bool) (va : Nat) (l : TLeaf) : { barLeaf c all va l with barred := [] } = { l with barred := [] } := by
  unfold barLeaf; split <;> rfl

theorem mem_barLeaf (c : Nat) (all : Bool) (va : Nat) (l : TLeaf) (d : Nat) : d ∈ (barLeaf c all va l).barred ↔
    d ∈ l.barred ∨ (d = c ∧ (all = true ∨ (l.base ≤ va ∧ va < l.base + l.size))) := by
  rw [← covers_iff, ← Bool.or_eq_true]
  unfold barLeaf
  split
  · next h => by_cases hd : d = c <;> simp [hd, h]
  · next h => simp [h]

theorem barredFor_barredPage (c : Nat) (all : Bool) (va : Nat) (b : List TLeaf) : BarredFor c b (barredPage c all va b) all va := by
  have hmap : barredPage c all va b = b.map (barLeaf c all va) := rfl
  refine ⟨List.length_map .., fun i z hz => ⟨barLeaf c all va z, ?_, barLeaf_leaf c all va z, mem_barLeaf c all va z⟩⟩
  rw [hmap, List.getElem?_map, hz]; rfl

/-- A strand without the walks that a `tlbi` names. -/
def withoutWalks (all : Bool) (va : Nat) (x : Strand) : Strand :=
  { x with pages := if all then [] else x.pages.filter (fun p => !(p.1 == va || p.2.any (fun l => l.covers va))) }

theorem withoutWalks_init (all : Bool) (va t : Nat) : withoutWalks all va (Strand.init t) = Strand.init t := by
  unfold withoutWalks Strand.init
  cases all <;> split <;> rfl

theorem mem_withoutWalks (all : Bool) (va : Nat) (x : Strand) (y : Nat × Option TLeaf) : y ∈ (withoutWalks all va x).pages ↔
    y ∈ x.pages ∧ all = false ∧ y.1 ≠ va ∧ ∀ l, y.2 = some l → ¬(l.base ≤ va ∧ va < l.base + l.size) := by
  unfold withoutWalks
  cases all
  · obtain ⟨a, b⟩ := y
    cases b <;> simp [← covers_iff]
  · simp

theorem strand_withoutMade (all : Bool) (va : Nat) (k : Core) (t : Nat) :
    (withoutMade all va k).strand t = withoutWalks all va (k.strand t) :=
  getK_map_snd (withoutWalks all va) (withoutWalks_init all va t) k.strands t

/-- A core after a `tlbi`. -/
def withoutTranslations (all : Bool) (va : Nat) (k : Core) : Core := withoutMade all va { k with tlb := withoutPage all va k.tlb }

theorem withoutTranslations_default (all : Bool) (va : Nat) : withoutTranslations all va {} = {} := by
  cases all <;> rfl

theorem strand_withoutTranslations (all : Bool) (va : Nat) (k : Core) (t : Nat) :
    (withoutTranslations all va k).strand t = withoutWalks all va (k.strand t) := strand_withoutMade ..

/-- Nothing that an instruction reads from is a translation. -/
theorem withoutTranslations_reads {s u : State} {cx : Ctx} {all : Bool} {va : Nat} (hnow : u.now = s.now)
    (hcore : getCore u cx.core = withoutTranslations all va (getCore s cx.core)) : ReadsSame s u cx where
  now := hnow
  file := by rw [hcore]; rfl
  shared r _ := by rw [hcore]; rfl
  window := by rw [getStrand, hcore, strand_withoutTranslations]; rfl
  ptrs := by rw [getStrand, hcore, strand_withoutTranslations]; rfl
  preds := by rw [getStrand, hcore, strand_withoutTranslations]; rfl
  kidx := by rw [getStrand, hcore, strand_withoutTranslations]; rfl

section
variable {s u : State} {cx : Ctx} {p : Nat → Prop} {all : Bool} {va : Nat} (hnow : u.now = s.now) (hmem : u.mem = s.mem) (hcx : p cx.core)
  (hin : ∀ d, p d → getCore u d = withoutTranslations all va (getCore s d)) (hout : ∀ d, ¬ p d → getCore u d = getCore s d)
  (hu : Undisturbed (getStrand s cx.core cx.strand))
include hcx hin hu

theorem withoutTranslations_undisturbed : Undisturbed (getStrand u cx.core cx.strand) := by
  rw [getStrand, hin _ hcx, strand_withoutTranslations]; exact hu

theorem tlb_complete (d : Nat) : (getCore (complete u cx) d).tlb = (getCore u d).tlb := by
  rw [complete_undisturbed _ _ (withoutTranslations_undisturbed hcx hin hu)]
  by_cases hd : d = cx.core
  · subst hd; rw [getCore_modStrand_self]; rfl
  · rw [getCore_modStrand_ne _ _ _ hd]

include hnow hmem hout

/-- A `tlbi` that has taken the translations of the cores `p` completes. -/
theorem pagesLeft_of_complete : PagesLeft s (complete u cx) cx p all va := by
  have hu' := withoutTranslations_undisturbed hcx hin hu
  obtain ⟨hframe, hgoes⟩ := completeAt_frame u cx (nextPc cx) hu'
  have hls (d : Nat) : (getCore u d).ls = (getCore s d).ls := by
    by_cases hd : p d
    · rw [hin d hd]; rfl
    · rw [hout d hd]
  have hpages (d w : Nat) : (getStrand (complete u cx) d w).pages = (getStrand u d w).pages := by
    by_cases hne : d = cx.core ∧ w = cx.strand
    · obtain ⟨rfl, rfl⟩ := hne
      rw [complete_undisturbed _ _ hu', getStrand_modStrand_self]
    · exact congrArg Strand.pages (othersSame_getStrand hframe.others hne)
  refine ⟨hgoes, bytesSame_trans (bytesSame_of_ls hmem hls) hframe.bytes, fun o => ?_, fun d w hne => ?_, fun d w y => ?_⟩
  · exact (registerFrame_rd_none hframe o).trans ((withoutTranslations_reads hnow (hin _ hcx)).rd o)
  · rw [show getStrand (complete u cx) d w = getStrand u d w from othersSame_getStrand hframe.others hne, getStrand]
    by_cases hd : p d
    · rw [hin d hd, strand_withoutTranslations]; rfl
    · rw [hout d hd]; rfl
  · rw [hpages, getStrand]
    by_cases hd : p d
    · rw [hin d hd, strand_withoutTranslations, mem_withoutWalks]
      simp [hd, getStrand]
    · rw [hout d hd]
      simp [hd, getStrand]

end

/-! `tlbi` of its own core and of every core. -/

theorem exec_tlbi (x : Args) (s : State) : exec (.tlbi x) s = execTlbi x s := rfl

theorem exec_tlbiAck (cx : Ctx) (all : Bool) (va : Word) (s : State) : exec (.tlbiAck cx all va) s = execTlbiAck cx all va s := rfl

/-- A loom whose named translations core `c` no longer uses. -/
def barLoom (c : Nat) (all : Bool) (va : Nat) (k : Loom) : Loom := { k with tlb := barredPage c all va k.tlb }

/-- The machine after a `tlbi` of core `c` alone. -/
def tlbiOne (s : State) (c : Nat) (all : Bool) (va : Nat) : State :=
  modLoom (modCore s c (withoutTranslations all va)) (loomOf c) (barLoom c all va)

theorem exec_tlbi_own {x : Args} {s : State} (h0 : s.cur.strand = 0) (h : Performs s x) (hown : x.mod.getLsbD 0 = false) :
    exec (.tlbi x) s = .next (complete (tlbiOne s s.cur.core (x.mod.getLsbD 1) (bits (src s x.a) 47 0)) s.cur) := by
  rw [exec_of_performs (exec_tlbi x s) (privileged_of_eq h0) h]
  exact congrArg _ (if_neg (by rw [hown]; decide))

theorem exec_tlbi_all {x : Args} {s : State} (h0 : s.cur.strand = 0) (h : Performs s x) (hall : x.mod.getLsbD 0 = true) :
    exec (.tlbi x) s = .next (sched (leaveFlight s (.tlbi x) s.cur) (s.now + pickN s 21 1 160)
      (.tlbiAck s.cur (x.mod.getLsbD 1) (wd (bits (src s x.a) 47 0)))) := by
  rw [exec_of_performs (exec_tlbi x s) (privileged_of_eq h0) h]
  exact congrArg _ (if_pos hall)

theorem tlbiOne_core (s : State) (c : Nat) (all : Bool) (va : Nat) : getCore (tlbiOne s c all va) c = withoutTranslations all va (getCore s c) :=
  getCore_modCore_self ..

theorem tlbiOne_core_ne (s : State) {c d : Nat} (all : Bool) (va : Nat) (hd : d ≠ c) : getCore (tlbiOne s c all va) d = getCore s d :=
  getCore_modCore_ne _ _ hd

/-- The machine after a `tlbi` of every core (R155, R233). -/
def tlbiAll (s : State) (all : Bool) (va : Nat) : State :=
  { s with
    mgmt := if all then { s.mgmt with walkRoot := s.mgmt.root } else s.mgmt
    cores := s.cores.map (fun (c, k) => (c, withoutTranslations all va k))
    looms := s.looms.map (fun (l, (k : Loom)) => (l, { k with tlb := withoutPage all va k.tlb })) }

theorem exec_tlbiAck_waits {cx : Ctx} {s : State} (h : Awaits s cx) (all : Bool) (va : Word) :
    exec (.tlbiAck cx all va) s = .next (complete (tlbiAll s all va.toNat) cx) := by
  have hcore (c : Nat) : getCore (tlbiAll s all va.toNat) c = withoutTranslations all va.toNat (getCore s c) :=
    getK_map_snd _ (withoutTranslations_default all va.toNat) s.cores c
  have hwaits : stillWaits (tlbiAll s all va.toNat) cx = true := by
    rw [stillWaits, getStrand, hcore, strand_withoutTranslations]; exact h.1
  rw [exec_tlbiAck]
  exact congrArg _ (if_pos hwaits)

theorem tlbiAll_core (s : State) (all : Bool) (va c : Nat) : getCore (tlbiAll s all va) c = withoutTranslations all va (getCore s c) :=
  getK_map_snd _ (withoutTranslations_default all va) s.cores c

theorem tlbiAll_loom (s : State) (all : Bool) (va l : Nat) :
    getLoom (tlbiAll s all va) l = { getLoom s l with tlb := withoutPage all va (getLoom s l).tlb } :=
  getK_map_snd (fun k : Loom => { k with tlb := withoutPage all va k.tlb }) (by cases all <;> rfl) s.looms l

/-- `tlbi` of its own core (R155). -/
theorem tlbi_own {x : Args} {s : State} (h0 : s.cur.strand = 0) (h : Performs s x) (hown : x.mod.getLsbD 0 = false) (hrot : InRotation s) :
    ∃ t, exec (.tlbi x) s = .next t ∧ PagesLeft s t s.cur (· = s.cur.core) (x.mod.getLsbD 1) (bits (src s x.a) 47 0) ∧
      Invalidated (curCore s).tlb (curCore t).tlb (x.mod.getLsbD 1) (bits (src s x.a) 47 0) ∧
      { t with cores := [], looms := [] } = { s with cores := [], looms := [] } ∧
      (∀ d, d ≠ s.cur.core → getCore t d = getCore s d) ∧ (∀ l, l ≠ loomOf s.cur.core → getLoom t l = getLoom s l) ∧
      { getLoom t (loomOf s.cur.core) with tlb := [] } = { getLoom s (loomOf s.cur.core) with tlb := [] } ∧
      BarredFor s.cur.core (getLoom s (loomOf s.cur.core)).tlb (getLoom t (loomOf s.cur.core)).tlb (x.mod.getLsbD 1)
        (bits (src s x.a) 47 0) := by
  let u := tlbiOne s s.cur.core (x.mod.getLsbD 1) (bits (src s x.a) 47 0)
  have hin : ∀ d, d = s.cur.core → getCore u d = withoutTranslations (x.mod.getLsbD 1) (bits (src s x.a) 47 0) (getCore s d) := by
    rintro d rfl; exact tlbiOne_core ..
  have hout : ∀ d, ¬ d = s.cur.core → getCore u d = getCore s d := fun d hd => tlbiOne_core_ne s _ _ hd
  have hu := withoutTranslations_undisturbed (cx := s.cur) (p := (· = s.cur.core)) rfl hin hrot.2
  have hcomplete := complete_undisturbed u s.cur hu
  have hloom : getLoom (complete u s.cur) (loomOf s.cur.core) =
      barLoom s.cur.core (x.mod.getLsbD 1) (bits (src s x.a) 47 0) (getLoom s (loomOf s.cur.core)) := by
    rw [hcomplete]; exact getLoom_modLoom_self ..
  refine ⟨_, exec_tlbi_own h0 h hown, pagesLeft_of_complete (p := (· = s.cur.core)) rfl rfl rfl hin hout hrot.2, ?_, ?_, fun d hd => ?_,
    fun l hl => ?_, ?_, ?_⟩
  · have htlb := tlb_complete (cx := s.cur) (p := (· = s.cur.core)) rfl hin hrot.2 s.cur.core
    have hcur : (complete u s.cur).cur = s.cur := by rw [hcomplete]; rfl
    change Invalidated _ (getCore (complete u s.cur) (complete u s.cur).cur.core).tlb _ _
    rw [hcur, htlb, hin _ rfl]
    exact invalidated_withoutPage _ _ _
  · change { complete u s.cur with cores := [], looms := [] } = _
    rw [hcomplete]; rfl
  · change getCore (complete u s.cur) d = _
    rw [hcomplete, getCore_modStrand_ne _ _ _ hd, hout d hd]
  · change getLoom (complete u s.cur) l = _
    rw [hcomplete]; exact getK_setK_ne _ _ _ hl
  · exact congrArg (fun k : Loom => { k with tlb := [] }) hloom
  · have hbuffer := congrArg Loom.tlb hloom
    exact hbuffer ▸ barredFor_barredPage ..

/-- The acknowledgement of a `tlbi` of every core (R155, R233). -/
theorem tlbiAck_takes {s : State} {cx : Ctx} (h : Awaits s cx) (all : Bool) (va : Word) :
    ∃ t, exec (.tlbiAck cx all va) s = .next t ∧ PagesLeft s t cx (fun _ => True) all va.toNat ∧
      (∀ c, Invalidated (getCore s c).tlb (getCore t c).tlb all va.toNat) ∧
      (∀ l, Invalidated (getLoom s l).tlb (getLoom t l).tlb all va.toNat) ∧
      t.mgmt.walkRoot = if all = true then s.mgmt.root else s.mgmt.walkRoot := by
  let u := tlbiAll s all va.toNat
  have hin : ∀ d, True → getCore u d = withoutTranslations all va.toNat (getCore s d) := fun d _ => tlbiAll_core ..
  have hu := withoutTranslations_undisturbed (cx := cx) (p := fun _ => True) trivial hin h.2
  have hcomplete := complete_undisturbed u cx hu
  refine ⟨_, exec_tlbiAck_waits h all va, pagesLeft_of_complete (p := fun _ => True) rfl rfl trivial hin (fun d hd => absurd trivial hd) h.2,
    fun c => ?_, fun l => ?_, ?_⟩
  · have htlb := tlb_complete (cx := cx) (p := fun _ => True) trivial hin h.2 c
    rw [htlb, hin c trivial]
    exact invalidated_withoutPage _ _ _
  · have hbuffer : (getLoom (complete u cx) l).tlb = withoutPage all va.toNat (getLoom s l).tlb := by
      rw [hcomplete]; exact congrArg Loom.tlb (tlbiAll_loom ..)
    exact hbuffer ▸ invalidated_withoutPage _ _ _
  · change (complete u cx).mgmt.walkRoot = _
    rw [hcomplete]
    cases all <;> rfl

/-! Instruction lines (R60) and answers of the control plane (R357). -/

theorem exec_icacheFill (c u : Nat) (lines : List Nat) (s : State) : exec (.icacheFill c u lines) s = execIcacheFill c u lines s := rfl

theorem exec_controlPlaneReply (cx : Ctx) (q : Query) (dst : Opnd) (s : State) :
    exec (.controlPlaneReply cx q dst) s = execControlPlaneReply cx q dst s := rfl

/-- Lines that fit are all held. -/
theorem mem_icacheAdd (out : Nat) (lines : List Nat) {old : List Nat} (h : old.length + lines.length ≤ 256) (l : Nat) :
    l ∈ icacheAdd out lines old ↔ l ∈ old ∨ l ∈ lines := by
  unfold icacheAdd
  induction lines generalizing old with
  | nil => simp
  | cons x lines ih =>
    rw [List.length_cons] at h
    rw [List.foldl_cons]
    by_cases hx : old.contains x = true
    · rw [if_pos hx, ih (by omega)]
      rw [List.contains_eq_mem, decide_eq_true_eq] at hx
      by_cases hl : l = x <;> simp [hl, hx]
    · rw [if_neg hx, if_pos (show old.length < icacheLines by unfold icacheLines; omega), ih (by simp; omega)]
      simp [or_assoc]

/-- Filled lines are held at once unless a commit that writes one is under way (R261). -/
theorem icacheFill_fills {s : State} {c u : Nat} {lines : List Nat} (hfit : (getCore s c).icache.length + lines.length ≤ 256)
    (hfree : ∀ l ∈ lines, linePending s (.phys (256 * l)) = false) :
    ∃ t, exec (.icacheFill c u lines) s = .next t ∧ BytesSame s t ∧ (∀ d v, getStrand t d v = getStrand s d v) ∧
      ∀ l, l ∈ (getCore t c).icache ↔ l ∈ (getCore s c).icache ∨ l ∈ lines := by
  have hnone : ¬ lines.any (fun l => linePending s (.phys (256 * l))) = true := by simpa using hfree
  refine ⟨_, (exec_icacheFill c u lines s).trans (congrArg Host.Outcome.next (if_neg hnone)), bytesSame_modCore s rfl, fun d v => ?_, fun l => ?_⟩
  · by_cases hd : d = c
    · subst hd; rw [getStrand, getCore_modCore_self]; rfl
    · rw [getStrand, getCore_modCore_ne _ _ hd]; rfl
  · rw [getCore_modCore_self]
    exact mem_icacheAdd _ _ hfit l

/-- A write of cr.l1split by a happening (R129, R185). -/
theorem crL1splitWrite_goes {s : State} {cx : Ctx} (hu : Undisturbed (getStrand s cx.core cx.strand)) (v : Word) :
    (splitOverlaps (getCore s cx.core) (bits v 1 0) = true →
      ∃ t, exec (.crL1splitWrite cx v) s = .next t ∧ TrapEffect s t cx.core cx.strand 0x04 0 cx.word cx.addr cx.addr) ∧
    (splitOverlaps (getCore s cx.core) (bits v 1 0) = false → splitReady s cx.core = true →
      ∃ t, exec (.crL1splitWrite cx v) s = .next t ∧ Resumed s t cx .none 0 ∧ SplitTaken s t cx.core (bits v 1 0)) ∧
    (splitOverlaps (getCore s cx.core) (bits v 1 0) = false → splitReady s cx.core = false →
      ∃ t w, exec (.crL1splitWrite cx v) s = .next t ∧ (getStrand t cx.core cx.strand).wait = some w ∧ w.why = .split v ∧
        w.cx = cx ∧ (getCore t cx.core).shared = (getCore s cx.core).shared) := by
  have hexec := exec_crL1splitWrite cx v s
  rw [execCrL1splitWrite, writeSplit] at hexec
  refine ⟨fun hover => ?_, fun hover hready => ?_, fun hover hready => ?_⟩
  · rw [if_pos hover] at hexec
    exact ⟨_, hexec, takeTrap_effect ..⟩
  · rw [if_neg (by simp [hover]), if_pos hready] at hexec
    exact ⟨_, hexec, takeSplit_resumes hu v⟩
  · rw [if_neg (by simp [hover]), if_neg (by simp [hready])] at hexec
    exact ⟨_, _, hexec, congrArg Strand.wait (getStrand_leave_self ..), rfl, rfl, (congrArg Core.shared (leave_core ..) :)⟩

end Sys2Proof.Proofs

open Sys2Proof.Machine Sys2Proof.Laws Sys2Proof.Proofs

/-- Settles O38: `tlbi` of one core (`tlbi_own`) and of all (`tlbiAck_takes`), the split (`takeSplit_resumes`), filled lines (`icacheFill_fills`)
and answers, which finish their instruction. -/
theorem buffersAndReplies : Obligations.BuffersAndReplies := by
  refine ⟨fun x s h0 hperf => ⟨fun hown hrot => tlbi_own h0 hperf hown hrot, fun hall => ?every⟩, fun s cx hawaits =>
    ⟨fun all va => tlbiAck_takes hawaits all va, fun v => ?split, fun v => crL1splitWrite_goes hawaits.2 v, fun v dst => ?reply,
      fun c u lines hfit => ⟨fun hpending => ?delayed, fun hfree => icacheFill_fills hfit hfree⟩⟩⟩
  case every =>
    obtain ⟨hlo, hhi⟩ := pickN_bounds s 21 (show 1 ≤ 160 by decide)
    exact ⟨_, _, exec_tlbi_all h0 hperf hall, hlo, hhi, leavesUntil_sched ..⟩
  case split =>
    exact ⟨_, (exec_l1splitTakeEffect cx v s).trans (congrArg Host.Outcome.next (if_pos hawaits.1)), takeSplit_resumes hawaits.2 v⟩
  case reply =>
    have hwaits : ¬ (!stillWaits s cx) = true := by rw [hawaits.1]; decide
    exact ⟨_, (exec_controlPlaneReply cx (.value v) dst s).trans (congrArg Host.Outcome.next (if_neg hwaits)),
      resumed_of_finish v hawaits.2 (fun _ => rfl) (bytesSame_refl s) (fun _ _ _ => rfl)⟩
  case delayed =>
    exact (exec_icacheFill c u lines s).trans (congrArg Host.Outcome.next (if_pos (List.any_eq_true.2 hpending)))
end

section
namespace Sys2Proof.Proofs

open Sys2Proof Sys2Proof.Machine Sys2Proof.Laws Sys2Proof.Claims

/-! What a wait that is given up takes back is no strand's (R134, R160). -/

/-- The strands of every core are as before, and so is the cycle. -/
structure StrandsSame (s t : State) : Prop where
  now : t.now = s.now
  strands : ∀ d, (getCore t d).strands = (getCore s d).strands

theorem strandsSame_refl (s : State) : StrandsSame s s := ⟨rfl, fun _ => rfl⟩

theorem strandsSame_trans {s t r : State} (h : StrandsSame s t) (k : StrandsSame t r) : StrandsSame s r :=
  ⟨k.now.trans h.now, fun d => (k.strands d).trans (h.strands d)⟩

theorem strandsSame_of_cores {s t : State} (hnow : t.now = s.now) (hcores : t.cores = s.cores) : StrandsSame s t :=
  ⟨hnow, fun d => by rw [getCore, hcores]; rfl⟩

theorem strandsSame_modCore (s : State) (c : Nat) {f : Core → Core} (h : (f (getCore s c)).strands = (getCore s c).strands) :
    StrandsSame s (modCore s c f) := by
  refine ⟨rfl, fun d => ?_⟩
  by_cases hd : d = c
  · subst hd; rw [getCore_modCore_self, h]
  · rw [getCore_modCore_ne _ _ hd]

theorem strandsSame_foldl {β : Type} {f : State → β → State} (h : ∀ s x, StrandsSame s (f s x)) (l : List β) (s : State) :
    StrandsSame s (l.foldl f s) :=
  List.foldlRecOn (motive := StrandsSame s) l f (strandsSame_refl s) (fun t ht x _ => strandsSame_trans ht (h t x))

theorem getStrand_of_strandsSame {s t : State} (h : StrandsSame s t) (d w : Nat) : getStrand t d w = getStrand s d w := by
  rw [getStrand, Core.strand, h.strands d]; rfl

/-- A unit's queue is no strand's. -/
theorem modUnit_core (s : State) (c : Nat) (su : Bool) (f : List UJob → List UJob) (d : Nat) :
    { getCore (modUnit s c su f) d with vuQ := [], suQ := [] } = { getCore s d with vuQ := [], suQ := [] } := by
  unfold modUnit
  by_cases hd : d = c
  · subst hd; rw [getCore_modCore_self]; cases su <;> rfl
  · rw [getCore_modCore_ne _ _ hd]

/-- A core, but for the queues of its vector and selection units, is as before units have been given up. -/
theorem dropUnits_core (s : State) (cx : Ctx) (d : Nat) :
    { getCore (dropUnits s cx) d with vuQ := [], suQ := [] } = { getCore s d with vuQ := [], suQ := [] } :=
  (modUnit_core (dropJob s false cx) cx.core true _ d).trans (modUnit_core s cx.core false _ d)

theorem dropUnits_outside (s : State) (cx : Ctx) :
    { dropUnits s cx with cores := [], tables := {} } = { s with cores := [], tables := {} } := rfl

theorem strandsSame_dropUnits (s : State) (cx : Ctx) : StrandsSame s (dropUnits s cx) :=
  ⟨rfl, fun d => (congrArg Core.strands (dropUnits_core s cx d) :)⟩

theorem strandsSame_checkRetire (s : State) (r : Nat) : StrandsSame s (checkRetire s r) := by
  unfold checkRetire; split
  · exact strandsSame_of_cores rfl rfl
  · exact strandsSame_refl s

theorem strandsSame_pruneJoins (s : State) (c : Nat) : StrandsSame s (pruneJoins s c) :=
  strandsSame_trans (strandsSame_modCore s c rfl) (strandsSame_foldl strandsSame_checkRetire _ _)

/-- The sequence that an instruction given up would have opened is closed again. -/
def openingDropped (s : State) (cx : Ctx) : State :=
  match opening s cx with
  | some n => { s with seqs := setK s.seqs n { gen := (getK {} s.seqs n).gen } }
  | none => s

/-- The record of an instruction given up leaves the log, with what it has taken. -/
def recordDropped (s : State) (r : Nat) (cx : Ctx) : State :=
  match (getLog s cx.core r).find? (fun e => e.by_ cx) with
  | some (.node (.fork _ _ ch) _) => logDrop (dropHeld (modNode s ch (fun _ => {})) ch) r cx
  | some (.win (.pgal _ _ _ page) _) =>
    logDrop { s with pagesResv := s.pagesResv.filter (fun y => y.1 != page), pagesOut := s.pagesOut.filter (fun p => p != page) } r cx
  | some _ => logDrop s r cx
  | none => s

theorem dropLogged_eq (s : State) (r : Nat) (cx : Ctx) : dropLogged s r cx = recordDropped (openingDropped s cx) r cx := rfl

theorem strandsSame_logDrop {s u : State} (h : StrandsSame s u) (r : Nat) (cx : Ctx) : StrandsSame s (logDrop u r cx) := by
  unfold logDrop modLog; exact strandsSame_trans h (strandsSame_modCore u _ rfl)

theorem strandsSame_dropLogged (s : State) (r : Nat) (cx : Ctx) : StrandsSame s (dropLogged s r cx) := by
  rw [dropLogged_eq]
  refine strandsSame_trans (t := openingDropped s cx) ?_ ?_
  · unfold openingDropped
    split
    · exact strandsSame_of_cores rfl rfl
    · exact strandsSame_refl s
  · unfold recordDropped
    split
    · refine strandsSame_logDrop ?_ r cx
      exact strandsSame_of_cores rfl rfl
    · refine strandsSame_logDrop ?_ r cx
      exact strandsSame_of_cores rfl rfl
    · exact strandsSame_logDrop (strandsSame_refl _) r cx
    · exact strandsSame_refl _

/-- What is taken back for a wait that is given up. -/
def waitDropped (s : State) (c t : Nat) (w : Wait) : State :=
  match w.why with
  | .bara n => modBarrier s (loomOf c) n (fun b => { b with held := b.held.filter (fun d => d != w.cx) })
  | .push d p => modLink s d p (fun k => { k with blocked := k.blocked.filter (fun q => q.cx != w.cx) })
  | .deferred _ _ =>
    { s with cores := s.cores.map (fun (d, k) =>
        (d, { k with
              heldBack := k.heldBack.filter (fun m => m.cx != w.cx)
              reserved := k.reserved.filter (fun x => x != w.cx) })) }
  | .matrix id =>
    if (getCore s c).mq.any (fun e => e.id == id && e.started) then s else pruneJoins (fillQueue (removeEntry s c id) c) c
  | .rep _ => modCore s c (fun k => { k with repWaiters := k.repWaiters.filter (fun u => u != t) })
  | .lock =>
    match taskOf s c t with
    | some r => dropLogged s r w.cx
    | none => s
  | _ => dropUnits s w.cx

theorem abandonWait_none {s : State} {c t : Nat} (h : (getStrand s c t).wait = none) : abandonWait s c t = s := by
  unfold abandonWait; rw [h]

theorem abandonWait_some {s : State} {c t : Nat} {w : Wait} (h : (getStrand s c t).wait = some w) :
    abandonWait s c t = modStrand (waitDropped s c t w) c t (fun x => { x with wait := none }) := by
  unfold abandonWait; rw [h]; rfl

theorem strandsSame_waitDropped (s : State) (c t : Nat) (w : Wait) : StrandsSame s (waitDropped s c t w) := by
  unfold waitDropped
  split
  case h_1 => exact strandsSame_of_cores rfl rfl
  case h_2 => unfold modLink; exact strandsSame_modCore s _ rfl
  case h_3 =>
    refine ⟨rfl, fun d => ?_⟩
    rw [getCore, getK_map_snd (fun k : Core => { k with
      heldBack := k.heldBack.filter (fun m => m.cx != w.cx), reserved := k.reserved.filter (fun x => x != w.cx) }) rfl]
    rfl
  case h_4 =>
    split
    · exact strandsSame_refl s
    · exact strandsSame_trans (strandsSame_trans (strandsSame_modCore s c rfl) (strandsSame_modCore _ c rfl)) (strandsSame_pruneJoins _ c)
  case h_5 => exact strandsSame_modCore s c rfl
  case h_6 =>
    split
    · exact strandsSame_dropLogged ..
    · exact strandsSame_refl s
  case h_7 => exact strandsSame_dropUnits ..

/-- A wait that is given up leaves its strand waiting for nothing, and every other strand as it is. -/
theorem getStrand_abandonWait_self (s : State) (c t : Nat) : getStrand (abandonWait s c t) c t = { getStrand s c t with wait := none } := by
  cases h : (getStrand s c t).wait with
  | none => rw [abandonWait_none h]; rw [← h]
  | some w => rw [abandonWait_some h, getStrand_modStrand_self, getStrand_of_strandsSame (strandsSame_waitDropped ..)]

theorem getStrand_abandonWait_ne (s : State) {c t d w : Nat} (hne : ¬(d = c ∧ w = t)) :
    getStrand (abandonWait s c t) d w = getStrand s d w := by
  cases h : (getStrand s c t).wait with
  | none => rw [abandonWait_none h]
  | some y => rw [abandonWait_some h, getStrand_modStrand_ne _ _ hne, getStrand_of_strandsSame (strandsSame_waitDropped ..)]

theorem abandonWait_now (s : State) (c t : Nat) : (abandonWait s c t).now = s.now := by
  cases h : (getStrand s c t).wait with
  | none => rw [abandonWait_none h]
  | some y => rw [abandonWait_some h]; exact (strandsSame_waitDropped s c t y).now

/-- A loose wait leaves nothing but places in the units. -/
theorem waitDropped_loose {s : State} {c t : Nat} {x : Strand} {w : Wait} (h : LooseWait x) (hw : x.wait = some w) :
    waitDropped s c t w = dropUnits s w.cx := by
  unfold waitDropped
  rcases h w hw with h | ⟨n, h⟩ | ⟨p, k, h⟩ | ⟨m, k, h⟩ | ⟨c', o, v, h⟩ <;> rw [h]

theorem bytesSame_dropUnits (s : State) (cx : Ctx) : BytesSame s (dropUnits s cx) :=
  bytesSame_of_ls rfl (fun d => (congrArg Core.ls (dropUnits_core s cx d) :))

theorem bytesSame_abandonWait {s : State} {c t : Nat} (h : LooseWait (getStrand s c t)) : BytesSame s (abandonWait s c t) := by
  cases hw : (getStrand s c t).wait with
  | none => rw [abandonWait_none hw]; exact bytesSame_refl s
  | some w =>
    rw [abandonWait_some hw, waitDropped_loose h hw]
    exact bytesSame_trans (bytesSame_dropUnits ..) (bytesSame_modStrand ..)

end Sys2Proof.Proofs
end

section
namespace Sys2Proof.Proofs

open Sys2Proof Sys2Proof.Machine Sys2Proof.Laws Sys2Proof.Claims

/-! `hold`, `step` and `resume` (R154): who may be named. -/

theorem exec_hold (x : Args) (s : State) : exec (.hold x) s = execHold x s := rfl
theorem exec_step (x : Args) (s : State) : exec (.step x) s = execStep x s := rfl
theorem exec_resume (x : Args) (s : State) : exec (.resume x) s = execResume x s := rfl
theorem exec_gangHoldArrival (c : Nat) (ts : List Nat) (port : Bool) (s : State) :
    exec (.gangHoldArrival c ts port) s = execGangHoldArrival c ts port s := rfl

theorem mayName_of {s : State} {c u : Nat} (h : (s.cur.strand = 0 ∧ c = s.cur.core) ∨ mayName s s.cur c u = true) :
    mayName s s.cur c u = true := by
  rcases h with ⟨h0, hc⟩ | h
  · unfold mayName; rw [if_pos h0, hc]; simp
  · exact h

/-- A strand other than strand 0 that runs no task names nobody. -/
theorem mayName_none {s : State} (h0 : s.cur.strand ≠ 0) (htask : taskOf s s.cur.core s.cur.strand = none) (c u : Nat) :
    mayName s s.cur c u = false := by
  unfold mayName; rw [if_neg h0, htask]

/-- The strand that the operand of the instruction names. -/
def named (x : Args) (s : State) : Target := tgtOf (src s x.a)

/-- Whether the gang bit is set. -/
def gangBit (x : Args) (s : State) : Bool := bit (src s x.a) 4

theorem debug_unnamed {x : Args} {s : State} (h : Performs s x) (hname : mayName s s.cur (named x s).1 (named x s).2 = false) {i : Instr}
    (hi : i ∈ [Instr.hold x, .step x, .resume x]) : TrapsWith i s 0x02 0 s.cur.addr := by
  have hnot : (!mayName s s.cur (named x s).1 (named x s).2) = true := by rw [hname]; rfl
  simp only [List.mem_cons, List.not_mem_nil, or_false] at hi
  rcases hi with rfl | rfl | rfl
  · exact trapsWith_of_exec ((exec_of_performs (exec_hold x s) rfl h).trans (congrArg Host.Outcome.next (if_pos hnot)))
  · exact trapsWith_of_exec ((exec_of_performs (exec_step x s) rfl h).trans (congrArg Host.Outcome.next (if_pos hnot)))
  · exact trapsWith_of_exec ((exec_of_performs (exec_resume x s) rfl h).trans (congrArg Host.Outcome.next (if_pos hnot)))

section
variable {x : Args} {s : State} (h : Performs s x) (hname : mayName s s.cur (named x s).1 (named x s).2 = true)
include h hname

theorem debug_names_free (hfree : (getStrand s (named x s).1 (named x s).2).st = .free) {i : Instr}
    (hi : i ∈ [Instr.hold x, .step x, .resume x]) : exec i s = .next (finish s s.cur x.a 1) := by
  have hnot : ¬ (!mayName s s.cur (named x s).1 (named x s).2) = true := by rw [hname]; decide
  simp only [List.mem_cons, List.not_mem_nil, or_false] at hi
  rcases hi with rfl | rfl | rfl
  · exact (exec_of_performs (exec_hold x s) rfl h).trans (congrArg Host.Outcome.next ((if_neg hnot).trans (if_pos hfree)))
  · exact (exec_of_performs (exec_step x s) rfl h).trans (congrArg Host.Outcome.next ((if_neg hnot).trans (if_pos hfree)))
  · exact (exec_of_performs (exec_resume x s) rfl h).trans (congrArg Host.Outcome.next ((if_neg hnot).trans (if_pos hfree)))

variable (hlive : (getStrand s (named x s).1 (named x s).2).st ≠ .free)
include hlive

theorem exec_step_live : exec (.step x) s = .next (if gangBit x s || (getStrand s (named x s).1 (named x s).2).st != .held
    then finish s s.cur x.a 2 else finish (stepOne s (named x s).1 (named x s).2) s.cur x.a 0) := by
  have hnot : ¬ (!mayName s s.cur (named x s).1 (named x s).2) = true := by rw [hname]; decide
  exact (exec_of_performs (exec_step x s) rfl h).trans (congrArg Host.Outcome.next ((if_neg hnot).trans (if_neg hlive)))

/-- The strands that the operand of the instruction names with its gang bit. -/
abbrev namedAll (x : Args) (s : State) : List Target := targetsOf s (named x s).1 (named x s).2 (gangBit x s)

/-- The named strands but the issuing one. -/
abbrev namedOthers (x : Args) (s : State) : List Target := (namedAll x s).filter (fun y => y != (s.cur.core, s.cur.strand))

theorem exec_resume_live : exec (.resume x) s =
    .next (finish ((namedAll x s).foldl resumeOne s) s.cur x.a (if (namedAll x s).any (resumeLeft s) then 2 else 0)) := by
  have hnot : ¬ (!mayName s s.cur (named x s).1 (named x s).2) = true := by rw [hname]; decide
  exact (exec_of_performs (exec_resume x s) rfl h).trans (congrArg Host.Outcome.next ((if_neg hnot).trans (if_neg hlive)))

/-- The machine when a hold has been sent to every strand that it names, the issuing one last. -/
def holdSent (x : Args) (s : State) : State :=
  if (namedAll x s).contains (s.cur.core, s.cur.strand)
  then holdLater (gangBit x s) false (sendHold s s.cur.core (gangBit x s) false (namedOthers x s)) s.cur.core s.cur.strand
  else sendHold s s.cur.core (gangBit x s) false (namedOthers x s)

theorem exec_hold_live : exec (.hold x) s =
    .next (if (namedOthers x s).all (fun (d, u) => stopped (getStrand (holdSent x s) d u)) then finish (holdSent x s) s.cur x.a 0
      else leave (holdSent x s) .waiting (.holds (namedOthers x s)) true (.hold x) s.cur x.a) := by
  have hnot : ¬ (!mayName s s.cur (named x s).1 (named x s).2) = true := by rw [hname]; decide
  exact (exec_of_performs (exec_hold x s) rfl h).trans (congrArg Host.Outcome.next ((if_neg hnot).trans (if_neg hlive)))

end

/-! One strand is named. -/

/-- The issuing strand, whom nobody has touched, completes its instruction after a change of the machine. -/
theorem finish_after {s u : State} (hrot : InRotation s) (hcur : getStrand u s.cur.core s.cur.strand = curStrand s) (hbytes : BytesSame s u)
    (o : Opnd) (v : Word) : rd (finish u s.cur o v) s.cur o = readsAs o v ∧ GoesOn (finish u s.cur o v) s.cur (nextPc s.cur) ∧
      BytesSame s (finish u s.cur o v) ∧
      ∀ d w, ¬(d = s.cur.core ∧ w = s.cur.strand) → getStrand (finish u s.cur o v) d w = getStrand u d w := by
  obtain ⟨hframe, hgoes, hrd⟩ := finish_frame u s.cur o v (hcur ▸ hrot.2)
  exact ⟨hrd, hgoes, bytesSame_trans hbytes hframe.bytes, fun d w hne => othersSame_getStrand hframe.others hne⟩

/-- A strand but the issuing one is changed, and the instruction completes. -/
theorem finish_after_modStrand {i : Instr} {s : State} {y : Target} {f : Strand → Strand} {o : Opnd} {v : Word} {P : Strand → Prop}
    (hrot : InRotation s) (hne : y ≠ (s.cur.core, s.cur.strand)) (hexec : exec i s = .next (finish (modStrand s y.1 y.2 f) s.cur o v))
    (hP : P (f (getStrand s y.1 y.2))) :
    ∃ t, exec i s = .next t ∧ rd t s.cur o = readsAs o v ∧ GoesOn t s.cur (nextPc s.cur) ∧ BytesSame s t ∧ P (getStrand t y.1 y.2) := by
  have hcur : getStrand (modStrand s y.1 y.2 f) s.cur.core s.cur.strand = curStrand s :=
    getStrand_modStrand_ne _ _ (fun e => hne (Prod.ext e.1.symm e.2.symm))
  obtain ⟨hrd, hgoes, hbytes, hothers⟩ := finish_after hrot hcur (bytesSame_modStrand ..) o v
  refine ⟨_, hexec, hrd, hgoes, hbytes, ?_⟩
  rw [hothers _ _ (fun e => hne (Prod.ext e.1 e.2)), getStrand_modStrand_self]
  exact hP

section
variable {x : Args} {s : State} (h : Performs s x) (hname : mayName s s.cur (named x s).1 (named x s).2 = true) (hone : gangBit x s = false)

section
include hone

theorem namedAll_one : namedAll x s = [named x s] := by
  rw [namedAll, hone]; rfl

variable (hne : named x s ≠ (s.cur.core, s.cur.strand))
include hne

theorem namedOthers_one : namedOthers x s = [named x s] := by
  rw [namedOthers, namedAll_one hone]; simp [hne]

theorem holdSent_one : holdSent x s = holdOne false false s (named x s) := by
  have hnot : ¬ (namedAll x s).contains (s.cur.core, s.cur.strand) = true := by
    rw [namedAll_one hone]; simpa using Ne.symm hne
  rw [holdSent, if_neg hnot, namedOthers_one hone hne, hone]
  rfl

end

include h hname hone

section
variable (hne : named x s ≠ (s.cur.core, s.cur.strand)) (hlive : (getStrand s (named x s).1 (named x s).2).st ≠ .free)
include hne hlive

/-- A `hold` completes when the strand that it names is stopped, and else waits for it. -/
theorem exec_hold_one : exec (.hold x) s =
    .next (if stopped (getStrand (holdOne false false s (named x s)) (named x s).1 (named x s).2)
      then finish (holdOne false false s (named x s)) s.cur x.a 0
      else leave (holdOne false false s (named x s)) .waiting (.holds [named x s]) true (.hold x) s.cur x.a) := by
  rw [exec_hold_live h hname hlive, holdSent_one hone hne, namedOthers_one hone hne]
  simp

end

theorem exec_resume_one (hlive : (getStrand s (named x s).1 (named x s).2).st ≠ .free) : exec (.resume x) s =
    .next (finish (resumeOne s (named x s)) s.cur x.a (if resumeLeft s (named x s) then 2 else 0)) := by
  rw [exec_resume_live h hname hlive, namedAll_one hone]
  simp

/-- A strand in the rotation is held at once. -/
theorem hold_ready (hrot : InRotation s) (hne : named x s ≠ (s.cur.core, s.cur.strand))
    (hst : (getStrand s (named x s).1 (named x s).2).st = .ready) :
    ∃ t, exec (.hold x) s = .next t ∧ rd t s.cur x.a = readsAs x.a 0 ∧ GoesOn t s.cur (nextPc s.cur) ∧ BytesSame s t ∧
      HeldAt (getStrand s (named x s).1 (named x s).2) (getStrand t (named x s).1 (named x s).2) := by
  have hexec := exec_hold_one h hname hone hne (st_ne hst)
  rw [holdOne_ready hst rfl, getStrand_modStrand_self, if_pos (stopped_heldNow _)] at hexec
  exact finish_after_modStrand hrot hne hexec ⟨rfl, rfl, rfl, rfl, rfl, rfl⟩

/-- A Trapped strand counts as stopped once HLDP says that it is held. -/
theorem hold_trapped (hrot : InRotation s) (hne : named x s ≠ (s.cur.core, s.cur.strand))
    (hst : (getStrand s (named x s).1 (named x s).2).st = .trapped) :
    ∃ t, exec (.hold x) s = .next t ∧ rd t s.cur x.a = readsAs x.a 0 ∧ GoesOn t s.cur (nextPc s.cur) ∧ BytesSame s t ∧
      (getStrand t (named x s).1 (named x s).2).st = .trapped ∧ (getStrand t (named x s).1 (named x s).2).flag 8 = true := by
  have hflag (y : Strand) : ((marked false false y).setFlag 8 true).flag 8 = true := by simp [flag_setFlag]
  have hstopped : stopped ((marked false false (getStrand s (named x s).1 (named x s).2)).setFlag 8 true) = true := by
    unfold stopped
    rw [show ((marked false false (getStrand s (named x s).1 (named x s).2)).setFlag 8 true).st = .trapped from hst]
    exact hflag _
  have hexec := exec_hold_one h hname hone hne (st_ne hst)
  rw [holdOne_trapped hst, getStrand_modStrand_self, if_pos hstopped] at hexec
  exact finish_after_modStrand (P := fun z => z.st = .trapped ∧ z.flag 8 = true) hrot hne hexec ⟨hst, hflag _⟩

/-- A Blocked strand gives up its wait and is held where that leaves it. -/
theorem hold_blocked (hrot : InRotation s) (hne : named x s ≠ (s.cur.core, s.cur.strand))
    (hst : (getStrand s (named x s).1 (named x s).2).st = .blocked) (hloose : LooseWait (getStrand s (named x s).1 (named x s).2)) :
    ∃ t, exec (.hold x) s = .next t ∧ rd t s.cur x.a = readsAs x.a 0 ∧ GoesOn t s.cur (nextPc s.cur) ∧ BytesSame s t ∧
      (getStrand t (named x s).1 (named x s).2).st = .held ∧ (getStrand t (named x s).1 (named x s).2).wait = none ∧
      (getStrand t (named x s).1 (named x s).2).pc = abandonPc (getStrand s (named x s).1 (named x s).2) ∧
      (getStrand t (named x s).1 (named x s).2).cr = (getStrand s (named x s).1 (named x s).2).cr := by
  generalize hy : named x s = y at *
  have hmark : markHeld false false s y.1 y.2 = modStrand s y.1 y.2 (marked false false) := rfl
  have hsame : getStrand (markHeld false false s y.1 y.2) y.1 y.2 = getStrand s y.1 y.2 := by rw [hmark, getStrand_modStrand_self]; rfl
  have hhold : holdOne false false s y = modStrand (abandonWait (markHeld false false s y.1 y.2) y.1 y.2) y.1 y.2
      (fun z => heldNow { z with pc := abandonPc (getStrand s y.1 y.2) }) := by
    rw [holdOne_blocked hst, becomeHeld_quiet _ rfl, modStrand_modStrand_self]
  have hself : getStrand (holdOne false false s y) y.1 y.2 =
      heldNow { getStrand s y.1 y.2 with pc := abandonPc (getStrand s y.1 y.2) } := by
    rw [hhold, getStrand_modStrand_self, getStrand_abandonWait_self, hsame]; rfl
  have hcur : getStrand (holdOne false false s y) s.cur.core s.cur.strand = curStrand s := by
    have hne' : ¬(s.cur.core = y.1 ∧ s.cur.strand = y.2) := fun e => hne (Prod.ext e.1.symm e.2.symm)
    rw [hhold, getStrand_modStrand_ne _ _ hne', getStrand_abandonWait_ne _ hne', hmark, getStrand_modStrand_ne _ _ hne']
  have hbytes : BytesSame s (holdOne false false s y) := by
    rw [hhold]
    exact bytesSame_trans (bytesSame_trans (bytesSame_modStrand ..) (bytesSame_abandonWait (hsame ▸ hloose))) (bytesSame_modStrand ..)
  have hexec := exec_hold_one h (hy ▸ hname) hone (hy ▸ hne) (hy ▸ st_ne hst)
  rw [hy, hself, if_pos (stopped_heldNow _)] at hexec
  obtain ⟨hrd, hgoes, hbytes', hothers⟩ := finish_after hrot hcur hbytes x.a 0
  refine ⟨_, hexec, hrd, hgoes, hbytes', ?_⟩
  rw [hothers _ _ (fun e => hne (Prod.ext e.1 e.2)), hself]
  exact ⟨rfl, rfl, rfl, rfl⟩

/-- A Waiting strand is held when its instruction completes, and the holder waits for that. -/
theorem hold_waiting (hne : named x s ≠ (s.cur.core, s.cur.strand))
    (hst : (getStrand s (named x s).1 (named x s).2).st = .waiting ∨ (getStrand s (named x s).1 (named x s).2).st = .swapping) :
    ∃ t w, exec (.hold x) s = .next t ∧ (getStrand t (named x s).1 (named x s).2).holdReq = true ∧
      (getStrand t (named x s).1 (named x s).2).st = (getStrand s (named x s).1 (named x s).2).st ∧
      (curStrand t).st = .waiting ∧ (curStrand t).wait = some w ∧ w.why = .holds [named x s] ∧ w.cx = s.cur ∧ w.dst = x.a ∧
      w.counted = true ∧ BytesSame s t := by
  have hlive : (getStrand s (named x s).1 (named x s).2).st ≠ .free := hst.elim (fun e => st_ne e) (fun e => st_ne e)
  have hexec := exec_hold_one h hname hone hne hlive
  have hnot : ¬ stopped (holdNoted false (marked false false (getStrand s (named x s).1 (named x s).2))) = true := not_stopped_of_waiting hst
  rw [holdOne_waiting hst, getStrand_modStrand_self, if_neg hnot] at hexec
  have hcur := getStrand_leave_self (modStrand s (named x s).1 (named x s).2 (fun z => holdNoted false (marked false false z))) .waiting
    (.holds [named x s]) true (.hold x) x.a s.cur
  have hself : getStrand (leave (modStrand s (named x s).1 (named x s).2 (fun z => holdNoted false (marked false false z))) .waiting
      (.holds [named x s]) true (.hold x) s.cur x.a) (named x s).1 (named x s).2 =
      holdNoted false (marked false false (getStrand s (named x s).1 (named x s).2)) := by
    rw [leave, getStrand_modStrand_ne _ _ (fun e => hne (Prod.ext e.1 e.2)), getStrand_modStrand_self]
  refine ⟨_, _, hexec, ?_, ?_, (congrArg Strand.st hcur :), (congrArg Strand.wait hcur :), rfl, rfl, rfl, rfl,
    bytesSame_trans (bytesSame_modStrand ..) (leave_bytes ..)⟩
  · rw [hself]; rfl
  · rw [hself]; rfl

/-- A strand that is stopped already is left as it is. -/
theorem hold_stopped (hrot : InRotation s) (hne : named x s ≠ (s.cur.core, s.cur.strand))
    (hst : (getStrand s (named x s).1 (named x s).2).st ∈ [StrandState.held, .halted, .done]) : Gives (.hold x) s x.a 0 := by
  have hlive : (getStrand s (named x s).1 (named x s).2).st ≠ .free := fun e => by simp [e] at hst
  have hexec := exec_hold_one h hname hone hne hlive
  rw [holdOne_stopped (List.mem_append_left [StrandState.free] hst), if_pos (stopped_of_mem hst)] at hexec
  exact gives_of_finish hexec hrot

theorem step_held (hrot : InRotation s) (hne : named x s ≠ (s.cur.core, s.cur.strand))
    (hst : (getStrand s (named x s).1 (named x s).2).st = .held) :
    ∃ t, exec (.step x) s = .next t ∧ rd t s.cur x.a = readsAs x.a 0 ∧ GoesOn t s.cur (nextPc s.cur) ∧ BytesSame s t ∧
      (getStrand t (named x s).1 (named x s).2).st = .ready ∧ (getStrand t (named x s).1 (named x s).2).dbg 1 = true ∧
      (getStrand t (named x s).1 (named x s).2).flag 5 = true ∧
      (getStrand t (named x s).1 (named x s).2).pc = (getStrand s (named x s).1 (named x s).2).pc := by
  have hexec := exec_step_live h hname (st_ne hst)
  rw [hone, if_neg (by simp [hst]), stepOne_eq] at hexec
  obtain ⟨hstep, hxb⟩ := stepped_marks s.now (getStrand s (named x s).1 (named x s).2)
  exact finish_after_modStrand
    (P := fun z => z.st = .ready ∧ z.dbg 1 = true ∧ z.flag 5 = true ∧ z.pc = (getStrand s (named x s).1 (named x s).2).pc) hrot hne hexec
    ⟨rfl, hstep, hxb, rfl⟩

theorem resume_held (hrot : InRotation s) (hne : named x s ≠ (s.cur.core, s.cur.strand))
    (hst : (getStrand s (named x s).1 (named x s).2).st = .held) :
    ∃ t, exec (.resume x) s = .next t ∧ rd t s.cur x.a = readsAs x.a 0 ∧ GoesOn t s.cur (nextPc s.cur) ∧ BytesSame s t ∧
      (getStrand t (named x s).1 (named x s).2).st = .ready ∧ (getStrand t (named x s).1 (named x s).2).dbg 3 = false ∧
      (getStrand t (named x s).1 (named x s).2).dbg 2 = false ∧ (getStrand t (named x s).1 (named x s).2).flag 5 = true ∧
      (getStrand t (named x s).1 (named x s).2).pc = (getStrand s (named x s).1 (named x s).2).pc := by
  have hexec := exec_resume_one h hname hone (st_ne hst)
  rw [resumeOne_held hst, if_neg (by simp [resumeLeft, hst])] at hexec
  obtain ⟨hgang, hport, hxb⟩ := resumed_marks s.now (getStrand s (named x s).1 (named x s).2)
  exact finish_after_modStrand (P := fun z => z.st = .ready ∧ z.dbg 3 = false ∧ z.dbg 2 = false ∧ z.flag 5 = true ∧
    z.pc = (getStrand s (named x s).1 (named x s).2).pc) hrot hne hexec ⟨rfl, hgang, hport, hxb, rfl⟩

/-- A strand that is not Held is left as it is. -/
theorem resume_other (hrot : InRotation s) (hst : (getStrand s (named x s).1 (named x s).2).st ≠ .held)
    (hlive : (getStrand s (named x s).1 (named x s).2).st ≠ .free) : Gives (.resume x) s x.a (if resumeLeft s (named x s) then 2 else 0) := by
  have hexec := exec_resume_one h hname hone hlive
  rw [resumeOne_other hst] at hexec
  exact gives_of_finish hexec hrot

end

theorem bytesSame_wr (s : State) (cx : Ctx) (o : Opnd) (v : Word) : BytesSame s (wr s cx o v) := by
  have hmem : (wr s cx o v).mem = s.mem := (congrArg State.mem (wr_outside s cx o v) :)
  exact ⟨fun a => by rw [hmem], lsRead_wr s cx o v⟩

/-! A strand holds itself: at its next instruction. -/

/-- A strand that is to be held when its instruction completes is held at the next one. -/
def heldNext (cx : Ctx) (now : Nat) (x : Strand) : Strand :=
  heldNow { x with pc := nextPc cx, st := .ready, wait := none, readyFrom := now + 1 }

theorem finish_held {s : State} {cx : Ctx} (o : Opnd) (v : Word) (hstep : (getStrand s cx.core cx.strand).dbg 1 = false)
    (hreq : (getStrand s cx.core cx.strand).holdReq = true) (hport : (getStrand s cx.core cx.strand).holdPort = false) :
    finish s cx o v = modStrand (wr s cx o v) cx.core cx.strand (heldNext cx (wr s cx o v).now) := by
  obtain ⟨hbody, -, -, -, hcr, hreq', -⟩ := getStrand_wr_self s cx o v
  have hport' : (getStrand (wr s cx o v) cx.core cx.strand).holdPort = (getStrand s cx.core cx.strand).holdPort :=
    (congrArg Strand.holdPort hbody :)
  have hstep' : (getStrand (wr s cx o v) cx.core cx.strand).dbg 1 = false := by
    rw [Strand.dbg, Strand.get, hcr]; exact hstep
  rw [finish, complete, completeAt, rejoin]
  rw [getStrand_modStrand_self, if_neg (by exact hstep' ▸ nofun), if_pos (by exact hreq'.trans hreq)]
  refine (becomeHeld_quiet 0x18 ?_).trans ?_
  · rw [show (getStrand (wr s cx o v) cx.core cx.strand).holdPort = false from hport'.trans hport]; rfl
  · rw [modStrand_modStrand_self, modStrand_modStrand_self]; rfl

section
variable {s : State} {cx : Ctx} (o : Opnd) (v : Word) (hstep : (getStrand s cx.core cx.strand).dbg 1 = false)
  (hreq : (getStrand s cx.core cx.strand).holdReq = true) (hport : (getStrand s cx.core cx.strand).holdPort = false)
include hstep hreq hport

theorem finish_held_strand : (getStrand (finish s cx o v) cx.core cx.strand).st = .held ∧
    (getStrand (finish s cx o v) cx.core cx.strand).pc = nextPc cx ∧ rd (finish s cx o v) cx o = readsAs o v := by
  rw [finish_held o v hstep hreq hport, getStrand_modStrand_self]
  exact ⟨rfl, rfl, (rd_modStrand _ _ (heldNext cx _) _ (fun _ => ⟨rfl, rfl, rfl, rfl⟩)).trans (rd_wr_self ..)⟩

theorem finish_held_others {d w : Nat} (hne : ¬(d = cx.core ∧ w = cx.strand)) : getStrand (finish s cx o v) d w = getStrand s d w := by
  rw [finish_held o v hstep hreq hport, getStrand_modStrand_ne _ _ hne, getStrand_wr_ne _ _ _ _ hne]

theorem finish_held_pend : (finish s cx o v).pend = s.pend := by
  rw [finish_held o v hstep hreq hport]
  exact (congrArg State.pend (wr_outside s cx o v) :)

theorem finish_held_bytes : BytesSame s (finish s cx o v) := by
  rw [finish_held o v hstep hreq hport]
  exact bytesSame_trans (bytesSame_wr s cx o v) (bytesSame_modStrand ..)

end

/-- A strand that names itself is held at its next instruction. -/
theorem hold_self {x : Args} {s : State} (h : Performs s x) (hname : mayName s s.cur (named x s).1 (named x s).2 = true)
    (hone : gangBit x s = false) (hrot : InRotation s) (hself : named x s = (s.cur.core, s.cur.strand)) :
    ∃ t, exec (.hold x) s = .next t ∧ rd t s.cur x.a = readsAs x.a 0 ∧ (curStrand t).st = .held ∧ (curStrand t).pc = nextPc s.cur ∧
      BytesSame s t := by
  have hlive : (getStrand s (named x s).1 (named x s).2).st ≠ .free := by rw [hself]; exact st_ne hrot.1
  have hall : namedAll x s = [(s.cur.core, s.cur.strand)] := (namedAll_one hone).trans (by rw [hself])
  have hothers : namedOthers x s = [] := by rw [namedOthers, hall]; simp
  have hsent : holdSent x s = modStrand s s.cur.core s.cur.strand (fun y => holdNoted false (marked false false y)) := by
    rw [holdSent, hall, if_pos (by simp), hothers, hone, holdLater_eq]; rfl
  have hcur : getStrand (holdSent x s) s.cur.core s.cur.strand = holdNoted false (marked false false (curStrand s)) := by
    rw [hsent, getStrand_modStrand_self]
  have hexec := exec_hold_live h hname hlive
  rw [hothers, List.all_nil, if_pos rfl] at hexec
  have hstep : (getStrand (holdSent x s) s.cur.core s.cur.strand).dbg 1 = false := by
    rw [hcur]; exact (marked_dbg_step false (curStrand s)).trans hrot.2.1
  have hreq : (getStrand (holdSent x s) s.cur.core s.cur.strand).holdReq = true := by rw [hcur]; rfl
  have hport : (getStrand (holdSent x s) s.cur.core s.cur.strand).holdPort = false := by rw [hcur]; rfl
  obtain ⟨hst, hpc, hrd⟩ := finish_held_strand x.a 0 hstep hreq hport
  have hcur' : (finish (holdSent x s) s.cur x.a 0).cur = s.cur := by
    rw [finish_held x.a 0 hstep hreq hport]
    exact (congrArg State.cur (wr_outside (holdSent x s) s.cur x.a 0) :).trans (by rw [hsent]; rfl)
  refine ⟨_, hexec, hrd, ?_, ?_, ?_⟩
  · rw [curStrand, hcur']; exact hst
  · rw [curStrand, hcur']; exact hpc
  · exact bytesSame_trans (hsent ▸ bytesSame_modStrand ..) (finish_held_bytes x.a 0 hstep hreq hport)

/-! The gang (R145). -/

theorem namedAll_gang {x : Args} {s : State} {r : Nat} (hgang : gangBit x s = true)
    (htask : taskOf s (named x s).1 (named x s).2 = some r) (hmem : named x s ∈ taskStrands s r) : namedAll x s = taskStrands s r := by
  unfold namedAll targetsOf
  rw [hgang, htask]
  exact if_pos (List.contains_iff_mem.2 hmem)

theorem taskStrands_live {s : State} {r : Nat} {z : Target} (hz : z ∈ taskStrands s r) : (getStrand s z.1 z.2).st ≠ .free := by
  obtain ⟨c, -, hz⟩ := List.mem_flatMap.1 hz
  obtain ⟨t, ht, rfl⟩ := List.mem_map.1 hz
  have hlive := (List.mem_filter.1 ht).2
  rw [Bool.and_eq_true, Strand.live, bne_iff_ne] at hlive
  exact hlive.1

/-- A resume of several strands: the Held ones go on, each once. -/
theorem foldl_resumeOne (l : List Target) (s : State) : (l.foldl resumeOne s).now = s.now ∧ BytesSame s (l.foldl resumeOne s) ∧
    ∀ d w, getStrand (l.foldl resumeOne s) d w =
      if (d, w) ∈ l ∧ (getStrand s d w).st = .held then resumed s.now (getStrand s d w) else getStrand s d w := by
  induction l generalizing s with
  | nil => exact ⟨rfl, bytesSame_refl s, fun d w => (if_neg (fun e => List.not_mem_nil e.1)).symm⟩
  | cons y l ih =>
    rw [List.foldl_cons]
    by_cases hst : (getStrand s y.1 y.2).st = .held
    · obtain ⟨hnow, hbytes, hstrands⟩ := ih (resumeOne s y)
      rw [resumeOne_held hst] at hnow hbytes hstrands ⊢
      refine ⟨hnow, bytesSame_trans (bytesSame_modStrand ..) hbytes, fun d w => (hstrands d w).trans ?_⟩
      by_cases hy : d = y.1 ∧ w = y.2
      · obtain ⟨rfl, rfl⟩ := hy
        rw [getStrand_modStrand_self, if_neg (fun e => nomatch e.2), if_pos ⟨List.mem_cons_self, hst⟩]
      · have hmem : (d, w) ∈ y :: l ↔ (d, w) ∈ l := by
          rw [List.mem_cons, or_iff_right (fun e => hy ⟨congrArg Prod.fst e, congrArg Prod.snd e⟩)]
        rw [getStrand_modStrand_ne _ _ hy]
        exact if_congr (and_congr_left (fun _ => hmem.symm)) rfl rfl
    · obtain ⟨hnow, hbytes, hstrands⟩ := ih s
      rw [resumeOne_other hst]
      refine ⟨hnow, hbytes, fun d w => (hstrands d w).trans ?_⟩
      have hmem : (d, w) ∈ y :: l ∧ (getStrand s d w).st = .held ↔ (d, w) ∈ l ∧ (getStrand s d w).st = .held := by
        refine and_congr_left (fun hheld => ?_)
        rw [List.mem_cons, or_iff_right]
        rintro rfl
        exact hst hheld
      exact if_congr hmem.symm rfl rfl

/-- A resume of every strand of a task. -/
theorem resume_gang {x : Args} {s : State} {r : Nat} (h : Performs s x) (hname : mayName s s.cur (named x s).1 (named x s).2 = true)
    (hlive : (getStrand s (named x s).1 (named x s).2).st ≠ .free) (hrot : InRotation s) (hall : namedAll x s = taskStrands s r) :
    ∃ t, exec (.resume x) s = .next t ∧ GoesOn t s.cur (nextPc s.cur) ∧ BytesSame s t ∧
      rd t s.cur x.a = readsAs x.a (if (taskStrands s r).any (fun z =>
        (getStrand s z.1 z.2).st == .halted || (getStrand s z.1 z.2).st == .trapped) then 2 else 0) ∧
      (∀ z ∈ taskStrands s r, (getStrand s z.1 z.2).st = .held →
        (getStrand t z.1 z.2).st = .ready ∧ (getStrand t z.1 z.2).dbg 3 = false ∧ (getStrand t z.1 z.2).dbg 2 = false ∧
          (getStrand t z.1 z.2).flag 5 = true) ∧
      ∀ d w, (d, w) ∉ taskStrands s r → (d, w) ≠ (s.cur.core, s.cur.strand) → getStrand t d w = getStrand s d w := by
  have hexec := exec_resume_live h hname hlive
  rw [hall] at hexec
  obtain ⟨-, hbytes, hstrands⟩ := foldl_resumeOne (taskStrands s r) s
  have hcur : getStrand ((taskStrands s r).foldl resumeOne s) s.cur.core s.cur.strand = curStrand s :=
    (hstrands ..).trans (if_neg (fun e => absurd e.2 (st_ne hrot.1)))
  obtain ⟨hrd, hgoes, hbytes', hothers⟩ := finish_after hrot hcur hbytes x.a (if (taskStrands s r).any (resumeLeft s) then 2 else 0)
  refine ⟨_, hexec, hgoes, hbytes', hrd, fun z hz hheld => ?_, fun d w hmem hne => ?_⟩
  · have hne : ¬(z.1 = s.cur.core ∧ z.2 = s.cur.strand) := fun e => by
      rw [e.1, e.2] at hheld; exact absurd hheld (st_ne hrot.1)
    rw [hothers _ _ hne, hstrands, if_pos ⟨hz, hheld⟩]
    exact ⟨rfl, resumed_marks ..⟩
  · rw [hothers _ _ (fun e => hne (Prod.ext e.1 e.2)), hstrands, if_neg (fun e => hmem e.1)]

/-! A hold of a gang: at once on the issuing core, by a message elsewhere. -/

/-- A hold by an instruction touches no strand but the one that it reaches. -/
theorem holdOne_frame (gang : Bool) (s : State) (y : Target) : (holdOne gang false s y).now = s.now ∧
    ∀ d w, ¬(d = y.1 ∧ w = y.2) → getStrand (holdOne gang false s y) d w = getStrand s d w := by
  have hmod (f : Strand → Strand) : (modStrand s y.1 y.2 f).now = s.now ∧
      ∀ d w, ¬(d = y.1 ∧ w = y.2) → getStrand (modStrand s y.1 y.2 f) d w = getStrand s d w :=
    ⟨rfl, fun _ _ hne => getStrand_modStrand_ne _ _ hne⟩
  cases hst : (getStrand s y.1 y.2).st
  case ready => rw [holdOne_ready hst rfl]; exact hmod _
  case waiting => rw [holdOne_waiting (.inl hst)]; exact hmod _
  case swapping => rw [holdOne_waiting (.inr hst)]; exact hmod _
  case trapped => rw [holdOne_trapped hst]; exact hmod _
  case blocked =>
    rw [holdOne_blocked hst, becomeHeld_quiet _ rfl]
    refine ⟨abandonWait_now .., fun d w hne => ?_⟩
    rw [getStrand_modStrand_ne _ _ hne, getStrand_modStrand_ne _ _ hne, getStrand_abandonWait_ne _ hne]
    exact getStrand_modStrand_ne _ _ hne
  all_goals rw [holdOne_stopped (by rw [hst]; decide)]; exact ⟨rfl, fun _ _ _ => rfl⟩

/-- A strand that a gang hold holds. -/
def HeldByGang (x : Strand) : Prop := x.st = .held ∧ x.dbg 3 = true

theorem foldl_holdOne_now (gang : Bool) (l : List Target) (s : State) : (l.foldl (holdOne gang false) s).now = s.now :=
  foldl_keeps State.now (fun s y => (holdOne_frame gang s y).1) l s

theorem foldl_holdOne_ne (gang : Bool) {l : List Target} {z : Target} (hz : z ∉ l) (s : State) :
    getStrand (l.foldl (holdOne gang false) s) z.1 z.2 = getStrand s z.1 z.2 := by
  induction l generalizing s with
  | nil => rfl
  | cons y l ih =>
    rw [List.mem_cons, not_or] at hz
    rw [List.foldl_cons, ih hz.2]
    exact (holdOne_frame gang s y).2 _ _ (fun e => hz.1 (Prod.ext e.1 e.2))

/-- A Held strand stays as it is under further holds. -/
theorem foldl_holdOne_held {z : Target} (l : List Target) {s : State} (h : HeldByGang (getStrand s z.1 z.2)) :
    HeldByGang (getStrand (l.foldl (holdOne true false) s) z.1 z.2) := by
  induction l generalizing s with
  | nil => exact h
  | cons y l ih =>
    rw [List.foldl_cons]
    refine ih ?_
    by_cases hy : z.1 = y.1 ∧ z.2 = y.2
    · obtain rfl : z = y := Prod.ext hy.1 hy.2
      rw [holdOne_stopped (by rw [h.1]; decide)]; exact h
    · rw [(holdOne_frame true s y).2 _ _ hy]; exact h

theorem foldl_holdOne_ready {z : Target} {l : List Target} (hz : z ∈ l) {s : State} (hst : (getStrand s z.1 z.2).st = .ready) :
    HeldByGang (getStrand (l.foldl (holdOne true false) s) z.1 z.2) := by
  induction l generalizing s with
  | nil => cases hz
  | cons y l ih =>
    rw [List.foldl_cons]
    by_cases hy : z.1 = y.1 ∧ z.2 = y.2
    · obtain rfl : z = y := Prod.ext hy.1 hy.2
      refine foldl_holdOne_held l ?_
      rw [holdOne_ready hst rfl, getStrand_modStrand_self]
      exact ⟨rfl, marked_dbg_gang false _⟩
    · have hmem : z ∈ l := (List.mem_cons.1 hz).resolve_left (fun e => hy ⟨congrArg Prod.fst e, congrArg Prod.snd e⟩)
      exact ih hmem (((holdOne_frame true s y).2 _ _ hy).symm ▸ hst)

/-- A gang hold sets out to a core. -/
def holdSetsOut (port : Bool) (ts : List Target) (s : State) (c : Nat) : State :=
  sched s (s.now + pickN s 20 1 24) (.gangHoldArrival c ((ts.filter (fun x => x.1 == c)).map (·.2)) port)

theorem foldl_holdSetsOut_cores (port : Bool) (ts : List Target) (l : List Nat) (s : State) :
    (l.foldl (holdSetsOut port ts) s).cores = s.cores := foldl_keeps State.cores (f := holdSetsOut port ts) (fun _ _ => rfl) l s

theorem foldl_holdSetsOut_keeps (port : Bool) (ts : List Target) (l : List Nat) {s : State} {e : Nat × Instr} (h : e ∈ s.pend) :
    e ∈ (l.foldl (holdSetsOut port ts) s).pend :=
  List.foldlRecOn (motive := fun (t : State) => e ∈ t.pend) l _ h (fun _ ht _ _ => List.mem_append_left _ ht)

/-- A gang hold reaches every core that it sets out to within 24 cycles (R145). -/
theorem foldl_holdSetsOut_due (port : Bool) (ts : List Target) {l : List Nat} {c : Nat} (hc : c ∈ l) (s : State) :
    ∃ due, s.now < due ∧ due ≤ s.now + 24 ∧
      (due, .gangHoldArrival c ((ts.filter (fun x => x.1 == c)).map (·.2)) port) ∈ (l.foldl (holdSetsOut port ts) s).pend := by
  induction l generalizing s with
  | nil => cases hc
  | cons d l ih =>
    rw [List.foldl_cons]
    rcases List.mem_cons.1 hc with rfl | hmem
    · obtain ⟨hlo, hhi⟩ := pickN_bounds s 20 (show 1 ≤ 24 by decide)
      exact ⟨s.now + pickN s 20 1 24, by omega, by omega, foldl_holdSetsOut_keeps port ts l (List.mem_append_right _ List.mem_cons_self)⟩
    · exact ih hmem (holdSetsOut port ts s d)

/-- The named strands on the core `home`, and the cores of the others. -/
def nearOf (home : Nat) (ts : List Target) : List Target := ts.filter (fun x => !true || x.1 == home)
def farOf (home : Nat) (ts : List Target) : List Nat := ((ts.map (·.1)).filter (fun c => c != home)).eraseDups

theorem sendHold_gang (s : State) (home : Nat) (port : Bool) (ts : List Target) : sendHold s home true port ts =
    (farOf home ts).foldl (holdSetsOut port ts) ((nearOf home ts).foldl (holdOne true port) s) := rfl

theorem getStrand_sendHold_gang (s : State) (home : Nat) (port : Bool) (ts : List Target) (d w : Nat) :
    getStrand (sendHold s home true port ts) d w = getStrand ((nearOf home ts).foldl (holdOne true port) s) d w := by
  rw [sendHold_gang, getStrand, getCore, foldl_holdSetsOut_cores]; rfl

/-- The issuing strand when the hold has been sent: as it was, or with the hold noted. -/
theorem holdSent_cur {x : Args} {s : State} (hgang : gangBit x s = true) :
    getStrand (holdSent x s) s.cur.core s.cur.strand = curStrand s ∨
    getStrand (holdSent x s) s.cur.core s.cur.strand = holdNoted false (marked true false (curStrand s)) := by
  have hsame : getStrand (sendHold s s.cur.core true false (namedOthers x s)) s.cur.core s.cur.strand = curStrand s := by
    rw [getStrand_sendHold_gang]
    refine foldl_holdOne_ne true (z := (s.cur.core, s.cur.strand)) (fun hmem => ?_) s
    have hmem := (List.mem_filter.1 (List.mem_of_mem_filter hmem)).2
    simp at hmem
  rw [holdSent, hgang]
  split
  · right; rw [holdLater_eq, getStrand_modStrand_self, hsame]
  · left; exact hsame

/-- A `hold` that ends, or waits, leaves the other strands and what is to come about. -/
theorem holdSent_ends {x : Args} {s t : State} (hrot : InRotation s) (hgang : gangBit x s = true)
    (ht : t = finish (holdSent x s) s.cur x.a 0 ∨
      t = leave (holdSent x s) .waiting (.holds (namedOthers x s)) true (.hold x) s.cur x.a) :
    t.pend = (holdSent x s).pend ∧
      ∀ d w, ¬(d = s.cur.core ∧ w = s.cur.strand) → getStrand t d w = getStrand (holdSent x s) d w := by
  rcases ht with rfl | rfl
  · rcases holdSent_cur hgang with hcur | hcur
    · obtain ⟨hframe, -, -⟩ := finish_frame (holdSent x s) s.cur x.a 0 (hcur ▸ hrot.2)
      exact ⟨(congrArg State.pend hframe.outside :), fun d w hne => othersSame_getStrand hframe.others hne⟩
    · have hstep : (getStrand (holdSent x s) s.cur.core s.cur.strand).dbg 1 = false := by
        rw [hcur]; exact (marked_dbg_step true (curStrand s)).trans hrot.2.1
      have hreq : (getStrand (holdSent x s) s.cur.core s.cur.strand).holdReq = true := by rw [hcur]; rfl
      have hport : (getStrand (holdSent x s) s.cur.core s.cur.strand).holdPort = false := by rw [hcur]; rfl
      exact ⟨finish_held_pend x.a 0 hstep hreq hport, fun d w hne => finish_held_others x.a 0 hstep hreq hport hne⟩
  · exact ⟨rfl, fun d w hne => getStrand_modStrand_ne _ _ hne⟩

/-- What a hold has set out to is to come about. -/
theorem holdSent_pend {x : Args} {s : State} (hgang : gangBit x s = true) :
    (holdSent x s).pend = (sendHold s s.cur.core true false (namedOthers x s)).pend := by
  rw [holdSent, hgang]
  split
  · rw [holdLater_eq]; rfl
  · rfl

theorem holdSent_ne {x : Args} {s : State} (hgang : gangBit x s = true) {d w : Nat} (hne : ¬(d = s.cur.core ∧ w = s.cur.strand)) :
    getStrand (holdSent x s) d w = getStrand ((nearOf s.cur.core (namedOthers x s)).foldl (holdOne true false) s) d w := by
  rw [← getStrand_sendHold_gang, holdSent, hgang]
  split
  · rw [holdLater_eq, getStrand_modStrand_ne _ _ hne]
  · rfl

/-- A hold of every strand of a task. -/
theorem hold_gang {x : Args} {s : State} {r : Nat} (h : Performs s x) (hname : mayName s s.cur (named x s).1 (named x s).2 = true)
    (hlive : (getStrand s (named x s).1 (named x s).2).st ≠ .free) (hrot : InRotation s) (hgang : gangBit x s = true)
    (hall : namedAll x s = taskStrands s r) :
    ∃ t, exec (.hold x) s = .next t ∧
      (∀ z ∈ taskStrands s r, z.1 = s.cur.core → z ≠ (s.cur.core, s.cur.strand) → (getStrand s z.1 z.2).st = .ready →
        (getStrand t z.1 z.2).st = .held ∧ (getStrand t z.1 z.2).dbg 3 = true) ∧
      ∀ z ∈ taskStrands s r, z.1 ≠ s.cur.core →
        ∃ due ts, s.now < due ∧ due ≤ s.now + 24 ∧ (due, .gangHoldArrival z.1 ts false) ∈ t.pend ∧ z.2 ∈ ts := by
  obtain ⟨hpend, hothers⟩ := holdSent_ends hrot hgang (ite_eq_or_eq ((namedOthers x s).all (fun (d, u) => stopped (getStrand (holdSent x s) d u)) = true) _ _)
  have hmem {z : Target} (hz : z ∈ taskStrands s r) (hne : z ≠ (s.cur.core, s.cur.strand)) : z ∈ namedOthers x s :=
    List.mem_filter.2 ⟨hall ▸ hz, by simpa using hne⟩
  refine ⟨_, exec_hold_live h hname hlive, fun z hz hcore hne hst => ?_, fun z hz hcore => ?_⟩
  · have hne' : ¬(z.1 = s.cur.core ∧ z.2 = s.cur.strand) := fun e => hne (Prod.ext e.1 e.2)
    have hnear : z ∈ nearOf s.cur.core (namedOthers x s) := List.mem_filter.2 ⟨hmem hz hne, by simpa using hcore⟩
    rw [hothers _ _ hne', holdSent_ne hgang hne']
    exact foldl_holdOne_ready hnear hst
  · have hz' := hmem hz (fun e => hcore (congrArg Prod.fst e))
    have hfar : z.1 ∈ farOf s.cur.core (namedOthers x s) :=
      List.mem_eraseDups.2 (List.mem_filter.2 ⟨List.mem_map_of_mem hz', by simpa using hcore⟩)
    obtain ⟨due, hlo, hhi, hdue⟩ := foldl_holdSetsOut_due false (namedOthers x s) hfar
      ((nearOf s.cur.core (namedOthers x s)).foldl (holdOne true false) s)
    rw [foldl_holdOne_now] at hlo hhi
    refine ⟨due, _, hlo, hhi, ?_, List.mem_map_of_mem (f := Prod.snd) ((List.mem_filter (p := fun y => y.1 == z.1)).2 ⟨hz', beq_self_eq_true z.1⟩)⟩
    rw [hpend, holdSent_pend hgang, sendHold_gang]
    exact hdue

/-! A gang hold arrives (R145). -/

/-- A change of the one strand that a gang hold names. -/
theorem gangHold_changes {s : State} {c u : Nat} {port : Bool} {f : Strand → Strand} {P : Strand → Prop}
    (hhold : holdOne true port s (c, u) = modStrand s c u f) (hP : P (f (getStrand s c u))) :
    ∃ t, exec (.gangHoldArrival c [u] port) s = .next t ∧ P (getStrand t c u) ∧ BytesSame s t ∧ OthersSame s t c u := by
  refine ⟨_, (exec_gangHoldArrival c [u] port s).trans (congrArg Host.Outcome.next hhold), ?_, bytesSame_modStrand .., othersSame_modStrand ..⟩
  rw [getStrand_modStrand_self]
  exact hP

theorem gangHoldArrival_holds (s : State) (c u : Nat) (port : Bool) :
    ((getStrand s c u).st = .ready → (port = true → (getCore s c).dbgn = false) →
      ∃ t, exec (.gangHoldArrival c [u] port) s = .next t ∧ (getStrand t c u).st = .held ∧ (getStrand t c u).dbg 3 = true ∧
        (port = true → (getStrand t c u).dbg 2 = true) ∧ (getStrand t c u).pc = (getStrand s c u).pc ∧ BytesSame s t ∧
        OthersSame s t c u) ∧
    ((getStrand s c u).st = .waiting →
      ∃ t, exec (.gangHoldArrival c [u] port) s = .next t ∧ (getStrand t c u).st = .waiting ∧ (getStrand t c u).holdReq = true ∧
        (getStrand t c u).holdPort = port ∧ (getStrand t c u).dbg 3 = true ∧ BytesSame s t ∧ OthersSame s t c u) ∧
    ((getStrand s c u).st = .trapped →
      ∃ t, exec (.gangHoldArrival c [u] port) s = .next t ∧ (getStrand t c u).st = .trapped ∧ (getStrand t c u).flag 8 = true ∧
        OthersSame s t c u) := by
  have hport (hp : port = true) : (marked true port (getStrand s c u)).dbg 2 = true := by subst hp; exact marked_dbg_port ..
  have hstill : (marked true port (getStrand s c u)).st = (getStrand s c u).st := by rw [marked_eq]
  have hpc : (marked true port (getStrand s c u)).pc = (getStrand s c u).pc := by rw [marked_eq]
  refine ⟨fun hst hquiet => ?_, fun hst => ?_, fun hst => ?_⟩
  · have hquiet' : (port && (getCore s c).dbgn) = false := by cases port <;> simp_all
    obtain ⟨t, ht, ⟨hheld, hgang, hport, hpc⟩, hrest⟩ := gangHold_changes
      (P := fun x => x.st = .held ∧ x.dbg 3 = true ∧ (port = true → x.dbg 2 = true) ∧ x.pc = (getStrand s c u).pc)
      (holdOne_ready (y := (c, u)) hst hquiet') ⟨rfl, marked_dbg_gang .., hport, hpc⟩
    exact ⟨t, ht, hheld, hgang, hport, hpc, hrest⟩
  · obtain ⟨t, ht, ⟨hwaits, hreq, hport, hgang⟩, hrest⟩ := gangHold_changes
      (P := fun x => x.st = .waiting ∧ x.holdReq = true ∧ x.holdPort = port ∧ x.dbg 3 = true)
      (holdOne_waiting (y := (c, u)) (.inl hst)) ⟨hstill.trans hst, rfl, rfl, marked_dbg_gang ..⟩
    exact ⟨t, ht, hwaits, hreq, hport, hgang, hrest⟩
  · obtain ⟨t, ht, ⟨htrapped, hflag⟩, -, hothers⟩ := gangHold_changes (P := fun x => x.st = .trapped ∧ x.flag 8 = true)
      (holdOne_trapped (y := (c, u)) hst) ⟨hstill.trans hst, by simp [flag_setFlag]⟩
    exact ⟨t, ht, htrapped, hflag, hothers⟩

end Sys2Proof.Proofs

open Sys2Proof Sys2Proof.Machine Sys2Proof.Laws Sys2Proof.Proofs

/-- Settles O39: who may be named (`mayName_of`), and each instruction's case by the state of the strand that it names, or of the task's strands
(`hold_gang`, `resume_gang`); a gang hold's arrival is the same hold. -/
theorem holdStepResume : Obligations.HoldStepResume := by
  refine ⟨fun x s hperf hrot => ⟨fun h0 htask i hi => debug_unnamed hperf (mayName_none h0 htask _ _) hi, fun hmay => ?_⟩, gangHoldArrival_holds⟩
  have hname : mayName s s.cur (named x s).1 (named x s).2 = true := mayName_of hmay
  refine ⟨fun hfree i hi => gives_of_finish (debug_names_free hperf hname hfree hi) hrot, fun hst => ?stepRefused, fun hone hne => ⟨?ready, ?blocked, ?waiting,
    ?trapped, ?stopped, ?held, ?resumeLeft, ?resumeNone⟩, fun hone hself => hold_self hperf hname hone hrot hself, fun hgang r htask hmem => ?gang⟩
  case stepRefused =>
    have hlive : (getStrand s (named x s).1 (named x s).2).st ≠ .free := hst.elim And.left And.left
    have hexec := exec_step_live hperf hname hlive
    have hrefused : (gangBit x s || (getStrand s (named x s).1 (named x s).2).st != .held) = true := by
      rw [Bool.or_eq_true, bne_iff_ne]
      exact hst.imp And.right And.right
    rw [if_pos hrefused] at hexec
    exact gives_of_finish hexec hrot
  case ready => exact hold_ready hperf hname hone hrot hne
  case blocked => exact hold_blocked hperf hname hone hrot hne
  case waiting => exact hold_waiting hperf hname hone hne
  case trapped => exact hold_trapped hperf hname hone hrot hne
  case stopped => exact fun hst => hold_stopped hperf hname hone hrot hne (by simp only [List.mem_cons, List.not_mem_nil, or_false]; exact hst)
  case held => exact fun hst => ⟨step_held hperf hname hone hrot hne hst, resume_held hperf hname hone hrot hne hst⟩
  case resumeLeft =>
    intro hst
    have hgives := resume_other hperf hname hone hrot (hst.elim (fun e => st_ne e) (fun e => st_ne e)) (hst.elim (fun e => st_ne e) (fun e => st_ne e))
    have hleft : resumeLeft s (named x s) = true := by
      rw [resumeLeft, Bool.or_eq_true, beq_iff_eq, beq_iff_eq]; exact hst
    rw [if_pos hleft] at hgives
    exact hgives
  case resumeNone =>
    intro hst
    have hstates : (getStrand s (named x s).1 (named x s).2).st ∈ [StrandState.blocked, .waiting, .ready, .done, .swapping] := by
      simp only [List.mem_cons, List.not_mem_nil, or_false]; exact hst
    have hnot {a : StrandState} (ha : a ∉ [StrandState.blocked, .waiting, .ready, .done, .swapping]) :
        (getStrand s (named x s).1 (named x s).2).st ≠ a := fun e => ha (e ▸ hstates)
    have hgives := resume_other hperf hname hone hrot (hnot (by decide)) (hnot (by decide))
    have hleft : ¬ resumeLeft s (named x s) = true := by
      rw [resumeLeft, Bool.or_eq_true, beq_iff_eq, beq_iff_eq]
      exact fun e => e.elim (hnot (by decide)) (hnot (by decide))
    rw [if_neg hleft] at hgives
    exact hgives
  case gang =>
    have hall : namedAll x s = taskStrands s r := namedAll_gang hgang htask hmem
    have hlive : (getStrand s (named x s).1 (named x s).2).st ≠ .free := taskStrands_live hmem
    exact ⟨resume_gang hperf hname hlive hrot hall, hold_gang hperf hname hlive hrot hgang hall⟩
end

section
namespace Sys2Proof.Proofs

open Sys2Proof Sys2Proof.Machine Sys2Proof.Laws Sys2Proof.Claims

/-! A write of one item of a strand (Table 6.7, R151). -/

/-- Between two states an item of strand `u` of core `c` may have been written: its state and window stand, and with them what the machine holds besides
the strand, the register file and the shared registers. -/
structure ItemFrame (s t : State) (c u : Nat) : Prop where
  outside : OutsideSame s t
  others : OthersSame s t c u
  core : coreBody (getCore t c) = coreBody (getCore s c)
  state : (getStrand t c u).st = (getStrand s c u).st
  window : (getStrand t c u).get 4 = (getStrand s c u).get 4

theorem itemFrame_refl (s : State) (c u : Nat) : ItemFrame s s c u := ⟨rfl, othersSame_refl s c u, rfl, rfl, rfl⟩

theorem itemFrame_trans {s t r : State} {c u : Nat} (h : ItemFrame s t c u) (k : ItemFrame t r c u) : ItemFrame s r c u :=
  ⟨k.outside.trans h.outside, othersSame_trans h.others k.others, k.core.trans h.core, k.state.trans h.state, k.window.trans h.window⟩

section
variable {s t : State} {c u : Nat} (h : ItemFrame s t c u)
include h

theorem itemFrame_windowSize : windowSize (getStrand t c u) = windowSize (getStrand s c u) := by
  unfold windowSize Strand.live Strand.size Strand.limit Strand.base
  rw [h.state, h.window]

theorem itemFrame_base : (getStrand t c u).base = (getStrand s c u).base := by
  rw [Strand.base, h.window]; rfl

theorem itemFrame_ls (d : Nat) : (getCore t d).ls = (getCore s d).ls := by
  by_cases hd : d = c
  · subst hd; exact (congrArg Core.ls h.core :)
  · rw [h.others.1 d hd]

theorem itemFrame_bytes : BytesSame s t := bytesSame_of_ls (congrArg State.mem h.outside :) (itemFrame_ls h)

end

theorem itemFrame_modStrand (s : State) (c u : Nat) {f : Strand → Strand} (hst : (f (getStrand s c u)).st = (getStrand s c u).st)
    (hwindow : (f (getStrand s c u)).get 4 = (getStrand s c u).get 4) : ItemFrame s (modStrand s c u f) c u where
  outside := rfl
  others := othersSame_modStrand ..
  core := by rw [getCore_modStrand_self]; rfl
  state := by rw [getStrand_modStrand_self, hst]
  window := by rw [getStrand_modStrand_self, hwindow]

theorem itemFrame_modCore (s : State) (c u : Nat) {f : Core → Core} (hbody : coreBody (f (getCore s c)) = coreBody (getCore s c))
    (hstrands : (f (getCore s c)).strands = (getCore s c).strands) : ItemFrame s (modCore s c f) c u := by
  have hsame (w : Nat) : getStrand (modCore s c f) c w = getStrand s c w := by
    rw [getStrand, getCore_modCore_self, Core.strand, hstrands]; rfl
  exact ⟨rfl, ⟨fun d hd => getCore_modCore_ne _ _ hd, fun w _ => hsame w⟩, by rw [getCore_modCore_self, hbody], by rw [hsame], by rw [hsame]⟩

/-- An item write and the register file: only an item of the window is kept there. -/
def fileAfter (k : Core) (x : Strand) (n : Nat) (v : Word) : List (Nat × Word) :=
  if n < 128 ∧ n < windowSize x then setK k.rf (x.base + n) v else k.rf

/-- What a write of item `n` leaves of a strand's pointers. -/
def ptrAfter (x : Strand) (n : Nat) (v : Word) (p : Nat) : Word := if n = 128 + p ∧ p < 8 then v else x.ptr p

/-- What an item write does: frame, register file and pointers. -/
structure ItemWritten (s t : State) (c u n : Nat) (v : Word) : Prop where
  frame : ItemFrame s t c u
  file : (getCore t c).rf = fileAfter (getCore s c) (getStrand s c u) n v
  ptrs : ∀ p, (getStrand t c u).ptr p = ptrAfter (getStrand s c u) n v p

/-- A change of the strand that is no window item. -/
theorem itemWritten_modStrand (s : State) (c u : Nat) {n : Nat} {v : Word} {f : Strand → Strand} (hn : 128 ≤ n)
    (hst : (f (getStrand s c u)).st = (getStrand s c u).st) (hwindow : (f (getStrand s c u)).get 4 = (getStrand s c u).get 4)
    (hptrs : ∀ p, (f (getStrand s c u)).ptr p = ptrAfter (getStrand s c u) n v p) : ItemWritten s (modStrand s c u f) c u n v := by
  refine ⟨itemFrame_modStrand s c u hst hwindow, ?_, fun p => ?_⟩
  · rw [getCore_modStrand_self, fileAfter, if_neg (by omega)]; rfl
  · rw [getStrand_modStrand_self, hptrs]

/-- An item that is kept in the strand, and is no pointer. -/
theorem itemWritten_register (s : State) (c u : Nat) {n : Nat} {v : Word} {f : Strand → Strand} (hn : 136 ≤ n)
    (hst : (f (getStrand s c u)).st = (getStrand s c u).st) (hwindow : (f (getStrand s c u)).get 4 = (getStrand s c u).get 4)
    (hptrs : (f (getStrand s c u)).ptrs = (getStrand s c u).ptrs) : ItemWritten s (modStrand s c u f) c u n v :=
  itemWritten_modStrand s c u (by omega) hst hwindow (fun p => by rw [ptrAfter, if_neg (by omega), Strand.ptr, hptrs]; rfl)

/-- An item that is not kept: nothing is written. -/
theorem itemWritten_refl (s : State) (c u : Nat) {n : Nat} {v : Word} (hfile : ¬(n < 128 ∧ n < windowSize (getStrand s c u)))
    (hptr : ¬(128 ≤ n ∧ n < 136)) : ItemWritten s s c u n v :=
  ⟨itemFrame_refl s c u, (if_neg hfile).symm, fun p => (if_neg (by omega)).symm⟩

theorem itemWritten_set (s : State) (c u : Nat) {n r : Nat} (v w : Word) (hn : 136 ≤ n) (hr : r ≠ 4) :
    ItemWritten s (modStrand s c u (fun x => x.set r w)) c u n v :=
  itemWritten_register s c u hn rfl (get_set_ne _ _ hr.symm) rfl

theorem itemWritten_stat (s : State) (c u : Nat) {n : Nat} (v : Word) (hn : 136 ≤ n) : ItemWritten s (writeStat s c u v) c u n v := by
  have hkeeps := keepsAllBut_stat (getStrand s c u) v
  rw [writeStat_eq]
  exact itemWritten_register s c u hn hkeeps.st (hkeeps.get 4 (by decide)) hkeeps.ptrs

theorem itemWritten_timer (s : State) (c u : Nat) {n : Nat} (v : Word) (hn : 136 ≤ n) : ItemWritten s (writeTimer s c u v) c u n v :=
  itemWritten_register s c u (f := timerSet v s.now) hn rfl (get_set_ne _ _ (by decide)) rfl

theorem itemWritten_ite {s a b : State} {c u n : Nat} {v : Word} {p : Prop} [Decidable p] (ha : p → ItemWritten s a c u n v)
    (hb : ¬ p → ItemWritten s b c u n v) : ItemWritten s (if p then a else b) c u n v := by
  by_cases hp : p
  · rw [if_pos hp]; exact ha hp
  · rw [if_neg hp]; exact hb hp

theorem itemWritten_shared (s : State) (c u : Nat) {n r : Nat} (v : Word) (hn : 136 ≤ n) :
    ItemWritten s (modCore s c (fun k => k.sharedWrite r 0 s.now v)) c u n v := by
  refine ⟨itemFrame_modCore s c u rfl rfl, ?_, fun p => ?_⟩
  · rw [getCore_modCore_self, fileAfter, if_neg (by omega)]; rfl
  · rw [getStrand, getCore_modCore_self, ptrAfter, if_neg (by omega)]; rfl

/-- Items from 136 on, in the order of Table 6.7. -/
theorem setStateItem_high (s : State) (c u : Nat) {n : Nat} (v : Word) (port : Bool) (hn : 136 ≤ n) :
    ItemWritten s (setStateItem s c u n v port) c u n v :=
  itemWritten_ite (fun h => by omega) fun _ =>
  itemWritten_ite (fun h => by omega) fun _ =>
  itemWritten_ite (fun _ => itemWritten_register s c u hn rfl rfl rfl) fun _ =>
  itemWritten_ite (fun _ => itemWritten_register s c u hn rfl rfl rfl) fun _ =>
  itemWritten_ite (fun _ => itemWritten_set s c u v _ hn (by decide)) fun _ =>
  itemWritten_ite (fun _ => itemWritten_set s c u v _ hn (by decide)) fun _ =>
  itemWritten_ite (fun _ => itemWritten_set s c u v _ hn (by decide)) fun _ =>
  itemWritten_ite (fun _ => itemWritten_set s c u v _ hn (by decide)) fun _ =>
  itemWritten_ite (fun _ => itemWritten_set s c u v _ hn (by decide)) fun _ =>
  itemWritten_ite (fun _ => itemWritten_timer s c u v hn) fun _ =>
  itemWritten_ite (fun _ => itemWritten_stat s c u v hn) fun _ =>
  itemWritten_ite (fun h => itemWritten_set s c u v _ hn (by omega)) fun _ =>
  itemWritten_ite (fun _ => itemWritten_shared s c u v hn) fun _ =>
  itemWritten_refl s c u (by omega) (by omega)

/-- What a write of an item does to a strand, its window and its pointers. -/
theorem setStateItem_written (s : State) (c u n : Nat) (v : Word) (port : Bool) : ItemWritten s (setStateItem s c u n v port) c u n v := by
  by_cases hhigh : 136 ≤ n
  · exact setStateItem_high s c u v port hhigh
  by_cases hptr : 128 ≤ n
  · rw [setStateItem_ptr s c u v port hptr (by omega)]
    refine itemWritten_modStrand s c u hptr rfl rfl (fun p => ?_)
    by_cases hp : p = n - 128
    · rw [hp, ptr_setPtr_self, ptrAfter, if_pos (by omega)]
    · rw [ptr_setPtr_ne _ _ hp, ptrAfter, if_neg (by omega)]; rfl
  by_cases hin : n < windowSize (getStrand s c u)
  · rw [setStateItem_window v port hin (by omega)]
    refine ⟨itemFrame_modCore s c u rfl rfl, ?_, fun p => ?_⟩
    · rw [getCore_modCore_self, fileAfter, if_pos ⟨by omega, hin⟩]
    · rw [getStrand, getCore_modCore_self, ptrAfter, if_neg (by omega)]; rfl
  · rw [setStateItem_outside v port (by omega) (by omega)]
    exact itemWritten_refl s c u (fun e => hin e.2) (fun e => hptr e.1)

/-! What items say (Table 6.7). -/

/-- Items are what the strands, the register file and the cycle say. -/
theorem itemHolds_congr {s t : State} {c u i : Nat} {v : Word} (hnow : t.now = s.now) (hstrand : getStrand t c u = getStrand s c u)
    (hfile : (getCore t c).rf = (getCore s c).rf) (h : ItemHolds t c u i v) : ItemHolds s c u i v := by
  unfold ItemHolds at h ⊢
  rw [hnow, hstrand, hfile] at h
  exact h

theorem stateItem_window {s : State} {c u i : Nat} (hi : i < windowSize (getStrand s c u)) (h : i < 128) :
    stateItem s c u i = getK 0 (getCore s c).rf ((getStrand s c u).base + i) := by
  unfold stateItem
  dsimp only
  rw [if_pos h]
  exact if_pos hi

/-- The notes of an instruction under way whose pointer is about to be written. -/
theorem wait_setStateItem_ptr (s : State) (c u : Nat) {n : Nat} (v : Word) (port : Bool) (h : 128 ≤ n) (h' : n < 136) :
    (getStrand (setStateItem s c u n v port) c u).wait = ((getStrand s c u).noteWas (n - 128)).wait := by
  rw [setStateItem_ptr s c u v port h h', getStrand_modStrand_self]; rfl

/-- An item of the strand's own that is no pointer leaves its wait. -/
theorem wait_setStateItem_own (s : State) (c u : Nat) {n : Nat} (v : Word) (port : Bool) (hn : n < 139) (h : ¬(128 ≤ n ∧ n < 136)) :
    (getStrand (setStateItem s c u n v port) c u).wait = (getStrand s c u).wait := by
  by_cases hlow : n < 128
  · by_cases hin : n < windowSize (getStrand s c u)
    · rw [setStateItem_window v port hin hlow, getStrand, getCore_modCore_self]; rfl
    · rw [setStateItem_outside v port (by omega) hlow]
  · unfold setStateItem
    dsimp only
    rw [if_neg hlow, if_neg (by omega)]
    by_cases h136 : n = 136
    · rw [if_pos h136, getStrand_modStrand_self]
    · rw [if_neg h136, if_pos (by omega), getStrand_modStrand_self]; rfl

/-- A note is made once. -/
theorem wait_noteWas {x : Strand} {w : Wait} (p : Nat) (hw : x.wait = some w) (hnew : ∀ e ∈ w.was, e.1 ≠ p) :
    (x.noteWas p).wait = some { w with was := w.was ++ [(p, x.ptr p)] } := by
  have hnone : ¬ w.was.any (fun y => y.1 == p) = true := by
    simp only [List.any_eq_true, beq_iff_eq, not_exists, not_and]
    exact hnew
  rw [Strand.noteWas, hw]
  exact congrArg some (if_neg hnone)

/-! The writes that a `wmt` makes at its issue (R151). -/

/-- The issue of a `wmt` writes one item, if only the target's own instructions change it. -/
def issueWrite (c u first : Nat) (ws : Nat → Word) (s : State) (i : Nat) : State :=
  if ownItem (first + i) then setStateItem s c u (first + i) (ws i) false else s

/-- The state after the first `k` items have been written at the issue. -/
structure IssueWritten (s t : State) (c u first : Nat) (ws : Nat → Word) (k : Nat) : Prop where
  frame : ItemFrame s t c u
  file : ∀ i, i < k → first + i < 128 → getK 0 (getCore t c).rf ((getStrand s c u).base + first + i) = ws i
  ptrs : ∀ i, i < k → 128 ≤ first + i → first + i < 136 → (getStrand t c u).ptr (first + i - 128) = ws i
  others : ∀ p, (∀ i, i < k → first + i ≠ 128 + p) → (getStrand t c u).ptr p = (getStrand s c u).ptr p
  notes : ∀ w, waitOf s c u = some w → w.was = [] → ∃ y, waitOf t c u = some y ∧
    (∀ i, i < k → 128 ≤ first + i → first + i < 136 → (first + i - 128, (getStrand s c u).ptr (first + i - 128)) ∈ y.was) ∧
    ∀ e ∈ y.was, ∃ i, i < k ∧ first + i = 128 + e.1

section
variable {s t : State} {c u first k : Nat} {ws : Nat → Word}

theorem issueWritten_zero (s : State) (c u first : Nat) (ws : Nat → Word) : IssueWritten s s c u first ws 0 := by
  refine ⟨itemFrame_refl s c u, fun _ h => absurd h (Nat.not_lt_zero _), fun _ h => absurd h (Nat.not_lt_zero _), fun _ _ => rfl, fun w hw hwas => ?_⟩
  exact ⟨w, hw, fun _ h => absurd h (Nat.not_lt_zero _), fun e he => by rw [hwas] at he; cases he⟩

/-- Of the notes, one more pointer may be about to be written. -/
theorem issueWritten_notes (h : IssueWritten s t c u first ws k) (hown : first + k < 139) {w : Wait} (hw : waitOf s c u = some w)
    (hwas : w.was = []) : ∃ y, waitOf (setStateItem t c u (first + k) (ws k) false) c u = some y ∧
      (∀ i, i < k + 1 → 128 ≤ first + i → first + i < 136 → (first + i - 128, (getStrand s c u).ptr (first + i - 128)) ∈ y.was) ∧
      ∀ e ∈ y.was, ∃ i, i < k + 1 ∧ first + i = 128 + e.1 := by
  obtain ⟨y, hy, hnoted, hfrom⟩ := h.notes w hw hwas
  have hfrom' : ∀ e ∈ y.was, ∃ i, i < k + 1 ∧ first + i = 128 + e.1 := fun e he => by
    obtain ⟨i, hi, he⟩ := hfrom e he
    exact ⟨i, by omega, he⟩
  by_cases hptr : 128 ≤ first + k ∧ first + k < 136
  · obtain ⟨hlo, hhi⟩ := hptr
    have hnew : ∀ e ∈ y.was, e.1 ≠ first + k - 128 := fun e he => by
      obtain ⟨i, hi, he⟩ := hfrom e he
      omega
    have hold : (getStrand t c u).ptr (first + k - 128) = (getStrand s c u).ptr (first + k - 128) := h.others _ (fun i hi => by omega)
    refine ⟨_, (wait_setStateItem_ptr t c u (ws k) false hlo hhi).trans (wait_noteWas _ hy hnew), fun i hi h1 h2 => ?_, fun e he => ?_⟩
    · by_cases hik : i = k
      · rw [hik, hold]
        exact List.mem_append_right _ List.mem_cons_self
      · exact List.mem_append_left _ (hnoted i (by omega) h1 h2)
    · rcases List.mem_append.1 he with he | he
      · exact hfrom' e he
      · rw [List.mem_singleton] at he
        exact ⟨k, by omega, by rw [he]; dsimp only; omega⟩
  · refine ⟨y, (wait_setStateItem_own t c u (ws k) false hown hptr).trans hy, fun i hi h1 h2 => ?_, hfrom'⟩
    exact hnoted i (by rcases Nat.lt_succ_iff_lt_or_eq.1 hi with hlt | rfl; exacts [hlt, absurd ⟨h1, h2⟩ hptr]) h1 h2

/-- One more item is written at the issue. -/
theorem issueWritten_succ (h : IssueWritten s t c u first ws k) (hin : first + k < 128 → first + k < windowSize (getStrand s c u)) :
    IssueWritten s (issueWrite c u first ws t k) c u first ws (k + 1) := by
  unfold issueWrite
  by_cases hown : first + k < 139
  · rw [if_pos (show ownItem (first + k) = true from decide_eq_true hown)]
    obtain ⟨hframe, hfile, hptrs⟩ := setStateItem_written t c u (first + k) (ws k) false
    refine ⟨itemFrame_trans h.frame hframe, fun i hi hlow => ?_, fun i hi h1 h2 => ?_, fun p hp => ?_, fun w hw hwas => issueWritten_notes h hown hw hwas⟩
    · rw [hfile, fileAfter, itemFrame_windowSize h.frame, itemFrame_base h.frame]
      by_cases hik : i = k
      · subst hik
        rw [if_pos ⟨hlow, hin hlow⟩, Nat.add_assoc, getK_setK_self]
      · have hi' := h.file i (by omega) hlow
        split
        · rw [getK_setK_ne _ _ _ (by omega), hi']
        · exact hi'
    · rw [hptrs, ptrAfter]
      by_cases hik : i = k
      · subst hik
        rw [if_pos (by omega)]
      · rw [if_neg (by omega)]
        exact h.ptrs i (by omega) h1 h2
    · rw [hptrs, ptrAfter, if_neg (fun e => hp k (by omega) e.1)]
      exact h.others p (fun i hi => hp i (by omega))
  · rw [if_neg (by unfold ownItem; simpa using hown)]
    refine ⟨h.frame, fun i hi hlow => h.file i (by omega) hlow, fun i hi h1 h2 => h.ptrs i (by omega) h1 h2,
      fun p hp => h.others p (fun i hi => hp i (by omega)), fun w hw hwas => ?_⟩
    obtain ⟨y, hy, hnoted, hfrom⟩ := h.notes w hw hwas
    exact ⟨y, hy, fun i hi h1 h2 => hnoted i (by omega) h1 h2, fun e he => (hfrom e he).imp (fun i hi => ⟨by omega, hi.2⟩)⟩

theorem issueWritten_foldl (s : State) {c u first : Nat} {ws : Nat → Word} {n : Nat}
    (hin : ∀ i, i < n → first + i < 128 → first + i < windowSize (getStrand s c u)) :
    ∀ k, k ≤ n → IssueWritten s ((List.range k).foldl (issueWrite c u first ws) s) c u first ws k
  | 0, _ => issueWritten_zero s c u first ws
  | k + 1, hk => by
    rw [List.range_succ, List.foldl_append]
    exact issueWritten_succ (issueWritten_foldl s hin k (by omega)) (hin k (by omega))

end

end Sys2Proof.Proofs
end

section
namespace Sys2Proof.Proofs

open Sys2Proof Sys2Proof.Machine Sys2Proof.Laws Sys2Proof.Claims

/-! `wmf` and `wmt` at their issue (R151). -/

theorem exec_wmf (x : Args) (s : State) : exec (.wmf x) s = execWmf x s := rfl
theorem exec_wmt (x : Args) (s : State) : exec (.wmt x) s = execWmt x s := rfl

theorem checkArea_misaligned {s : State} {cx : Ctx} {off : Word} {align : Nat} (h : off.toNat % align ≠ 0) (n : Nat) :
    checkArea s cx off align n = some (0x03, wd (cx.core * 0x80000) + off) := if_pos (by simpa using h)

/-- An item of the window that the target does not have. -/
theorem checkItems_outside {s : State} {cx : Ctx} {off : Word} {t first count : Nat} (harea : checkArea s cx off 8 (8 * count) = none)
    (h : ∃ i, i < count ∧ first + i < 128 ∧ windowSize (getStrand s cx.core t) ≤ first + i) :
    checkItems s cx off t first count = some (0x19, 0) := by
  obtain ⟨i, hi, hlow, hout⟩ := h
  have hany : ((List.range count).any fun i => decide (first + i < 128) && decide (windowSize (getStrand s cx.core t) ≤ first + i)) = true :=
    List.any_eq_true.2 ⟨i, List.mem_range.2 hi, by simp [hlow, hout]⟩
  rw [checkItems, harea]
  rw [if_pos hany]
  rfl

theorem checkItems_none {s : State} {cx : Ctx} {off : Word} {t first count : Nat} (harea : checkArea s cx off 8 (8 * count) = none)
    (h : ∀ i, i < count → first + i < 128 → first + i < windowSize (getStrand s cx.core t)) : checkItems s cx off t first count = none := by
  have hany : ¬ ((List.range count).any fun i => decide (first + i < 128) && decide (windowSize (getStrand s cx.core t) ≤ first + i)) = true := by
    simp only [List.any_eq_true, List.mem_range, Bool.and_eq_true, decide_eq_true_eq, not_exists, not_and]
    exact fun i hi hlow hout => absurd (h i hi hlow) (by omega)
  rw [checkItems, harea]
  rw [if_neg hany]
  rfl

theorem checkItems_misaligned {s : State} {cx : Ctx} {off : Word} (h : off.toNat % 8 ≠ 0) (t first count : Nat) :
    checkItems s cx off t first count = some (0x03, wd (cx.core * 0x80000) + off) := by
  rw [checkItems, checkArea_misaligned h]; rfl

/-- The fields of the instruction's second operand (R151). -/
abbrev moveTarget (x : Args) (s : State) : Nat := bits (src s x.b) 3 0
abbrev moveFirst (x : Args) (s : State) : Nat := bits (src s x.b) 15 8

/-- The word that a `wmt` is to load for its item `i`. -/
def storeWord (x : Args) (s : State) (i : Nat) : Word := wd (ofBytes (lsBytes s s.cur.core ((src s x.a).toNat + 8 * i) 8))

/-- The first `n` items that the instruction names, as they stand, and the words that it names in the store. -/
def itemsNow (x : Args) (s : State) (n : Nat) : List Word :=
  (List.range n).map (fun i => stateItem s s.cur.core (moveTarget x s) (moveFirst x s + i))
def wordsNow (x : Args) (s : State) (n : Nat) : List Word := (List.range n).map (storeWord x s)

/-- The state in which a `wmt` of `n` items has written what the target's instruction in flight may still write. -/
def putIssued (x : Args) (s : State) (n : Nat) : State :=
  (List.range n).foldl (issueWrite s.cur.core (moveTarget x s) (moveFirst x s) (storeWord x s)) s

/-- A move of items before it is noted. -/
def moveAsked (x : Args) (s : State) (put : Bool) (n : Nat) (vs : List Word) : ItemMove :=
  { cx := s.cur, put, target := moveTarget x s, first := moveFirst x s, count := n, off := (src s x.a).toNat, vals := vs }

section
variable {x : Args} {s : State} {n : BitVec 7} (h0 : s.cur.strand = 0) (hc : x.c = .num n) (h : Performs s x)
include h0 hc h

theorem exec_wmf_issue : exec (.wmf x) s = .next (orTrap s s.cur
    (checkItems s s.cur (src s x.a) (moveTarget x s) (moveFirst x s) (n.toNat + 1)) (moveItems s (.wmf x) (moveAsked x s false (n.toNat + 1)
      (itemsNow x s (n.toNat + 1))))) := by
  rw [exec_of_performs (exec_wmf x s) (privileged_of_eq h0) h]
  dsimp only
  rw [countOf, hc]
  rfl

theorem exec_wmt_issue : exec (.wmt x) s = .next (orTrap s s.cur
    (checkItems s s.cur (src s x.a) (moveTarget x s) (moveFirst x s) (n.toNat + 1)) (moveItems (putIssued x s (n.toNat + 1)) (.wmt x)
      (moveAsked x s true (n.toNat + 1) (wordsNow x s (n.toNat + 1))))) := by
  have hzip : (wordsNow x s (n.toNat + 1)).zip (List.range (n.toNat + 1)) =
      (List.range (n.toNat + 1)).map (fun i => (storeWord x s i, i)) := by
    unfold wordsNow
    simpa using List.zip_map' (f := storeWord x s) (g := id) (l := List.range (n.toNat + 1))
  have hfold : putIssued x s (n.toNat + 1) = ((wordsNow x s (n.toNat + 1)).zip (List.range (n.toNat + 1))).foldl
      (fun s' (v, i) => if ownItem (moveFirst x s + i) then setStateItem s' s.cur.core (moveTarget x s) (moveFirst x s + i) v false else s') s := by
    rw [hzip, List.foldl_map]; rfl
  rw [exec_of_performs (exec_wmt x s) (privileged_of_eq h0) h, hfold]
  dsimp only
  rw [countOf, hc]
  rfl

/-- Both trap on what the checks of R151 find. -/
theorem moves_trap {cause : Byte} {info : Word}
    (hbad : checkItems s s.cur (src s x.a) (moveTarget x s) (moveFirst x s) (n.toNat + 1) = some (cause, info)) {i : Instr}
    (hi : i ∈ [Instr.wmf x, .wmt x]) : TrapsWith i s cause info s.cur.addr := by
  simp only [List.mem_cons, List.not_mem_nil, or_false] at hi
  rcases hi with rfl | rfl
  · exact trapsWith_of_exec ((exec_wmf_issue h0 hc h).trans (by rw [hbad]; rfl))
  · exact trapsWith_of_exec ((exec_wmt_issue h0 hc h).trans (by rw [hbad]; rfl))

end

/-! A move under way. -/

section
variable (s : State) (i : Instr) (m : ItemMove)

theorem moveItems_core : getCore (moveItems s i m) m.cx.core =
    { getCore (leaveFlight s i m.cx) m.cx.core with moves := (getCore s m.cx.core).moves ++ [{ m with base := s.now + 3 }] } := by
  have hmoves : (getCore (leaveFlight s i m.cx) m.cx.core).moves = (getCore s m.cx.core).moves := by
    rw [leaveFlight, leave, getCore_modStrand_self]; rfl
  rw [moveItems, getCore_modCore_self, hmoves]

theorem moveItems_strand (d w : Nat) : getStrand (moveItems s i m) d w = getStrand (leaveFlight s i m.cx) d w := by
  by_cases hd : d = m.cx.core
  · subst hd; rw [getStrand, moveItems_core]; rfl
  · rw [getStrand, moveItems, getCore_modCore_ne _ _ hd]; rfl

theorem moveItems_ne {d w : Nat} (hne : ¬(d = m.cx.core ∧ w = m.cx.strand)) : getStrand (moveItems s i m) d w = getStrand s d w := by
  rw [moveItems_strand]; exact getStrand_modStrand_ne _ _ hne

theorem moveItems_bytes : BytesSame s (moveItems s i m) :=
  bytesSame_trans (leave_bytes s .waiting .flight false i .none m.cx) (bytesSame_modCore _ rfl)

theorem moveItems_reads : ReadsSame (leaveFlight s i m.cx) (moveItems s i m) m.cx where
  now := rfl
  file := by rw [moveItems_core]
  shared r _ := by rw [moveItems_core]
  window := by rw [moveItems_strand]
  ptrs := by rw [moveItems_strand]
  preds := by rw [moveItems_strand]
  kidx := by rw [moveItems_strand]

/-- Whatever the move, the strand that is its target keeps its pointers. -/
theorem moveItems_ptr (d w p : Nat) : (getStrand (moveItems s i m) d w).ptr p = (getStrand s d w).ptr p := by
  by_cases hne : d = m.cx.core ∧ w = m.cx.strand
  · obtain ⟨rfl, rfl⟩ := hne
    rw [moveItems_strand, leaveFlight, getStrand_leave_self]; rfl
  · rw [moveItems_ne s i m hne]

end

theorem moveItems_leaves (s : State) (i : Instr) {m : ItemMove} (hcx : m.cx = s.cur) : Leaves s (moveItems s i m) .waiting .flight false := by
  obtain ⟨hstate, hwait, hpc, hstrand, hregs⟩ := leave_leaves s .waiting .flight false i .none
  have hcur : curStrand (moveItems s i m) = curStrand (leave s .waiting .flight false i s.cur .none) := by
    have hsame := moveItems_strand s i m s.cur.core s.cur.strand
    rw [hcx] at hsame
    exact hsame
  have hreads := (moveItems_reads s i m).rd
  rw [hcx] at hreads
  exact ⟨hcur ▸ hstate, hcur ▸ hwait, hcur ▸ hpc, hcur ▸ hstrand, fun p => (hreads p).trans (hregs p)⟩

section
variable {x : Args} {s : State} {n : BitVec 7} (h0 : s.cur.strand = 0) (hc : x.c = .num n) (h : Performs s x)
  (hgood : checkItems s s.cur (src s x.a) (moveTarget x s) (moveFirst x s) (n.toNat + 1) = none)
include h0 hc h hgood

/-- `wmf` leaves the rotation with the items as they stand. -/
theorem wmf_moves : ∃ t vs, exec (.wmf x) s = .next t ∧ Leaves s t .waiting .flight false ∧ BytesSame s t ∧ t.pend = s.pend ∧
    (curCore t).moves = (curCore s).moves ++ [moveOf s false (src s x.a).toNat (moveTarget x s) (moveFirst x s) (n.toNat + 1) vs] ∧
    ∀ i, i < n.toNat + 1 → ∃ v, ItemHolds s s.cur.core (moveTarget x s) (moveFirst x s + i) v ∧ vs[i]? = some v := by
  have hexec := exec_wmf_issue h0 hc h
  rw [hgood] at hexec
  refine ⟨_, itemsNow x s (n.toNat + 1), hexec, moveItems_leaves s (.wmf x) rfl, moveItems_bytes .., rfl, ?_, fun i hi => ⟨_, stateItem_holds .., ?_⟩⟩
  · exact (congrArg Core.moves (moveItems_core s (.wmf x) (moveAsked x s false (n.toNat + 1) (itemsNow x s (n.toNat + 1)))) :)
  · rw [itemsNow, List.getElem?_map, List.getElem?_range hi]; rfl

/-- `wmt` leaves the rotation with the target's own items written. -/
theorem wmt_moves (hin : ∀ i, i < n.toNat + 1 → moveFirst x s + i < 128 → moveFirst x s + i < windowSize (getStrand s s.cur.core (moveTarget x s))) :
    ∃ t vs, exec (.wmt x) s = .next t ∧ BytesSame s t ∧ (curStrand t).st = .waiting ∧ t.pend = s.pend ∧
      (curCore t).moves = (curCore s).moves ++ [moveOf s true (src s x.a).toNat (moveTarget x s) (moveFirst x s) (n.toNat + 1) vs] ∧
      (∀ i, i < n.toNat + 1 → vs[i]? = some (storeWord x s i)) ∧
      (∀ i, i < n.toNat + 1 → moveFirst x s + i < 128 →
        getK 0 (curCore t).rf ((getStrand s s.cur.core (moveTarget x s)).base + moveFirst x s + i) = storeWord x s i) ∧
      (∀ i, i < n.toNat + 1 → 128 ≤ moveFirst x s + i → moveFirst x s + i < 136 →
        (getStrand t s.cur.core (moveTarget x s)).ptr (moveFirst x s + i - 128) = storeWord x s i ∧
        ∀ w, moveTarget x s ≠ 0 → waitOf s s.cur.core (moveTarget x s) = some w → w.was = [] →
          ∃ y, waitOf t s.cur.core (moveTarget x s) = some y ∧
            (moveFirst x s + i - 128, (getStrand s s.cur.core (moveTarget x s)).ptr (moveFirst x s + i - 128)) ∈ y.was) ∧
      ∀ v, v ≠ 0 → v ≠ moveTarget x s → getStrand t s.cur.core v = getStrand s s.cur.core v := by
  have hexec := exec_wmt_issue h0 hc h
  rw [hgood] at hexec
  let u := putIssued x s (n.toNat + 1)
  let m := moveAsked x s true (n.toNat + 1) (wordsNow x s (n.toNat + 1))
  obtain ⟨hframe, hfile, hptrs, -, hnotes⟩ := issueWritten_foldl (first := moveFirst x s) (ws := storeWord x s) s hin _ le_rfl
  change ItemFrame s u s.cur.core (moveTarget x s) at hframe
  have hcur : u.cur = s.cur := (congrArg State.cur hframe.outside :)
  have hnow : u.now = s.now := (congrArg State.now hframe.outside :)
  have hcore := moveItems_core u (.wmt x) m
  have hother {d w : Nat} (hw : w ≠ 0) : getStrand (moveItems u (.wmt x) m) d w = getStrand u d w :=
    moveItems_ne u (.wmt x) m (fun e => hw (e.2.trans h0))
  have hself := getStrand_leave_self u .waiting .flight false (.wmt x) .none s.cur
  have hmoves : (getCore u s.cur.core).moves = (curCore s).moves := (congrArg Core.moves hframe.core :)
  refine ⟨_, wordsNow x s (n.toNat + 1), hexec, bytesSame_trans (itemFrame_bytes hframe) (moveItems_bytes ..), ?_, (congrArg State.pend hframe.outside :), ?_, fun i hi => ?_,
    fun i hi hlow => ?_, fun i hi hlo hhi => ⟨?_, fun w hu hw hwas => ?_⟩, fun v h1 h2 => ?_⟩
  · change (getStrand (moveItems u (.wmt x) m) u.cur.core u.cur.strand).st = .waiting
    rw [hcur, moveItems_strand]
    exact (congrArg Strand.st hself :)
  · change (getCore (moveItems u (.wmt x) m) u.cur.core).moves = _
    rw [hcur]
    exact (congrArg Core.moves hcore).trans (by rw [show (getCore u m.cx.core).moves = (curCore s).moves from hmoves, hnow]; rfl)
  · rw [wordsNow, List.getElem?_map, List.getElem?_range hi]; rfl
  · change getK 0 (getCore (moveItems u (.wmt x) m) u.cur.core).rf _ = _
    rw [hcur]
    have hrf : (getCore (moveItems u (.wmt x) m) s.cur.core).rf = (getCore u s.cur.core).rf := by
      refine (congrArg Core.rf hcore).trans ?_
      rw [leaveFlight, leave]
      exact (congrArg Core.rf (getCore_modStrand_self ..) :)
    rw [hrf]
    exact hfile i hi hlow
  · exact (moveItems_ptr ..).trans (hptrs i hi hlo hhi)
  · obtain ⟨y, hy, hnoted, -⟩ := hnotes w hw hwas
    refine ⟨y, ?_, hnoted i hi hlo hhi⟩
    exact (congrArg Strand.wait (hother hu) :).trans hy
  · exact (hother h1).trans (hframe.others.2 v h2)

end

theorem transfersIssue : TransfersIssue := by
  intro x s n h0 hc hperf
  refine ⟨fun hoff i hi => moves_trap h0 hc hperf (checkItems_misaligned hoff _ _ _) hi, fun harea => ⟨fun hout i hi => ?_, fun hin => ?_⟩⟩
  · exact moves_trap h0 hc hperf (checkItems_outside harea hout) hi
  · have hgood := checkItems_none (t := moveTarget x s) (first := moveFirst x s) harea hin
    exact ⟨wmf_moves h0 hc hperf hgood, wmt_moves h0 hc hperf hgood hin⟩

end Sys2Proof.Proofs
end

section
namespace Sys2Proof.Proofs

open Sys2Proof Sys2Proof.Machine Sys2Proof.Laws Sys2Proof.Claims

/-! A run of a move (R151): its items, one after another. -/

/-- A run is what its first items do, one after another. -/
theorem foldl_run (f : State → Nat → State) (m : ItemMove) (s : State) :
    m.run.foldl f s = (List.range (min 4 (m.count - m.moved))).foldl (fun s i => f s (m.moved + i)) s := by
  rw [ItemMove.run, List.foldl_map]

/-- The state after the first `k` items of a run have been recorded in the store. -/
structure Recorded (s t : State) (m : ItemMove) (k : Nat) : Prop where
  outside : OutsideSame s t
  others : ∀ d, d ≠ m.cx.core → getCore t d = getCore s d
  core : { getCore t m.cx.core with ls := [] } = { getCore s m.cx.core with ls := [] }
  items : ∀ i, i < k → ∃ v, (v = nth 0 m.vals (m.moved + i) ∨ ItemHolds s m.cx.core m.target (m.first + (m.moved + i)) v) ∧
    lsBytes t m.cx.core (m.off + 8 * (m.moved + i)) 8 = toBytes 8 v.toNat
  rest : ∀ e a, ¬(e = m.cx.core ∧ m.off + 8 * m.moved ≤ a ∧ a < m.off + 8 * (m.moved + k)) → lsRead t e a = lsRead s e a

/-- A store of bytes is read elsewhere as before. -/
theorem lsRead_lsWrite_out (s : State) {c off e a : Nat} {bs : List Byte} (h : ¬(e = c ∧ off ≤ a ∧ a < off + bs.length)) :
    lsRead (lsWrite s c off bs) e a = lsRead s e a := by
  by_cases he : e = c
  · subst he
    rw [lsRead, lsWrite, getCore_modCore_self]
    exact read_writeN_out _ _ _ _ (by omega)
  · rw [lsRead, lsWrite, getCore_modCore_ne _ _ he]; rfl

theorem lsBytes_lsWrite_self (s : State) (c off v : Nat) : lsBytes (lsWrite s c off (toBytes 8 v)) c off 8 = toBytes 8 v := by
  have h := readN_writeN (toBytes 8 v) (getCore s c).ls off
  rw [length_toBytes] at h
  rw [lsBytes, lsWrite, getCore_modCore_self]
  exact h

theorem lsBytes_lsWrite_out (s : State) (c : Nat) {off a n : Nat} {bs : List Byte} (h : a + n ≤ off ∨ off + bs.length ≤ a) :
    lsBytes (lsWrite s c off bs) c a n = lsBytes s c a n := by
  rw [lsBytes, lsWrite, getCore_modCore_self]
  exact readN_writeN_out _ _ _ _ _ h

/-- What `wmf` records of an item. -/
def recordedWord (m : ItemMove) (s : State) (i : Nat) : Word :=
  if pickOf s 42 i 0 1 = 0 then nth 0 m.vals i else stateItem s m.cx.core m.target (m.item i)

theorem recordItem_eq (m : ItemMove) (s : State) (i : Nat) :
    recordItem m s i = lsWrite s m.cx.core (m.off + 8 * i) (toBytes 8 (recordedWord m s i).toNat) := rfl

theorem recorded_succ {s t : State} {m : ItemMove} {k : Nat} (h : Recorded s t m k) : Recorded s (recordItem m t (m.moved + k)) m (k + 1) := by
  obtain ⟨houtside, hothers, hcore, hitems, hrest⟩ := h
  have hword : recordedWord m t (m.moved + k) = nth 0 m.vals (m.moved + k) ∨
      ItemHolds s m.cx.core m.target (m.first + (m.moved + k)) (recordedWord m t (m.moved + k)) := by
    unfold recordedWord
    split
    · exact .inl rfl
    · refine .inr (itemHolds_congr (t := t) (congrArg State.now houtside :) ?_ (congrArg Core.rf hcore :) (stateItem_holds t m.cx.core m.target _))
      exact (congrArg (Core.strand · m.target) hcore :)
  rw [recordItem_eq]
  refine ⟨houtside, fun d hd => (getCore_modCore_ne _ _ hd).trans (hothers d hd), ?_, fun i hi => ?_, fun e a ha => ?_⟩
  · rw [lsWrite, getCore_modCore_self]; exact hcore
  · by_cases hik : i = k
    · subst hik
      exact ⟨_, hword, lsBytes_lsWrite_self ..⟩
    · obtain ⟨v, hv, hbytes⟩ := hitems i (by omega)
      exact ⟨v, hv, (lsBytes_lsWrite_out _ _ (.inl (by omega))).trans hbytes⟩
  · rw [lsRead_lsWrite_out _ (by rw [length_toBytes]; omega), hrest e a (by omega)]

theorem recorded_foldl (s : State) (m : ItemMove) :
    ∀ k, Recorded s ((List.range k).foldl (fun s i => recordItem m s (m.moved + i)) s) m k
  | 0 => ⟨rfl, fun _ _ => rfl, rfl, fun _ h => absurd h (Nat.not_lt_zero _), fun _ _ _ => rfl⟩
  | k + 1 => by
    rw [List.range_succ, List.foldl_append]
    exact recorded_succ (recorded_foldl s m k)

/-- The state after the first `k` items of a run have been written to the strand. -/
structure Put (s t : State) (m : ItemMove) (k : Nat) : Prop where
  frame : ItemFrame s t m.cx.core m.target
  items : ∀ i, i < k → m.first + (m.moved + i) < windowSize (getStrand s m.cx.core m.target) → m.first + (m.moved + i) < 128 →
    getK 0 (getCore t m.cx.core).rf ((getStrand s m.cx.core m.target).base + (m.first + (m.moved + i))) =
      if getK 0 (getCore s m.cx.core).rf ((getStrand s m.cx.core m.target).base + (m.first + (m.moved + i))) = nth 0 m.vals (m.moved + i)
      then m.loaded s (m.moved + i)
      else getK 0 (getCore s m.cx.core).rf ((getStrand s m.cx.core m.target).base + (m.first + (m.moved + i)))
  rest : ∀ n, (∀ i, i < k → n ≠ m.first + (m.moved + i)) →
    getK 0 (getCore t m.cx.core).rf ((getStrand s m.cx.core m.target).base + n) =
      getK 0 (getCore s m.cx.core).rf ((getStrand s m.cx.core m.target).base + n)

/-- An item is written, or left to the target's own instruction. -/
theorem writeItem_cases (m : ItemMove) (s : State) (i : Nat) : ∃ t, writeItem m s i = t ∧ ItemFrame s t m.cx.core m.target ∧
    (∀ n, n ≠ m.item i → getK 0 (getCore t m.cx.core).rf ((getStrand s m.cx.core m.target).base + n) =
      getK 0 (getCore s m.cx.core).rf ((getStrand s m.cx.core m.target).base + n)) := by
  refine ⟨_, rfl, ?_⟩
  unfold writeItem
  dsimp only
  split
  · exact ⟨itemFrame_refl .., fun _ _ => rfl⟩
  · obtain ⟨hframe, hfile, -⟩ := setStateItem_written s m.cx.core m.target (m.item i) (m.loaded s i) false
    refine ⟨hframe, fun n hn => ?_⟩
    rw [hfile, fileAfter]
    split
    · exact getK_setK_ne _ _ _ (by omega)
    · rfl

/-- A window item is written unless it no longer is what the issue wrote. -/
theorem writeItem_window {m : ItemMove} {s : State} {i : Nat} (hin : m.item i < windowSize (getStrand s m.cx.core m.target)) (hlow : m.item i < 128) :
    getK 0 (getCore (writeItem m s i) m.cx.core).rf ((getStrand s m.cx.core m.target).base + m.item i) =
      if getK 0 (getCore s m.cx.core).rf ((getStrand s m.cx.core m.target).base + m.item i) = nth 0 m.vals i then m.loaded s i
      else getK 0 (getCore s m.cx.core).rf ((getStrand s m.cx.core m.target).base + m.item i) := by
  have hfile (v : Word) : getK 0 (getCore (setStateItem s m.cx.core m.target (m.item i) v false) m.cx.core).rf
      ((getStrand s m.cx.core m.target).base + m.item i) = v := by
    rw [(setStateItem_written ..).file, fileAfter, if_pos ⟨hlow, hin⟩, getK_setK_self]
  have hframe := (setStateItem_written s m.cx.core m.target (m.item i) (nth 0 m.vals i) false).frame
  have hmine : stateItem (setStateItem s m.cx.core m.target (m.item i) (nth 0 m.vals i) false) m.cx.core m.target (m.item i) = nth 0 m.vals i := by
    rw [stateItem_window (by rw [itemFrame_windowSize hframe]; exact hin) hlow, itemFrame_base hframe, hfile]
  have hown : ownItem (m.item i) = true := decide_eq_true (by omega)
  unfold writeItem
  dsimp only
  rw [hown, hmine, stateItem_window hin hlow, Bool.true_and]
  by_cases heq : getK 0 (getCore s m.cx.core).rf ((getStrand s m.cx.core m.target).base + m.item i) = nth 0 m.vals i
  · rw [if_pos heq, if_neg (fun e => bne_iff_ne.1 e heq.symm), hfile]
  · rw [if_neg heq, if_pos (bne_iff_ne.2 (fun e => heq e.symm))]

theorem loaded_congr {s t : State} {c u : Nat} (h : ItemFrame s t c u) (m : ItemMove) (i : Nat) : m.loaded t i = m.loaded s i := by
  rw [ItemMove.loaded, lsBytes, itemFrame_ls h]; rfl

theorem put_succ {s t : State} {m : ItemMove} {k : Nat} (h : Put s t m k) : Put s (writeItem m t (m.moved + k)) m (k + 1) := by
  obtain ⟨hframe, hitems, hrest⟩ := h
  obtain ⟨_, rfl, hframe', hother⟩ := writeItem_cases m t (m.moved + k)
  rw [itemFrame_base hframe] at hother
  refine ⟨itemFrame_trans hframe hframe', fun i hi hin hlow => ?_, fun n hn => ?_⟩
  · by_cases hik : i = k
    · subst hik
      have hwritten := writeItem_window (m := m) (s := t) (i := m.moved + i) (by rw [itemFrame_windowSize hframe]; exact hin) hlow
      rw [itemFrame_base hframe, loaded_congr hframe] at hwritten
      rw [← hrest (m.first + (m.moved + i)) (fun j hj => by omega)]
      exact hwritten
    · rw [hother _ (by unfold ItemMove.item; omega)]
      exact hitems i (by omega) hin hlow
  · rw [hother n (hn k (by omega)), hrest n (fun i hi => hn i (by omega))]

theorem put_foldl (s : State) (m : ItemMove) : ∀ k, Put s ((List.range k).foldl (fun s i => writeItem m s (m.moved + i)) s) m k
  | 0 => ⟨itemFrame_refl .., fun _ h => absurd h (Nat.not_lt_zero _), fun _ _ => rfl⟩
  | k + 1 => by
    rw [List.range_succ, List.foldl_append]
    exact put_succ (put_foldl s m k)

/-- The machine after a run's items have moved. -/
def runMoved (s : State) (m : ItemMove) : State := m.run.foldl (if m.put then writeItem m else recordItem m) s

theorem runMoved_get (s : State) {m : ItemMove} (h : m.put = false) : Recorded s (runMoved s m) m (min 4 (m.count - m.moved)) := by
  rw [runMoved, foldl_run, h]
  exact recorded_foldl s m _

theorem runMoved_put (s : State) {m : ItemMove} (h : m.put = true) : Put s (runMoved s m) m (min 4 (m.count - m.moved)) := by
  rw [runMoved, foldl_run, h]
  exact put_foldl s m _

theorem runMoved_outside (s : State) (m : ItemMove) : OutsideSame s (runMoved s m) := by
  cases hput : m.put with
  | false => exact (runMoved_get s hput).outside
  | true => exact (runMoved_put s hput).frame.outside

/-- The moves of the core without this one, and with what is left of it. -/
def movesLeft (s : State) (m : ItemMove) (rest : List ItemMove) : State :=
  modCore s m.cx.core (fun k => { k with moves := k.moves.filter (fun x => x.cx != m.cx) ++ rest })

theorem movesLeft_moves (s : State) (m : ItemMove) (rest : List ItemMove) :
    (getCore (movesLeft s m rest) m.cx.core).moves = (getCore s m.cx.core).moves.filter (fun x => x.cx != m.cx) ++ rest := by
  rw [movesLeft, getCore_modCore_self]

theorem afterItems_last {s : State} {m : ItemMove} (h : m.count ≤ m.moved + 4) : afterItems s m =
    sched (movesLeft (runMoved s m) m []) (runMoved s m).now (.stateTransferComplete { cx := m.cx } m.target) := if_pos h

theorem afterItems_more {s : State} {m : ItemMove} (h : m.moved + 4 < m.count) : afterItems s m =
    movesLeft (runMoved s m) m [{ m with moved := m.moved + 4, base := (runMoved s m).now + 1 - (m.moved + 4) / 4, done := [] }] :=
  if_neg (by omega)

/-- What a run leaves in the store and the register file is what its items leave. -/
theorem afterItems_core (s : State) (m : ItemMove) (d : Nat) :
    (getCore (afterItems s m) d).ls = (getCore (runMoved s m) d).ls ∧ (getCore (afterItems s m) d).rf = (getCore (runMoved s m) d).rf := by
  have hleft (rest : List ItemMove) : (getCore (movesLeft (runMoved s m) m rest) d).ls = (getCore (runMoved s m) d).ls ∧
      (getCore (movesLeft (runMoved s m) m rest) d).rf = (getCore (runMoved s m) d).rf := by
    by_cases hd : d = m.cx.core
    · subst hd; rw [movesLeft, getCore_modCore_self]; exact ⟨rfl, rfl⟩
    · rw [movesLeft, getCore_modCore_ne _ _ hd]; exact ⟨rfl, rfl⟩
  by_cases h : m.count ≤ m.moved + 4
  · rw [afterItems_last h]; exact hleft []
  · rw [afterItems_more (by omega)]; exact hleft _

theorem transfersRun : TransfersRun := by
  intro s m hmoved hlen
  have hlast : m.moved + min 4 (m.count - m.moved) = min m.count (m.moved + 4) := by omega
  have hnow : (runMoved s m).now = s.now := (congrArg State.now (runMoved_outside s m) :)
  have hpend : (runMoved s m).pend = s.pend := (congrArg State.pend (runMoved_outside s m) :)
  have hls (e a : Nat) : lsRead (afterItems s m) e a = lsRead (runMoved s m) e a := by
    rw [lsRead, (afterItems_core s m e).1]; rfl
  refine ⟨fun hput => ⟨fun i hlo hhi => ?_, fun e a ha => ?_⟩, fun hput => ⟨fun e a => ?_, fun i hlo hhi hin hlow => ?_⟩, fun hmore => ?_, fun hend => ?_⟩
  · obtain ⟨v, hv, hbytes⟩ := (runMoved_get s hput).items (i - m.moved) (by omega)
    rw [show m.moved + (i - m.moved) = i by omega] at hv hbytes
    refine ⟨v, hv, ?_⟩
    rw [lsBytes, (afterItems_core s m _).1]
    exact hbytes
  · rw [hls, (runMoved_get s hput).rest e a (by rw [hlast]; exact ha)]
  · rw [hls]
    exact (itemFrame_bytes (runMoved_put s hput).frame).2 e a
  · have hitem := (runMoved_put s hput).items (i - m.moved) (by omega)
    rw [show m.moved + (i - m.moved) = i by omega] at hitem
    rw [(afterItems_core s m _).2]
    exact hitem hin hlow
  · rw [afterItems_more hmore, hnow]
    refine ⟨hpend, ?_⟩
    rw [movesLeft_moves]
    exact List.mem_append_right _ List.mem_cons_self
  · rw [afterItems_last hend, hnow]
    refine ⟨congrArg (· ++ _) hpend, fun y hy => ?_⟩
    have hy' : y ∈ (getCore (movesLeft (runMoved s m) m []) m.cx.core).moves := hy
    rw [movesLeft_moves, List.append_nil] at hy'
    simpa using (List.mem_filter.1 hy').2

/-! A pointer that a `wmt` has written (R151, R191). -/

theorem exec_vectorComplete (d : Done) (s : State) : exec (.vectorComplete d) s = execVectorComplete d s := rfl
theorem exec_selectionComplete (d : Done) (s : State) : exec (.selectionComplete d) s = execSelectionComplete d s := rfl
theorem exec_stateTransferComplete (d : Done) (u : Nat) (s : State) : exec (.stateTransferComplete d u) s = execStateTransferComplete d u s := rfl
theorem exec_nodeOperationComplete (d : Done) (s : State) : exec (.nodeOperationComplete d) s = execNodeOperationComplete d s := rfl
theorem exec_windowOperationComplete (d : Done) (s : State) : exec (.windowOperationComplete d) s = execWindowOperationComplete d s := rfl

theorem dropJob_strand (s : State) (su : Bool) (cx : Ctx) (d w : Nat) : getStrand (dropJob s su cx) d w = getStrand s d w :=
  (congrArg (Core.strand · w) (modUnit_core s cx.core su _ d) :)

/-- Every completion finishes its instruction, in a machine whose unit has let it go. -/
theorem completions_finish {s : State} {d : Done} (h : stillWaits s d.cx = true) (target : Nat) {i : Instr} (hi : i ∈ completions d target) :
    ∃ u, exec i s = .next (finishDone u d) ∧ ∀ e w, getStrand u e w = getStrand s e w := by
  have hdrop (su : Bool) : stillWaits (dropJob s su d.cx) d.cx = true := by
    rw [stillWaits, dropJob_strand]; exact h
  simp only [completions, List.mem_cons, List.not_mem_nil, or_false] at hi
  rcases hi with rfl | rfl | rfl | rfl | rfl
  · exact ⟨_, (exec_vectorComplete d s).trans (congrArg Host.Outcome.next (if_pos (hdrop false))), dropJob_strand s false d.cx⟩
  · exact ⟨_, (exec_selectionComplete d s).trans (congrArg Host.Outcome.next (if_pos (hdrop true))), dropJob_strand s true d.cx⟩
  · exact ⟨_, (exec_stateTransferComplete d target s).trans (congrArg Host.Outcome.next (if_pos h)), fun _ _ => rfl⟩
  · exact ⟨_, (exec_nodeOperationComplete d s).trans (congrArg Host.Outcome.next (if_pos h)), fun _ _ => rfl⟩
  · exact ⟨_, (exec_windowOperationComplete d s).trans (congrArg Host.Outcome.next (if_pos h)), fun _ _ => rfl⟩

/-- A pointer advances from where it stood at the issue. -/
def advancedFrom (n : Nat) (inc : Word) (x : Strand) : Strand :=
  (x.ptrAtIssue n).setPtr n (advanceW ((x.ptrAtIssue n).ptr n) inc)

theorem advancedFrom_ptr {x : Strand} {w : Wait} {n : Nat} {inc v : Word} (hw : x.wait = some w) (hwas : w.was = [(n, v)]) :
    (advancedFrom n inc x).ptr n = advanceW v inc := by
  have hissue : (x.ptrAtIssue n).ptr n = v := by
    rw [Strand.ptrAtIssue, hw]
    simp [hwas, getK]
  rw [advancedFrom, ptr_setPtr_self, hissue]

theorem advancedFrom_undisturbed {x : Strand} (n : Nat) (inc : Word) (h : Undisturbed x) : Undisturbed (advancedFrom n inc x) := by
  unfold advancedFrom Strand.ptrAtIssue
  split <;> exact h

theorem advanceOverrides : AdvanceOverrides := by
  intro s d n inc v target hawaits hval hptrs hnoted i hi
  obtain ⟨w, hw, hwas⟩ := hnoted
  obtain ⟨u, hexec, hstrand⟩ := completions_finish hawaits.1 target hi
  have happly : finishDone u d = complete (modStrand u d.cx.core d.cx.strand (advancedFrom n.toNat inc)) d.cx := by
    rw [finishDone, hval, hptrs]; rfl
  have hself : getStrand (modStrand u d.cx.core d.cx.strand (advancedFrom n.toNat inc)) d.cx.core d.cx.strand =
      advancedFrom n.toNat inc (getStrand s d.cx.core d.cx.strand) := by
    rw [getStrand_modStrand_self, hstrand]
  obtain ⟨hframe, hgoes⟩ := completeAt_frame (modStrand u d.cx.core d.cx.strand (advancedFrom n.toNat inc)) d.cx (nextPc d.cx)
    (by rw [hself]; exact advancedFrom_undisturbed _ _ hawaits.2)
  refine ⟨_, hexec.trans (congrArg Host.Outcome.next happly), ?_, hgoes⟩
  refine (registerFrame_rd_none hframe _).trans ?_
  exact (congrArg (Strand.ptr · n.toNat) hself).trans (advancedFrom_ptr hw hwas)

end Sys2Proof.Proofs

open Sys2Proof Sys2Proof.Machine Sys2Proof.Laws Sys2Proof.Proofs

/-- Settles O36: the issue (`transfersIssue`), a run's items one after another (`transfersRun`), and the advance that overrides a `wmt`
(`advanceOverrides`). -/
theorem stateTransfers : Obligations.StateTransfers := ⟨transfersIssue, transfersRun, advanceOverrides⟩
end

section
namespace Sys2Proof.Proofs

open Sys2Proof Sys2Proof.Machine Sys2Proof.Laws Sys2Proof.Claims

/-! The context cache (R141). -/

theorem find?_setK_self {α : Type} (l : List (Nat × α)) (k : Nat) (v : α) : (setK l k v).find? (fun x => x.1 == k) = some (k, v) := by
  induction l with
  | nil => simp [setK]
  | cons e l ih =>
    obtain ⟨j, u⟩ := e
    unfold setK
    by_cases hlt : k < j
    · simp [hlt]
    · by_cases heq : k = j
      · simp [heq]
      · rw [if_neg hlt, if_neg heq, List.find?_cons_of_neg (by simpa using Ne.symm heq), ih]

/-- A core's entries are those of its context cache. -/
theorem getCc_congr {s t : State} {c : Nat} (h : (getCore t c).cc = (getCore s c).cc) (i : Nat) : getCc t c i = getCc s c i := by
  rw [getCc, h]; rfl

theorem getCc_setCc_self (s : State) (c : Nat) (e : CcEnt) : getCc (setCc s c e) c (e.key % 32) = some e := by
  rw [getCc, setCc, getCore_modCore_self]
  exact congrArg (Option.map _) (find?_setK_self ..)

theorem ccHolds_of_key {s : State} {c key : Nat} {e : CcEnt} (he : getCc s c (key % 32) = some e) (hkey : e.key = key) :
    ccHolds s c key = true := by
  simp [ccHolds, he, hkey]

theorem loadCc_of_holds {s : State} {cx : Ctx} {key : Nat} (h : ccHolds s cx.core key = true) : loadCc s cx key = (s, true) := if_pos h

/-- An image that the cache holds takes no transfer (R142). -/
theorem swapCost_of_holds {s : State} {c key : Nat} (h : ccHolds s c key = true) (n sub : Nat) :
    swapCost s c n key sub = 10 + (n + 3) / 4 := by
  rw [swapCost, if_pos h]; rfl

theorem peekImage_of_key {s : State} {cx : Ctx} {key : Nat} {e : CcEnt} (he : getCc s cx.core (key % 32) = some e) (hkey : e.key = key) :
    peekImage s cx key = some e.img := by
  rw [peekImage, he]; exact if_pos hkey

/-! The conditions of a swap. -/

theorem canSwapOut_iff (s : State) (c u : Nat) : canSwapOut s c u = true ↔ Movable s c u := by
  simp [canSwapOut, Movable, and_assoc, or_assoc]

theorem windowOk_iff (k : Core) (u base limit : Nat) : windowOk k u base limit = true ↔ WindowFits k u base limit := by
  simp only [windowOk, WindowFits, Bool.and_eq_true, List.all_eq_true, List.mem_range, Bool.or_eq_true, beq_iff_eq, decide_eq_true_eq,
    Strand.live, Bool.not_eq_true', bne_eq_false_iff_eq, and_assoc]
  have hclear : (∀ v, v < 16 → ((v = u ∨ (k.strand v).st = .free) ∨ (k.strand v).limit ≤ base) ∨ limit ≤ (k.strand v).base) ↔
      ∀ v, v < 16 → v ≠ u → (k.strand v).st ≠ .free → (k.strand v).limit ≤ base ∨ limit ≤ (k.strand v).base := by
    refine forall_congr' (fun v => forall_congr' (fun _ => ?_))
    tauto
  rw [hclear]

theorem tagValid_iff (w : Word) {key : Nat} (hkey : key < 65536) : tagValid w key = true ↔ bit w 63 = true ∧ bits w 15 0 = key := by
  rw [tagValid, Nat.mod_eq_of_lt hkey, Bool.and_eq_true, beq_iff_eq]

theorem tagWord_fields {n st key : Nat} (hn : n < 2048) (hst : st < 16) (hkey : key < 65536) :
    tagValid (tagWord n st key) key = true ∧ tagN (tagWord n st key) = n ∧ tagState (tagWord n st key) = st := by
  rw [tagValid_iff _ hkey]
  simp only [bit, bits, tagN, tagState, tagWord, wd, BitVec.toNat_ofNat, Nat.testBit_eq_decide_div_mod_eq, decide_eq_true_eq]
  refine ⟨⟨?_, ?_⟩, ?_, ?_⟩ <;> omega

theorem code_lt (st : StrandState) : st.code < 16 := by
  cases st <;> decide

/-- The window of a context that comes in. -/
theorem winWord_fields {x : Strand} {base limit : Nat} (h : x.get 4 = winWord base limit) (hbase : base < 2048) (hlimit : limit ≤ 2048) :
    x.base = base ∧ x.limit = limit := by
  simp only [Strand.base, Strand.limit, h, winWord, wd, bits, BitVec.toNat_ofNat]
  constructor <;> omega

/-! Slots. -/

/-- Every bound slot of a core is changed by `f`. -/
def slotsChanged (s : State) (c : Nat) (f : Slot → Slot) : State := (List.range 28).foldl (fun s i => modSlot s c (i + 4) f) s

theorem modSlot_core (s : State) (c m : Nat) (f : Slot → Slot) (d : Nat) :
    { getCore (modSlot s c m f) d with slots := [] } = { getCore s d with slots := [] } := by
  unfold modSlot
  by_cases hd : d = c
  · subst hd; rw [getCore_modCore_self]
  · rw [getCore_modCore_ne _ _ hd]

theorem getSlot_modSlot (s : State) (c m : Nat) (f : Slot → Slot) (n : Nat) :
    getSlot (modSlot s c m f) c n = if n = m then f (getSlot s c n) else getSlot s c n := by
  rw [getSlot, modSlot, getCore_modCore_self]
  refine (getK_setK ..).trans ?_
  by_cases h : n = m
  · subst h; rfl
  · rw [if_neg h, if_neg h]; rfl

/-- After the first `k` slots have been changed. -/
theorem slotsChanged_upTo (s : State) (c : Nat) (f : Slot → Slot) : ∀ k, ∀ t, t = (List.range k).foldl (fun s i => modSlot s c (i + 4) f) s →
    OutsideSame s t ∧ (∀ d, { getCore t d with slots := [] } = { getCore s d with slots := [] }) ∧
      ∀ n, getSlot t c n = if 4 ≤ n ∧ n < k + 4 then f (getSlot s c n) else getSlot s c n
  | 0 => by
    rintro t rfl
    exact ⟨rfl, fun _ => rfl, fun n => (if_neg (by omega)).symm⟩
  | k + 1 => by
    rintro t rfl
    obtain ⟨houtside, hcore, hslot⟩ := slotsChanged_upTo s c f k _ rfl
    rw [List.range_succ, List.foldl_append]
    refine ⟨houtside, fun d => (modSlot_core ..).trans (hcore d), fun n => (getSlot_modSlot ..).trans ?_⟩
    rw [hslot]
    by_cases h : n = k + 4
    · rw [if_pos h, if_neg (by omega), if_pos (by omega)]
    · rw [if_neg h]
      exact if_congr (by omega) rfl rfl

theorem getSlot_slotsChanged (s : State) (c : Nat) (f : Slot → Slot) {m : Nat} (h : 4 ≤ m) (h' : m < 32) :
    getSlot (slotsChanged s c f) c m = f (getSlot s c m) := by
  have hslot := (slotsChanged_upTo s c f 28 _ rfl).2.2 m
  rwa [if_pos ⟨h, h'⟩] at hslot

theorem slotsChanged_core (s : State) (c : Nat) (f : Slot → Slot) (d : Nat) :
    { getCore (slotsChanged s c f) d with slots := [] } = { getCore s d with slots := [] } := (slotsChanged_upTo s c f 28 _ rfl).2.1 d

/-- What a core keeps besides its slots. -/
theorem slotsChanged_keeps {α : Type} {g : Core → α} (hg : ∀ k, g { k with slots := [] } = g k) (s : State) (c : Nat) (f : Slot → Slot) (d : Nat) :
    g (getCore (slotsChanged s c f) d) = g (getCore s d) := by
  rw [← hg, slotsChanged_core, hg]

theorem slotsChanged_outside (s : State) (c : Nat) (f : Slot → Slot) : OutsideSame s (slotsChanged s c f) := (slotsChanged_upTo s c f 28 _ rfl).1

/-! What the move of a context leaves. -/

/-- The strands of the core but `u`, every byte, and what the issue of an instruction looks at, are as before. -/
structure SwapFrame (s t : State) (c u : Nat) : Prop where
  now : t.now = s.now
  pend : t.pend = s.pend
  cur : t.cur = s.cur
  bytes : BytesSame s t
  others : ∀ v, v ≠ u → getStrand t c v = getStrand s c v

theorem swapFrame_refl (s : State) (c u : Nat) : SwapFrame s s c u := ⟨rfl, rfl, rfl, bytesSame_refl s, fun _ _ => rfl⟩

theorem swapFrame_trans {s t r : State} {c u : Nat} (h : SwapFrame s t c u) (k : SwapFrame t r c u) : SwapFrame s r c u :=
  ⟨k.now.trans h.now, k.pend.trans h.pend, k.cur.trans h.cur, bytesSame_trans h.bytes k.bytes, fun v hv => (k.others v hv).trans (h.others v hv)⟩

theorem swapFrame_modStrand (s : State) (c u : Nat) (f : Strand → Strand) : SwapFrame s (modStrand s c u f) c u :=
  ⟨rfl, rfl, rfl, bytesSame_modStrand .., fun _ hv => getStrand_modStrand_ne _ _ (fun e => hv e.2)⟩

theorem swapFrame_of_outside {s t : State} {c u : Nat} (houtside : OutsideSame s t) (hls : ∀ d, (getCore t d).ls = (getCore s d).ls)
    (hothers : ∀ v, v ≠ u → getStrand t c v = getStrand s c v) : SwapFrame s t c u :=
  ⟨(congrArg State.now houtside :), (congrArg State.pend houtside :), (congrArg State.cur houtside :),
    bytesSame_of_ls (congrArg State.mem houtside :) hls, hothers⟩

theorem swapFrame_of_itemFrame {s t : State} {c u : Nat} (h : ItemFrame s t c u) : SwapFrame s t c u :=
  swapFrame_of_outside h.outside (itemFrame_ls h) h.others.2

theorem swapFrame_of_slots {s t : State} {c u : Nat} (houtside : OutsideSame s t)
    (hcore : ∀ d, { getCore t d with slots := [] } = { getCore s d with slots := [] }) : SwapFrame s t c u :=
  swapFrame_of_outside houtside (fun d => (congrArg Core.ls (hcore d) :)) (fun v _ => (congrArg (Core.strand · v) (hcore c) :))

theorem swapFrame_slotsChanged (s : State) (c u : Nat) (f : Slot → Slot) : SwapFrame s (slotsChanged s c f) c u :=
  swapFrame_of_slots (slotsChanged_outside s c f) (slotsChanged_core s c f)

theorem swapFrame_setCc (s : State) (c u : Nat) (e : CcEnt) : SwapFrame s (setCc s c e) c u :=
  ⟨rfl, rfl, rfl, bytesSame_modCore s rfl, fun v _ => by rw [getStrand, setCc, getCore_modCore_self]; rfl⟩

theorem swapFrame_tasks (s : State) (c u : Nat) (ts : List (Nat × Task)) : SwapFrame s { s with tasks := ts } c u :=
  ⟨rfl, rfl, rfl, bytesSame_refl s, fun _ _ => rfl⟩

/-- A core but for its strands and units' queues is as before a loose wait has been given up. -/
theorem abandonWait_core {s : State} {c u : Nat} (h : LooseWait (getStrand s c u)) (d : Nat) :
    { getCore (abandonWait s c u) d with strands := [], vuQ := [], suQ := [] } = { getCore s d with strands := [], vuQ := [], suQ := [] } := by
  cases hw : (getStrand s c u).wait with
  | none => rw [abandonWait_none hw]
  | some w =>
    rw [abandonWait_some hw, waitDropped_loose h hw]
    have hdrop := congrArg (fun k : Core => { k with strands := [] }) (dropUnits_core s w.cx d)
    by_cases hd : d = c
    · subst hd; rw [getCore_modStrand_self]; exact hdrop
    · rw [getCore_modStrand_ne _ _ _ hd]; exact hdrop

theorem swapFrame_abandonWait {s : State} {c u : Nat} (h : LooseWait (getStrand s c u)) : SwapFrame s (abandonWait s c u) c u := by
  refine ⟨abandonWait_now s c u, ?_, ?_, bytesSame_abandonWait h, fun v hv => getStrand_abandonWait_ne s (fun e => hv e.2)⟩ <;>
  · cases hw : (getStrand s c u).wait with
    | none => rw [abandonWait_none hw]
    | some w => rw [abandonWait_some hw, waitDropped_loose h hw]; rfl

/-! A swap under way. -/

/-- A swap whose move is made keeps strand 0 Waiting until it completes. -/
structure SwapUnderWay (s t r : State) (c u : Nat) (due : Nat) (job : SwapJob) : Prop where
  waiting : (curStrand r).st = .waiting
  bytes : BytesSame s r
  pend : r.pend = s.pend ++ [(due, .swapComplete job)]
  strand : getStrand r c u = getStrand t c u
  core : { getCore r c with strands := [] } = { getCore t c with strands := [] }

theorem finishSwap_underWay {s t : State} {c u : Nat} (hc : c = s.cur.core) (h : SwapFrame s t c u) (h0 : s.cur.strand = 0) (hu : u ≠ 0)
    (i : Instr) (dst : Opnd) (final cost : Nat) :
    SwapUnderWay s t (finishSwap t i s.cur dst u final cost) c u (s.now + cost) ⟨s.cur, dst, u, final⟩ := by
  subst hc
  refine ⟨?_, bytesSame_trans h.bytes (leave_bytes t .waiting .flight false i .none s.cur), ?_,
    getStrand_modStrand_ne _ _ (fun e => hu (e.2.trans h0)), leave_core t .waiting .flight false i .none s.cur⟩
  · change (getStrand (leaveFlight t i s.cur) t.cur.core t.cur.strand).st = .waiting
    rw [h.cur]
    exact congrArg Strand.st (getStrand_leave_self ..)
  · change t.pend ++ [(t.now + cost, _)] = _
    rw [h.pend, h.now]

section
variable {s t r : State} {c u due : Nat} {job : SwapJob} (h : SwapUnderWay s t r c u due job)
include h

theorem swapUnderWay_getCc (i : Nat) : getCc r c i = getCc t c i := getCc_congr (congrArg Core.cc h.core :) i

theorem swapUnderWay_getSlot (m : Nat) : getSlot r c m = getSlot t c m := (congrArg (fun k : Core => getK {} k.slots m) h.core :)

theorem swapUnderWay_file : (getCore r c).rf = (getCore t c).rf := (congrArg Core.rf h.core :)

end

end Sys2Proof.Proofs
end

section
namespace Sys2Proof.Proofs

open Sys2Proof Sys2Proof.Machine Sys2Proof.Laws Sys2Proof.Claims

/-! The out half of a swap (R141). -/

theorem exec_swap (x : Args) (s : State) : exec (.swap x) s = execSwap x s := rfl

/-- A strand that is swapped out stands, unless Trapped, at the address that giving up its wait leaves. -/
def epcLeft (s : State) (c u : Nat) : State :=
  if (getStrand s c u).st = .trapped then s else modStrand s c u (fun y => y.set 2 (low48 (abandonPc (getStrand s c u))))

/-- cr.epc of a strand that is swapped out. -/
def epcOut (x : Strand) : Word := if x.st = .trapped then x.get 2 else low48 (abandonPc x)

/-- The image over which one is written. -/
def imageUnder (s : State) (c key : Nat) : List Word :=
  match getCc s c (key % 32) with
  | some e => e.img
  | none => []

/-- The entry that a strand's image fills. -/
def entryOut (s : State) (c u key : Nat) : CcEnt := ⟨key, true, imageOfStrand (epcLeft s c u) c u key (imageUnder (epcLeft s c u) c key)⟩

/-- A slot of a strand that is swapped out is parked. -/
def parkedFor (u key : Nat) (task : Option Nat) (m : Slot) : Slot :=
  if m.owner = some u then { m with owner := none, parked := some key, parkTask := task } else m

/-- A task remembers its strand that is swapped out. -/
def awayNoted (s : State) (task : Option Nat) (c key : Nat) : State :=
  match task with
  | some r => modTask s r (fun k => { k with away := k.away ++ [(c, key)] })
  | none => s

/-- A strand whose context has gone. -/
def swappedOut (x : Strand) : Strand :=
  { x with st := .swapping, holdReq := false, holdPort := false, tmrHit := false, seq := none, held := [], fail := none }

/-- The machine whose cache has taken the image, the strand's wait given up. -/
def imageTaken (s : State) (c u key : Nat) : State := abandonWait (setCc (epcLeft s c u) c (entryOut s c u key)) c u

theorem swapOut_eq (s : State) (c u key : Nat) : swapOut s c u key =
    modStrand (awayNoted (slotsChanged (imageTaken s c u key) c (parkedFor u key (taskOf s c u))) (taskOf s c u) c key) c u swappedOut := rfl

section
variable (s : State) (c u key : Nat)

theorem epcLeft_self : getStrand (epcLeft s c u) c u = (if (getStrand s c u).st = .trapped then getStrand s c u
    else (getStrand s c u).set 2 (low48 (abandonPc (getStrand s c u)))) := by
  unfold epcLeft
  split
  · rfl
  · rw [getStrand_modStrand_self]

theorem epcLeft_core : { getCore (epcLeft s c u) c with strands := [] } = { getCore s c with strands := [] } := by
  unfold epcLeft
  split
  · rfl
  · rw [getCore_modStrand_self]; rfl

theorem epcLeft_frame : SwapFrame s (epcLeft s c u) c u := by
  unfold epcLeft
  split
  · exact swapFrame_refl s c u
  · exact swapFrame_modStrand ..

theorem epcLeft_get {n : Nat} (hn : n ≠ 2) : (getStrand (epcLeft s c u) c u).get n = (getStrand s c u).get n := by
  rw [epcLeft_self]
  split
  · rfl
  · exact get_set_ne _ _ hn

theorem epcLeft_epc : (getStrand (epcLeft s c u) c u).get 2 = epcOut (getStrand s c u) := by
  rw [epcLeft_self, epcOut]
  split
  · rfl
  · exact get_set_self ..

/-- Only the control registers know of the address. -/
theorem epcLeft_strand : { getStrand (epcLeft s c u) c u with cr := [] } = { getStrand s c u with cr := [] } := by
  rw [epcLeft_self]
  split <;> rfl

theorem epcLeft_st : (getStrand (epcLeft s c u) c u).st = (getStrand s c u).st := (congrArg Strand.st (epcLeft_strand s c u) :)

theorem epcLeft_base : (getStrand (epcLeft s c u) c u).base = (getStrand s c u).base := by
  rw [Strand.base, epcLeft_get s c u (by decide)]; rfl

theorem epcLeft_size : (getStrand (epcLeft s c u) c u).size = (getStrand s c u).size := by
  rw [Strand.size, Strand.limit, epcLeft_base, epcLeft_get s c u (by decide)]; rfl

theorem epcLeft_getCc (i : Nat) : getCc (epcLeft s c u) c i = getCc s c i := getCc_congr (congrArg Core.cc (epcLeft_core s c u) :) i

/-- Every item but cr.epc and cr.stat reads as before the address was set. -/
theorem epcLeft_holds {i : Nat} (h139 : i ≠ 139) (h146 : i ≠ 146) {v : Word} (h : ItemHolds (epcLeft s c u) c u i v) : ItemHolds s c u i v := by
  have hstrand := epcLeft_strand s c u
  have hfile : (getCore (epcLeft s c u) c).rf = (getCore s c).rf := (congrArg Core.rf (epcLeft_core s c u) :)
  have hptr (p : Nat) : (getStrand (epcLeft s c u) c u).ptr p = (getStrand s c u).ptr p := (congrArg (Strand.ptr · p) hstrand :)
  have hkreg (k : Nat) : (getStrand (epcLeft s c u) c u).kreg k = (getStrand s c u).kreg k := (congrArg (Strand.kreg · k) hstrand :)
  have hpreds : (getStrand (epcLeft s c u) c u).preds = (getStrand s c u).preds := (congrArg Strand.preds hstrand :)
  obtain ⟨hwindow, hp, hq, hk0, hk2, -, h140, h141, -, h155, h156, h158⟩ := h
  rw [epcLeft_st, epcLeft_size, epcLeft_base, hfile] at hwindow
  rw [hptr] at hp
  rw [hpreds] at hq
  rw [hkreg, hkreg] at hk0 hk2
  rw [epcLeft_get s c u (by decide)] at h140 h141 h155 h156 h158
  exact ⟨hwindow, hp, hq, hk0, hk2, fun h => absurd h h139, h140, h141, fun h => absurd h h146, h155, h156, h158⟩

/-! The image. -/

theorem nth_map_range (f : Nat → Word) {n i : Nat} (h : i < n) : nth 0 ((List.range n).map f) i = f i := by
  simp [nth, List.getD_eq_getElem?_getD, h]

theorem entryOut_tag : nth 0 (entryOut s c u key).img 159 =
    tagWord (getStrand s c u).size (if (getStrand s c u).st = .blocked then 1 else (getStrand s c u).st.code) key := by
  refine (nth_map_range _ (by decide)).trans ?_
  rw [if_pos rfl, epcLeft_size, epcLeft_st]

theorem entryOut_item {i : Nat} (h : i < 159) (h' : i < (getStrand s c u).size ∨ 128 ≤ i) :
    nth 0 (entryOut s c u key).img i = stateItem (epcLeft s c u) c u i := by
  refine (nth_map_range _ (by omega)).trans ?_
  rw [if_neg (by omega), if_neg (by rw [epcLeft_size]; omega)]

/-- Registers past the window keep what the entry held. -/
theorem entryOut_past {i : Nat} (h : i < 128) (h' : (getStrand s c u).size ≤ i) : nth 0 (entryOut s c u key).img i = nth 0 (imageUnder s c key) i := by
  refine (nth_map_range _ (by omega)).trans ?_
  rw [if_neg (by omega), if_pos (by rw [epcLeft_size]; omega), imageUnder, epcLeft_getCc]
  rfl

theorem entryOut_epc : nth 0 (entryOut s c u key).img 139 = epcOut (getStrand s c u) := by
  rw [entryOut_item s c u key (by decide) (.inr (by decide)), ← epcLeft_epc]
  rfl

end

section
variable {s : State} {c u : Nat} (hloose : LooseWait (getStrand s c u)) (key : Nat)
include hloose

theorem setCc_loose : LooseWait (getStrand (setCc (epcLeft s c u) c (entryOut s c u key)) c u) := by
  have hwait : (getStrand (setCc (epcLeft s c u) c (entryOut s c u key)) c u).wait = (getStrand s c u).wait := by
    rw [getStrand, setCc, getCore_modCore_self]
    exact (congrArg Strand.wait (epcLeft_strand s c u) :)
  intro w hw
  exact hloose w (hwait ▸ hw)

theorem imageTaken_frame : SwapFrame s (imageTaken s c u key) c u :=
  swapFrame_trans (swapFrame_trans (epcLeft_frame s c u) (swapFrame_setCc ..)) (swapFrame_abandonWait (setCc_loose hloose key))

theorem imageTaken_getCc : getCc (imageTaken s c u key) c (key % 32) = some (entryOut s c u key) :=
  (getCc_congr (congrArg Core.cc (abandonWait_core (setCc_loose hloose key) c) :) _).trans (getCc_setCc_self ..)

theorem imageTaken_getSlot (m : Nat) : getSlot (imageTaken s c u key) c m = getSlot s c m := by
  have habandon : (getCore (imageTaken s c u key) c).slots = (getCore (setCc (epcLeft s c u) c (entryOut s c u key)) c).slots :=
    (congrArg Core.slots (abandonWait_core (setCc_loose hloose key) c) :)
  have hepc : (getCore (epcLeft s c u) c).slots = (getCore s c).slots := (congrArg Core.slots (epcLeft_core s c u) :)
  rw [getSlot, habandon, setCc, getCore_modCore_self]
  exact congrArg (getK {} · m) hepc

end

theorem awayNoted_cores (s : State) (task : Option Nat) (c key : Nat) : (awayNoted s task c key).cores = s.cores := by
  cases task <;> rfl

theorem awayNoted_frame (s : State) (task : Option Nat) (c u key : Nat) : SwapFrame s (awayNoted s task c key) c u := by
  cases task
  · exact swapFrame_refl s c u
  · exact swapFrame_tasks ..

theorem getCore_of_cores {s t : State} (h : t.cores = s.cores) (d : Nat) : getCore t d = getCore s d := by
  rw [getCore, h]; rfl

/-- What the out half does: the image stands in the cache, the slots are parked, the strand is Swapping. -/
structure SwappedOut (s t : State) (c u key : Nat) : Prop where
  frame : SwapFrame s t c u
  entry : getCc t c (key % 32) = some (entryOut s c u key)
  state : (getStrand t c u).st = .swapping
  slots : ∀ m, 4 ≤ m → m < 32 → getSlot t c m = parkedFor u key (taskOf s c u) (getSlot s c m)

theorem swapOut_does {s : State} {c u : Nat} (hloose : LooseWait (getStrand s c u)) (key : Nat) :
    SwappedOut s (swapOut s c u key) c u key := by
  rw [swapOut_eq]
  generalize hparked : slotsChanged (imageTaken s c u key) c (parkedFor u key (taskOf s c u)) = p
  have hcc : (getCore p c).cc = (getCore (imageTaken s c u key) c).cc := by
    rw [← hparked]; exact slotsChanged_keeps (g := Core.cc) (fun _ => rfl) ..
  have hframe : SwapFrame (imageTaken s c u key) p c u := by
    rw [← hparked]; exact swapFrame_slotsChanged ..
  have hcore : getCore (awayNoted p (taskOf s c u) c key) c = getCore p c := getCore_of_cores (awayNoted_cores ..) c
  refine ⟨?_, ?_, ?_, fun m hlo hhi => ?_⟩
  · exact swapFrame_trans (swapFrame_trans (swapFrame_trans (imageTaken_frame hloose key) hframe) (awayNoted_frame ..)) (swapFrame_modStrand ..)
  · rw [← imageTaken_getCc hloose key]
    refine getCc_congr ?_ _
    rw [getCore_modStrand_self, hcore]
    exact hcc
  · rw [getStrand_modStrand_self]; rfl
  · rw [getSlot, getCore_modStrand_self, hcore]
    have hslot := getSlot_slotsChanged (imageTaken s c u key) c (parkedFor u key (taskOf s c u)) hlo hhi
    rw [hparked, imageTaken_getSlot hloose] at hslot
    exact hslot

/-! Issue of a swap (R150). -/

section
variable {x : Args} {s : State} (h0 : s.cur.strand = 0) (h : Performs s x)
include h0 h

/-- Strand, operation and keys that a swap names. -/
theorem swap_malformed (hbad : bits (src s x.a) 5 4 = 0 ∨ bits (src s x.a) 3 0 = 0) :
    exec (.swap x) s = .next (finish s s.cur x.a 1) := by
  rw [exec_of_performs (exec_swap x s) (privileged_of_eq h0) h]
  exact congrArg Host.Outcome.next (if_pos hbad)

section
variable (hu : bits (src s x.a) 3 0 ≠ 0)
include hu

theorem swap_in_issue (hop : bits (src s x.a) 5 4 = 2) : exec (.swap x) s =
    .next (if (getStrand s s.cur.core (bits (src s x.a) 3 0)).live then finish s s.cur x.a 2
      else swapHalf s (.swap x) s.cur x.a (bits (src s x.a) 3 0) (bits (src s x.a) 26 16) (bits (src s x.b) 31 16)
        (bit (src s x.a) 6) false 0) := by
  rw [exec_of_performs (exec_swap x s) (privileged_of_eq h0) h]
  have hgood : ¬(bits (src s x.a) 5 4 = 0 ∨ bits (src s x.a) 3 0 = 0) := by omega
  refine congrArg Host.Outcome.next ((if_neg hgood).trans ((if_pos hop).trans ?_))
  rw [if_neg (show ¬ bits (rd s s.cur x.a) 5 4 = 3 from fun e => absurd (e.symm.trans hop) (by decide))]

theorem swap_out_refused (hop : bits (src s x.a) 5 4 = 1 ∨ bits (src s x.a) 5 4 = 3)
    (hstay : ¬ Movable s s.cur.core (bits (src s x.a) 3 0)) : exec (.swap x) s = .next (finish s s.cur x.a 2) := by
  rw [exec_of_performs (exec_swap x s) (privileged_of_eq h0) h]
  have hgood : ¬(bits (src s x.a) 5 4 = 0 ∨ bits (src s x.a) 3 0 = 0) := by omega
  have hcan : (!canSwapOut s s.cur.core (bits (src s x.a) 3 0)) = true := by
    rw [← canSwapOut_iff] at hstay
    simpa using hstay
  have hout : ¬ bits (src s x.a) 5 4 = 2 := by omega
  exact congrArg Host.Outcome.next ((if_neg hgood).trans ((if_neg hout).trans (if_pos hcan)))

theorem swap_out_issue (hop : bits (src s x.a) 5 4 = 1) (hgoes : Movable s s.cur.core (bits (src s x.a) 3 0))
    (hholds : ccHolds s s.cur.core (bits (src s x.b) 15 0) = true) : exec (.swap x) s =
    .next (finishSwap (swapOut s s.cur.core (bits (src s x.a) 3 0) (bits (src s x.b) 15 0)) (.swap x) s.cur x.a (bits (src s x.a) 3 0) 0
      (10 + ((getStrand s s.cur.core (bits (src s x.a) 3 0)).size + 3) / 4)) := by
  rw [exec_of_performs (exec_swap x s) (privileged_of_eq h0) h]
  have hgood : ¬(bits (src s x.a) 5 4 = 0 ∨ bits (src s x.a) 3 0 = 0) := by omega
  have hcan : ¬(!canSwapOut s s.cur.core (bits (src s x.a) 3 0)) = true := by
    rw [(canSwapOut_iff ..).2 hgoes]; decide
  have hout : ¬ bits (src s x.a) 5 4 = 2 := by omega
  have hnone (early : Nat) :
      ¬((if bits (src s x.a) 5 4 = 3 ∧ bits (src s x.b) 31 16 ≠ bits (src s x.b) 15 0 then early else 0) != 0) = true := by
    rw [hop]; simp
  refine congrArg Host.Outcome.next ((if_neg hgood).trans ((if_neg hout).trans ((if_neg hcan).trans ((if_neg (hnone _)).trans ?_))))
  rw [loadCc_of_holds hholds, swapCost_of_holds hholds]
  exact if_pos hop

end

end

/-- The status of a strand that may not move, or that the swap does not name. -/
theorem swap_refuses_two {x : Args} {s : State} (h0 : s.cur.strand = 0) (h : Performs s x) (hrot : InRotation s) (hu : bits (src s x.a) 3 0 ≠ 0)
    (hop : bits (src s x.a) 5 4 = 2) (hlive : (getStrand s s.cur.core (bits (src s x.a) 3 0)).st ≠ .free) : Gives (.swap x) s x.a 2 := by
  have hlive' : (getStrand s s.cur.core (bits (src s x.a) 3 0)).live = true := by simpa [Strand.live] using hlive
  have hexec := swap_in_issue h0 h hu hop
  rw [if_pos hlive'] at hexec
  exact gives_of_finish hexec hrot

/-- A strand that may move goes out to an entry that the cache holds for its key. -/
theorem swap_goes_out {x : Args} {s : State} (h0 : s.cur.strand = 0) (h : Performs s x) {c u out : Nat} (hc : c = s.cur.core)
    (hu' : u = bits (src s x.a) 3 0) (hout : out = bits (src s x.b) 15 0) (hu : u ≠ 0) (hop : bits (src s x.a) 5 4 = 1)
    (hgoes : Movable s c u) (hloose : LooseWait (getStrand s c u)) (hsize : (getStrand s c u).size ≤ 128) {e : CcEnt}
    (he : getCc s c (out % 32) = some e) (hkey : e.key = out) :
    ∃ t f, exec (.swap x) s = .next t ∧ (curStrand t).st = .waiting ∧ BytesSame s t ∧
      t.pend = s.pend ++ [(s.now + 10 + ((getStrand s c u).size + 3) / 4, .swapComplete ⟨s.cur, x.a, u, 0⟩)] ∧
      getCc t c (out % 32) = some f ∧ f.key = out ∧ f.dirty = true ∧
      (∀ i, i < 159 → i < (getStrand s c u).size ∨ 128 ≤ i → i ≠ 139 → i ≠ 146 → ItemHolds s c u i (nth 0 f.img i)) ∧
      (∀ i, (getStrand s c u).size ≤ i → i < 128 → nth 0 f.img i = nth 0 e.img i) ∧
      nth 0 f.img 139 = (if (getStrand s c u).st = .trapped then (getStrand s c u).get 2 else low48 (abandonPc (getStrand s c u))) ∧
      tagValid (nth 0 f.img 159) out = true ∧ tagN (nth 0 f.img 159) = (getStrand s c u).size ∧
      tagState (nth 0 f.img 159) = (if (getStrand s c u).st = .blocked then 1 else (getStrand s c u).st.code) ∧
      (getStrand t c u).st = .swapping ∧
      ∀ m, 4 ≤ m → m < 32 → (getSlot s c m).owner = some u →
        (getSlot t c m).owner = none ∧ (getSlot t c m).parked = some out ∧ (getSlot t c m).val = (getSlot s c m).val ∧
          (getSlot t c m).present = (getSlot s c m).present := by
  have hexec := swap_out_issue h0 h (hu' ▸ hu) hop (hc ▸ hu' ▸ hgoes) (ccHolds_of_key (hc ▸ hout ▸ he) (hout ▸ hkey))
  rw [← hc, ← hu', ← hout] at hexec
  obtain ⟨hframe, hentry, hstate, hslots⟩ := swapOut_does hloose out
  have hway := finishSwap_underWay hc hframe h0 hu (.swap x) x.a 0 (10 + ((getStrand s c u).size + 3) / 4)
  have hstrand := hway.strand
  have hcc := swapUnderWay_getCc hway (out % 32)
  have hslot := swapUnderWay_getSlot hway
  have hcode : (if (getStrand s c u).st = .blocked then 1 else (getStrand s c u).st.code) < 16 := by
    split
    · decide
    · exact code_lt _
  have hout16 : out < 65536 := hout ▸ bits_lt (src s x.b) 15 0
  obtain ⟨hvalid, htagN, htagState⟩ := tagWord_fields (n := (getStrand s c u).size) (by omega) hcode hout16
  rw [← entryOut_tag s c u out] at hvalid htagN htagState
  refine ⟨_, entryOut s c u out, hexec, hway.waiting, hway.bytes, ?_, hcc.trans hentry, rfl, rfl, fun i hi hin h139 h146 => ?_, fun i hpast hi => ?_,
    entryOut_epc s c u out, hvalid, htagN, htagState, hstrand ▸ hstate, fun m hlo hhi howner => ?_⟩
  · rw [hway.pend, Nat.add_assoc]
  · rw [entryOut_item s c u out hi hin]
    exact epcLeft_holds s c u h139 h146 (stateItem_holds ..)
  · rw [entryOut_past s c u out hi hpast, imageUnder, he]
  · rw [hslot, hslots m hlo hhi, parkedFor, if_pos howner]
    exact ⟨rfl, rfl, rfl, rfl⟩

end Sys2Proof.Proofs
end

section
namespace Sys2Proof.Proofs

open Sys2Proof Sys2Proof.Machine Sys2Proof.Laws Sys2Proof.Claims

/-! The in half of a swap (R141): the items of a context. -/

theorem inStatus_cases {s : State} {c u base key : Nat} {img : List Word} (hkey : key < 65536) :
    (¬(bit (nth 0 img 159) 63 = true ∧ bits (nth 0 img 159) 15 0 = key) → inStatus s c u base key img = 3) ∧
    (bit (nth 0 img 159) 63 = true → bits (nth 0 img 159) 15 0 = key →
      (¬ WindowFits (getCore s c) u base (base + tagN (nth 0 img 159)) → inStatus s c u base key img = 4) ∧
      (WindowFits (getCore s c) u base (base + tagN (nth 0 img 159)) → inStatus s c u base key img = 0)) := by
  refine ⟨fun hbad => ?_, fun hvalid hown => ⟨fun hwindow => ?_, fun hwindow => ?_⟩⟩
  · rw [← tagValid_iff _ hkey] at hbad
    exact if_pos (by simpa using hbad)
  all_goals
    have htag : ¬(!tagValid (nth 0 img 159) key) = true := by rw [(tagValid_iff _ hkey).2 ⟨hvalid, hown⟩]; decide
    rw [← windowOk_iff] at hwindow
    refine (if_neg htag).trans ?_
  · exact if_pos (by simpa using hwindow)
  · exact if_neg (by simpa using hwindow)

section
variable {s : State} {i : Instr} {cx : Ctx} {dst : Opnd} {u base key : Nat} {hold out : Bool} {cost : Nat}

/-- A context that may not come in. -/
theorem swapHalf_refused {img : List Word} {status : Nat} (hpeek : peekImage s cx key = some img)
    (hstatus : inStatus s cx.core u base key img = status) (h : status ≠ 0) :
    swapHalf s i cx dst u base key hold out cost = finish s cx dst (wd status) := by
  unfold swapHalf
  rw [hpeek]
  dsimp only
  rw [hstatus]
  exact if_pos (bne_iff_ne.2 h)

/-- A context that the cache holds comes in at once. -/
theorem swapHalf_cached {e : CcEnt} (he : getCc s cx.core (key % 32) = some e) (hkey : e.key = key)
    (hstatus : inStatus s cx.core u base key e.img = 0) : swapHalf s i cx dst u base key hold out cost =
      finishSwap (swapIn s cx.core u base key e.img) i cx dst u (finalState hold e.img) (cost + (10 + (tagN (nth 0 e.img 159) + 3) / 4)) := by
  have hholds := ccHolds_of_key he hkey
  unfold swapHalf
  rw [peekImage_of_key he hkey]
  dsimp only
  rw [hstatus, loadCc_of_holds hholds]
  refine (if_neg (by decide)).trans ?_
  dsimp only
  rw [he, swapCost_of_holds hholds]

end

/-- The registers of window items below `n` are loaded. -/
def windowLoaded (c u n : Nat) (w : Nat → Word) (s : State) : State :=
  (List.range 128).foldl (fun s i => if i < n then setStateItem s c u i (w i) false else s) s

/-- The pointers, predicates and nest indices are loaded. -/
def ownLoaded (c u : Nat) (w : Nat → Word) (s : State) : State :=
  (List.range 11).foldl (fun s i => setStateItem s c u (128 + i) (w (128 + i)) false) s

/-- A slot parked for a context is its strand's again. -/
def boundFor (u key : Nat) (m : Slot) : Slot := if m.parked = some key then { m with owner := some u, parked := none } else m

/-- No task has the context away. -/
def awayCleared (s : State) (c key : Nat) : State :=
  { s with tasks := s.tasks.map (fun (r, (k : Task)) => (r, { k with away := k.away.filter (fun a => a != (c, key)) })) }

/-- The entry of a context that has come in. -/
def entryIn (key : Nat) (img : List Word) : CcEnt := ⟨key, true, img.set 159 (setBits (nth 0 img 159) 63 63 0)⟩

/-- A strand whose context comes in, before its registers are loaded. -/
structure Incoming (y : Strand) (base : Nat) (img : List Word) : Prop where
  state : y.st = .swapping
  window : y.get 4 = winWord base (base + tagN (nth 0 img 159))
  epc : y.get 2 = low48 (nth 0 img 139)
  task : y.get 9 = coreMask 39 (nth 0 img 156)

theorem swapIn_eq (s : State) (c u base key : Nat) (img : List Word) : ∃ y, Incoming y base img ∧ swapIn s c u base key img =
    setCc (awayCleared (slotsChanged (ownLoaded c u (nth 0 img) (windowLoaded c u (tagN (nth 0 img 159)) (nth 0 img) (modStrand s c u (fun _ => y))))
      c (boundFor u key)) c key) c (entryIn key img) :=
  ⟨_, ⟨rfl, rfl, rfl, rfl⟩, rfl⟩

/-- An item below 139 is no control register. -/
theorem cr_setStateItem_own (s : State) (c u : Nat) {n : Nat} (v : Word) (port : Bool) (hn : n < 139) :
    (getStrand (setStateItem s c u n v port) c u).cr = (getStrand s c u).cr := by
  by_cases hlow : n < 128
  · by_cases hin : n < windowSize (getStrand s c u)
    · rw [setStateItem_window v port hin hlow, getStrand, getCore_modCore_self]; rfl
    · rw [setStateItem_outside v port (by omega) hlow]
  by_cases hptr : n < 136
  · rw [setStateItem_ptr s c u v port (by omega) hptr, getStrand_modStrand_self]; rfl
  unfold setStateItem
  dsimp only
  rw [if_neg hlow, if_neg hptr]
  by_cases hpreds : n = 136
  · rw [if_pos hpreds, getStrand_modStrand_self]
  · rw [if_neg hpreds, if_pos (by omega), getStrand_modStrand_self]; rfl

/-- An item of the strand's own, but for a control register, is written. -/
structure OwnWritten (s t : State) (c u n : Nat) (v : Word) : Prop where
  written : ItemWritten s t c u n v
  cr : (getStrand t c u).cr = (getStrand s c u).cr

theorem ownWritten_setStateItem (s : State) (c u : Nat) {n : Nat} (v : Word) (hn : n < 139) :
    OwnWritten s (setStateItem s c u n v false) c u n v := ⟨setStateItem_written .., cr_setStateItem_own s c u v false hn⟩

/-- After the first `k` window items have been loaded. -/
structure WindowLoaded (s t : State) (c u n : Nat) (w : Nat → Word) (k : Nat) : Prop where
  frame : ItemFrame s t c u
  cr : (getStrand t c u).cr = (getStrand s c u).cr
  file : ∀ i, i < k → i < n → getK 0 (getCore t c).rf ((getStrand s c u).base + i) = w i

theorem windowLoaded_upTo {s : State} {c u n : Nat} (w : Nat → Word) (hn : n ≤ windowSize (getStrand s c u)) :
    ∀ k, k ≤ 128 → WindowLoaded s ((List.range k).foldl (fun s i => if i < n then setStateItem s c u i (w i) false else s) s) c u n w k
  | 0, _ => ⟨itemFrame_refl s c u, rfl, fun _ h => absurd h (Nat.not_lt_zero _)⟩
  | k + 1, hk => by
    obtain ⟨hframe, hcr, hfile⟩ := windowLoaded_upTo w hn k (by omega)
    rw [List.range_succ, List.foldl_append, List.foldl_cons, List.foldl_nil]
    generalize (List.range k).foldl _ s = t at hframe hcr hfile ⊢
    by_cases hkn : k < n
    · rw [if_pos hkn]
      obtain ⟨hwritten, hcr'⟩ := ownWritten_setStateItem t c u (w k) (show k < 139 by omega)
      refine ⟨itemFrame_trans hframe hwritten.frame, hcr'.trans hcr, fun i hi hin => ?_⟩
      rw [hwritten.file, fileAfter, itemFrame_windowSize hframe, itemFrame_base hframe, if_pos ⟨by omega, by omega⟩]
      by_cases hik : i = k
      · rw [hik, getK_setK_self]
      · rw [getK_setK_ne _ _ _ (by omega), hfile i (by omega) hin]
    · rw [if_neg hkn]
      exact ⟨hframe, hcr, fun i hi hin => hfile i (by omega) hin⟩

/-- After the first `k` items of the strand's own have been loaded. -/
structure OwnLoaded (s t : State) (c u : Nat) (w : Nat → Word) (k : Nat) : Prop where
  frame : ItemFrame s t c u
  cr : (getStrand t c u).cr = (getStrand s c u).cr
  file : (getCore t c).rf = (getCore s c).rf
  ptrs : ∀ j, j < k → j < 8 → (getStrand t c u).ptr j = w (128 + j)

theorem ownLoaded_upTo (s : State) (c u : Nat) (w : Nat → Word) :
    ∀ k, k ≤ 11 → OwnLoaded s ((List.range k).foldl (fun s i => setStateItem s c u (128 + i) (w (128 + i)) false) s) c u w k
  | 0, _ => ⟨itemFrame_refl s c u, rfl, rfl, fun _ h => absurd h (Nat.not_lt_zero _)⟩
  | k + 1, hk => by
    obtain ⟨hframe, hcr, hfile, hptrs⟩ := ownLoaded_upTo s c u w k (by omega)
    rw [List.range_succ, List.foldl_append, List.foldl_cons, List.foldl_nil]
    generalize (List.range k).foldl _ s = t at hframe hcr hfile hptrs ⊢
    obtain ⟨hwritten, hcr'⟩ := ownWritten_setStateItem t c u (w (128 + k)) (show 128 + k < 139 by omega)
    refine ⟨itemFrame_trans hframe hwritten.frame, hcr'.trans hcr, ?_, fun j hj hj8 => ?_⟩
    · rw [hwritten.file, fileAfter, if_neg (by omega), hfile]
    · rw [hwritten.ptrs, ptrAfter]
      by_cases hjk : j = k
      · rw [hjk, if_pos (by omega)]
      · rw [if_neg (by omega), hptrs j (by omega) hj8]

/-! The in half of a swap: what it leaves. -/

theorem swapFrame_awayCleared (s : State) (c u key : Nat) : SwapFrame s (awayCleared s c key) c u := swapFrame_tasks ..

/-- What the in half does: the strand is Swapping with its context's window, registers and slots, and the image is no longer valid. -/
structure SwappedIn (s t : State) (c u base key : Nat) (img : List Word) : Prop where
  frame : SwapFrame s t c u
  entry : getCc t c (key % 32) = some (entryIn key img)
  state : (getStrand t c u).st = .swapping
  cr : ∃ y, Incoming y base img ∧ (getStrand t c u).cr = y.cr
  file : ∀ i, i < tagN (nth 0 img 159) → getK 0 (getCore t c).rf (base + i) = nth 0 img i
  ptrs : ∀ j, j < 8 → (getStrand t c u).ptr j = nth 0 img (128 + j)
  slots : ∀ m, 4 ≤ m → m < 32 → (getSlot s c m).parked = some key → (getSlot t c m).owner = some u

theorem swapIn_does {s : State} {c u base key : Nat} {img : List Word} (hbase : base < 2048)
    (hlimit : base + tagN (nth 0 img 159) ≤ 2048) (hsize : tagN (nth 0 img 159) ≤ 128) :
    SwappedIn s (swapIn s c u base key img) c u base key img := by
  obtain ⟨y, hy, heq⟩ := swapIn_eq s c u base key img
  rw [heq]
  generalize ha : modStrand s c u (fun _ => y) = a
  have haself : getStrand a c u = y := by rw [← ha, getStrand_modStrand_self]
  have haslots : (getCore a c).slots = (getCore s c).slots := by rw [← ha, getCore_modStrand_self]; rfl
  have haframe : SwapFrame s a c u := ha ▸ swapFrame_modStrand ..
  obtain ⟨hybase, hylimit⟩ := winWord_fields hy.window hbase hlimit
  have hsize' : tagN (nth 0 img 159) ≤ windowSize (getStrand a c u) := by
    rw [haself, windowSize_of_live (by rw [hy.state]; decide), Strand.size, hybase, hylimit]; omega
  have hwindow : WindowLoaded a _ c u _ _ 128 := windowLoaded_upTo (nth 0 img) hsize' 128 (Nat.le_refl _)
  change WindowLoaded a (windowLoaded c u (tagN (nth 0 img 159)) (nth 0 img) a) c u _ _ 128 at hwindow
  generalize windowLoaded c u (tagN (nth 0 img 159)) (nth 0 img) a = b at hwindow ⊢
  have hown : OwnLoaded b _ c u _ 11 := ownLoaded_upTo b c u (nth 0 img) 11 (Nat.le_refl _)
  change OwnLoaded b (ownLoaded c u (nth 0 img) b) c u _ 11 at hown
  generalize ownLoaded c u (nth 0 img) b = d at hown ⊢
  have hitems := itemFrame_trans hwindow.frame hown.frame
  have hslot (m : Nat) (hlo : 4 ≤ m) (hhi : m < 32) : getSlot (slotsChanged d c (boundFor u key)) c m = boundFor u key (getSlot d c m) :=
    getSlot_slotsChanged d c (boundFor u key) hlo hhi
  have hkept := slotsChanged_core d c (boundFor u key)
  have hslotsFrame : SwapFrame d (slotsChanged d c (boundFor u key)) c u := swapFrame_slotsChanged ..
  generalize slotsChanged d c (boundFor u key) = r at hslot hkept hslotsFrame ⊢
  have hcore : { getCore (setCc (awayCleared r c key) c (entryIn key img)) c with cc := [] } = { getCore r c with cc := [] } := by
    rw [setCc, getCore_modCore_self]; rfl
  have hself : getStrand (setCc (awayCleared r c key) c (entryIn key img)) c u = getStrand d c u :=
    (congrArg (Core.strand · u) hcore :).trans (congrArg (Core.strand · u) (hkept c) :)
  refine ⟨?_, getCc_setCc_self .., ?_, ⟨y, hy, ?_⟩, fun i hi => ?_, fun j hj => ?_, fun m hlo hhi hparked => ?_⟩
  · refine swapFrame_trans (swapFrame_trans haframe (swapFrame_of_itemFrame hitems)) ?_
    exact swapFrame_trans hslotsFrame (swapFrame_trans (swapFrame_awayCleared r c u key) (swapFrame_setCc ..))
  · rw [hself, hitems.state, haself, hy.state]
  · rw [hself, hown.cr, hwindow.cr, haself]
  · have hfile : (getCore (setCc (awayCleared r c key) c (entryIn key img)) c).rf = (getCore b c).rf :=
      ((congrArg Core.rf hcore :).trans (congrArg Core.rf (hkept c) :)).trans hown.file
    have hi' := hwindow.file i (by omega) hi
    rw [haself, hybase] at hi'
    rw [hfile, hi']
  · rw [hself, hown.ptrs j (by omega) hj]
  · have hbefore : getSlot d c m = getSlot s c m := by
      have hbody : (getCore d c).slots = (getCore a c).slots := (congrArg Core.slots hitems.core :)
      rw [getSlot, hbody, haslots]; rfl
    have hafter : getSlot (setCc (awayCleared r c key) c (entryIn key img)) c m = getSlot r c m :=
      (congrArg (fun k : Core => getK {} k.slots m) hcore :)
    rw [hafter, hslot m hlo hhi, hbefore, boundFor, if_pos hparked]

/-- VALID is clear in the entry of a context that has come in. -/
theorem entryIn_invalid (key : Nat) {img : List Word} (h : img.length = 160) : bit (nth 0 (entryIn key img).img 159) 63 = false := by
  have htag : nth 0 (entryIn key img).img 159 = setBits (nth 0 img 159) 63 63 0 := by
    simp [nth, entryIn, h]
  rw [htag, bit_setBits _ _ _ _ _ (by decide)]
  simp

theorem finalState_eq (hold : Bool) (img : List Word) : finalState hold img =
    if hold = true ∨ tagState (nth 0 img 159) = 5 then 5 else if tagState (nth 0 img 159) = 6 then 6 else 1 := by
  simp [finalState]

/-- A context that the cache holds comes into a window that fits. -/
theorem swap_comes_in {x : Args} {s : State} (h0 : s.cur.strand = 0) (h : Performs s x) {c u key base : Nat} (hc : c = s.cur.core)
    (hu' : u = bits (src s x.a) 3 0) (hkey' : key = bits (src s x.b) 31 16) (hbase : base = bits (src s x.a) 26 16) (hu : u ≠ 0)
    (hop : bits (src s x.a) 5 4 = 2) (hfree : (getStrand s c u).st = .free) {e : CcEnt} (he : getCc s c (key % 32) = some e) (hkey : e.key = key)
    (hlen : e.img.length = 160) (hvalid : bit (nth 0 e.img 159) 63 = true) (hown : bits (nth 0 e.img 159) 15 0 = key)
    (hwindow : WindowFits (getCore s c) u base (base + tagN (nth 0 e.img 159))) :
    ∃ t final f, exec (.swap x) s = .next t ∧ (curStrand t).st = .waiting ∧ BytesSame s t ∧
      t.pend = s.pend ++ [(s.now + 10 + (tagN (nth 0 e.img 159) + 3) / 4, .swapComplete ⟨s.cur, x.a, u, final⟩)] ∧
      final = (if bit (src s x.a) 6 = true ∨ tagState (nth 0 e.img 159) = 5 then 5 else if tagState (nth 0 e.img 159) = 6 then 6 else 1) ∧
      getCc t c (key % 32) = some f ∧ bit (nth 0 f.img 159) 63 = false ∧
      (getStrand t c u).st = .swapping ∧ (getStrand t c u).base = base ∧ (getStrand t c u).size = tagN (nth 0 e.img 159) ∧
      (∀ i, i < tagN (nth 0 e.img 159) → getK 0 (getCore t c).rf (base + i) = nth 0 e.img i) ∧
      (∀ j, j < 8 → (getStrand t c u).ptr j = nth 0 e.img (128 + j)) ∧ (getStrand t c u).get 2 = low48 (nth 0 e.img 139) ∧
      (getStrand t c u).get 9 = nth 0 e.img 156 &&& 0x07FF0FFFFFFFFFFF ∧
      ∀ m, 4 ≤ m → m < 32 → (getSlot s c m).parked = some key → (getSlot t c m).owner = some u := by
  have hkey16 : key < 65536 := hkey' ▸ bits_lt (src s x.b) 31 16
  have hbase11 : base < 2048 := hbase ▸ bits_lt (src s x.a) 26 16
  have hstatus := ((inStatus_cases (s := s) (c := c) (u := u) (base := base) (img := e.img) hkey16).2 hvalid hown).2 hwindow
  obtain ⟨-, -, -, hlimit128, hlimit, -⟩ := hwindow
  have hnotlive : ¬(getStrand s s.cur.core (bits (src s x.a) 3 0)).live = true := by
    rw [← hc, ← hu', Strand.live, hfree]; decide
  have hexec := swap_in_issue h0 h (hu' ▸ hu) hop
  rw [if_neg hnotlive, ← hu', ← hkey', ← hbase, swapHalf_cached (hc ▸ he) hkey (hc ▸ hstatus), ← hc] at hexec
  obtain ⟨hframe, hentry, hstate, ⟨y, hy, hcr⟩, hfile, hptrs, hslots⟩ :=
    swapIn_does (s := s) (c := c) (u := u) (key := key) hbase11 hlimit (by omega)
  have hway := finishSwap_underWay hc hframe h0 hu (.swap x) x.a (finalState (bit (src s x.a) 6) e.img)
    (0 + (10 + (tagN (nth 0 e.img 159) + 3) / 4))
  have hget (n : Nat) : (getStrand (swapIn s c u base key e.img) c u).get n = y.get n := by rw [Strand.get, hcr]; rfl
  obtain ⟨hbase', hlimit'⟩ := winWord_fields ((hget 4).trans hy.window) hbase11 hlimit
  refine ⟨_, _, _, hexec, hway.waiting, hway.bytes, ?_, finalState_eq .., (swapUnderWay_getCc hway _).trans hentry, entryIn_invalid key hlen, ?_⟩
  · rw [hway.pend, Nat.zero_add, Nat.add_assoc]
  rw [hway.strand, swapUnderWay_file hway]
  refine ⟨hstate, hbase', ?_, hfile, hptrs, (hget 2).trans hy.epc, ?_, fun m hlo hhi hparked => ?_⟩
  · rw [Strand.size, hbase', hlimit']; omega
  · rw [hget, hy.task]
    exact wd_fields_eq_and _ _ (by decide) (by decide)
  · rw [swapUnderWay_getSlot hway]
    exact hslots m hlo hhi hparked

/-- A context that may not come in leaves the machine as it is. -/
theorem swap_in_refuses {x : Args} {s : State} (h0 : s.cur.strand = 0) (h : Performs s x) (hrot : InRotation s) (hu : bits (src s x.a) 3 0 ≠ 0)
    (hop : bits (src s x.a) 5 4 = 2) (hfree : (getStrand s s.cur.core (bits (src s x.a) 3 0)).st = .free) {img : List Word} {status : Nat}
    (hpeek : peekImage s s.cur (bits (src s x.b) 31 16) = some img)
    (hstatus : inStatus s s.cur.core (bits (src s x.a) 3 0) (bits (src s x.a) 26 16) (bits (src s x.b) 31 16) img = status) (hne : status ≠ 0) :
    Gives (.swap x) s x.a (wd status) := by
  have hnotlive : ¬(getStrand s s.cur.core (bits (src s x.a) 3 0)).live = true := by
    rw [Strand.live, hfree]; decide
  have hexec := swap_in_issue h0 h hu hop
  rw [if_neg hnotlive, swapHalf_refused hpeek hstatus hne] at hexec
  exact gives_of_finish hexec hrot

end Sys2Proof.Proofs
end

section
namespace Sys2Proof.Proofs

open Sys2Proof Sys2Proof.Machine Sys2Proof.Laws Sys2Proof.Claims

/-! The time of a `ccf` (R150, R241). -/

theorem exec_ccf (x : Args) (s : State) : exec (.ccf x) s = execCcf x s := rfl

theorem exec_ccf_issue {x : Args} {s : State} (h : Performs s x) : exec (.ccf x) s =
    .next (sched (leaveFlight s (.ccf x) s.cur) (s.now + max 1 (ccfTime s s.cur ((src s x.a).setWidth 32)))
      (.ccfComplete s.cur x.a ((src s x.a).setWidth 32))) := by
  rw [exec_of_performs (exec_ccf x s) rfl h]
  rfl

/-- A free choice of its own lies in its range (R414). -/
theorem pickOf_bounds (s : State) (site sub : Nat) {lo hi : Nat} (h : lo ≤ hi) : lo ≤ pickOf s site sub lo hi ∧ pickOf s site sub lo hi ≤ hi := by
  unfold pickOf Config.pick
  have := Nat.mod_lt (Config.free s.fresh (site + 64 * s.pend.length + 2 ^ 32 * (sub + 1))) (show 0 < hi - lo + 1 by omega)
  omega

theorem one_le_imageFirst (s : State) (c key : Nat) : 1 ≤ imageFirst s c key := by
  unfold imageFirst accessBound
  dsimp only
  omega

/-- An image takes its first line and 5 cycles. -/
theorem imageTime_bounds (s : State) (c key sub : Nat) : 6 ≤ imageTime s c key sub ∧ imageTime s c key sub ≤ imageFirst s c key + 5 := by
  have hpick := pickOf_bounds s 22 sub (one_le_imageFirst s c key)
  have htransfer : cdiv 1280 256 = 5 := by decide
  unfold imageTime
  omega

theorem sum_takeWhile_le {α : Type} (p : α → Bool) {f g : α → Nat} (h : ∀ a, f a ≤ g a) (l : List α) :
    ((l.takeWhile p).map f).sum ≤ (l.map g).sum := by
  induction l with
  | nil => exact Nat.le_refl _
  | cons a l ih =>
    rw [List.takeWhile_cons, List.map_cons, List.sum_cons]
    have := h a
    split
    · rw [List.map_cons, List.sum_cons]; omega
    · exact Nat.zero_le _

theorem mul_length_le_sum {α : Type} {n : Nat} {f : α → Nat} (h : ∀ a, n ≤ f a) (l : List α) : n * l.length ≤ (l.map f).sum := by
  induction l with
  | nil => exact Nat.le_refl _
  | cons a l ih =>
    rw [List.length_cons, List.map_cons, List.sum_cons, Nat.mul_succ]
    have := h a
    omega

theorem ccfTime_le (s : State) (cx : Ctx) (mask : BitVec 32) :
    ccfTime s cx mask ≤ ((ccfEntries s cx.core mask).map (fun e => imageFirst s cx.core e.key + 5)).sum :=
  sum_takeWhile_le _ (fun _ => (imageTime_bounds ..).2) _

/-- Every image takes 6 cycles at least, when no write-back faults. -/
theorem le_ccfTime {s : State} {cx : Ctx} {mask : BitVec 32} (h : ∀ e ∈ ccfEntries s cx.core mask, (writeImage s cx e.key e.img).2 = true) :
    6 * (ccfEntries s cx.core mask).length ≤ ccfTime s cx mask := by
  rw [ccfTime, List.takeWhile_eq_self_iff.2 h]
  exact mul_length_le_sum (f := fun e : CcEnt => imageTime s cx.core e.key (e.key % 32)) (fun _ => (imageTime_bounds ..).1) _

/-! The completion of a swap (R141, R142). -/

/-- A strand stands where its context says. -/
def atContext (now : Nat) (x : Strand) : Strand := { x with pc := x.get 2, resumed := now }

/-- The machine once the strand of a swap has taken its state up. -/
def takenUp (s : State) (c u final : Nat) : State :=
  match final with
  | 0 => modStrand (modStrand s c u (atContext s.now)) c u (fun x => { x with st := .free, holdReq := false, holdPort := false })
  | 1 => rejoin (modStrand s c u (atContext s.now)) c u
  | 5 => modStrand (modStrand s c u (atContext s.now)) c u (fun x => { x with st := .held, holdReq := false, holdPort := false })
  | _ => modStrand (modStrand s c u (atContext s.now)) c u (fun x => { x with st := .halted, holdReq := false, holdPort := false })

/-- A strand that is no longer Swapping is left alone. -/
def swapTaken (s : State) (j : SwapJob) : State :=
  if (getStrand s j.cx.core j.target).st = .swapping then takenUp s j.cx.core j.target j.final else s

theorem exec_swapComplete (j : SwapJob) (s : State) : exec (.swapComplete j) s =
    .next (if stillWaits (swapTaken s j) j.cx then finish (swapTaken s j) j.cx j.dst 0 else swapTaken s j) := rfl

/-- A strand takes up the state that its context came with, or is Free. -/
def tookUp (now final : Nat) (x : Strand) : Strand :=
  match final with
  | 0 => { atContext now x with st := .free, holdReq := false, holdPort := false }
  | 1 => { atContext now x with st := .ready, wait := none, readyFrom := now + 1 }
  | 5 => { atContext now x with st := .held, holdReq := false, holdPort := false }
  | _ => { atContext now x with st := .halted, holdReq := false, holdPort := false }

theorem tookUp_pc (now final : Nat) (x : Strand) : (tookUp now final x).pc = x.get 2 := by
  unfold tookUp; split <;> rfl

theorem takenUp_eq {s : State} {c u : Nat} (h : Undisturbed (getStrand s c u)) (final : Nat) :
    takenUp s c u final = modStrand s c u (tookUp s.now final) := by
  unfold takenUp
  split
  case h_2 =>
    have h' : Undisturbed (getStrand (modStrand s c u (atContext s.now)) c u) := by rw [getStrand_modStrand_self]; exact h
    rw [rejoin_undisturbed _ _ _ h', modStrand_modStrand_self]
    rfl
  case h_4 h0 h1 h5 =>
    rw [modStrand_modStrand_self, show tookUp s.now final = _ from funext (fun x => tookUp.eq_4 s.now final x h0 h1 h5)]
  all_goals
    rw [modStrand_modStrand_self]
    rfl

section
variable {s : State} {j : SwapJob} (h : Awaits s j.cx) (h0 : j.cx.strand = 0) (hu : j.target ≠ 0)
  (hst : (getStrand s j.cx.core j.target).st = .swapping) (hquiet : Undisturbed (getStrand s j.cx.core j.target))
include h0 hu

theorem tookUp_cur : getStrand (modStrand s j.cx.core j.target (tookUp s.now j.final)) j.cx.core j.cx.strand =
    getStrand s j.cx.core j.cx.strand := getStrand_modStrand_ne _ _ (fun e => hu (e.2.symm.trans h0))

include h hst hquiet

theorem exec_swapComplete_takes : exec (.swapComplete j) s =
    .next (finish (modStrand s j.cx.core j.target (tookUp s.now j.final)) j.cx j.dst 0) := by
  have hwaits : stillWaits (modStrand s j.cx.core j.target (tookUp s.now j.final)) j.cx = true := by
    rw [stillWaits, tookUp_cur h0 hu]; exact h.1
  have htaken : swapTaken s j = modStrand s j.cx.core j.target (tookUp s.now j.final) := (if_pos hst).trans (takenUp_eq hquiet _)
  rw [exec_swapComplete, htaken, if_pos hwaits]

/-- A completed swap leaves its strand where its context says, and strand 0 goes on. -/
theorem swapComplete_takes : ∃ t, exec (.swapComplete j) s = .next t ∧ rd t j.cx j.dst = readsAs j.dst 0 ∧ GoesOn t j.cx (nextPc j.cx) ∧
    BytesSame s t ∧ getStrand t j.cx.core j.target = tookUp s.now j.final (getStrand s j.cx.core j.target) := by
  obtain ⟨hframe, hgoes, hrd⟩ := finish_frame (modStrand s j.cx.core j.target (tookUp s.now j.final)) j.cx j.dst 0
    (by rw [tookUp_cur h0 hu]; exact h.2)
  refine ⟨_, exec_swapComplete_takes h h0 hu hst hquiet, hrd, hgoes, bytesSame_trans (bytesSame_modStrand ..) hframe.bytes, ?_⟩
  exact (othersSame_getStrand hframe.others (fun e => hu (e.2.trans h0))).trans (getStrand_modStrand_self ..)

end

/-! Images in their backing areas (R141): writing one back changes no strand. -/

theorem strandsSame_memWrite (s : State) (pa : Nat) (bs : List Byte) : StrandsSame s (memWrite s pa bs) :=
  ⟨rfl, fun d => (congrArg Core.strands (getK_map_snd (d := ({} : Core))
    (fun k : Core => { k with icache := k.icache.filter (fun l => !(linesOf pa bs.length).contains l) }) rfl s.cores d) :)⟩

theorem strandsSame_useLeaf (s : State) (c : Nat) (l : TLeaf) (t : Nat) : StrandsSame s (useLeaf s c l t) := by
  unfold useLeaf
  split
  · exact strandsSame_refl s
  · exact strandsSame_modCore s c rfl

theorem strandsSame_translate (s : State) (cx : Ctx) (va : Nat) : StrandsSame s (Machine.translate s cx va).1 := by
  unfold Machine.translate
  split
  · exact strandsSame_useLeaf ..
  · exact strandsSame_refl s
  · exact strandsSame_refl s

theorem imagePlace_state (s : State) (cx : Ctx) (va : Word) (store : Bool) : (imagePlace s cx va store).1 = (Machine.translate s cx va.toNat).1 := by
  unfold imagePlace
  split <;> next h => rw [h]

theorem strandsSame_imagePlaces (cx : Ctx) (store : Bool) : ∀ (ps : List (Word × Nat)) (s : State), StrandsSame s (imagePlaces cx store ps s).1
  | [], s => strandsSame_refl s
  | (a, n) :: ps, s => by
    have hfirst : StrandsSame s (imagePlace s cx a store).1 := imagePlace_state s cx a store ▸ strandsSame_translate ..
    unfold imagePlaces
    split
    · next s' pa heq =>
      rw [heq] at hfirst
      have hrest := strandsSame_imagePlaces cx store ps s'
      split <;> next heq' => rw [heq'] at hrest; exact strandsSame_trans hfirst hrest
    · next s' heq => rw [heq] at hfirst; exact hfirst

theorem strandsSame_writePlaces : ∀ (ps : List (Nat × Nat)) (bs : List Byte) (s : State), StrandsSame s (writePlaces ps bs s)
  | [], _, s => strandsSame_refl s
  | (pa, n) :: ps, bs, s => strandsSame_trans (strandsSame_memWrite s pa (bs.take n)) (strandsSame_writePlaces ps (bs.drop n) _)

theorem strandsSame_writeImage (s : State) (cx : Ctx) (key : Nat) (img : List Word) : StrandsSame s (writeImage s cx key img).1 := by
  have hplaces := strandsSame_imagePlaces cx true (imagePieces (getCore s cx.core) key) s
  unfold writeImage
  split
  · next heq => rw [heq] at hplaces; exact strandsSame_trans hplaces (strandsSame_writePlaces ..)
  · next heq => rw [heq] at hplaces; exact hplaces

/-! The completion of a `ccf` (R150). -/

theorem exec_ccfComplete (cx : Ctx) (dst : Opnd) (mask : BitVec 32) (s : State) :
    exec (.ccfComplete cx dst mask) s = execCcfComplete cx dst mask s := rfl

/-- Entries that the mask does not name, or that are clean, are left alone. -/
theorem cleanAll_nothing {cx : Ctx} {mask : BitVec 32} {s : State} : ∀ {l : List Nat},
    (∀ i ∈ l, ¬(mask.getLsbD i = true ∧ (getCc s cx.core i).any (fun e => e.dirty) = true)) → cleanAll cx mask l s = (s, 0, false)
  | [], _ => rfl
  | i :: _, h => (if_neg (h i List.mem_cons_self)).trans (cleanAll_nothing (fun j hj => h j (List.mem_cons_of_mem _ hj)))

theorem cleanCc_dirty {s : State} {cx : Ctx} {i : Nat} {e : CcEnt} (he : getCc s cx.core i = some e) (hdirty : e.dirty = true)
    (hwrite : (writeImage s cx e.key e.img).2 = true) :
    cleanCc s cx i = (setCc (writeImage s cx e.key e.img).1 cx.core { e with dirty := false }, true) := by
  rw [cleanCc, he]
  dsimp only
  rw [if_pos hdirty, show writeImage s cx e.key e.img = ((writeImage s cx e.key e.img).1, true) from Prod.ext rfl hwrite]

/-- A mask that names one entry writes that one back. -/
theorem cleanAll_one {cx : Ctx} {mask : BitVec 32} {s t : State} {i : Nat} (hi : mask.getLsbD i = true)
    (hothers : ∀ j, j ≠ i → mask.getLsbD j = false) (hdirty : (getCc s cx.core i).any (fun e => e.dirty) = true)
    (hclean : cleanCc s cx i = (t, true)) : ∀ {l : List Nat}, i ∈ l → l.Nodup → cleanAll cx mask l s = (t, 1, false)
  | [], h, _ => absurd h List.not_mem_nil
  | j :: l, h, hnodup => by
    obtain ⟨hj, hnodup'⟩ := List.nodup_cons.1 hnodup
    by_cases hji : j = i
    · subst hji
      have hrest : cleanAll cx mask l t = (t, 0, false) := cleanAll_nothing (fun k hk hmask => by
        rw [hothers k (fun e => hj (e ▸ hk))] at hmask
        exact absurd hmask.1 (by decide))
      refine (if_pos ⟨hi, hdirty⟩).trans ?_
      rw [hclean]
      dsimp only
      rw [hrest]
    · refine (if_neg (fun hmask => ?_)).trans (cleanAll_one hi hothers hdirty hclean (List.mem_of_ne_of_mem (Ne.symm hji) h) hnodup')
      rw [hothers j hji] at hmask
      exact absurd hmask.1 (by decide)

theorem getLsbD_one_shiftLeft {i : Nat} (hi : i < 32) (j : Nat) : (1#32 <<< i).getLsbD j = decide (j = i) := by
  rw [BitVec.getLsbD_shiftLeft, BitVec.getLsbD_one]
  by_cases h : j = i
  · simp [h, hi]
  · rw [decide_eq_false h]
    by_cases hlt : j < i
    · simp [hlt]
    · simp [show ¬ j - i = 0 by omega]

section
variable {s : State} {cx : Ctx} {dst : Opnd} {mask : BitVec 32}

theorem exec_ccfComplete_walked (hwalked : walksOf s cx (ccfAddresses s cx.core mask) = []) {t : State} {n : Nat} {f : Bool}
    (hclean : cleanAll cx mask (List.range 32) s = (t, n, f)) (hwaits : stillWaits t cx = true) :
    exec (.ccfComplete cx dst mask) s = .next (finish t cx dst (wd (n + f.toNat * 2 ^ 63))) := by
  rw [exec_ccfComplete, execCcfComplete]
  dsimp only
  rw [hwalked, if_neg (by simp), hclean]
  exact congrArg Host.Outcome.next (if_pos hwaits)

variable (h : Awaits s cx)
include h

/-- Nothing dirty is named: nothing is written back. -/
theorem ccfComplete_clean (hclean : ∀ i e, i < 32 → mask.getLsbD i = true → getCc s cx.core i = some e → e.dirty = false) :
    ∃ t, exec (.ccfComplete cx dst mask) s = .next t ∧ Resumed s t cx dst 0 := by
  have hnone : ∀ i ∈ List.range 32, ¬(mask.getLsbD i = true ∧ (getCc s cx.core i).any (fun e => e.dirty) = true) := by
    rintro i hi ⟨hmask, hany⟩
    obtain ⟨e, he, hdirty⟩ := (Option.any_eq_true _ _).1 hany
    rw [hclean i e (List.mem_range.1 hi) hmask he] at hdirty
    exact absurd hdirty (by decide)
  have hentries : ccfEntries s cx.core mask = [] := by
    refine List.filterMap_eq_nil_iff.2 (fun i hi => ?_)
    by_cases hmask : mask.getLsbD i = true
    · rw [if_pos hmask, Option.filter_eq_none_iff]
      intro e he
      rw [hclean i e (List.mem_range.1 hi) hmask he]
      decide
    · exact if_neg hmask
  have hwalked : walksOf s cx (ccfAddresses s cx.core mask) = [] := by rw [ccfAddresses, hentries]; rfl
  exact ⟨_, exec_ccfComplete_walked hwalked (cleanAll_nothing hnone) h.1,
    resumed_of_finish 0 h.2 (fun _ => rfl) (bytesSame_refl s) (fun _ _ _ => rfl)⟩

/-- Walks that are needed are asked for first (R236). -/
theorem ccfComplete_walks (hwalks : walksOf s cx (ccfAddresses s cx.core mask) ≠ []) :
    ∃ t, exec (.ccfComplete cx dst mask) s = .next t ∧ BytesSame s t ∧ t.cores = s.cores ∧ (s.now + 1, .ccfComplete cx dst mask) ∈ t.pend := by
  have hneeded : (stillWaits s cx && !(walksOf s cx (ccfAddresses s cx.core mask)).isEmpty) = true := by
    rw [h.1, Bool.true_and, Bool.not_eq_true', List.isEmpty_eq_false_iff]
    exact hwalks
  obtain ⟨hcores, hmem⟩ := askWalks_keeps cx (walksOf s cx (ccfAddresses s cx.core mask)) s
  refine ⟨_, (exec_ccfComplete ..).trans (congrArg Host.Outcome.next (if_pos hneeded)), ?_, hcores, List.mem_append_right _ List.mem_cons_self⟩
  exact bytesSame_of_ls hmem (fun d => congrArg Core.ls (getCore_of_cores hcores d))

/-- One dirty entry is written back, and is clean. -/
theorem ccfComplete_one {i : Nat} {e : CcEnt} (hi : i < 32) (hmask : mask = 1#32 <<< i) (he : getCc s cx.core i = some e)
    (hdirty : e.dirty = true) (hkey : e.key % 32 = i) (hwalked : walksOf s cx (ccfAddresses s cx.core mask) = [])
    (hwrite : (writeImage s cx e.key e.img).2 = true) :
    ∃ t, exec (.ccfComplete cx dst mask) s = .next t ∧ rd t cx dst = readsAs dst 1 ∧ GoesOn t cx (nextPc cx) ∧
      getCc t cx.core i = some { e with dirty := false } ∧ t.mem = (writeImage s cx e.key e.img).1.mem := by
  have hbit : mask.getLsbD i = true := by rw [hmask, getLsbD_one_shiftLeft hi]; exact decide_eq_true rfl
  have hothers (j : Nat) (hj : j ≠ i) : mask.getLsbD j = false := by rw [hmask, getLsbD_one_shiftLeft hi]; exact decide_eq_false hj
  have hany : (getCc s cx.core i).any (fun e => e.dirty) = true := by rw [he]; exact hdirty
  have hclean := cleanAll_one hbit hothers hany (cleanCc_dirty he hdirty hwrite) (List.mem_range.2 hi) List.nodup_range
  have hsame : StrandsSame s (setCc (writeImage s cx e.key e.img).1 cx.core { e with dirty := false }) :=
    strandsSame_trans (strandsSame_writeImage ..) (strandsSame_modCore _ _ rfl)
  have hentry : getCc (setCc (writeImage s cx e.key e.img).1 cx.core { e with dirty := false }) cx.core i = some { e with dirty := false } :=
    hkey ▸ getCc_setCc_self _ _ { e with dirty := false }
  have hmem : (setCc (writeImage s cx e.key e.img).1 cx.core { e with dirty := false }).mem = (writeImage s cx e.key e.img).1.mem := rfl
  generalize setCc (writeImage s cx e.key e.img).1 cx.core { e with dirty := false } = t at hclean hsame hentry hmem
  have hstrand := getStrand_of_strandsSame hsame cx.core cx.strand
  have hwaits : stillWaits t cx = true := by rw [stillWaits, hstrand]; exact h.1
  obtain ⟨hframe, hgoes, hrd⟩ := finish_frame t cx dst 1 (by rw [hstrand]; exact h.2)
  refine ⟨_, exec_ccfComplete_walked hwalked hclean hwaits, hrd, hgoes, ?_, (congrArg State.mem hframe.outside :).trans hmem⟩
  exact (getCc_congr (congrArg Core.cc hframe.core :) i).trans hentry

end

end Sys2Proof.Proofs

open Sys2Proof Sys2Proof.Machine Sys2Proof.Laws Sys2Proof.Claims Sys2Proof.Proofs

/-- Settles O37: the refusals (`gives_of_finish`), the two halves (`swap_goes_out`, `swap_comes_in`), the time of a `ccf` (`ccfTime_le`,
`le_ccfTime`) and the completions (`swapComplete_takes`, `ccfComplete_one`). -/
theorem swaps : Obligations.Swaps := by
  refine ⟨fun x s h0 h => ⟨fun hrot hbad => gives_of_finish (swap_malformed h0 h hbad) hrot,
      fun hrot hu hop hlive => swap_refuses_two h0 h hrot hu hop hlive,
      fun hrot hu hop hstay => gives_of_finish (swap_out_refused h0 h hu hop hstay) hrot,
      fun hu hop hgoes hloose hsize e he hkey => swap_goes_out h0 h rfl rfl rfl hu hop hgoes hloose hsize he hkey,
      fun hrot hu hop hfree img hpeek => ⟨fun hbad => ?_, fun hvalid hown hwindow => ?_⟩,
      fun hu hop hfree e he hkey hlen hvalid hown hwindow => swap_comes_in h0 h rfl rfl rfl rfl hu hop hfree he hkey hlen hvalid hown hwindow, ?_⟩,
    fun s j h h0 hu hst hquiet => ?_,
    fun s cx dst mask h => ⟨ccfComplete_clean h, ccfComplete_walks h,
      fun i e hi hmask he hdirty hkey hwalked hwrite => ccfComplete_one h hi hmask he hdirty hkey hwalked hwrite⟩⟩
  · exact swap_in_refuses h0 h hrot hu hop hfree hpeek ((inStatus_cases (bits_lt (src s x.b) 31 16)).1 hbad) (by decide)
  · exact swap_in_refuses h0 h hrot hu hop hfree hpeek (((inStatus_cases (bits_lt (src s x.b) 31 16)).2 hvalid hown).1 hwindow) (by decide)
  · have hle := ccfTime_le s s.cur ((src s x.a).setWidth 32)
    refine ⟨_, _, exec_ccf_issue h, Nat.le_max_left .., by omega, fun hall => ?_, leavesUntil_sched ..⟩
    exact Nat.le_trans (le_ccfTime hall) (Nat.le_max_right ..)
  · obtain ⟨t, hexec, hrd, hgoes, hbytes, hstrand⟩ := swapComplete_takes h h0 hu hst hquiet
    refine ⟨t, hexec, hrd, hgoes, hbytes, hstrand ▸ tookUp_pc .., fun hf => ?_, fun hf => ?_, fun hf => ?_, fun hf => ?_⟩ <;>
    · rw [hstrand, hf]; rfl
end

section
namespace Sys2Proof.Proofs

open Sys2Proof Sys2Proof.Machine Sys2Proof.Laws Sys2Proof.Claims

/-! The units of a loom (R161, R167). -/

theorem getLoom_modLoom_ne (s : State) {l k : Nat} (f : Loom → Loom) (h : k ≠ l) : getLoom (modLoom s l f) k = getLoom s k :=
  getK_setK_ne _ _ _ h

theorem barrierBecomes_modBarrier (s : State) (l n : Nat) (f : Barrier → Barrier) :
    BarrierBecomes s (modBarrier s l n f) l n (f (getBarrier s l n)) := by
  refine ⟨?_, fun k i hne => ?_, fun k i => ?_⟩
  · rw [getBarrier, modBarrier, getLoom_modLoom_self]; exact getK_setK_self ..
  · by_cases hk : k = l
    · subst hk
      rw [getBarrier, modBarrier, getLoom_modLoom_self]
      exact getK_setK_ne _ _ _ (fun hi => hne ⟨rfl, hi⟩)
    · rw [getBarrier, modBarrier, getLoom_modLoom_ne _ _ hk]; rfl
  · by_cases hk : k = l
    · subst hk; rw [getFetcher, modBarrier, getLoom_modLoom_self]; rfl
    · rw [getFetcher, modBarrier, getLoom_modLoom_ne _ _ hk]; rfl

theorem fetcherBecomes_modFetcher (s : State) (l n : Nat) (f : Fetcher → Fetcher) :
    FetcherBecomes s (modFetcher s l n f) l n (f (getFetcher s l n)) := by
  refine ⟨?_, fun k i hne => ?_, fun k i => ?_⟩
  · rw [getFetcher, modFetcher, getLoom_modLoom_self]; exact getK_setK_self ..
  · by_cases hk : k = l
    · subst hk
      rw [getFetcher, modFetcher, getLoom_modLoom_self]
      exact getK_setK_ne _ _ _ (fun hi => hne ⟨rfl, hi⟩)
    · rw [getFetcher, modFetcher, getLoom_modLoom_ne _ _ hk]; rfl
  · by_cases hk : k = l
    · subst hk; rw [getBarrier, modFetcher, getLoom_modLoom_self]; rfl
    · rw [getBarrier, modFetcher, getLoom_modLoom_ne _ _ hk]; rfl

theorem modFetcher_keeps (s : State) (l n : Nat) (f : Fetcher → Fetcher) :
    (modFetcher s l n f).cores = s.cores ∧ (modFetcher s l n f).mem = s.mem ∧ (modFetcher s l n f).now = s.now := ⟨rfl, rfl, rfl⟩

theorem barrierBecomes_refl (s : State) (l n : Nat) : BarrierBecomes s s l n (getBarrier s l n) :=
  ⟨rfl, fun _ _ _ => rfl, fun _ _ => rfl⟩

theorem fetcherBecomes_refl (s : State) (l n : Nat) : FetcherBecomes s s l n (getFetcher s l n) :=
  ⟨rfl, fun _ _ _ => rfl, fun _ _ => rfl⟩

theorem getBarrier_of_looms {s t : State} (h : t.looms = s.looms) (l n : Nat) : getBarrier t l n = getBarrier s l n := by
  rw [getBarrier, getLoom, h]; rfl

theorem getFetcher_of_looms {s t : State} (h : t.looms = s.looms) (l n : Nat) : getFetcher t l n = getFetcher s l n := by
  rw [getFetcher, getLoom, h]; rfl

theorem barrierBecomes_of_looms {s t r : State} {l n : Nat} {b : Barrier} (h : BarrierBecomes s t l n b) (hlooms : r.looms = t.looms) :
    BarrierBecomes s r l n b := by
  obtain ⟨hself, hothers, hfetchers⟩ := h
  exact ⟨(getBarrier_of_looms hlooms l n).trans hself, fun k i hne => (getBarrier_of_looms hlooms k i).trans (hothers k i hne),
    fun k i => (getFetcher_of_looms hlooms k i).trans (hfetchers k i)⟩

theorem fetcherBecomes_of_looms {s t r : State} {l n : Nat} {f : Fetcher} (h : FetcherBecomes s t l n f) (hlooms : r.looms = t.looms) :
    FetcherBecomes s r l n f := by
  obtain ⟨hself, hothers, hbarriers⟩ := h
  exact ⟨(getFetcher_of_looms hlooms l n).trans hself, fun k i hne => (getFetcher_of_looms hlooms k i).trans (hothers k i hne),
    fun k i => (getBarrier_of_looms hlooms k i).trans (hbarriers k i)⟩

theorem barrierBecomes_trans {s t r : State} {l n : Nat} {b b' : Barrier} (h : BarrierBecomes s t l n b) (h' : BarrierBecomes t r l n b') :
    BarrierBecomes s r l n b' := by
  obtain ⟨-, hothers, hfetchers⟩ := h
  obtain ⟨hself', hothers', hfetchers'⟩ := h'
  exact ⟨hself', fun k i hne => (hothers' k i hne).trans (hothers k i hne), fun k i => (hfetchers' k i).trans (hfetchers k i)⟩

/-! What a strand that rejoins leaves, whatever disturbs it then (R138, R144, R145). -/

/-- Nothing differs but strand `u` of core `c`, that core's messages and counters, and what the outside is told. -/
structure StrandFrame (s t : State) (c u : Nat) : Prop where
  outside : { t with cores := [], replies := [] } = { s with cores := [], replies := [] }
  bytes : BytesSame s t
  others : OthersSame s t c u

theorem strandFrame_trans {s t r : State} {c u : Nat} (h : StrandFrame s t c u) (k : StrandFrame t r c u) : StrandFrame s r c u :=
  ⟨k.outside.trans h.outside, bytesSame_trans h.bytes k.bytes, othersSame_trans h.others k.others⟩

theorem strandFrame_modStrand (s : State) (c u : Nat) (f : Strand → Strand) : StrandFrame s (modStrand s c u f) c u :=
  ⟨rfl, bytesSame_modStrand .., othersSame_modStrand ..⟩

theorem strandFrame_takeTrap (s : State) (c u : Nat) (cause : Byte) (info : Word) (word : IWord) (addr epc : Word) :
    StrandFrame s (takeTrap s c u cause info word addr epc) c u :=
  let h := takeTrap_untouched s c u cause info word addr epc
  ⟨h.outside, h.bytes, h.others⟩

theorem strandFrame_becomeHeld (s : State) (c u : Nat) (cause : Byte) (tell : Bool) : StrandFrame s (becomeHeld s c u cause tell) c u := by
  unfold becomeHeld
  dsimp only
  split
  · exact strandFrame_trans (strandFrame_modStrand s c u _)
      ⟨rfl, bytesSame_modCore _ rfl, othersSame_modCore _ _ (fun v hv => strand_modStrand_ne _ _ hv)⟩
  · exact strandFrame_modStrand s c u _

theorem strandFrame_rejoin (s : State) (c u : Nat) : StrandFrame s (rejoin s c u) c u := by
  have hready := strandFrame_modStrand s c u (fun x => { x with st := .ready, wait := none, readyFrom := s.now + 1 })
  unfold rejoin
  dsimp only
  split
  · exact strandFrame_trans hready (strandFrame_trans (strandFrame_modStrand ..) (strandFrame_becomeHeld ..))
  · split
    · exact strandFrame_trans hready (strandFrame_becomeHeld ..)
    · split
      · exact strandFrame_trans hready (strandFrame_takeTrap ..)
      · exact hready

theorem strandFrame_complete (s : State) (cx : Ctx) : StrandFrame s (complete s cx) cx.core cx.strand :=
  strandFrame_trans (strandFrame_modStrand s cx.core cx.strand _) (strandFrame_rejoin ..)

theorem StrandFrame.looms {s t : State} {c u : Nat} (h : StrandFrame s t c u) : t.looms = s.looms := (congrArg State.looms h.outside :)

theorem complete_looms (s : State) (cx : Ctx) : (complete s cx).looms = s.looms := (strandFrame_complete s cx).looms

/-! A write of a shared register that counts from its instruction's issue (R19, R99). -/

theorem insertWrite_latest {w : SWrite} : ∀ {ws : List SWrite}, (∀ x ∈ ws, x.at_ ≤ w.at_) → insertWrite w ws = w :: ws
  | [], _ => rfl
  | _ :: _, h => if_neg (Nat.not_lt.2 (h _ List.mem_cons_self))

theorem visibleWrite_prune_own (t now c : Nat) (v : Word) (ws : List SWrite) :
    visibleWrite t now (pruneWrites now (⟨v, c, t⟩ :: ws)) = some v := by
  unfold pruneWrites
  split <;> exact if_pos (.inl rfl)

theorem sharedRead_sharedWriteAt_self (k : Core) (r t c now : Nat) (v : Word) (h : ∀ w ∈ getK [] k.shared r, w.at_ ≤ c) :
    (k.sharedWriteAt r t c now v).sharedRead r t now = v := by
  rw [Core.sharedRead, Core.sharedWriteAt, getK_setK_self, insertWrite_latest h, visibleWrite_prune_own]; rfl

theorem sharedRead_sharedWriteAt_ne (k : Core) {r r' : Nat} (t c now : Nat) (v : Word) (h : r' ≠ r) :
    (k.sharedWriteAt r t c now v).sharedRead r' t now = k.sharedRead r' t now := by
  rw [Core.sharedRead, Core.sharedWriteAt, getK_setK_ne _ _ _ h]; rfl

theorem wrAt_of_ne_s (s : State) (cx : Ctx) {o : Opnd} (v : Word) (c : Nat) (h : ∀ n, o ≠ .s n) : wrAt s cx o v c = wr s cx o v := by
  cases o with
  | s n => exact absurd rfl (h n)
  | _ => rfl

theorem wrAt_looms (s : State) (cx : Ctx) (o : Opnd) (v : Word) (c : Nat) : (wrAt s cx o v c).looms = s.looms := by
  cases o <;> rfl

theorem finishIssued_looms (s : State) (cx : Ctx) (o : Opnd) (v : Word) : (finishIssued s cx o v).looms = s.looms :=
  (complete_looms ..).trans (wrAt_looms ..)

/-! Completions: what they leave of the looms, and the state that they start from. -/

theorem rd_of_cores {s u : State} (hcores : u.cores = s.cores) (hnow : u.now = s.now) (cx : Ctx) (o : Opnd) : rd u cx o = rd s cx o := by
  unfold rd
  rw [getCore_of_cores hcores, hnow]

theorem getStrand_of_cores {s u : State} (hcores : u.cores = s.cores) (c t : Nat) : getStrand u c t = getStrand s c t := by
  rw [getStrand, getCore_of_cores hcores]; rfl

/-- A completion of an instruction in a state that differs in no core, no byte of memory and not in the cycle. -/
theorem resumed_of_cores {s u t : State} {cx : Ctx} {o : Opnd} {v : Word} (hcores : u.cores = s.cores) (hmem : u.mem = s.mem)
    (hnow : u.now = s.now) (h : Resumed u t cx o v) : Resumed s t cx o v where
  value := h.value
  goes := h.goes
  bytes := bytesSame_trans (bytesSame_of_eq hmem hcores) h.bytes
  registers p hp := (h.registers p hp).trans (rd_of_cores hcores hnow cx p)
  others d w hne := (h.others d w hne).trans (getStrand_of_cores hcores d w)

section
variable {s : State} {cx : Ctx} (hu : Undisturbed (getStrand s cx.core cx.strand))
include hu

theorem resumed_finish (o : Opnd) (v : Word) : Resumed s (finish s cx o v) cx o v :=
  resumed_of_finish v hu (fun _ => rfl) (bytesSame_refl s) (fun _ _ _ => rfl)

theorem resumed_complete : Resumed s (complete s cx) cx .none 0 :=
  resumed_of_complete hu (fun _ => rfl) (bytesSame_refl s) (fun _ _ _ => rfl)

/-- A write of a shared register that counts from its instruction's issue overrides all that count from no later cycle (R99). -/
theorem resumed_finishIssued {o : Opnd} (v : Word)
    (hwrites : ∀ n, o = .s n → ∀ w ∈ getK [] (getCore s cx.core).shared n.toNat, w.at_ ≤ cx.at_) :
    Resumed s (finishIssued s cx o v) cx o v := by
  by_cases ho : ∃ n, o = .s n
  · obtain ⟨n, rfl⟩ := ho
    let u := modCore s cx.core (fun k => k.sharedWriteAt n.toNat cx.strand cx.at_ s.now v)
    have hcore : getCore u cx.core = (getCore s cx.core).sharedWriteAt n.toNat cx.strand cx.at_ s.now v := getCore_modCore_self ..
    have hstrands : StrandsSame s u := strandsSame_modCore s cx.core rfl
    have hu' : Undisturbed (getStrand u cx.core cx.strand) := by rw [getStrand_of_strandsSame hstrands]; exact hu
    obtain ⟨hframe, hgoes⟩ := completeAt_frame u cx (nextPc cx) hu'
    refine ⟨(registerFrame_rd_none hframe _).trans ?_, hgoes, bytesSame_trans (bytesSame_modCore s rfl) hframe.bytes,
      fun p hp => (registerFrame_rd_none hframe p).trans ?_,
      fun d w hne => (othersSame_getStrand hframe.others hne).trans (getStrand_of_strandsSame hstrands d w)⟩
    · show (getCore u cx.core).sharedRead n.toNat cx.strand s.now = v
      rw [hcore, sharedRead_sharedWriteAt_self _ _ _ _ _ _ (hwrites n rfl)]
    · cases p with
      | s m =>
        have hm : m.toNat ≠ n.toNat := fun e => hp (congrArg Opnd.s (BitVec.eq_of_toNat_eq e))
        show (getCore u cx.core).sharedRead m.toNat cx.strand s.now = _
        rw [hcore, sharedRead_sharedWriteAt_ne _ _ _ _ _ hm]; rfl
      | _ => simp [rd, hcore, Core.sharedWriteAt, Core.strand]
  · rw [finishIssued, wrAt_of_ne_s s cx v cx.at_ (fun n e => ho ⟨n, e⟩)]
    exact resumed_finish hu o v

end

theorem resumed_finishIssued_of_keeps {s u : State} {cx : Ctx} {o : Opnd} (hkeeps : u.cores = s.cores ∧ u.mem = s.mem ∧ u.now = s.now)
    (hu : Undisturbed (getStrand s cx.core cx.strand)) (v : Word)
    (hwrites : ∀ n, o = .s n → ∀ w ∈ getK [] (getCore s cx.core).shared n.toNat, w.at_ ≤ cx.at_) :
    Resumed s (finishIssued u cx o v) cx o v := by
  obtain ⟨hcores, hmem, hnow⟩ := hkeeps
  rw [← getStrand_of_cores hcores] at hu
  rw [← getCore_of_cores hcores] at hwrites
  exact resumed_of_cores hcores hmem hnow (resumed_finishIssued hu v hwrites)

end Sys2Proof.Proofs
end

section
namespace Sys2Proof.Proofs

open Sys2Proof Sys2Proof.Machine Sys2Proof.Laws Sys2Proof.Claims

/-! A binding, a load and the stamp clock take effect (R171, R174, R158). -/

theorem exec_barrierBindEffect (cx : Ctx) (n : Nat) (mask : BitVec 16) (dst : Opnd) (s : State) :
    exec (.barrierBindEffect cx n mask dst) s = execBarrierBindEffect cx n mask dst s := rfl

theorem exec_nestLoadEffect (cx : Ctx) (n : Nat) (d : NestDesc) (dst : Opnd) (s : State) :
    exec (.nestLoadEffect cx n d dst) s = execNestLoadEffect cx n d dst s := rfl

theorem exec_stampReturn (cx : Ctx) (dst : Opnd) (s : State) : exec (.stampReturn cx dst) s = execStampReturn cx dst s := rfl

/-- The units of the loom after a binding that has given the status `st`. -/
def bindDone (s : State) (cx : Ctx) (n : Nat) (mask : BitVec 16) (st : Nat) : State :=
  if st != 0 then s
  else if mask = 0 then modBarrier s (loomOf cx.core) n (fun _ => {})
  else modBarrier s (loomOf cx.core) n (fun _ => { owner := ownerOf s cx.core cx.strand, by_ := cx.strand, mask := mask })

theorem bindDone_keeps (s : State) (cx : Ctx) (n : Nat) (mask : BitVec 16) (st : Nat) :
    (bindDone s cx n mask st).cores = s.cores ∧ (bindDone s cx n mask st).mem = s.mem ∧ (bindDone s cx n mask st).now = s.now := by
  unfold bindDone
  split
  · exact ⟨rfl, rfl, rfl⟩
  · split <;> exact ⟨rfl, rfl, rfl⟩

theorem bindDone_becomes (s : State) (cx : Ctx) (n : Nat) (mask : BitVec 16) (st : Nat) :
    BarrierBecomes s (bindDone s cx n mask st) (loomOf cx.core) n
      (if st ≠ 0 then getBarrier s (loomOf cx.core) n else if mask = 0 then {}
      else { owner := ownerOf s cx.core cx.strand, by_ := cx.strand, mask := mask }) := by
  unfold bindDone
  by_cases hst : st = 0
  · rw [if_neg (by simp [hst]), if_neg (not_not.2 hst)]
    split <;> exact barrierBecomes_modBarrier ..
  · rw [if_pos (by simp [hst]), if_pos hst]
    exact barrierBecomes_refl ..

section
variable {s : State} {cx : Ctx} {dst : Opnd} (h : Awaits s cx)
include h

theorem exec_barrierBindEffect_awaited (n : Nat) (mask : BitVec 16) {b : Barrier} (hb : b = getBarrier s (loomOf cx.core) n) {st : Nat}
    (hst : st = bindStatus s cx b.owner mask (b.leads.any (fun x => x.2 != 0))) :
    exec (.barrierBindEffect cx n mask dst) s = .next (finishIssued (bindDone s cx n mask st) cx dst (wd st)) := by
  rw [exec_barrierBindEffect, execBarrierBindEffect, h.1, hst, hb]; rfl

section
variable {n : Nat} {d : NestDesc}
  (hst : bindStatus s cx (getFetcher s (loomOf cx.core) n).owner d.mask ((getFetcher s (loomOf cx.core) n).chunks.any (fun x => x.2.cr != 0)) = 0)
  (hmask : d.mask ≠ 0)
include hst hmask

/-- A nest of 2^32 iterations or more is refused (R174). -/
theorem exec_nestLoadEffect_refuses (htotal : 2 ^ 32 ≤ nestTotal d) :
    exec (.nestLoadEffect cx n d dst) s = .next (finishIssued s cx dst 4) := by
  have hstatus : (if 0 = 0 ∧ d.mask ≠ 0 ∧ 2 ^ 32 ≤ nestTotal d then 4 else 0) = 4 := if_pos ⟨rfl, hmask, htotal⟩
  rw [exec_nestLoadEffect, execNestLoadEffect, h.1, if_neg (by decide)]
  dsimp only
  rw [hst, hstatus]; rfl

theorem exec_nestLoadEffect_loads (htotal : nestTotal d < 2 ^ 32) :
    exec (.nestLoadEffect cx n d dst) s = .next (finishIssued (modFetcher s (loomOf cx.core) n (fun _ =>
      { owner := ownerOf s cx.core cx.strand, by_ := cx.strand, desc := d, next := 0, rem := nestTotal d
        chunks := (getFetcher s (loomOf cx.core) n).chunks.map (fun c => (c.1, { c.2 with ci := 0, cr := 0 })) })) cx dst 0) := by
  have hstatus : (if 0 = 0 ∧ d.mask ≠ 0 ∧ 2 ^ 32 ≤ nestTotal d then 4 else 0) = 0 := if_neg (fun e => Nat.not_le.2 htotal e.2.2)
  rw [exec_nestLoadEffect, execNestLoadEffect, h.1, if_neg (by decide)]
  dsimp only
  rw [hst, hstatus, if_neg (by decide), if_neg hmask]; rfl

end

theorem exec_stampReturn_steps (hclock : s.stampClock < 2 ^ 48 - 1) : exec (.stampReturn cx dst) s =
    .next (finish { s with stampClock := s.stampClock + 1 } cx dst (wd s.stampClock)) := by
  have hbelow : s.stampClock < stampEnd := hclock
  rw [exec_stampReturn, execStampReturn]
  dsimp only
  rw [if_pos hbelow, if_pos hbelow]
  exact congrArg Host.Outcome.next (if_pos h.1)

theorem exec_stampReturn_stands (hclock : 2 ^ 48 - 1 ≤ s.stampClock) : exec (.stampReturn cx dst) s =
    .next (finish { s with stampClock := s.stampClock } cx dst (wd (2 ^ 63 + 2 ^ 48 - 1))) := by
  have hend : ¬ s.stampClock < stampEnd := Nat.not_lt.2 hclock
  rw [exec_stampReturn, execStampReturn]
  dsimp only
  rw [if_neg hend, if_neg hend]
  exact congrArg Host.Outcome.next (if_pos h.1)

/-- The stamp clock stands at `v` and the strand goes on with `w` (R158). -/
theorem resumed_stamp (v : Nat) (w : Word) : Resumed s (finish { s with stampClock := v } cx dst w) cx dst w ∧
    (finish { s with stampClock := v } cx dst w).stampClock = v := by
  have hu : Undisturbed (getStrand { s with stampClock := v } cx.core cx.strand) := h.2
  obtain ⟨hframe, -, -⟩ := finish_frame _ cx dst w hu
  exact ⟨resumed_of_cores (u := { s with stampClock := v }) rfl rfl rfl (resumed_finish hu dst w), (congrArg State.stampClock hframe.outside :)⟩

end

end Sys2Proof.Proofs
end

section
namespace Sys2Proof.Proofs

open Sys2Proof Sys2Proof.Machine Sys2Proof.Laws Sys2Proof.Claims

/-! The phase of a barrier (R162). -/

theorem mem_maskCols {m : BitVec 16} {i : Nat} : i ∈ maskCols m ↔ m.getLsbD i = true := by
  rw [maskCols, List.mem_filter, List.mem_range]
  exact ⟨And.right, fun hi => ⟨BitVec.lt_of_getLsbD hi, hi⟩⟩

theorem nodup_maskCols (m : BitVec 16) : (maskCols m).Nodup := List.nodup_range.filter _

theorem canComplete_iff {b : Barrier} : b.canComplete = true ↔ b.mask ≠ 0 ∧ ∀ i, b.mask.getLsbD i = true → 1 ≤ b.lead i := by
  simp only [Barrier.canComplete, Bool.and_eq_true, bne_iff_ne, List.all_eq_true, decide_eq_true_eq, mem_maskCols]

theorem canComplete_false {b : Barrier} {i : Nat} (hmem : b.mask.getLsbD i = true) (hlead : b.lead i = 0) : b.canComplete = false := by
  rw [← Bool.not_eq_true, canComplete_iff]
  intro h
  exact absurd (h.2 i hmem) (by omega)

/-- One off each lead of some columns. -/
theorem getK_foldl_pred (i : Nat) : ∀ {cols : List Nat}, cols.Nodup → ∀ leads : List (Nat × Nat),
    getK 0 (cols.foldl (fun l c => setK l c (getK 0 l c - 1)) leads) i = if i ∈ cols then getK 0 leads i - 1 else getK 0 leads i
  | [], _, _ => by simp
  | c :: cols, h, leads => by
    obtain ⟨hc, hcols⟩ := List.nodup_cons.1 h
    rw [List.foldl_cons, getK_foldl_pred i hcols, getK_setK]
    by_cases hi : i = c
    · subst hi; simp [hc]
    · simp [hi]

theorem lead_completePhase (b : Barrier) (i : Nat) :
    b.completePhase.lead i = if b.mask.getLsbD i then b.lead i - 1 else b.lead i := by
  rw [Barrier.lead, Barrier.completePhase, getK_foldl_pred i (nodup_maskCols b.mask)]
  simp only [mem_maskCols, Barrier.lead]

theorem lead_arrive (b : Barrier) (c i : Nat) : (b.arrive c).lead i = b.lead i + if i = c then 1 else 0 := by
  rw [Barrier.lead, Barrier.arrive, getK_setK]
  split
  · next h => rw [h]
  · rfl

/-- Barrier `b'` is `b` one phase on, with the arrives that were held counted. -/
structure PhaseDone (b b' : Barrier) : Prop where
  phase : b'.phase = b.phase + 1
  mask : b'.mask = b.mask
  owner : b'.owner = b.owner
  held : b'.held = []
  lead : ∀ i, b'.lead i = (if b.mask.getLsbD i then b.lead i - 1 else b.lead i) + if i ∈ b.held.map (fun h => colOf h.core) then 1 else 0

/-- Every member has arrived, one of them once, and an arrive that is held is that of a member whose lead is 3: one phase is due. -/
structure PhaseDue (b : Barrier) : Prop where
  held : b.held.length ≤ 1
  last : ∀ h ∈ b.held, b.mask.getLsbD (colOf h.core) = true ∧ b.lead (colOf h.core) = 3
  all : ∀ i, b.mask.getLsbD i = true → 1 ≤ b.lead i
  one : ∃ i, b.mask.getLsbD i = true ∧ b.lead i = 1

/-- A phase that completes lets a held arrive in, since it makes room for it. -/
theorem applyHeld_completePhase {b : Barrier} (hdue : PhaseDue b) :
    PhaseDone b (applyHeld b.held b.completePhase).1 ∧ (applyHeld b.held b.completePhase).2 = b.held := by
  match heq : b.held with
  | [] => exact ⟨⟨rfl, rfl, rfl, rfl, fun i => by rw [heq]; exact lead_completePhase b i⟩, rfl⟩
  | [h] =>
    obtain ⟨hmem, hlead⟩ := hdue.last h (by rw [heq]; exact List.mem_cons_self)
    have hroom : b.completePhase.lead (colOf h.core) < 3 := by rw [lead_completePhase, if_pos hmem, hlead]; decide
    have hone : applyHeld [h] b.completePhase = ({ b.completePhase.arrive (colOf h.core) with held := [] }, [h]) := if_pos hroom
    rw [hone]
    refine ⟨⟨rfl, rfl, rfl, rfl, fun i => ?_⟩, rfl⟩
    show (b.completePhase.arrive (colOf h.core)).lead i = _
    rw [lead_arrive, lead_completePhase, heq, List.map_singleton]
    simp only [List.mem_singleton]
  | _ :: _ :: _ => exact absurd hdue.held (by rw [heq]; simp)

/-- When one phase is due, exactly one completes. -/
theorem phases_due {b : Barrier} (hdue : PhaseDue b) {fuel : Nat} (hfuel : 2 ≤ fuel) :
    PhaseDone b (phases fuel b).1 ∧ (phases fuel b).2 = b.held := by
  obtain ⟨i, hmem, hone⟩ := hdue.one
  obtain ⟨n, rfl⟩ : ∃ n, fuel = n + 2 := ⟨fuel - 2, by omega⟩
  have hmask : b.mask ≠ 0 := fun e => by rw [e] at hmem; simp at hmem
  obtain ⟨hdone, hcounted⟩ := applyHeld_completePhase hdue
  have hnot : i ∉ b.held.map (fun h => colOf h.core) := fun h => by
    obtain ⟨c, hc, hcol⟩ := List.mem_map.1 h
    have := (hdue.last c hc).2
    rw [hcol, hone] at this
    exact absurd this (by decide)
  have hstop : (applyHeld b.held b.completePhase).1.canComplete = false :=
    canComplete_false (i := i) (by rw [hdone.mask]; exact hmem) (by rw [hdone.lead, if_pos hmem, if_neg hnot, hone])
  have hphases : phases (n + 2) b = applyHeld b.held b.completePhase := by
    rw [phases, if_pos (canComplete_iff.2 ⟨hmask, hdue.all⟩)]
    dsimp only
    rw [phases, if_neg (by rw [hstop]; decide)]
    simp
  rw [hphases]
  exact ⟨hdone, hcounted⟩

/-- The phase of a barrier with no arrive held (R162). -/
theorem barrierPhase : BarrierPhase := by
  intro b hheld _ hall hone fuel hfuel
  obtain ⟨hdone, hcounted⟩ := phases_due ⟨by rw [hheld]; exact Nat.zero_le 1, by rw [hheld]; nofun, hall, hone⟩ hfuel
  have hlead (j : Nat) := hdone.lead j
  simp only [hheld, List.map_nil, List.not_mem_nil, if_false, Nat.add_zero] at hlead
  exact ⟨hdone.phase, hdone.mask, hcounted.trans hheld, fun j hj => by rw [hlead, if_pos hj],
    fun j hj => by rw [hlead, if_neg (by rw [hj]; decide)]⟩

end Sys2Proof.Proofs
end

section
namespace Sys2Proof.Proofs

open Sys2Proof Sys2Proof.Machine Sys2Proof.Laws Sys2Proof.Claims

/-! Strands that rejoin one after another. -/

/-- The context is one of strand `u` of core `c`. -/
def OnStrand (d : Ctx) (c u : Nat) : Prop := d.core = c ∧ d.strand = u

theorem goesOn_waitOf {s : State} {cx : Ctx} {pc : Word} (h : GoesOn s cx pc) : waitOf s cx.core cx.strand = none := h.2.2

theorem completes_looms : ∀ (l : List Ctx) (s : State), (l.foldl complete s).looms = s.looms
  | [], _ => rfl
  | d :: l, s => (completes_looms l (complete s d)).trans (complete_looms s d)

theorem completes_bytes : ∀ (l : List Ctx) (s : State), BytesSame s (l.foldl complete s)
  | [], s => bytesSame_refl s
  | d :: l, s => bytesSame_trans (strandFrame_complete s d).bytes (completes_bytes l (complete s d))

theorem completes_getStrand {c u : Nat} : ∀ {l : List Ctx} (s : State), (∀ d ∈ l, ¬ OnStrand d c u) →
    getStrand (l.foldl complete s) c u = getStrand s c u
  | [], _, _ => rfl
  | d :: _, s, h => (completes_getStrand (complete s d) (fun e he => h e (List.mem_cons_of_mem _ he))).trans
      (othersSame_getStrand (strandFrame_complete s d).others (fun e => h d List.mem_cons_self ⟨e.1.symm, e.2.symm⟩))

theorem undisturbed_complete {s : State} {cx : Ctx} (h : Undisturbed (getStrand s cx.core cx.strand)) :
    Undisturbed (getStrand (complete s cx) cx.core cx.strand) := by
  rw [complete_undisturbed s cx h, getStrand_modStrand_self]
  exact ⟨h.1, h.2.1, nofun⟩

/-- A strand that is among those that rejoin, once or more at one place, goes on there; so does one that went on there before. -/
theorem completes_goesOn {cx : Ctx} {l : List Ctx} {s : State} (hown : ∀ d ∈ l, OnStrand d cx.core cx.strand → d = cx)
    (hu : Undisturbed (getStrand s cx.core cx.strand)) (hin : cx ∈ l ∨ GoesOn s cx (nextPc cx)) : GoesOn (l.foldl complete s) cx (nextPc cx) := by
  induction l generalizing s with
  | nil => exact hin.resolve_left List.not_mem_nil
  | cons d l ih =>
    have hown' : ∀ e ∈ l, OnStrand e cx.core cx.strand → e = cx := fun e he => hown e (List.mem_cons_of_mem _ he)
    by_cases hd : OnStrand d cx.core cx.strand
    · rw [List.foldl_cons, hown d List.mem_cons_self hd]
      exact ih hown' (undisturbed_complete hu) (.inr (completeAt_frame s cx (nextPc cx) hu).2)
    · have hsame : getStrand (complete s d) cx.core cx.strand = getStrand s cx.core cx.strand :=
        othersSame_getStrand (strandFrame_complete s d).others (fun e => hd ⟨e.1.symm, e.2.symm⟩)
      refine ih hown' (by rw [hsame]; exact hu) (hin.imp (fun h => ?_) (fun h => by unfold GoesOn; rw [hsame]; exact h))
      exact List.mem_of_ne_of_mem (fun e => hd (e ▸ ⟨rfl, rfl⟩)) h

/-! The end of a cycle at a barrier (R162). -/

/-- The strands that wait at a barrier and whose core's lead is 0. -/
theorem mem_barwReady {s : State} {l n : Nat} {d : Ctx} : d ∈ barwReady s l n ↔
    ∃ c u w, WaitsAt s l n c u w ∧ (getStrand s c u).st = .blocked ∧ (getBarrier s l n).lead (colOf c) = 0 ∧ w.cx = d := by
  have hcol {col : Nat} (h : col < 16) : colOf (l * 16 + col) = col := by unfold colOf; omega
  unfold barwReady
  simp only [List.mem_flatMap, List.mem_range]
  constructor
  · rintro ⟨col, hlt, hd⟩
    split at hd
    · next hlead =>
      obtain ⟨u, hu, hread⟩ := List.mem_filterMap.1 hd
      split at hread
      · next w hw =>
        split at hread
        · next hif =>
          exact ⟨l * 16 + col, u, w, ⟨col, hlt, List.mem_range.1 hu, rfl, hw, hif.2⟩, hif.1, by rw [hcol hlt]; exact hlead,
            Option.some.inj hread⟩
        · cases hread
      · cases hread
    · cases hd
  · rintro ⟨c, u, w, ⟨col, hlt, hu, rfl, hw, hwhy⟩, hst, hlead, rfl⟩
    rw [hcol hlt] at hlead
    refine ⟨col, hlt, ?_⟩
    rw [if_pos hlead]
    refine List.mem_filterMap.2 ⟨u, List.mem_range.2 hu, ?_⟩
    have hw' : (getStrand s (l * 16 + col) u).wait = some w := hw
    rw [hw']
    exact if_pos ⟨hst, hwhy⟩

/-- The barrier after the phases of a cycle. -/
def phasesDone (s : State) (l n : Nat) : State := modBarrier s l n (fun _ => (phases 1024 (getBarrier s l n)).1)

/-- The strands whose held arrives have been counted are on their way. -/
def arrivesDone (s : State) (l n : Nat) : State := (phases 1024 (getBarrier s l n)).2.foldl complete (phasesDone s l n)

theorem settleBarrier_eq (s : State) (l n : Nat) :
    settleBarrier s l n = (barwReady (arrivesDone s l n) l n).foldl complete (arrivesDone s l n) := by
  unfold settleBarrier arrivesDone phasesDone
  rcases phases 1024 (getBarrier s l n) with ⟨b, done⟩
  rfl

theorem phases_stuck {b : Barrier} (h : b.canComplete = false) (fuel : Nat) : phases fuel b = (b, []) := by
  cases fuel with
  | zero => rfl
  | succ n => rw [phases, if_neg (by rw [h]; decide)]

/-- Nobody waits and no phase can complete: nothing comes of the end of the cycle. -/
theorem settleBarrier_idle {s : State} {l n : Nat} (hstuck : (getBarrier s l n).canComplete = false) (hnobody : ∀ c u w, ¬ WaitsAt s l n c u w) :
    settleBarrier s l n = modBarrier s l n (fun _ => getBarrier s l n) := by
  have hdone : arrivesDone s l n = modBarrier s l n (fun _ => getBarrier s l n) := by
    rw [arrivesDone, phasesDone, phases_stuck hstuck]; rfl
  have hready : barwReady (arrivesDone s l n) l n = [] := by
    refine List.eq_nil_iff_forall_not_mem.2 (fun d hd => ?_)
    obtain ⟨c, u, w, hw, -⟩ := mem_barwReady.1 hd
    rw [hdone] at hw
    exact hnobody c u w hw
  rw [settleBarrier_eq, hready, hdone]; rfl

/-- The strands of a barrier's held arrives wait for them to be counted, undisturbed. -/
def HeldWait (s : State) (l n : Nat) : Prop :=
  ∀ h ∈ (getBarrier s l n).held, Undisturbed (getStrand s h.core h.strand) ∧ ∃ w, waitOf s h.core h.strand = some w ∧ w.why = .bara n

theorem not_onStrand_of_waitsAt {s : State} {l n : Nat}
    (hheldWaits : HeldWait s l n) {c u : Nat} {w : Wait} (hw : WaitsAt s l n c u w) : ∀ d ∈ (getBarrier s l n).held, ¬ OnStrand d c u := by
  rintro d hd ⟨rfl, rfl⟩
  obtain ⟨-, -, -, -, hwait, hwhy⟩ := hw
  obtain ⟨-, w', hwait', hwhy'⟩ := hheldWaits d hd
  cases hwait.symm.trans hwait'
  exact absurd (hwhy.symm.trans hwhy') nofun

theorem held_unique {b : Barrier} (hheld : b.held.length ≤ 1) {c d : Ctx} (hc : c ∈ b.held) (hd : d ∈ b.held) : c = d := by
  match heq : b.held, hheld with
  | [], _ => rw [heq] at hc; exact absurd hc List.not_mem_nil
  | [e], _ => rw [heq] at hc hd; rw [List.mem_singleton.1 hc, List.mem_singleton.1 hd]

section
variable {s : State} {l n : Nat} (hdue : PhaseDue (getBarrier s l n))
include hdue

theorem arrivesDone_eq : arrivesDone s l n = (getBarrier s l n).held.foldl complete (phasesDone s l n) := by
  rw [arrivesDone, (phases_due hdue (by decide)).2]

theorem settleBarrier_completes :
    settleBarrier s l n = ((getBarrier s l n).held ++ barwReady (arrivesDone s l n) l n).foldl complete (phasesDone s l n) := by
  rw [settleBarrier_eq, List.foldl_append, ← arrivesDone_eq hdue]

theorem settleBarrier_phase : PhaseDone (getBarrier s l n) (getBarrier (settleBarrier s l n) l n) ∧ BytesSame s (settleBarrier s l n) := by
  have hbarrier : getBarrier (settleBarrier s l n) l n = (phases 1024 (getBarrier s l n)).1 := by
    rw [settleBarrier_eq, getBarrier_of_looms (completes_looms ..), arrivesDone, getBarrier_of_looms (completes_looms ..), phasesDone]
    exact (barrierBecomes_modBarrier ..).1
  constructor
  · rw [hbarrier]; exact (phases_due hdue (by decide)).1
  · rw [settleBarrier_completes hdue]
    exact bytesSame_trans (bytesSame_of_eq rfl rfl) (completes_bytes _ (phasesDone s l n))

/-- A strand whose held arrive is none of the barrier's is as before when the held arrives have been counted. -/
theorem getStrand_arrivesDone {c u : Nat} (h : ∀ d ∈ (getBarrier s l n).held, ¬ OnStrand d c u) :
    getStrand (arrivesDone s l n) c u = getStrand s c u := by
  rw [arrivesDone_eq hdue]
  exact completes_getStrand (phasesDone s l n) h

section
variable (hheldWaits : HeldWait s l n)
include hheldWaits

/-- The strands that go on with the phase waited at the barrier before it. -/
theorem waitsAt_of_ready {d : Ctx} (hd : d ∈ barwReady (arrivesDone s l n) l n) :
    ∃ c u w, WaitsAt s l n c u w ∧ w.cx = d ∧ ∀ e ∈ (getBarrier s l n).held, ¬ OnStrand e c u := by
  obtain ⟨c, u, w, hw, -, -, hcx⟩ := mem_barwReady.1 hd
  have hfree : ∀ e ∈ (getBarrier s l n).held, ¬ OnStrand e c u := by
    rintro e he ⟨rfl, rfl⟩
    obtain ⟨col, hcol, hu, hcore, hwait, hwhy⟩ := hw
    have hgoes : GoesOn (arrivesDone s l n) e (nextPc e) := by
      rw [arrivesDone_eq hdue]
      exact completes_goesOn (fun d hd _ => held_unique hdue.held hd he) (hheldWaits e he).1 (.inl he)
    exact absurd (hwait.symm.trans (goesOn_waitOf hgoes)) nofun
  have hsame := getStrand_arrivesDone hdue hfree
  unfold WaitsAt waitOf at hw
  rw [hsame] at hw
  exact ⟨c, u, w, hw, hcx, hfree⟩

variable (hown : ∀ c u w, WaitsAt s l n c u w → w.cx.core = c ∧ w.cx.strand = u)
include hown

/-- A held arrive that is counted ends its strand's wait (R162). -/
theorem settleBarrier_held : ∀ h ∈ (getBarrier s l n).held, GoesOn (settleBarrier s l n) h (nextPc h) := by
  intro h hh
  rw [settleBarrier_completes hdue]
  refine completes_goesOn (fun d hd hsame => ?_) (hheldWaits h hh).1 (.inl (List.mem_append_left _ hh))
  obtain hd | hd := List.mem_append.1 hd
  · exact held_unique hdue.held hd hh
  · obtain ⟨c, u, w, hw, rfl, hfree⟩ := waitsAt_of_ready hdue hheldWaits hd
    obtain ⟨hcore, hstrand⟩ := hown c u w hw
    exact absurd ⟨hsame.1.symm.trans hcore, hsame.2.symm.trans hstrand⟩ (hfree h hh)

/-- A strand that goes on already, and has no arrive held, is left alone. -/
theorem settleBarrier_others {cx : Ctx} (hgoes : GoesOn s cx (nextPc cx)) (hu : Undisturbed (getStrand s cx.core cx.strand))
    (hfree : ∀ h ∈ (getBarrier s l n).held, ¬ OnStrand h cx.core cx.strand) : GoesOn (settleBarrier s l n) cx (nextPc cx) := by
  rw [settleBarrier_completes hdue]
  refine completes_goesOn (fun d hd hsame => ?_) hu (.inr hgoes)
  obtain hd | hd := List.mem_append.1 hd
  · exact absurd hsame (hfree d hd)
  · obtain ⟨c, u, w, hw, rfl, -⟩ := waitsAt_of_ready hdue hheldWaits hd
    obtain ⟨hcore, hstrand⟩ := hown c u w hw
    obtain ⟨-, -, -, -, hwait, -⟩ := hw
    have hnone : waitOf s c u = none := by rw [← hcore, ← hstrand, hsame.1, hsame.2]; exact goesOn_waitOf hgoes
    exact absurd (hwait.symm.trans hnone) nofun

/-- A strand that waits for its core's lead to be 0 goes on when it is (R172). -/
theorem settleBarrier_barw {c u : Nat} {w : Wait} (hw : WaitsAt s l n c u w) (hlead : (getBarrier (settleBarrier s l n) l n).lead (colOf c) = 0)
    (hst : (getStrand s c u).st = .blocked) (hu : Undisturbed (getStrand s c u)) : GoesOn (settleBarrier s l n) w.cx (nextPc w.cx) := by
  obtain ⟨hcore, hstrand⟩ := hown c u w hw
  have hfree := not_onStrand_of_waitsAt hheldWaits hw
  have hsame := getStrand_arrivesDone hdue hfree
  have hready : w.cx ∈ barwReady (arrivesDone s l n) l n := by
    refine mem_barwReady.2 ⟨c, u, w, ?_, by rw [hsame]; exact hst, ?_, rfl⟩
    · unfold WaitsAt waitOf; rw [hsame]; exact hw
    · rw [settleBarrier_eq, getBarrier_of_looms (completes_looms ..)] at hlead; exact hlead
  rw [settleBarrier_completes hdue]
  refine completes_goesOn (fun d hd hd' => ?_) (by rw [hcore, hstrand]; exact hu) (.inl (List.mem_append_right _ hready))
  rw [hcore, hstrand] at hd'
  obtain hd | hd := List.mem_append.1 hd
  · exact absurd hd' (hfree d hd)
  · obtain ⟨c', u', w', hw', rfl, -⟩ := waitsAt_of_ready hdue hheldWaits hd
    obtain ⟨hcore', hstrand'⟩ := hown c' u' w' hw'
    obtain rfl := hcore'.symm.trans hd'.1
    obtain rfl := hstrand'.symm.trans hd'.2
    obtain ⟨-, -, -, -, hwait, -⟩ := hw
    obtain ⟨-, -, -, -, hwait', -⟩ := hw'
    exact congrArg Wait.cx (Option.some.inj (hwait'.symm.trans hwait))

end

end

end Sys2Proof.Proofs
end

section
namespace Sys2Proof.Proofs

open Sys2Proof Sys2Proof.Machine Sys2Proof.Laws Sys2Proof.Claims

/-! An arrive takes effect (R162, R163, R172). -/

theorem arriveDue_congr {s t : State} (hpend : t.pend = s.pend) (hnow : t.now = s.now) (l n : Nat) : arriveDue t l n = arriveDue s l n := by
  rw [arriveDue, hpend, hnow]; rfl

theorem StrandFrame.arriveDue {s t : State} {c u : Nat} (h : StrandFrame s t c u) (l n : Nat) : Machine.arriveDue t l n = Machine.arriveDue s l n :=
  arriveDue_congr (congrArg State.pend h.outside :) (congrArg State.now h.outside :) l n

/-- The arrive of `cx` is counted. -/
def arriveCounted (s : State) (cx : Ctx) (n : Nat) : State :=
  complete (modBarrier s (loomOf cx.core) n (fun b => b.arrive (colOf cx.core))) cx

/-- A strand whose arrive is held (R162). -/
def heldArrive (n : Nat) (x : Strand) : Strand :=
  { x with st := .blocked, wait := x.wait.map (fun w => { w with why := .bara n, counted := true, count := 0 }) }

/-- The arrive of `cx` is held. -/
def arriveHeld (s : State) (cx : Ctx) (n : Nat) : State :=
  modStrand (modBarrier s (loomOf cx.core) n (fun b => { b with held := b.held ++ [cx] })) cx.core cx.strand (heldArrive n)

/-- What comes of an arrive before the phases of the cycle. -/
def arriveTaken (s : State) (cx : Ctx) (n : Nat) : State :=
  let b := getBarrier s (loomOf cx.core) n
  if !stillWaits s cx then s
  else if storesLeft s cx then sched s (s.now + 1) (.barrierArriveEffect cx n)
  else if !unitServes s cx b.owner b.mask then trapAt s cx 0x05 0
  else if b.lead (colOf cx.core) < 3 then arriveCounted s cx n
  else arriveHeld s cx n

theorem exec_barrierArriveEffect (cx : Ctx) (n : Nat) (s : State) : exec (.barrierArriveEffect cx n) s =
    .next (if arriveDue (arriveTaken s cx n) (loomOf cx.core) n then arriveTaken s cx n
      else settleBarrier (arriveTaken s cx n) (loomOf cx.core) n) := rfl

/-- An arrive with another to come in the cycle has no phase complete. -/
theorem exec_arrive_due {s t : State} {cx : Ctx} {n : Nat} (ht : arriveTaken s cx n = t) (hdue : arriveDue t (loomOf cx.core) n = true) :
    exec (.barrierArriveEffect cx n) s = .next t := by
  rw [exec_barrierArriveEffect, ht, if_pos hdue]

theorem exec_arrive_last {s t : State} {cx : Ctx} {n : Nat} (ht : arriveTaken s cx n = t) (hdue : arriveDue t (loomOf cx.core) n = false) :
    exec (.barrierArriveEffect cx n) s = .next (settleBarrier t (loomOf cx.core) n) := by
  rw [exec_barrierArriveEffect, ht, if_neg (by rw [hdue]; decide)]

section
variable {s : State} {cx : Ctx} (h : Awaits s cx) {n : Nat}
include h

theorem arriveTaken_waits (hstores : storesLeft s cx = true) : arriveTaken s cx n = sched s (s.now + 1) (.barrierArriveEffect cx n) := by
  simp [arriveTaken, h.1, hstores]

variable (hstores : storesLeft s cx = false)
include hstores

theorem arriveTaken_traps (hserves : unitServes s cx (getBarrier s (loomOf cx.core) n).owner (getBarrier s (loomOf cx.core) n).mask = false) :
    arriveTaken s cx n = trapAt s cx 0x05 0 := by
  simp [arriveTaken, h.1, hstores, hserves]

variable (hserves : unitServes s cx (getBarrier s (loomOf cx.core) n).owner (getBarrier s (loomOf cx.core) n).mask = true)
include hserves

theorem arriveTaken_held (hlead : 3 ≤ (getBarrier s (loomOf cx.core) n).lead (colOf cx.core)) : arriveTaken s cx n = arriveHeld s cx n := by
  simp [arriveTaken, h.1, hstores, hserves, Nat.not_lt.2 hlead]

theorem arriveTaken_counts (hlead : (getBarrier s (loomOf cx.core) n).lead (colOf cx.core) < 3) : arriveTaken s cx n = arriveCounted s cx n := by
  simp [arriveTaken, h.1, hstores, hserves, hlead]

end

theorem sched_arriveDue {s : State} {l n : Nat} (h : arriveDue s l n = true) (due : Nat) (ev : Instr) : arriveDue (sched s due ev) l n = true := by
  unfold arriveDue at h ⊢
  rw [sched_pend, List.any_append, sched_now, h]; rfl

theorem arriveCounted_arriveDue (s : State) (cx : Ctx) (n l m : Nat) : arriveDue (arriveCounted s cx n) l m = arriveDue s l m :=
  (strandFrame_complete (modBarrier s (loomOf cx.core) n (fun b => b.arrive (colOf cx.core))) cx).arriveDue l m

theorem arriveCounted_resumed {s : State} {cx : Ctx} (h : Undisturbed (getStrand s cx.core cx.strand)) (n : Nat) :
    Resumed s (arriveCounted s cx n) cx .none 0 :=
  resumed_of_cores (u := modBarrier s (loomOf cx.core) n (fun b => b.arrive (colOf cx.core))) rfl rfl rfl (resumed_complete h)

theorem arriveCounted_becomes (s : State) (cx : Ctx) (n : Nat) : BarrierBecomes s (arriveCounted s cx n) (loomOf cx.core) n
    ((getBarrier s (loomOf cx.core) n).arrive (colOf cx.core)) :=
  barrierBecomes_of_looms (barrierBecomes_modBarrier ..) (complete_looms ..)

theorem arriveHeld_becomes (s : State) (cx : Ctx) (n : Nat) : BarrierBecomes s (arriveHeld s cx n) (loomOf cx.core) n
    { getBarrier s (loomOf cx.core) n with held := (getBarrier s (loomOf cx.core) n).held ++ [cx] } :=
  barrierBecomes_of_looms (barrierBecomes_modBarrier s (loomOf cx.core) n (fun b => { b with held := b.held ++ [cx] })) rfl

/-- What a held arrive does to its strand. -/
theorem arriveHeld_strand (s : State) (cx : Ctx) (n : Nat) :
    getStrand (arriveHeld s cx n) cx.core cx.strand = heldArrive n (getStrand s cx.core cx.strand) := getStrand_modStrand_self ..

/-- The happenings of the counters (R158, R162, R163, R167, R171, R174). -/
theorem counterHappenings : CounterHappenings := by
  intro s cx dst h hwrites
  refine ⟨fun n mask => ?bind, fun n d => ?load, fun hclock => ?steps, fun hclock => ?stands, fun n => ?arrive⟩
  case bind =>
    exact ⟨_, exec_barrierBindEffect_awaited h n mask rfl rfl, resumed_finishIssued_of_keeps (bindDone_keeps ..) h.2 _ hwrites,
      barrierBecomes_of_looms (bindDone_becomes ..) (finishIssued_looms ..)⟩
  case load =>
    refine fun hst hmask => ⟨fun htotal => ?_, fun htotal => ?_⟩
    · exact ⟨_, exec_nestLoadEffect_loads h hst hmask htotal, resumed_finishIssued_of_keeps (modFetcher_keeps ..) h.2 0 hwrites,
        fetcherBecomes_of_looms (fetcherBecomes_modFetcher ..) (finishIssued_looms ..)⟩
    · exact ⟨_, exec_nestLoadEffect_refuses h hst hmask htotal, resumed_finishIssued h.2 4 hwrites,
        fetcherBecomes_of_looms (fetcherBecomes_refl ..) (finishIssued_looms ..)⟩
  case steps => exact ⟨_, exec_stampReturn_steps h hclock, resumed_stamp h ..⟩
  case stands => exact ⟨_, exec_stampReturn_stands h hclock, resumed_stamp h ..⟩
  case arrive =>
    intro b col hdue
    refine ⟨fun hstores hserves hlead => ?counted, fun hstores hserves hlead => ?held, fun hstores hserves => ?traps, fun hstores => ?waits⟩
    case counted =>
      exact ⟨_, exec_arrive_due (arriveTaken_counts h hstores hserves hlead) ((arriveCounted_arriveDue ..).trans hdue),
        arriveCounted_resumed h.2 n, arriveCounted_becomes ..⟩
    case held =>
      refine ⟨_, exec_arrive_due (arriveTaken_held h hstores hserves hlead) hdue, arriveHeld_becomes .., ?_, ?_, ?_, fun w hw => ?_⟩
      · rw [arriveHeld_strand]; rfl
      · exact bytesSame_trans (bytesSame_of_eq rfl rfl) (bytesSame_modStrand ..)
      · exact othersSame_modStrand (modBarrier s (loomOf cx.core) n _) ..
      · rw [waitOf, arriveHeld_strand]
        exact congrArg (Option.map _) hw
    case traps =>
      exact ⟨_, exec_arrive_due (arriveTaken_traps h hstores hserves) (((strandFrame_takeTrap ..).arriveDue ..).trans hdue), takeTrap_effect ..⟩
    case waits => exact exec_arrive_due (arriveTaken_waits h hstores) (sched_arriveDue hdue ..)

end Sys2Proof.Proofs
end

section
namespace Sys2Proof.Proofs

open Sys2Proof Sys2Proof.Machine Sys2Proof.Laws Sys2Proof.Claims

/-! The last arrive of a cycle (R162, R163, R172). -/

/-- What comes of an arrive that is counted as the last of its cycle. -/
def arriveSettled (s : State) (cx : Ctx) (n : Nat) : State := settleBarrier (arriveCounted s cx n) (loomOf cx.core) n

theorem waitsAt_congr {s t : State} {l n c u : Nat} {w : Wait} (h : getStrand t c u = getStrand s c u) :
    WaitsAt t l n c u w ↔ WaitsAt s l n c u w := by
  unfold WaitsAt waitOf
  rw [h]

theorem resumed_modBarrier {s t : State} {cx : Ctx} {o : Opnd} {v : Word} (h : Resumed s t cx o v) (l n : Nat) (f : Barrier → Barrier) :
    Resumed s (modBarrier t l n f) cx o v :=
  ⟨h.value, h.goes, h.bytes, h.registers, h.others⟩

/-- Who waits at a barrier when an instruction of another strand has completed waited there before. -/
theorem waitsAt_of_resumed {s t : State} {cx : Ctx} {o : Opnd} {v : Word} (h : Resumed s t cx o v) {l n c u : Nat} {w : Wait}
    (hw : WaitsAt t l n c u w) : WaitsAt s l n c u w := by
  by_cases hcx : c = cx.core ∧ u = cx.strand
  · obtain ⟨rfl, rfl⟩ := hcx
    obtain ⟨-, -, -, -, hwait, -⟩ := hw
    exact absurd (hwait.symm.trans (goesOn_waitOf h.goes)) nofun
  · exact (waitsAt_congr (h.others c u hcx)).1 hw

theorem cx_of_stillWaits {s : State} {cx : Ctx} (h : stillWaits s cx = true) {w : Wait} (hw : waitOf s cx.core cx.strand = some w) : w.cx = cx := by
  unfold waitOf at hw
  rw [stillWaits, hw] at h
  exact eq_of_beq h

section
variable {s : State} {cx : Ctx} (h : Awaits s cx) {n : Nat}
  (hown : ∀ c u w, WaitsAt s (loomOf cx.core) n c u w → w.cx.core = c ∧ w.cx.strand = u)
include h

/-- With a member that has not arrived, the arrive is counted and nothing more comes of it. -/
theorem arrive_counts_only {i : Nat} (hmem : (getBarrier s (loomOf cx.core) n).mask.getLsbD i = true)
    (hzero : ((getBarrier s (loomOf cx.core) n).arrive (colOf cx.core)).lead i = 0) (hnobody : ∀ c u w, ¬ WaitsAt s (loomOf cx.core) n c u w) :
    Resumed s (arriveSettled s cx n) cx .none 0 ∧
      BarrierBecomes s (arriveSettled s cx n) (loomOf cx.core) n
        ((getBarrier s (loomOf cx.core) n).arrive (colOf cx.core)) := by
  have hresumed := arriveCounted_resumed h.2 n
  have hbecomes := arriveCounted_becomes s cx n
  have hstuck : (getBarrier (arriveCounted s cx n) (loomOf cx.core) n).canComplete = false := by
    rw [hbecomes.1]; exact canComplete_false hmem hzero
  rw [arriveSettled, settleBarrier_idle hstuck (fun c u w hw => hnobody c u w (waitsAt_of_resumed hresumed hw))]
  have hagain := barrierBecomes_modBarrier (arriveCounted s cx n) (loomOf cx.core) n (fun _ => getBarrier (arriveCounted s cx n) (loomOf cx.core) n)
  rw [hbecomes.1] at hagain ⊢
  exact ⟨resumed_modBarrier hresumed .., barrierBecomes_trans hbecomes hagain⟩

variable (hdue : PhaseDue ((getBarrier s (loomOf cx.core) n).arrive (colOf cx.core))) (hheldWaits : HeldWait s (loomOf cx.core) n)
  (hapart : ∀ d ∈ (getBarrier s (loomOf cx.core) n).held, ¬ OnStrand d cx.core cx.strand)
include hown hdue hheldWaits hapart

/-- The phase that an arrive completes, with the strands that go on with it. -/
theorem arrive_completes :
    PhaseDone ((getBarrier s (loomOf cx.core) n).arrive (colOf cx.core)) (getBarrier (arriveSettled s cx n) (loomOf cx.core) n) ∧
      BytesSame s (arriveSettled s cx n) ∧ GoesOn (arriveSettled s cx n) cx (nextPc cx) ∧
      (∀ d ∈ (getBarrier s (loomOf cx.core) n).held, GoesOn (arriveSettled s cx n) d (nextPc d)) ∧
      ∀ c u w, WaitsAt s (loomOf cx.core) n c u w → (getBarrier (arriveSettled s cx n) (loomOf cx.core) n).lead (colOf c) = 0 →
        (getStrand s c u).st = .blocked → Undisturbed (getStrand s c u) → GoesOn (arriveSettled s cx n) w.cx (nextPc w.cx) := by
  have hresumed := arriveCounted_resumed h.2 n
  have hbarrier := (arriveCounted_becomes s cx n).1
  have hu : Undisturbed (getStrand (arriveCounted s cx n) cx.core cx.strand) :=
    undisturbed_complete (s := modBarrier s (loomOf cx.core) n (fun b => b.arrive (colOf cx.core))) h.2
  have hown' : ∀ c u w, WaitsAt (arriveCounted s cx n) (loomOf cx.core) n c u w → w.cx.core = c ∧ w.cx.strand = u :=
    fun c u w hw => hown c u w (waitsAt_of_resumed hresumed hw)
  have hheldWaits' : HeldWait (arriveCounted s cx n) (loomOf cx.core) n := by
    unfold HeldWait waitOf
    rw [hbarrier]
    intro d hd
    rw [hresumed.others d.core d.strand (hapart d hd)]
    exact hheldWaits d hd
  unfold arriveSettled
  generalize arriveCounted s cx n = r at hresumed hbarrier hu hown' hheldWaits'
  have hheld : (getBarrier r (loomOf cx.core) n).held = (getBarrier s (loomOf cx.core) n).held := (congrArg Barrier.held hbarrier :)
  have hdue' : PhaseDue (getBarrier r (loomOf cx.core) n) := hbarrier ▸ hdue
  obtain ⟨hphase, hbytes⟩ := settleBarrier_phase hdue'
  have hgoes : GoesOn (settleBarrier r (loomOf cx.core) n) cx (nextPc cx) :=
    settleBarrier_others hdue' hheldWaits' hown' hresumed.goes hu (hheld ▸ hapart)
  refine ⟨hbarrier ▸ hphase, bytesSame_trans hresumed.bytes hbytes, hgoes, hheld ▸ settleBarrier_held hdue' hheldWaits' hown',
    fun c u w hw hlead hst hundisturbed => ?_⟩
  by_cases hcx : c = cx.core ∧ u = cx.strand
  · obtain ⟨rfl, rfl⟩ := hcx
    obtain ⟨-, -, -, -, hwait, -⟩ := hw
    rw [cx_of_stillWaits h.1 hwait]
    exact hgoes
  · have hsame := hresumed.others c u hcx
    exact settleBarrier_barw hdue' hheldWaits' hown' ((waitsAt_congr hsame).2 hw) hlead (by rw [hsame]; exact hst) (by rw [hsame]; exact hundisturbed)

end

/-- The last arrive of a cycle: nothing more comes of it while a member has not arrived, and the phase that it completes (R162, R163, R172). -/
theorem arriveCompletes : ArriveCompletes := by
  intro s cx n h l b b1 hlast hstores hserves hlead hown
  have hexec : exec (.barrierArriveEffect cx n) s = .next (arriveSettled s cx n) :=
    exec_arrive_last (arriveTaken_counts h hstores hserves hlead) ((arriveCounted_arriveDue ..).trans hlast)
  refine ⟨fun ⟨i, hmem, hzero⟩ hnobody => ⟨_, hexec, arrive_counts_only h hmem hzero hnobody⟩,
    fun hheld hmembers hall hone => ⟨_, hexec, ?_⟩⟩
  have hdue : PhaseDue b1 := by
    refine ⟨hheld, fun d hd => ?_, hall, hone⟩
    obtain ⟨hmem, hthree, -⟩ := hmembers d hd
    exact ⟨hmem, hthree⟩
  have hheldWaits : HeldWait s l n := by
    intro d hd
    obtain ⟨-, -, -, hwaits⟩ := hmembers d hd
    exact hwaits
  have hapart : ∀ d ∈ b.held, ¬ OnStrand d cx.core cx.strand := by
    rintro d hd ⟨hcore, hstrand⟩
    obtain ⟨-, -, hne, -⟩ := hmembers d hd
    exact hne.elim (fun hne => hne hcore) (fun hne => hne hstrand)
  obtain ⟨hphase, hbytes, hgoes, hheldGo, hwaitersGo⟩ := arrive_completes h hown hdue hheldWaits hapart
  refine ⟨hphase.phase, hphase.mask, hphase.owner, hphase.held, fun i hi => ?_, hbytes, hgoes, hheldGo, hwaitersGo⟩
  exact (hphase.lead i).trans (congrArg (· + _) (if_pos hi))

/-! The counterexample to what the statement says of the claims that are due (R167). -/

/-- Loom 0 with a fetcher that lists a chunk for column 16, which no loom has, with a claim on its way. -/
def strayClaim : State where
  now := 4
  looms := [(0, { fetchers := [(0, { chunks := [(16, { claim := some 0 })] })] })]

/-- The claim is taken for one of core 16, the first of loom 1. -/
theorem strayClaim_due : claimDue strayClaim false = some (16, 0) := by decide

/-- No claim is on its way at that core's fetcher. -/
theorem strayClaim_chunks : (getFetcher strayClaim (loomOf 16) 0).chunks = [] := by decide

end Sys2Proof.Proofs

open Sys2Proof.Machine Sys2Proof.Laws Sys2Proof.Claims Sys2Proof.Proofs

/-- Refutes O21: the last clause of its claims speaks of every state, and so of one whose fetcher lists a chunk outside the columns 0 to 15 of its loom.
A claim of that chunk is taken for a core of another loom, at whose fetcher no claim is on its way. In `strayClaim` the chunk is that of column 16. -/
theorem not_countersAndNests : ¬ Obligations.CountersAndNests := by
  rintro ⟨-, -, -, -, hdue⟩
  obtain ⟨-, -, k, hmem, -⟩ := hdue strayClaim 16 0 strayClaim_due
  rw [strayClaim_chunks] at hmem
  exact absurd hmem List.not_mem_nil

/-- Settles O22: what each happening does (`counterHappenings`), the arrive after which the phase completes (`arriveCompletes`), and the phases of a
barrier, of which exactly one is due then (`phases_due`). -/
theorem countersChange : Obligations.CountersChange := ⟨counterHappenings, arriveCompletes, barrierPhase⟩
end
